-- ==== Sys2Proof/Word.lean ====
section
/-! DEFINITION. The word types of the SC-G8-1T: bytes, 32-bit words, 64-bit words (R5, R22, R23). -/

namespace Sys2Proof

/-- One byte of storage. -/
abbrev Byte := BitVec 8
/-- A 32-bit register or instruction word. -/
abbrev Word := BitVec 32
/-- A 64-bit pair, address or latch. -/
abbrev DWord := BitVec 64

end Sys2Proof
end

