-- ==== Sys2Proof/Config.lean ====
section
/-! DEFINITION. What the spec leaves open: free values with no body, and the constants of one part. -/

namespace Sys2Proof.Config

/-- An undefined 32-bit value (R3, R29, R30, R68): by the step counter and a place number. FREE VALUE, log 12. -/
opaque freeWord : Nat → Nat → Word
/-- An undefined predicate (R30): by the step counter and a place number. FREE VALUE, log 12. -/
opaque freeBool : Nat → Nat → Bool
/-- An undefined byte (scratchpad of R120, bytes of R134 and R130, scale bytes of R271). FREE VALUE, log 12. -/
opaque freeByte : Nat → Nat → Byte
/-- Which line of a full L1 set a fill replaces (R127): an index taken modulo the ways. FREE VALUE, log 13. -/
opaque l1Victim : Nat → Nat
/-- Which line a full L2 gives up (R141), and which line a full instruction cache (R11): an index taken modulo the lines held. FREE
VALUE, log 13. -/
opaque l2Victim : Nat → Nat
opaque icVictim : Nat → Nat
/-- Which of several free warp slots, tiles, scratchpad bases and block slots a placement takes (R73, R76, R120): an index taken
modulo their number, by the step counter and a kind. FREE VALUE, log 9. -/
opaque placeChoice : Nat → Nat → Nat
/-- The queueing times of a sounding (R312), by the step counter and the stop. FREE VALUE, log 17. -/
opaque sounding : Nat → Nat → Nat
/-- An ECDSA P-384 signature made by the security processor (R385, R335), as a number of 96 bytes, by the digest it signs
(a number of 48 bytes). FREE VALUE, log 16. -/
opaque signature : Nat → Nat
/-- A CHALLENGE signature (R335), by the step counter and the nonce. FREE VALUE, log 16. -/
opaque challengeSig : Nat → Nat → Nat
/-- The dies that a bring-up finds usable (R14), by the step counter. FREE VALUE, log 5. -/
opaque usable : Nat → BitVec 8
/-- The core position of a cell that is not enabled (R10, R135), taken modulo 8. FREE VALUE, log 5. -/
opaque spareCore : Nat → Nat
/-- The GiB of the reduced-service die tested when READY becomes 1 (R331), at most 128. FREE VALUE, log 5. -/
opaque memTested : Nat → Nat
/-- The certificate chain of SPDM slot 0 (R335). FREE VALUE, log 16. -/
opaque certChain : List Byte
/-- Measurements 1 to 4 of R335, digests of 48 bytes as numbers. FREE VALUE, log 16. -/
opaque measurement : Nat → Nat
/-- The fused rollback counter of measurement 5 (R335). FREE VALUE, log 16. -/
opaque rollback : Nat

/-- A UALink port does not reach a peer (R304, R374): by port and peer entry. FREE VALUE, log 107. -/
opaque portMisses : Nat → Nat → Bool
/-- Which of the ports that reach a peer carries a line (R304): by line, an index taken modulo their number. FREE VALUE, log 107. -/
opaque portChoice : Nat → Nat
/-- Compute dies and cells per die (R7, R10). -/
def dies : Nat := 8
def cells : Nat := 6
/-- Contexts, work queues, NVMe entries and peer entries (R326). -/
def contexts : Nat := 1024
def queues : Nat := 8192
/-- Virtual functions (R12, R17). -/
def vfs : Nat := 192
/-- Lines of a 96 MiB L2 and of a 256 KiB instruction cache (R7, R11). -/
def l2Lines : Nat := 786432
def icLines : Nat := 2048
/-- L1 sets and ways (R127). -/
def l1Sets : Nat := 1024
def l1Ways : Nat := 16
/-- WALL and wait times are kept in parts of a nanosecond of which every cycle of a clock of 600 to 1,200 MHz in steps of 50 MHz takes a
whole number (R89, R336): `cyclePart / MHz` parts to a cycle. -/
def wallUnit : Nat := 267711444
def cyclePart : Nat := 1000 * wallUnit
/-- The most clauses of one replay invocation (R294). -/
def methodClauses : Nat := 65536
/-- Cycles after which a pending launch entry is taken (R320). -/
def launchTimeout : Nat := 4096

end Sys2Proof.Config
end

