-- ==== Sys2Proof/Syntax.lean ====
section
/-! DEFINITION. The instructions of the opcode table, one constructor per row: the 151 instruction rows (R185, with the
variants the table lists apart) and the 76 rows of device and outside events, each a whole and indivisible step. -/

namespace Sys2Proof

/-- A guard (R25, R173): G = 15 is `always`, otherwise predicate `Pn`; n of 12 to 15 is ill-formed. -/
inductive Guard where
  | always
  | p (n : BitVec 4)
deriving DecidableEq, Repr

/-- Bytes that arrive from outside, and whether their TLP or reply carries poison (R371). -/
structure Payload where
  bytes : List Byte
  pois : Bool := false
deriving DecidableEq, Repr

/-- A source operand (R22). `imm` carries the 32-bit immediate of code 0x7E (R24); `rsv` is a code with no meaning in
its field, and is ill-formed. -/
inductive Src where
  | v (r : BitVec 6)
  | s (r : BitVec 5)
  | x (k : BitVec 2)
  | zero
  | lane
  | imm (val : Word)
  | rsv (code : BitVec 7)
deriving DecidableEq, Repr

/-- The fields of an ALU, XLN or SFU instruction (R173, R174). `cont` says that a continuation word is present; the bits
of `neg` and `abs` are A, B, C from bit 2 down. -/
structure LaneArgs where
  g : Guard
  n : Bool
  sd : Bool
  d : BitVec 6
  a : Src
  b : Src
  c : Src
  rnd : BitVec 3
  neg : BitVec 3
  abs : BitVec 3
  sub : BitVec 16
  cont : Bool
deriving DecidableEq, Repr

/-- MOVI (R197): the A and B fields hold a 14-bit value. -/
structure MoviArgs where
  g : Guard
  n : Bool
  sd : Bool
  d : BitVec 6
  imm : BitVec 14
deriving DecidableEq, Repr

/-- The fields of a MEM instruction (R177). -/
structure MemArgs where
  g : Guard
  sb : BitVec 3
  dat : BitVec 6
  adr : Src
  size : BitVec 3
  ord : BitVec 3
  scope : BitVec 3
  aop : BitVec 5
  off : BitVec 24
  cont : Bool
deriving DecidableEq, Repr

/-- The fields of WAITW (R179, R235). `val = .imm v` is VAL = 0x7E with IMM sign-extended to `v`. -/
structure WaitwArgs where
  g : Guard
  adr : Src
  cmp : BitVec 3
  w64 : Bool
  acq : Bool
  scope : BitVec 3
  val : Src
deriving DecidableEq, Repr

/-- The fields of an ENG or SYS instruction (R181). -/
structure EngArgs where
  g : Guard
  ecf : BitVec 4
  sdst : BitVec 5
  dimm : BitVec 13
  o1 : Src
  o2 : Src
  o3 : Src
  o4 : Src
  cont : Bool
deriving DecidableEq, Repr

/-- Algorithms an SPDM requester may offer (R335): the two the device supports, or another. -/
inductive SpdmAlg where
  | ecdsaP384
  | sha384
  | other (code : Nat)
deriving DecidableEq, Repr

/-- Where a soft error strikes (R370): a memory word (storage address), an L2 word of a die's copy, a 4-byte scratchpad
word of a block, a V register of a lane, an S register, an accumulator element, a tag, directory or filter entry of an L2, an entry of a core's fragment table. -/
inductive ErrSite where
  | hbm (addr : Nat)
  | l2 (die addr : Nat)
  | spad (b word : Nat)
  | vreg (b w lane r : Nat)
  | sreg (b w r : Nat)
  | acc (b elem : Nat)
  | l2tag (die line : Nat)
  | frag (core entry : Nat)
  | l1 (core asid line : Nat)
  | icache (core asid line : Nat)
deriving DecidableEq, Repr

/-- The instructions and events of the opcode table. -/
inductive Instr where
  /-- R192: Adds two 32-bit or 64-bit integers in each guarded lane, wrapping modulo 2^n. -/
  | iadd (x : LaneArgs)
  /-- R192: Subtracts two 32-bit or 64-bit integers in each guarded lane, wrapping modulo 2^n. -/
  | isub (x : LaneArgs)
  /-- R192: Writes bits [31:0] of the product of two 32-bit integers. -/
  | imul (x : LaneArgs)
  /-- R192: Writes bits [63:32] of the signed product of two 32-bit integers. -/
  | imulh (x : LaneArgs)
  /-- R192: Writes bits [63:32] of the unsigned product of two 32-bit integers. -/
  | umulh (x : LaneArgs)
  /-- R194: Computes a×b+c as a 32-bit result, or as a 64-bit unsigned or signed result into an even pair. -/
  | imad (x : LaneArgs)
  /-- R192: Writes the signed minimum of two integers. -/
  | imin (x : LaneArgs)
  /-- R192: Writes the signed maximum of two integers. -/
  | imax (x : LaneArgs)
  /-- R192: Writes the unsigned minimum of two integers. -/
  | umin (x : LaneArgs)
  /-- R192: Writes the unsigned maximum of two integers. -/
  | umax (x : LaneArgs)
  /-- R196: Writes the magnitude of a signed 32-bit integer modulo 2^32. -/
  | iabs (x : LaneArgs)
  /-- R192: Writes the bitwise AND of two sources. -/
  | andI (x : LaneArgs)
  /-- R192: Writes the bitwise OR of two sources. -/
  | orI (x : LaneArgs)
  /-- R192: Writes the bitwise XOR of two sources. -/
  | xorI (x : LaneArgs)
  /-- R192: Writes a AND NOT b. -/
  | andn (x : LaneArgs)
  /-- R193: Shifts A left by the count in B[7:0], giving 0 for counts of the width or more. -/
  | shl (x : LaneArgs)
  /-- R193: Shifts A right with zero fill by the count in B[7:0]. -/
  | shr (x : LaneArgs)
  /-- R193: Shifts A right with sign fill by the count in B[7:0]. -/
  | sar (x : LaneArgs)
  /-- R195: Extracts a bit field of A at the position and width given in B, zero- or sign-extended. -/
  | bfe (x : LaneArgs)
  /-- R195: Inserts the low bits of A into C at the position and width given in B. -/
  | bfi (x : LaneArgs)
  /-- R196: Writes the number of set bits of A. -/
  | popc (x : LaneArgs)
  /-- R196: Writes the number of leading zero bits of A. -/
  | clz (x : LaneArgs)
  /-- R196: Writes A with its bit order reversed. -/
  | brev (x : LaneArgs)
  /-- R197: Writes a where the named predicate is set and b elsewhere. -/
  | sel (x : LaneArgs)
  /-- R197: Copies a 32-bit or 64-bit source, or with an S destination makes a lane value uniform. -/
  | mov (x : LaneArgs)
  /-- R197: Writes the sign-extended 14-bit immediate held in the word itself. -/
  | movi (x : MoviArgs)
  /-- R198: Adds the 16-bit halves of two sources independently modulo 2^16. -/
  | iadd2 (x : LaneArgs)
  /-- R198: Subtracts the 16-bit halves of two sources independently modulo 2^16. -/
  | isub2 (x : LaneArgs)
  /-- R198: Writes the signed minimum of each 16-bit half. -/
  | imin2 (x : LaneArgs)
  /-- R198: Writes the signed maximum of each 16-bit half. -/
  | imax2 (x : LaneArgs)
  /-- R198: Adds the 16-bit halves with signed saturation. -/
  | iadds2 (x : LaneArgs)
  /-- R198: Subtracts the 16-bit halves with signed saturation. -/
  | isubs2 (x : LaneArgs)
  /-- R199: Adds two FP32 values with one rounding and sets flags. -/
  | fadd (x : LaneArgs)
  /-- R199: Computes a + (−b) in FP32 with one rounding. -/
  | fsub (x : LaneArgs)
  /-- R199: Multiplies two FP32 values with one rounding. -/
  | fmul (x : LaneArgs)
  /-- R199: Computes a×b+c in FP32 with a single rounding. -/
  | ffma (x : LaneArgs)
  /-- R199: Computes minimumNumber on the operand shape that SUB selects. -/
  | fmin (x : LaneArgs)
  /-- R199: Computes maximumNumber on the operand shape that SUB selects. -/
  | fmax (x : LaneArgs)
  /-- R200: Adds the halves of two FP32 pairs independently. -/
  | fadd2 (x : LaneArgs)
  /-- R200: Multiplies the halves of two FP32 pairs independently. -/
  | fmul2 (x : LaneArgs)
  /-- R200: Performs a fused multiply-add on each half of FP32 pairs. -/
  | ffma2 (x : LaneArgs)
  /-- R200: Adds the FP16 halves of two sources. -/
  | hadd2 (x : LaneArgs)
  /-- R200: Multiplies the FP16 halves of two sources. -/
  | hmul2 (x : LaneArgs)
  /-- R200: Performs a fused multiply-add on FP16 halves. -/
  | hfma2 (x : LaneArgs)
  /-- R200: Adds the BF16 halves of two sources. -/
  | badd2 (x : LaneArgs)
  /-- R200: Multiplies the BF16 halves of two sources. -/
  | bmul2 (x : LaneArgs)
  /-- R200: Performs a fused multiply-add on BF16 halves. -/
  | bfma2 (x : LaneArgs)
  /-- R200: Adds two FP64 pairs. -/
  | dadd (x : LaneArgs)
  /-- R200: Multiplies two FP64 pairs. -/
  | dmul (x : LaneArgs)
  /-- R200: Performs a fused multiply-add on FP64 pairs. -/
  | dfma (x : LaneArgs)
  /-- R201: Compares signed integers and writes a predicate pair. -/
  | icmp (x : LaneArgs)
  /-- R201: Compares unsigned integers and writes a predicate pair. -/
  | ucmp (x : LaneArgs)
  /-- R201: Compares FP32 values and writes a predicate pair. -/
  | fcmp (x : LaneArgs)
  /-- R201: Compares FP16 or BF16 halves and combines the half results into a predicate pair. -/
  | hcmp2 (x : LaneArgs)
  /-- R201: Compares FP64 values and writes a predicate pair. -/
  | dcmp (x : LaneArgs)
  /-- R202: Writes the AND of two optionally inverted predicates as a pair. -/
  | pand (x : LaneArgs)
  /-- R202: Writes the OR of two optionally inverted predicates as a pair. -/
  | por (x : LaneArgs)
  /-- R202: Writes the XOR of two optionally inverted predicates as a pair. -/
  | pxor (x : LaneArgs)
  /-- R203: Sets a predicate pair from the bit of the source at the lane index. -/
  | pset (x : LaneArgs)
  /-- R203: Writes P11 to P0 zero-extended into a register. -/
  | pmovTo (x : LaneArgs)
  /-- R203: Loads the masked predicates from bits of the source. -/
  | pmovFrom (x : LaneArgs)
  /-- R204: Combines one predicate or flag bit per participating lane into ALL, ANY, UNI or a ballot. -/
  | vote (x : LaneArgs)
  /-- R205: Gives each guarded lane the value of a source lane chosen by index, up, down or xor within a segment. -/
  | shfl (x : LaneArgs)
  /-- R206: Exchanges values between lanes of a quad horizontally, vertically or diagonally. -/
  | qswp (x : LaneArgs)
  /-- R206: Broadcasts one lane's value to every lane of its quad. -/
  | qbcst (x : LaneArgs)
  /-- R207: Computes an inclusive or exclusive prefix combination over the participating lanes in lane order. -/
  | scan (x : LaneArgs)
  /-- R207: Reduces the participating lanes in lane order into every lane or into an S register. -/
  | redw (x : LaneArgs)
  /-- R208: Writes to each participating lane the mask of lanes holding an equal value. -/
  | matchI (x : LaneArgs)
  /-- R209: Reads the sticky floating-point flags FL. -/
  | flgrd (x : LaneArgs)
  /-- R209: Clears the FL bits set in the source. -/
  | flgclr (x : LaneArgs)
  /-- R210: Reads a special register such as LANEID, CLK or MOVES. -/
  | sreg (x : LaneArgs)
  /-- R211: Computes 1/x in FP32, rounded once. -/
  | rcp (x : LaneArgs)
  /-- R211: Computes 1/√x in FP32, rounded once RNE. -/
  | rsq (x : LaneArgs)
  /-- R211: Computes √x in FP32, rounded once. -/
  | sqrt (x : LaneArgs)
  /-- R211: Computes 2^x in FP32, rounded once RNE. -/
  | exp2 (x : LaneArgs)
  /-- R211: Computes log2 x in FP32, rounded once RNE. -/
  | log2 (x : LaneArgs)
  /-- R211: Computes sin(πx) in FP32, rounded once RNE. -/
  | sinp (x : LaneArgs)
  /-- R211: Computes cos(πx) in FP32, rounded once RNE. -/
  | cosp (x : LaneArgs)
  /-- R211: Computes tanh x in FP32, rounded once RNE. -/
  | tanh (x : LaneArgs)
  /-- R212: Converts between integer and floating-point types, or rounds a float to an integral value. -/
  | cvt (x : LaneArgs)
  /-- R213: Packs two FP32 values into 16-bit halves, or unpacks halves into an FP32 pair. -/
  | cvtp (x : LaneArgs)
  /-- R214: Split-encodes two 16-lane blocks of FP32 elements into per-lane code words. -/
  | qenc (x : LaneArgs)
  /-- R215: Decodes a per-lane split-form word to FP32. -/
  | qdec (x : LaneArgs)
  /-- R219: Loads 8 to 128 bits per guarded lane from global memory with plain, acquire or relaxed ordering. -/
  | ld (x : MemArgs)
  /-- R219: Stores 8 to 128 bits per guarded lane to global memory with plain, release or relaxed ordering. -/
  | st (x : MemArgs)
  /-- R219: Loads from the block's scratchpad. -/
  | lds (x : MemArgs)
  /-- R219: Stores to the block's scratchpad. -/
  | sts (x : MemArgs)
  /-- R223: Performs an atomic read-modify-write on a global word per guarded lane at the home L2, returning the old value. -/
  | atom (x : MemArgs)
  /-- R223: Performs an atomic read-modify-write on a scratchpad word per guarded lane. -/
  | atoms (x : MemArgs)
  /-- R225: Orders the thread's accesses as an acquire, release or both at a scope, invalidating the L1 where required. -/
  | fence (x : MemArgs)
  /-- R226: Asks that each lane's line be fetched into the L1 and L2, never faulting. -/
  | pref (x : MemArgs)
  /-- R227: Drops the L1 lines of the context's ASID overlapping each lane's range. -/
  | l1inv (x : MemArgs)
  /-- R219: Loads through the on-chip window from another core's scratchpad, registers or accumulators. -/
  | ldw (x : MemArgs)
  /-- R219: Stores through the on-chip window to another core's scratchpad, registers or accumulators. -/
  | stw (x : MemArgs)
  /-- R228: Sends each guarded lane to the clause at a signed word offset from the BRA's clause header. -/
  | bra (g : Guard) (off : BitVec 22)
  /-- R229: Moves each guarded lane to CodeBase plus its operand, if the target is an executable LAND clause. -/
  | jmpi (g : Guard) (a : Src)
  /-- R56: Exchanges each guarded lane's resume point and frame pointer with a V pair and jumps. -/
  | csw (g : Guard) (a : Src)
  /-- R231: Ends each guarded real thread of ACT. -/
  | exitI (g : Guard)
  /-- R45: Sets a barrier register's MASK to the executing non-helper threads and releases waiters outside it. -/
  | bset (g : Guard) (bn : BitVec 4)
  /-- R45: Makes threads of MASK arrive and wait until the reconvergence barrier is done. -/
  | bwait (g : Guard) (bn : BitVec 4)
  /-- R46: Waits on a barrier register with a cycle count, reporting full release or expiry in a predicate pair. -/
  | bwaitTimed (g : Guard) (bn : BitVec 4) (pp : BitVec 4) (count : Word)
  /-- R45: Removes the executing threads from a barrier register's MASK and ARR and releases them. -/
  | bclr (g : Guard) (bn : BitVec 4)
  /-- R233: Arrives at a block barrier as a BLOCK-scope release and waits for its completion. -/
  | bar (g : Guard) (id : BitVec 4)
  /-- R233: Arrives at a block barrier without waiting. -/
  | barArv (g : Guard) (id : BitVec 4)
  /-- R233: Arrives at a cluster barrier as a CELL-scope release and waits for its completion. -/
  | cbar (g : Guard) (id : BitVec 3)
  /-- R233: Arrives at a cluster barrier without waiting. -/
  | cbarArv (g : Guard) (id : BitVec 3)
  /-- R234: Waits until an engine context's level reaches the value in an S pair, then acquires. -/
  | twait (g : Guard) (ec : BitVec 3) (n : Src)
  /-- R234: Waits until an engine context's level reaches an immediate value, then acquires. -/
  | twaitImm (g : Guard) (ec : BitVec 3) (val : Word)
  /-- R235: Waits until a global memory word meets a comparison, reading through the L2, optionally with an acquire. -/
  | waitw (x : WaitwArgs)
  /-- R236: Makes the group most recently issued and ends the clause as if YLD were set. -/
  | yieldI (g : Guard)
  /-- R236: Does nothing. -/
  | nop (g : Guard)
  /-- R262: Issues a copy command over a five-level loop nest on an engine context and returns its token. -/
  | cpy (x : EngArgs)
  /-- R263: Issues a command that split-encodes 16×16 tiles into tile records. -/
  | cenc (x : EngArgs)
  /-- R264: Issues a command that decodes tile records to FP32 or BF16. -/
  | cdec (x : EngArgs)
  /-- R267: Issues a command that multicasts a copy into a claimed ring slot of every consumer core, then marks it full. -/
  | cpym (x : EngArgs)
  /-- R266: Claims the ring slot at HEAD once it is free, marking every consumer as holding it. -/
  | ringp (x : EngArgs)
  /-- R266: Releases the issuing core's bit of a ring slot at CELL scope. -/
  | ringc (x : EngArgs)
  /-- R266: Waits until a ring slot is full and holds the core's bit, then acquires the filling writes. -/
  | ringcWait (x : EngArgs)
  /-- R268: Forms, joins or leaves a gang with a member mask. -/
  | gangset (x : EngArgs)
  /-- R270: Issues a matrix multiply-accumulate over split-form operands into an accumulator tile, with gang-supplied scales. -/
  | mma (x : EngArgs)
  /-- R270: Issues a dense BF16 matrix multiply-accumulate into an accumulator tile. -/
  | mmab (x : EngArgs)
  /-- R272: Issues a matrix-vector multiply whose partials are formed by the near-memory units of the stacks. -/
  | mmv (x : EngArgs)
  /-- R275: Issues a command that scales, drops out, adds a residual to and stores an accumulator tile, optionally clearing it. -/
  | drain (x : EngArgs)
  /-- R276: Issues a command that sets every element of an accumulator tile to +0. -/
  | azero (x : EngArgs)
  /-- R277: Issues a read of NVMe or UALink peer storage into memory or scratchpad, cut into 32 KiB requests. -/
  | iord (x : EngArgs)
  /-- R280: Writes a launch record into the block's pending-launch queue as a DEVICE release, waiting while it is full. -/
  | launch (x : EngArgs)
  /-- R281: Reads the current level of an engine context without acquiring. -/
  | lvl (x : EngArgs)
  /-- R282: Appends one mutating method call per guarded lane to a replayed object's log and returns positions. -/
  | rcall (x : EngArgs)
  /-- R283: Waits for the local copy to catch up and switches lanes into a read-only method. -/
  | rread (x : EngArgs)
  /-- R284: Waits until the die's copy has applied a position, then acquires at DEVICE scope. -/
  | rwait (x : EngArgs)
  /-- R285: Restarts a stopped engine command from an iteration vector, optionally with a replacement descriptor. -/
  | erst (x : EngArgs)
  /-- R285: Completes a stopped engine command without further iterations. -/
  | erstAbort (x : EngArgs)
  /-- R238: Makes each guarded lane take the software trap with a code and value. -/
  | trapI (x : EngArgs)
  /-- R241: Retires a trap record and exits the handler's threads. -/
  | tret (x : EngArgs)
  /-- R243: Reads half of a fragment-table entry named by a handle. -/
  | frgq (x : EngArgs)
  /-- R244: Sets a parked fragment's PC and clears its word index. -/
  | frgsetPc (x : EngArgs)
  /-- R244: Removes masked threads from a parked fragment, which exit. -/
  | frgsetRem (x : EngArgs)
  /-- R245: Resumes a parked fragment, executing the word at WIDX again. -/
  | frgres (x : EngArgs)
  /-- R245: Resumes a parked fragment past the instruction at WIDX. -/
  | frgresSkip (x : EngArgs)
  /-- R246: Exits every thread of a parked fragment and frees its entry. -/
  | frgkill (x : EngArgs)
  /-- R239: Stops the guarded lanes as a fragment under an attached debugger. -/
  | brk (x : EngArgs)
  /-- R240: Writes a mark packet into the trace while trace is enabled. -/
  | trcmark (x : EngArgs)
  /-- R248: Releases at DEVICE scope and completes a change of mapping over a range on every core of the partition. -/
  | mapt (x : EngArgs)
  /-- R249: Releases and drops every cached copy of a tensor layout record on every live die. -/
  | tlrinv (x : EngArgs)
  /-- R250: Writes a DIEMAP entry of the issuing cell's place table. -/
  | plcwDie (x : EngArgs)
  /-- R250: Writes a STGT storage-target entry of the issuing cell's place table. -/
  | plcwTgt (x : EngArgs)
  /-- R251: Sets the block's stow hint. -/
  | stow (x : EngArgs)
  /-- R251: Clears the block's stow hint. -/
  | stowClr (x : EngArgs)
  /-- R253: Reports the die's applied position of an object, re-seeding a broken copy first. -/
  | rsync (x : EngArgs)
  /-- R252: Registers a live V mask and scratchpad range for the warp's stow. -/
  | livem (x : EngArgs)
  /-- R252: Removes the warp's liveness registration. -/
  | livemClr (x : EngArgs)
  /-- R41: A warp issues the clause at the broadcast PC of its least recently issued group, decoding it first. -/
  | clauseIssue (b w : Nat)
  /-- R29: An outstanding register-writing memory operation completes, writing its register and decrementing its scoreboard. -/
  | loadComplete (b w k : Nat)
  /-- R157: A store, atomic or window store is acknowledged, decrementing the warp's release counter. -/
  | storeAck (b w k : Nat)
  /-- R46: A timed BWAIT's count expires, releasing its group with the expiry indication. -/
  | bwaitTimeout (b w : Nat)
  /-- R235: A waiting WAITW's test becomes true after a store and its threads are released with the final read. -/
  | waitwRelease (b w : Nat)
  /-- R88: The Wellhead re-reads a watched host or peer word at least every 4,096 cycles. -/
  | waitwPoll (b w : Nat)
  /-- R79: An active warp in a long-latency wait is swapped with the longest-pending ready warp. -/
  | warpSwap (core slice : Nat)
  /-- R80: A ready pending warp reaching PSTARV×64 cycles is swapped with the oldest active warp. -/
  | pendingStarvationSwap (core slice : Nat)
  /-- R259: An engine performs one iteration of an issued command. -/
  | commandIteration (b k tok : Nat)
  /-- R57: A command completes and the context's level advances, releasing TWAIT waiters. -/
  | commandComplete (b k tok : Nat)
  /-- R278: An NVMe completion or UALink read response for an IORD request arrives. -/
  | ioRequestComplete (b k tok : Nat) (ok : Bool) (data : Payload)
  /-- R320: The launch unit snapshots and frees every pending-launch entry of a block that has no runnable thread. -/
  | launchBatchTake (b : Nat)
  /-- R320: The oldest pending-launch entry reaches 4,096 cycles of CLK and the batch is taken. -/
  | launchBatchTimeout (b : Nat)
  /-- R329: The command processor takes and snapshots the next launch record of a host work queue by priority. -/
  | workQueueTake (q : Nat)
  /-- R73: The launch unit places a block or cluster on a cell and core once room is free. -/
  | blockPlace (grid : Nat)
  /-- R231: A block whose threads have exited frees its resources once its release counters and commands are done. -/
  | blockEnd (b : Nat)
  /-- R87: A stowable wait passes the STOWT threshold. -/
  | stowThresholdExpiry (b : Nat)
  /-- R67: A stowable block begins STOWING and writes its save set to a stow share. -/
  | stowBegin (b : Nat)
  /-- R70: Every stow write is acknowledged and the block becomes STOWED, freeing its core resources. -/
  | stowComplete (b : Nat)
  /-- R69: A stowed or saved block whose wake condition holds and whose room is free begins RESTORING. -/
  | restoreBegin (b : Nat)
  /-- R70: Every restore read completes, the L1 is invalidated and the block is RESIDENT again. -/
  | restoreComplete (b : Nat)
  /-- R328: Setting CTX_CTL.PRE stops the context's engines and blocks at their units. -/
  | preemptRequest (c : Nat)
  /-- R328: Clearing CTX_CTL.PRE clears SAVED and restores the context's blocks. -/
  | preemptClear (c : Nat)
  /-- R92: The collector completes once engines acknowledged and block states are written, setting SAVED. -/
  | preemptComplete (c : Nat)
  /-- R327: Setting CTX_CTL.EN lets the context run and its queued records be taken. -/
  | contextEnable (c : Nat)
  /-- R376: Clearing CTX_CTL.EN stops the context and frees a failed context's resources. -/
  | contextDisable (c : Nat)
  /-- R90: WALL reaches CTX_DEADLINE and the context takes one timer trap. -/
  | deadlineExpiry (c : Nat)
  /-- R379: A thread's wait time passes WDMS and a 0x39 report is written. -/
  | watchdogExpiry (b w : Nat)
  /-- R345: A pending trap's record is written to the ring once there is room, advancing TAIL with a release. -/
  | trapRecordWrite (c : Nat)
  /-- R346: A written record starts a one-warp handler block in the trapping block's cell. -/
  | handlerBlockStart (c : Nat)
  /-- R343: A write of an identifier to CTX_TRAPRET retires that record. -/
  | trapRecordRetire (c : Nat) (rid : Word)
  /-- R345: A write to CTX_TRAPQ or CTX_TRAPCTL retries a record write that failed. -/
  | trapqWrite (c : Nat) (ctl : Bool) (v : DWord)
  /-- R290: The sequencer assigns consecutive positions to an RCALL once the log has room and writes every live die's replica. -/
  | sequencerAssign (obj : Nat)
  /-- R292: A die's replay engine starts the next position of an object on its replay warp slot. -/
  | replayInvocationStart (die : Nat)
  /-- R294: An invocation reaches 65,536 clauses without EXIT and takes the method fault. -/
  | methodClauseLimit (die : Nat)
  /-- R295: Lane 0 of an invocation exits and the engine stores the result for a caller on its die. -/
  | replayInvocationEnd (die : Nat)
  /-- R295: Once the invocation's stores are acknowledged, APPLIED is written as a release and reported to the sequencer. -/
  | replayAppliedUpdate (die : Nat)
  /-- R378: The donor's copy is written over a broken copy, APPLIED set and BROKEN cleared. -/
  | rsyncReseedComplete (b w : Nat)
  /-- R126: Every translation cache and L1 of the partition drops the affected entries, completing a mapping change. -/
  | mappingChangeComplete (c : Nat) (va : DWord) (n : Nat)
  /-- R249: Every live die has dropped its cached copies of a TLR index. -/
  | tlrInvalidateComplete (c idx : Nat)
  /-- R164: A host write to device memory arrives and is performed as a store. -/
  | hostWrite (home : Option Nat) (pa : Nat) (data : Payload)
  /-- R371: A host read of device memory arrives, completing with a poisoned TLP for poisoned data. -/
  | hostRead (home : Option Nat) (pa n : Nat)
  /-- R164: A UALink peer write to device memory arrives and is performed as a store. -/
  | peerWrite (home : Option Nat) (pa : Nat) (data : Payload)
  /-- R371: A UALink peer read of device memory arrives and is answered. -/
  | peerRead (home : Option Nat) (pa n : Nat)
  /-- R329: A write of TAIL to a work queue descriptor makes new launch records available. -/
  | workQueueDoorbell (q : Nat) (tail : Word)
  /-- R330: Cold reset restarts bring-up at stage 0 and zeroes WALL. -/
  | coldReset
  /-- R337: Warm reset loses every context and restarts bring-up while WALL keeps counting. -/
  | warmReset
  /-- R330: A bring-up stage finishes, advancing STAGE and setting READY or ERR. -/
  | bringupStageComplete (err : BitVec 4)
  /-- R332: A write of GO applies WH_PARTNEW, or returns BUSY or refused. -/
  | partitionApply
  /-- R332: A write of GO with FORCE pre-empts affected contexts and then applies the map. -/
  | partitionApplyForce
  /-- R335: An SPDM GET_VERSION request on a DOE mailbox is answered. -/
  | getVersion (pf : Nat)
  /-- R335: An SPDM GET_CAPABILITIES request is answered. -/
  | getCapabilities (pf : Nat)
  /-- R335: An SPDM NEGOTIATE_ALGORITHMS request selects P-384 and SHA-384. -/
  | negotiateAlgorithms (pf : Nat) (offered : List SpdmAlg)
  /-- R335: An SPDM GET_DIGESTS request is answered. -/
  | getDigests (pf : Nat)
  /-- R335: An SPDM GET_CERTIFICATE request returns the slot 0 chain. -/
  | getCertificate (pf slot off len : Nat)
  /-- R335: An SPDM CHALLENGE request is answered with a signed response. -/
  | challenge (pf slot nonce : Nat)
  /-- R335: An SPDM GET_MEASUREMENTS request returns measurements 1 to 5. -/
  | getMeasurements (pf idx : Nat)
  /-- R385: A write of SIGN to WH_SEDCMD clears DONE and starts signing the newest sediment entry. -/
  | sedimentSign
  /-- R385: The security processor writes the ECDSA signature and sets DONE. -/
  | sedimentSignComplete
  /-- R336: The Wellhead lowers or raises the arithmetic clock or issue gating to hold power at LIM. -/
  | powerLimitAdjust (mhz k : Nat)
  /-- R336: After its own idle period the Wellhead puts an idle die in state 1 or 2. -/
  | dieIdleEntry (d : Nat) (deep : Bool)
  /-- R370: The Wellhead's periodic scrub of HBM4E frames or an L2 corrects or poisons words. -/
  | scrub (site : ErrSite) (corrected : Nat)
  /-- R373: A die-link lane passing its error threshold is replaced by its bundle's spare, or the bundle is dropped. -/
  | laneSpare (d dir bundle : Nat)
  /-- R373: A retrained die-link bundle resumes carrying traffic. -/
  | bundleRetrainComplete (d dir bundle : Nat)
  /-- R376: A failed die link or fatal die error loses the die, failing its contexts and poisoning its lines. -/
  | dieLost (d : Nat)
  /-- R374: A UALink port goes down and is removed from the spread once its requests finish. -/
  | ualinkPortDown (p : Nat)
  /-- R384: A UALink port comes up and the change is logged. -/
  | ualinkPortUp (p : Nat)
  /-- R309: A recorded block's interval ends after 2^20 instructions or a full share, writing a new checkpoint. -/
  | checkpointIntervalEnd (b : Nat)
  /-- R309: Setting DBG_CTL.REC starts checkpoint intervals at each block's next clause boundary. -/
  | recordedModeEnable (c : Nat)
  /-- R308: The debugger resumes a stopped fragment for one clause and parks it again. -/
  | debugStep (b w f : Nat)
  /-- R308: The debugger resumes a stopped fragment as FRGRES does. -/
  | debugContinue (b w f : Nat)
  /-- R311: The debugger reloads a checkpoint and re-executes a block from its input log to a named stop. -/
  | debugReachStop (b w n : Nat)
  /-- R317: Clearing DBG_CTL.ATT ends every debugger stop and resumes its fragments. -/
  | debugDetach (c : Nat)
  /-- R326: A host write to a host-space register or field with no behaviour of its own stores the value. -/
  | registerWrite (off size : Nat) (v : Nat)
  /-- R373: A die-link receiver that finds a flit failing its CRC has it sent again and counts the error towards its lane's threshold. -/
  | linkLevelRetry (d dir : Nat)
  /-- R374: A host PCIe link that meets errors retrains and reports them through AER, as PCIe Gen7 provides. -/
  | hostLinkRetrain (link : Nat)
deriving DecidableEq, Repr

end Sys2Proof
end

