-- ==== Sys2Proof/Decode.lean ====
section
/-! DEFINITION. Clauses and words: the fields of every class's words (R171 to R182), the checks of R183 and R354 to R366
as tables, the decoder of a word and of a clause, and the encoder written from the same layouts. -/

namespace Sys2Proof

/-- The clause classes (R171). -/
inductive Cls where
  | alu | xln | sfu | mem | ctl | eng | sys
deriving DecidableEq, Repr

/-- CLS of a header (R171); code 7 is reserved. -/
def Cls.ofBits (b : BitVec 3) : Option Cls :=
  match b.toNat with
  | 0 => some .alu | 1 => some .xln | 2 => some .sfu | 3 => some .mem | 4 => some .ctl | 5 => some .eng | 6 => some .sys
  | _ => none

def Cls.bits : Cls → BitVec 3
  | .alu => 0 | .xln => 1 | .sfu => 2 | .mem => 3 | .ctl => 4 | .eng => 5 | .sys => 6

/-- The three decode traps (R183): causes 0x01, 0x02 and 0x03 of R339. -/
inductive DecodeError where
  | illegalClause
  | illegalInstruction
  | illegalOperand
deriving DecidableEq, Repr

/-! ## Operand codes and guards -/

/-- The guard field G (R173). -/
def Guard.code : Guard → BitVec 4
  | .always => 15
  | .p n => n

def Guard.ofCode (c : BitVec 4) : Guard := if c = 15 then .always else .p c

/-- G = 12 to 14 are reserved (R173). -/
def Guard.wf : Guard → Bool
  | .always => true
  | .p n => decide (n.toNat < 12)

/-- The 7-bit code of a source operand (R22). -/
def Src.code : Src → BitVec 7
  | .v r => r.setWidth 7
  | .s r => 0x40#7 + r.setWidth 7
  | .x k => 0x60#7 + k.setWidth 7
  | .zero => 0x64
  | .lane => 0x65
  | .imm _ => 0x7E
  | .rsv c => c

/-- The operand a 7-bit code names (R22); `im` is the word that an immediate would take, where the form admits one. -/
def Src.ofCode (im : Option Word) (c : BitVec 7) : Src :=
  if c.toNat < 0x40 then .v (c.setWidth 6)
  else if c.toNat < 0x60 then .s (c.setWidth 5)
  else if c.toNat < 0x64 then .x (c.setWidth 2)
  else if c = 0x64 then .zero
  else if c = 0x65 then .lane
  else match im with
    | some iv => if c = 0x7E then .imm iv else .rsv c
    | none => .rsv c

def Src.isImm : Src → Bool
  | .imm _ => true
  | _ => false

def Src.isRsv : Src → Bool
  | .rsv _ => true
  | _ => false

/-- An odd register cannot name a pair (R23). -/
def Src.pairOk : Src → Bool
  | .v r => !r.getLsbD 0
  | .s r => !r.getLsbD 0
  | _ => true

/-- A source field that holds a predicate number 0 to 11, its upper bits zero (R175, R202). -/
def Src.predOk (s : Src) : Bool := decide (s.code.toNat < 12)

/-- The predicate number such a field holds. -/
def Src.predNum (s : Src) : Nat := s.code.toNat % 16

/-! ## Lane-class forms: what each field of each form admits (R186 to R215, R357) -/

/-- The kinds of destination (R175). -/
inductive Dst where
  | w32 | w64 | pred | none
deriving DecidableEq, Repr

/-- What a lane-class form admits, at the SUB value it carries. The masks are A, B, C from bit 2 down. -/
structure LaneSpec where
  useA : Bool := true
  useB : Bool := true
  useC : Bool := false
  negM : BitVec 3 := 0
  absM : BitVec 3 := 0
  rnd : Bool := false
  subOk : Bool := false
  sd : Bool := true
  dst : Dst := .w32
  pairs : BitVec 3 := 0
  predA : Bool := false
  predB : Bool := false
deriving DecidableEq, Repr

/-- A two-source integer form with the .64 suffix in SUB[0] (R192, R193, R197). -/
def LaneSpec.w64 (sub : BitVec 16) (pairs : BitVec 3) (one : Bool) : LaneSpec :=
  { useB := !one, subOk := decide (sub &&& 0xFFFE = 0), dst := if sub.getLsbD 0 then .w64 else .w32,
    pairs := if sub.getLsbD 0 then pairs else 0 }

/-- A form that admits no continuation field. -/
def LaneSpec.plain (sub : BitVec 16) (one : Bool) : LaneSpec := { useB := !one, subOk := decide (sub = 0) }

/-- A floating-point form with modifiers on its sources and a rounding (R199, R200). -/
def LaneSpec.float (sub : BitVec 16) (c : Bool) (pair : Bool) : LaneSpec :=
  { useC := c, negM := if c then 7 else 6, absM := if c then 7 else 6, rnd := true, subOk := decide (sub = 0),
    dst := if pair then .w64 else .w32, pairs := if pair then (if c then 7 else 6) else 0 }

/-- FMIN and FMAX (R199): the type in SUB[2:0]. -/
def LaneSpec.minMax (sub : BitVec 16) : LaneSpec :=
  let p := decide (sub = 1 ∨ sub = 4)
  { negM := 6, absM := 6, subOk := decide (sub.toNat < 5), dst := if p then .w64 else .w32, pairs := if p then 6 else 0 }

/-- A function of R211: one FP32 source with modifiers. -/
def LaneSpec.func (sub : BitVec 16) (rnd : Bool) : LaneSpec :=
  { useB := false, negM := 4, absM := 4, rnd := rnd, subOk := decide (sub = 0) }

/-- CVT (R212): source type in SUB[3:0], result type in SUB[7:4], SAT in SUB[8]. -/
def LaneSpec.cvt (sub : BitVec 16) : LaneSpec :=
  let f := (sub.setWidth 4).toNat
  let t := ((sub >>> 4).setWidth 4).toNat
  let flt := decide (8 ≤ f ∨ 8 ≤ t)
  { useB := false, negM := if 8 ≤ f then 4 else 0, absM := if 8 ≤ f then 4 else 0, rnd := flt,
    subOk := decide (f < 12 ∧ t < 12 ∧ sub &&& 0xFE00 = 0) && !(sub.getLsbD 8 && flt),
    dst := if t = 6 ∨ t = 7 ∨ t = 11 then .w64 else .w32, pairs := if f = 6 ∨ f = 7 ∨ f = 11 then 4 else 0 }

/-- CVTP (R213): modes 0 and 1 pack, 2 and 3 unpack. -/
def LaneSpec.cvtp (sub : BitVec 16) : LaneSpec :=
  let u := sub.getLsbD 1
  { useB := !u, negM := if u then 4 else 6, absM := if u then 4 else 6, rnd := !u, subOk := decide (sub &&& 0xFFFC = 0),
    dst := if u then .w64 else .w32 }

/-- A compare (R201): the condition in SUB[3:0]; `top` is the number of SUB bits the form names. -/
def LaneSpec.cmp (sub : BitVec 16) (int pair : Bool) (top : Nat) : LaneSpec :=
  { negM := if int then 0 else 6, absM := if int then 0 else 6, sd := false, dst := .pred,
    subOk := decide ((sub.setWidth 4).toNat < (if int then 6 else 8) ∧ sub.toNat < 2 ^ top),
    pairs := if pair then 6 else 0 }

/-- VOTE (R204). With SUB[3] = 0 a predicate is voted, and SUB[6:4] is not used. -/
def LaneSpec.vote (sub : BitVec 16) : LaneSpec :=
  let k := (sub.setWidth 3).toNat
  let fl := sub.getLsbD 3
  let bit := ((sub >>> 4).setWidth 3).toNat
  { useA := !fl, useB := false, negM := if fl then 0 else 4, predA := !fl, sd := decide (k = 3),
    subOk := decide (k < 4 ∧ sub.toNat < 128 ∧ bit < 5) && (fl || decide (bit = 0)),
    dst := if k = 3 then .w32 else .pred }

/-- SREG (R210): the identifier in SUB[7:0]; 0x20 to 0x22 are 64 bits wide. -/
def LaneSpec.sreg (sub : BitVec 16) : LaneSpec :=
  { useA := false, useB := false, subOk := decide (sub.toNat ≤ 0x10 ∨ (0x20 ≤ sub.toNat ∧ sub.toNat ≤ 0x22)),
    dst := if 0x20 ≤ sub.toNat then .w64 else .w32 }

/-- The table of lane-class forms; none where the OP is reserved in the class (R185, R354). MOVI is apart. -/
def laneSpec (c : Cls) (op : Nat) (sub : BitVec 16) : Option LaneSpec :=
  match c, op with
  | .alu, 0x05 => some { useC := true, subOk := decide (sub.toNat < 3), dst := if sub = 0 then .w32 else .w64,
                         pairs := if sub = 0 then 0 else 1 }
  | .alu, 0x02 | .alu, 0x03 | .alu, 0x04 | .alu, 0x12 => some (.plain sub false)
  | .alu, 0x0A | .alu, 0x14 | .alu, 0x15 | .alu, 0x16 => some (.plain sub true)
  | .alu, 0x0F | .alu, 0x10 | .alu, 0x11 => some (.w64 sub 4 false)
  | .alu, 0x13 => some { useC := true, subOk := decide (sub = 0) }
  | .alu, 0x17 => some { subOk := decide (sub &&& 0xFF0E = 0 ∧ sub.toNat / 16 < 12),
                         dst := if sub.getLsbD 0 then .w64 else .w32, pairs := if sub.getLsbD 0 then 6 else 0 }
  | .alu, 0x18 => some (.w64 sub 4 true)
  | .alu, 0x19 => none
  | .alu, 0x23 => some (.float sub true false)
  | .alu, 0x24 | .alu, 0x25 => some (.minMax sub)
  | .alu, 0x26 | .alu, 0x27 => some (.float sub false true)
  | .alu, 0x28 => some (.float sub true true)
  | .alu, 0x2B | .alu, 0x2E => some (.float sub true false)
  | .alu, 0x2F | .alu, 0x30 => some (.float sub false true)
  | .alu, 0x31 => some (.float sub true true)
  | .alu, n => if n < 0x0F then some (.w64 sub 6 false) else if n < 0x20 then some (.plain sub false)
               else if n < 0x2F then some (.float sub false false) else none
  | .xln, 0x00 | .xln, 0x01 => some (.cmp sub true (sub.getLsbD 4) 5)
  | .xln, 0x02 => some (.cmp sub false false 4)
  | .xln, 0x03 => some (.cmp sub false false 7)
  | .xln, 0x04 => some (.cmp sub false true 4)
  | .xln, 0x05 | .xln, 0x06 | .xln, 0x07 =>
    some { negM := 6, subOk := decide (sub = 0), sd := false, dst := .pred, predA := true, predB := true }
  | .xln, 0x08 => some { useB := false, subOk := decide (sub = 0), sd := false, dst := .pred }
  | .xln, 0x09 => some (if sub.getLsbD 0 then { useB := false, subOk := decide (sub &&& 0xE = 0), sd := false, dst := .none }
                        else { useA := false, useB := false, subOk := decide (sub = 0) })
  | .xln, 0x0A => some (.vote sub)
  | .xln, 0x0B => some { subOk := decide (sub &&& 0xF8F8 = 0 ∧ sub.toNat / 256 < 6), sd := false,
                         dst := if sub.getLsbD 2 then .w64 else .w32, pairs := if sub.getLsbD 2 then 4 else 0 }
  | .xln, 0x0C => some { useB := false, subOk := decide (sub &&& 0xFFF8 = 0 ∧ sub &&& 3 ≠ 3), sd := false,
                         dst := if sub.getLsbD 2 then .w64 else .w32, pairs := if sub.getLsbD 2 then 4 else 0 }
  | .xln, 0x0D => some { subOk := decide (sub &&& 0xFFFB = 0), sd := false,
                         dst := if sub.getLsbD 2 then .w64 else .w32, pairs := if sub.getLsbD 2 then 4 else 0 }
  | .xln, 0x0E => some { useB := false, subOk := decide (sub &&& 0xFFE0 = 0 ∧ (sub &&& 0xF).toNat < 11), sd := false }
  | .xln, 0x0F => some { useB := false, subOk := decide (sub.toNat < 11) }
  | .xln, 0x10 => some { useB := false, subOk := decide (sub.toNat < 2), sd := false, pairs := if sub.getLsbD 0 then 4 else 0 }
  | .xln, 0x11 => some { useA := false, useB := false, subOk := decide (sub = 0) }
  | .xln, 0x12 => some { useB := false, subOk := decide (sub = 0), sd := false, dst := .none }
  | .xln, 0x13 => some (.sreg sub)
  | .sfu, 0x00 | .sfu, 0x02 => some (.func sub true)
  | .sfu, 0x08 => some (.cvt sub)
  | .sfu, 0x09 => some (.cvtp sub)
  | .sfu, 0x0A => some { subOk := decide (sub.toNat < 2), sd := false }
  | .sfu, 0x0B => some { useB := false, subOk := decide (sub.toNat < 2) }
  | .sfu, n => if n < 8 then some (.func sub false) else none
  | _, _ => none

/-- The illegal-instruction checks of a lane-class word (R174, R183, R188, R189, R354, R357). -/
def laneInstrOk (c : Cls) (op : Nat) (x : LaneArgs) : Bool :=
  match laneSpec c op x.sub with
  | none => false
  | some sp =>
    x.g.wf && sp.subOk
    && (x.cont || (decide (x.c = .zero ∧ x.rnd = 0 ∧ x.neg = 0 ∧ x.abs = 0 ∧ x.sub = 0) && !sp.useC))
    && (x.cont || (decide (x.a.code ≠ 0x7E ∧ x.b.code ≠ 0x7E)))
    && decide (x.rnd.toNat < (if sp.rnd then 5 else 1))
    && decide (x.neg &&& ~~~sp.negM = 0) && decide (x.abs &&& ~~~sp.absM = 0)
    && (sp.useA || decide (x.a = .zero)) && (sp.useB || decide (x.b = .zero)) && (sp.useC || decide (x.c = .zero))
    && (sp.sd || !x.sd)
    && (!sp.predA || x.a.predOk) && (!sp.predB || x.b.predOk)
    && (match sp.dst with
        | .pred => decide (x.d.toNat ≤ 10) && !x.d.getLsbD 0
        | .none => decide (x.d = 0)
        | _ => true)

/-- The illegal-operand checks of a lane-class word (R22 to R24, R175, R183, R354). With an immediate every other
continuation field reads as omitted (R174). -/
def laneOpndOk (c : Cls) (op : Nat) (x : LaneArgs) : Bool :=
  match laneSpec c op x.sub with
  | none => false
  | some sp =>
    !x.a.isRsv && !x.b.isRsv && !x.c.isRsv && !x.c.isImm && !(x.a.isImm && x.b.isImm)
    && (!(x.a.isImm || x.b.isImm) || decide (x.c = .zero ∧ x.rnd = 0 ∧ x.neg = 0 ∧ x.abs = 0 ∧ x.sub = 0))
    && (!x.sd || !x.d.getLsbD 5)
    && (!sp.pairs.getLsbD 2 || x.a.pairOk) && (!sp.pairs.getLsbD 1 || x.b.pairOk) && (!sp.pairs.getLsbD 0 || x.c.pairOk)
    && (decide (sp.dst ≠ .w64) || !x.d.getLsbD 0)

/-! ## MEM forms (R177, R178, R359) -/

/-- The illegal-instruction checks of a MEM word. -/
def memInstrOk (op : Nat) (x : MemArgs) : Bool :=
  let reg := decide (op = 0 ∨ op = 2 ∨ op = 4 ∨ op = 5 ∨ op = 9)
  let atom := decide (op = 4 ∨ op = 5)
  x.g.wf && decide (op < 11)
  && (x.cont || decide (x.scope = 0 ∧ x.aop = 0 ∧ x.off = 0))
  && decide (x.sb ≠ 6) && (reg || decide (x.sb = 7))
  && decide (x.size.toNat < 5 ∧ x.ord.toNat < 5 ∧ x.scope.toNat < 6)
  && (decide (x.ord ≠ 0) || decide (x.scope = 0))
  && (if atom then decide ((x.size = 2 ∨ x.size = 3) ∧ 1 ≤ x.aop.toNat ∧ x.aop.toNat ≤ 11 ∧ ¬ (x.aop = 11 ∧ x.size = 3))
      else decide (x.aop = 0))
  && (match op with
      | 0 => decide (x.ord = 0 ∨ x.ord = 1 ∨ x.ord = 4)
      | 1 => decide (x.ord = 0 ∨ x.ord = 2 ∨ x.ord = 4)
      | 4 => decide (x.ord ≠ 0)
      | 5 => decide (x.ord = 4)
      | 6 => decide (x.ord ≠ 0 ∧ x.ord ≠ 4 ∧ x.dat = 0 ∧ x.adr = .v 0 ∧ x.size = 0 ∧ x.off = 0)
      | 7 => decide (x.ord = 0 ∧ x.size = 0 ∧ x.dat = 0)
      | 8 => decide (x.ord = 0 ∧ x.size = 0)
      | _ => decide (x.ord = 0))

/-- A base of the global and window forms: a V or S pair, and zero where `z` (R178). -/
def pairBase (z : Bool) : Src → Bool
  | .v r => !r.getLsbD 0
  | .s r => !r.getLsbD 0
  | .zero => z
  | _ => false

/-- A base of the scratchpad forms: a V or S register or zero (R178). -/
def singleBase : Src → Bool
  | .v _ => true
  | .s _ => true
  | .zero => true
  | _ => false

/-- The illegal-operand checks of a MEM word: the base, and the pair and quad rules of the data register. -/
def memOpndOk (op : Nat) (x : MemArgs) : Bool :=
  (match op with
   | 2 | 3 | 5 => singleBase x.adr
   | 6 => true
   | 9 | 10 => pairBase false x.adr
   | _ => pairBase true x.adr)
  && (decide (x.size ≠ 3) || !x.dat.getLsbD 0)
  && (decide (x.size ≠ 4) || decide (x.dat &&& 3 = 0))
  && (decide (x.aop ≠ 10) || decide (if x.size = 3 then x.dat &&& 3 = 0 else x.dat &&& 1 = 0))

/-! ## ENG and SYS forms (R181, R237, R256, R363, R366) -/

/-- What an operand field of an ENG or SYS form accepts. -/
inductive Opk where
  | none | s | sPair | sz | v | vPair | vsz
deriving DecidableEq, Repr

/-- What the SDST field of a form holds. -/
inductive SdstKind where
  | none | one | pair
deriving DecidableEq, Repr

/-- What an ENG or SYS form admits. `dimmM` is the mask of the DIMM bits it names. -/
structure EngSpec where
  ecfOk : Bool
  sdst : SdstKind := .none
  dimmM : BitVec 13 := 0
  dimmOk : Bool := true
  need : Bool := false
  o1 : Opk := .none
  o2 : Opk := .none
  o3 : Opk := .none
deriving DecidableEq, Repr

/-- The ENG forms (R256): `k` says that ECF names a context. `o4` is given apart by `engO4`. -/
def engSpec (op : Nat) (ecf : BitVec 4) (dimm : BitVec 13) : Option EngSpec :=
  let k := decide (ecf.toNat < 8)
  let z := decide (ecf = 0)
  match op with
  | 0x00 | 0x02 | 0x0D => some { ecfOk := k, sdst := .pair, need := true, o1 := .s }
  | 0x01 => some { ecfOk := k, sdst := .pair, need := true, o1 := .s, o2 := .s }
  | 0x03 => some { ecfOk := k, sdst := .pair, dimmM := 7, need := true, o1 := .s, o2 := .s, o3 := .s }
  | 0x04 => some { ecfOk := z, sdst := .one, dimmM := 7, need := true, o1 := .s }
  | 0x05 => some { ecfOk := z, dimmM := 0xF, need := true, o1 := .s, o2 := .s }
  | 0x06 => some { ecfOk := z, need := true, o1 := .sz }
  | 0x07 => some { ecfOk := k, sdst := .pair, dimmM := 0x1FFF, need := true, o1 := .sPair, o2 := .sPair, o3 := .s,
                   dimmOk := decide (dimm &&& 3 ≠ 3 ∧ dimm &&& 0xC ≠ 0xC) }
  | 0x08 => some { ecfOk := k, sdst := .pair, dimmM := 0xFF, need := true, o1 := .sPair, o2 := .sPair, o3 := .s,
                   dimmOk := decide (dimm &&& 3 ≠ 3 ∧ dimm &&& 0xC ≠ 0xC) }
  | 0x09 => some { ecfOk := k, sdst := .pair, dimmM := 0x3F, need := true, o1 := .s, o2 := .sPair, o3 := .s,
                   dimmOk := decide (dimm &&& 0x18 ≠ 0x18) }
  | 0x0A => some { ecfOk := k, sdst := .pair, dimmM := 0x1F, need := true, o1 := .s }
  | 0x0B => some { ecfOk := k, sdst := .pair, dimmM := 0xF }
  | 0x0C => some { ecfOk := k, sdst := .pair, dimmM := 0x1F, need := true, o1 := .sPair, o2 := .sPair, o3 := .s }
  | 0x0E => some { ecfOk := k, sdst := .pair }
  | 0x0F => some { ecfOk := z, sdst := .pair, dimmM := 0x1FF, dimmOk := decide (dimm &&& 0x1C0 ≠ 0x1C0), need := true,
                   o1 := .sPair, o2 := .vPair, o3 := if dimm &&& 0x1C0 = 0 then .sz else .vPair }
  | 0x10 => some { ecfOk := z, sdst := .pair, dimmM := 0x3F, need := true, o1 := .sPair, o2 := .vPair }
  | 0x11 => some { ecfOk := z, need := true, o1 := .sPair, o2 := .sPair }
  | 0x12 => some { ecfOk := z, sdst := .one, dimmM := 1, need := true, o1 := .s, o2 := .sPair, o3 := .s }
  | _ => none

/-- O4 of an ENG form (R256): MMA's scale register, MMV's K-tile count, RCALL's position pair, ERST's descriptor. -/
def engO4 (op : Nat) : Opk :=
  match op with
  | 0x07 => .v
  | 0x09 => .s
  | 0x0F => .vPair
  | 0x12 => .sz
  | _ => .none

/-- The SYS forms (R237). -/
def sysSpec (op : Nat) (ecf : BitVec 4) (dimm : BitVec 13) : Option EngSpec :=
  let z := decide (ecf = 0)
  let zo := decide (ecf.toNat < 2)
  match op with
  | 0x00 => some { ecfOk := z, dimmM := 0xFF, o1 := .vsz }
  | 0x01 => some { ecfOk := z, o1 := .s }
  | 0x02 => some { ecfOk := zo, sdst := .pair, o1 := .s }
  | 0x03 => some { ecfOk := zo, sdst := .one, o1 := .s, o2 := if ecf = 0 then .sPair else .s }
  | 0x04 => some { ecfOk := zo, sdst := .one, o1 := .s }
  | 0x05 => some { ecfOk := z, sdst := .one, o1 := .s }
  | 0x06 => some { ecfOk := z, dimmM := 0xFF }
  | 0x07 => some { ecfOk := z, dimmM := 0xFF, o1 := .vsz }
  | 0x08 => some { ecfOk := z, o1 := .sPair, o2 := .s }
  | 0x09 => some { ecfOk := z, dimmM := 0xFF }
  | 0x0A => some { ecfOk := decide (ecf = 1 ∨ ecf = 2), dimmM := 0xF, dimmOk := decide (ecf ≠ 1 ∨ dimm.toNat < 8), o1 := .s }
  | 0x0B => some { ecfOk := zo }
  | 0x0C => some { ecfOk := z, sdst := .pair, o1 := .sPair }
  | 0x0D => some (if ecf = 0 then { ecfOk := true, o1 := .sPair, o2 := .s, o3 := .s } else { ecfOk := decide (ecf = 1) })
  | _ => none

def engSpecOf (c : Cls) (op : Nat) (x : EngArgs) : Option EngSpec :=
  match c with
  | .eng => engSpec op x.ecf x.dimm
  | .sys => sysSpec op x.ecf x.dimm
  | _ => none

def engO4Of (c : Cls) (op : Nat) : Opk :=
  match c with
  | .eng => engO4 op
  | _ => .none

/-- An operand that a form uses, held to the codes its column shows; an unused one to 0x64. -/
def Opk.accepts (k : Opk) (x : Src) : Bool :=
  match k, x with
  | .none, x => decide (x = .zero)
  | .s, .s _ => true
  | .sPair, .s r => !r.getLsbD 0
  | .sz, .s _ => true
  | .sz, .zero => true
  | .v, .v _ => true
  | .vPair, .v r => !r.getLsbD 0
  | .vsz, .v _ => true
  | .vsz, .s _ => true
  | .vsz, .zero => true
  | _, _ => false

/-- The scale registers of MMA end at V63 (R271): a decode check. -/
def mmaScaleOk (x : EngArgs) : Bool :=
  match x.o4 with
  | .v r => decide (r.toNat + ((((x.dimm.toNat / 256) % 16 + 1) * (16 * 2 ^ (x.dimm.toNat % 4)) - 1) / 128) ≤ 63)
  | _ => true

/-- The argument pairs of RCALL end at V62:V63, and O3 is zero exactly when NARG is 0 (R282, R363). -/
def rcallArgsOk (x : EngArgs) : Bool :=
  let n := (x.dimm.toNat / 64) % 8
  match x.o3 with
  | .zero => decide (n = 0)
  | .v r => decide (1 ≤ n ∧ r.toNat + 2 * (n - 1) ≤ 62)
  | _ => false

/-- The illegal-instruction checks of an ENG or SYS word. -/
def engInstrOk (c : Cls) (op : Nat) (x : EngArgs) : Bool :=
  match engSpecOf c op x with
  | none => false
  | some sp =>
    x.g.wf && sp.ecfOk && decide (x.dimm &&& ~~~sp.dimmM = 0) && sp.dimmOk
    && (x.cont || !sp.need)
    && (x.cont || decide (x.o1 = .zero ∧ x.o2 = .zero ∧ x.o3 = .zero ∧ x.o4 = .zero))
    && (decide (sp.sdst ≠ .none) || decide (x.sdst = 0))
    && (decide (sp.o1 ≠ .none) || decide (x.o1 = .zero)) && (decide (sp.o2 ≠ .none) || decide (x.o2 = .zero))
    && (decide (sp.o3 ≠ .none) || decide (x.o3 = .zero)) && (decide (engO4Of c op ≠ .none) || decide (x.o4 = .zero))
    && (decide (c ≠ .eng ∨ op ≠ 7) || mmaScaleOk x)

/-- The illegal-operand checks of an ENG or SYS word. -/
def engOpndOk (c : Cls) (op : Nat) (x : EngArgs) : Bool :=
  match engSpecOf c op x with
  | none => false
  | some sp =>
    sp.o1.accepts x.o1 && sp.o2.accepts x.o2 && sp.o3.accepts x.o3 && (engO4Of c op).accepts x.o4
    && (decide (sp.sdst ≠ .pair) || !x.sdst.getLsbD 0)
    && (decide (c ≠ .eng ∨ op ≠ 0xF) || rcallArgsOk x)

/-! ## The opcode map (R185) -/

/-- The lane-class constructor of an OP; SUB[0] tells the two directions of PMOV apart (R203). -/
def laneCtor (c : Cls) (op : Nat) (sub : BitVec 16) : Option (LaneArgs → Instr) :=
  match c, op with
  | .alu, 0x00 => some .iadd
  | .alu, 0x01 => some .isub
  | .alu, 0x02 => some .imul
  | .alu, 0x03 => some .imulh
  | .alu, 0x04 => some .umulh
  | .alu, 0x05 => some .imad
  | .alu, 0x06 => some .imin
  | .alu, 0x07 => some .imax
  | .alu, 0x08 => some .umin
  | .alu, 0x09 => some .umax
  | .alu, 0x0A => some .iabs
  | .alu, 0x0B => some .andI
  | .alu, 0x0C => some .orI
  | .alu, 0x0D => some .xorI
  | .alu, 0x0E => some .andn
  | .alu, 0x0F => some .shl
  | .alu, 0x10 => some .shr
  | .alu, 0x11 => some .sar
  | .alu, 0x12 => some .bfe
  | .alu, 0x13 => some .bfi
  | .alu, 0x14 => some .popc
  | .alu, 0x15 => some .clz
  | .alu, 0x16 => some .brev
  | .alu, 0x17 => some .sel
  | .alu, 0x18 => some .mov
  | .alu, 0x1A => some .iadd2
  | .alu, 0x1B => some .isub2
  | .alu, 0x1C => some .imin2
  | .alu, 0x1D => some .imax2
  | .alu, 0x1E => some .iadds2
  | .alu, 0x1F => some .isubs2
  | .alu, 0x20 => some .fadd
  | .alu, 0x21 => some .fsub
  | .alu, 0x22 => some .fmul
  | .alu, 0x23 => some .ffma
  | .alu, 0x24 => some .fmin
  | .alu, 0x25 => some .fmax
  | .alu, 0x26 => some .fadd2
  | .alu, 0x27 => some .fmul2
  | .alu, 0x28 => some .ffma2
  | .alu, 0x29 => some .hadd2
  | .alu, 0x2A => some .hmul2
  | .alu, 0x2B => some .hfma2
  | .alu, 0x2C => some .badd2
  | .alu, 0x2D => some .bmul2
  | .alu, 0x2E => some .bfma2
  | .alu, 0x2F => some .dadd
  | .alu, 0x30 => some .dmul
  | .alu, 0x31 => some .dfma
  | .xln, 0x00 => some .icmp
  | .xln, 0x01 => some .ucmp
  | .xln, 0x02 => some .fcmp
  | .xln, 0x03 => some .hcmp2
  | .xln, 0x04 => some .dcmp
  | .xln, 0x05 => some .pand
  | .xln, 0x06 => some .por
  | .xln, 0x07 => some .pxor
  | .xln, 0x08 => some .pset
  | .xln, 0x09 => some (if sub.getLsbD 0 then .pmovFrom else .pmovTo)
  | .xln, 0x0A => some .vote
  | .xln, 0x0B => some .shfl
  | .xln, 0x0C => some .qswp
  | .xln, 0x0D => some .qbcst
  | .xln, 0x0E => some .scan
  | .xln, 0x0F => some .redw
  | .xln, 0x10 => some .matchI
  | .xln, 0x11 => some .flgrd
  | .xln, 0x12 => some .flgclr
  | .xln, 0x13 => some .sreg
  | .sfu, 0x00 => some .rcp
  | .sfu, 0x01 => some .rsq
  | .sfu, 0x02 => some .sqrt
  | .sfu, 0x03 => some .exp2
  | .sfu, 0x04 => some .log2
  | .sfu, 0x05 => some .sinp
  | .sfu, 0x06 => some .cosp
  | .sfu, 0x07 => some .tanh
  | .sfu, 0x08 => some .cvt
  | .sfu, 0x09 => some .cvtp
  | .sfu, 0x0A => some .qenc
  | .sfu, 0x0B => some .qdec
  | _, _ => none

/-- The MEM constructor of an OP. -/
def memCtor (op : Nat) : Option (MemArgs → Instr) :=
  match op with
  | 0x00 => some .ld
  | 0x01 => some .st
  | 0x02 => some .lds
  | 0x03 => some .sts
  | 0x04 => some .atom
  | 0x05 => some .atoms
  | 0x06 => some .fence
  | 0x07 => some .pref
  | 0x08 => some .l1inv
  | 0x09 => some .ldw
  | 0x0A => some .stw
  | _ => none

/-- The ENG or SYS constructor of an OP; ECF or DIMM tells the variants apart that are rows of their own. -/
def engCtor (c : Cls) (op : Nat) (ecf : BitVec 4) (dimm : BitVec 13) : Option (EngArgs → Instr) :=
  match c, op with
  | .eng, 0x00 => some .cpy
  | .eng, 0x01 => some .cenc
  | .eng, 0x02 => some .cdec
  | .eng, 0x03 => some .cpym
  | .eng, 0x04 => some .ringp
  | .eng, 0x05 => some (if dimm.getLsbD 3 then .ringcWait else .ringc)
  | .eng, 0x06 => some .gangset
  | .eng, 0x07 => some .mma
  | .eng, 0x08 => some .mmab
  | .eng, 0x09 => some .mmv
  | .eng, 0x0A => some .drain
  | .eng, 0x0B => some .azero
  | .eng, 0x0C => some .iord
  | .eng, 0x0D => some .launch
  | .eng, 0x0E => some .lvl
  | .eng, 0x0F => some .rcall
  | .eng, 0x10 => some .rread
  | .eng, 0x11 => some .rwait
  | .eng, 0x12 => some (if dimm.getLsbD 0 then .erstAbort else .erst)
  | .sys, 0x00 => some .trapI
  | .sys, 0x01 => some .tret
  | .sys, 0x02 => some .frgq
  | .sys, 0x03 => some (if ecf = 0 then .frgsetPc else .frgsetRem)
  | .sys, 0x04 => some (if ecf = 0 then .frgres else .frgresSkip)
  | .sys, 0x05 => some .frgkill
  | .sys, 0x06 => some .brk
  | .sys, 0x07 => some .trcmark
  | .sys, 0x08 => some .mapt
  | .sys, 0x09 => some .tlrinv
  | .sys, 0x0A => some (if ecf = 1 then .plcwDie else .plcwTgt)
  | .sys, 0x0B => some (if ecf = 0 then .stow else .stowClr)
  | .sys, 0x0C => some .rsync
  | .sys, 0x0D => some (if ecf = 0 then .livem else .livemClr)
  | _, _ => none

/-- An instruction taken apart by the layout of its words. `ctl` carries OP, the guard, bits [21:0] and the
continuation; `event` is a row that has no word. -/
inductive Parts where
  | lane (c : Cls) (op : Nat) (x : LaneArgs)
  | movi (x : MoviArgs)
  | mem (op : Nat) (x : MemArgs)
  | eng (c : Cls) (op : Nat) (x : EngArgs)
  | ctl (op : Nat) (g : Guard) (low : BitVec 22) (k : Option Word)
  | event
deriving DecidableEq, Repr

/-- The fields of the CTL words (R179). -/
def ctlReg (a : Src) : BitVec 22 := a.code.setWidth 22 <<< 6

def waitwLow (x : WaitwArgs) : BitVec 22 :=
  ctlReg x.adr ||| (x.cmp.setWidth 22 <<< 13) ||| ((BitVec.ofBool x.w64).setWidth 22 <<< 16)
    ||| ((BitVec.ofBool x.acq).setWidth 22 <<< 17)

def waitwCont (x : WaitwArgs) : Word :=
  (x.scope.setWidth 32 <<< 29) ||| (x.val.code.setWidth 32 <<< 22)
    ||| (match x.val with | .imm v => (v.setWidth 22).setWidth 32 | _ => 0)

def Instr.parts (i : Instr) : Parts :=
  match i with
  | .iadd x => .lane .alu 0x00 x
  | .isub x => .lane .alu 0x01 x
  | .imul x => .lane .alu 0x02 x
  | .imulh x => .lane .alu 0x03 x
  | .umulh x => .lane .alu 0x04 x
  | .imad x => .lane .alu 0x05 x
  | .imin x => .lane .alu 0x06 x
  | .imax x => .lane .alu 0x07 x
  | .umin x => .lane .alu 0x08 x
  | .umax x => .lane .alu 0x09 x
  | .iabs x => .lane .alu 0x0A x
  | .andI x => .lane .alu 0x0B x
  | .orI x => .lane .alu 0x0C x
  | .xorI x => .lane .alu 0x0D x
  | .andn x => .lane .alu 0x0E x
  | .shl x => .lane .alu 0x0F x
  | .shr x => .lane .alu 0x10 x
  | .sar x => .lane .alu 0x11 x
  | .bfe x => .lane .alu 0x12 x
  | .bfi x => .lane .alu 0x13 x
  | .popc x => .lane .alu 0x14 x
  | .clz x => .lane .alu 0x15 x
  | .brev x => .lane .alu 0x16 x
  | .sel x => .lane .alu 0x17 x
  | .mov x => .lane .alu 0x18 x
  | .iadd2 x => .lane .alu 0x1A x
  | .isub2 x => .lane .alu 0x1B x
  | .imin2 x => .lane .alu 0x1C x
  | .imax2 x => .lane .alu 0x1D x
  | .iadds2 x => .lane .alu 0x1E x
  | .isubs2 x => .lane .alu 0x1F x
  | .fadd x => .lane .alu 0x20 x
  | .fsub x => .lane .alu 0x21 x
  | .fmul x => .lane .alu 0x22 x
  | .ffma x => .lane .alu 0x23 x
  | .fmin x => .lane .alu 0x24 x
  | .fmax x => .lane .alu 0x25 x
  | .fadd2 x => .lane .alu 0x26 x
  | .fmul2 x => .lane .alu 0x27 x
  | .ffma2 x => .lane .alu 0x28 x
  | .hadd2 x => .lane .alu 0x29 x
  | .hmul2 x => .lane .alu 0x2A x
  | .hfma2 x => .lane .alu 0x2B x
  | .badd2 x => .lane .alu 0x2C x
  | .bmul2 x => .lane .alu 0x2D x
  | .bfma2 x => .lane .alu 0x2E x
  | .dadd x => .lane .alu 0x2F x
  | .dmul x => .lane .alu 0x30 x
  | .dfma x => .lane .alu 0x31 x
  | .icmp x => .lane .xln 0x00 x
  | .ucmp x => .lane .xln 0x01 x
  | .fcmp x => .lane .xln 0x02 x
  | .hcmp2 x => .lane .xln 0x03 x
  | .dcmp x => .lane .xln 0x04 x
  | .pand x => .lane .xln 0x05 x
  | .por x => .lane .xln 0x06 x
  | .pxor x => .lane .xln 0x07 x
  | .pset x => .lane .xln 0x08 x
  | .pmovTo x => .lane .xln 0x09 x
  | .pmovFrom x => .lane .xln 0x09 x
  | .vote x => .lane .xln 0x0A x
  | .shfl x => .lane .xln 0x0B x
  | .qswp x => .lane .xln 0x0C x
  | .qbcst x => .lane .xln 0x0D x
  | .scan x => .lane .xln 0x0E x
  | .redw x => .lane .xln 0x0F x
  | .matchI x => .lane .xln 0x10 x
  | .flgrd x => .lane .xln 0x11 x
  | .flgclr x => .lane .xln 0x12 x
  | .sreg x => .lane .xln 0x13 x
  | .rcp x => .lane .sfu 0x00 x
  | .rsq x => .lane .sfu 0x01 x
  | .sqrt x => .lane .sfu 0x02 x
  | .exp2 x => .lane .sfu 0x03 x
  | .log2 x => .lane .sfu 0x04 x
  | .sinp x => .lane .sfu 0x05 x
  | .cosp x => .lane .sfu 0x06 x
  | .tanh x => .lane .sfu 0x07 x
  | .cvt x => .lane .sfu 0x08 x
  | .cvtp x => .lane .sfu 0x09 x
  | .qenc x => .lane .sfu 0x0A x
  | .qdec x => .lane .sfu 0x0B x
  | .movi x => .movi x
  | .ld x => .mem 0x00 x
  | .st x => .mem 0x01 x
  | .lds x => .mem 0x02 x
  | .sts x => .mem 0x03 x
  | .atom x => .mem 0x04 x
  | .atoms x => .mem 0x05 x
  | .fence x => .mem 0x06 x
  | .pref x => .mem 0x07 x
  | .l1inv x => .mem 0x08 x
  | .ldw x => .mem 0x09 x
  | .stw x => .mem 0x0A x
  | .cpy x => .eng .eng 0x00 x
  | .cenc x => .eng .eng 0x01 x
  | .cdec x => .eng .eng 0x02 x
  | .cpym x => .eng .eng 0x03 x
  | .ringp x => .eng .eng 0x04 x
  | .ringc x => .eng .eng 0x05 x
  | .ringcWait x => .eng .eng 0x05 x
  | .gangset x => .eng .eng 0x06 x
  | .mma x => .eng .eng 0x07 x
  | .mmab x => .eng .eng 0x08 x
  | .mmv x => .eng .eng 0x09 x
  | .drain x => .eng .eng 0x0A x
  | .azero x => .eng .eng 0x0B x
  | .iord x => .eng .eng 0x0C x
  | .launch x => .eng .eng 0x0D x
  | .lvl x => .eng .eng 0x0E x
  | .rcall x => .eng .eng 0x0F x
  | .rread x => .eng .eng 0x10 x
  | .rwait x => .eng .eng 0x11 x
  | .erst x => .eng .eng 0x12 x
  | .erstAbort x => .eng .eng 0x12 x
  | .trapI x => .eng .sys 0x00 x
  | .tret x => .eng .sys 0x01 x
  | .frgq x => .eng .sys 0x02 x
  | .frgsetPc x => .eng .sys 0x03 x
  | .frgsetRem x => .eng .sys 0x03 x
  | .frgres x => .eng .sys 0x04 x
  | .frgresSkip x => .eng .sys 0x04 x
  | .frgkill x => .eng .sys 0x05 x
  | .brk x => .eng .sys 0x06 x
  | .trcmark x => .eng .sys 0x07 x
  | .mapt x => .eng .sys 0x08 x
  | .tlrinv x => .eng .sys 0x09 x
  | .plcwDie x => .eng .sys 0x0A x
  | .plcwTgt x => .eng .sys 0x0A x
  | .stow x => .eng .sys 0x0B x
  | .stowClr x => .eng .sys 0x0B x
  | .rsync x => .eng .sys 0x0C x
  | .livem x => .eng .sys 0x0D x
  | .livemClr x => .eng .sys 0x0D x
  | .bra g off => .ctl 0 g off none
  | .jmpi g a => .ctl 1 g (ctlReg a) none
  | .csw g a => .ctl 2 g (ctlReg a) none
  | .exitI g => .ctl 3 g 0 none
  | .bset g bn => .ctl 4 g (bn.setWidth 22) none
  | .bwait g bn => .ctl 5 g (bn.setWidth 22) none
  | .bwaitTimed g bn pp count => .ctl 5 g (bn.setWidth 22 ||| 0x10 ||| (pp.setWidth 22 <<< 5)) (some count)
  | .bclr g bn => .ctl 6 g (bn.setWidth 22) none
  | .bar g id => .ctl 7 g (id.setWidth 22) none
  | .barArv g id => .ctl 7 g (id.setWidth 22 ||| 0x10) none
  | .cbar g id => .ctl 8 g (id.setWidth 22) none
  | .cbarArv g id => .ctl 8 g (id.setWidth 22 ||| 0x10) none
  | .twait g ec n => .ctl 9 g (ec.setWidth 22 ||| ctlReg n) none
  | .twaitImm g ec val => .ctl 9 g (ec.setWidth 22 ||| ctlReg (.imm 0)) (some val)
  | .waitw x => .ctl 10 x.g (waitwLow x) (some (waitwCont x))
  | .yieldI g => .ctl 11 g 0 none
  | .nop g => .ctl 12 g 0 none
  | .clauseIssue _ _ => .event
  | .loadComplete _ _ _ => .event
  | .storeAck _ _ _ => .event
  | .bwaitTimeout _ _ => .event
  | .waitwRelease _ _ => .event
  | .waitwPoll _ _ => .event
  | .warpSwap _ _ => .event
  | .pendingStarvationSwap _ _ => .event
  | .commandIteration _ _ _ => .event
  | .commandComplete _ _ _ => .event
  | .ioRequestComplete _ _ _ _ _ => .event
  | .launchBatchTake _ => .event
  | .launchBatchTimeout _ => .event
  | .workQueueTake _ => .event
  | .blockPlace _ => .event
  | .blockEnd _ => .event
  | .stowThresholdExpiry _ => .event
  | .stowBegin _ => .event
  | .stowComplete _ => .event
  | .restoreBegin _ => .event
  | .restoreComplete _ => .event
  | .preemptRequest _ => .event
  | .preemptClear _ => .event
  | .preemptComplete _ => .event
  | .contextEnable _ => .event
  | .contextDisable _ => .event
  | .deadlineExpiry _ => .event
  | .watchdogExpiry _ _ => .event
  | .trapRecordWrite _ => .event
  | .handlerBlockStart _ => .event
  | .trapRecordRetire _ _ => .event
  | .trapqWrite _ _ _ => .event
  | .sequencerAssign _ => .event
  | .replayInvocationStart _ => .event
  | .methodClauseLimit _ => .event
  | .replayInvocationEnd _ => .event
  | .replayAppliedUpdate _ => .event
  | .rsyncReseedComplete _ _ => .event
  | .mappingChangeComplete _ _ _ => .event
  | .tlrInvalidateComplete _ _ => .event
  | .hostWrite _ _ _ => .event
  | .hostRead _ _ _ => .event
  | .peerWrite _ _ _ => .event
  | .peerRead _ _ _ => .event
  | .workQueueDoorbell _ _ => .event
  | .coldReset => .event
  | .warmReset => .event
  | .bringupStageComplete _ => .event
  | .partitionApply => .event
  | .partitionApplyForce => .event
  | .getVersion _ => .event
  | .getCapabilities _ => .event
  | .negotiateAlgorithms _ _ => .event
  | .getDigests _ => .event
  | .getCertificate _ _ _ _ => .event
  | .challenge _ _ _ => .event
  | .getMeasurements _ _ => .event
  | .sedimentSign => .event
  | .sedimentSignComplete => .event
  | .powerLimitAdjust _ _ => .event
  | .dieIdleEntry _ _ => .event
  | .scrub _ _ => .event
  | .laneSpare _ _ _ => .event
  | .bundleRetrainComplete _ _ _ => .event
  | .dieLost _ => .event
  | .ualinkPortDown _ => .event
  | .ualinkPortUp _ => .event
  | .checkpointIntervalEnd _ => .event
  | .recordedModeEnable _ => .event
  | .debugStep _ _ _ => .event
  | .debugContinue _ _ _ => .event
  | .debugReachStop _ _ _ => .event
  | .debugDetach _ => .event
  | .registerWrite _ _ _ => .event
  | .linkLevelRetry _ _ => .event
  | .hostLinkRetrain _ => .event

/-- The class of the clause an instruction stands in; none for an event. -/
def Instr.cls (i : Instr) : Option Cls :=
  match i.parts with
  | .lane c _ _ => some c
  | .movi _ => some .alu
  | .mem _ _ => some .mem
  | .eng c _ _ => some c
  | .ctl _ _ _ _ => some .ctl
  | .event => none

/-- The illegal-instruction checks of an instruction, by its form. The CTL checks of R361 that a typed instruction can
break are the odd predicate of a timed BWAIT, and WAITW's CMP and SCOPE. -/
def Instr.instrOk (i : Instr) : Bool :=
  match i.parts with
  | .lane c op x => laneInstrOk c op x
  | .movi x => x.g.wf
  | .mem op x => memInstrOk op x
  | .eng c op x => engInstrOk c op x
  | .ctl _ g _ _ =>
    g.wf && (match i with
      | .bwaitTimed _ _ pp _ => decide (pp.toNat ≤ 10) && !pp.getLsbD 0
      | .waitw x => decide (x.cmp.toNat < 6 ∧ x.scope.toNat < 6) && (x.acq || decide (x.scope = 0))
      | .twait _ _ n => decide (n.code ≠ 0x7E)
      | _ => true)
  | .event => true

/-- The illegal-operand checks of an instruction, by its form. -/
def Instr.opndOk (i : Instr) : Bool :=
  match i.parts with
  | .lane c op x => laneOpndOk c op x
  | .movi x => !x.sd || !x.d.getLsbD 5
  | .mem op x => memOpndOk op x
  | .eng c op x => engOpndOk c op x
  | .ctl _ _ _ _ =>
    match i with
    | .jmpi _ a => (match a with | .v _ => true | .s _ => true | _ => false)
    | .csw _ a => (match a with | .v r => !r.getLsbD 0 | _ => false)
    | .twait _ _ n => (match n with | .s r => !r.getLsbD 0 | _ => false)
    | .waitw x =>
      (match x.adr with | .s r => !r.getLsbD 0 | _ => false)
      && (match x.val with
          | .s r => !x.w64 || !r.getLsbD 0
          | .zero => true
          | .imm v => decide (v = (v.setWidth 22).signExtend 32)
          | _ => false)
    | _ => true
  | .event => true

/-- A field that tells two rows of the opcode table apart holds the value of the row. -/
def Instr.variantOk (i : Instr) : Bool :=
  match i with
  | .pmovTo x => !x.sub.getLsbD 0
  | .pmovFrom x => x.sub.getLsbD 0
  | .ringc x => !x.dimm.getLsbD 3
  | .ringcWait x => x.dimm.getLsbD 3
  | .erst x => !x.dimm.getLsbD 0
  | .erstAbort x => x.dimm.getLsbD 0
  | .frgsetPc x => decide (x.ecf = 0)
  | .frgsetRem x => decide (x.ecf = 1)
  | .frgres x => decide (x.ecf = 0)
  | .frgresSkip x => decide (x.ecf = 1)
  | .plcwDie x => decide (x.ecf = 1)
  | .plcwTgt x => decide (x.ecf = 2)
  | .stow x => decide (x.ecf = 0)
  | .stowClr x => decide (x.ecf = 1)
  | .livem x => decide (x.ecf = 0)
  | .livemClr x => decide (x.ecf = 1)
  | _ => true

/-! ## Words -/

def bits (w : Word) (hi lo : Nat) : BitVec (hi - lo + 1) := w.extractLsb hi lo

/-- The first word and the continuation of a lane-class instruction (R173, R174). -/
def laneWord (op : Nat) (x : LaneArgs) : Word :=
  BitVec.ofNat 6 op ++ x.g.code ++ BitVec.ofBool x.n ++ BitVec.ofBool x.sd ++ x.d ++ x.a.code ++ x.b.code

def laneCont (x : LaneArgs) : Word :=
  match x.a, x.b with
  | .imm v, _ => v
  | _, .imm v => v
  | _, _ => x.c.code ++ x.rnd ++ x.neg ++ x.abs ++ x.sub

def moviWord (x : MoviArgs) : Word :=
  0x19#6 ++ x.g.code ++ BitVec.ofBool x.n ++ BitVec.ofBool x.sd ++ x.d ++ x.imm

/-- The words of a MEM instruction (R177). -/
def memWord (op : Nat) (x : MemArgs) : Word :=
  BitVec.ofNat 6 op ++ x.g.code ++ x.sb ++ x.dat ++ x.adr.code ++ x.size ++ x.ord

def memCont (x : MemArgs) : Word := x.scope ++ x.aop ++ x.off

/-- The words of an ENG or SYS instruction (R181). -/
def engWord (op : Nat) (x : EngArgs) : Word := BitVec.ofNat 6 op ++ x.g.code ++ x.ecf ++ x.sdst ++ x.dimm

def engCont (x : EngArgs) : Word := x.o1.code ++ x.o2.code ++ x.o3.code ++ x.o4.code ++ 0#4

def ctlWord (op : Nat) (g : Guard) (low : BitVec 22) : Word := BitVec.ofNat 6 op ++ g.code ++ low

/-- The words of an instruction: the first word and the continuation; none for an event. -/
def encode (i : Instr) : Option (Word × Option Word) :=
  match i.parts with
  | .lane _ op x => some (laneWord op x, if x.cont then some (laneCont x) else none)
  | .movi x => some (moviWord x, none)
  | .mem op x => some (memWord op x, if x.cont then some (memCont x) else none)
  | .eng _ op x => some (engWord op x, if x.cont then some (engCont x) else none)
  | .ctl op g low k => some (ctlWord op g low, k)
  | .event => none

/-- The fields of a lane-class word and its continuation. -/
def laneFields (w : Word) (k : Option Word) : LaneArgs :=
  let ca : BitVec 7 := bits w 13 7
  let cb : BitVec 7 := bits w 6 0
  let im : Option Word := k
  let useIm := ca = 0x7E ∨ cb = 0x7E
  let kw : Word := if useIm then 0xC800_0000 else k.getD 0xC800_0000
  { g := .ofCode (bits w 25 22), n := w.getLsbD 21, sd := w.getLsbD 20, d := bits w 19 14,
    a := .ofCode im ca, b := .ofCode im cb, c := .ofCode none (bits kw 31 25),
    rnd := bits kw 24 22, neg := bits kw 21 19, abs := bits kw 18 16, sub := bits kw 15 0, cont := k.isSome }

def moviFields (w : Word) : MoviArgs :=
  { g := .ofCode (bits w 25 22), n := w.getLsbD 21, sd := w.getLsbD 20, d := bits w 19 14, imm := bits w 13 0 }

def memFields (w : Word) (k : Option Word) : MemArgs :=
  let kw : Word := k.getD 0
  { g := .ofCode (bits w 25 22), sb := bits w 21 19, dat := bits w 18 13, adr := .ofCode none (bits w 12 6),
    size := bits w 5 3, ord := bits w 2 0, scope := bits kw 31 29, aop := bits kw 28 24, off := bits kw 23 0,
    cont := k.isSome }

def engFields (w : Word) (k : Option Word) : EngArgs :=
  let kw : Word := k.getD 0xC993_2640
  { g := .ofCode (bits w 25 22), ecf := bits w 21 18, sdst := bits w 17 13, dimm := bits w 12 0,
    o1 := .ofCode none (bits kw 31 25), o2 := .ofCode none (bits kw 24 18), o3 := .ofCode none (bits kw 17 11),
    o4 := .ofCode none (bits kw 10 4), cont := k.isSome }

/-- A CTL word by its OP (R179, R361): none where a bit the form does not name is set, a continuation stands where none
may or is missing. -/
def ctlInstr (op : Nat) (g : Guard) (low : BitVec 22) (k : Option Word) : Option Instr :=
  let reg : Src := .ofCode none ((low >>> 6).setWidth 7)
  let z (m : BitVec 22) : Bool := decide (low &&& ~~~m = 0)
  match op, k with
  | 0, none => some (.bra g low)
  | 1, none => if z 0x1FC0 then some (.jmpi g reg) else none
  | 2, none => if z 0x1FC0 then some (.csw g reg) else none
  | 3, none => if z 0 then some (.exitI g) else none
  | 4, none => if z 0xF then some (.bset g (low.setWidth 4)) else none
  | 5, none => if z 0xF then some (.bwait g (low.setWidth 4)) else none
  | 5, some c => if z 0x1FF && low.getLsbD 4 then some (.bwaitTimed g (low.setWidth 4) ((low >>> 5).setWidth 4) c) else none
  | 6, none => if z 0xF then some (.bclr g (low.setWidth 4)) else none
  | 7, none => if z 0x1F then some (if low.getLsbD 4 then .barArv g (low.setWidth 4) else .bar g (low.setWidth 4)) else none
  | 8, none => if z 0x17 then some (if low.getLsbD 4 then .cbarArv g (low.setWidth 3) else .cbar g (low.setWidth 3)) else none
  | 9, none => if z 0x1FC7 then some (.twait g (low.setWidth 3) reg) else none
  | 9, some c => if z 0x1FC7 && decide ((low >>> 6).setWidth 7 = 0x7E#7) then some (.twaitImm g (low.setWidth 3) c) else none
  | 10, some c =>
    let vc : BitVec 7 := bits c 28 22
    let im : BitVec 22 := bits c 21 0
    if z 0x3FFC0 && decide (vc = 0x7E ∨ im = 0) then
      some (.waitw { g := g, adr := reg, cmp := (low >>> 13).setWidth 3, w64 := low.getLsbD 16, acq := low.getLsbD 17,
                     scope := bits c 31 29, val := .ofCode (some (im.signExtend 32)) vc })
    else none
  | 11, none => if z 0 then some (.yieldI g) else none
  | 12, none => if z 0 then some (.nop g) else none
  | _, _ => none

/-- The instruction that the fields of a word give, before the checks; none where no form has those fields. -/
def rawInstr (c : Cls) (w : Word) (k : Option Word) : Option Instr :=
  let op := (bits w 31 26).toNat
  match c with
  | .mem => (memCtor op).map fun f => f (memFields w k)
  | .ctl => ctlInstr op (.ofCode (bits w 25 22)) (bits w 21 0) k
  | .eng | .sys =>
    let x := engFields w k
    if (k.getD 0) &&& 0xF = 0 then (engCtor c op x.ecf x.dimm).map fun f => f x else none
  | _ =>
    if c = .alu ∧ op = 0x19 then (if k.isNone then some (.movi (moviFields w)) else none)
    else let x := laneFields w k
      (laneCtor c op x.sub).map fun f => f x

/-- One instruction of a clause of class `c`: the checks of R354, illegal instruction before illegal operand (R355). -/
def decodeWord (c : Cls) (w : Word) (k : Option Word) : Except DecodeError Instr :=
  match rawInstr c w k with
  | none => .error .illegalInstruction
  | some i =>
    if !i.instrOk then .error .illegalInstruction
    else if !i.opndOk then .error .illegalOperand
    else .ok i

/-! ## Clauses (R171, R172, R183) -/

/-- The fields of a clause header. -/
structure Header where
  nw : Nat
  cls : BitVec 3
  ext : BitVec 15
  wsb : BitVec 6
  yld : Bool
  land : Bool
  low : BitVec 2
deriving DecidableEq, Repr

def Header.ofWord (h : Word) : Header :=
  { nw := (bits h 31 28).toNat, cls := bits h 27 25, ext := bits h 24 10, wsb := bits h 9 4, yld := h.getLsbD 3,
    land := h.getLsbD 2, low := bits h 1 0 }

/-- A control transfer, judged by the OP of the word in its class (R172). -/
def isTransferOp (c : Cls) (op : Nat) : Bool :=
  match c with
  | .ctl => decide (op < 4)
  | .sys => decide (op = 1)
  | .eng => decide (op = 0x10)
  | _ => false

/-- EXT obeys R172: bit 0 clear, no two adjacent bits, none at NW or above. -/
def extOk (h : Header) : Bool :=
  !h.ext.getLsbD 0 && decide (h.ext &&& (h.ext <<< 1) = 0) && decide (h.ext.toNat < 2 ^ h.nw)

/-- No instruction that is a control transfer stands before the last instruction. -/
def transfersLast (c : Cls) (ext : BitVec 15) : Nat → List Word → Bool
  | _, [] => true
  | i, w :: ws =>
    let len := if ext.getLsbD (i + 1) then 2 else 1
    (ext.getLsbD i || !isTransferOp c (bits w 31 26).toNat || decide (ws.length + 1 ≤ len)) && transfersLast c ext (i + 1) ws

/-- The first failing word from index `i` on, or none (R355). -/
def firstBad (c : Cls) (ext : BitVec 15) : Nat → List Word → Option (DecodeError × Nat)
  | _, [] => none
  | i, w :: ws =>
    if ext.getLsbD i then firstBad c ext (i + 1) ws
    else match decodeWord c w (if ext.getLsbD (i + 1) then ws.head? else none) with
      | .error e => some (e, i)
      | .ok _ => firstBad c ext (i + 1) ws

/-- The checks of a whole clause, header first, then words in ascending index: the failing check and its word. -/
def clauseError (hw : Word) (ws : List Word) : Option (DecodeError × Nat) :=
  let h := Header.ofWord hw
  match Cls.ofBits h.cls with
  | none => some (.illegalClause, 0)
  | some c =>
    if h.nw = 0 ∨ h.low ≠ 0 ∨ !extOk h ∨ !transfersLast c h.ext 0 (ws.take h.nw) then some (.illegalClause, 0)
    else firstBad c h.ext 0 (ws.take h.nw)

/-- The instruction at word `i` of a clause, with its length in words. -/
def instrAt (c : Cls) (ext : BitVec 15) (ws : List Word) (i : Nat) : Option (Instr × Nat) :=
  match ws[i]? with
  | none => none
  | some w =>
    let two := ext.getLsbD (i + 1)
    match decodeWord c w (if two then ws[i + 1]? else none) with
    | .ok ins => some (ins, if two then 2 else 1)
    | .error _ => none

/-! ## The opcode table's words -/

/-- The rows of the opcode table that carry fixed bits: a word alone names no class (R172), so these come first. -/
def tableRow (i : Instr) : Bool :=
  match i with
  | .movi _ | .pmovTo _ | .flgrd _ | .bra _ _ | .jmpi _ _ | .csw _ _ | .exitI _ | .bset _ _ | .bwait _ _ | .bclr _ _
  | .bar _ _ | .barArv _ _ | .cbar _ _ | .cbarArv _ _ | .twait _ _ _ | .yieldI _ | .nop _ | .azero _ | .lvl _ | .brk _
  | .tlrinv _ | .stow _ | .stowClr _ | .livemClr _ => true
  | _ => false

/-- The classes in the order in which a bare word is tried. -/
def tableClasses : List Cls := [.ctl, .sys, .eng, .mem, .xln, .sfu, .alu]

/-- The readings of a bare instruction in each class: without a continuation, then with it (`k`). -/
def tableReadings (w k : Word) : List Instr :=
  tableClasses.filterMap (fun c => (decodeWord c w none).toOption)
    ++ tableClasses.filterMap (fun c => (decodeWord c w (some k)).toOption)

/-- The instruction read from bits numbered as the opcode table numbers them. A word carries no class (R172): a row of
the table with fixed bits is preferred, then the first reading in the order of `tableClasses`. -/
def decodeTableWord (nbits w : Nat) : Option Instr :=
  let w0 := BitVec.ofNat 32 w
  let k := BitVec.ofNat 32 (w / 2 ^ 32)
  let rs := if nbits ≤ 32 then tableReadings w0 k
            else (tableClasses.filterMap fun c => (decodeWord c w0 (some k)).toOption)
  match rs.find? tableRow with
  | some i => some i
  | none => rs.head?

end Sys2Proof
end

