-- ==== Sys2Proof/Machine/State.lean ====
section
/-! DEFINITION. The state of the machine as plain data: threads, warps, blocks, cores, contexts, the Wellhead, memory, and
State.reset. INVENTORY.md names the rule and the reset value of every piece. -/

namespace Sys2Proof.Machine

/-- A sparse map by number, ascending; an absent key is the default or an undefined value, as its reader says. -/
abbrev Tab (α : Type) := List (Nat × α)

/-- A set of lanes of a warp. -/
abbrev Mask := BitVec 32

/-- Memory: strictly rising storage addresses, no entry equal to 0, which an unlisted byte reads as (R330). Storage
addresses: device `die·2^37 + frame·2^16 + offset` (R130), host `2^48 + bus address` (R325), peer `2^49 + PA[47:0]`
(R303). -/
abbrev Memory := List Host.Cell

/-- Why a step can stop the machine. -/
inductive Fault where
  /-- Raised by every instruction row when no warp has a clause in flight: `exec` was given a word that nothing issues.
  No step of the machine meets it. Safe: nothing is claimed of such a state. -/
  | noWarp
deriving DecidableEq, Repr

/-- Why the model refuses. -/
inductive Refusal where
  /-- Raised by an arm of `exec` whose instruction has no meaning yet. Safe. -/
  | notModelled (mnemonic : String)
deriving DecidableEq, Repr

/-! ## Threads and warps -/

/-- The kinds of lane (R38). -/
inductive LaneKind where
  | real | helper | absent
deriving DecidableEq, Repr

/-- What a waiting thread waits for (R40, R254). `again` waits hold at their word and execute it again when released. -/
inductive Wait where
  | bwait (n : Nat)
  | bwaitTimed (n pp left : Nat)
  | bar (i : Nat)
  | cbar (j : Nat)
  | twait (k : Nat) (n : Nat)
  | waitw (adr : Nat) (v : DWord) (cmp : BitVec 3) (w64 acq : Bool) (scope : BitVec 3) (ok : Bool)
  | rwait (desc pos : Nat)
  | rread (desc catchUp : Nat) (entry state : DWord) (k : Nat) (sdst : Nat)
  | rcall (desc : Nat)
  | ringp (home off : Nat)
  | ringc (home off slot bit : Nat)
  | gangset (mask : Mask)
  | forming (mask : Mask)
  | gang
  | launchFull
  | room (k : Nat)
  | erst (block : Nat)
deriving DecidableEq, Repr

/-- The states of a thread (R40). -/
inductive LaneSt where
  | runnable
  | waiting (w : Wait)
  | parked
  | exited
deriving DecidableEq, Repr

/-- The four latches of a lane (R27). -/
structure Latches where
  x0 : DWord := 0
  x1 : DWord := 0
  x2 : DWord := 0
  x3 : DWord := 0
deriving DecidableEq, Repr

/-- One lane of a warp. An absent entry of `v` or `p` is an undefined value (R30). `waitClk` counts resident cycles of the
wait (R87), `waitWall` its WALL time (R379). `resume` is where a released thread goes on. `stamp` is when the thread's group last issued (R41),
`behind` how many clauses other groups have issued since the thread could run (R42). `step` marks a thread of the fragment that the
debugger steps, until it parks again (R308); `traced` that trace ran when its group last began a clause (R306, R315). -/
structure Lane where
  kind : LaneKind := .absent
  st : LaneSt := .exited
  pc : DWord := 0
  widx : Nat := 0
  frag : Nat := 0
  resume : DWord × Nat := (0, 0)
  stamp : Option Nat := none
  behind : Nat := 0
  waitClk : Nat := 0
  waitWall : Nat := 0
  step : Bool := false
  traced : Bool := false
  fp : Word := 0
  fl : BitVec 5 := 0
  x : Latches := {}
  v : Tab Word := []
  p : Tab Bool := []
  vPois : List Nat := []
deriving DecidableEq, Repr

/-- A barrier register Bn (R44). -/
structure BReg where
  mask : Mask := 0
  arr : Mask := 0
deriving DecidableEq, Repr

/-- The GANG register (R61). -/
structure Gang where
  members : Mask := 0
  valid : Bool := false
  latch : Nat := 0
  seq : BitVec 8 := 0
  rank : Nat := 0
deriving DecidableEq, Repr

/-- The register-writing memory forms (R29). -/
inductive LoadForm where
  | ld | lds | ldw
  | atom (aop : BitVec 5)
  | atoms (aop : BitVec 5)
deriving DecidableEq, Repr

/-- One lane's access: its address, its storage and physical addresses where it is global (R130), and the operands of an
atomic. `so` says that a page is SO (R128): `key`, `pa`, `so` are of the first page, `key2`, `pa2`, `so2` of the second. -/
structure Acc where
  lane : Nat
  addr : Nat
  key : Nat := 0
  key2 : Nat := 0
  pa : Nat := 0
  pa2 : Nat := 0
  so : Bool := false
  so2 : Bool := false
  zero : Bool := false
  opnd : DWord := 0
  swap : DWord := 0
deriving DecidableEq, Repr

/-- An outstanding register-writing operation (R29): `vals` once it has been performed (R149), `pois` where that met poison
(the location code of R369, and its address). `cnt` names it in the input log: the warp's WCNT at issue, or a number of its own past every WCNT where an interval has begun since
(R310). `thru` reads through the L2, `alloc` fills the L1 (R127). `held` says that its warp is held for the poison it met (R372). -/
structure PLoad where
  key : Nat
  form : LoadForm
  size : Nat
  dat : Nat
  sb : Nat
  thru : Bool
  alloc : Bool
  pc : DWord
  widx : Nat
  cnt : Nat := 0
  accs : List Acc
  vals : Option (List (Nat × List Byte)) := none
  pois : Option (Nat × Nat) := none
  held : Bool := false
deriving DecidableEq, Repr

/-- Registers that a completed load wrote while other operations are outstanding on its scoreboard: they read as undefined until it
clears (R29). -/
structure Late where
  sb : Nat
  dat : Nat
  num : Nat
  lanes : Mask
deriving DecidableEq, Repr

/-- One byte of a store: lane, virtual (or window) address, storage address, value, poison. -/
structure StByte where
  lane : Nat
  va : Nat
  key : Nat
  b : Byte
  pois : Bool := false
deriving DecidableEq, Repr

/-- An outstanding store (R154): to global memory, through the window, or the acknowledgement of the atomic `key`. -/
inductive StoreForm where
  | st | stw | atom
deriving DecidableEq, Repr

/-- One outstanding store; `seen` names the warps (block and number) of the core to which it has given a byte already. -/
structure PStore where
  key : Nat
  form : StoreForm
  uo : Bool
  bytes : List StByte
  seen : List (Nat × Nat) := []
deriving DecidableEq, Repr

/-- Where a window access lands (R138): a physical core and a resource of it. -/
inductive WinTgt where
  | spad (core off : Nat)
  | vreg (core slice slot reg lane byte : Nat)
  | sreg (core slice slot reg byte : Nat)
  | acc (core tile row col byte : Nat)
deriving DecidableEq, Repr

/-- A window store to a register not yet seen by its warp (R140): lane 32 names an S register. `undef` says that the register had a load
outstanding when the store was performed: it reads as undefined until the load is done. -/
structure WStore where
  lane : Nat
  reg : Nat
  byte : Nat
  b : Byte
  full : Bool
  pois : Bool := false
  undef : Bool := false
deriving DecidableEq, Repr

/-- What holds the warp's next clause (R227, R248, R249, R253, R29). -/
inductive Hold where
  | mapt (va : DWord) (n : Nat)
  | tlrinv (idx : Nat)
  | rsync (desc : Nat) (sdst : Nat)
deriving DecidableEq, Repr

/-- The clause in flight (R171, R172): the words at or after `idx` are still to run for the lanes of `act`. `boundV` and
`boundS` are the warp's registers at the clause boundary, which the window reads (R222), `boundVPois` and `boundSPois` those of them that
are poisoned (R372). -/
structure InFlight where
  pc : DWord
  cls : Cls
  ext : BitVec 15
  words : List Word
  idx : Nat
  act : Mask
  yld : Bool
  boundV : List (Tab Word) := []
  boundS : Tab Word := []
  boundVPois : List (List Nat) := []
  boundSPois : List Nat := []
deriving DecidableEq, Repr

/-- A LIVEM registration (R252). -/
structure Live where
  vmask : DWord
  off : Nat
  len : Nat
deriving DecidableEq, Repr

/-- One warp. `held` names the traps that hold it (R342). `ring` is the home block and the offset of the ring
descriptor on which it last executed RINGC (R86). `wcnt` counts the instructions of the present checkpoint interval, or since the warp
started; `wpast` those before the interval (R210). -/
structure Warp where
  slice : Nat := 0
  slot : Nat := 0
  active : Bool := true
  enter : Nat := 0
  age : Nat := 0
  readyClk : Nat := 0
  sbClk : Nat := 0
  lanes : List Lane := []
  s : Tab Word := []
  sPois : List Nat := []
  bars : Tab BReg := []
  loads : List PLoad := []
  late : List Late := []
  stores : List PStore := []
  gang : Gang := {}
  wstores : List WStore := []
  hold : List Hold := []
  held : List Nat := []
  flight : Option InFlight := none
  ring : Option (Nat × Nat) := none
  live : Option Live := none
  wcnt : Nat := 0
  wpast : Nat := 0
deriving DecidableEq, Repr

/-- A used entry of a core's fragment table (R52); its MASK is the threads of the block's warp that bear its number. `state`
is 1 parked or 2 resumed (0 and 3 leave no entry). `pois` marks a word of it poisoned (R370). `dbg` marks a debugger stop (R307), `noSkip` a fragment that stands where
no instruction was decoded (R245), `setPc` one that FRGSET.PC moved (R244), `fresh` one resumed whose first word is still to run (R307), `atWord` one that BRK or a race
stopped, at its word (R316). -/
structure Frag where
  block : Nat
  warp : Nat
  fnum : Nat
  pc : DWord
  widx : Nat
  cause : Nat
  state : Nat := 1
  dbg : Bool := false
  noSkip : Bool := false
  setPc : Bool := false
  fresh : Bool := false
  atWord : Bool := false
  pois : Bool := false
deriving DecidableEq, Repr

/-! ## Blocks -/

/-- A launch record, its fields taken apart (R279). -/
structure LaunchRec where
  code : DWord
  param : DWord
  done : DWord
  nblk : Nat
  nthr : Nat
  clus : Nat
  spad : Nat
  nacc : Nat
  tlrv : Bool
  tlri : Nat
  ecscope : List Nat
deriving DecidableEq, Repr

/-- A tensor layout record as its 64 bytes read (R131). -/
structure Tlr where
  raw : BitVec 512
deriving DecidableEq, Repr

/-- The copy and drain descriptors are kept as the 64 bytes of the snapshot (R258, R261, R274). -/
abbrev Desc := BitVec 512

/-- The four commands over the copy descriptor (R261). -/
inductive CopyOp where
  | cpy | cenc | cdec | cpym
deriving DecidableEq, Repr

/-- What a command does, from its snapshot (R257). A CPYM carries its ring: home core, descriptor offset, slot, and the
slots of its consumers. A matrix command carries its scale bytes, `none` where undefined (R271). An IORD carries its
target. -/
inductive CmdKind where
  | copy (op : CopyOp) (d : Desc) (theta : Word) (ringHome ringOff slot slotBase slotSize : Nat) (consumers : List (Option Nat))
  | mma (dimm : BitVec 13) (a b : DWord) (ctl : Word) (scales : List (Option Byte))
  | mmab (dimm : BitVec 13) (a b : DWord) (ctl : Word)
  | mmv (dimm : BitVec 13) (a : Nat) (b : DWord) (ctl : Word) (t : Nat)
  | drain (d : Desc) (tile : Nat) (clr : Bool)
  | azero (tile : Nat)
  | iord (sp : Bool) (src dst : DWord) (len : Nat) (tgt : Word)
  | launch
deriving DecidableEq, Repr

/-- Why a command stopped (R260, R350): its sub-kind, address and iteration. -/
structure EngFault where
  code : Nat
  addr : Nat
  iter : Nat
deriving DecidableEq, Repr

/-- A place table (R135). -/
structure Place where
  stgt : List Word
  diemap : Word
  slotmap : BitVec 28
deriving DecidableEq, Repr

/-- A command in flight: `iter` counts the iterations performed in lexicographic order of the vector (R259); `seq` is the
issue order on its core (R169). `first` is the first record of an operand's FMT and CAP (R269). `place` is the place table
of the issue (R137). `asked` is the request of an IORD whose Read command stands in an NVMe queue (R278). -/
structure Cmd where
  tok : Nat
  seq : Nat
  handle : Nat
  op : BitVec 6
  warp : Nat
  pc : DWord
  widx : Nat
  kind : CmdKind
  iter : Nat := 0
  finished : Bool := false
  stopped : Option EngFault := none
  firstA : Option (Nat × Nat) := none
  firstB : Option (Nat × Nat) := none
  asked : Option Nat := none
  place : Place := { stgt := [], diemap := 0, slotmap := 0 }
deriving DecidableEq, Repr

/-- An engine context (R57). -/
structure Eng where
  level : Nat := 0
  top : Nat := 0
  scope : Nat := 1
  cmds : List Cmd := []
deriving DecidableEq, Repr

/-- A pending-launch entry (R65). `age` counts the block's CLK while the entry stands (R320). -/
structure LEntry where
  lrec : LaunchRec
  ec : Nat
  tok : Nat
  age : Nat := 0
deriving DecidableEq, Repr

/-- A block barrier (R48), or a block's arrivals at a cluster barrier (R49): per warp the threads that have arrived. -/
structure BBar where
  arr : List Mask := []
  gen : Word := 0
deriving DecidableEq, Repr

/-- Where a block stands (R70, R93). -/
inductive Movement where
  | resident | stowing | stowed | restoring | saved
deriving DecidableEq, Repr

/-- A replay invocation on a die's replay warp slot (R292, R293). -/
structure RInv where
  die : Nat
  desc : Nat
  pos : Nat
  resaddr : DWord
  caller : DWord
  entry : DWord
  copy : DWord
  size : Nat
  clauses : Nat := 0
  ended : Bool := false
deriving DecidableEq, Repr

/-- One entry of the input log of recorded mode (R310). `wait` tells that a word began a wait for something outside the block, `waitw` is
what a WAITW read. `frag` tells that threads came to stand with a fragment, parked or resumed, or were held at a word, `kill` that a
parked fragment's threads were ended, `expire` that a timed BWAIT of Bn did, `cbar` that a cluster barrier completed, `word` that a warp ran
a word (R311; log 37). A `regs` of a register number from 128 up tells what a register 128 below it received after its word. -/
inductive LogEntry where
  | load (warp key : Nat) (vals : List (Nat × List Byte))
  | regs (warp : Nat) (reg : Nat) (val : DWord)
  | sreg (warp : Nat) (vals : List DWord)
  | issue (warp : Nat) (act : Mask) (pc : DWord) (widx : Nat)
  | wstore (warp : Nat) (st : List WStore)
  | wait (warp key : Nat)
  | waitw (warp key : Nat) (val : List Byte)
  | frag (warp : Nat) (held : Bool) (m : Mask) (f : Frag)
  | kill (warp : Nat) (m : Mask)
  | expire (warp n : Nat) (m : Mask)
  | cbar (j : Nat)
  | word (warp : Nat)
deriving DecidableEq, Repr

/-- The shadow of a scratchpad word (R382): the last writer warp and its epoch. -/
structure Shadow where
  ww : Nat
  ep : Nat
deriving DecidableEq, Repr

/-- A member's arrival in a rendezvous latch (R63), with what its word holds. -/
structure Arrival where
  warp : Nat
  op : BitVec 6
  x : EngArgs
  act : Mask
  pc : DWord
  widx : Nat
  next : Nat
  scales : List (Option Byte)
deriving DecidableEq, Repr

/-- A rendezvous latch (R62): held for a block's member mask, forming until `formed`. -/
structure Latch where
  block : Nat
  mask : Mask
  formed : Bool
  joined : Mask
  arrivals : List Arrival
deriving DecidableEq, Repr

/-- The debug settings of a context as a block has them since its last clause boundary (R306, R381). -/
structure DbgLatch where
  sndk : BitVec 8 := 0
  sndbase : DWord := 0
  trcbase : DWord := 0
  trcsz : Word := 0
  haltb : Bool := false
  trc : Bool := false
  att : Bool := false
  ren : Bool := false
  stopr : Bool := false
  recsh : BitVec 16 := 0
  recbase : DWord := 0
deriving DecidableEq, Repr

/-- What a block holds beside its recording. An absent entry of `spad` or `acc` is an undefined value. `acc` is indexed by
`4096·tile + 64·row + column`. `core` is the core it is on or was on last.
While the block is away `frags` and `latches` hold what it had on its core, `image` the scratchpad ranges that
were saved, and `imgBytes` the size of the save set. `rings` are the ring descriptors in its scratchpad on which a ring form has
run (R265). `woke` says that a wake condition came true while it was moving away or stood away (R70). -/
structure Block where
  key : Nat
  ctx : Nat
  grid : Nat
  blockId : Word
  cluster : Option Nat := none
  crank : Nat := 0
  nthr : Nat
  mv : Movement := .resident
  core : Nat
  lslot : Nat := 0
  bslot : Nat := 0
  spBase : Nat := 0
  spSize : Nat := 0
  tiles : List Nat := []
  place : Place
  codeBase : DWord
  spad : Tab Byte := []
  spadPois : List Nat := []
  acc : Tab Word := []
  accPois : List Nat := []
  bars : Tab BBar := []
  cbars : Tab BBar := []
  ecs : List Eng := []
  launchq : List LEntry := []
  clk : Nat := 0
  moves : Word := 0
  hint : Bool := false
  share : Option Nat := none
  handler : Option Nat := none
  replay : Option RInv := none
  race : Tab Shadow := []
  epoch : Nat := 0
  boosts : List Nat := []
  rings : List Nat := []
  woke : Bool := false
  dbg : DbgLatch := {}
  recShare : Option Nat := none
  recCount : Nat := 0
  spadForeign : Bool := false
  wdogDone : List (Nat × Mask) := []
  frags : Tab Frag := []
  latches : Tab Latch := []
  image : List (Nat × Nat) := []
  imgBytes : Nat := 0
  due : Bool := false
  stowt : Nat := 0
  sbsw : Nat := 64
  pstarv : Nat := 16
  warps : List Warp := []
deriving DecidableEq, Repr

/-- A recorded block's checkpoint and input log (R309, R310); `replaying` is the warp and WCNT of the stop that a
re-execution heads for (R311), with the entries still to come; `mark` is the block at the last boundary that may be that stop, with
the entries to come from there; `goal` is a stop that waits for the block's clauses to end. `present` is the block as it stands while it is
shown in its past (log 37). -/
structure Recording where
  block : Nat
  checkpoint : Block
  log : List LogEntry
  replaying : Option (Nat × Nat × List LogEntry)
  mark : Option (Block × List LogEntry) := none
  goal : Option (Nat × Nat) := none
  present : Option Block := none
deriving DecidableEq, Repr

/-- A grid (R66, R71 to R75). `turn` is the host queue whose turn it stands in; `host` says that it came from one; `ord` is when its record
was written or snapshotted. -/
structure Grid where
  key : Nat
  ctx : Nat
  lrec : LaunchRec
  turn : Nat
  host : Bool
  chain : Bool
  prio : Nat
  next : Nat := 0
  ended : Nat := 0
  started : Bool := false
  ord : Nat := 0
  tlr : Option Tlr := none
  num : Nat := 0
  handler : Option Nat := none
  atCell : Option (Nat × Nat) := none
deriving DecidableEq, Repr

/-- An entry of a kernel's liveness table (R34): its clause, the V mask, the scratchpad ranges. -/
structure LiveEntry where
  ctx : Nat
  pc : DWord
  vmask : DWord
  ranges : List (Nat × Nat)
deriving DecidableEq, Repr

/-! ## Cores -/

/-- A held L1 line (R127), its poison by 32-byte word. -/
structure L1Line where
  asid : Nat
  line : Nat
  data : List Byte
  pois : BitVec 4
deriving DecidableEq, Repr

/-- A held instruction-cache line of 128 bytes (R184). -/
structure ILine where
  asid : Nat
  line : Nat
  data : List Byte
deriving DecidableEq, Repr

/-- A translation-cache entry (R126): one 64 KiB page and its leaf, with the physical page that it names; `top` is the leaf's highest offset
bit. -/
structure TEntry where
  asid : Nat
  page : Nat
  leaf : DWord
  pa : Nat
  key : Nat
  top : Nat := 15
deriving DecidableEq, Repr

/-- A core: `frags` holds the used entries of the fragment table (R52), `latches` those in use; `engTurn` is the slice that its ENG issue is
granted to next (R84). -/
structure Core where
  frags : Tab Frag := []
  l1 : List L1Line := []
  icache : List ILine := []
  tcache : List TEntry := []
  latches : Tab Latch := []
  sounding : Nat := 0
  engTurn : Nat := 0
deriving DecidableEq, Repr

/-! ## Contexts -/

/-- A trap not yet written as a record (R345), with the fields of R344. `holds` names the warp it holds (R342, R372). -/
structure Trap where
  id : Nat
  cause : Nat
  kind : Nat
  nested : Bool := false
  code : Nat := 0
  word : Nat := 0
  block : Option Nat := none
  blockId : Word := 0xFFFFFFFF
  fhandle : Word := 0xFFFFFFFF
  pc : DWord := 0
  lmask : Mask := 0
  warp : Nat := 0
  fnum : Nat := 0
  widx : Nat := 0
  aux : DWord := 0
  vec : DWord := 0
  chandle : Word := 0
  cop : BitVec 6 := 0
  ec : Nat := 0
  i4 : Nat := 0
  token : Nat := 0
  lcause : Tab Nat := []
  lval : Tab DWord := []
  holds : Option (Nat × Nat) := none
  cell : Option (Nat × Nat) := none
deriving DecidableEq, Repr

/-- How far the handler block of a record has come (R346). -/
inductive Handling where
  | none | waiting | running | done
deriving DecidableEq, Repr

/-- An unretired record (R343): the trap it tells of, its rewrites (R348), its handler, and the key counter when it was written (R71). -/
structure Rec where
  rid : Word
  trap : Trap
  hgen : BitVec 8 := 0
  failed : Bool := false
  handling : Handling := .none
  ord : Nat := 0
deriving DecidableEq, Repr

/-- The race report that the debugger receives (R382). -/
structure Race where
  block : Nat
  warp : Nat
  lane : Nat
  off : Nat
  ww : Nat
  pc : DWord
deriving DecidableEq, Repr

/-- A breakpoint register (R307). -/
structure Brk where
  lmask : Mask := 0
  pred : BitVec 4 := 0xF
  psense : Bool := false
  en : Bool := false
  addr : DWord := 0
deriving DecidableEq, Repr

/-- The trace hub's state for a context (R314, R315). -/
structure Trace where
  pos : Nat := 0
  last : Option Nat := none
  synced : List (Nat × Nat × Nat) := []
  lost : Nat := 0
deriving DecidableEq, Repr

/-- A context page (R327, R77, R123, R343, R379, R306, R307, R381) and the context's own state. `kept` says that traps
pending at a pre-emption wait for the restore (R353). -/
structure Ctx where
  sched : Word := 0x04401000
  deadline : DWord := 0
  root : DWord := 0
  tlrb : DWord := 0
  stowb : DWord := 0
  stowsz : Word := 0
  stowsh : BitVec 16 := 0
  en : Bool := false
  pre : Bool := false
  plw : Bool := false
  saved : Bool := false
  fn : BitVec 8 := 0
  part : BitVec 6 := 0
  trapq : DWord := 0
  hen : Bool := false
  irq : Bool := false
  hmax : BitVec 4 := 1
  hspad : BitVec 8 := 4
  hcode : DWord := 0
  tail : Word := 0
  head : Word := 0
  wdms : BitVec 16 := 0x64
  sndk : BitVec 8 := 0
  haltb : Bool := false
  trc : Bool := false
  recm : Bool := false
  att : Bool := false
  sndbase : DWord := 0
  recbase : DWord := 0
  trcbase : DWord := 0
  trcsz : Word := 0
  recsz : Word := 0
  recsh : BitVec 16 := 0
  stopr : Bool := false
  ren : Bool := false
  bps : Tab Brk := []
  failed : Bool := false
  stowOff : List Nat := []
  traps : List Trap := []
  recs : List Rec := []
  ringFault : Bool := false
  gridCount : Nat := 0
  trace : Trace := {}
  races : List Race := []
  halted : List Nat := []
  preFault : Bool := false
  clearPending : Bool := false
  kept : Bool := false
deriving DecidableEq, Repr

/-! ## Replay, host tables and the Wellhead -/

/-- An RCALL that waits for positions (R290, R299): the waiting lanes, the entries of its calling lanes without POSLO (R291),
where they go (R288), and the registers that receive positions. -/
structure RWaiting where
  block : Nat
  warp : Nat
  lanes : Mask
  entries : List (Nat × List Byte)
  logBase : Nat
  logStride : Nat
  logK : Nat
  sdst : Nat
  vp : Nat
deriving DecidableEq, Repr

/-- A replayed object at the sequencer (R287, R290, R295, R298). Its copies and log replicas (R289) are those that its descriptor in memory
names. -/
structure RObj where
  desc : Nat
  ctx : Nat
  next : Nat := 0
  trim : Nat := 0
  applied : List Nat := [0, 0, 0, 0, 0, 0, 0, 0]
  broken : BitVec 8 := 0
  waiting : List RWaiting := []
deriving DecidableEq, Repr

/-- A re-seed in progress (R378): object, logical die, donor. -/
structure Reseed where
  ctx : Nat
  desc : Nat
  die : Nat
  donor : Nat
deriving DecidableEq, Repr

/-- A work queue descriptor (R329). `overrun` says that its records overran it, until TAIL is written again. -/
structure WQueue where
  tail : Word := 0
  head : Word := 0
  ctx : BitVec 10 := 0
  en : Bool := false
  base : BitVec 52 := 0
  prio : BitVec 4 := 0
  logsz : BitVec 4 := 0
  overrun : Bool := false
deriving DecidableEq, Repr

/-- A sediment entry before its CHAIN, which is computed (R384). -/
structure Sediment where
  wall : DWord
  ctx : BitVec 16
  src : BitVec 16
  event : BitVec 16
  detail : BitVec 448
deriving DecidableEq, Repr

/-- The Wellhead's side of an NVMe queue pair (R278, R333): the next entry of either queue. -/
structure NvmePair where
  sqTail : Nat := 0
  cqHead : Nat := 0
deriving DecidableEq, Repr

/-- A doorbell written at a bus address (R333). -/
structure Doorbell where
  addr : DWord
  value : Word
deriving DecidableEq, Repr

/-- A response on a DOE mailbox (R335). -/
inductive SpdmResp where
  | version (v : List Nat)
  | capabilities (slots : List Nat) (sessions : Bool)
  | algorithms (asym hash : SpdmAlg)
  | digests (slot : Nat) (digest : Nat)
  | certificate (slot : Nat) (portion : List Byte) (remainder : Nat)
  | challenge (slot nonce : Nat) (signature : Nat)
  | measurements (m : List (Nat × Nat))
  | error
deriving DecidableEq, Repr

/-- One PF's SPDM state. -/
structure Spdm where
  agreed : Bool := false
  resp : Option SpdmResp := none
deriving DecidableEq, Repr

/-- A direction of a die link (R373): per bundle whether its spare is used, dropped, retraining. -/
structure Bundle where
  spared : Bool := false
  dropped : Bool := false
  training : Bool := false
deriving DecidableEq, Repr

/-- An MSI-X signal sent (R324): function, vector. -/
structure Msix where
  fn : Nat
  vector : Nat
deriving DecidableEq, Repr

/-- The Wellhead (R330 to R336, R375, R384, R385). `forced` and `forceMap` are what a forced GO pre-empts and the map that it will apply (R332). -/
structure Wellhead where
  err : BitVec 4 := 0
  stage : BitVec 4 := 0
  ready : BitVec 2 := 0
  usable : BitVec 8 := 0xFF
  live : List Nat := []
  memok : Word := 0
  partmap : Tab (BitVec 8) := []
  partnew : Tab (BitVec 8) := []
  partst : BitVec 2 := 0
  partForce : Bool := false
  forced : List Nat := []
  forceMap : Tab (BitVec 8) := []
  lim : BitVec 12 := 0xAF0
  pwrst : Tab (BitVec 2) := []
  mhz : Nat := 1200
  gateK : Nat := 16
  dielost : BitVec 8 := 0
  links : Tab Bundle := []
  flitErr : Tab Nat := []
  hostRetrains : Tab Nat := []
  portsDown : BitVec 16 := 0
  sediment : List Sediment := []
  sigDone : Bool := false
  signing : Option Nat := none
  signature : Nat := 0
  spdm : Tab Spdm := []
  msix : List Msix := []
  nvmePairs : Tab NvmePair := []
  doorbells : List Doorbell := []
  cellTurn : Tab Nat := []
  queueTurn : Tab Nat := []
  corrected : Tab Nat := []
  frameErr : Tab (List Nat) := []
  ceilingNoted : Bool := false
deriving DecidableEq, Repr

/-- The states of a line over all the L2s (R141). -/
inductive Moesi where
  | modified | owned | exclusive | shared | invalid
deriving DecidableEq, Repr

/-- A directory entry (R141): the line's state, the die whose L2 owns it, and the sharers by physical die, the owner among them. A
line of host or peer memory has its entry with the Wellhead's; a line that no L2 holds has none. -/
structure Dir where
  st : Moesi := .invalid
  owner : Option Nat := none
  sharers : BitVec 8 := 0
deriving DecidableEq, Repr

/-- A line of host or peer memory held in an L2 (R163): the die, and the bytes written there and not yet written back. -/
structure HLine where
  die : Nat
  line : Nat
  data : List Byte
  dirty : List Nat
  pois : BitVec 4
deriving DecidableEq, Repr

/-- A TLR cache copy (R134): by die and context. -/
structure TlrCopy where
  asid : Nat
  idx : Nat
  tlr : Tlr
deriving DecidableEq, Repr

/-- A change of a TLR copy that moves pages (R134): `old` is the record before, none where every page it maps is undefined. -/
structure TlrMove where
  asid : Nat
  idx : Nat
  old : Option Tlr
  gen : Nat
deriving DecidableEq, Repr

/-- A storage page whose contents the change `gen` of a TLR made undefined (R134; 0 is none), but for the offsets written at
that change or later: each with the key counter at its last write. -/
structure Undef where
  gen : Nat
  written : Tab Nat
deriving DecidableEq, Repr

/-- A range of storage that holds undefined values (R289), but for the offsets written since. -/
structure Spoiled where
  key : Nat
  len : Nat
  written : List Nat
deriving DecidableEq, Repr

/-- A page number translated to a storage page (R130): the table's root, the virtual page, the page number, and NM. -/
structure FrameUse where
  root : Nat
  va : Nat
  ppn : Nat
  nm : Bool
deriving DecidableEq, Repr

/-- The answer to the last host or peer read (R371). -/
structure ReadReply where
  data : List Byte
  poisoned : Bool
deriving DecidableEq, Repr

/-- What moves next: a word of a warp, an event of the opcode table, time, or one of the choices that the spec leaves open
(a load performed early R149, a line leaving an L1 R127 or an L2 R142, an instruction-cache line leaving R184, a translation leaving a cache R126, a TLR refetched R134, the host or a peer
writing its own memory R163, more of the reduced-service die's memory tested R331, an image's liveness table loaded R34). -/
inductive Move where
  | word (b w : Nat)
  | event (i : Instr)
  | elapse (n : Nat)
  | perform (b w k : Nat)
  | l1Drop (core asid line : Nat)
  | l2Drop (die line : Nat)
  | icDrop (core asid line : Nat)
  | tcDrop (core asid page : Nat)
  | outside (addr : Nat) (data : List Byte) (poison : Bool)
  | memTested (gib : Nat)
  | tlrRefetch (asid idx : Nat)
  | liveTable (e : LiveEntry)
deriving DecidableEq, Repr

/-- The machine. `memPoison` holds the poisoned 32-byte words at their homes, `l2Poison` those of device lines in the L2s that hold them, as
`l2Word` numbers them (R370). -/
structure State where
  tick : Nat
  inputs : List Move
  cur : Option (Nat × Nat)
  cycle : Nat
  wallU : Nat
  mem : Memory
  memPoison : List Nat
  l2Poison : List Nat
  dir : Tab Dir
  hlines : List HLine
  tlrc : List TlrCopy
  tlrMoves : List TlrMove
  tlrUndef : Tab Undef
  frames : Tab (List FrameUse)
  aliased : List Nat
  spoiled : List Spoiled
  lostLines : List Nat
  hostRead : Option ReadReply
  nextKey : Nat
  wh : Wellhead
  places : Tab Place
  nvme : Tab (BitVec 512)
  peers : Tab (BitVec 128)
  queues : Tab WQueue
  ctxs : Tab Ctx
  grids : List Grid
  cores : Tab Core
  blocks : List Block
  recordings : List Recording
  robjs : List RObj
  rturn : Tab Nat
  reseeds : List Reseed
  livetab : List LiveEntry
deriving DecidableEq, Repr

/-- A place table at reset (R135). -/
def Place.reset : Place := { stgt := List.replicate 16 0, diemap := 0xFFFFFFFF, slotmap := 0 }

/-- The machine right after a cold reset: every value the spec gives; the others are named in notes/assumptions 1 to 10. The
cold reset has written sediment entry 0 (R384). -/
def State.reset : State :=
  { tick := 0, inputs := [], cur := none, cycle := 0, wallU := 0, mem := [], memPoison := [], l2Poison := [], dir := [],
    hlines := [], tlrc := [], tlrMoves := [], tlrUndef := [], frames := [], aliased := [], spoiled := [], lostLines := [], hostRead := none, nextKey := 0,
    wh := { sediment := [{ wall := 0, ctx := 0xFFFF, src := 0xFF, event := 1, detail := 0 }] },
    places := [], nvme := [], peers := [], queues := [], ctxs := [], grids := [], cores := [], blocks := [],
    recordings := [], robjs := [], rturn := [], reseeds := [], livetab := [] }

end Sys2Proof.Machine
end

