-- ==== Sys2Proof/Machine/Tab.lean ====
section
/-! DEFINITION. Sparse maps, byte memory in its canonical form, masks of lanes and little-endian values. -/

namespace Sys2Proof.Machine

/-! ## Sparse maps -/

def tget {α : Type} : Tab α → Nat → Option α
  | [], _ => none
  | (j, x) :: t, k => if j = k then some x else tget t k

def tset {α : Type} : Tab α → Nat → α → Tab α
  | [], k, x => [(k, x)]
  | (j, y) :: t, k, x =>
    if k < j then (k, x) :: (j, y) :: t else if k = j then (k, x) :: t else (j, y) :: tset t k x

def terase {α : Type} : Tab α → Nat → Tab α
  | [], _ => []
  | (j, y) :: t, k => if j = k then terase t k else (j, y) :: terase t k

def tgetD {α : Type} (t : Tab α) (k : Nat) (d : α) : α := (tget t k).getD d

def tmod {α : Type} (t : Tab α) (k : Nat) (d : α) (f : α → α) : Tab α := tset t k (f (tgetD t k d))

/-- Every key of a set of keys removed. -/
def teraseAll {α : Type} (t : Tab α) (p : Nat → Bool) : Tab α := t.filter fun e => !p e.1

/-! ## Memory -/

/-- A byte; an unlisted byte reads 0 (R330; log 4). -/
def Memory.read (m : Memory) (a : Nat) : Byte := (tget (α := Byte) m a).getD 0

/-- Writing 0 removes the entry, so that equal memories are equal data. -/
def Memory.write (m : Memory) (a : Nat) (b : Byte) : Memory :=
  if b = 0 then terase (α := Byte) m a else tset (α := Byte) m a b

/-- Keys strictly rising from `lo` on, no entry 0. -/
def Memory.wfFrom : Nat → Memory → Bool
  | _, [] => true
  | lo, (a, b) :: m => decide (lo ≤ a) && decide (b ≠ 0) && Memory.wfFrom (a + 1) m

/-- The canonical form. -/
def Memory.wf (m : Memory) : Bool := Memory.wfFrom 0 m

/-- Bytes at consecutive addresses. -/
def Memory.readN (m : Memory) (a n : Nat) : List Byte := (List.range n).map fun i => m.read (a + i)

def Memory.writeN (m : Memory) (a : Nat) : List Byte → Memory
  | [] => m
  | b :: bs => Memory.writeN (m.write a b) (a + 1) bs

/-! ## Little-endian values (R5) -/

def leNat : List Byte → Nat
  | [] => 0
  | b :: bs => b.toNat + 256 * leNat bs

def leBytes : Nat → Nat → List Byte
  | 0, _ => []
  | n + 1, v => BitVec.ofNat 8 v :: leBytes n (v / 256)

/-! ## Masks of lanes -/

def lanes32 : List Nat := List.range 32

def maskNat (p : Nat → Bool) : List Nat → Nat
  | [] => 0
  | l :: ls => (if p l then 2 ^ l else 0) + maskNat p ls

/-- The mask of the lanes of which `p` holds. -/
def maskOf (p : Nat → Bool) : Mask := BitVec.ofNat 32 (maskNat p lanes32)

def Mask.has (m : Mask) (l : Nat) : Bool := m.getLsbD l

def Mask.list (m : Mask) : List Nat := lanes32.filter m.has

def Mask.none (m : Mask) : Bool := decide (m = 0)

/-- Bits [hi:lo] of a Nat. -/
def nbits (v hi lo : Nat) : Nat := v / 2 ^ lo % 2 ^ (hi - lo + 1)

/-- The signed value of the low `w` bits. -/
def sint (w v : Nat) : Int := if v % 2 ^ w < 2 ^ (w - 1) then (v % 2 ^ w : Nat) else (v % 2 ^ w : Nat) - (2 ^ w : Nat)

/-- An integer as a 64-bit address. -/
def addr64 (a : Int) : Nat := (a % (2 ^ 64 : Nat)).toNat

/-- The first index from 0 below `n` that satisfies `p`. -/
def firstIdx (n : Nat) (p : Nat → Bool) : Option Nat := (List.range n).find? p

/-- `f` applied `n` times. -/
def iter {α : Type} : Nat → (α → α) → α → α
  | 0, _, a => a
  | n + 1, f, a => iter n f (f a)

end Sys2Proof.Machine
end

