-- ==== Sys2Proof/Machine/Float.lean ====
section
/-! DEFINITION. Floating point (R95 to R101): formats, exact values, RoundFP of R36, and the operations with their flags. A
floating-point value is a Nat holding its bits. -/

namespace Sys2Proof.Machine

/-- A binary format: exponent and fraction bits (R95). -/
structure Fmt where
  eb : Nat
  fb : Nat
deriving DecidableEq, Repr

def fp64 : Fmt := ⟨11, 52⟩
def fp32 : Fmt := ⟨8, 23⟩
def fp16 : Fmt := ⟨5, 10⟩
def bf16 : Fmt := ⟨8, 7⟩

def Fmt.bias (f : Fmt) : Nat := 2 ^ (f.eb - 1) - 1
def Fmt.width (f : Fmt) : Nat := 1 + f.eb + f.fb
def Fmt.expMax (f : Fmt) : Nat := 2 ^ f.eb - 1
def Fmt.sign (f : Fmt) (v : Nat) : Bool := decide (v / 2 ^ (f.eb + f.fb) % 2 = 1)
def Fmt.expo (f : Fmt) (v : Nat) : Nat := v / 2 ^ f.fb % 2 ^ f.eb
def Fmt.frac (f : Fmt) (v : Nat) : Nat := v % 2 ^ f.fb
def Fmt.signBit (f : Fmt) (n : Bool) : Nat := if n then 2 ^ (f.eb + f.fb) else 0
def Fmt.inf (f : Fmt) (n : Bool) : Nat := f.signBit n + f.expMax * 2 ^ f.fb
def Fmt.maxFin (f : Fmt) (n : Bool) : Nat := f.signBit n + f.expMax * 2 ^ f.fb - 1
/-- DefaultNaN (R97). -/
def Fmt.nan (f : Fmt) : Nat := f.expMax * 2 ^ f.fb + 2 ^ (f.fb - 1)
def Fmt.isNaN (f : Fmt) (v : Nat) : Bool := decide (f.expo v = f.expMax ∧ f.frac v ≠ 0)
def Fmt.isInf (f : Fmt) (v : Nat) : Bool := decide (f.expo v = f.expMax ∧ f.frac v = 0)
def Fmt.isSig (f : Fmt) (v : Nat) : Bool := f.isNaN v && decide (f.frac v < 2 ^ (f.fb - 1))
/-- QuietOf (R36). -/
def Fmt.quiet (f : Fmt) (v : Nat) : Nat := if f.frac v < 2 ^ (f.fb - 1) then v + 2 ^ (f.fb - 1) else v
def Fmt.isZero (f : Fmt) (v : Nat) : Bool := decide (f.expo v = 0 ∧ f.frac v = 0)
def Fmt.negate (f : Fmt) (v : Nat) : Nat := if f.sign v then v - 2 ^ (f.eb + f.fb) else v + 2 ^ (f.eb + f.fb)
def Fmt.absolute (f : Fmt) (v : Nat) : Nat := if f.sign v then v - 2 ^ (f.eb + f.fb) else v

/-- A finite exact value: sign, magnitude, exponent of two. -/
structure Dy where
  neg : Bool
  m : Nat
  e : Int
deriving DecidableEq, Repr

/-- Real (R36) of a finite value. -/
def Fmt.real (f : Fmt) (v : Nat) : Dy :=
  if f.expo v = 0 then ⟨f.sign v, f.frac v, 1 - (f.bias : Int) - f.fb⟩
  else ⟨f.sign v, 2 ^ f.fb + f.frac v, (f.expo v : Int) - f.bias - f.fb⟩

/-! ## Flags (R99) -/

abbrev Fl := BitVec 5
def flIV : Fl := 1
def flDZ : Fl := 2
def flOF : Fl := 4
def flUF : Fl := 8
def flIX : Fl := 16

def bitLen (m : Nat) : Nat := if m = 0 then 0 else Nat.log2 m + 1

/-- Whether a quotient `q` with remainder `r` of `2^d` is rounded away from zero: RNE, RZ, RU, RD, RNA (R26). -/
def roundsUp (mode : Nat) (neg : Bool) (q r d : Nat) : Bool :=
  match mode with
  | 0 => decide (2 ^ d < 2 * r ∨ (2 * r = 2 ^ d ∧ q % 2 = 1))
  | 1 => false
  | 2 => !neg && decide (r ≠ 0)
  | 3 => neg && decide (r ≠ 0)
  | _ => decide (2 ^ d ≤ 2 * r)

/-- `m · 2^e` rounded to a multiple of `2^q`: the multiple, and whether it is inexact. -/
def roundTo (mode : Nat) (neg : Bool) (m : Nat) (e q : Int) : Nat × Bool :=
  if q ≤ e then (m * 2 ^ (e - q).toNat, false)
  else
    let d := (q - e).toNat
    let r := m % 2 ^ d
    (m / 2 ^ d + (if roundsUp mode neg (m / 2 ^ d) r d then 1 else 0), decide (r ≠ 0))

/-- RoundFP (R36, R96): subnormals kept, tininess after rounding; the result and OF, UF, IX. -/
def roundFP (f : Fmt) (mode : Nat) (x : Dy) : Nat × Fl :=
  if x.m = 0 then (f.signBit x.neg, 0)
  else
    let emin : Int := 1 - (f.bias : Int)
    let top : Int := x.e + bitLen x.m - 1
    let q := max (top - f.fb) (emin - f.fb)
    let (r, ix) := roundTo mode x.neg x.m x.e q
    let enc := (q - (emin - f.fb)).toNat * 2 ^ f.fb + r
    if f.expMax * 2 ^ f.fb ≤ enc then
      let toInf := match mode with
        | 0 | 4 => true
        | 1 => false
        | 2 => !x.neg
        | _ => x.neg
      (if toInf then f.inf x.neg else f.maxFin x.neg, flOF ||| flIX)
    else
      let tiny := decide (top < emin) &&
        !(decide (top + 1 = emin) && decide ((roundTo mode x.neg x.m x.e (top - f.fb)).1 = 2 ^ (f.fb + 1)))
      (f.signBit x.neg + enc, (if ix then flIX else 0) ||| (if ix && tiny then flUF else 0))

/-! ## Operations (R96 to R98) -/

/-- R97 items 1 and 3: the first NaN operand quieted, and IV where one signals. -/
def nanRule (f : Fmt) (ops : List Nat) : Option (Nat × Fl) :=
  match ops.find? f.isNaN with
  | some v => some (f.quiet v, if ops.any f.isSig then flIV else 0)
  | none => none

/-- An exact sum; an exact zero is +0 but in RD, or keeps a common sign (R96). -/
def dyAdd (mode : Nat) (x y : Dy) : Dy :=
  let e := min x.e y.e
  let a : Int := (x.m * 2 ^ (x.e - e).toNat : Nat)
  let b : Int := (y.m * 2 ^ (y.e - e).toNat : Nat)
  let v := (if x.neg then -a else a) + (if y.neg then -b else b)
  if v = 0 then ⟨if x.neg = y.neg then x.neg else decide (mode = 3), 0, e⟩ else ⟨decide (v < 0), v.natAbs, e⟩

def dyMul (x y : Dy) : Dy := ⟨x.neg != y.neg, x.m * y.m, x.e + y.e⟩

def fAdd (f : Fmt) (mode a b : Nat) : Nat × Fl :=
  match nanRule f [a, b] with
  | some r => r
  | none =>
    if f.isInf a && f.isInf b then (if f.sign a = f.sign b then (a, 0) else (f.nan, flIV))
    else if f.isInf a then (a, 0)
    else if f.isInf b then (b, 0)
    else roundFP f mode (dyAdd mode (f.real a) (f.real b))

def fMul (f : Fmt) (mode a b : Nat) : Nat × Fl :=
  match nanRule f [a, b] with
  | some r => r
  | none =>
    let n := f.sign a != f.sign b
    if f.isInf a || f.isInf b then (if f.isZero a || f.isZero b then (f.nan, flIV) else (f.inf n, 0))
    else roundFP f mode (dyMul (f.real a) (f.real b))

/-- One rounding; IV for 0 × ∞ even beside a quiet NaN (R97 item 4). -/
def fFma (f : Fmt) (mode a b c : Nat) : Nat × Fl :=
  let zi := (f.isInf a && f.isZero b) || (f.isZero a && f.isInf b)
  match nanRule f [a, b, c] with
  | some (v, fl) => (v, fl ||| (if zi then flIV else 0))
  | none =>
    if zi then (f.nan, flIV)
    else
      let n := f.sign a != f.sign b
      if f.isInf a || f.isInf b then (if f.isInf c && f.sign c ≠ n then (f.nan, flIV) else (f.inf n, 0))
      else if f.isInf c then (c, 0)
      else roundFP f mode (dyAdd mode (dyMul (f.real a) (f.real b)) (f.real c))

/-- A key that orders every value but NaNs, −0 below +0. -/
def Fmt.key (f : Fmt) (v : Nat) : Int := if f.sign v then -((v % 2 ^ (f.eb + f.fb) : Nat) : Int) - 1 else (v : Int)

/-- minimumNumber and maximumNumber (R98). -/
def fMinMax (f : Fmt) (isMax : Bool) (a b : Nat) : Nat × Fl :=
  let fl := if f.isSig a || f.isSig b then flIV else 0
  if f.isNaN a && f.isNaN b then (f.quiet a, fl)
  else if f.isNaN a then (b, fl)
  else if f.isNaN b then (a, fl)
  else if isMax then (if f.key a < f.key b then b else a, 0)
  else (if f.key b < f.key a then b else a, 0)

/-- Less, equal, unordered. -/
def fLt (f : Fmt) (a b : Nat) : Bool := !f.isNaN a && !f.isNaN b && !(f.isZero a && f.isZero b) && decide (f.key a < f.key b)
def fEq (f : Fmt) (a b : Nat) : Bool := !f.isNaN a && !f.isNaN b && ((f.isZero a && f.isZero b) || decide (a = b))

/-! ## Conversions (R101) -/

/-- A NaN in another format: sign kept, high-order payload kept, quieted (R101). Between FP16 and BF16, of one width, R101 says nothing:
the payload is left-aligned as the fraction is (log 98). -/
def nanTo (f g : Fmt) (v : Nat) : Nat :=
  let p := if f.fb ≤ g.fb then f.frac v * 2 ^ (g.fb - f.fb) else f.frac v / 2 ^ (f.fb - g.fb)
  g.quiet (g.signBit (f.sign v) + g.expMax * 2 ^ g.fb + p % 2 ^ (g.fb - 1))

def fConv (f g : Fmt) (mode v : Nat) : Nat × Fl :=
  if f.isNaN v then (nanTo f g v, if f.isSig v then flIV else 0)
  else if f.isInf v then (g.inf (f.sign v), 0)
  else roundFP g mode (f.real v)

/-- A float to an integer of `w` bits, saturating (R101). -/
def fToInt (f : Fmt) (mode w : Nat) (signed : Bool) (v : Nat) : Nat × Fl :=
  let lo : Int := if signed then -(2 ^ (w - 1) : Nat) else 0
  let hi : Int := if signed then (2 ^ (w - 1) : Nat) - 1 else (2 ^ w : Nat) - 1
  let enc (i : Int) : Nat := (i % (2 ^ w : Nat)).toNat
  if f.isNaN v then (0, flIV)
  else if f.isInf v then (enc (if f.sign v then lo else hi), flIV)
  else
    let x := f.real v
    let (r, ix) := roundTo mode x.neg x.m x.e 0
    let i : Int := if x.neg then -(r : Int) else r
    if i < lo then (enc lo, flIV) else if hi < i then (enc hi, flIV) else (enc i, if ix then flIX else 0)

def intToF (f : Fmt) (mode : Nat) (i : Int) : Nat × Fl := roundFP f mode ⟨decide (i < 0), i.natAbs, 0⟩

/-- A float rounded to an integral value of its own format. -/
def fRound (f : Fmt) (mode v : Nat) : Nat × Fl :=
  if f.isNaN v then (f.quiet v, if f.isSig v then flIV else 0)
  else if f.isInf v then (v, 0)
  else
    let x := f.real v
    let (r, ix) := roundTo mode x.neg x.m x.e 0
    ((roundFP f mode ⟨x.neg, r, 0⟩).1, if ix then flIX else 0)

/-! ## Atomics (R223) -/

/-- The new word of an atomic of `w` bits; `v` is the operand, or the compare value of CAS with `sw` the swap value. -/
def atomNew (aop w old v sw : Nat) : Nat :=
  match aop with
  | 1 => (old + v) % 2 ^ w
  | 2 => if sint w v < sint w old then v else old
  | 3 => if sint w old < sint w v then v else old
  | 4 => if v < old then v else old
  | 5 => if old < v then v else old
  | 6 => old &&& v
  | 7 => old ||| v
  | 8 => old ^^^ v
  | 9 => v
  | 10 => if old = v then sw else old
  | _ => (fAdd fp32 0 old v).1

end Sys2Proof.Machine
end

