-- ==== Sys2Proof/Machine/Base.lean ====
section
/-! DEFINITION. Accessors: blocks, warps, lanes, contexts, cores; the clause in flight; threads of a warp. -/

namespace Sys2Proof.Machine

/-! ## Lists -/

def mapFrom {α β : Type} : Nat → (Nat → α → β) → List α → List β
  | _, _, [] => []
  | i, f, a :: as => f i a :: mapFrom (i + 1) f as

def modNth {α : Type} : Nat → (α → α) → List α → List α
  | _, _, [] => []
  | 0, f, a :: as => f a :: as
  | n + 1, f, a :: as => a :: modNth n f as

def modWhere {α : Type} (p : α → Bool) (f : α → α) (l : List α) : List α := l.map fun a => if p a then f a else a

/-- The numbers 0 to n−1 folded over a state. -/
def forN {α : Type} (n : Nat) (f : Nat → α → α) (a : α) : α := (List.range n).foldl (fun x i => f i x) a

/-! ## Warps and lanes -/

def Warp.lane (w : Warp) (l : Nat) : Lane := w.lanes.getD l {}

def Warp.modLane (w : Warp) (l : Nat) (f : Lane → Lane) : Warp := { w with lanes := modNth l f w.lanes }

/-- Every lane of a mask changed. -/
def Warp.modMask (w : Warp) (m : Mask) (f : Nat → Lane → Lane) : Warp :=
  { w with lanes := mapFrom 0 (fun l x => if m.has l then f l x else x) w.lanes }

def Warp.maskWhere (w : Warp) (p : Lane → Bool) : Mask := maskOf fun l => p (w.lane l)

def Lane.isReal (x : Lane) : Bool := decide (x.kind = .real)
def Lane.isHelper (x : Lane) : Bool := decide (x.kind = .helper)
def Lane.isRunnable (x : Lane) : Bool := decide (x.st = .runnable)
def Lane.isExited (x : Lane) : Bool := decide (x.st = .exited)
def Lane.isParked (x : Lane) : Bool := decide (x.st = .parked)
def Lane.isWaiting (x : Lane) : Bool := match x.st with | .waiting _ => true | _ => false
def Lane.wait? (x : Lane) : Option Wait := match x.st with | .waiting w => some w | _ => none

def Warp.helpers (w : Warp) : Mask := w.maskWhere Lane.isHelper
/-- Real threads that have not exited. -/
def Warp.liveReal (w : Warp) : Mask := w.maskWhere fun x => x.isReal && !x.isExited
def Warp.exitedMask (w : Warp) : Mask := w.maskWhere Lane.isExited
def Warp.isLive (w : Warp) : Bool := !w.liveReal.none

/-- The leader of a helper lane (R39): the lowest real lane of its quad that has not exited. -/
def Warp.leader? (w : Warp) (l : Nat) : Option Nat :=
  ((List.range 4).map (4 * (l / 4) + ·)).find? fun j => (w.lane j).isReal && !(w.lane j).isExited

/-- Helper lanes take the place and the state of their leader, and count as exited without one (R39). -/
def Warp.syncHelpers (w : Warp) : Warp :=
  { w with
    lanes := mapFrom 0 (fun l x =>
      if x.isHelper then
        match w.leader? l with
        | none => { x with st := .exited }
        | some j =>
          let y := w.lane j
          { x with st := y.st, pc := y.pc, widx := y.widx, frag := y.frag, resume := y.resume, stamp := y.stamp,
                   waitClk := y.waitClk, waitWall := y.waitWall, step := y.step }
      else x) w.lanes,
    flight := w.flight.map fun f =>
      { f with act := maskOf fun l =>
          if (w.lane l).isHelper then (match w.leader? l with | some j => f.act.has j | none => false) else f.act.has l } }

/-- A mask with the helper lanes whose leader is in it. -/
def Warp.withHelpers (w : Warp) (m : Mask) : Mask :=
  maskOf fun l => m.has l || ((w.lane l).isHelper && (match w.leader? l with | some j => m.has j | none => false))

def Lane.release (x : Lane) : Lane :=
  { x with st := .runnable, pc := x.resume.1, widx := x.resume.2, stamp := none, waitClk := 0, waitWall := 0 }

/-- A wait that ends by executing its word again (R254); one that has to begin anew begins a new count (log 115). -/
def Lane.retry (x : Lane) : Lane := { x with st := .runnable, stamp := none, waitClk := 0, waitWall := 0 }

/-! ## Blocks and the machine -/

def Block.warp (b : Block) (w : Nat) : Warp := b.warps.getD w {}
def Block.modWarp (b : Block) (w : Nat) (f : Warp → Warp) : Block := { b with warps := modNth w f b.warps }
def Block.mapWarps (b : Block) (f : Nat → Warp → Warp) : Block := { b with warps := mapFrom 0 f b.warps }
def Block.eng (b : Block) (k : Nat) : Eng := b.ecs.getD k {}
def Block.modEng (b : Block) (k : Nat) (f : Eng → Eng) : Block := { b with ecs := modNth k f b.ecs }
def Block.cell (b : Block) : Nat := b.core / 8
/-- The die a block runs on; a replay invocation's is its engine's (R293). -/
def Block.die (b : Block) : Nat := match b.replay with | some v => v.die | none => b.core / 48
def Block.resident (b : Block) : Bool := decide (b.mv = .resident)

def State.block? (s : State) (k : Nat) : Option Block := s.blocks.find? fun b => decide (b.key = k)
def State.modBlock (s : State) (k : Nat) (f : Block → Block) : State :=
  { s with blocks := modWhere (fun b => decide (b.key = k)) f s.blocks }
def State.modWarp (s : State) (k w : Nat) (f : Warp → Warp) : State := s.modBlock k fun b => b.modWarp w f
def State.warp (s : State) (k w : Nat) : Warp := match s.block? k with | some b => b.warp w | none => {}
def State.modMask (s : State) (k w : Nat) (m : Mask) (f : Nat → Lane → Lane) : State :=
  s.modWarp k w fun x => x.modMask m f

def State.ctx (s : State) (c : Nat) : Ctx := tgetD s.ctxs c {}
def State.modCtx (s : State) (c : Nat) (f : Ctx → Ctx) : State := { s with ctxs := tmod s.ctxs c {} f }
def State.core (s : State) (n : Nat) : Core := tgetD s.cores n {}
def State.modCore (s : State) (n : Nat) (f : Core → Core) : State := { s with cores := tmod s.cores n {} f }
def State.place (s : State) (cell : Nat) : Place := tgetD s.places cell .reset
def State.queue (s : State) (q : Nat) : WQueue := tgetD s.queues q {}
def State.modQueue (s : State) (q : Nat) (f : WQueue → WQueue) : State := { s with queues := tmod s.queues q {} f }
def State.modWh (s : State) (f : Wellhead → Wellhead) : State := { s with wh := f s.wh }
def State.bump (s : State) : State := { s with nextKey := s.nextKey + 1 }

def Ctx.asid (c : Ctx) : Nat := nbits c.root.toNat 56 41
/-- Physical address of the level-0 table (R123). -/
def Ctx.rootPa (c : Ctx) : Nat := nbits c.root.toNat 40 0 * 2048
def Ctx.tlrPa (c : Ctx) : Nat := nbits c.tlrb.toNat 51 14 * 16384

/-- The physical position of logical slot `sl` (R135); of a code above 7 its low three bits count (log 92). -/
def Place.pos (p : Place) (sl : Nat) : Nat := nbits p.slotmap.toNat (4 * sl + 3) (4 * sl) % 8

/-- A warp that executes a word: its block, itself, and its clause in flight. -/
structure Cx where
  bk : Nat
  wi : Nat
  b : Block
  w : Warp
  fl : InFlight

def State.cx? (s : State) : Option Cx :=
  match s.cur with
  | none => none
  | some (bk, wi) =>
    match s.block? bk with
    | none => none
    | some b =>
      match b.warps[wi]? with
      | none => none
      | some w => match w.flight with
        | none => none
        | some fl => some { bk := bk, wi := wi, b := b, w := w, fl := fl }

/-- The form of every instruction row: what the executing warp does, or the fault of a word that no warp issues. -/
def State.withCx (s : State) (f : Cx → State) : Host.Outcome State Fault Refusal :=
  match s.cx? with
  | none => .fault .noWarp
  | some c => .next (f c)

/-! ## Positions in a clause (R172) -/

def InFlight.succ (f : InFlight) : DWord := f.pc + 4 + 4 * BitVec.ofNat 64 f.words.length

/-- Words of the instruction at index `i`: two where EXT marks the next. -/
def InFlight.len (f : InFlight) (i : Nat) : Nat := if f.ext.getLsbD (i + 1) then 2 else 1

/-- Where a thread stands after the instruction at `idx`. -/
def InFlight.next (f : InFlight) : DWord × Nat :=
  if f.words.length ≤ f.idx + f.len f.idx then (f.succ, 0) else (f.pc, f.idx + f.len f.idx)

def State.modFlight (s : State) (k w : Nat) (f : InFlight → InFlight) : State :=
  s.modWarp k w fun x => { x with flight := x.flight.map f }

/-- Lanes leave the clause: they are no longer of ACT. -/
def State.leave (s : State) (c : Cx) (m : Mask) : State := s.modFlight c.bk c.wi fun f => { f with act := f.act &&& ~~~m }

/-- Threads start to wait at the word in flight, and go on at the next word when released (R232, R254). -/
def State.startWait (s : State) (c : Cx) (m : Mask) (wt : Wait) : State :=
  (s.modMask c.bk c.wi m fun _ x =>
    { x with st := .waiting wt, pc := c.fl.pc, widx := c.fl.idx, resume := c.fl.next, waitClk := 0, waitWall := 0 }).leave c m

/-- A V register of a lane has a load outstanding on it. -/
def Warp.loading (w : Warp) (l r : Nat) : Bool :=
  w.loads.any fun ld => decide (ld.dat ≤ r ∧ r < ld.dat + (ld.size + 3) / 4) && ld.accs.any fun a => a.lane == l

/-- A V register of a lane is written by a load whose scoreboard has not cleared: its value is undefined (R29; log 12). -/
def Warp.busyV (w : Warp) (l r : Nat) : Bool :=
  w.loading l r || w.late.any fun e => decide (e.dat ≤ r ∧ r < e.dat + e.num) && e.lanes.has l

/-- A register-file key of undefined values: one number for each place (log 12). -/
def placeKey (bk wi l r : Nat) : Nat := ((bk * 32 + wi) * 64 + l) * 64 + r

/-- WALL in nanoseconds (R89). -/
def State.wall (s : State) : Nat := s.wallU / Config.wallUnit

/-! ## The input log of recorded mode (R310, R311) -/

/-- A value that the block cannot reproduce is appended to its input log; not during re-execution. -/
def State.log (s : State) (bk : Nat) (e : LogEntry) : State :=
  { s with recordings := modWhere (fun r => r.block == bk && r.replaying.isNone) (fun r => { r with log := r.log ++ [e] }) s.recordings }

/-- A block as it stands in the present, where the debugger shows it in its past (R311; log 37). -/
def State.nowOf (s : State) (b : Block) : Block := ((s.recordings.find? fun r => r.block == b.key).bind (·.present)).getD b

/-- A change to a block by an agent outside it: it meets the block as it stands in the present. -/
def State.modNow (s : State) (k : Nat) (f : Block → Block) : State :=
  if s.recordings.any fun r => r.block == k && r.present.isSome then
    { s with recordings := modWhere (fun r => r.block == k) (fun r => { r with present := r.present.map f }) s.recordings }
  else s.modBlock k f

/-- The block re-executes from its log (R311). -/
def State.replaying (s : State) (bk : Nat) : Bool := s.recordings.any fun r => r.block == bk && r.replaying.isSome

def takeFirst {α : Type} (p : α → Bool) : List α → Option (α × List α)
  | [] => none
  | a :: as => if p a then some (a, as) else (takeFirst p as).map fun r => (r.1, a :: r.2)

/-- The first free place of a table from `n` on: what a block shown in its past has stands beside the `n` entries that the core has (log 37). -/
def freePast {α : Type} (t : Tab α) (n : Nat) : Nat := ((List.range 4096).find? fun i => decide (n ≤ i) && (tget t i).isNone).getD n

/-- An entry that tells of a step of the block: a clause issue, or a word. -/
def LogEntry.acts : LogEntry → Bool
  | .issue _ _ _ _ => true
  | .word _ => true
  | _ => false

/-- The first of a kind among the entries before the next step of the block: those of the word that re-executes. -/
def takeHere (p : LogEntry → Bool) : List LogEntry → Option (LogEntry × List LogEntry)
  | [] => none
  | a :: as => if p a then some (a, as) else if a.acts then none else (takeHere p as).map fun r => (r.1, a :: r.2)

/-- An entry that `f` takes from the log of a re-executing block. -/
def State.takeLog (s : State) (bk : Nat) (f : List LogEntry → Option (LogEntry × List LogEntry)) : Option (LogEntry × State) :=
  match (s.recordings.find? fun r => r.block == bk).bind (·.replaying) with
  | some (w, n, es) => (f es).map fun q =>
      (q.1, { s with recordings := modWhere (fun x => x.block == bk) (fun x => { x with replaying := some (w, n, q.2) }) s.recordings })
  | none => none

/-- What the log of a re-executing block tells of the word in flight. -/
def State.logged (s : State) (bk : Nat) (p : LogEntry → Bool) : Option (LogEntry × State) := s.takeLog bk (takeHere p)

/-- What it tells of a register from a word on: the value of a load, or one that the word received late. -/
def State.loggedLate (s : State) (bk : Nat) (p : LogEntry → Bool) : Option (LogEntry × State) := s.takeLog bk (takeFirst p)

/-- A wait for something outside the block begins at a word, which the log tells of: a re-execution waits there too, and passes every wait
that did not (R311). -/
def State.logWait (s : State) (c : Cx) : State := s.log c.bk (.wait c.wi c.w.wcnt)

/-- In re-execution: the word in flight began a wait when it was first executed. -/
def State.waitLogged (s : State) (c : Cx) : Option State := (s.logged c.bk fun e => e == .wait c.wi c.w.wcnt).map (·.2)

/-- A clause of a lane class never stops part-way (R372, R91). -/
def InFlight.whole (f : InFlight) : Bool := f.cls == .alu || f.cls == .xln || f.cls == .sfu

end Sys2Proof.Machine
end

