-- ==== Sys2Proof/Machine/Xlate.lean ====
section
/-! DEFINITION. Physical memory and homing (R129 to R134, R394, R303), the L2 and its directory (R141, R163), poison
(R370, R371), page walks and the translation cache (R124 to R126). -/

namespace Sys2Proof.Machine

/-! ## Physical addresses and storage -/

def hostBase : Nat := 2 ^ 48
def peerBase : Nat := 2 ^ 49

/-- The logical home of a page by R130. -/
def hashHome (l ppn : Nat) : Nat := ppn * 0x9E3779B97F4A7C15 % 2 ^ 64 / 2 ^ 32 * l / 2 ^ 32

/-- Storage of a device page: die, local frame ppn[20:0], offset (R130). -/
def devKey (die ppn off : Nat) : Nat := die * 2 ^ 37 + ppn % 2 ^ 21 * 65536 + off

def State.liveCount (s : State) : Nat := s.wh.live.length

/-- Storage of a device page homed on logical die `d`. -/
def State.devKey? (s : State) (d ppn off : Nat) : Option Nat := (s.wh.live[d]?).map fun p => devKey p ppn off

/-- The ports that are up and reach a peer (R304, R374). -/
def State.peerPorts (s : State) (peer : Nat) : List Nat :=
  (List.range 16).filter fun p => !s.wh.portsDown.getLsbD p && !Config.portMisses p peer

/-- The port that the requests to a line of peer memory take (R304). -/
def State.linePort (s : State) (key : Nat) : Option Nat :=
  let ps := s.peerPorts (nbits key 47 38)
  ps[Config.portChoice (key / 128) % ps.length]?

/-- A peer address is good: its entry is valid, the offset inside its window, and a port reaches it (R303, R374). -/
def State.peerOk (s : State) (pa : Nat) : Bool :=
  let e := (tgetD s.peers (nbits pa 47 38) 0).toNat
  decide (nbits e 127 127 = 1 ∧ nbits pa 37 0 < nbits e 38 0) && !(s.peerPorts (nbits pa 47 38)).isEmpty

/-- The storage address of a physical address whose page homes by R130; none for a reserved target. -/
def State.paKey? (s : State) (pa : Nat) : Option Nat :=
  match pa / 2 ^ 48 with
  | 0 => s.devKey? (hashHome s.liveCount (nbits pa 47 16)) (nbits pa 47 16) (pa % 65536)
  | 1 => some (hostBase + pa % 2 ^ 48)
  | 2 => if s.peerOk pa then some (peerBase + pa % 2 ^ 48) else none
  | _ => none

def isOutside (key : Nat) : Bool := decide (hostBase ≤ key)
def isPeer (key : Nat) : Bool := decide (peerBase ≤ key)
def keyDie (key : Nat) : Nat := key / 2 ^ 37

/-! ## Poison -/

/-- A 32-byte word is poisoned at its home, or lies on a lost die (R370, R376). -/
def State.poisoned (s : State) (key : Nat) : Bool :=
  s.memPoison.contains (key / 32) || (!isOutside key && s.wh.dielost.getLsbD (keyDie key))

def insertSorted (k : Nat) : List Nat → List Nat
  | [] => [k]
  | j :: js => if k < j then k :: j :: js else if k = j then j :: js else j :: insertSorted k js

def State.poison (s : State) (key : Nat) : State := { s with memPoison := insertSorted (key / 32) s.memPoison }

def State.unpoison (s : State) (key : Nat) : State := { s with memPoison := s.memPoison.filter (· ≠ key / 32) }

/-- A 32-byte word of a device line in the L2 of a die. -/
def l2Word (die key : Nat) : Nat := 8 * (key / 32) + die

/-! ## The directory (R141, R142) -/

def dieBit (die : Nat) : BitVec 8 := 1#8 <<< die

/-- The L2 of `die` takes a copy of the line. -/
def Dir.read (x : Dir) (die : Nat) : Dir :=
  match x.st with
  | .invalid => { st := .exclusive, owner := some die, sharers := dieBit die }
  | .exclusive => { st := .shared, owner := none, sharers := x.sharers ||| dieBit die }
  | .shared => { x with sharers := x.sharers ||| dieBit die }
  | .modified => { x with st := .owned, sharers := x.sharers ||| dieBit die }
  | .owned => { x with sharers := x.sharers ||| dieBit die }

/-- The L2 of `die` holds the line modified, and every other copy is invalid (R157). -/
def Dir.write (die : Nat) : Dir := { st := .modified, owner := some die, sharers := dieBit die }

/-- The L2 of `die` gives the line up; an owner writes its data home first. -/
def Dir.leave (x : Dir) (die : Nat) : Dir :=
  let sh := x.sharers &&& ~~~dieBit die
  if sh = 0 then {}
  else if x.owner = some die then { st := .shared, owner := none, sharers := sh } else { x with sharers := sh }

/-- An owner writes the line home and keeps its copy (R143). -/
def Dir.home (x : Dir) : Dir :=
  match x.st with
  | .modified => { x with st := .exclusive }
  | .owned => { x with st := .shared, owner := none }
  | _ => x

/-- An L2 holds data of the line that its home does not. -/
def Dir.dirty (x : Dir) : Bool := decide (x.st = .modified ∨ x.st = .owned)

def State.dirOf (s : State) (line : Nat) : Dir := tgetD s.dir line {}

def State.setDir (s : State) (line : Nat) (x : Dir) : State :=
  { s with dir := if x.sharers = 0 then terase s.dir line else tset s.dir line x }

/-! ## Poison of device lines in the L2s (R370) -/

/-- The poison of a device word as the L2 of `die` has it or would read it: its own copy's, else that of the L2 that holds the line modified or
owned, else its home's. -/
def State.devPois (s : State) (die key : Nat) : Bool :=
  let x := s.dirOf (key / 128)
  s.wh.dielost.getLsbD (keyDie key) ||
    (if x.sharers.getLsbD die then s.l2Poison.contains (l2Word die key)
     else match (if x.dirty then x.owner else none) with
       | some o => s.l2Poison.contains (l2Word o key)
       | none => s.memPoison.contains (key / 32))

/-- The poison of a device line comes with it into the L2 of `die`. -/
def State.bringPois (s : State) (die line : Nat) : State :=
  { s with l2Poison := forN 4 (fun j ps =>
      if s.devPois die (128 * line + 32 * j) then insertSorted (l2Word die (128 * line + 32 * j)) ps else ps) s.l2Poison }

/-- The L2 of `die` writes a device line home, its poison with it (R371). -/
def State.poisHome (s : State) (die line : Nat) : State :=
  forN 4 (fun j t =>
    if s.l2Poison.contains (l2Word die (128 * line + 32 * j)) then t.poison (128 * line + 32 * j) else t.unpoison (128 * line + 32 * j)) s

/-- The owner of a device line, where it holds the line modified or owned, writes it home. -/
def State.ownerHome (s : State) (line : Nat) : State :=
  match (if (s.dirOf line).dirty then (s.dirOf line).owner else none) with
  | some o => s.poisHome o line
  | none => s

/-- The copies of a device line in the L2s of the dies that `p` picks are gone, and their poison. -/
def State.dropPois (s : State) (line : Nat) (p : Nat → Bool) : State :=
  { s with l2Poison := s.l2Poison.filter fun k => !(k / 32 == line && p (k % 8)) }

/-! ## Lines of host and peer memory in an L2 (R163) -/

def writeHLine (m : Memory) (h : HLine) : Memory :=
  h.dirty.foldl (fun m i => m.write (h.line * 128 + i) (h.data.getD i 0)) m

/-- The poison of each word that a line writes back goes with it (R371). -/
def poisonHLine (ps : List Nat) (h : HLine) : List Nat :=
  (List.range 4).foldl (fun ps j =>
    if h.dirty.any fun i => i / 32 == j then
      (if h.pois.getLsbD j then insertSorted (h.line * 4 + j) ps else ps.filter (· ≠ h.line * 4 + j))
    else ps) ps

/-- Modified bytes written back. -/
def State.writeBack (s : State) (hs : List HLine) : State :=
  { s with mem := hs.foldl writeHLine s.mem, memPoison := hs.foldl poisonHLine s.memPoison }

/-- Modified bytes written back, the line no longer held. -/
def State.dropHLines (s : State) (p : HLine → Bool) : State :=
  let hs := s.hlines.filter p
  { s.writeBack hs with hlines := s.hlines.filter fun h => !p h, dir := hs.foldl (fun d h => terase d h.line) s.dir }

/-- Modified bytes written back, the line still held clean. -/
def State.cleanHLines (s : State) (p : HLine → Bool) : State :=
  let hs := s.hlines.filter p
  { s.writeBack hs with
    hlines := modWhere p (fun h => { h with dirty := [] }) s.hlines,
    dir := hs.foldl (fun d h => tset d h.line (tgetD d h.line {}).home) s.dir }

/-- A line leaves the L2 of a die, for room or for another reason; what it holds modified reaches home (R142, R163). -/
def State.l2Evict (s : State) (die line : Nat) : State :=
  if isOutside (line * 128) then s.dropHLines fun h => h.die == die && h.line == line
  else
    let s := if (s.dirOf line).owner = some die then s.ownerHome line else s
    (s.dropPois line (· == die)).setDir line ((s.dirOf line).leave die)

/-- The lines that the L2 of a die holds. -/
def State.l2Held (s : State) (die : Nat) : List Nat := (s.dir.filter fun e => e.2.sharers.getLsbD die).map (·.1)

/-- Room for one more line in the L2 of a die (R7): a full one gives up one of its lines, which one the spec leaves open. -/
def State.l2Room (s : State) (die : Nat) : State :=
  if s.dir.length < Config.l2Lines then s
  else
    let ls := s.l2Held die
    if ls.length < Config.l2Lines then s
    else match ls[Config.l2Victim s.tick % ls.length]? with
      | some line => s.l2Evict die line
      | none => s

/-- The line of `key` comes into the L2 of `die`: a host or peer line moves to it alone; a device line gains a sharer. -/
def State.l2Line (s : State) (die key : Nat) : State :=
  let line := key / 128
  if (s.dirOf line).sharers.getLsbD die then s
  else
    let s := s.l2Room die
    if isOutside key then
      let s := s.dropHLines fun h => h.line == line
      { s.setDir line (Dir.read {} die) with hlines := s.hlines ++
          [{ die := die, line := line, data := s.mem.readN (line * 128) 128, dirty := [],
             pois := BitVec.ofNat 4 ((List.range 4).foldl (fun a i => a + if s.memPoison.contains (line * 4 + i) then 2 ^ i else 0) 0) }] }
    else (s.bringPois die line).setDir line ((s.dirOf line).read die)

/-- Every line of `n` bytes at `key` brought into the L2 of `die`. -/
def State.l2Lines (s : State) (die key n : Nat) : State :=
  forN ((key + n - 1) / 128 - key / 128 + 1) (fun i s => s.l2Line die ((key / 128 + i) * 128)) s

/-- A byte holds an undefined value: two page numbers share its page (R130), another agent stored to the copy that it is of (R289),
a TLR change moved its page (R134), or it lies in a frame that must not be mapped in reduced service (R3, R331). -/
def State.undefAt (s : State) (key : Nat) : Bool :=
  s.aliased.contains (key / 65536)
    || (s.wh.ready == 1 && !isOutside key && decide (s.wh.memok.toNat * 2 ^ 30 ≤ key % 2 ^ 37))
    || (s.spoiled.any fun r => decide (r.key ≤ key ∧ key < r.key + r.len) && !r.written.contains key)
    || (match tget s.tlrUndef (key / 65536) with
        | some u => decide (u.gen ≠ 0 ∧ tgetD u.written (key % 65536) 0 ≤ u.gen)
        | none => false)

/-- The host or peer line of a key as an L2 holds it. -/
def State.hline? (s : State) (key : Nat) : Option HLine := s.hlines.find? fun h => h.line == key / 128

/-- A byte read through the L2 of `die`; a free one where it is undefined (log 12). -/
def State.l2Byte (s : State) (die key : Nat) : Byte :=
  if s.undefAt key then Config.freeByte s.tick key
  else if isOutside key then
    match s.hlines.find? fun h => h.die == die && h.line == key / 128 with
    | some h => h.data.getD (key % 128) 0
    | none => s.mem.read key
  else s.mem.read key

/-- A byte read coherently, from whichever L2 holds its line (R125). -/
def State.cohByte (s : State) (key : Nat) : Byte :=
  s.l2Byte (match s.hline? key with | some h => h.die | none => 0) key

def State.l2Pois (s : State) (die key : Nat) : Bool :=
  if isOutside key then
    match s.hlines.find? fun h => h.die == die && h.line == key / 128 with
    | some h => h.pois.getLsbD (key % 128 / 32)
    | none => s.poisoned key
  else s.devPois die key

/-- The poison of a byte read coherently: of a device byte, as its home die's L2 reads it. -/
def State.cohPois (s : State) (key : Nat) : Bool := s.l2Pois (match s.hline? key with | some h => h.die | none => keyDie key) key

def State.l2Bytes (s : State) (die key n : Nat) : List Byte := (List.range n).map fun i => s.l2Byte die (key + i)

/-- Bytes at consecutive storage addresses, past every L2. -/
def State.putMem (s : State) (a : Nat) (bs : List Byte) : State := { s with mem := s.mem.writeN a bs }

/-- A written byte of an undefined page or range is defined again; while TLR changes are known, every write is dated (R134). -/
def State.noteWrite (s : State) (key : Nat) : State :=
  let s := if s.spoiled.isEmpty then s
    else { s with spoiled := modWhere (fun r => decide (r.key ≤ key ∧ key < r.key + r.len)) (fun r => { r with written := insertSorted key r.written }) s.spoiled }
  match tget s.tlrUndef (key / 65536) with
  | some u => { s with tlrUndef := tset s.tlrUndef (key / 65536) { u with written := tset u.written (key % 65536) s.nextKey } }
  | none =>
    if s.tlrMoves.isEmpty || isOutside key then s
    else { s with tlrUndef := tset s.tlrUndef (key / 65536) { gen := 0, written := [(key % 65536, s.nextKey)] } }

/-- Bytes of host or peer memory written at home, where no L2 holds the line. -/
def State.putHome (s : State) (key : Nat) (bs : List Byte) : State :=
  forN bs.length (fun i s => s.noteWrite (key + i)) (s.putMem key bs)

/-- A store to a line that a lost die homed, or alone held modified, is discarded (R376). -/
def State.lost (s : State) (key : Nat) : Bool :=
  (!isOutside key && s.wh.dielost.getLsbD (keyDie key)) || s.lostLines.contains (key / 128)

/-- A byte written through the L2 of `die`. -/
def State.l2Put (s : State) (die key : Nat) (b : Byte) : State :=
  if s.lost key then s
  else if isOutside key then
    { s with hlines := modWhere (fun h => h.die == die && h.line == key / 128) (fun h =>
                { h with data := h.data.set (key % 128) b, dirty := insertSorted (key % 128) h.dirty }) s.hlines }.noteWrite key
  else { s with mem := s.mem.write key b }.noteWrite key

/-- The line of `key` is held modified in the L2 of `die` alone (R157). -/
def State.own (s : State) (die key : Nat) : State := (s.dropPois (key / 128) (· != die)).setDir (key / 128) (Dir.write die)

/-- The poison of a word in the L2 of `die`, which holds its line, is set. -/
def State.l2SetPois (s : State) (die key : Nat) (p : Bool) : State :=
  if s.lost key then s
  else if isOutside key then
    { s with hlines := modWhere (fun h => h.die == die && h.line == key / 128) (fun h =>
                { h with pois := (h.pois &&& ~~~(1#4 <<< (key % 128 / 32))) ||| (if p then 1#4 <<< (key % 128 / 32) else 0) }) s.hlines }
  else { s with l2Poison := if p then insertSorted (l2Word die key) s.l2Poison else s.l2Poison.filter (· ≠ l2Word die key) }

/-- The bytes of one line written in the L2 of `die`, which takes the line and owns it: later entries win (R122); a 32-byte word wholly written
loses its poison, and one that takes a poisoned byte gains it (R371). -/
def State.l2WriteLine (s : State) (die line : Nat) (bs : List (Nat × Byte × Bool)) : State :=
  let s := (s.l2Line die (line * 128)).own die (line * 128)
  let s := bs.foldl (fun s e => s.l2Put die e.1 e.2.1) s
  let words := (bs.map (·.1 / 32)).eraseDups
  words.foldl (fun s w =>
    let here := bs.filter fun e => e.1 / 32 == w
    if here.any (·.2.2) then s.l2SetPois die (w * 32) true
    else if (List.range 32).all fun i => here.any fun e => e.1 == w * 32 + i then s.l2SetPois die (w * 32) false
    else s) s

/-- Writes at storage addresses as one write, line by line. -/
def State.l2Write (s : State) (die : Nat) (bs : List (Nat × Byte × Bool)) : State :=
  (bs.map (·.1 / 128)).eraseDups.foldl (fun s l => s.l2WriteLine die l (bs.filter fun e => e.1 / 128 == l)) s

/-- Plain bytes at consecutive storage addresses. -/
def State.l2WriteN (s : State) (die key : Nat) (bs : List Byte) : State :=
  s.l2Write die (mapFrom 0 (fun i b => (key + i, b, false)) bs)

/-! ## Tensor layout records (R131 to R133, R394) -/

def Tlr.f (t : Tlr) (hi lo : Nat) : Nat := nbits t.raw.toNat hi lo

def Tlr.tpr (t : Tlr) : Nat := (t.f 127 96 + t.f 159 144 - 1) / t.f 159 144
def Tlr.tiles (t : Tlr) : Nat := t.tpr * ((t.f 95 64 + t.f 143 128 - 1) / t.f 143 128)

/-- R394. -/
def Tlr.malformed (t : Tlr) : Bool :=
  decide (t.f 511 320 ≠ 0 ∨ t.f 255 232 ≠ 0 ∨ t.f 191 180 ≠ 0 ∨ t.f 231 228 = 0 ∨ 8 < t.f 231 228 ∨ t.f 227 224 = 0
    ∨ 8 < t.f 227 224 ∨ t.f 223 192 = 0 ∨ t.f 143 128 = 0 ∨ t.f 143 128 % 16 ≠ 0 ∨ t.f 159 144 = 0 ∨ t.f 159 144 % 16 ≠ 0
    ∨ t.f 95 64 = 0 ∨ t.f 127 96 = 0 ∨ 4 ≤ t.f 179 176 ∨ t.f 175 160 = 0 ∨ t.f 63 0 % 65536 ≠ 0
    ∨ t.f 223 192 * 65536 < t.f 143 128 / 16 * (t.f 159 144 / 16) * t.f 175 160)

/-- The logical die of tile `n` (R133), for L live dies. -/
def Tlr.homeOf (t : Tlr) (l n : Nat) : Nat :=
  let i := (n / t.tpr % t.f 227 224 * t.f 231 228 + n % t.tpr % t.f 231 228) % l
  t.f (263 + 8 * i) (256 + 8 * i) % l

/-- The logical home of the page of `va` by the record, or none where it homes by R130. -/
def Tlr.home? (t : Tlr) (l va : Nat) : Option Nat :=
  if t.malformed ∨ l = 0 then none
  else if t.f 63 0 ≤ va ∧ va < t.f 63 0 + t.tiles * t.f 223 192 * 65536 then
    some (t.homeOf l ((va - t.f 63 0) / (t.f 223 192 * 65536)))
  else none

/-- The logical die that a live die is. -/
def State.logicalDie (s : State) (die : Nat) : Nat := s.wh.live.idxOf die

/-- The record in memory (R132); where the table's address names no memory it reads as free bytes (log 126). -/
def State.readTlr (s : State) (c : Ctx) (idx : Nat) : Tlr :=
  match s.paKey? (c.tlrPa + 64 * idx) with
  | some k => { raw := BitVec.ofNat 512 (leNat ((List.range 64).map fun i => s.cohByte (k + i))) }
  | none => { raw := BitVec.ofNat 512 (leNat ((List.range 64).map fun i => Config.freeByte s.tick (c.tlrPa + 64 * idx + i))) }

/-- The copy a TLR cache holds, fetched where none is held (R134). -/
def State.tlrCopy (s : State) (c : Ctx) (idx : Nat) : State × Tlr :=
  match s.tlrc.find? fun t => t.asid == c.asid && t.idx == idx with
  | some t => (s, t.tlr)
  | none =>
    let t := s.readTlr c idx
    ({ s with tlrc := s.tlrc ++ [{ asid := c.asid, idx := idx, tlr := t }] }, t)

/-! ## Page walks (R124, R125) -/

def canonical (va : Nat) : Bool := decide (nbits va 63 56 = if nbits va 55 55 = 1 then 255 else 0)

/-- A level of the walk: its VA bits, whether it may hold pointers, the size of the next table, and the PPN bits a leaf must
leave zero (none where no leaf may stand). -/
structure Level where
  hi : Nat
  lo : Nat
  ptr : Bool
  next : Nat
  leaf : Option Nat

def levels : List Level :=
  [⟨55, 48, true, 4096, none⟩, ⟨47, 39, true, 4096, none⟩, ⟨38, 30, true, 4096, some 29⟩, ⟨29, 21, true, 256, some 20⟩,
   ⟨20, 16, false, 0, some 15⟩]

/-- A leaf keeps the layout of R125; `z` is its highest PPN bit that must be zero. -/
def leafOk (e z : Nat) : Bool :=
  decide (nbits e 63 62 ≠ 3 ∧ nbits e 15 5 = 0 ∧ (nbits e 60 60 = 1 ∨ nbits e 59 52 = 0) ∧ (z = 15 ∨ nbits e z 16 = 0))

/-- A table pointer keeps the layout of R125, and is aligned to the table it names. -/
def ptrOk (e next : Nat) : Bool := decide (nbits e 63 52 = 0 ∧ nbits e 7 2 = 0 ∧ nbits e 51 8 * 256 % next = 0)

/-- The walk from the table at `pa`: the leaf, the physical address of the 64 KiB page and the leaf's highest offset bit; none is the
translation fault. -/
def State.walkFrom (s : State) (va : Nat) : List Level → Nat → Option (Nat × Nat × Nat)
  | [], _ => none
  | lv :: rest, pa =>
    match s.paKey? (pa + 8 * nbits va lv.hi lv.lo) with
    | none => none
    | some k =>
      let e := leNat ((List.range 8).map fun i => s.cohByte (k + i))
      match nbits e 1 0 with
      | 1 => if lv.ptr && ptrOk e lv.next then s.walkFrom va rest (nbits e 51 8 * 256) else none
      | 2 => match lv.leaf with
        | some z => if leafOk e z then some (e, nbits e 51 (z + 1) * 2 ^ (z + 1) + nbits va z 0 / 65536 * 65536, z) else none
        | none => none
      | _ => none

def State.walk (s : State) (c : Ctx) (va : Nat) : Option (Nat × Nat × Nat) := s.walkFrom va levels c.rootPa

/-- Page kinds of a leaf (R128): 0 RC, 1 SO, 2 UO. -/
def TEntry.ord (t : TEntry) : Nat := nbits t.leaf.toNat 63 62
def TEntry.nm (t : TEntry) : Bool := t.leaf.getLsbD 61
def TEntry.x (t : TEntry) : Bool := t.leaf.getLsbD 4
def TEntry.w (t : TEntry) : Bool := t.leaf.getLsbD 3
def TEntry.r (t : TEntry) : Bool := t.leaf.getLsbD 2

/-- The page's contents become undefined where a TLR change moved its home (R134), once for each change. A malformed record maps no
page, so that its pages home by R130. -/
def State.markMoved (s : State) (c : Ctx) (idx va ppn home : Nat) (key : Nat) : State :=
  s.tlrMoves.foldl (fun s mv =>
    let moved : Bool := match mv.old with
      | none => true
      | some o => decide (((o.home? s.liveCount va).getD (hashHome s.liveCount ppn)) ≠ home)
    let u := (tget s.tlrUndef (key / 65536)).getD { gen := 0, written := [] }
    if mv.asid == c.asid && mv.idx == idx && moved && decide (u.gen < mv.gen)
    then { s with tlrUndef := tset s.tlrUndef (key / 65536) { u with gen := mv.gen } } else s) s

/-- The page numbers that still map to a storage page (R130), after this translation. -/
def State.stillMapped (s : State) (u : FrameUse) : Bool :=
  match s.walkFrom u.va levels u.root with
  | some (_, pa, _) => decide (pa / 65536 = u.ppn)
  | none => false

/-- A storage page's users, and whether two page numbers share it. -/
def State.setFrame (s : State) (page : Nat) (us : List FrameUse) : State :=
  { s with frames := tset s.frames page us,
           aliased := if us.any fun u => us.any fun v => u.ppn != v.ppn then insertSorted page s.aliased else s.aliased.filter (· ≠ page) }

/-- A translation to a storage page is noted; those of other page numbers stand while their tables still map them. -/
def State.useFrame (s : State) (u : FrameUse) (page : Nat) : State :=
  let old := tgetD s.frames page []
  if old == [u] then s
  else s.setFrame page ((old.filter fun v => !(v.root == u.root && v.va == u.va) && (v.ppn == u.ppn || s.stillMapped v)) ++ [u])

/-- Storage pages that no longer have two page numbers are good again. -/
def State.recheckFrames (s : State) : State :=
  s.aliased.foldl (fun s p => s.setFrame p ((tgetD s.frames p []).filter s.stillMapped)) s

/-- The stack that holds a device storage address (R130): an NM page lies whole in one. -/
def State.stackOf (s : State) (key : Nat) : Nat :=
  2 * keyDie key + (if (tgetD s.frames (key / 65536) []).any (·.nm) then nbits key 16 16 else nbits key 8 8)

/-- A full translation of the page of `va`: the walk, the target's check and the home (R129, R130, R133). -/
def State.resolve (s : State) (c : Ctx) (va : Nat) : State × Option TEntry :=
  match s.walk c va with
  | none => (s, none)
  | some (leaf, pa, top) =>
    let page := va / 65536 * 65536
    let ppn := nbits pa 47 16
    let ent k : TEntry := { asid := c.asid, page := va / 65536, leaf := BitVec.ofNat 64 leaf, pa := pa, key := k, top := top }
    if pa / 2 ^ 48 = 0 then
      let (s, d) := if nbits leaf 60 60 = 1 then
          let (s, t) := s.tlrCopy c (nbits leaf 59 52)
          (s, (t.home? s.liveCount page).getD (hashHome s.liveCount ppn))
        else (s, hashHome s.liveCount ppn)
      match s.devKey? d ppn 0 with
      | some k =>
        let s := if nbits leaf 60 60 = 1 then s.markMoved c (nbits leaf 59 52) page ppn d k else s
        (s.useFrame { root := c.rootPa, va := page, ppn := ppn, nm := decide (nbits leaf 61 61 = 1) } (k / 65536), some (ent k))
      | none => (s, none)
    else match s.paKey? pa with
      | some k => (s, some (ent k))
      | none => (s, none)

/-- Translation through the core's translation cache (R126). -/
def State.xlate (s : State) (core c va : Nat) : State × Option TEntry :=
  let x := s.ctx c
  match (s.core core).tcache.find? fun t => t.asid == x.asid && t.page == va / 65536 with
  | some t => (s, some t)
  | none =>
    match s.resolve x va with
    | (s, some t) => (s.modCore core fun k => { k with tcache := k.tcache ++ [t] }, some t)
    | (s, none) => (s, none)

/-- The causes of R218 for a global access of one page, in the order of R339; 0 is none. `need` is read, write or execute. -/
inductive Need where
  | read | write | exec | rmw
deriving DecidableEq, Repr

def TEntry.allows (t : TEntry) : Need → Bool
  | .read => t.r
  | .write => t.w
  | .exec => t.x
  | .rmw => t.r && t.w

/-- The check of the page of `va`: its entry, or the cause. -/
def State.checkPage (s : State) (core c va : Nat) (need : Need) : State × Except Nat TEntry :=
  if !canonical va then (s, .error 0x11)
  else match s.xlate core c va with
    | (s, none) => (s, .error 0x12)
    | (s, some t) => if t.allows need then (s, .ok t) else (s, .error 0x13)

/-- Every page of a range, its first cause in the order of R339, and the storage address of each byte. -/
def State.checkRange (s : State) (core c va n : Nat) (need : Need) : State × Except Nat (TEntry × TEntry) :=
  let last := (va + n - 1) % 2 ^ 64
  match s.checkPage core c va need, (s.checkPage core c va need).1.checkPage core c last need with
  | (_, .ok a), (s, .ok b) => (s, .ok (a, b))
  | (_, .error e), (s, .ok _) => (s, .error e)
  | (_, .ok _), (s, .error e) => (s, .error e)
  | (_, .error e), (s, .error f) => (s, .error (min e f))

/-- The storage address of byte `va + i` of an access that starts at `va`, over at most two pages. -/
def byteKey (a b : TEntry) (va i : Nat) : Nat :=
  let v := (va + i) % 2 ^ 64
  if v / 65536 = a.page then a.key + v % 65536 else b.key + v % 65536

end Sys2Proof.Machine
end

