-- ==== Sys2Proof/Machine/Obj.lean ====
section
/-! DEFINITION. The device's reads and writes through a context's mapping; replayed objects as memory holds them: the descriptor (R287,
R288), the copies and log replicas that it names, and what a store to them by another agent leaves (R289). -/

namespace Sys2Proof.Machine

/-! ## The device's own accesses through a context's mapping -/

/-- The page of an access of the device itself, which uses no core's translation cache. -/
def State.devPage (s : State) (c va : Nat) (need : Need) : State × Except Nat TEntry :=
  if !canonical va then (s, .error 0x11)
  else match s.resolve (s.ctx c) va with
    | (s, none) => (s, .error 0x12)
    | (s, some t) => if t.allows need then (s, .ok t) else (s, .error 0x13)

/-- The pages of a range, or the cause of the first page that fails with the first address that fails. -/
def State.devRange (s : State) (c va n : Nat) (need : Need) : State × Except (Nat × Nat) (TEntry × TEntry) :=
  let last := (va + n - 1) % 2 ^ 64
  match s.devPage c va need with
  | (s, .error e) => (s, .error (e, va))
  | (s, .ok a) => match s.devPage c last need with
    | (s, .error e) => (s, .error (e, last / 65536 * 65536))
    | (s, .ok b) => (s, .ok (a, b))

/-! ## The object descriptor -/

/-- The fields that software writes (R287). -/
structure ObjDesc where
  size : Nat
  nmeth : Nat
  logK : Nat
  rep : Nat
  repStride : Nat
  log : Nat
  logStride : Nat
  meths : List Nat
deriving DecidableEq, Repr

def bytesAt (bs : List Byte) (off n : Nat) : Nat := leNat ((bs.drop off).take n)

/-- The 768 bytes of a descriptor, without a check. -/
def readObjDesc (bs : List Byte) : ObjDesc :=
  { size := bytesAt bs 0 4, nmeth := nbits (bytesAt bs 4 4) 15 8, logK := nbits (bytesAt bs 4 4) 4 0, rep := bytesAt bs 8 8,
    repStride := bytesAt bs 16 8, log := bytesAt bs 24 8, logStride := bytesAt bs 32 8,
    meths := (List.range 64).map fun m => bytesAt bs (256 + 8 * m) 8 }

/-- The descriptor keeps the ranges and the zeros of R287. -/
def objDescOk (bs : List Byte) : Bool :=
  let d := readObjDesc bs
  decide (d.size % 64 = 0 ∧ 64 ≤ d.size ∧ d.size ≤ 2 ^ 30 ∧ nbits (bytesAt bs 4 4) 31 16 = 0 ∧ nbits (bytesAt bs 4 4) 7 5 = 0
    ∧ 1 ≤ d.nmeth ∧ d.nmeth ≤ 64 ∧ d.logK ≤ 16 ∧ d.rep % 65536 = 0 ∧ d.repStride % 65536 = 0 ∧ d.size ≤ d.repStride
    ∧ d.log % 65536 = 0 ∧ d.logStride % 65536 = 0 ∧ 64 * 2 ^ d.logK ≤ d.logStride ∧ bytesAt bs 0x28 8 = 0 ∧ bytesAt bs 0x81 127 = 0)
  && d.meths.all (fun m => decide (nbits m 61 56 = 0 ∧ m % 4 = 0)) && (d.meths.drop d.nmeth).all fun m => decide (m = 0)

def ObjDesc.meth (d : ObjDesc) (m : Nat) : Nat := d.meths.getD m 0
/-- Method `m` is in the table and valid. -/
def ObjDesc.valid (d : ObjDesc) (m : Nat) : Bool := decide (m < d.nmeth) && decide (nbits (d.meth m) 62 62 = 1)
def ObjDesc.readOnly (d : ObjDesc) (m : Nat) : Bool := decide (nbits (d.meth m) 63 63 = 1)
/-- ENTRY, sign-extended from bit 55. -/
def ObjDesc.entry (d : ObjDesc) (m : Nat) : DWord := (BitVec.ofNat 56 (d.meth m)).signExtend 64
/-- The copy of a logical die, and a slot of its log replica (R289, R290). -/
def ObjDesc.copy (d : ObjDesc) (die : Nat) : Nat := (d.rep + die * d.repStride) % 2 ^ 64
def logSlot (base stride k die pos : Nat) : Nat := (base + die * stride + 64 * (pos % 2 ^ k)) % 2 ^ 64

/-! ## Copies and log replicas (R289) -/

/-- A copy or a log replica: its logical die, its virtual address and its length. -/
structure Area where
  die : Nat
  va : Nat
  len : Nat
deriving DecidableEq, Repr

/-- The copies and log replicas of the live dies. -/
def ObjDesc.areas (d : ObjDesc) (l : Nat) : List Area :=
  (List.range l).map (fun i => { die := i, va := d.copy i, len := d.size })
    ++ (List.range l).map fun i => { die := i, va := logSlot d.log d.logStride 0 i 0, len := 64 * 2 ^ d.logK }

/-- What memory holds at a virtual address of a context. -/
def State.peek (s : State) (c va n : Nat) : Option (List Byte) :=
  match (s.resolve (s.ctx c) va).2, (s.resolve (s.ctx c) ((va + n - 1) % 2 ^ 64)).2 with
  | some a, some b => some ((List.range n).map fun i => s.cohByte (byteKey a b va i))
  | _, _ => none

/-- The copies and replicas of an object, by what its descriptor holds now. -/
def State.objAreas (s : State) (o : RObj) : List Area :=
  match s.peek o.ctx o.desc 768 with
  | some bs => (readObjDesc bs).areas s.liveCount
  | none => []

/-- The storage of a range, page by page. -/
def State.rangeKeys (s : State) (c va n : Nat) : List (Nat × Nat) :=
  (List.range ((va + n - 1) / 65536 - va / 65536 + 1)).filterMap fun i =>
    let a := max va ((va / 65536 + i) * 65536)
    match (s.resolve (s.ctx c) a).2 with
    | some t => some (t.key + a % 65536, min (va + n) ((va / 65536 + i + 1) * 65536) - a)
    | none => none

/-- A copy or replica holds undefined values. -/
def State.spoil (s : State) (c : Nat) (r : Area) : State :=
  let ks := s.rangeKeys c r.va r.len
  { s with spoiled := (s.spoiled.filter fun r => !ks.any fun k => k.1 == r.key) ++ ks.map fun k => { key := k.1, len := k.2, written := [] } }

/-- A store at storage addresses, by the replay engine of logical die `own` or by an agent that is none: every copy and replica that it
meets, but for that die's, holds undefined values (R289). -/
def State.foreignStore (s : State) (own : Option Nat) (ks : List Nat) : State :=
  s.robjs.foldl (fun s o =>
    ((s.objAreas o).filter fun r => own != some r.die && (s.rangeKeys o.ctx r.va r.len).any fun k => ks.any fun a => decide (k.1 ≤ a ∧ a < k.1 + k.2)).foldl
      (fun s r => s.spoil o.ctx r) s) s

/-- The logical die whose copies a block's stores keep: a replay invocation's own. -/
def State.ownCopy (s : State) (b : Block) : Option Nat := if b.replay.isSome then some (s.logicalDie b.die) else none

/-! ## The device's reads and writes -/

/-- A write of the device at a virtual address: none, or the cause of R218 that it met. `own` is as above. -/
def State.devWriteBy (s : State) (own : Option Nat) (c die va : Nat) (bs : List Byte) : State × Option Nat :=
  match s.devRange c va bs.length .write with
  | (s, .error e) => (s, some e.1)
  | (s, .ok (a, b)) =>
    ((s.l2Write die (mapFrom 0 (fun i x => (byteKey a b va i, x, false)) bs)).foreignStore own ((List.range bs.length).map (byteKey a b va)), none)

def State.devWrite (s : State) (c die va : Nat) (bs : List Byte) : State × Option Nat := s.devWriteBy none c die va bs

/-- A read of the device at a virtual address. -/
def State.devRead (s : State) (c die va n : Nat) : State × Except Nat (List Byte) :=
  match s.devRange c va n .read with
  | (s, .error e) => (s, .error e.1)
  | (s, .ok (a, b)) =>
    let s := (s.l2Line die (byteKey a b va 0)).l2Line die (byteKey a b va (n - 1))
    (s, .ok ((List.range n).map fun i => s.l2Byte die (byteKey a b va i)))

end Sys2Proof.Machine
end

