-- ==== Sys2Proof/Machine/Access.lean ====
section
/-! DEFINITION. Accesses: the L1 (R127), outstanding loads and stores and when they are performed (R149, R154, R157),
acquires and releases (R150, R158, R163), the on-chip window (R138 to R140) and soundings (R312). -/

namespace Sys2Proof.Machine

/-! ## The L1 -/

def Core.l1Find (k : Core) (asid line : Nat) : Option L1Line := k.l1.find? fun x => x.asid == asid && x.line == line

def State.dropL1 (s : State) (core : Nat) (p : L1Line → Bool) : State :=
  s.modCore core fun k => { k with l1 := k.l1.filter fun x => !p x }

/-- A fill; a full set gives up one of its lines, which one the spec leaves open (R127). -/
def Core.l1Insert (k : Core) (tick : Nat) (x : L1Line) : Core :=
  let same := k.l1.filter fun y => y.line % Config.l1Sets == x.line % Config.l1Sets
  let rest := k.l1.filter fun y => y.line % Config.l1Sets != x.line % Config.l1Sets
  let same := if same.length < Config.l1Ways then same else same.eraseIdx (Config.l1Victim tick % Config.l1Ways)
  { k with l1 := rest ++ same ++ [x] }

/-! ## Outstanding stores -/

def State.onCore (s : State) (core : Nat) : List Block := s.blocks.filter fun b => decide (b.core = core)

/-- A list of stores by ascending key, with one more. -/
def insertOldest (x : PStore) : List PStore → List PStore
  | [] => [x]
  | y :: ys => if x.key < y.key then x :: y :: ys else y :: insertOldest x ys

/-- The core's stores not acknowledged that write one of `n` bytes under this address and mapping, the oldest first. -/
def State.pendingTo (s : State) (core asid va key n : Nat) : List PStore :=
  let all := (s.onCore core).flatMap fun b =>
    if (s.ctx b.ctx).asid = asid then b.warps.flatMap fun w => w.stores.filter fun st =>
      st.form == .st && st.bytes.any fun x => decide (va ≤ x.va ∧ x.va < va + n ∧ x.key + va = key + x.va)
    else []
  all.foldl (fun l st => insertOldest st l) []

/-- The byte that the core's last store not acknowledged writes at an address, under the same mapping (R126). -/
def State.pendingByte (s : State) (core asid va key : Nat) : Option Byte :=
  ((s.pendingTo core asid va key 1).flatMap fun st => (st.bytes.filter fun x => x.va == va && x.key == key).map (·.b)).getLast?

/-- The poison of the 32-byte word of a byte with the core's stores not acknowledged laid over it: one that writes it wholly clears it (R371). -/
def State.pendingPois (s : State) (core asid die va key : Nat) : Bool :=
  (s.pendingTo core asid (va / 32 * 32) (key / 32 * 32) 32).foldl (fun p st =>
    if st.bytes.any fun x => x.va / 32 == va / 32 && x.key / 32 == key / 32 && x.pois then true
    else if (List.range 32).all fun i => st.bytes.any fun x => x.va == va / 32 * 32 + i then false
    else p) (s.l2Pois die key)

/-- Storage address of byte `i` of an access. -/
def Acc.bkey (a : Acc) (i : Nat) : Nat :=
  let v := (a.addr + i) % 2 ^ 64
  if v / 65536 = a.addr / 65536 then a.key + v % 65536 else a.key2 + v % 65536

/-- The page of byte `i` of an access is SO. -/
def Acc.soAt (a : Acc) (i : Nat) : Bool :=
  if (a.addr + i) % 2 ^ 64 / 65536 = a.addr / 65536 then a.so else a.so2

/-- Where poisoned data lies, by R369, and its physical address: host and peer memory, or a device word, which HBM4E or an L2
holds as the L2 happens to have the line (log 12). -/
def poisAt (tick key pa : Nat) : Nat × Nat :=
  (if isOutside key then 5 else if Config.freeBool tick key then 1 else 0, pa / 32 * 32)

/-- The same for byte `i` of an access. -/
def Acc.poisAt (a : Acc) (tick i : Nat) : Nat × Nat :=
  let v := (a.addr + i) % 2 ^ 64
  Machine.poisAt tick (a.bkey i) (if v / 65536 = a.addr / 65536 then a.pa + v % 65536 else a.pa2 + v % 65536)

/-- One lane's bytes: from the core's L1 where the line is held, else from the core's own outstanding stores, else through
the L2; only the last for an access that reads through the L2 (R158) and for an SO page (R127). -/
def State.loadBytes (s : State) (core asid die : Nat) (thru : Bool) (a : Acc) (n : Nat) : List (Byte × Option (Nat × Nat)) :=
  (List.range n).map fun i =>
    let v := (a.addr + i) % 2 ^ 64
    let at_ : Option (Nat × Nat) := some (a.poisAt s.tick i)
    if thru || a.soAt i then (s.l2Byte die (a.bkey i), if s.l2Pois die (a.bkey i) then at_ else none)
    else match (s.core core).l1Find asid (v / 128) with
    | some x => (x.data.getD (v % 128) 0, if x.pois.getLsbD (v % 128 / 32) then at_ else none)
    | none => ((s.pendingByte core asid v (a.bkey i)).getD (s.l2Byte die (a.bkey i)), if s.pendingPois core asid die v (a.bkey i) then at_ else none)

/-- The line of byte `i` of an access fills the L1, with the core's outstanding stores laid over it. -/
def State.fillLine (s : State) (core asid die : Nat) (a : Acc) (i : Nat) : State :=
  let v := (a.addr + i) % 2 ^ 64
  match (s.core core).l1Find asid (v / 128) with
  | some _ => s
  | none =>
    let base := a.bkey i - v % 128
    let data := (List.range 128).map fun j => (s.pendingByte core asid (v / 128 * 128 + j) (base + j)).getD (s.l2Byte die (base + j))
    let pois := BitVec.ofNat 4 ((List.range 4).foldl (fun x j =>
      x + if s.pendingPois core asid die (v / 128 * 128 + 32 * j) (base + 32 * j) then 2 ^ j else 0) 0)
    s.modCore core fun k => k.l1Insert s.tick { asid := asid, line := v / 128, data := data, pois := pois }

/-- The line of byte `i` of an access comes into the L2 of `die`, where the access misses the L1. -/
def State.bringByte (s : State) (core asid die : Nat) (thru : Bool) (a : Acc) (i : Nat) : State :=
  if !(thru || a.soAt i) && ((s.core core).l1Find asid ((a.addr + i) % 2 ^ 64 / 128)).isSome then s else s.l2Line die (a.bkey i)

def State.bringAcc (s : State) (core asid die : Nat) (thru : Bool) (a : Acc) (n : Nat) : State :=
  (s.bringByte core asid die thru a 0).bringByte core asid die thru a (n - 1)

/-! ## The window: its targets and its stores (R138 to R140) -/

/-- The warp of a context that stands in a warp slot. -/
def State.blockAt (s : State) (ctx core slice slot : Nat) : Option (Block × Nat) :=
  ((s.onCore core).map s.nowOf).findSome? fun b =>
    if b.mv = .resident ∧ b.ctx = ctx then
      ((List.range b.warps.length).find? fun i => (b.warp i).slice == slice && (b.warp i).slot == slot).map fun i => (b, i)
    else none

/-- A byte of a register file word replaced. -/
def putByte (v : Nat) (i : Nat) (b : Byte) : Word := BitVec.ofNat 32 (v - nbits v (8 * i + 7) (8 * i) * 2 ^ (8 * i) + b.toNat * 2 ^ (8 * i))

/-- The block of a context that holds a tile of a core. -/
def State.accBlock (s : State) (ctx core tile : Nat) : Option Block :=
  ((s.onCore core).map s.nowOf).find? fun b => b.mv == .resident && b.ctx == ctx && b.tiles.contains tile

/-- The block of a context whose allocation holds a physical scratchpad byte of a core. -/
def State.spadBlock (s : State) (ctx core off : Nat) : Option Block :=
  ((s.onCore core).map s.nowOf).find? fun b => b.mv == .resident && b.ctx == ctx && decide (b.spBase ≤ off ∧ off < b.spBase + b.spSize)

def Block.tileIx (b : Block) (tile : Nat) : Nat := b.tiles.idxOf tile

/-- The tile of its block that a command uses. -/
def CmdKind.tile? : CmdKind → Option Nat
  | .mma _ _ _ ctl _ => some (nbits ctl.toNat 3 0)
  | .mmab _ _ _ ctl => some (nbits ctl.toNat 3 0)
  | .mmv _ _ _ ctl _ => some (nbits ctl.toNat 3 0)
  | .drain _ t _ => some t
  | .azero t => some t
  | _ => none

/-- A matrix command or DRAIN that is not complete uses the tile (R140), from its issue on (log 127). To the command `own` of a core, by its
place in the issue order, those of that core that come after it do not (R169). -/
def Block.tileBusy (b : Block) (own : Option (Nat × Nat)) (t : Nat) : Bool :=
  b.ecs.any fun g => g.cmds.any fun c => !c.finished && c.kind.tile? == some t && decide (c.kind ≠ .azero t)
    && !own.any fun o => decide (o.1 = b.core ∧ o.2 < c.seq)

/-- The shadows of a range set to none (R382). -/
def Block.raceClear (b : Block) (off n : Nat) : Block :=
  { b with race := teraseAll b.race fun k => decide (off / 4 ≤ k ∧ 4 * k < off + n) }

/-- A scratchpad byte; a free one where nothing has been written (R120). -/
def Block.spadByte (b : Block) (tick i : Nat) : Byte := (tget b.spad i).getD (Config.freeByte tick (b.key * 2 ^ 20 + i))

/-- Bytes written to scratchpad as one write: a word wholly written loses its poison (R371). -/
def Block.spadWrite (b : Block) (bs : List (Nat × Byte)) : Block :=
  { b with spad := bs.foldl (fun m e => tset m e.1 e.2) b.spad,
           spadPois := b.spadPois.filter fun k => !((List.range 4).all fun i => bs.any fun e => e.1 == 4 * k + i) }

/-- The bytes of HEAD and of the slot words of a ring (R265). -/
def Block.ringBytes (b : Block) (off : Nat) : List Nat :=
  let ns := ((tget b.spad off).getD 15).toNat % 16
  (List.range 4).map (off + 8 + ·) ++ (List.range (4 * (ns + 1))).map (off + 64 + ·)

/-- A ring on which a ring form has run, and of which a slot is not free, is in use (log 97). -/
def Block.ringBusy (b : Block) (off : Nat) : Bool :=
  (List.range 16).any fun k => (b.ringBytes off).contains (off + 64 + 4 * k) && decide (((tget b.spad (off + 64 + 4 * k)).getD 0).toNat % 128 ≠ 0)

/-- A store to scratchpad: one that meets HEAD or a slot word of a ring in use leaves that ring's words undefined (R265). -/
def Block.spadStore (b : Block) (bs : List (Nat × Byte)) : Block :=
  (b.rings.filter fun off => b.ringBusy off && (b.ringBytes off).any fun i => bs.any fun e => e.1 == i).foldl
    (fun x off => { x with spad := (b.ringBytes off).foldl terase x.spad }) (b.spadWrite bs)

/-- A byte with its poison. -/
abbrev PByte := Byte × Bool

/-- Bytes that an engine or the window writes to a block's scratchpad: poison moves with them, and races are forgotten (R371, R382). -/
def Block.takeSpad (b : Block) (foreign : Bool) (bs : List (Nat × PByte)) : Block :=
  let ks := (bs.map (·.1 / 4)).eraseDups
  let b' := b.spadStore (bs.map fun e => (e.1, e.2.1))
  { b' with
    spadPois := ks.foldl (fun p k => if bs.any fun e => e.1 / 4 == k && e.2.2 then insertSorted k p else p) b'.spadPois,
    race := teraseAll b'.race ks.contains,
    spadForeign := b.spadForeign || foreign }

/-- The target of a window address whose fields are in range; the place die is already physical (R136, R138). -/
def winTgt (core a : Nat) : Option WinTgt :=
  let o := nbits a 26 0
  match nbits a 29 27 with
  | 0 => if o < 2 ^ 20 then some (.spad core o) else none
  | 1 => if o < 2 ^ 21 then some (.vreg core (nbits o 20 18) (nbits o 17 13) (nbits o 12 7) (nbits o 6 2) (nbits o 1 0)) else none
  | 2 => if o < 2 ^ 15 then some (.sreg core (nbits o 14 12) (nbits o 11 7) (nbits o 6 2) (nbits o 1 0)) else none
  | 3 => if o < 2 ^ 18 then some (.acc core (nbits o 17 14) (nbits o 13 8) (nbits o 7 2) (nbits o 1 0)) else none
  | _ => none

/-- The 4-byte word that a target lies in. -/
def WinTgt.word : WinTgt → WinTgt
  | .spad core off => .spad core (off / 4 * 4)
  | .vreg core slice slot reg lane _ => .vreg core slice slot reg lane 0
  | .sreg core slice slot reg _ => .sreg core slice slot reg 0
  | .acc core tile row col _ => .acc core tile row col 0

/-- The target is a resource of the block. -/
def Block.holdsTgt (b : Block) (t : WinTgt) : Bool :=
  b.mv == .resident && match t with
  | .spad core off => decide (b.core = core ∧ b.spBase ≤ off ∧ off < b.spBase + b.spSize)
  | .vreg core slice slot _ _ _ => decide (b.core = core) && b.warps.any fun w => w.slice == slice && w.slot == slot
  | .sreg core slice slot _ _ => decide (b.core = core) && b.warps.any fun w => w.slice == slice && w.slot == slot
  | .acc core tile _ _ _ => decide (b.core = core) && b.tiles.contains tile

/-- A byte that the window writes to a register or an accumulator of the context. A tile in use is left undefined, and so is a register that
has a load outstanding (R140). -/
def State.winPut (s : State) (ctx : Nat) (own : Option (Nat × Nat)) (t : WinTgt) (b : Byte) (full pois : Bool) : State :=
  match t with
  | .spad _ _ => s
  | .vreg core slice slot reg lane byte => match s.blockAt ctx core slice slot with
    | some (k, i) => s.modNow k.key fun x => x.modWarp i fun w => { w with wstores := w.wstores ++
        [{ lane := lane, reg := reg, byte := byte, b := b, full := full, pois := pois, undef := w.loading lane reg }] }
    | none => s
  | .sreg core slice slot reg byte => match s.blockAt ctx core slice slot with
    | some (k, i) => s.modNow k.key fun x => x.modWarp i fun w =>
        { w with wstores := w.wstores ++ [{ lane := 32, reg := reg, byte := byte, b := b, full := full, pois := pois }] }
    | none => s
  | .acc core tile row col byte => match s.accBlock ctx core tile with
    | some k =>
      let e := k.tileIx tile * 4096 + row * 64 + col
      if k.tileBusy own (k.tileIx tile) then s.modNow k.key fun x => { x with acc := teraseAll x.acc fun j => j / 4096 == k.tileIx tile }
      else s.modNow k.key fun x =>
        { x with acc := tset x.acc e (putByte ((tget x.acc e).getD (Config.freeWord s.tick e)).toNat byte b),
                 accPois := if pois then insertSorted e x.accPois else if full then x.accPois.filter (· ≠ e) else x.accPois }
    | none => s

/-- The scratchpad bytes of a window store, block by block. -/
def State.winSpad (s : State) (ctx : Nat) (writer : Option Nat) (bs : List (WinTgt × PByte)) : State :=
  s.blocks.foldl (fun s k =>
    if k.ctx ≠ ctx then s
    else
      let mine := bs.filterMap fun e => match e.1 with
        | .spad _ off => if k.holdsTgt e.1 then some (off - k.spBase, e.2) else none
        | _ => none
      if mine.isEmpty then s
      else if writer = some k.key then s.modBlock k.key fun x => x.takeSpad false mine
      else s.modNow k.key fun x => x.takeSpad true mine) s

/-- The bytes that one instruction or one engine iteration writes through the window, each with its poison; a word that they write wholly
loses its own (R371). They reach no other context's resource (R139). `writer` is the block of an instruction, none for an engine, whose command
`own` is (`Block.tileBusy`). -/
def State.winStore (s : State) (ctx : Nat) (own : Option (Nat × Nat)) (writer : Option Nat) (bs : List (WinTgt × PByte)) : State :=
  bs.foldl (fun s e =>
    let full := decide (4 ≤ ((bs.filter fun x => x.1.word == e.1.word).map (·.1)).eraseDups.length)
    let pois := bs.any fun x => x.1.word == e.1.word && x.2.2
    s.winPut ctx own e.1 e.2.1 full pois) (s.winSpad ctx writer bs)

/-! ## Performing -/

/-- A window byte read now, a register's at its warp's last clause boundary (R222), with the code of its poison there (R372); none where the context
holds no such resource. -/
def State.winGet (s : State) (ctx : Nat) (own : Option (Nat × Nat)) (t : WinTgt) : Option (Byte × Option Nat) :=
  match t with
  | .spad core off => (s.spadBlock ctx core off).map fun k =>
      ((tget k.spad (off - k.spBase)).getD (Config.freeByte s.tick off),
       if k.spadPois.contains ((off - k.spBase) / 4) then some 2 else none)
  | .vreg core slice slot reg lane byte => (s.blockAt ctx core slice slot).map fun (k, i) =>
      let w := k.warp i
      let x := w.lane lane
      let here := match w.flight with | some f => tget (f.boundV.getD lane []) reg | none => tget x.v reg
      let v := if w.busyV lane reg then Config.freeWord s.tick (placeKey k.key i lane reg)
               else here.getD (Config.freeWord s.tick (placeKey k.key i lane reg))
      let ps := match w.flight with | some f => f.boundVPois.getD lane [] | none => x.vPois
      (BitVec.ofNat 8 (v.toNat / 2 ^ (8 * byte)), if ps.contains reg then some 3 else none)
  | .sreg core slice slot reg byte => (s.blockAt ctx core slice slot).map fun (k, i) =>
      let w := k.warp i
      let here := match w.flight with | some f => tget f.boundS reg | none => tget w.s reg
      let ps := match w.flight with | some f => f.boundSPois | none => w.sPois
      (BitVec.ofNat 8 ((here.getD (Config.freeWord s.tick (placeKey k.key i 32 reg))).toNat / 2 ^ (8 * byte)),
       if ps.contains reg then some 3 else none)
  | .acc core tile row col byte => (s.accBlock ctx core tile).map fun k =>
      let e := k.tileIx tile * 4096 + row * 64 + col
      let v := if k.tileBusy own (k.tileIx tile) then Config.freeWord s.tick e else (tget k.acc e).getD (Config.freeWord s.tick e)
      (BitVec.ofNat 8 (v.toNat / 2 ^ (8 * byte)), if k.accPois.contains e then some 4 else none)

def State.modLoad (s : State) (bk wi key : Nat) (f : PLoad → PLoad) : State :=
  s.modWarp bk wi fun w => { w with loads := modWhere (fun x => decide (x.key = key)) f w.loads }

/-- An outstanding store that overlaps an access under the same address. -/
def PStore.overlaps (st : PStore) (addr n : Nat) : Bool :=
  st.form == .st && st.bytes.any fun x => decide (addr ≤ x.va ∧ x.va < addr + n)

/-- The bytes of a store of a block reach their home (R157), or the target of the window. -/
def State.landStore (s : State) (b : Block) (st : PStore) : State :=
  match st.form with
  | .st =>
    let s := s.l2Write b.die (st.bytes.map fun x => (x.key, x.b, x.pois))
    s.foreignStore (s.ownCopy b) (st.bytes.map (·.key))
  | .stw => s.winStore b.ctx none (some b.key) (st.bytes.filterMap fun x => (winTgt x.key x.va).map fun t => (t, x.b, x.pois))
  | .atom => s

def State.takeStore (s : State) (bk wi key : Nat) : State :=
  s.modWarp bk wi fun w => { w with stores := w.stores.filter fun x => decide (x.key ≠ key) }

/-- Both stores write one byte: of global memory, or of a core's resources through the window. -/
def PStore.meets (a b : PStore) : Bool :=
  a.form == b.form && a.bytes.any fun x => b.bytes.any fun y => x.key == y.key && (a.form != .stw || x.va % 2 ^ 30 == y.va % 2 ^ 30)

/-- An outstanding store with its block and warp. -/
abbrev Issued := Block × Nat × PStore

/-- A list by descending key, with one more entry. -/
def insertNewest (x : Issued) : List Issued → List Issued
  | [] => [x]
  | y :: ys => if y.2.2.key < x.2.2.key then x :: y :: ys else y :: insertNewest x ys

/-- The outstanding stores of a core's warps before `st`, the newest first. -/
def State.olderStores (s : State) (core : Nat) (st : PStore) : List Issued :=
  let all := (s.onCore core).flatMap fun b => (mapFrom 0 (fun i (w : Warp) => w.stores.map fun o => (b, i, o)) b.warps).flatten
  (all.filter fun o => decide (o.2.2.key < st.key)).foldl (fun l o => insertNewest o l) []

/-- Of older stores, the newest first, those that must land before one of `done`: they write a byte of it, or of a store that must. -/
def landBefore (done : List Issued) : List Issued → List Issued
  | [] => done
  | o :: os => if done.any fun d => o.2.2.meets d.2.2 then landBefore (o :: done) os else landBefore done os

/-- One store of a warp lands, after the core's older stores of its bytes: a core's stores of one byte are performed in the order in which
its L1 took them (R148, R149, R152). -/
def State.landTo (s : State) (bk wi : Nat) (st : PStore) : State :=
  match s.block? bk with
  | none => s
  | some b => (landBefore [(b, wi, st)] (s.olderStores b.core st)).foldl (fun s o => (s.takeStore o.1.key o.2.1 o.2.2.key).landStore o.1 o.2.2) s

/-- The stores of the core's warps that `p` picks (block, warp, store) land, oldest first. -/
def State.landWhere (s : State) (core : Nat) (p : Block → Nat → PStore → Bool) : State :=
  (s.onCore core).foldl (fun s b =>
    forN b.warps.length (fun i s => (b.warp i).stores.foldl (fun s st =>
      if p b i st && (s.warp b.key i).stores.any (fun x => x.key == st.key) then s.landTo b.key i st else s) s) s) s

/-- The core's outstanding stores that overlap an atomic's word are performed before it (R149). -/
def State.flushOverlap (s : State) (core asid addr n : Nat) : State :=
  s.landWhere core fun b _ st => decide ((s.ctx b.ctx).asid = asid) && st.overlaps addr n

/-- Before an access reads through the L2, the thread's own stores to its bytes, and those that its warp has seen, land (R149, R158). -/
def State.landFor (s : State) (core asid bk wi : Nat) (a : Acc) (n : Nat) : State :=
  s.landWhere core fun b i st => decide ((s.ctx b.ctx).asid = asid) && st.overlaps a.addr n
    && (st.seen.contains (bk, wi) || (b.key == bk && i == wi && st.bytes.any fun x => x.lane == a.lane))

/-- A warp has been given bytes of the outstanding stores that its access meets. -/
def State.markSeen (s : State) (core asid bk wi : Nat) (as : List Acc) (n : Nat) : State :=
  { s with blocks := s.blocks.map fun b =>
      if b.core = core ∧ (s.ctx b.ctx).asid = asid ∧ b.warps.any (fun w => !w.stores.isEmpty) then
        b.mapWarps fun i w => if w.stores.isEmpty || (b.key == bk && i == wi) then w else
          { w with stores := w.stores.map fun st =>
              if as.any (fun a => !a.zero && st.overlaps a.addr n) && !st.seen.contains (bk, wi) then { st with seen := st.seen ++ [(bk, wi)] } else st }
      else b }

/-- One atomic at the L2 of its line's home die (R127, R223, R224): the old bytes. A host or peer line is given up first. -/
def State.atomStep (s : State) (core asid : Nat) (aop : BitVec 5) (n : Nat) (a : Acc) : State × List Byte :=
  let key := a.bkey 0
  let s := (s.flushOverlap core asid a.addr n).dropL1 core fun x => x.asid == asid && x.line == a.addr / 128
  let s := if isOutside key then s.dropHLines fun h => h.line == key / 128 else s.l2Line (keyDie key) key
  let old := s.l2Bytes (keyDie key) key n
  let new := leBytes n (atomNew aop.toNat (8 * n) (leNat old) (a.opnd.toNat % 2 ^ (8 * n)) (a.swap.toNat % 2 ^ (8 * n)))
  if isOutside key then ((if s.lost key then s else s.putHome key new), old)
  else (s.l2WriteN (keyDie key) key new, old)

/-- Performs an outstanding operation: its values, or the poison that it met (R372), in which case an atomic writes
nothing (R371). A helper lane's poisoned bytes are zero. -/
def State.performOne (s : State) (bk wi : Nat) (ld : PLoad) : State :=
  match s.block? bk with
  | none => s
  | some b =>
    let asid := (s.ctx b.ctx).asid
    let die := b.die
    match ld.form with
    | .lds => s
    | .atoms _ => s
    | .ldw =>
      let got := ld.accs.map fun a => (a.lane, (List.range ld.size).map fun i =>
        if a.zero then ((0 : Byte), (none : Option Nat)) else match (winTgt a.key (a.addr + i)).bind (s.winGet b.ctx none) with
        | some v => v
        | none => (Config.freeByte s.tick (a.lane * 16 + i), none))
      let pois := got.findSome? fun g => if ((b.warp wi).lane g.1).isHelper then none
        else (firstIdx g.2.length fun i => (g.2[i]?).any (·.2.isSome)).map fun i =>
          (((g.2[i]?).bind (·.2)).getD 0, (((ld.accs.find? (·.lane == g.1)).map (·.addr)).getD 0 + i) / 4 * 4)
      s.modLoad bk wi ld.key fun x => { x with
        vals := some (got.map fun g => (g.1, g.2.map fun v => if v.2.isSome then 0 else v.1)), pois := pois }
    | .ld =>
      let s := ld.accs.foldl (fun s a => if a.zero || !(ld.thru || a.so || a.so2) then s else s.landFor b.core asid bk wi a ld.size) s
      let s := ld.accs.foldl (fun s a => if a.zero then s else s.bringAcc b.core asid die ld.thru a ld.size) s
      let got := ld.accs.map fun a =>
        if a.zero then (a, List.replicate ld.size ((0 : Byte), (none : Option (Nat × Nat)))) else (a, s.loadBytes b.core asid die ld.thru a ld.size)
      let pois := got.findSome? fun g => if ((b.warp wi).lane g.1.lane).isHelper then none else g.2.findSome? (·.2)
      let s := if ld.alloc && !ld.thru then got.foldl (fun s g =>
          if g.1.zero then s
          else
            let s := if g.1.so then s else s.fillLine b.core asid die g.1 0
            if g.1.soAt (ld.size - 1) then s else s.fillLine b.core asid die g.1 (ld.size - 1)) s else s
      (s.markSeen b.core asid bk wi ld.accs ld.size).modLoad bk wi ld.key fun x => { x with
        vals := some (got.map fun g => (g.1.lane, g.2.map fun v => if v.2.isSome then 0 else v.1)), pois := pois }
    | .atom aop =>
      let pois := ld.accs.findSome? fun a => (List.range ld.size).findSome? fun i =>
        if s.cohPois (a.bkey i) then some (a.poisAt s.tick i) else none
      if pois.isSome then s.modLoad bk wi ld.key fun x => { x with vals := some [], pois := pois }
      else
        let (s, vs) := ld.accs.foldl (fun (p : State × List (Nat × List Byte)) a =>
          let (s, old) := p.1.atomStep b.core asid aop ld.size a
          (s, p.2 ++ [(a.lane, old)])) (s, [])
        let s := s.foreignStore (s.ownCopy b) (ld.accs.flatMap fun a => (List.range ld.size).map a.bkey)
        s.modLoad bk wi ld.key fun x => { x with vals := some vs, pois := none }

/-- Two accesses of one lane meet. -/
def accsMeet (as : List Acc) (n : Nat) (bs : List Acc) (m : Nat) : Bool :=
  as.any fun a => bs.any fun b => a.lane == b.lane && decide (a.addr < b.addr + m ∧ b.addr < a.addr + n)

/-- Performs an operation. A re-execution performs none: it takes its value from the log, where there is one (R311). -/
def State.performLogged (s : State) (bk wi : Nat) (ld : PLoad) : State :=
  match s.loggedLate bk fun e => match e with | .load w n _ => w == wi && n == ld.cnt | _ => false with
  | some (.load _ _ vs, s) => s.modLoad bk wi ld.key fun x => { x with vals := some vs, pois := none }
  | _ => if s.replaying bk then s else s.performOne bk wi ld

/-- Performs every unperformed operation of a warp up to `key`, oldest first; but not one for whose poison the warp is held. -/
def State.performTo (s : State) (bk wi key : Nat) : State :=
  (s.warp bk wi).loads.foldl (fun s ld => if ld.key ≤ key && ld.vals.isNone && !ld.held then s.performLogged bk wi ld else s) s

/-- Performs one operation; where an older one of the same lane meets it, every older one goes first (R149). -/
def State.perform (s : State) (bk wi key : Nat) : State :=
  match (s.warp bk wi).loads.find? fun x => decide (x.key = key) with
  | none => s
  | some ld =>
    if ld.vals.isSome || ld.held then s
    else if (s.warp bk wi).loads.any fun o => decide (o.key < key) && o.vals.isNone && accsMeet o.accs o.size ld.accs ld.size
    then s.performTo bk wi key
    else s.performLogged bk wi ld

/-- Acknowledges one store of a warp (R157): the thread's older loads and the core's older stores of its bytes are performed first (R149).
An atomic that has met poison is not performed, and stays (R371, R372). -/
def State.ackStore (s : State) (bk wi key : Nat) : State :=
  match (s.warp bk wi).stores.find? fun x => decide (x.key = key), s.block? bk with
  | some st, some _ =>
    let s := (s.warp bk wi).loads.foldl (fun s ld =>
      if ld.key < key && ld.vals.isNone && st.bytes.any (fun x => ld.accs.any fun a =>
          a.lane == x.lane && decide (a.addr ≤ x.va ∧ x.va < a.addr + ld.size)) then s.performTo bk wi ld.key else s) s
    match st.form with
    | .atom =>
      let s := s.perform bk wi key
      if (s.warp bk wi).loads.any fun x => x.key == key && (x.held || x.pois.isSome) then s else s.takeStore bk wi key
    | _ => s.landTo bk wi st
  | _, _ => s

/-- Waits for the release counter (R154): every store that it counts is acknowledged, oldest first. -/
def State.drain (s : State) (bk wi : Nat) : State :=
  ((s.warp bk wi).stores.filter fun x => !x.uo).foldl (fun s st => s.ackStore bk wi st.key) s

/-- Every store, those to UO pages too (R152). -/
def State.drainAll (s : State) (bk wi : Nat) : State :=
  (s.warp bk wi).stores.foldl (fun s st => s.ackStore bk wi st.key) s

def State.drainBlock (s : State) (bk : Nat) : State :=
  match s.block? bk with
  | some b => forN b.warps.length (fun i s => s.drain bk i) s
  | none => s

/-- The stores of other warps of the core that a warp has read land before its release, which passes them on (R147, R148). -/
def State.drainSeen (s : State) (bk wi : Nat) : State :=
  match s.block? bk with
  | some b => s.landWhere b.core fun _ _ st => !st.uo && st.seen.contains (bk, wi)
  | none => s

/-- A release by a warp (R150, R154, R163): its accesses are performed; at SYSTEM scope the die's host and peer lines are
written back. -/
def State.release (s : State) (bk wi scope : Nat) : State :=
  let s := s.performTo bk wi s.nextKey
  let s := (s.drain bk wi).drainSeen bk wi
  match s.block? bk with
  | some b => if scope = 5 then s.cleanHLines fun h => h.die == b.die else s
  | none => s

/-- An acquire by a warp (R158, R163): CELL scope or wider drops the core's whole L1; SYSTEM also the die's host and peer
lines. -/
def State.acquire (s : State) (bk scope : Nat) : State :=
  match s.block? bk with
  | none => s
  | some b =>
    let s := if 2 ≤ scope then s.dropL1 b.core fun _ => true else s
    if scope = 5 then s.dropHLines fun h => h.die == b.die else s

/-! ## A block that leaves its core (R139, R140, R161) -/

/-- Every access of the context through the window to a block that is about to leave is performed while the block stands there. -/
def State.windowSettle (s : State) (k : Block) : State :=
  s.blocks.foldl (fun s b =>
    if b.ctx ≠ k.ctx then s
    else forN b.warps.length (fun i s =>
      let w := b.warp i
      let s := w.loads.foldl (fun s ld =>
        if ld.form == .ldw && ld.vals.isNone && ld.accs.any (fun a => !a.zero && (winTgt a.key a.addr).any k.holdsTgt) then s.perform b.key i ld.key else s) s
      w.stores.foldl (fun s st =>
        if st.form == .stw && st.bytes.any (fun x => (winTgt x.key x.va).any k.holdsTgt) then s.ackStore b.key i st.key else s) s) s) s

/-- Everything that a block has issued is performed (R161). -/
def State.blockSettle (s : State) (bk : Nat) : State :=
  match s.block? bk with
  | some b => forN b.warps.length (fun i s => (s.performTo bk i s.nextKey).drain bk i) (s.windowSettle b)
  | none => s

/-! ## Soundings (R312, R313) -/

/-- The stops of a request by R301 and R312 (log 17), a bit for each: 0 L1, 1 L2, 2 crossbar, 3 die links, 4 Wellhead, 5 memory
controller, 6 HBM4E. `near` says that the L1 serves a load; for a window access `key` is the target's core. -/
def State.visit (s : State) (b : Block) (kind key : Nat) (near : Bool) : Nat :=
  if kind = 3 then
    if key / 48 ≠ b.die then 0x1C else if key = b.core then 0 else if Config.freeBool s.tick key then 4 else 0
  else if kind = 0 && near then 1
  else
    let x := s.dirOf (key / 128)
    let mine := x.sharers.getLsbD b.die
    let others := decide (x.sharers &&& ~~~dieBit b.die ≠ 0)
    if kind = 2 then (if isOutside key || x.sharers ≠ 0 then 0x1F else 0x7F)
    else if mine && (kind = 0 || !others) then 3
    else if isOutside key then 0x1F
    else if (if kind = 0 then x.dirty else others) then 0x1F
    else 0x7F

/-- A line request of an instruction: its virtual address, its lane, its storage address (the core for a window access), and whether the
L1 may serve it. -/
structure LineReq where
  addr : Nat
  lane : Nat
  key : Nat
  near : Bool

/-- A sampled request's 32-byte record: its address, the queueing times, the stops, kind, time, lane and warp. The times are free. -/
def soundRecord (tick wi kind visit : Nat) (r : LineReq) : List Byte :=
  let q j := if visit / 2 ^ j % 2 = 1 then min (Config.sounding tick j) 0xFFFF else 0
  leBytes 8 r.addr ++ leBytes 2 (q 0) ++ leBytes 2 (q 1) ++ leBytes 2 (q 2) ++ leBytes 2 (q 3)
    ++ leBytes 2 (q 4) ++ leBytes 2 (q 5) ++ leBytes 2 (q 6) ++ leBytes 1 visit ++ leBytes 1 kind
    ++ leBytes 4 (min (Config.sounding tick 8) 0xFFFFFFFF) ++ leBytes 4 (wi + 32 * r.lane)

/-- A record is written into its warp's ring at `base`, and WR advances. -/
def State.soundInto (s : State) (b : Block) (base : Nat) (rec0 : List Byte) : State :=
  match s.devRead b.ctx b.die base 8 with
  | (s, .error _) => s
  | (s, .ok wr) =>
    match s.devWrite b.ctx b.die (base + 32 + 32 * (leNat wr % 63)) rec0 with
    | (s, some _) => s
    | (s, none) => (s.devWrite b.ctx b.die base (leBytes 8 (leNat wr + 1))).1

/-- One line request counted, and sampled where its turn has come; with the settings of its block's last clause boundary (R306). -/
def State.soundOne (s : State) (b : Block) (wi kind : Nat) (r : LineReq) : State :=
  let k := if b.dbg.sndk.toNat < 4 then 4 else if 24 < b.dbg.sndk.toNat then 24 else b.dbg.sndk.toNat
  let n := (s.core b.core).sounding + 1
  let s := s.modCore b.core fun x => { x with sounding := n }
  if b.dbg.sndk = 0 ∨ n % 2 ^ k ≠ 0 then s
  else
    let near := r.near && ((s.core b.core).l1Find (s.ctx b.ctx).asid (r.addr / 128)).isSome
    s.soundInto b (b.dbg.sndbase.toNat + 2048 * (32 * (b.blockId.toNat % 256) + wi))
      (soundRecord s.tick wi kind (s.visit b kind r.key near) r)

/-- Every 2^SNDK-th line request of a core's warps is sampled (R312); a replay engine's are not. -/
def State.sound (s : State) (b : Block) (wi : Nat) (reqs : List LineReq) (kind : Nat) : State :=
  if b.replay.isSome then s else reqs.foldl (fun s r => s.soundOne b wi kind r) s

end Sys2Proof.Machine
end

