-- ==== Sys2Proof/Machine/Ops.lean ====
section
/-! DEFINITION. The shared operations: barriers and their releases (R45, R48, R49, R54), taking a trap as one operation
(R340 to R342, R347, R294) and the return from one (R343, R241), exits (R231), gangs (R352), reports (R369). -/

namespace Sys2Proof.Machine

/-! ## Signals and the sediment log -/

/-- An entry of the sediment log (R384), with WALL at the event. -/
def State.sediment (s : State) (ctx : Option Nat) (src event : Nat) (detail : BitVec 448) : State :=
  s.modWh fun w => { w with sediment := w.sediment ++
    [{ wall := BitVec.ofNat 64 s.wall, ctx := match ctx with | some c => BitVec.ofNat 16 c | none => 0xFFFF,
       src := BitVec.ofNat 16 src, event := BitVec.ofNat 16 event, detail := detail }] }

/-- An MSI-X signal (R324). -/
def State.signal (s : State) (fn vector : Nat) : State :=
  s.modWh fun w => { w with msix := w.msix ++ [{ fn := fn, vector := vector }] }

/-- A trap joins the context's pending traps (R345). -/
def State.pend (s : State) (c : Nat) (t : Trap) : State :=
  (s.modCtx c fun x => { x with traps := x.traps ++ [{ t with id := s.nextKey }] }).bump

/-! ## Fragments (R51 to R54) -/

/-- The threads of a numbered fragment that have not exited. -/
def Warp.fragMask (w : Warp) (f : Nat) : Mask := w.maskWhere fun x => x.isReal && !x.isExited && x.frag == f

def Core.frag? (k : Core) (bk wi f : Nat) : Option (Nat × Frag) :=
  k.frags.find? fun e => e.2.block == bk && e.2.warp == wi && e.2.fnum == f

def State.freeFrags (s : State) (core : Nat) (p : Frag → Bool) : State :=
  s.modCore core fun k => { k with frags := k.frags.filter fun e => !p e.2 }

/-- Entries of a warp that no thread is left in are freed (R340). -/
def State.freeEmpty (s : State) (core bk wi : Nat) : State :=
  let w := s.warp bk wi
  s.freeFrags core fun e => e.block == bk && e.warp == wi && (w.fragMask e.fnum).none

/-- A fragment's next trace packet is a SYNC (R315). -/
def State.unsync (s : State) (c bk wi f : Nat) : State :=
  s.modCtx c fun x => { x with trace := { x.trace with synced := x.trace.synced.filter fun t => t ≠ (bk, wi, f) } }

/-- R54: fragments whose threads all stand in a released MASK belong to fragment 0 again; their next trace packet is a
SYNC (R315). -/
def State.rejoin (s : State) (core bk wi : Nat) (mask : Mask) : State :=
  let w := s.warp bk wi
  let fs := [1, 2, 3, 4, 5, 6, 7].filter fun f =>
    ((s.core core).frag? bk wi f).isSome && !(w.fragMask f).none && (w.fragMask f &&& ~~~mask).none
  if fs.isEmpty then s
  else
    let s := s.modWarp bk wi fun w => { w with lanes := w.lanes.map fun x => if fs.contains x.frag then { x with frag := 0 } else x }
    let s := match s.block? bk with
      | some b => s.unsync b.ctx bk wi 0
      | none => s
    s.freeFrags core fun e => e.block == bk && e.warp == wi && fs.contains e.fnum

/-! ## Barriers -/

def Lane.setPair (x : Lane) (p : Nat) (a b : Bool) : Lane := { x with p := tset (tset x.p p a) (p + 1) b }

/-- The waiters of a timed BWAIT on Bn in a mask have their pair written (R46). -/
def State.timedPair (s : State) (bk wi n : Nat) (m : Mask) (full : Bool) : State :=
  s.modMask bk wi m fun _ x => match x.st with
    | .waiting (.bwaitTimed k pp _) => if k = n then x.setPair pp (!full) full else x
    | _ => x

def Lane.waitsOnB (x : Lane) (n : Nat) : Bool :=
  match x.st with
  | .waiting (.bwait k) => k == n
  | .waiting (.bwaitTimed k _ _) => k == n
  | _ => false

/-- R45's test on every change: when Bn is done, its arrived threads are released and ARR is cleared. This is the release at which fragments
rejoin (R54); one by expiry or by BSET is not (log 112). -/
def State.settleB (s : State) (core bk wi n : Nat) : State :=
  let w := s.warp bk wi
  let br := tgetD w.bars n {}
  if br.arr.none || !(br.mask &&& ~~~(br.arr ||| w.exitedMask)).none then s
  else
    let m := w.withHelpers br.arr
    let s := s.timedPair bk wi n m true
    let s := s.modMask bk wi m fun _ x => if x.waitsOnB n then x.release else x
    let s := s.modWarp bk wi fun w => { w with bars := tset w.bars n { br with arr := 0 } }
    s.rejoin core bk wi br.mask

/-- R48: a warp has arrived when each of its threads that has not exited has. -/
def Warp.arrived (w : Warp) (arr : Mask) : Bool := (w.liveReal &&& ~~~arr).none

def BBar.has (x : BBar) : Bool := x.arr.any fun m => !m.none

def Block.allArrived (b : Block) (x : BBar) : Bool :=
  (List.range b.warps.length).all fun i => (b.warp i).arrived (x.arr.getD i 0)

def Block.releaseAll (b : Block) (p : Wait → Bool) : Block :=
  b.mapWarps fun _ w => { w with lanes := w.lanes.map fun x => match x.st with
    | .waiting t => if p t then x.release else x
    | _ => x }

/-- Completion of block barrier `i` (R48). -/
def State.settleBar (s : State) (bk i : Nat) : State :=
  match s.block? bk with
  | none => s
  | some b =>
    let x := tgetD b.bars i {}
    if x.has && b.allArrived x then
      let n : BBar := { arr := [], gen := x.gen + 1 }
      s.modBlock bk fun b => { (b.releaseAll fun t => t == .bar i) with bars := tset b.bars i n, epoch := (b.epoch + 1) % 256 }
    else s

/-- The blocks that count at a cluster barrier: a block alone counts for itself (R233). -/
def State.clusterOf (s : State) (b : Block) : List Block :=
  match b.cluster with
  | none => [b]
  | some k => s.blocks.filter fun x => x.cluster == some k

def Block.completeCbar (j : Nat) (x : Block) : Block :=
  let n : BBar := { arr := [], gen := (tgetD x.cbars j {}).gen + 1 }
  { (x.releaseAll fun t => t == .cbar j) with cbars := tset x.cbars j n, epoch := (x.epoch + 1) % 256 }

/-- Completion of cluster barrier `j` (R49), an acquire at CELL scope for those it releases (R155, R158); not while the debugger shows a block of the
cluster in its past (log 37). -/
def State.settleCbar (s : State) (bk j : Nat) : State :=
  match s.block? bk with
  | none => s
  | some b =>
    let bs := s.clusterOf b
    if (bs.any fun x => (tgetD x.cbars j {}).has) && bs.all fun x => x.allArrived (tgetD x.cbars j {}) && !s.replaying x.key then
      bs.foldl (fun s y => ((s.modBlock y.key (Block.completeCbar j)).dropL1 y.core fun _ => true).log y.key (.cbar j)) s
    else s

def State.syncHelpers (s : State) (bk : Nat) : State := s.modBlock bk fun b => b.mapWarps fun _ w => w.syncHelpers

/-- Every barrier of a block tested again (R45, R48, R49), helper lanes beside their leaders (R39). -/
def State.settle (s : State) (bk : Nat) : State :=
  match s.block? bk with
  | none => s
  | some b =>
    let s := s.syncHelpers bk
    let s := forN b.warps.length (fun i s => forN 16 (fun n s => s.settleB b.core bk i n) s) s
    let s := forN 16 (fun i s => s.settleBar bk i) s
    let s := forN 8 (fun j s => s.settleCbar bk j) s
    s.syncHelpers bk

/-! ## Taking a trap -/

/-- What a trap tells: cause and kind of R339, CODE, WORD, and per lane its cause and value (R344); and of the fragment that parks, what
`Frag` holds under these names. -/
structure TrapIn where
  cause : Nat
  kind : Nat := 0
  code : Nat := 0
  word : Nat := 0
  lcause : Tab Nat := []
  lval : Tab DWord := []
  dbg : Bool := false
  noSkip : Bool := false
  setPc : Bool := false
  atWord : Bool := false

/-- F is a whole resumed fragment, which parks again in place (R340 step 1). -/
def State.inPlace (s : State) (core bk wi : Nat) (m : Mask) : Option (Nat × Frag) :=
  let w := s.warp bk wi
  ((s.core core).frags).find? fun e => e.2.block == bk && e.2.warp == wi && e.2.state == 2 && w.fragMask e.2.fnum == m

def State.freeNumber (s : State) (core bk wi : Nat) : Option Nat :=
  [1, 2, 3, 4, 5, 6, 7].find? fun f => ((s.core core).frag? bk wi f).isNone

/-- The free entries of a core's fragment table; those of a block that is shown in its past stay its own. -/
def State.freeEntries (s : State) (core : Nat) : List Nat :=
  let kept := s.recordings.flatMap fun r => match r.present with
    | some p => if p.core = core then p.frags.map (·.1) else []
    | none => []
  (List.range 64).filter fun e => (tget (s.core core).frags e).isNone && !kept.contains e

def State.freeEntry (s : State) (core : Nat) : Option Nat := (s.freeEntries core).head?

/-- A fragment of these threads finds a number and an entry (R53). -/
def State.hasRoom (s : State) (b : Block) (wi : Nat) (m : Mask) : Bool :=
  (s.inPlace b.core b.key wi m).isSome || ((s.freeNumber b.core b.key wi).isSome && (s.freeEntry b.core).isSome)

/-- A trap of these threads splits them off where it parks any (R53, R294, R347). -/
def State.canPark (s : State) (bk wi : Nat) (m : Mask) : Bool :=
  match s.block? bk with
  | none => true
  | some b => b.handler.isSome || b.replay.isSome || s.hasRoom b wi m

/-- A lane that stands with a fragment. -/
def Lane.seat (x : Lane) (f : Frag) : Lane :=
  { x with st := if f.state = 1 then .parked else .runnable, stamp := if f.state = 1 then x.stamp else none,
           frag := f.fnum, pc := f.pc, widx := f.widx, waitClk := 0, waitWall := 0, step := false }

/-- The threads of `m` stand with a fragment, parked or resumed, whose entry is `e`. -/
def State.seat (s : State) (b : Block) (wi : Nat) (m : Mask) (e : Nat) (f : Frag) : State :=
  let s := (s.modMask b.key wi m fun _ x => x.seat f).modFlight b.key wi fun fl => { fl with act := fl.act &&& ~~~m }
  ((s.modCore b.core fun k => { k with frags := tset k.frags e f }).freeEmpty b.core b.key wi).syncHelpers b.key

/-- The threads of `m` park at a precise point (R340): the fragment's number and entry; none is fragment exhaustion. -/
def State.park (s : State) (b : Block) (wi : Nat) (m : Mask) (pc : DWord) (widx : Nat) (t : TrapIn) : Option (State × Nat × Nat) :=
  let go (s : State) (e f : Nat) : State × Nat × Nat :=
    let x : Frag := { block := b.key, warp := wi, fnum := f, pc := pc, widx := widx, cause := t.cause, dbg := t.dbg, noSkip := t.noSkip,
                      setPc := t.setPc, atWord := t.atWord }
    ((((s.seat b wi m e x).unsync b.ctx b.key wi f).log b.key (.frag wi false m x)), f, e)
  match s.inPlace b.core b.key wi m with
  | some (e, x) => some (go s e x.fnum)
  | none => match s.freeNumber b.core b.key wi, s.freeEntry b.core with
    | some f, some e => some (go s e f)
    | _, _ => none

/-- A fragment handle (R242). -/
def handleOf (lslot entry : Nat) : Word := BitVec.ofNat 32 (lslot * 65536 + entry)

/-- The clause of a warp ends at a word, which the threads of `act` execute again, those too that had begun to wait at it. -/
def Warp.cutAt (w : Warp) (act : Mask) (pc : DWord) (widx : Nat) : Warp :=
  { (w.modMask act fun _ x => { (if x.isWaiting then x.retry else x) with pc := pc, widx := widx }) with
    flight := w.flight.filter fun f => (f.act &&& act).none }

/-- The whole warp becomes held at a word, none of whose effect has happened (R342, R372), until each trap that holds it is retired; a
re-execution takes the holds from its log. -/
def State.hold (s : State) (b : Block) (wi : Nat) (act : Mask) (pc : DWord) (widx : Nat) (t : Trap) : State :=
  if s.replaying b.key then s
  else
    let at_ : Frag := { block := b.key, warp := wi, fnum := 0, pc := pc, widx := widx, cause := t.cause }
    let s := (s.modWarp b.key wi fun w => { w.cutAt act pc widx with held := w.held ++ [s.nextKey] }).log b.key (.frag wi true act at_)
    s.pend b.ctx { t with holds := some (b.key, wi) }

/-- The warp is held no more, nor any load of it for its poison. -/
def Warp.unheld (w : Warp) : Warp := { w with held := [], loads := w.loads.map fun ld => { ld with held := false } }

/-- One of the traps that hold the warp is retired. -/
def Warp.unhold (w : Warp) (id : Nat) : Warp :=
  if w.held.filter (· ≠ id) = [] then (if w.held = [] then w else w.unheld) else { w with held := w.held.filter (· ≠ id) }

/-- Fragment exhaustion (R342): the record names the lanes that would have split and the warp's fragments. -/
def State.exhaust (s : State) (b : Block) (wi : Nat) (m act : Mask) (pc : DWord) (widx : Nat) : State :=
  s.hold b wi act pc widx
    { id := 0, cause := 0x22, kind := 1, block := some b.key, blockId := b.blockId, pc := pc, lmask := m, warp := wi, widx := widx,
      lcause := m.list.map fun l => (l, 0x22),
      lval := [1, 2, 3, 4, 5, 6, 7].map fun f => (f - 1, match (s.core b.core).frag? b.key wi f with
        | some e => (handleOf b.lslot e.1).setWidth 64
        | none => 0xFFFFFFFF),
      cell := some (b.die, b.cell) }

def Trap.ofIn (b : Block) (wi : Nat) (m : Mask) (pc : DWord) (widx : Nat) (t : TrapIn) : Trap :=
  { id := 0, cause := t.cause, kind := t.kind, code := t.code, word := t.word, block := some b.key, blockId := b.blockId, pc := pc,
    lmask := m, warp := wi, widx := widx, lcause := t.lcause, lval := t.lval, cell := some (b.die, b.cell) }

/-- A trap in an ordinary block: the threads park and one record is to be written; a debugger stop writes none (R339). A re-execution takes its
fragments from its log (R311). -/
def State.trapPlain (s : State) (b : Block) (wi : Nat) (m act : Mask) (pc : DWord) (widx : Nat) (t : TrapIn) : State :=
  if s.replaying b.key then s
  else match s.park b wi m pc widx t with
  | none => s.exhaust b wi m act pc widx
  | some (s, f, e) =>
    if t.dbg then s else s.pend b.ctx { Trap.ofIn b wi m pc widx t with fnum := f, fhandle := handleOf b.lslot e }

/-! ## Gangs and exits -/

/-- Every member of a gang leaves it; members that wait in the latch take the gang mismatch with CODE 1, and the latch is
freed (R352 item 3). The whole GANG register is zeroed (log 113). -/
def State.dissolve (s : State) (b : Block) (latch : Nat) : State :=
  match tget (s.core b.core).latches latch with
  | none => s
  | some x =>
    let s := s.modBlock b.key fun y => y.mapWarps fun i w => if x.mask.has i then { w with gang := {} } else w
    let s := s.modCore b.core fun k => { k with latches := terase k.latches latch }
    x.arrivals.foldl (fun s a =>
      s.trapPlain b a.warp a.act a.act a.pc a.widx { cause := 0x21, kind := 1, code := 1, lcause := a.act.list.map fun l => (l, 0x21) }) s

/-- The latch of a formed gang that a warp belongs to. -/
def State.gangLatch (s : State) (b : Block) (wi : Nat) : Option Nat :=
  ((s.core b.core).latches.find? fun e => e.2.block == b.key && e.2.formed && e.2.mask.has wi).map (·.1)

/-- Threads exit (R231): fragments that they leave empty are freed; a warp that exits wholly loses its registration (R252)
and dissolves its gang (R352). -/
def State.exitThreads (s : State) (b : Block) (wi : Nat) (m : Mask) : State :=
  let s := s.modMask b.key wi m fun _ x => if x.isReal then { x with st := .exited, step := false } else x
  let s := s.modFlight b.key wi fun fl => { fl with act := fl.act &&& ~~~m }
  let s := (s.freeEmpty b.core b.key wi).syncHelpers b.key
  if (s.warp b.key wi).isLive then s
  else
    let s := s.modWarp b.key wi fun w => { w.unheld with live := none }
    match s.gangLatch b wi with
    | some k => s.dissolve b k
    | none => s

/-! ## Replayed objects: what traps need of them -/

def State.robj? (s : State) (c desc : Nat) : Option RObj := s.robjs.find? fun o => o.ctx == c && o.desc == desc
def State.modRobj (s : State) (c desc : Nat) (f : RObj → RObj) : State :=
  { s with robjs := modWhere (fun o => o.ctx == c && o.desc == desc) f s.robjs }

/-- The sequencer's copy of a field of the descriptor written to memory (R287): a fault there loses only that write. -/
def State.writeDesc (s : State) (c desc off n v : Nat) : State :=
  (s.devWrite c (s.wh.live.headD 0) ((desc + off) % 2 ^ 64) (leBytes n v)).1

/-- Healthy logical dies of an object (R298): live, not broken. A lost die is live until the next reset, and healthy until the sequencer
marks its copy broken (R376). -/
def State.healthy (s : State) (o : RObj) : List Nat := (List.range s.liveCount).filter fun d => !o.broken.getLsbD d

/-- TRIM is the smallest APPLIED of the healthy dies (R298). -/
def State.updateTrim (s : State) (c desc : Nat) : State :=
  match s.robj? c desc with
  | none => s
  | some o =>
    match (s.healthy o).map fun d => o.applied.getD d 0 with
    | [] => s
    | a :: as =>
      let t := as.foldl min a
      if t = o.trim then s else (s.modRobj c desc fun o => { o with trim := t }).writeDesc c desc 0x38 8 t

/-- BROKEN bit `d` set, and TRIM with it (R294, R290, R376). -/
def State.breakCopy (s : State) (c desc d : Nat) : State :=
  match s.robj? c desc with
  | none => s
  | some o =>
    let br := o.broken ||| (1#8 <<< d)
    ((s.modRobj c desc fun o => { o with broken := br }).writeDesc c desc 0x80 4 br.toNat).updateTrim c desc

/-- A report of a method fault or a failed log write (R369, cause 0x3A). -/
def State.report3A (s : State) (c desc pos code d : Nat) (lval0 : DWord) (lost : Bool) : State :=
  s.pend c { id := 0, cause := 0x3A, kind := 3, fhandle := 0, code := code, aux := BitVec.ofNat 64 desc, vec := BitVec.ofNat 64 pos,
             lval := [(0, lval0), (1, BitVec.ofNat 64 d), (2, if lost then 1 else 0)] }

/-- The method fault (R294): the copy is broken, the invocation ends, the report is pended. -/
def State.methodFault (s : State) (b : Block) (v : RInv) (code : Nat) (lval0 : DWord) : State :=
  let d := s.logicalDie v.die
  let s := (s.breakCopy b.ctx v.desc d).report3A b.ctx v.desc v.pos code d lval0 false
  { s with blocks := s.blocks.filter fun x => decide (x.key ≠ b.key), cur := if s.cur.map (·.1) = some b.key then none else s.cur }

/-- The ring of a context: how many records it holds. -/
def Ctx.ringLen (x : Ctx) : Nat := 2 ^ min (nbits x.trapq.toNat 3 0) 12

/-- Where a record lies. -/
def Ctx.recAddr (x : Ctx) (rid : Word) : Nat := x.trapq.toNat / 65536 * 65536 + 512 * (rid.toNat % x.ringLen)

/-- The die whose L2 the Wellhead's own writes pass through. -/
def State.anyDie (s : State) : Nat := s.wh.live.headD 0

/-- The first word of a record, which holds FAILED (R344). -/
def Rec.header (r : Rec) : Nat :=
  let t := r.trap
  let bit (b : Bool) : Nat := if b then 1 else 0
  t.word % 16 * 2 ^ 4 + t.code % 256 * 2 ^ 8 + bit t.nested * 2 ^ 20 + bit r.failed * 2 ^ 21 + t.kind % 4 * 2 ^ 22
    + t.cause % 256 * 2 ^ 24 + r.rid.toNat * 2 ^ 32

/-- A record is marked FAILED, in the ring too (R347). -/
def State.markFailed (s : State) (c rid : Nat) : State :=
  match (s.ctx c).recs.find? fun r => r.rid.toNat == rid with
  | none => s
  | some r =>
    let r' : Rec := { r with failed := true }
    let s := (s.devWrite c s.anyDie ((s.ctx c).recAddr r.rid) (leBytes 4 r'.header)).1
    s.modCtx c fun x => { x with recs := modWhere (fun y => y.rid == r.rid) (fun _ => r') x.recs }

/-- A handler block that takes a trap exits, its record is marked FAILED, and a NESTED record is to be written (R347). -/
def State.handlerFail (s : State) (b : Block) (rid : Nat) (t : Trap) : State :=
  let s := s.markFailed b.ctx rid
  let s := forN b.warps.length (fun i s => s.exitThreads b i 0xFFFFFFFF) s
  let s := s.pend b.ctx { t with nested := true }
  s.signal (s.ctx b.ctx).fn.toNat 0

/-- The same for a cause of its threads. -/
def State.handlerTrap (s : State) (b : Block) (rid wi : Nat) (m : Mask) (pc : DWord) (widx : Nat) (t : TrapIn) : State :=
  s.handlerFail b rid (Trap.ofIn b wi m pc widx t)

/-- TAKING A TRAP, the one operation of every lane-kind and warp-kind cause (R338 to R342): the threads of `m` stop at the
precise point `pc`, `widx`; `act` is ACT. In a handler block R347 acts, in a replay invocation R294. -/
def State.takeTrap (s : State) (bk wi : Nat) (m act : Mask) (pc : DWord) (widx : Nat) (t : TrapIn) : State :=
  match s.block? bk with
  | none => s
  | some b =>
    match b.replay with
    | some v => s.methodFault b v t.cause ((t.lval.head?.map (·.2)).getD 0)
    | none => match b.handler with
      | some rid => if t.dbg || s.replaying bk then s.trapPlain b wi m act pc widx t else s.handlerTrap b rid wi m pc widx t
      | none => s.trapPlain b wi m act pc widx t

/-- The threads of ACT that a warp-kind cause takes: every one but the helper lanes (R39, R341). -/
def Cx.takers (c : Cx) : Mask := c.fl.act &&& c.w.liveReal

/-- A lane-kind cause at the word in flight. -/
def State.laneTrap (s : State) (c : Cx) (m : Mask) (t : TrapIn) : State :=
  (s.takeTrap c.bk c.wi m c.fl.act c.fl.pc c.fl.idx t).settle c.bk

/-- A warp-kind cause at the word in flight (R341). -/
def State.warpTrap (s : State) (c : Cx) (cause code : Nat) : State :=
  s.laneTrap c c.takers { cause := cause, kind := 1, code := code, lcause := c.takers.list.map fun l => (l, cause) }

/-- The lanes of `fs` take their causes while the others perform the word; where the split is impossible nothing is
performed and the warp is held (R53). -/
def State.splitThen (s : State) (c : Cx) (fs : List (Nat × Nat × DWord)) (rest : State → State) : State :=
  if fs.isEmpty then rest s
  else
    let m := maskOf fun l => fs.any fun f => f.1 == l
    let t : TrapIn := { cause := (fs.head?.map (·.2.1)).getD 0, lcause := fs.map fun f => (f.1, f.2.1), lval := fs.map fun f => (f.1, f.2.2) }
    if s.canPark c.bk c.wi m then (rest s).laneTrap c m t else s.laneTrap c m t

/-- Beside the causes `fs` of a word, the debugger stops the threads of `stop` at it (R382): either every thread parks that must,
and the others perform the word, or none does (R53). -/
def State.splitStop (s : State) (c : Cx) (fs : List (Nat × Nat × DWord)) (stop : Mask) (rest : State → State) : State :=
  if stop.none then s.splitThen c fs rest
  else
    let m := maskOf fun l => fs.any fun f => f.1 == l
    let split (s : State) : State := s.splitThen c fs id
    if (m.none || s.canPark c.bk c.wi m) && (match (split s).block? c.bk with | some b => (split s).hasRoom b c.wi stop | none => true)
    then (split (rest s)).laneTrap c stop { cause := 0x09, dbg := true, atWord := true }
    else (s.exhaust c.b c.wi (m ||| stop) c.fl.act c.fl.pc c.fl.idx).settle c.bk

/-! ## Poison that a thread consumes (R372) -/

/-- A window address of a block's core as the agents of its die name it (R138): PDIE 0xF, the block's cell and logical core slot. -/
def Block.window (b : Block) (space off : Nat) : Nat :=
  15 * 2 ^ 36 + b.cell % 6 * 2 ^ 33 + b.lslot * 2 ^ 30 + space * 2 ^ 27 + off

/-- The window address of a register of the warp, for AUX (R138, R369). -/
def regWindow (b : Block) (w : Warp) (lane reg : Nat) : Nat :=
  if lane = 32 then b.window 2 (w.slice * 2 ^ 12 + w.slot * 2 ^ 7 + reg * 4)
  else b.window 1 (w.slice * 2 ^ 18 + w.slot * 2 ^ 13 + reg * 128 + lane * 4)

/-- The warp is held at `pc`, `widx` and the report of cause 0x38 is pended; in a method it is the method fault. -/
def State.consume (s : State) (bk wi : Nat) (act : Mask) (pc : DWord) (widx code aux : Nat) (m : Mask) : State :=
  match s.block? bk with
  | none => s
  | some b =>
    match b.replay with
    | some v => s.methodFault b v 0x38 (BitVec.ofNat 64 aux)
    | none =>
      let w := b.warp wi
      s.hold b wi act pc widx
        { id := 0, cause := 0x38, kind := 3, fhandle := 0, code := code, aux := BitVec.ofNat 64 aux, block := some b.key, blockId := b.blockId, pc := pc,
          warp := wi, widx := widx, lmask := m, lval := [(0, BitVec.ofNat 64 (w.slice * 32 + w.slot)), (1, BitVec.ofNat 64 b.lslot)],
          cell := some (b.die, b.cell) }

/-! ## Returning: retiring a record (R343, R241) -/

def advanceHead (head tail : Nat) (open_ : List Nat) : Nat → Nat
  | 0 => head
  | n + 1 => if head = tail ∨ open_.contains head then head else advanceHead ((head + 1) % 2 ^ 32) tail open_ n

/-- Retires a record: the warp it holds is released, a stow fault no longer bars stow, HEAD moves past every retired
identifier (R342, R345, R353). An identifier that names no record retires nothing. -/
def State.retire (s : State) (c : Nat) (rid : Word) : State :=
  match (s.ctx c).recs.find? fun r => r.rid == rid with
  | none => s
  | some r =>
    let s := match r.trap.holds with
      | some (bk, wi) => s.modNow bk fun b => b.modWarp wi fun w => w.unhold r.trap.id
      | none => s
    s.modCtx c fun x =>
      let recs := x.recs.filter fun y => y.rid != rid
      { x with recs := recs,
               stowOff := x.stowOff.filter (· ≠ r.trap.id),
               head := BitVec.ofNat 32 (advanceHead x.head.toNat x.tail.toNat (recs.map (·.rid.toNat)) ((x.tail - x.head).toNat)) }

/-! ## Waits -/

/-- The wait states that the watchdog codes name (R379). -/
def Wait.code : Wait → Nat
  | .bwait _ => 1
  | .bwaitTimed _ _ _ => 1
  | .bar _ => 2
  | .cbar _ => 3
  | .twait _ _ => 4
  | .waitw _ _ _ _ _ _ _ => 5
  | .rwait _ _ => 6
  | .ringp _ _ => 7
  | .ringc _ _ _ _ => 8
  | .gangset _ => 9
  | .forming _ => 9
  | .gang => 9
  | .launchFull => 10
  | .rcall _ => 11
  | .rread _ _ _ _ _ _ => 12
  | .room _ => 0
  | .erst _ => 0

/-- The stowable waits (R67). -/
def Wait.stowable : Wait → Bool
  | .twait _ _ => true
  | .waitw _ _ _ _ _ _ _ => true
  | .rwait _ _ => true
  | .ringp _ _ => true
  | .ringc _ _ _ _ => true
  | .launchFull => true
  | .rcall _ => true
  | _ => false

/-- The long-latency waits of R79. -/
def Wait.long : Wait → Bool
  | .room _ => false
  | .erst _ => false
  | _ => true

end Sys2Proof.Machine
end

