-- ==== Sys2Proof/Machine/Operands.lean ====
section
/-! DEFINITION. Operand forms: guards (R25, R36), ReadSrc (R22, R23, R27, R187), destinations, latches and WriteDst (R27,
R175, R176, R188). -/

namespace Sys2Proof.Machine

/-! ## Registers -/

def Cx.v (c : Cx) (tick l r : Nat) : Word :=
  if c.w.busyV l r then Config.freeWord tick (placeKey c.bk c.wi l r)
  else (tget (c.w.lane l).v r).getD (Config.freeWord tick (placeKey c.bk c.wi l r))

def Cx.s (c : Cx) (tick r : Nat) : Word := (tget c.w.s r).getD (Config.freeWord tick (placeKey c.bk c.wi 32 r))

def Cx.v64 (c : Cx) (tick l r : Nat) : DWord := c.v tick l (r + 1) ++ c.v tick l r
def Cx.s64 (c : Cx) (tick r : Nat) : DWord := c.s tick (r + 1) ++ c.s tick r

def Cx.p (c : Cx) (tick l n : Nat) : Bool :=
  (tget (c.w.lane l).p n).getD (Config.freeBool tick (placeKey c.bk c.wi l (48 + n)))

def Latches.get (x : Latches) (k : Nat) : DWord :=
  match k with
  | 0 => x.x0
  | 1 => x.x1
  | 2 => x.x2
  | _ => x.x3

def Latches.push (x : Latches) (v : DWord) : Latches := { x0 := v, x1 := x.x0, x2 := x.x1, x3 := x.x2 }

/-- Guard(l) (R36). -/
def Cx.guard (c : Cx) (tick : Nat) (g : Guard) (l : Nat) : Bool :=
  match g with
  | .always => true
  | .p n => c.p tick l n.toNat

/-- The lanes of ACT whose guard holds. -/
def Cx.guarded (c : Cx) (tick : Nat) (g : Guard) : Mask := maskOf fun l => c.fl.act.has l && c.guard tick g l

/-- ReadSrc of 32 bits. -/
def Cx.src (c : Cx) (tick : Nat) (x : Src) (l : Nat) : Word :=
  match x with
  | .v r => c.v tick l r.toNat
  | .s r => c.s tick r.toNat
  | .x k => ((c.w.lane l).x.get k.toNat).setWidth 32
  | .zero => 0
  | .lane => BitVec.ofNat 32 l
  | .imm v => v
  | .rsv _ => 0

/-- ReadSrc of a pair (R187); an immediate is spread by `im`. -/
def Cx.src64 (c : Cx) (tick : Nat) (x : Src) (im : Word → DWord) (l : Nat) : DWord :=
  match x with
  | .v r => c.v64 tick l r.toNat
  | .s r => c.s64 tick r.toNat
  | .x k => (c.w.lane l).x.get k.toNat
  | .zero => 0
  | .lane => BitVec.ofNat 64 l
  | .imm v => im v
  | .rsv _ => 0

/-- An S pair or zero operand of an ENG or SYS form. -/
def Cx.opS (c : Cx) (tick : Nat) (x : Src) : Word := c.src tick x 0
def Cx.opS64 (c : Cx) (tick : Nat) (x : Src) : DWord := c.src64 tick x (·.setWidth 64) 0

/-- The form of MEM, CTL, ENG and SYS rows: nothing happens where the guard holds in no lane of ACT (R182, R216). -/
def State.withGuard (s : State) (g : Guard) (f : Cx → Mask → State) : Host.Outcome State Fault Refusal :=
  s.withCx fun c => if (c.guarded s.tick g).none then s else f c (c.guarded s.tick g)

/-- The form of a row that a replay method may not use: the method fault with CODE 0x04 (R294). -/
def State.withGuardN (s : State) (g : Guard) (f : Cx → Mask → State) : Host.Outcome State Fault Refusal :=
  s.withGuard g fun c m => match c.b.replay with
    | some v => s.methodFault c.b v 0x04 0
    | none => f c m

/-! ## Destinations -/

def Lane.setV (x : Lane) (r : Nat) (v : Word) : Lane := { x with v := tset x.v r v, vPois := x.vPois.filter (· ≠ r) }

/-- A 32-bit or 64-bit result in Vd. -/
def Lane.setD (x : Lane) (d : Nat) (wide : Bool) (v : DWord) : Lane :=
  if wide then (x.setV d (v.setWidth 32)).setV (d + 1) ((v >>> 32).setWidth 32) else x.setV d (v.setWidth 32)

def Warp.setS (w : Warp) (r : Nat) (v : Word) : Warp := { w with s := tset w.s r v, sPois := w.sPois.filter (· ≠ r) }

def Warp.setSD (w : Warp) (d : Nat) (wide : Bool) (v : DWord) : Warp :=
  if wide then (w.setS d (v.setWidth 32)).setS (d + 1) ((v >>> 32).setWidth 32) else w.setS d (v.setWidth 32)

def State.setS (s : State) (c : Cx) (r : Nat) (v : Word) : State := s.modWarp c.bk c.wi fun w => w.setS r v
def State.setS64 (s : State) (c : Cx) (r : Nat) (v : DWord) : State := s.modWarp c.bk c.wi fun w => w.setSD r true v

/-- SetFlags (R36); never in a helper lane (R39, R99). -/
def Lane.orFl (x : Lane) (f : Fl) : Lane := if x.isHelper then x else { x with fl := x.fl ||| f }

/-- A result as it enters the latch: zero-extended to 64 bits. -/
def narrow (wide : Bool) (v : DWord) : DWord := if wide then v else (v.setWidth 32).setWidth 64

/-- The effect of a form with one warp result `r`, none where no lane qualifies (R27, R176): Sd, then every latch of ACT. -/
def State.warpResult (s : State) (c : Cx) (d : Nat) (n wide : Bool) (r : Option DWord) : State :=
  let d := d % 32
  let held : DWord := if wide then c.s64 s.tick d else (c.s s.tick d).setWidth 64
  let v := narrow wide (r.getD held)
  let s := s.modMask c.bk c.wi c.fl.act fun _ x => { x with x := x.x.push v }
  if r.isSome && !n then s.modWarp c.bk c.wi fun w => w.setSD d wide v else s

/-- The whole effect of a lane-class form with a V or S destination (R27, R176, R188): `f` is ResultOf and its flags. -/
def State.laneResult (s : State) (c : Cx) (x : LaneArgs) (wide : Bool) (f : Nat → DWord × Fl) : State :=
  if x.sd then
    match (c.guarded s.tick x.g).list.head? with
    | some l => (s.warpResult c x.d.toNat x.n wide (some (f l).1)).modMask c.bk c.wi (maskOf (· == l)) fun _ y => y.orFl (f l).2
    | none => s.warpResult c x.d.toNat x.n wide none
  else
    s.modMask c.bk c.wi c.fl.act fun l y =>
      if c.guard s.tick x.g l then
        let r := f l
        let y := ({ y with x := y.x.push (narrow wide r.1) }).orFl r.2
        if x.n then y else y.setD x.d.toNat wide r.1
      else { y with x := y.x.push 0 }

/-- The effect of a form with a predicate-pair destination: each guarded lane's two predicates. -/
def State.predResult (s : State) (c : Cx) (x : LaneArgs) (f : Nat → Bool × Bool) : State :=
  s.modMask c.bk c.wi c.fl.act fun l y =>
    if c.guard s.tick x.g l then
      let r := f l
      let y := { y with x := y.x.push (if r.1 then 1 else 0) }
      if x.n then y else y.setPair x.d.toNat r.1 r.2
    else { y with x := y.x.push 0 }

/-- A result of some lanes only; the others of ACT enter 0 in their latch (R190). -/
def State.someResult (s : State) (c : Cx) (x : LaneArgs) (wide : Bool) (f : Nat → Option DWord) : State :=
  s.modMask c.bk c.wi c.fl.act fun l y =>
    match f l with
    | some v =>
      let y := { y with x := y.x.push (narrow wide v) }
      if x.n then y else y.setD x.d.toNat wide v
    | none => { y with x := y.x.push 0 }

end Sys2Proof.Machine
end

