-- ==== Sys2Proof/Machine/FpAlu.lean ====
section
/-! DEFINITION. Floating-point instructions of the ALU (R199, R200). -/

namespace Sys2Proof.Machine

/-- NEG and ABS on a value of a format: absolute before negate, on the sign bit alone (R26, R189). -/
def fpMod (f : Fmt) (neg abs : Bool) (v : Nat) : Nat :=
  let v := if abs then f.absolute v else v
  if neg then f.negate v else v

/-- The modifiers of source `i`, 2 for A, 1 for B, 0 for C. -/
def laneMods (x : LaneArgs) (f : Fmt) (i v : Nat) : Nat := fpMod f (x.neg.getLsbD i) (x.abs.getLsbD i) v

/-- An immediate read as an FP32 pair stands in both halves; as FP64 it is the FP32 value widened exactly (R187), a NaN with its
quiet bit as it is, so that the operation sees a signalling one (R97). -/
def imPair (w : Word) : DWord := w ++ w
def imF64 (w : Word) : DWord :=
  BitVec.ofNat 64 (if fp32.isNaN w.toNat
    then fp64.signBit (fp32.sign w.toNat) + fp64.expMax * 2 ^ fp64.fb + fp32.frac w.toNat * 2 ^ (fp64.fb - fp32.fb)
    else (fConv fp32 fp64 0 w.toNat).1)

/-- The three sources of a form as lists of elements, low first: one of the format, or two halves. -/
inductive Shape where
  | one32 | pair32 | half16 | halfBf | one64
deriving DecidableEq, Repr

def Shape.fmt : Shape → Fmt
  | .one32 => fp32
  | .pair32 => fp32
  | .half16 => fp16
  | .halfBf => bf16
  | .one64 => fp64

def Shape.wide : Shape → Bool
  | .pair32 => true
  | .one64 => true
  | _ => false

def Cx.elems (c : Cx) (tick : Nat) (sh : Shape) (x : Src) (l : Nat) : List Nat :=
  match sh with
  | .one32 => [(c.src tick x l).toNat]
  | .pair32 => let v := (c.src64 tick x imPair l).toNat; [v % 2 ^ 32, v / 2 ^ 32]
  | .half16 => let v := (c.src tick x l).toNat; [v % 2 ^ 16, v / 2 ^ 16]
  | .halfBf => let v := (c.src tick x l).toNat; [v % 2 ^ 16, v / 2 ^ 16]
  | .one64 => [(c.src64 tick x imF64 l).toNat]

/-- Elements put together, their flags ORed (R100). -/
def Shape.join (sh : Shape) (rs : List (Nat × Fl)) : DWord × Fl :=
  (BitVec.ofNat 64 ((rs.headD (0, 0)).1 + 2 ^ sh.fmt.width * (rs.getD 1 (0, 0)).1), rs.foldl (fun a r => a ||| r.2) 0)

/-- A floating-point form over one or two elements of a shape. -/
def fpForm (x : LaneArgs) (s : State) (sh : Shape) (f : Nat → Nat → Nat → Nat × Fl) : Host.Outcome State Fault Refusal :=
  s.withCx fun c => s.laneResult c x sh.wide fun l =>
    let as := c.elems s.tick sh x.a l
    let bs := c.elems s.tick sh x.b l
    let cs := c.elems s.tick sh x.c l
    sh.join ((List.range as.length).map fun i =>
      f (laneMods x sh.fmt 2 (as.getD i 0)) (laneMods x sh.fmt 1 (bs.getD i 0)) (laneMods x sh.fmt 0 (cs.getD i 0)))

/-- The operand shape of FMIN and FMAX (R199). -/
def minMaxShape (sub : BitVec 16) : Shape :=
  match sub.toNat with
  | 0 => .one32
  | 1 => .pair32
  | 2 => .half16
  | 3 => .halfBf
  | _ => .one64

/-- R199: a + b. -/
def execFadd (x : LaneArgs) (s : State) : Host.Outcome State Fault Refusal :=
  fpForm x s .one32 fun a b _ => fAdd fp32 x.rnd.toNat a b

/-- R199: a + (−b). -/
def execFsub (x : LaneArgs) (s : State) : Host.Outcome State Fault Refusal :=
  fpForm x s .one32 fun a b _ => fAdd fp32 x.rnd.toNat a (fp32.negate b)

/-- R199: a × b. -/
def execFmul (x : LaneArgs) (s : State) : Host.Outcome State Fault Refusal :=
  fpForm x s .one32 fun a b _ => fMul fp32 x.rnd.toNat a b

/-- R199: a × b + c, one rounding. -/
def execFfma (x : LaneArgs) (s : State) : Host.Outcome State Fault Refusal :=
  fpForm x s .one32 fun a b c => fFma fp32 x.rnd.toNat a b c

/-- R199, R98: minimumNumber on the shape of SUB. -/
def execFmin (x : LaneArgs) (s : State) : Host.Outcome State Fault Refusal :=
  fpForm x s (minMaxShape x.sub) fun a b _ => fMinMax (minMaxShape x.sub).fmt false a b

/-- R199, R98: maximumNumber on the shape of SUB. -/
def execFmax (x : LaneArgs) (s : State) : Host.Outcome State Fault Refusal :=
  fpForm x s (minMaxShape x.sub) fun a b _ => fMinMax (minMaxShape x.sub).fmt true a b

/-- R200: a + b on FP32 pairs. -/
def execFadd2 (x : LaneArgs) (s : State) : Host.Outcome State Fault Refusal :=
  fpForm x s .pair32 fun a b _ => fAdd fp32 x.rnd.toNat a b

/-- R200: a × b on FP32 pairs. -/
def execFmul2 (x : LaneArgs) (s : State) : Host.Outcome State Fault Refusal :=
  fpForm x s .pair32 fun a b _ => fMul fp32 x.rnd.toNat a b

/-- R200: a × b + c on FP32 pairs. -/
def execFfma2 (x : LaneArgs) (s : State) : Host.Outcome State Fault Refusal :=
  fpForm x s .pair32 fun a b c => fFma fp32 x.rnd.toNat a b c

/-- R200: a + b on FP16 halves. -/
def execHadd2 (x : LaneArgs) (s : State) : Host.Outcome State Fault Refusal :=
  fpForm x s .half16 fun a b _ => fAdd fp16 x.rnd.toNat a b

/-- R200: a × b on FP16 halves. -/
def execHmul2 (x : LaneArgs) (s : State) : Host.Outcome State Fault Refusal :=
  fpForm x s .half16 fun a b _ => fMul fp16 x.rnd.toNat a b

/-- R200: a × b + c on FP16 halves. -/
def execHfma2 (x : LaneArgs) (s : State) : Host.Outcome State Fault Refusal :=
  fpForm x s .half16 fun a b c => fFma fp16 x.rnd.toNat a b c

/-- R200: a + b on BF16 halves. -/
def execBadd2 (x : LaneArgs) (s : State) : Host.Outcome State Fault Refusal :=
  fpForm x s .halfBf fun a b _ => fAdd bf16 x.rnd.toNat a b

/-- R200: a × b on BF16 halves. -/
def execBmul2 (x : LaneArgs) (s : State) : Host.Outcome State Fault Refusal :=
  fpForm x s .halfBf fun a b _ => fMul bf16 x.rnd.toNat a b

/-- R200: a × b + c on BF16 halves. -/
def execBfma2 (x : LaneArgs) (s : State) : Host.Outcome State Fault Refusal :=
  fpForm x s .halfBf fun a b c => fFma bf16 x.rnd.toNat a b c

/-- R200: a + b on FP64 pairs. -/
def execDadd (x : LaneArgs) (s : State) : Host.Outcome State Fault Refusal :=
  fpForm x s .one64 fun a b _ => fAdd fp64 x.rnd.toNat a b

/-- R200: a × b on FP64 pairs. -/
def execDmul (x : LaneArgs) (s : State) : Host.Outcome State Fault Refusal :=
  fpForm x s .one64 fun a b _ => fMul fp64 x.rnd.toNat a b

/-- R200: a × b + c on FP64 pairs. -/
def execDfma (x : LaneArgs) (s : State) : Host.Outcome State Fault Refusal :=
  fpForm x s .one64 fun a b c => fFma fp64 x.rnd.toNat a b c

end Sys2Proof.Machine
end

