-- ==== Sys2Proof/Machine/Flags.lean ====
section
/-! DEFINITION. Conditions and flag computations: compares (R201), combining steps (R207), the flag register (R99, R209). -/

namespace Sys2Proof.Machine

/-- An integer condition (R201) from equal and less. -/
def intCond (c : Nat) (eq lt : Bool) : Bool :=
  match c with
  | 0 => eq
  | 1 => !eq
  | 2 => lt
  | 3 => lt || eq
  | 4 => !(lt || eq)
  | _ => !lt

/-- A floating-point condition (R201). -/
def fpCond (f : Fmt) (c a b : Nat) : Bool :=
  match c with
  | 0 => fEq f a b
  | 1 => !fEq f a b
  | 2 => fLt f a b
  | 3 => fLt f a b || fEq f a b
  | 4 => fLt f b a
  | 5 => fLt f b a || fEq f a b
  | 6 => !(f.isNaN a || f.isNaN b)
  | _ => f.isNaN a || f.isNaN b

/-- The combination of the two halves of HCMP2 (R201). -/
def halfCond (h : Nat) (lo hi : Bool) : Bool :=
  match h with
  | 0 => lo && hi
  | 1 => lo || hi
  | 2 => lo
  | _ => hi

/-- Step(x, y) of SCAN and REDW (R207). -/
def scanStep (op : Nat) (x y : Word) : Word :=
  match op with
  | 0 => x + y
  | 1 => BitVec.ofNat 32 (fAdd fp32 0 x.toNat y.toNat).1
  | 2 => if y.slt x then y else x
  | 3 => if x.slt y then y else x
  | 4 => if y.ult x then y else x
  | 5 => if x.ult y then y else x
  | 6 => x &&& y
  | 7 => x ||| y
  | 8 => x ^^^ y
  | 9 => BitVec.ofNat 32 (fMinMax fp32 false x.toNat y.toNat).1
  | _ => BitVec.ofNat 32 (fMinMax fp32 true x.toNat y.toNat).1

/-- The identity of R207. -/
def scanId (op : Nat) : Word :=
  match op with
  | 0 => 0
  | 1 => 0x80000000
  | 2 => 0x7FFFFFFF
  | 3 => 0x80000000
  | 4 => 0xFFFFFFFF
  | 5 => 0
  | 6 => 0xFFFFFFFF
  | 7 => 0
  | 8 => 0
  | 9 => 0x7F800000
  | _ => 0xFF800000

/-- The running combinations `inc` of R207, lane by lane. -/
def scanList (op : Nat) : List (Nat × Word) → Option Word → List (Nat × Word)
  | [], _ => []
  | (l, a) :: r, acc =>
    let v := match acc with | none => a | some p => scanStep op p a
    (l, v) :: scanList op r (some v)

end Sys2Proof.Machine
end

