-- ==== Sys2Proof/Machine/Xln.lean ====
section
/-! DEFINITION. Cross-lane instructions: compares, predicates, votes, shuffles, scans, flags and special registers (R201 to
R210). -/

namespace Sys2Proof.Machine

/-! ## Compares and predicates -/

/-- A compare sets P2k := t and P2k+1 := not t in each guarded lane (R201). -/
def cmpForm (x : LaneArgs) (s : State) (f : Cx → Nat → Bool) : Host.Outcome State Fault Refusal :=
  s.withCx fun c => s.predResult c x fun l => (f c l, !f c l)

def intCmp (x : LaneArgs) (s : State) (lt32 : Word → Word → Bool) (lt64 : DWord → DWord → Bool) : Host.Outcome State Fault Refusal :=
  cmpForm x s fun c l =>
    let k := (x.sub.setWidth 4).toNat
    if x.sub.getLsbD 4 then
      let a := c.src64 s.tick x.a (·.setWidth 64) l
      let b := c.src64 s.tick x.b (·.setWidth 64) l
      intCond k (a == b) (lt64 a b)
    else
      let a := c.src s.tick x.a l
      let b := c.src s.tick x.b l
      intCond k (a == b) (lt32 a b)

/-- R201: signed. -/
def execIcmp (x : LaneArgs) (s : State) : Host.Outcome State Fault Refusal := intCmp x s (·.slt ·) (·.slt ·)

/-- R201: unsigned. -/
def execUcmp (x : LaneArgs) (s : State) : Host.Outcome State Fault Refusal := intCmp x s (·.ult ·) (·.ult ·)

/-- The condition of element `i` of two sources of a shape. -/
def fpCmpAt (c : Cx) (x : LaneArgs) (tick : Nat) (sh : Shape) (i l : Nat) : Bool :=
  fpCond sh.fmt (x.sub.setWidth 4).toNat (laneMods x sh.fmt 2 ((c.elems tick sh x.a l).getD i 0))
    (laneMods x sh.fmt 1 ((c.elems tick sh x.b l).getD i 0))

/-- R201: FP32. -/
def execFcmp (x : LaneArgs) (s : State) : Host.Outcome State Fault Refusal := cmpForm x s fun c l => fpCmpAt c x s.tick .one32 0 l

/-- R201: FP16 or BF16 halves, combined by SUB[5:4]. -/
def execHcmp2 (x : LaneArgs) (s : State) : Host.Outcome State Fault Refusal :=
  cmpForm x s fun c l =>
    let sh := if x.sub.getLsbD 6 then Shape.halfBf else .half16
    halfCond (nbits x.sub.toNat 5 4) (fpCmpAt c x s.tick sh 0 l) (fpCmpAt c x s.tick sh 1 l)

/-- R201: FP64. -/
def execDcmp (x : LaneArgs) (s : State) : Host.Outcome State Fault Refusal := cmpForm x s fun c l => fpCmpAt c x s.tick .one64 0 l

/-- A predicate source, inverted by its NEG bit (R202, R204). -/
def Cx.pin (c : Cx) (tick : Nat) (x : Src) (inv : Bool) (l : Nat) : Bool := c.p tick l x.predNum != inv

/-- R202: pa and pb. -/
def execPand (x : LaneArgs) (s : State) : Host.Outcome State Fault Refusal :=
  cmpForm x s fun c l => c.pin s.tick x.a (x.neg.getLsbD 2) l && c.pin s.tick x.b (x.neg.getLsbD 1) l

/-- R202: pa or pb. -/
def execPor (x : LaneArgs) (s : State) : Host.Outcome State Fault Refusal :=
  cmpForm x s fun c l => c.pin s.tick x.a (x.neg.getLsbD 2) l || c.pin s.tick x.b (x.neg.getLsbD 1) l

/-- R202: pa xor pb. -/
def execPxor (x : LaneArgs) (s : State) : Host.Outcome State Fault Refusal :=
  cmpForm x s fun c l => c.pin s.tick x.a (x.neg.getLsbD 2) l != c.pin s.tick x.b (x.neg.getLsbD 1) l

/-- R203: the bit of the source at the lane index. -/
def execPset (x : LaneArgs) (s : State) : Host.Outcome State Fault Refusal := cmpForm x s fun c l => (c.src s.tick x.a l).getLsbD l

/-- P11 to P0 of a lane. -/
def Cx.preds (c : Cx) (tick l : Nat) : BitVec 12 :=
  BitVec.ofNat 12 ((List.range 12).foldl (fun v i => v + if c.p tick l i then 2 ^ i else 0) 0)

/-- R203: P11 to P0 into Vd. -/
def execPmovTo (x : LaneArgs) (s : State) : Host.Outcome State Fault Refusal :=
  s.withCx fun c => s.laneResult c x false fun l => ((c.preds s.tick l).setWidth 64, 0)

/-- R203: the predicates of the mask SUB[15:4] from bits of A; the latch takes the new value. -/
def execPmovFrom (x : LaneArgs) (s : State) : Host.Outcome State Fault Refusal :=
  s.withCx fun c => s.modMask c.bk c.wi c.fl.act fun l y =>
    if c.guard s.tick x.g l then
      let m : BitVec 12 := (x.sub >>> 4).setWidth 12
      let nv := (c.preds s.tick l &&& ~~~m) ||| ((c.src s.tick x.a l).setWidth 12 &&& m)
      let y := { y with x := y.x.push (nv.setWidth 64) }
      if x.n then y
      else { y with p := (List.range 12).foldl (fun p i => if m.getLsbD i then tset p i (nv.getLsbD i) else p) y.p }
    else { y with x := y.x.push 0 }

/-! ## Votes (R204) -/

/-- The participating lanes (R204, R207): of ACT, guarded, not helper lanes. -/
def Cx.party (c : Cx) (tick : Nat) (g : Guard) : Mask := c.guarded tick g &&& ~~~c.w.helpers

/-- R204: ALL, ANY, UNI into a predicate pair, or a ballot into V or S. -/
def execVote (x : LaneArgs) (s : State) : Host.Outcome State Fault Refusal :=
  s.withCx fun c =>
    let q := c.party s.tick x.g
    let bitOf (l : Nat) : Bool :=
      if x.sub.getLsbD 3 then (c.w.lane l).fl.getLsbD (nbits x.sub.toNat 6 4) else c.pin s.tick x.a (x.neg.getLsbD 2) l
    let ones := maskOf fun l => q.has l && bitOf l
    match (x.sub.setWidth 3).toNat with
    | 0 => s.predResult c x fun _ => (decide (ones = q), !decide (ones = q))
    | 1 => s.predResult c x fun _ => (!ones.none, ones.none)
    | 2 => let u := decide (ones = q ∨ ones = 0)
           s.predResult c x fun _ => (u, !u)
    | _ => if x.sd then s.warpResult c x.d.toNat x.n false (some (ones.setWidth 64))
           else s.laneResult c x false fun _ => (ones.setWidth 64, 0)

/-! ## Shuffles and quads (R205, R206) -/

/-- Each guarded lane takes the A value of a source lane, its own where that is none or not in ACT (R191). -/
def moveForm (x : LaneArgs) (s : State) (from_ : Cx → Nat → Option Nat) : Host.Outcome State Fault Refusal :=
  s.withCx fun c =>
    let pick l := match from_ c l with
      | some j => if c.fl.act.has j then j else l
      | none => l
    if x.sub.getLsbD 2 then s.laneResult c x true fun l => (c.src64 s.tick x.a (·.setWidth 64) (pick l), 0)
    else s.laneResult c x false fun l => ((c.src s.tick x.a (pick l)).setWidth 64, 0)

/-- The source lane of SHFL (R205), for mode, segment width, lane and B. -/
def shflSrc (m w l b : Nat) : Option Nat :=
  let base := l - l % w
  match m with
  | 0 => some (base + b % w)
  | 1 => if base + b ≤ l then some (l - b) else none
  | 2 => if l + b < base + w then some (l + b) else none
  | _ => some (l ^^^ (b % w))

/-- R205: A from a lane chosen by index, up, down or xor in a segment. -/
def execShfl (x : LaneArgs) (s : State) : Host.Outcome State Fault Refusal :=
  moveForm x s fun c l => shflSrc (x.sub.setWidth 2).toNat (32 / 2 ^ nbits x.sub.toNat 10 8) l (c.src s.tick x.b l).toNat

/-- R206: A from the lane across the quad. -/
def execQswp (x : LaneArgs) (s : State) : Host.Outcome State Fault Refusal :=
  moveForm x s fun _ l => some (l ^^^ ((x.sub.setWidth 2).toNat + 1))

/-- R206: A from the lane of the quad that B names. -/
def execQbcst (x : LaneArgs) (s : State) : Host.Outcome State Fault Refusal :=
  moveForm x s fun c l => some (4 * (l / 4) + (c.src s.tick x.b l).toNat % 4)

/-! ## Scans, reductions, matching (R207, R208) -/

/-- The combinations in ascending lane order over the participating lanes. -/
def Cx.scan (c : Cx) (tick : Nat) (x : LaneArgs) : List (Nat × Word) :=
  scanList (x.sub.setWidth 4).toNat ((c.party tick x.g).list.map fun l => (l, c.src tick x.a l)) none

/-- The value before lane `l` in a scan list, or the identity. -/
def scanBefore (op : Nat) : List (Nat × Word) → Word → Nat → Option Word
  | [], _, _ => none
  | (j, v) :: r, prev, l => if j = l then some prev else scanBefore op r v l

/-- R207: the inclusive or exclusive prefix combination. -/
def execScan (x : LaneArgs) (s : State) : Host.Outcome State Fault Refusal :=
  s.withCx fun c =>
    let inc := c.scan s.tick x
    let op := (x.sub.setWidth 4).toNat
    s.someResult c x false fun l =>
      (if x.sub.getLsbD 4 then scanBefore op inc (scanId op) l else tget inc l).map (·.setWidth 64)

/-- R207: the whole combination, into every participating lane or into Sd. -/
def execRedw (x : LaneArgs) (s : State) : Host.Outcome State Fault Refusal :=
  s.withCx fun c =>
    let inc := c.scan s.tick x
    let last := inc.getLast?.map fun e => e.2.setWidth 64
    if x.sd then s.warpResult c x.d.toNat x.n false last
    else s.someResult c x false fun l => if (c.party s.tick x.g).has l then last else none

/-- R208: the mask of participating lanes with an equal value. -/
def execMatchI (x : LaneArgs) (s : State) : Host.Outcome State Fault Refusal :=
  s.withCx fun c =>
    let q := c.party s.tick x.g
    let val (l : Nat) : DWord :=
      if x.sub.getLsbD 0 then c.src64 s.tick x.a (·.setWidth 64) l else (c.src s.tick x.a l).setWidth 64
    s.someResult c x false fun l =>
      if q.has l then some ((maskOf fun m => q.has m && decide (val m = val l)).setWidth 64) else none

/-! ## Flags and special registers (R209, R210) -/

/-- R209: FL. -/
def execFlgrd (x : LaneArgs) (s : State) : Host.Outcome State Fault Refusal :=
  s.withCx fun c => s.laneResult c x false fun l => ((c.w.lane l).fl.setWidth 64, 0)

/-- R209: FL bits cleared; the latch takes the new FL. -/
def execFlgclr (x : LaneArgs) (s : State) : Host.Outcome State Fault Refusal :=
  s.withCx fun c => s.modMask c.bk c.wi c.fl.act fun l y =>
    if c.guard s.tick x.g l then
      let nf := y.fl &&& ~~~(c.src s.tick x.a l).setWidth 5
      { y with fl := nf, x := y.x.push (nf.setWidth 64) }
    else { y with x := y.x.push 0 }

/-- A special register as the reading lane sees it (R210). -/
def Cx.special (c : Cx) (s : State) (id l : Nat) : DWord :=
  match id with
  | 0x00 => BitVec.ofNat 64 l
  | 0x01 => BitVec.ofNat 64 (l / 4)
  | 0x02 => BitVec.ofNat 64 c.wi
  | 0x03 => c.b.blockId.setWidth 64
  | 0x04 => BitVec.ofNat 64 c.b.lslot
  | 0x05 => BitVec.ofNat 64 c.b.die
  | 0x06 => BitVec.ofNat 64 (c.b.cell % 6)
  | 0x07 => c.w.helpers.setWidth 64
  | 0x08 => BitVec.ofNat 64 c.b.spBase
  | 0x09 => BitVec.ofNat 64 (c.w.slice * 32 + c.w.slot)
  | 0x0A => (c.w.lane l).fp.setWidth 64
  | 0x0B => BitVec.ofNat 64 c.b.warps.length
  | 0x0C => BitVec.ofNat 64 (((s.grids.find? fun g => g.key == c.b.grid).map (·.lrec.nblk)).getD 1)
  | 0x0D => BitVec.ofNat 64 c.b.crank
  | 0x0E => c.fl.act.setWidth 64
  | 0x0F => BitVec.ofNat 64 c.b.spSize
  | 0x10 => c.b.moves.setWidth 64
  | 0x20 => BitVec.ofNat 64 c.b.clk
  | 0x21 => BitVec.ofNat 64 s.wall
  | _ => BitVec.ofNat 64 c.w.wcnt

/-- The registers whose reads the input log holds (R310). -/
def loggedSpecial (id : Nat) : Bool := [0x20, 0x21, 0x08, 0x04, 0x06, 0x05, 0x09, 0x10].contains id

/-- The registers a replay method may name (R294). -/
def methodSpecial (id : Nat) : Bool := [0x00, 0x01, 0x07, 0x0A, 0x0E, 0x0F].contains id

/-- R210: a special register; in recorded mode the value is logged, and in re-execution taken from the log (R310, R311). -/
def execSreg (x : LaneArgs) (s : State) : Host.Outcome State Fault Refusal :=
  s.withCx fun c =>
    let id := (x.sub.setWidth 8).toNat
    let wide := decide (0x20 ≤ id)
    if c.b.replay.isSome && !methodSpecial id then
      match c.b.replay with
      | some v => s.methodFault c.b v 0x04 0
      | none => s
    else if loggedSpecial id then
      match s.logged c.bk fun e => match e with | .sreg w _ => w == c.wi | _ => false with
      | some (.sreg _ vs, s') => s'.laneResult c x wide fun l => (vs.getD l 0, 0)
      | _ => (s.log c.bk (.sreg c.wi (lanes32.map (c.special s id)))).laneResult c x wide fun l => (c.special s id l, 0)
    else s.laneResult c x wide fun l => (c.special s id l, 0)

end Sys2Proof.Machine
end

