-- ==== Sys2Proof/Machine/Mem.lean ====
section
/-! DEFINITION. MEM instructions (R216 to R227), the completion of loads (R29) and the acknowledgement of stores (R157). -/

namespace Sys2Proof.Machine

/-! ## Addresses (R216) -/

/-- The base of a lane, as an unsigned value. -/
def Cx.memBase (c : Cx) (tick : Nat) (pair : Bool) (x : Src) (l : Nat) : Nat :=
  if pair then (c.src64 tick x (·.setWidth 64) l).toNat else (c.src tick x l).toNat

def memOff (x : MemArgs) : Int := x.off.toInt

/-- A global or window address. -/
def Cx.addrOf (c : Cx) (tick : Nat) (x : MemArgs) (l : Nat) : Nat := addr64 (c.memBase tick true x.adr l + memOff x)

/-- A scratchpad offset, a mathematical integer. -/
def Cx.offOf (c : Cx) (tick : Nat) (x : MemArgs) (l : Nat) : Int := c.memBase tick false x.adr l + memOff x

/-- The bytes of SIZE. -/
def MemSize (x : MemArgs) : Nat := 2 ^ x.size.toNat

/-! ## Checks (R218, R360) -/

/-- A page of a global access: an L1 hit checks nothing (R126), and stands as an entry without a leaf. Its storage is used only where the
line leaves the L1 before the access is performed. -/
def State.hitOrCheck (s : State) (c : Cx) (v : Nat) (need : Need) (l1 : Bool) : State × Except Nat TEntry :=
  let x := s.ctx c.b.ctx
  if l1 && ((s.core c.b.core).l1Find x.asid (v / 128)).isSome then
    (s, .ok (match (s.resolve x v).2 with
      | some t => { t with leaf := 0 }
      | none => { asid := x.asid, page := v / 65536, leaf := 0, pa := 0, key := 0 }))
  else s.checkPage c.b.core c.b.ctx v need

/-- The uses of R294: inside the copy of a replay method. -/
def inCopy (v : RInv) (a n : Nat) : Bool := decide (v.copy.toNat ≤ a ∧ a + n ≤ v.copy.toNat + v.size)

/-- One lane's global access, in the order of R339: its storage and page kinds, or its cause; in a method, bytes of the copy on RC pages
of this package's own memory or the host's (R294, R305): an address outside the copy is tested before its translation (log 128). A re-execution,
which takes its traps from its log, finds no cause (R311). -/
def State.checkGlobal (s : State) (c : Cx) (a n : Nat) (need : Need) (align l1 : Bool) : State × Except Nat (TEntry × TEntry) :=
  let last := (a + n - 1) % 2 ^ 64
  if s.replaying c.bk then
    let t (v : Nat) : TEntry := { asid := 0, page := v / 65536, leaf := 0, pa := 0, key := 0 }
    (s, .ok (t a, t last))
  else if !canonical a || !canonical last then (s, .error 0x11)
  else if align && decide (a % n ≠ 0) then (s, .error 0x10)
  else if (match c.b.replay with | some v => !inCopy v a n | none => false) then (s, .error 0x13)
  else
    let (s, p) := s.hitOrCheck c a need l1
    let (s, q) := s.hitOrCheck c last need l1
    (s, match p, q with
      | .ok t, .ok u => if c.b.replay.isSome && (decide (t.ord ≠ 0 ∨ u.ord ≠ 0) || isPeer t.key || isPeer u.key) then .error 0x13 else .ok (t, u)
      | .error e, .ok _ => .error e
      | .ok _, .error e => .error e
      | .error e, .error f => .error (min e f))

/-- The check of every lane of a mask, in ascending order. -/
def State.checkLanes {α : Type} (s : State) (m : Mask) (f : State → Nat → State × Except Nat α) : State × List (Nat × Except Nat α) :=
  m.list.foldl (fun p l => let r := f p.1 l; (r.1, p.2 ++ [(l, r.2)])) (s, [])

/-- The lanes that fault, helper lanes apart, with what LVAL shows. -/
def faultsOf {α : Type} (c : Cx) (addr : Nat → DWord) (rs : List (Nat × Except Nat α)) : List (Nat × Nat × DWord) :=
  rs.filterMap fun r => match r.2 with
    | .error e => if (c.w.lane r.1).isHelper then none else some (r.1, e, addr r.1)
    | .ok _ => none

def oksOf {α : Type} (rs : List (Nat × Except Nat α)) : List (Nat × α) :=
  rs.filterMap fun r => match r.2 with
    | .ok x => some (r.1, x)
    | .error _ => none

/-- A helper lane executes a word only where its leader does: not where the leader takes a cause at it, or is stopped there (R39). -/
def Cx.follows (c : Cx) (out : Mask) (l : Nat) : Bool := !((c.w.lane l).isHelper && (c.w.leader? l).any out.has)

/-- The page that an access translates: of two lines of one page, the L1 may hit the first alone (R126). -/
def firstPage (p : TEntry × TEntry) : TEntry := if p.1.leaf = 0 ∧ p.1.page = p.2.page then p.2 else p.1

/-- The storage side of an access. -/
def accOf (l a : Nat) (p : TEntry × TEntry) : Acc :=
  let q := firstPage p
  { lane := l, addr := a, key := q.key, key2 := p.2.key, pa := q.pa, pa2 := p.2.pa, so := q.ord == 1, so2 := p.2.ord == 1 }

/-- The line requests of accesses of `n` bytes, for soundings (R312): the lowest lane of each line, two lines for an access that crosses
from one to the next. `near` says that the L1 may serve them; `window` that the key is a core. -/
def lineReqs (accs : List Acc) (n : Nat) (near window : Bool) : List LineReq :=
  let one (r : List LineReq) (a : Acc) (i : Nat) : List LineReq :=
    let v := (a.addr + i) % 2 ^ 64
    if r.any fun q => q.addr / 128 == v / 128 then r
    else r ++ [{ addr := if i = 0 then v else v / 128 * 128, lane := a.lane, key := if window then a.key else a.bkey i,
                 near := near && !a.soAt i }]
  accs.foldl (fun r a => if a.zero then r else one (one r a 0) a (n - 1)) []

/-! ## Outstanding operations -/

def State.addLoad (s : State) (c : Cx) (ld : PLoad) : State :=
  (s.modWarp c.bk c.wi fun w => { w with loads := w.loads ++ [ld] }).bump

def State.addStore (s : State) (c : Cx) (st : PStore) : State :=
  if st.bytes.isEmpty then s else (s.modWarp c.bk c.wi fun w => { w with stores := w.stores ++ [st] }).bump

def Cx.load (c : Cx) (key : Nat) (form : LoadForm) (x : MemArgs) (accs : List Acc) : PLoad :=
  { key := key, form := form, size := MemSize x, dat := x.dat.toNat, sb := x.sb.toNat, thru := false, alloc := false,
    pc := c.fl.pc, widx := c.fl.idx, cnt := c.w.wcnt, accs := accs }

/-- The values a re-executing block takes for a load (R311). -/
def State.loggedLoad (s : State) (c : Cx) : Option (List (Nat × List Byte) × State) :=
  match s.loggedLate c.bk fun e => match e with | .load w k _ => w == c.wi && k == c.w.wcnt | _ => false with
  | some (.load _ _ vs, s') => some (vs, s')
  | _ => none

/-- The bytes of a lane's data registers. -/
def Cx.dataBytes (c : Cx) (tick l d n : Nat) : List Byte :=
  ((List.range ((n + 3) / 4)).flatMap fun i => leBytes 4 (c.v tick l (d + i)).toNat).take n

/-- The operand of an atomic at DAT: 32 or 64 bits. -/
def Cx.dataVal (c : Cx) (tick l d n : Nat) : DWord := BitVec.ofNat 64 (leNat (c.dataBytes tick l d n))

/-! ## Global loads and stores (R219) -/

/-- A global load joins the outstanding ones. It is performed at once where something later in the thread must follow it (R150, R128), and where the
L1 gave a page's bytes without translation (`now`); a re-executing block takes its values from the log. -/
def State.issueLd (s : State) (c : Cx) (x : MemArgs) (ord : Nat) (thru now : Bool) (accs : List Acc) : State :=
  if accs.isEmpty then s
  else
    let so := accs.any fun a => a.so || a.so2
    let key := s.nextKey
    let ld := { c.load key .ld x accs with thru := thru, alloc := !thru }
    if s.replaying c.bk then
      match s.loggedLoad c with
      | some (vs, s) => s.addLoad c { ld with key := s.nextKey, vals := some vs }
      | none => s.addLoad c ld
    else
      let s := (s.addLoad c ld).sound c.b c.wi (lineReqs accs (MemSize x) (!thru) false) 0
      let s := if now || so || ord = 1 then s.perform c.bk c.wi key else s
      if so then s.acquire c.bk 5 else if ord = 1 then s.acquire c.bk x.scope.toNat else s

/-- R219: a global load. -/
def execLd (x : MemArgs) (s : State) : Host.Outcome State Fault Refusal :=
  s.withGuard x.g fun c m =>
    let n := MemSize x
    let meth := c.b.replay.isSome
    let ord := if meth then 0 else x.ord.toNat
    let thru := meth || decide (ord = 1 ∧ 2 ≤ x.scope.toNat)
    let addr l := c.addrOf s.tick x l
    let (s, rs) := s.checkLanes m fun s l => s.checkGlobal c (addr l) n .read (decide (ord = 4)) (!thru)
    let fs := faultsOf c (fun l => BitVec.ofNat 64 (addr l)) rs
    let rs := rs.filter fun r => c.follows (maskOf fun l => fs.any fun f => f.1 == l) r.1
    s.splitThen c fs fun s =>
      let oks := oksOf rs
      let zeros : List Acc := rs.filterMap fun r => match r.2 with
        | .error _ => if (c.w.lane r.1).isHelper then some { lane := r.1, addr := addr r.1, zero := true } else none
        | .ok _ => none
      s.issueLd c x ord thru (oks.any fun o => o.2.1.leaf == 0 || o.2.2.leaf == 0) (oks.map (fun o => accOf o.1 (addr o.1) o.2) ++ zeros)

/-- A store hit updates the line that the L1 holds (R127). -/
def State.l1Store (s : State) (core asid : Nat) (bs : List StByte) : State :=
  s.modCore core fun k => { k with l1 := k.l1.map fun ln =>
    if ln.asid = asid then
      let here := bs.filter fun b => b.va / 128 == ln.line
      { ln with data := here.foldl (fun d b => d.set (b.va % 128) b.b) ln.data,
                pois := BitVec.ofNat 4 ((List.range 4).foldl (fun p j =>
                  p + if ln.pois.getLsbD j && !((List.range 32).all fun i => here.any fun b => b.va % 128 == 32 * j + i) then 2 ^ j else 0) 0) }
    else ln }

/-- The thread's older loads of the bytes it now stores are performed first (R149). -/
def State.forceLoads (s : State) (c : Cx) (bs : List StByte) : State :=
  (s.warp c.bk c.wi).loads.foldl (fun s ld =>
    if ld.vals.isNone && ld.accs.any (fun a => bs.any fun b => a.lane == b.lane && decide (a.addr ≤ b.va ∧ b.va < a.addr + ld.size))
    then s.performTo c.bk c.wi ld.key else s) s

/-- R219: a global store. A helper lane stores nothing (R39). Its UO part is apart from the rest, which the release counter counts, but where
both write one word of storage (R122, R152, R371). -/
def execSt (x : MemArgs) (s : State) : Host.Outcome State Fault Refusal :=
  s.withGuard x.g fun c m =>
    let n := MemSize x
    let ord := if c.b.replay.isSome then 0 else x.ord.toNat
    let addr l := c.addrOf s.tick x l
    let tick := s.tick
    let (s, rs) := s.checkLanes (m &&& ~~~c.w.helpers) fun s l => s.checkGlobal c (addr l) n .write (decide (ord = 4)) false
    s.splitThen c (faultsOf c (fun l => BitVec.ofNat 64 (addr l)) rs) fun s =>
      if s.replaying c.bk then s
      else
        let oks := oksOf rs
        let so := oks.any fun o => o.2.1.ord == 1 || o.2.2.ord == 1
        let bytes : List (Bool × StByte) := oks.flatMap fun o =>
          mapFrom 0 (fun i b =>
            let v := (addr o.1 + i) % 2 ^ 64
            (if v / 65536 = o.2.1.page then o.2.1.ord == 2 else o.2.2.ord == 2,
             { lane := o.1, va := v, key := byteKey o.2.1 o.2.2 (addr o.1) i, b := b })) (c.dataBytes tick o.1 x.dat.toNat n)
        let s := if so then s.release c.bk c.wi 5 else if ord = 2 then s.release c.bk c.wi x.scope.toNat else s
        let all := bytes.map (·.2)
        let s := (s.forceLoads c all).l1Store c.b.core (s.ctx c.b.ctx).asid all
        let rc := (bytes.filter fun b => !b.1).map (·.2)
        let uo := (bytes.filter fun b => b.1).map (·.2)
        let s := if rc.any fun a => uo.any fun b => a.key / 32 == b.key / 32 then s.addStore c { key := s.nextKey, form := .st, uo := false, bytes := all }
          else
            let s := s.addStore c { key := s.nextKey, form := .st, uo := false, bytes := rc }
            s.addStore c { key := s.nextKey, form := .st, uo := true, bytes := uo }
        s.sound c.b c.wi (lineReqs (oks.map fun o => accOf o.1 (addr o.1) o.2) n false false) 1

/-- R223: a global atomic. -/
def execAtom (x : MemArgs) (s : State) : Host.Outcome State Fault Refusal :=
  s.withGuard x.g fun c m =>
    let n := MemSize x
    let ord := if c.b.replay.isSome then 4 else x.ord.toNat
    let addr l := c.addrOf s.tick x l
    let tick := s.tick
    let (s, rs) := s.checkLanes (m &&& ~~~c.w.helpers) fun s l =>
      match s.checkGlobal c (addr l) n .rmw true false with
      | (s, .ok p) => (s, if x.aop = 11 ∧ isPeer p.1.key then .error 0x13 else .ok p)
      | (s, .error e) => (s, .error e)
    s.splitThen c (faultsOf c (fun l => BitVec.ofNat 64 (addr l)) rs) fun s =>
      let oks := oksOf rs
      if oks.isEmpty then s
      else
        let accs := oks.map fun o =>
          { accOf o.1 (addr o.1) o.2 with
            opnd := c.dataVal tick o.1 x.dat.toNat n,
            swap := c.dataVal tick o.1 (x.dat.toNat + n / 4) n }
        let so := oks.any fun o => o.2.1.ord == 1
        let uo := oks.all fun o => o.2.1.ord == 2
        if s.replaying c.bk then
          match s.loggedLoad c with
          | some (vs, s) => s.addLoad c { c.load s.nextKey (.atom x.aop) x accs with vals := some vs }
          | none => s.addLoad c (c.load s.nextKey (.atom x.aop) x accs)
        else
          let scope := if so then 5 else x.scope.toNat
          let s := if so || ord = 2 || ord = 3 then s.release c.bk c.wi scope else s
          let key := s.nextKey
          let s := s.addLoad c (c.load key (.atom x.aop) x accs)
          let s := s.modWarp c.bk c.wi fun w => { w with stores := w.stores ++ [{ key := key, form := .atom, uo := uo, bytes := [] }] }
          let s := s.sound c.b c.wi (lineReqs accs n false false) 2
          if so || ord = 1 || ord = 3 then (s.perform c.bk c.wi key).acquire c.bk scope else s

/-! ## Scratchpad (R153, R219, R223) -/

/-- A lane that was resumed at this very place after a debugger stop (R308): a breakpoint register does not stop it there again; BRK and a
race do, but where `word` says that they stopped it (R316). -/
def State.resumedHere (s : State) (core bk wi : Nat) (x : Lane) (pc : DWord) (widx : Nat) (word : Bool) : Bool :=
  match (s.core core).frag? bk wi x.frag with
  | some (_, f) => f.dbg && f.fresh && f.state == 2 && decide (f.pc = pc ∧ f.widx = widx) && (!word || f.atWord)
  | none => false

/-- Race check is effective for this block (R381, R382). -/
def State.raceOn (c : Cx) : Bool := c.b.dbg.ren && c.b.dbg.att && c.b.replay.isNone

/-- The words of an access that race (R382). -/
def raceWords (b : Block) (wi off n : Nat) : List (Nat × Nat) :=
  ((List.range ((n + 3) / 4)).map (off / 4 + ·)).filterMap fun k => match tget b.race k with
    | some sh => if sh.ww ≠ wi ∧ sh.ep = b.epoch then some (k, sh.ww) else none
    | none => none

/-- The races of an instruction's lanes, helper lanes apart: lane, word, last writer (R382); none in re-execution, whose stops its log gives. -/
def State.races (s : State) (c : Cx) (accs : List (Nat × Nat)) (n : Nat) : List (Nat × Nat × Nat) :=
  if !State.raceOn c || s.replaying c.bk then []
  else (accs.filter fun a => !(c.w.lane a.1).isHelper).flatMap fun a => (raceWords c.b c.wi a.2 n).map fun r => (a.1, r.1, r.2)

/-- The lanes that STOPR stops at their word (R381). -/
def State.raceStops (s : State) (c : Cx) (hits : List (Nat × Nat × Nat)) : Mask :=
  if c.b.dbg.stopr && (s.ctx c.b.ctx).att then maskOf fun l => hits.any (fun h => h.1 == l) && !s.resumedHere c.b.core c.bk c.wi (c.w.lane l) c.fl.pc c.fl.idx true
  else 0

/-- Races are reported to the debugger; a store sets the shadows of the words it writes. -/
def State.raceCheck (s : State) (c : Cx) (hits : List (Nat × Nat × Nat)) (accs : List (Nat × Nat)) (n : Nat) (store : Bool) : State :=
  if !State.raceOn c then s
  else
    let s := s.modCtx c.b.ctx fun x => { x with races := x.races ++ hits.map fun h =>
      { block := c.bk, warp := c.wi, lane := h.1, off := 4 * h.2.1, ww := h.2.2, pc := c.fl.pc } }
    if store then s.modBlock c.bk fun b => { b with
      race := accs.foldl (fun r a => ((List.range ((n + 3) / 4)).map (a.2 / 4 + ·)).foldl (fun r k => tset r k { ww := c.wi, ep := b.epoch }) r) b.race } else s

/-- A scratchpad access: alignment and bounds (R218). -/
def Cx.checkSpad (c : Cx) (a : Int) (n : Nat) : Except Nat Nat :=
  if a % (n : Int) ≠ 0 then .error 0x10
  else if a < 0 ∨ (c.b.spSize : Int) < a + n then .error 0x14
  else .ok a.toNat

/-- A poisoned word of a lane's scratchpad access: its window address. -/
def Cx.spadPoison (c : Cx) (accs : List (Nat × Nat)) (n : Nat) : Option Nat :=
  accs.findSome? fun a => if (c.w.lane a.1).isHelper then none else
    (((List.range ((n + 3) / 4)).map (a.2 / 4 + ·)).find? c.b.spadPois.contains).map fun k => c.b.window 0 (c.b.spBase + 4 * k)

/-- The common form of LDS, STS and ATOMS: checks, poison that a read would consume, races, then the access of the lanes
that remain, of which `f` is told. -/
def spadForm (x : MemArgs) (s : State) (reads store atomic : Bool) (f : Cx → State → Mask → List (Nat × Nat) → State) :
    Host.Outcome State Fault Refusal :=
  s.withGuard x.g fun c m =>
    let n := MemSize x
    let tick := s.tick
    let lanes := if store || atomic then m &&& ~~~c.w.helpers else m
    let (s, rs) := s.checkLanes lanes fun s l => (s, c.checkSpad (c.offOf tick x l) n)
    let fs := faultsOf c (fun l => BitVec.ofInt 64 (c.offOf tick x l)) rs
    let out := maskOf fun l => fs.any fun f => f.1 == l
    let oks := (oksOf rs).filter fun o => c.follows out o.1
    match (if reads && !s.replaying c.bk then c.spadPoison oks n else none) with
    | some a => s.splitThen c fs fun s => s.consume c.bk c.wi c.fl.act c.fl.pc c.fl.idx 2 a c.takers
    | none =>
      let hits := if atomic then [] else s.races c oks n
      let stop := s.raceStops c hits
      s.splitStop c fs stop fun s =>
        let go := oks.filter fun o => !stop.has o.1 && c.follows stop o.1
        f c (s.raceCheck c hits go n store) (maskOf fun l => lanes.has l && c.follows (out ||| stop) l) go

/-- A value received from scratchpad is logged once an agent outside the block has written there (R310). -/
def State.logSpad (s : State) (c : Cx) (vs : List (Nat × List Byte)) : State :=
  if c.b.spadForeign then s.log c.bk (.load c.wi c.w.wcnt vs) else s

/-- R219: a scratchpad load, performed at issue in the total order of R153. A helper lane's poisoned word reads zero (R372). -/
def execLds (x : MemArgs) (s : State) : Host.Outcome State Fault Refusal :=
  spadForm x s true false false fun c s m oks =>
    let n := MemSize x
    let here := oks.map fun o => (o.1, (List.range n).map fun i =>
      if (c.w.lane o.1).isHelper && c.b.spadPois.contains ((o.2 + i) / 4) then 0 else c.b.spadByte s.tick (o.2 + i))
    let zeros := ((m &&& c.w.helpers).list.filter fun l => !oks.any fun o => o.1 == l).map
      fun l => (l, List.replicate n (0 : Byte))
    let vs := here ++ zeros
    let (vs, s) := match s.loggedLoad c with
      | some r => r
      | none => (vs, s.logSpad c vs)
    if vs.isEmpty then s
    else s.addLoad c { c.load s.nextKey .lds x (vs.map fun v => { lane := v.1, addr := 0 }) with vals := some vs }

/-- R219: a scratchpad store. -/
def execSts (x : MemArgs) (s : State) : Host.Outcome State Fault Refusal :=
  spadForm x s false true false fun c s _ oks =>
    let bs := oks.flatMap fun o => mapFrom 0 (fun i b => (o.2 + i, b)) (c.dataBytes s.tick o.1 x.dat.toNat (MemSize x))
    s.modBlock c.bk fun b => b.spadStore bs

/-- R223: a scratchpad atomic, lanes in ascending order; a re-execution meets the values that its log gives (R311). -/
def execAtoms (x : MemArgs) (s : State) : Host.Outcome State Fault Refusal :=
  spadForm x s true false true fun c s _ oks =>
    let n := MemSize x
    let got := s.loggedLoad c
    let s := got.elim s (·.2)
    let r := oks.foldl (fun (p : Block × List (Nat × List Byte)) o =>
      let old := (got.bind fun g => tget g.1 o.1).getD ((List.range n).map fun i => p.1.spadByte s.tick (o.2 + i))
      let new := atomNew x.aop.toNat (8 * n) (leNat old) (c.dataVal s.tick o.1 x.dat.toNat n).toNat
        (c.dataVal s.tick o.1 (x.dat.toNat + n / 4) n).toNat
      (((p.1.spadStore (mapFrom 0 (fun i b => (o.2 + i, b)) (leBytes n new))).raceClear o.2 n), p.2 ++ [(o.1, old)])) (c.b, [])
    let s := s.modBlock c.bk fun b => { b with spad := r.1.spad, spadPois := r.1.spadPois, race := r.1.race }
    let vs := got.elim r.2 (·.1)
    let s := if got.isSome then s else s.logSpad c vs
    if vs.isEmpty then s
    else s.addLoad c { c.load s.nextKey (.atoms x.aop) x (vs.map fun v => { lane := v.1, addr := 0 }) with vals := some vs }

/-! ## The on-chip window (R138, R139, R222) -/

/-- The cell a window address names, and the physical core: place fault 0x16, window fault 0x15. -/
def State.winCore (s : State) (c : Cx) (a : Nat) : Except Nat Nat :=
  let pd := nbits a 39 36
  let ce := nbits a 35 33
  let sl := nbits a 32 30
  let die : Except Nat Nat :=
    if pd = 15 then .ok c.b.die
    else if 8 ≤ pd then .error 0x15
    else
      let ld := nbits c.b.place.diemap.toNat (4 * pd + 3) (4 * pd)
      match s.wh.live[ld]? with
      | some p => .ok p
      | none => .error 0x16
  match die with
  | .error e => .error e
  | .ok d =>
    if a / 2 ^ 40 ≠ 0 ∨ ce = 6 then .error 0x15
    else
      let cell := d * 6 + (if ce = 7 then c.b.cell % 6 else ce)
      let pos := if sl = 7 then c.b.core % 8 else (s.place cell).pos sl
      .ok (cell * 8 + pos)

/-- The resource belongs to the issuing context, and its kind takes the size (R139, R222). -/
def State.winOwned (s : State) (c : Cx) (core a n : Nat) : Bool :=
  (List.range n).all fun i => match winTgt core (a + i) with
    | some (.spad k o) => (s.spadBlock c.b.ctx k o).isSome
    | some (.vreg k sl st _ _ _) => decide (n ≤ 4) && (s.blockAt c.b.ctx k sl st).isSome
    | some (.sreg k sl st _ _) => decide (n ≤ 4) && (s.blockAt c.b.ctx k sl st).isSome
    | some (.acc k t _ _ _) => (s.accBlock c.b.ctx k t).isSome
    | none => false

/-- One lane's window access, in the order of R339: the physical core, or the cause. -/
def State.checkWin (s : State) (c : Cx) (a n : Nat) : Except Nat Nat :=
  if a % n ≠ 0 then .error 0x10
  else match s.winCore c a with
    | .error e => .error e
    | .ok k => if s.winOwned c k a n then .ok k else .error 0x15

def isSpadWin (a : Nat) : Bool := decide (nbits a 29 27 = 0)

/-- R219, R222: a load through the window; scratchpad is read at issue (R153), registers and accumulators when it is performed. -/
def execLdw (x : MemArgs) (s : State) : Host.Outcome State Fault Refusal :=
  s.withGuardN x.g fun c m =>
    let n := MemSize x
    let addr l := c.addrOf s.tick x l
    let (s, rs) := s.checkLanes m fun s l => (s, if s.replaying c.bk then .ok c.b.core else s.checkWin c (addr l) n)
    let fs := faultsOf c (fun l => BitVec.ofNat 64 (addr l)) rs
    let rs := rs.filter fun r => c.follows (maskOf fun l => fs.any fun f => f.1 == l) r.1
    s.splitThen c fs fun s =>
      let accs := (oksOf rs).map fun o => ({ lane := o.1, addr := addr o.1, key := o.2 } : Acc)
      let zeros : List Acc := rs.filterMap fun r => match r.2 with
        | .error _ => if (c.w.lane r.1).isHelper then some { lane := r.1, addr := 0, zero := true } else none
        | .ok _ => none
      let near := (accs.filter fun a => isSpadWin a.addr) ++ zeros
      let far := accs.filter fun a => !isSpadWin a.addr
      let s := if s.replaying c.bk then s else s.sound c.b c.wi (lineReqs accs n false true) 3
      let add (s : State) (now : Bool) (as : List Acc) : State :=
        if as.isEmpty then s
        else match s.loggedLoad c with
          | some (vs, s) => s.addLoad c { c.load s.nextKey .ldw x as with vals := some vs }
          | none =>
            let key := s.nextKey
            let s := s.addLoad c (c.load key .ldw x as)
            if now then s.perform c.bk c.wi key else s
      add (add s true near) false far

/-- R219, R222, R140: a store through the window; scratchpad is written at issue. In re-execution the block's own scratchpad alone is (R311). -/
def execStw (x : MemArgs) (s : State) : Host.Outcome State Fault Refusal :=
  s.withGuardN x.g fun c m =>
    let n := MemSize x
    let tick := s.tick
    let addr l := c.addrOf s.tick x l
    let (s, rs) := s.checkLanes (m &&& ~~~c.w.helpers) fun s l => (s, s.checkWin c (addr l) n)
    s.splitThen c (if s.replaying c.bk then [] else faultsOf c (fun l => BitVec.ofNat 64 (addr l)) rs) fun s =>
      let bytes := (oksOf rs).flatMap fun o => mapFrom 0 (fun i b => ({ lane := o.1, va := addr o.1 + i, key := o.2, b := b } : StByte))
        (c.dataBytes tick o.1 x.dat.toNat n)
      let near := (bytes.filter fun b => isSpadWin b.va).filterMap fun b => (winTgt b.key b.va).map fun t => (t, b.b, b.pois)
      if s.replaying c.bk then s.winStore c.b.ctx none (some c.bk) (near.filter fun e => c.b.holdsTgt e.1)
      else
        let s := s.winStore c.b.ctx none (some c.bk) near
        (s.addStore c { key := s.nextKey, form := .stw, uo := false, bytes := bytes.filter fun b => !isSpadWin b.va }).sound
          c.b c.wi (lineReqs ((oksOf rs).map fun o => ({ lane := o.1, addr := addr o.1, key := o.2 } : Acc)) n false true) 3

/-! ## Fences and cache operations (R225 to R227) -/

/-- R225: orders the thread's accesses; a release waits for the release counter, an acquire invalidates by its scope. In a
replay method it only orders (R294). -/
def execFence (x : MemArgs) (s : State) : Host.Outcome State Fault Refusal :=
  s.withGuard x.g fun c _ =>
    let meth := c.b.replay.isSome
    let scope := if meth then 0 else x.scope.toNat
    let s := if x.ord = 1 then s.performTo c.bk c.wi s.nextKey else s.release c.bk c.wi scope
    if x.ord = 2 then s else s.acquire c.bk scope

/-- R226: each lane's line comes into the L1 and the L2; a lane that cannot have it does nothing. -/
def execPref (x : MemArgs) (s : State) : Host.Outcome State Fault Refusal :=
  s.withGuardN x.g fun c m =>
    let tick := s.tick
    m.list.foldl (fun s l =>
      let a := c.addrOf tick x l
      match s.checkPage c.b.core c.b.ctx a .read with
      | (s, .ok t) =>
        if t.ord = 1 then s
        else
          let acc : Acc := { lane := l, addr := a, key := t.key, key2 := t.key, pa := t.pa, pa2 := t.pa }
          (s.bringAcc c.b.core t.asid c.b.die false acc 1).fillLine c.b.core t.asid c.b.die acc 0
      | (s, .error _) => s) s

/-- R227: the lines of the context's ASID that overlap each lane's range are dropped. -/
def execL1inv (x : MemArgs) (s : State) : Host.Outcome State Fault Refusal :=
  s.withGuardN x.g fun c m =>
    let asid := (s.ctx c.b.ctx).asid
    let rs := m.list.map fun l => (c.addrOf s.tick x l, min (c.addrOf s.tick x l + (c.v s.tick l x.dat.toNat).toNat) (2 ^ 64))
    s.dropL1 c.b.core fun ln => ln.asid == asid && rs.any fun r => decide (r.1 < r.2 ∧ ln.line * 128 < r.2 ∧ r.1 < ln.line * 128 + 128)

/-! ## Completion (R29) and acknowledgement (R157) -/

/-- A completed load reaches its registers: narrow loads are zero-extended; a register to which a window store was performed while the load was
outstanding is left undefined (R140), and so are all of them while others of the scoreboard are outstanding (R29). -/
def Warp.deliver (w : Warp) (ld : PLoad) (vs : List (Nat × List Byte)) : Warp :=
  let n := (ld.size + 3) / 4
  let hit (l r : Nat) : Bool := w.wstores.any fun e => e.undef && e.lane == l && e.reg == r
  let lanes := mapFrom 0 (fun l x => match tget vs l with
    | none => x
    | some bs => (List.range n).foldl (fun (x : Lane) i =>
        let r := ld.dat + i
        if hit l r then { x with v := terase x.v r } else x.setV r (BitVec.ofNat 32 (leNat ((bs.drop (4 * i)).take 4)))) x) w.lanes
  let loads := w.loads.filter fun x => decide (x.key ≠ ld.key)
  { w with lanes := lanes, loads := loads,
           late := if ld.sb < 6 && loads.any (fun x => x.sb == ld.sb)
             then w.late ++ [{ sb := ld.sb, dat := ld.dat, num := n, lanes := maskOf fun l => (tget vs l).isSome }]
             else w.late.filter fun e => e.sb != ld.sb,
           wstores := w.wstores.filter fun e => !(e.undef && decide (ld.dat ≤ e.reg ∧ e.reg < ld.dat + n) && (tget vs e.lane).isSome) }

/-- A load that met poison holds its warp (R372); it is performed again once the report is retired. Where the word in flight issued it, the
word issues it again. -/
def State.loadPoison (s : State) (b : Block) (wi : Nat) (ld : PLoad) (code addr : Nat) : State :=
  match b.replay with
  | some v => s.methodFault b v 0x38 (BitVec.ofNat 64 addr)
  | none =>
    let s := s.modLoad b.key wi ld.key fun x => { x with vals := none, pois := none, held := true }
    let w := b.warp wi
    let at_ := match w.flight with | some f => (f.act, f.pc, f.idx) | none => (0, 0, 0)
    s.hold b wi at_.1 at_.2.1 at_.2.2
      { id := 0, cause := 0x38, kind := 3, fhandle := 0, code := code, aux := BitVec.ofNat 64 addr, block := some b.key, blockId := b.blockId, pc := ld.pc,
        warp := wi, widx := ld.widx, lmask := maskOf fun l => ld.accs.any (fun a => a.lane == l) && !(w.lane l).isHelper,
        lval := [(0, BitVec.ofNat 64 (w.slice * 32 + w.slot)), (1, BitVec.ofNat 64 b.lslot)], cell := some (b.die, b.cell) }

/-- LOAD_COMPLETE (R29): the operation `k` of a warp is performed where it was not, and writes its registers, or holds the warp where it met
poison: not in a clause of a lane class, and once (R372). -/
def execLoadComplete (b w k : Nat) (s : State) : Host.Outcome State Fault Refusal :=
  .next <| match s.block? b with
  | none => s
  | some bl =>
    let wp := bl.warp w
    match wp.loads.find? fun x => decide (x.key = k) with
    | none => s
    | some ld0 =>
      if ld0.held || !bl.resident then s
      else
        let s := s.perform b w k
        match (s.warp b w).loads.find? fun x => decide (x.key = k) with
        | none => s
        | some ld => if ld.vals.isNone then s else match ld.pois with
          | some (code, a) => if wp.held ≠ [] || wp.flight.any (·.whole) then s else s.loadPoison bl w ld code a
          | none =>
            let vs := ld.vals.getD []
            let s := match ld.form with
              | .lds => s
              | .atoms _ => s
              | _ => s.log b (.load w ld.cnt vs)
            s.modWarp b w fun x => x.deliver ld vs

/-- STORE_ACK (R157): the store `k` of a warp reaches its home, and the release counter falls. -/
def execStoreAck (b w k : Nat) (s : State) : Host.Outcome State Fault Refusal := .next (s.ackStore b w k)

end Sys2Proof.Machine
end

