-- ==== Sys2Proof/Machine/Fetch.lean ====
section
/-! DEFINITION. Instruction words through the instruction cache (R184, R356), and the packets of the instruction trace (R314,
R315). -/

namespace Sys2Proof.Machine

/-! ## Instruction words -/

def Core.iFind (k : Core) (asid line : Nat) : Option ILine := k.icache.find? fun x => x.asid == asid && x.line == line

/-- A fill; a full cache of 256 KiB gives up one of its lines, which one the spec leaves open (R11). -/
def Core.iInsert (k : Core) (tick : Nat) (x : ILine) : Core :=
  { k with icache := (if k.icache.length < Config.icLines then k.icache else k.icache.eraseIdx (Config.icVictim tick % k.icache.length)) ++ [x] }

/-- A word of code: from the held line, without translation (R356), or through the page and the L2. The cause of R356.
An address that is no multiple of 4 names the four bytes at it (log 116). -/
def State.fetchWord (s : State) (core c die va : Nat) : State × Except Nat Word :=
  if !canonical va then (s, .error 0x11)
  else
    let asid := (s.ctx c).asid
    match (s.core core).iFind asid (va / 128) with
    | some x => (s, .ok (BitVec.ofNat 32 (leNat ((x.data.drop (va % 128)).take 4))))
    | none => match s.checkPage core c va .exec with
      | (s, .error e) => (s, .error e)
      | (s, .ok t) =>
        let key := t.key + va % 65536 / 128 * 128
        let s := s.l2Line die key
        let data := s.l2Bytes die key 128
        (s.modCore core fun k => k.iInsert s.tick { asid := asid, line := va / 128, data := data },
         .ok (BitVec.ofNat 32 (leNat ((data.drop (va % 128)).take 4))))

/-- Consecutive words, or the first failing address and its cause. -/
def State.fetchWords (s : State) (core c die va : Nat) : Nat → State × Except (Nat × Nat) (List Word)
  | 0 => (s, .ok [])
  | n + 1 => match s.fetchWord core c die va with
    | (s, .error e) => (s, .error (e, va))
    | (s, .ok w) => match s.fetchWords core c die ((va + 4) % 2 ^ 64) n with
      | (s, .error e) => (s, .error e)
      | (s, .ok ws) => (s, .ok (w :: ws))

/-- A whole clause, from its header to its last word (R356). -/
def State.fetchClause (s : State) (core c die va : Nat) : State × Except (Nat × Nat) (Word × List Word) :=
  match s.fetchWord core c die va with
  | (s, .error e) => (s, .error (e, va))
  | (s, .ok h) => match s.fetchWords core c die ((va + 4) % 2 ^ 64) (Header.ofWord h).nw with
    | (s, .error e) => (s, .error e)
    | (s, .ok ws) => (s, .ok (h, ws))

/-- A target of JMPI, CSW, RREAD or a resumption after FRGSET.PC is accepted (R229): a multiple of 4 on an executable page
whose header has LAND. -/
def State.landOk (s : State) (core c die va : Nat) : State × Bool :=
  if va % 4 ≠ 0 then (s, false)
  else match s.checkPage core c va .exec with
    | (s, .error _) => (s, false)
    | (s, .ok _) => match s.fetchWord core c die va with
      | (s, .ok w) => (s, w.getLsbD 2)
      | (s, .error _) => (s, false)

/-! ## The instruction trace -/

/-- Bytes at the position of the trace ring, with the settings of the block's last clause boundary (R306); none where the ring does not take
them. -/
def State.traceWrite (s : State) (b : Block) (bs : List Byte) : Option State :=
  let tr := (s.ctx b.ctx).trace
  let size := b.dbg.trcsz.toNat * 65536
  if size = 0 then none
  else
    let base := b.dbg.trcbase.toNat / 65536 * 65536
    let off := tr.pos % size
    let n := size - off
    match s.devWrite b.ctx b.die (base + off) (bs.take n) with
    | (_, some _) => none
    | (s, none) => match (if bs.length ≤ n then (s, none) else s.devWrite b.ctx b.die base (bs.drop n)) with
      | (_, some _) => none
      | (s, none) => some <| s.modCtx b.ctx fun x => { x with trace := { x.trace with
          pos := tr.pos + bs.length,
          synced := if (tr.pos + bs.length) / 4096 = tr.pos / 4096 then x.trace.synced else [] } }

def blockPacket (s : State) (b : Block) : List Byte :=
  leBytes 4 6 ++ leBytes 4 b.blockId.toNat ++ leBytes 4 (((s.grids.find? fun g => g.key == b.grid).map (·.num)).getD 0) ++ leBytes 4 0

def syncPacket (b : Block) (wi f : Nat) (pc : DWord) : List Byte :=
  leBytes 4 (1 + f * 2 ^ 8 + wi * 2 ^ 16) ++ leBytes 4 b.blockId.toNat ++ leBytes 8 pc.toNat

def State.modTrace (s : State) (c : Nat) (f : Trace → Trace) : State := s.modCtx c fun x => { x with trace := f x.trace }

/-- A BLOCK packet; one that reaches into another 4,096 bytes is written again, so that a SYNC after it follows one there too (R315). -/
def State.writeBlock (s : State) (b : Block) : Option State :=
  let once (s : State) : Option State := (s.traceWrite b (blockPacket s b)).map fun s => s.modTrace b.ctx fun x => { x with last := some b.key }
  (once s).bind fun t => if (t.ctx b.ctx).trace.pos / 4096 = (s.ctx b.ctx).trace.pos / 4096 then some t else once t

/-- The BLOCK and SYNC packets that must stand before a fragment's next packet (R314, R315). -/
def State.syncFrag (s : State) (b : Block) (wi f : Nat) (pc : DWord) : Option State :=
  let has (s : State) : Bool := (s.ctx b.ctx).trace.synced.contains (b.key, wi, f)
  let one := if has s && decide ((s.ctx b.ctx).trace.last = some b.key) then some s else s.writeBlock b
  one.bind fun s => if has s then some s
    else (s.modTrace b.ctx fun x => { x with synced := x.synced ++ [(b.key, wi, f)] }).traceWrite b (syncPacket b wi f pc)

/-- A packet of a fragment, after the packets that must stand before it: the LOST of those that were dropped, BLOCK and SYNC; a SYNC that
crosses 4,096 bytes is followed by another. None where the ring does not take all of them. -/
def State.emitAll (s : State) (b : Block) (wi f : Nat) (pc : DWord) (pkt : List Byte) : Option State :=
  let lost := (s.ctx b.ctx).trace.lost
  (if lost = 0 then some s
    else (s.traceWrite b (leBytes 4 (5 + min lost (2 ^ 24 - 1) * 2 ^ 8))).map fun s => s.modTrace b.ctx fun x => { x with lost := 0 }).bind fun s =>
  (s.syncFrag b wi f pc).bind fun s => (s.syncFrag b wi f pc).bind fun s => s.traceWrite b pkt

/-- A packet of a fragment is written, or dropped and counted. A replay invocation, which has no block, writes none (log 121). -/
def State.emit (s : State) (b : Block) (wi f : Nat) (pc : DWord) (pkt : List Byte) : State :=
  if !b.dbg.trc || b.replay.isSome || s.replaying b.key then s
  else match s.emitAll b wi f pc pkt with
    | some t => t
    | none => s.modTrace b.ctx fun x => { x with lost := x.lost + 1 }

/-- The fragments of the lanes of a mask. -/
def Warp.fragsOf (w : Warp) (m : Mask) : List Nat := ((m.list.filter fun l => (w.lane l).isReal).map fun l => (w.lane l).frag).eraseDups

def clausePacket (wi f nw : Nat) : List Byte := leBytes 4 (2 + f * 2 ^ 8 + wi * 2 ^ 11 + (nw + 1) * 2 ^ 16)

def targetPacket (wi f off : Nat) : List Byte := leBytes 4 (3 + f * 2 ^ 8 + wi * 2 ^ 11) ++ leBytes 4 off

def markPacket (wi f id : Nat) (v : Word) : List Byte := leBytes 4 (4 + id * 2 ^ 8 + wi * 2 ^ 16 + f * 2 ^ 21) ++ leBytes 4 v.toNat

/-- CodeBase (R230, R293). -/
def Block.offsetOf (b : Block) (pc : DWord) : Word := (pc - b.codeBase).setWidth 32

/-- The TARGET packets of a taken transfer: one for each fragment and target, where the fragment began its clause under trace (R306, R315). -/
def State.traceTargets (s : State) (c : Cx) (m : Mask) (t : Nat → DWord) : State :=
  if !c.b.dbg.trc then s
  else
    let ts := ((m.list.filter fun l => (c.w.lane l).isReal && (c.w.lane l).traced).map fun l => ((c.w.lane l).frag, t l)).eraseDups
    ts.foldl (fun s x => s.emit c.b c.wi x.1 c.fl.pc (targetPacket c.wi x.1 (c.b.offsetOf x.2).toNat)) s

/-- A taken control transfer: the lanes leave the clause for their targets, helper lanes with their leaders (R39). -/
def State.goTo (s : State) (c : Cx) (m : Mask) (t : Nat → DWord) : State :=
  (((s.modMask c.bk c.wi m fun l x => { x with pc := t l, widx := 0 }).leave c m).syncHelpers c.bk).traceTargets c m t

/-- The lanes of a mask whose target is not accepted; none in re-execution (R311). -/
def State.badTargets (s : State) (c : Cx) (m : Mask) (t : Nat → DWord) : State × List Nat :=
  if s.replaying c.bk then (s, []) else m.list.foldl (fun p l =>
    let (s, ok) := p.1.landOk c.b.core c.b.ctx c.b.die (t l).toNat
    (s, if ok then p.2 else p.2 ++ [l])) (s, [])

end Sys2Proof.Machine
end

