-- ==== Sys2Proof/Machine/Ctl.lean ====
section
/-! DEFINITION. CTL instructions (R45 to R50, R56, R228 to R236), and the end of their waits. -/

namespace Sys2Proof.Machine

/-! ## Branches, calls and exit -/

/-- R228: guarded lanes go to the clause at a signed word offset from the BRA's header. -/
def execBra (g : Guard) (off : BitVec 22) (s : State) : Host.Outcome State Fault Refusal :=
  s.withGuard g fun c m => s.goTo c m fun _ => c.fl.pc + (off.signExtend 64 <<< 2)

/-- R229: guarded lanes go to CodeBase plus their operand; a bad target is the jump-target fault. -/
def execJmpi (g : Guard) (a : Src) (s : State) : Host.Outcome State Fault Refusal :=
  s.withGuard g fun c m =>
    let t (l : Nat) : DWord := c.b.codeBase + (c.src s.tick a l).setWidth 64
    let (s, bad) := s.badTargets c (m &&& ~~~c.w.helpers) t
    s.splitThen c (bad.map fun l => (l, 0x17, t l)) fun s => s.goTo c (m &&& ~~~c.w.helpers &&& ~~~maskOf bad.contains) t

/-- R56, R229: guarded lanes exchange resume point and frame pointer with an even V pair and jump; a helper lane does so exactly where its
leader does (R39). -/
def execCsw (g : Guard) (a : Src) (s : State) : Host.Outcome State Fault Refusal :=
  s.withGuard g fun c m =>
    let k := match a with | .v r => r.toNat | _ => 0
    let tick := s.tick
    let t (l : Nat) : DWord := c.b.codeBase + (c.v tick l k).setWidth 64
    let (s, bad) := s.badTargets c (m &&& ~~~c.w.helpers) t
    s.splitThen c (bad.map fun l => (l, 0x17, t l)) fun s =>
      let go := m &&& ~~~c.w.helpers &&& ~~~maskOf bad.contains
      let s := s.modMask c.bk c.wi (c.w.withHelpers go) fun l x =>
        { (x.setV k (c.b.offsetOf c.fl.succ)).setV (k + 1) x.fp with fp := c.v tick l (k + 1) }
      s.goTo c go t

/-- R231: each guarded real thread ends. -/
def execExitI (g : Guard) (s : State) : Host.Outcome State Fault Refusal :=
  s.withGuard g fun c m => (s.exitThreads c.b c.wi (m &&& ~~~c.w.helpers)).settle c.bk

/-! ## Reconvergence barriers (R45, R46, R232) -/

/-- R45, R232: MASK becomes the executing threads whose guard holds, be they none; waiters outside it are released, timed ones with the
expiry indication. -/
def execBset (g : Guard) (bn : BitVec 4) (s : State) : Host.Outcome State Fault Refusal :=
  s.withCx fun c =>
    let n := bn.toNat
    let mask := c.guarded s.tick g &&& ~~~c.w.helpers
    let waits := maskOf fun l => (c.w.lane l).isReal && (c.w.lane l).waitsOnB n
    let out := c.w.withHelpers (waits &&& ~~~mask)
    let s := s.timedPair c.bk c.wi n out false
    let s := s.modMask c.bk c.wi out fun _ x => x.release
    (s.modWarp c.bk c.wi fun w => { w with bars := tset w.bars n { mask := mask, arr := waits &&& mask } }).settle c.bk

/-- The arrival and wait shared by both forms of BWAIT, a release at WARP scope (R155). -/
def State.bwaitOn (s : State) (c : Cx) (m : Mask) (n : Nat) (wt : Wait) : State :=
  let br := tgetD c.w.bars n {}
  let go := m &&& br.mask &&& ~~~c.w.helpers
  if go.none then s
  else
    let s := (s.release c.bk c.wi 0).startWait c (c.w.withHelpers go) wt
    (s.modWarp c.bk c.wi fun w => { w with bars := tset w.bars n { br with arr := br.arr ||| go } }).settle c.bk

/-- R45: threads of MASK arrive and wait until the barrier is done; the others pass. -/
def execBwait (g : Guard) (bn : BitVec 4) (s : State) : Host.Outcome State Fault Refusal :=
  s.withGuard g fun c m => s.bwaitOn c m bn.toNat (.bwait bn.toNat)

/-- R46: the timed form. -/
def execBwaitTimed (g : Guard) (bn : BitVec 4) (pp : BitVec 4) (count : Word) (s : State) : Host.Outcome State Fault Refusal :=
  s.withGuard g fun c m => s.bwaitOn c m bn.toNat (.bwaitTimed bn.toNat pp.toNat count.toNat)

/-- R45: the executing threads leave MASK and ARR. -/
def execBclr (g : Guard) (bn : BitVec 4) (s : State) : Host.Outcome State Fault Refusal :=
  s.withGuard g fun c m =>
    (s.modWarp c.bk c.wi fun w =>
      let br := tgetD w.bars bn.toNat {}
      { w with bars := tset w.bars bn.toNat { mask := br.mask &&& ~~~m, arr := br.arr &&& ~~~m } }).settle c.bk

/-- Threads of timed waits on Bn are released with the expiry indication, and have not arrived (R46). -/
def State.expire (s : State) (bk wi n : Nat) (m : Mask) : State :=
  let s := (s.timedPair bk wi n m false).modMask bk wi m fun _ x => x.release
  (s.modWarp bk wi fun x =>
    let br := tgetD x.bars n {}
    { x with bars := tset x.bars n { br with arr := br.arr &&& ~~~m } }).log bk (.expire wi n m)

/-- BWAIT_TIMEOUT (R46, R180): the threads of the warp whose count has expired are released with the expiry indication, once the words of the
cycle of its expiry have run: an arrival in that cycle wins. -/
def execBwaitTimeout (b w : Nat) (s : State) : Host.Outcome State Fault Refusal :=
  .next <| match s.block? b with
  | none => s
  | some bl =>
    let wp := bl.warp w
    if !bl.resident || s.replaying b then s
    else
      let due (x : Lane) : Option Nat := match x.st with
        | .waiting (.bwaitTimed n _ count) => if count < x.waitClk then some n else none
        | _ => none
      (forN 16 (fun n s =>
        let m := maskOf fun l => due (wp.lane l) == some n
        if m.none then s else s.expire b w n m) s).settle b

/-! ## Block and cluster barriers (R48, R49, R233) -/

def BBar.arrive (x : BBar) (nw wi : Nat) (m : Mask) : BBar :=
  { x with arr := (List.range nw).map fun i => if i = wi then x.arr.getD i 0 ||| m else x.arr.getD i 0 }

/-- An arrival at block barrier `i`, a release at BLOCK scope. -/
def State.arriveBar (s : State) (c : Cx) (m : Mask) (i : Nat) : State :=
  (s.release c.bk c.wi 1).modBlock c.bk fun b => { b with bars := tmod b.bars i {} fun x => x.arrive b.warps.length c.wi m }

/-- An arrival at cluster barrier `j`, a release at CELL scope. -/
def State.arriveCbar (s : State) (c : Cx) (m : Mask) (j : Nat) : State :=
  (s.release c.bk c.wi 2).modBlock c.bk fun b => { b with cbars := tmod b.cbars j {} fun x => x.arrive b.warps.length c.wi m }

/-- R233: arrive at a block barrier and wait. -/
def execBar (g : Guard) (id : BitVec 4) (s : State) : Host.Outcome State Fault Refusal :=
  s.withGuardN g fun c m =>
    let go := m &&& ~~~c.w.helpers
    if go.none then s
    else ((s.arriveBar c go id.toNat).startWait c (c.w.withHelpers go) (.bar id.toNat)).settle c.bk

/-- R233: arrive without waiting. -/
def execBarArv (g : Guard) (id : BitVec 4) (s : State) : Host.Outcome State Fault Refusal :=
  s.withGuardN g fun c m => (s.arriveBar c (m &&& ~~~c.w.helpers) id.toNat).settle c.bk

/-- R233: arrive at a cluster barrier and wait. -/
def execCbar (g : Guard) (id : BitVec 3) (s : State) : Host.Outcome State Fault Refusal :=
  s.withGuardN g fun c m =>
    let go := m &&& ~~~c.w.helpers
    if go.none then s
    else ((s.arriveCbar c go id.toNat).startWait c (c.w.withHelpers go) (.cbar id.toNat)).settle c.bk

/-- R233: arrive at a cluster barrier without waiting. -/
def execCbarArv (g : Guard) (id : BitVec 3) (s : State) : Host.Outcome State Fault Refusal :=
  s.withGuardN g fun c m => (s.arriveCbar c (m &&& ~~~c.w.helpers) id.toNat).settle c.bk

/-! ## Waits (R234, R235) -/

/-- Threads of a warp that wait on something that now holds are released; helper lanes with their leaders. -/
def State.releaseIf (s : State) (bk wi : Nat) (p : Wait → Bool) : State :=
  (s.modWarp bk wi fun w => { w with lanes := w.lanes.map fun x => match x.st with
    | .waiting t => if p t then x.release else x
    | _ => x }).syncHelpers bk

/-- The threads of `m` begin a wait at the word in flight, helper lanes with their leaders. -/
def State.waitHere (s : State) (c : Cx) (m : Mask) (wt : Wait) : State :=
  (s.startWait c (c.w.withHelpers (m &&& ~~~c.w.helpers)) wt).syncHelpers c.bk

/-- A wait on something outside the block: `pass` where it need not begin. In re-execution it begins where it did (R311). -/
def State.waitUnless (s : State) (c : Cx) (m : Mask) (wt : Wait) (pass : Option State) : State :=
  match s.waitLogged c with
  | some s => s.waitHere c m wt
  | none =>
    if s.replaying c.bk then s
    else match pass with
      | some t => t
      | none => (s.logWait c).waitHere c m wt

def State.twaitOn (s : State) (c : Cx) (m : Mask) (k n : Nat) : State :=
  s.waitUnless c m (.twait k n) (if n ≤ (c.b.eng k).level then some (s.acquire c.bk (c.b.eng k).scope) else none)

/-- R234: wait until a context's level reaches the value of an S pair. -/
def execTwait (g : Guard) (ec : BitVec 3) (n : Src) (s : State) : Host.Outcome State Fault Refusal :=
  s.withGuardN g fun c m => s.twaitOn c m ec.toNat (c.opS64 s.tick n).toNat

/-- R234: the form with an immediate value. -/
def execTwaitImm (g : Guard) (ec : BitVec 3) (val : Word) (s : State) : Host.Outcome State Fault Refusal :=
  s.withGuardN g fun c m => s.twaitOn c m ec.toNat val.toNat

/-- The test of WAITW (R179) on a word of `n` bytes. -/
def waitwTest (cmp : BitVec 3) (n : Nat) (word v : Nat) : Bool :=
  match cmp.toNat with
  | 0 => decide (word = v)
  | 1 => decide (word ≠ v)
  | 2 => decide (v ≤ word)
  | 3 => decide (word < v)
  | 4 => decide (sint (8 * n) v ≤ sint (8 * n) word)
  | _ => decide (sint (8 * n) word < sint (8 * n) v)

/-- The word that a WAITW of this block reads through the L2, after the core's own stores to it; an older copy of its line leaves the L1, so
that no later load reads it (R149). -/
def State.watchRead (s : State) (b : Block) (a n key : Nat) : State × List Byte :=
  let s := (s.flushOverlap b.core (s.ctx b.ctx).asid a n).l2Line b.die key
  let s := s.dropL1 b.core fun x => x.asid == (s.ctx b.ctx).asid && x.line == a / 128
  (s, s.l2Bytes b.die key n)

/-- VAL: an S code, zero, or an immediate sign-extended to the word's width. -/
def Cx.waitVal (c : Cx) (tick : Nat) (x : WaitwArgs) : DWord :=
  match x.val with
  | .imm v => if x.w64 then v.signExtend 64 else v.setWidth 64
  | v => if x.w64 then c.opS64 tick v else (c.opS tick v).setWidth 64

/-- The older loads of the word by the threads that wait for it are performed first (R149). -/
def State.forceWord (s : State) (c : Cx) (m : Mask) (a n : Nat) : State :=
  s.forceLoads c (m.list.flatMap fun l => (List.range n).map fun i => { lane := l, va := a + i, key := 0, b := 0 })

/-- R235: wait until a global word meets a comparison; the read that finds it true may be an acquire. -/
def execWaitw (x : WaitwArgs) (s : State) : Host.Outcome State Fault Refusal :=
  s.withGuardN x.g fun c m =>
    let go := m &&& ~~~c.w.helpers
    let n := if x.w64 then 8 else 4
    let a := (c.opS64 s.tick x.adr).toNat
    let v := (c.waitVal s.tick x).toNat
    let wt (ord : Nat) : Wait :=
      .waitw a (BitVec.ofNat 64 v) x.cmp x.w64 (x.acq || decide (ord = 1)) (if ord = 1 then 5 else x.scope) false
    if go.none then s
    else if s.replaying c.bk then
      match s.waitLogged c with
      | some s => s.waitHere c go (wt (match (s.checkGlobal c a n .read true false).2 with | .ok p => p.1.ord | .error _ => 0))
      | none => s
    else match s.checkGlobal c a n .read true false with
        | (s, .error e) => s.laneTrap c go { cause := e, lcause := go.list.map fun l => (l, e), lval := go.list.map fun l => (l, BitVec.ofNat 64 a) }
        | (s, .ok p) =>
          let acq := x.acq || decide (p.1.ord = 1)
          let scope : BitVec 3 := if p.1.ord = 1 then 5 else x.scope
          let key := byteKey p.1 p.2 a 0
          let (s, bs) := (s.forceWord c go a n).watchRead c.b a n key
          if s.l2Pois c.b.die key then s.consume c.bk c.wi c.fl.act c.fl.pc c.fl.idx (poisAt s.tick key (p.1.pa + a % 65536)).1
              (poisAt s.tick key (p.1.pa + a % 65536)).2 c.takers
          else if waitwTest x.cmp n (leNat bs) v then
            let s := s.log c.bk (.waitw c.wi c.w.wcnt bs)
            if acq then s.acquire c.bk scope.toNat else s
          else (s.logWait c).waitHere c go (wt p.1.ord)

/-- A WAITW of a block tested again: none where its word cannot be read now. Poison is met at the word. -/
def State.waitwNow (s : State) (b : Block) (wt : Wait) : State × Option (Bool × Option (Nat × Nat) × List Byte) :=
  match wt with
  | .waitw a v cmp w64 _ _ _ =>
    let n := if w64 then 8 else 4
    match s.checkPage b.core b.ctx a .read with
    | (s, .error _) => (s, none)
    | (s, .ok t) =>
      let key := t.key + a % 65536
      let (s, bs) := s.watchRead b a n key
      (s, some (waitwTest cmp n (leNat bs) v.toNat,
        if s.l2Pois b.die key then some (poisAt s.tick key (t.pa + a % 65536)) else none, bs))
  | _ => (s, none)

/-- The waits for memory of a warp. -/
def Warp.watches (w : Warp) : List Wait :=
  (w.lanes.filterMap fun x => match x.st with
    | .waiting (.waitw a v c w64 q sc k) => if x.isReal then some (.waitw a v c w64 q sc k) else none
    | _ => none).eraseDups

/-- WAITW_RELEASE (R235): the threads whose test now holds are released with the final read; a poisoned word holds the warp, once no clause
of a lane class is in flight (R372). -/
def execWaitwRelease (b w : Nat) (s : State) : Host.Outcome State Fault Refusal :=
  .next <| match s.block? b with
  | none => s
  | some bl =>
    if !bl.resident || (bl.warp w).held ≠ [] || s.replaying b then s
    else (bl.warp w).watches.foldl (fun s wt => match s.waitwNow bl wt with
      | (s, some (true, none, bs)) =>
        let s := s.log b (.waitw w (bl.warp w).wcnt bs)
        let s := s.releaseIf b w (· == wt)
        (match wt with
          | .waitw _ _ _ _ true scope _ => s.acquire b scope.toNat
          | _ => s)
      | (s, some (_, some at_, _)) =>
        if (bl.warp w).flight.any (·.whole) then s
        else
        let fl := match (bl.warp w).flight with | some f => (f.act, f.pc, f.idx) | none => (0, 0, 0)
        let m := maskOf fun l => ((bl.warp w).lane l).wait? == some wt
        let x := (bl.warp w).lane ((m.list.head?).getD 0)
        let t : Trap := { id := 0, cause := 0x38, kind := 3, fhandle := 0, code := at_.1, block := some b, blockId := bl.blockId, pc := x.pc, warp := w,
                          widx := x.widx, lmask := m, aux := BitVec.ofNat 64 at_.2,
                          lval := [(0, BitVec.ofNat 64 ((bl.warp w).slice * 32 + (bl.warp w).slot)), (1, BitVec.ofNat 64 bl.lslot)],
                          cell := some (bl.die, bl.cell) }
        s.hold bl w fl.1 fl.2.1 fl.2.2 t
      | (s, _) => s) s

/-- WAITW_POLL (R88, R360): the Wellhead reads a watched host or peer word again: its die gives up the line, and the test is
made anew. -/
def execWaitwPoll (b w : Nat) (s : State) : Host.Outcome State Fault Refusal :=
  match s.block? b with
  | none => .next s
  | some bl =>
    let s := (bl.warp w).watches.foldl (fun s wt => match wt with
      | .waitw a _ _ _ _ _ _ => match s.resolve (s.ctx bl.ctx) a with
        | (s, some t) => if isOutside t.key then s.dropHLines fun h => h.line == (t.key + a % 65536) / 128 else s
        | (s, none) => s
      | _ => s) s
    execWaitwRelease b w s

/-! ## YIELD and NOP (R236) -/

/-- R236: the group becomes the most recently issued, and the clause ends as if YLD were set. -/
def execYieldI (g : Guard) (s : State) : Host.Outcome State Fault Refusal :=
  s.withGuard g fun c _ =>
    let s := s.modMask c.bk c.wi c.fl.act fun _ x => { x with stamp := some s.tick, pc := c.fl.succ, widx := 0 }
    s.modFlight c.bk c.wi fun f => { f with act := 0, yld := true }

/-- R236: nothing, in any lane. -/
def execNop (_g : Guard) (s : State) : Host.Outcome State Fault Refusal := s.withCx fun _ => s

end Sys2Proof.Machine
end

