-- ==== Sys2Proof/Machine/Eng.lean ====
section
/-! DEFINITION. Engines: their accesses (R258, R262, R371), the issue of commands (R57, R58, R257), engine faults (R260,
R350), levels, and the waits that what they do releases. -/

namespace Sys2Proof.Machine

/-! ## Engine accesses by space (R258): 0 global, 1 scratchpad, 2 window -/

/-- A command's block seen as an issuer, with the place table of the issue. -/
def Block.asCx (b : Block) (wi : Nat) (pl : Place) : Cx :=
  { bk := b.key, wi := wi, b := { b with place := pl }, w := b.warp wi,
    fl := { pc := 0, cls := .eng, ext := 0, words := [], idx := 0, act := 0, yld := false } }

def Block.spadPByte (b : Block) (tick i : Nat) : PByte := (b.spadByte tick i, b.spadPois.contains (i / 4))

/-- The first byte of a range that lies outside the block's scratchpad. -/
def Block.spadEdge (b : Block) (a : Int) : Nat := addr64 (if a < 0 then a else max a b.spSize)

/-- The check of a range of window bytes: their cores, or the first that fails with its cause. -/
def State.winBytes (s : State) (c : Cx) (va n : Nat) : Except (Nat × Nat) (List Nat) :=
  (List.range n).foldr (fun i r => match s.checkWin c ((va + i) % 2 ^ 64) 1 with
    | .error e => .error (e, (va + i) % 2 ^ 64)
    | .ok k => r.map (k :: ·)) (.ok [])

/-- A read of an engine: the bytes with their poison, or the cause of R218 and the first address that fails. -/
def State.engRead (s : State) (b : Block) (cmd : Cmd) (sp : Nat) (a : Int) (n : Nat) :
    State × Except (Nat × Nat) (List PByte) :=
  match sp with
  | 0 =>
    let va := addr64 a
    match s.devRange b.ctx va n .read with
    | (s, .error e) => (s, .error e)
    | (s, .ok (p, q)) =>
      let s := (s.l2Lines b.die (byteKey p q va 0) 1).l2Lines b.die (byteKey p q va (n - 1)) 1
      (s, .ok ((List.range n).map fun i => (s.l2Byte b.die (byteKey p q va i), s.l2Pois b.die (byteKey p q va i))))
  | 1 =>
    if a < 0 ∨ (b.spSize : Int) < a + n then (s, .error (0x14, b.spadEdge a))
    else (s, .ok ((List.range n).map fun i => b.spadPByte s.tick (a.toNat + i)))
  | _ =>
    let va := addr64 a
    match s.winBytes (b.asCx cmd.warp cmd.place) va n with
    | .error e => (s, .error e)
    | .ok ks => (s, .ok (mapFrom 0 (fun i k => match (winTgt k (va + i)).bind (s.winGet b.ctx (some (b.core, cmd.seq))) with
        | some (v, p) => (v, p.isSome)
        | none => (Config.freeByte s.tick i, false)) ks))

/-- The L1 lines of the command's block that hold written bytes are dropped, while it has a core (R156). -/
def State.dropWritten (s : State) (b : Block) (va n : Nat) : State :=
  if b.mv ≠ .stowed ∧ b.mv ≠ .saved then
    s.dropL1 b.core fun x => x.asid == (s.ctx b.ctx).asid && decide (x.line * 128 < va + n ∧ va < x.line * 128 + 128)
  else s

def inRanges (rs : List (Nat × Nat)) (i : Nat) : Bool := rs.any fun r => decide (r.1 ≤ i ∧ i < r.1 + r.2)

/-- The storage of the bytes that an engine writes to elements of global memory. -/
def State.engKeys (s : State) (b : Block) : List (Int × List PByte) → State × Except (Nat × Nat) (List (Nat × PByte))
  | [] => (s, .ok [])
  | e :: es => match s.devRange b.ctx (addr64 e.1) e.2.length .write with
    | (s, .error x) => (s, .error x)
    | (s, .ok (p, q)) => match s.engKeys b es with
      | (s, .error x) => (s, .error x)
      | (s, .ok r) => (s, .ok (mapFrom 0 (fun i x => (byteKey p q (addr64 e.1) i, x)) e.2 ++ r))

/-- The targets of the bytes that an engine writes to elements in the window. -/
def State.engWins (s : State) (c : Cx) : List (Int × List PByte) → Except (Nat × Nat) (List (WinTgt × PByte))
  | [] => .ok []
  | e :: es => match s.winBytes c (addr64 e.1) e.2.length with
    | .error x => .error x
    | .ok ks => (s.engWins c es).map fun r =>
        (mapFrom 0 (fun i (p : Nat × PByte) => (winTgt p.1 (addr64 e.1 + i)).map fun t => (t, p.2)) (ks.zip e.2)).filterMap id ++ r

/-- The elements that one iteration of an engine writes, each at its address, as one write (R371); or the cause of R218 and the first address
that fails, and then none is written (log 40). In the image of a block that is away only what was saved is written. -/
def State.engWriteEls (s : State) (b : Block) (cmd : Cmd) (sp : Nat) (es : List (Int × List PByte)) :
    State × Option (Nat × Nat) :=
  match sp with
  | 0 => match s.engKeys b es with
    | (s, .error x) => (s, some x)
    | (s, .ok bs) =>
      let s := s.l2Write b.die (bs.map fun e => (e.1, e.2.1, e.2.2))
      let s := es.foldl (fun s e => s.dropWritten b (addr64 e.1) e.2.length) s
      (s.foreignStore none (bs.map (·.1)), none)
  | 1 => match es.find? fun e => decide (e.1 < 0 ∨ (b.spSize : Int) < e.1 + e.2.length) with
    | some e => (s, some (0x14, b.spadEdge e.1))
    | none =>
      let bs := es.flatMap fun e => mapFrom 0 (fun i x => (e.1.toNat + i, x)) e.2
      (s.modBlock b.key fun y => y.takeSpad true (bs.filter fun e =>
        y.resident || y.mv == .stowing || y.mv == .restoring || inRanges y.image e.1), none)
  | _ => match s.engWins (b.asCx cmd.warp cmd.place) es with
    | .error x => (s, some x)
    | .ok bs => (s.winStore b.ctx (some (b.core, cmd.seq)) none bs, none)

/-- A write of consecutive bytes. -/
def State.engWrite (s : State) (b : Block) (cmd : Cmd) (sp : Nat) (a : Int) (bs : List PByte) : State × Option (Nat × Nat) :=
  s.engWriteEls b cmd sp [(a, bs)]

/-- An address of an element of `w` bytes fails by its alignment: one of global memory that is not canonical fails by that first (R339). -/
def alignBad (sp w : Nat) (a : Int) : Bool := decide (a % (w : Int) ≠ 0) && (sp != 0 || canonical (addr64 a))

/-- Elements of `w` bytes read one after another: their bytes, or the first address that fails with its cause. -/
def State.engReadEls (s : State) (b : Block) (cmd : Cmd) (sp w : Nat) : List Int → State × Except (Nat × Nat) (List PByte)
  | [] => (s, .ok [])
  | a :: as => match s.engRead b cmd sp a w with
    | (s, .error e) => (s, .error e)
    | (s, .ok bs) => match s.engReadEls b cmd sp w as with
      | (s, .error e) => (s, .error e)
      | (s, .ok cs) => (s, .ok (bs ++ cs))

/-- The addresses of `rows` rows of `cols` elements. -/
def elAddrs (a : Int) (pitch w rows cols : Nat) : List Int :=
  (List.range rows).flatMap fun r => (List.range cols).map fun c => a + (r * pitch + c * w : Nat)

/-! ## Descriptors (R258) -/

/-- `n` bytes of the block's scratchpad at an offset aligned to 64, or none where the issue check fails. -/
def State.descAt (s : State) (bk off n : Nat) : Option Nat :=
  match s.block? bk with
  | none => none
  | some b => if off % 64 ≠ 0 ∨ b.spSize < off + n then none else some (leNat ((List.range n).map fun i => b.spadByte s.tick (off + i)))

/-! ## Waits that end by executing the word again, or at once (R254) -/

/-- The ring words of a home block: RCFG, HEAD, slot words (R265). -/
def Block.ringWord (b : Block) (tick off i : Nat) : Nat := leNat ((List.range 4).map fun j => b.spadByte tick (off + 4 * i + j))

def Block.slotWord (b : Block) (tick off k : Nat) : Nat := b.ringWord tick off (16 + k)

/-- RINGP may claim the slot at HEAD (R266, R86). -/
def Block.ringFree (b : Block) (tick off : Nat) : Bool :=
  decide (nbits (b.slotWord tick off (b.ringWord tick off 2 % 16)) 6 0 = 0) && !b.boosts.contains off

/-- Fewer than 256 commands of the context are issued and not yet complete, which the level tells (R57, R58). -/
def Eng.room (e : Eng) : Bool := decide (e.top - e.level < 256)

/-- A rendezvous latch of a core is free (R62); those of a block that is shown in its past stay its own. -/
def State.latchFree (s : State) (core i : Nat) : Bool :=
  (tget (s.core core).latches i).isNone && !s.recordings.any fun r => r.present.any fun p => decide (p.core = core) && (tget p.latches i).isSome

/-- A free rendezvous latch of a core, for a block; one that re-executes had one then, and takes none now (log 37). -/
def State.freeLatch (s : State) (core : Nat) (past : Bool) : Option Nat :=
  if past then some (freePast (s.core core).latches 4) else firstIdx 4 (s.latchFree core)

/-- A wait whose condition holds now. `WAITW`, barriers and rendezvous are tested where they change. -/
def State.waitHolds (s : State) (b : Block) (wt : Wait) : Bool :=
  match wt with
  | .twait k n => decide (n ≤ (b.eng k).level)
  | .rwait desc pos => match s.robj? b.ctx desc with
    | some o => decide (pos < o.applied.getD (s.logicalDie b.die) 0) && !o.broken.getLsbD (s.logicalDie b.die)
    | none => false
  | .rread desc catchUp _ _ _ _ => match s.robj? b.ctx desc with
    | some o => decide (catchUp ≤ o.applied.getD (s.logicalDie b.die) 0) && !o.broken.getLsbD (s.logicalDie b.die)
    | none => false
  | .ringp home off => match (s.block? home).map s.nowOf with
    | some h => h.ringFree s.tick off
    | none => true
  | .ringc home off slot bit => match (s.block? home).map s.nowOf with
    | some h => let w := h.slotWord s.tick off slot; decide (nbits w 7 7 = 1) && decide (w / 2 ^ bit % 2 = 1)
    | none => true
  | .gangset mask => (s.freeLatch b.core false).isSome || (s.core b.core).latches.any fun l => l.2.block == b.key && l.2.mask == mask && !l.2.formed
  | .launchFull => decide (b.launchq.length < 4)
  | .room k => (b.eng k).room
  | .erst bk => match s.block? bk with
    | some x => decide (x.mv ≠ .stowing ∧ x.mv ≠ .restoring) && !s.replaying bk
    | none => true
  | _ => false

/-- A wait that ends by executing its word again. -/
def Wait.again : Wait → Bool
  | .ringp _ _ => true
  | .ringc _ _ _ _ => true
  | .gangset _ => true
  | .launchFull => true
  | .room _ => true
  | .erst _ => true
  | _ => false

/-- What the log tells of register `r` of a warp. -/
def LogEntry.isReg (wi r : Nat) : LogEntry → Bool
  | .regs w q _ => w == wi && q == r
  | _ => false

/-- An S result of an ENG or SYS form, logged in recorded mode (R310). -/
def State.giveS64 (s : State) (bk wi r : Nat) (v : DWord) : State := (s.modWarp bk wi fun w => w.setSD r true v).log bk (.regs wi r v)
/-- The same for a pair that receives its value after its word. -/
def State.giveLate (s : State) (bk wi r : Nat) (v : DWord) : State := (s.modWarp bk wi fun w => w.setSD r true v).log bk (.regs wi (128 + r) v)
def State.giveS (s : State) (bk wi r : Nat) (v : Word) : State := (s.modWarp bk wi fun w => w.setS r v).log bk (.regs wi r (v.setWidth 64))

/-- The threads of an RREAD enter its method (R283), from its word or after a wait (`late`): the state address into Sd, resume point and
frame pointer into their pair, an acquire of what the local copy has applied. An entry that is no target is the jump-target fault at their
word. -/
def State.rreadEnter (s : State) (b : Block) (wi : Nat) (m : Mask) (entry state : DWord) (k sdst : Nat) (late : Bool) : State :=
  let w := s.warp b.key wi
  let real := m &&& ~~~w.helpers
  let x := w.lane ((real.list.head?).getD 0)
  let (s, ok) := s.landOk b.core b.ctx b.die entry.toNat
  if !ok && !s.replaying b.key then
    (s.takeTrap b.key wi real m x.pc x.widx
      { cause := 0x17, lcause := real.list.map fun l => (l, 0x17), lval := real.list.map fun l => (l, entry) }).settle b.key
  else
    let s := (if late then s.giveLate b.key wi sdst state else s.giveS64 b.key wi sdst state).modMask b.key wi m fun _ y =>
      { (y.setV k (b.offsetOf x.resume.1)).setV (k + 1) y.fp with
        st := .runnable, pc := entry, widx := 0, resume := (entry, 0), stamp := none, waitClk := 0, waitWall := 0 }
    let f := w.fragsOf (maskOf fun l => real.has l && (w.lane l).traced)
    (f.foldl (fun s n => s.emit b wi n x.pc (targetPacket wi n (b.offsetOf entry).toNat)) (s.syncHelpers b.key)).acquire b.key 4

/-- The same for a re-executing block, with the state address of its log (R311). -/
def State.rreadReplay (s : State) (b : Block) (wi : Nat) (m : Mask) (entry : DWord) (k sdst : Nat) (late : Bool) : State :=
  let got := if late then s.loggedLate b.key (LogEntry.isReg wi (128 + sdst)) else s.logged b.key (LogEntry.isReg wi sdst)
  match got with
  | some (.regs _ _ state, s) => s.rreadEnter b wi m entry state k sdst late
  | _ => s

/-- A wait that ends by entering a method, where a trap may be taken: not in a held warp (R342). -/
def Wait.enters : Wait → Bool
  | .rread _ _ _ _ _ _ => true
  | _ => false

/-- Threads whose wait now holds go on: at the next word, or at their word again; those of a re-execution where its log says (R311). A TWAIT acquires at its context's scope, an
RWAIT at DEVICE scope (R59, R284). -/
def State.wake (s : State) (bk : Nat) : State :=
  match s.block? bk with
  | none => s
  | some b =>
    if !b.resident || s.replaying bk then s
    else
      forN b.warps.length (fun wi s =>
        let w := b.warp wi
        let waits := (w.lanes.filterMap fun x => if x.isReal then x.wait? else none).eraseDups
        let go := waits.filter fun t => s.waitHolds b t && !(t.enters && w.held ≠ [])
        if go.isEmpty then s
        else
          let s := (s.modWarp bk wi fun w => { w with lanes := w.lanes.map fun x => match x.st with
            | .waiting (.rread _ _ _ _ _ _) => x
            | .waiting t => if go.contains t then (if t.again then x.retry else x.release) else x
            | _ => x }).syncHelpers bk
          go.foldl (fun s wt => match wt with
            | .twait k _ => s.acquire bk (b.eng k).scope
            | .rwait _ _ => s.acquire bk 4
            | .rread _ _ entry state k sd => s.rreadEnter b wi (maskOf fun l => (w.lane l).wait? == some wt) entry state k sd true
            | _ => s) s) s

/-- Every block's waits tested again. -/
def State.wakeAll (s : State) : State := s.blocks.foldl (fun s b => s.wake b.key) s

/-! ## Issue (R257) -/

/-- The operation code and the values that issue needs. -/
structure Issue where
  op : BitVec 6
  ec : Nat
  sdst : Nat

/-- The next issue number of a core (R169): keys rise, so the key of a command is its place in the order. -/
def State.newCmd (s : State) (c : Cx) (op : BitVec 6) (tok : Nat) (kind : CmdKind) : Cmd :=
  { tok := tok, seq := s.nextKey, handle := s.nextKey % 2 ^ 32, op := op, warp := c.wi, pc := c.fl.pc, widx := c.fl.idx, kind := kind,
    place := c.b.place }

/-- The command joins its context with the next token (R57). -/
def State.startCmd (s : State) (c : Cx) (op : BitVec 6) (ec : Nat) (kind : CmdKind) : State × Nat :=
  let tok := (((s.block? c.bk).map fun b => (b.eng ec).top).getD 0) + 1
  let cmd := s.newCmd c op tok kind
  ((s.modBlock c.bk fun b => b.modEng ec fun e => { e with top := tok, cmds := e.cmds ++ [cmd] }).bump, tok)

/-- In re-execution a register-writing form takes its value from the log and does nothing else (R311). -/
def State.fromLog (s : State) (c : Cx) (r : Nat) (wide : Bool) : Option State :=
  match s.logged c.bk (LogEntry.isReg c.wi r) with
  | some (.regs _ _ v, s) => some (s.modWarp c.bk c.wi fun w => w.setSD r wide v)
  | _ => if s.replaying c.bk then some s else none

/-- The same for the pair of a gang's member, whose command another's word issues. -/
def State.takeS64 (s : State) (bk wi r : Nat) : State :=
  match s.logged bk (LogEntry.isReg wi r) with
  | some (.regs _ _ v, s) => s.modWarp bk wi fun w => w.setSD r true v
  | _ => s

/-- The same for a pair that received its value after its word. -/
def State.takeLate (s : State) (bk wi r : Nat) : State :=
  match s.loggedLate bk (LogEntry.isReg wi (128 + r)) with
  | some (.regs _ _ v, s) => s.modWarp bk wi fun w => w.setSD r true v
  | _ => s

/-- The scope of an engine context (R166). -/
def Cx.ecScope (c : Cx) (k : Nat) : Nat := (c.b.eng k).scope

/-- Every thread of ACT begins a wait at the ENG word in flight: a guard divides the group at CTL words and SYS forms only (R255; log 50). -/
def State.waitAct (s : State) (c : Cx) (wt : Wait) : State := s.waitHere c c.fl.act wt

/-- The issue of a command by one warp (R257): the release, room on the context, the snapshot and its checks, the token.
`mk` reads operands and descriptors: the command, or the cause of the trap. It issues where the guard holds in any lane of ACT (R182), be it a
helper lane's alone (log 129). -/
def State.issueOne (s : State) (c : Cx) (i : Issue) (mk : State → Except Nat CmdKind) : State :=
  match s.waitLogged c with
  | some s => s.waitAct c (.room i.ec)
  | none => match s.fromLog c i.sdst true with
  | some s => s
  | none =>
    let s := s.release c.bk c.wi (c.ecScope i.ec)
    if !(c.b.eng i.ec).room then (s.logWait c).waitAct c (.room i.ec)
    else match mk s with
      | .error e => s.warpTrap c e 0
      | .ok kind =>
        let (s, tok) := s.startCmd c i.op i.ec kind
        s.giveS64 c.bk c.wi i.sdst (BitVec.ofNat 64 tok)

def issueOf (op : BitVec 6) (x : EngArgs) : Issue := { op := op, ec := (x.ecf.setWidth 3).toNat, sdst := x.sdst.toNat }

/-! ## Commands in flight -/

def Block.cmd? (b : Block) (k tok : Nat) : Option Cmd := (b.eng k).cmds.find? fun c => c.tok == tok

def State.modCmd (s : State) (bk k tok : Nat) (f : Cmd → Cmd) : State :=
  s.modBlock bk fun b => b.modEng k fun e => { e with cmds := modWhere (fun c => c.tok == tok) f e.cmds }

/-- The command writes an accumulator tile: it runs only while its block is resident. -/
def CmdKind.writesTile : CmdKind → Bool
  | .mma _ _ _ _ _ => true
  | .mmab _ _ _ _ => true
  | .mmv _ _ _ _ _ => true
  | .drain _ _ clr => clr
  | .azero _ => true
  | _ => false

/-- The components of the iteration vector i0 to i4, from the bounds of a loop nest (R259). -/
def vecOf (ns : List Nat) (n : Nat) : List Nat :=
  match ns with
  | [] => []
  | b :: bs => n % (b + 1) :: vecOf bs (n / (b + 1))

def vecIx (ns : List Nat) (v : List Nat) : Nat :=
  match ns, v with
  | b :: bs, i :: is => i + (b + 1) * vecIx bs is
  | _, _ => 0

def copyCounts (d : Desc) : List Nat := (List.range 5).map fun k => nbits d.toNat (143 + 16 * k) (128 + 16 * k)

/-- The loop bounds of a command: the largest value of each component. -/
def CmdKind.bounds : CmdKind → List Nat
  | .copy _ d _ _ _ _ _ _ _ => copyCounts d
  | .mma dimm _ _ _ _ => [nbits dimm.toNat 7 4]
  | .mmab dimm _ _ _ => [nbits dimm.toNat 7 4]
  | .mmv _ _ _ _ t => [t - 1]
  | .drain d _ _ => [16 * 2 ^ nbits d.toNat 385 384 - 1]
  | .iord _ _ _ len _ => [(len + 32767) / 32768 - 1]
  | _ => [0]

def CmdKind.count (k : CmdKind) : Nat := k.bounds.foldl (fun a n => a * (n + 1)) 1

/-- A command meets an engine fault at its present iteration (R260, R350); one of a handler block is a trap of that block (R347). -/
def State.engFault (s : State) (b : Block) (k : Nat) (cmd : Cmd) (code : Nat) (addr : Nat) : State :=
  let v := vecOf cmd.kind.bounds cmd.iter
  let s := s.modCmd b.key k cmd.tok fun c => { c with stopped := some { code := code, addr := addr, iter := cmd.iter } }
  let t : Trap :=
    { id := 0, cause := 0x28, kind := 2, code := code, block := some b.key, blockId := b.blockId, pc := cmd.pc, widx := cmd.widx,
      aux := BitVec.ofNat 64 addr,
      vec := BitVec.ofNat 64 (v.getD 0 0 + v.getD 1 0 * 2 ^ 16 + v.getD 2 0 * 2 ^ 32 + v.getD 3 0 * 2 ^ 48),
      i4 := v.getD 4 0, chandle := BitVec.ofNat 32 cmd.handle, cop := cmd.op, ec := k, token := cmd.tok,
      cell := some (b.die, b.cell) }
  match b.handler with
  | some rid => (s.handlerFail b rid t).settle b.key
  | none => s.pend b.ctx t

/-- An iteration is done: the vector advances, and the last one finishes the command. -/
def State.iterDone (s : State) (bk k : Nat) (cmd : Cmd) : State :=
  s.modCmd bk k cmd.tok fun c => { c with iter := cmd.iter + 1, finished := decide (cmd.kind.count ≤ cmd.iter + 1) }

/-- COMMAND_COMPLETE (R57): a finished command leaves, and the level advances past every token whose commands are done. -/
def execCommandComplete (b k tok : Nat) (s : State) : Host.Outcome State Fault Refusal :=
  .next <| match s.block? b with
  | none => s
  | some bl => match bl.cmd? k tok with
    | none => s
    | some cmd =>
      if !cmd.finished then s
      else (s.modBlock b fun y => y.modEng k fun e =>
        let cs := e.cmds.filter fun c => c.tok ≠ tok
        { e with cmds := cs, level := (cs.map (·.tok)).foldl (fun a t => min a (t - 1)) e.top }).wakeAll

/-- R281: the level of a context, without an acquire. -/
def execLvl (x : EngArgs) (s : State) : Host.Outcome State Fault Refusal :=
  s.withGuardN x.g fun c _ => match s.fromLog c x.sdst.toNat true with
    | some s => s
    | none => s.giveS64 c.bk c.wi x.sdst.toNat (BitVec.ofNat 64 (c.b.eng (x.ecf.setWidth 3).toNat).level)

end Sys2Proof.Machine
end

