-- ==== Sys2Proof/Machine/Split.lean ====
section
/-! DEFINITION. The split form (R103 to R110): half-step codes, the encoding of a block and of a tile, tile records. Finite
FP32 values and body values are integers in units of 2^−149. -/

namespace Sys2Proof.Machine

/-- A finite FP32 value in units of 2^−149. -/
def fx32 (v : Nat) : Int :=
  let x := fp32.real v
  let m : Int := (x.m * 2 ^ (x.e + 149).toNat : Nat)
  if x.neg then -m else m

def dyOfInt (i e : Int) : Dy := ⟨decide (i < 0), i.natAbs, e⟩

/-- Twice G of R105: 15 for H4, 7 for H3. -/
def halfG (h3 : Bool) : Nat := if h3 then 7 else 15
def codeBits (h3 : Bool) : Nat := if h3 then 3 else 4

/-- DecodeBody in units of 2^−149, for E of 1 to 254 (R103). -/
def bodyInt (n : Int) (e mu : Nat) : Int := (2 * n + 1) * (2 ^ (e + 21 - mu) : Nat)

/-- What the encoding of one element gives: its code, its μ, and its residual dres where it is a candidate with dres ≠ 0:
the signed infinity, or the value in units of 2^−149. -/
inductive Dres where
  | none
  | inf (neg : Bool)
  | fin (d : Int)
deriving DecidableEq, Repr

structure EncEl where
  code : Int := 0
  mu : Nat := 0
  dres : Dres := .none
deriving DecidableEq, Repr

/-- A threshold: none is +∞. -/
def isCand (theta : Option Int) (v : Nat) : Bool :=
  fp32.isInf v || (match theta with | some t => decide (t < (fx32 v).natAbs) | none => false)

/-- E of a block whose largest magnitude that is no candidate is `m` (R105). -/
def blockExp (h3 : Bool) (m : Nat) : Nat :=
  if m = 0 then 0 else ((List.range 252).find? fun i => decide (m ≤ halfG h3 * 2 ^ (i + 22))).elim 252 (· + 1)

/-- The nearest integer to x ÷ s − ½, ties to even, for a step `s` in units. -/
def nearCode (x : Int) (s : Nat) : Int :=
  let d : Int := (2 * s : Nat)
  let n := 2 * x - s
  let q := n / d
  let r := n % d
  if d < 2 * r ∨ (2 * r = d ∧ q % 2 = 1) then q + 1 else q

def satCode (h3 : Bool) (t : Int) : Int :=
  let h : Int := (2 ^ (codeBits h3 - 1) : Nat)
  max (-h) (min (h - 1) t)

/-- The steps of R105 on 16 elements; `none` is an absent element (R214). -/
def encBlock (h3 : Bool) (theta : Option Int) (els : List (Option Nat)) : Nat × List EncEl :=
  if els.any fun o => match o with | some v => fp32.isNaN v | none => false then (0xFF, List.replicate 16 {})
  else
    let cand (k : Nat) : Bool := match els.getD k none with | some v => isCand theta v | none => false
    let mag (k : Nat) : Nat := match els.getD k none with
      | some v => if fp32.isInf v then 0 else (fx32 v).natAbs
      | none => 0
    let m := (List.range 16).foldl (fun a k => if cand k then a else max a (mag k)) 0
    let e := blockExp h3 m
    let half (k : Nat) : Bool := !cand k && decide (mag k ≤ halfG h3 * 2 ^ (e + 20))
    (e, (List.range 16).map fun k =>
      let mu := if e ≠ 0 && half (k / 2 * 2) && half (k / 2 * 2 + 1) then 1 else 0
      match els.getD k none with
      | none => { mu := mu }
      | some v =>
        let code := if e = 0 then 0
          else if fp32.isInf v then satCode h3 (if fp32.sign v then -100 else 100)
          else satCode h3 (nearCode (fx32 v) (2 ^ (e + 22 - mu)))
        let dres := if !cand k then Dres.none
          else if fp32.isInf v then .inf (fp32.sign v)
          else
            let d := fx32 v - (if e = 0 then 0 else bodyInt code e mu)
            if d = 0 then .none else .fin d
        { code := code, mu := mu, dres := dres })

/-- The BF16 residual of a candidate. -/
def Dres.bf16 : Dres → Nat
  | .none => 0
  | .inf n => Machine.bf16.inf n
  | .fin d => (roundFP Machine.bf16 0 (dyOfInt d (-149))).1

/-- The order of the ranking of R106: |dres|. -/
def Dres.above : Dres → Dres → Bool
  | .inf _, .fin _ => true
  | .fin a, .fin b => decide (b.natAbs < a.natAbs)
  | _, _ => false

/-- θ as QENC and CENC read it: a NaN is the caller's; +∞ is none. -/
def thetaOf (v : Nat) : Option Int := if fp32.isInf v then none else some (fx32 v)

/-- R110: an element's value from its block's E, its μ, its code and its residual. -/
def decodeEl (e mu : Nat) (code : Int) (res : Option Nat) : Nat :=
  if e = 0xFF then fp32.nan
  else
    let r := res.getD 0
    if bf16.isNaN r then fp32.nan
    else if bf16.isInf r then fp32.inf (bf16.sign r)
    else
      let body : Dy := if e = 0 then ⟨false, 0, 0⟩ else dyOfInt (2 * code + 1) ((e : Int) - 128 - mu)
      (roundFP fp32 0 (dyAdd 0 body (bf16.real r))).1

/-! ## Tile records (R107 to R109) -/

def bodyBytes (h3 : Bool) : Nat := if h3 then 96 else 128

/-- The size of a record (R107). -/
def recSize (h3 : Bool) (cap : Nat) : Nat := (36 + bodyBytes h3 + 4 * cap + 31) / 32 * 32

/-- A tile record read from its bytes. Codes are by element index row·16 + col. -/
structure TileRec where
  fmt : Nat
  kdir : Bool
  spill : Nat
  cap : Nat
  count : Nat
  e : List Nat
  mu : List Nat
  codes : List Int
  outs : List (Nat × Nat)
  rsv : Bool
deriving DecidableEq, Repr

/-- A record's header fields, from its first word. -/
def hdrKdir (h : Nat) : Bool := decide (nbits h 27 27 = 1)
def hdrFmt (h : Nat) : Nat := nbits h 25 24
def hdrCap (h : Nat) : Nat := nbits h 15 8

/-- The element index of position `k` of block `b`. -/
def elIx (kdir : Bool) (b k : Nat) : Nat := if kdir then k * 16 + b else b * 16 + k

def parseTile (bs : List Byte) : TileRec :=
  let h := leNat (bs.take 4)
  let h3 := decide (hdrFmt h = 1)
  let w := codeBits h3
  let body := leNat ((bs.drop 36).take (bodyBytes h3))
  let outs := bs.drop (36 + bodyBytes h3)
  { fmt := hdrFmt h, kdir := hdrKdir h, spill := nbits h 23 16, cap := hdrCap h, count := nbits h 7 0,
    e := ((bs.drop 4).take 16).map (·.toNat), mu := ((bs.drop 20).take 16).map (·.toNat),
    codes := (List.range 256).map fun j => sint w (body / 2 ^ (w * j)),
    outs := (List.range (nbits h 7 0)).map fun i =>
      let v := leNat ((outs.drop (4 * i)).take 4)
      (v / 2 ^ 24, v % 65536),
    rsv := decide (nbits h 31 28 ≠ 0 ∨ nbits h 26 26 ≠ 0) }

/-- The block and the position along K of element j. -/
def TileRec.blk (t : TileRec) (j : Nat) : Nat := if t.kdir then j % 16 else j / 16
def TileRec.pos (t : TileRec) (j : Nat) : Nat := if t.kdir then j / 16 else j % 16
def TileRec.muOf (t : TileRec) (j : Nat) : Nat := (t.mu.getD (t.blk j) 0) / 2 ^ (t.pos j / 2) % 2
def TileRec.res (t : TileRec) (j : Nat) : Option Nat := (t.outs.find? fun o => o.1 == j).map (·.2)

/-- An element decoded to FP32. -/
def TileRec.decode (t : TileRec) (j : Nat) : Nat := decodeEl (t.e.getD (t.blk j) 0) (t.muOf j) (t.codes.getD j 0) (t.res j)

/-- Insertion into the ranking of R106: larger |dres| first, ties by ascending coordinate. -/
def rankInsert (x : Nat × Dres) : List (Nat × Dres) → List (Nat × Dres)
  | [] => [x]
  | y :: ys => if x.2.above y.2 || (!y.2.above x.2 && decide (x.1 < y.1)) then x :: y :: ys else y :: rankInsert x ys

def coordInsert (x : Nat × Nat) : List (Nat × Nat) → List (Nat × Nat)
  | [] => [x]
  | y :: ys => if x.1 < y.1 then x :: y :: ys else y :: coordInsert x ys

/-- Bits packed from a list of codes of `w` bits, low first. -/
def packCodes (w : Nat) : List Int → Nat
  | [] => 0
  | c :: cs => (c % (2 ^ w : Nat)).toNat + 2 ^ w * packCodes w cs

/-- The encoding of a tile of 256 FP32 values by element index (R105 to R109): the record, or none for split overflow. -/
def encTile (h3 kdir : Bool) (theta : Option Int) (cap spill : Nat) (els : List Nat) : Option (List Byte) :=
  let blocks := (List.range 16).map fun b => encBlock h3 theta ((List.range 16).map fun k => some (els.getD (elIx kdir b k) 0))
  let el (j : Nat) : EncEl :=
    let b := if kdir then j % 16 else j / 16
    let k := if kdir then j / 16 else j % 16
    ((blocks.getD b (0, [])).2).getD k {}
  let cands := (List.range 256).foldl (fun l j => match (el j).dres with
    | .none => l
    | d => rankInsert (j, d) l) []
  if cap + spill < cands.length then none
  else
    let kept := (cands.take cap).foldl (fun l c => coordInsert (c.1, c.2.bf16) l) []
    let hdr := (if kdir then 2 ^ 27 else 0) + (if h3 then 2 ^ 24 else 0) + (cands.length - cap) * 2 ^ 16 + cap * 2 ^ 8 + kept.length
    let mus := (List.range 16).map fun b => BitVec.ofNat 8 ((List.range 8).foldl (fun a p =>
      a + (((blocks.getD b (0, [])).2).getD (2 * p) {}).mu * 2 ^ p) 0)
    let body := leBytes (bodyBytes h3) (packCodes (codeBits h3) ((List.range 256).map fun j => (el j).code))
    let bs := leBytes 4 hdr ++ blocks.map (fun b => BitVec.ofNat 8 b.1) ++ mus ++ body
      ++ kept.flatMap fun o => leBytes 4 (o.1 * 2 ^ 24 + o.2)
    some (bs ++ List.replicate (recSize h3 cap - bs.length) 0)

end Sys2Proof.Machine
end

