-- ==== Sys2Proof/Machine/Sfu.lean ====
section
/-! DEFINITION. Function instructions (R211 to R215). The transcendental functions are computed in integers of 256 fraction
bits, far beyond what one rounding to FP32 needs, and then rounded once. -/

namespace Sys2Proof.Machine

/-! ## Fixed point of 256 fraction bits -/

def fxP : Nat := 256
def fxOne : Nat := 2 ^ fxP

/-- atanh(a ÷ b) by its series, for a ÷ b of at most 1 ÷ 3. -/
def atanhGo (z2 : Nat) : Nat → Nat → Nat → Nat → Nat
  | 0, _, _, acc => acc
  | n + 1, k, t, acc => atanhGo z2 n (k + 2) (t * z2 / fxOne) (acc + t / k)

def atanhFx (a b : Nat) : Nat :=
  let z := a * fxOne / b
  atanhGo (z * z / fxOne) 90 1 z 0

def ln2Fx : Nat := 2 * atanhFx 1 3

/-- e^z for z below 1. -/
def expGo (z : Nat) : Nat → Nat → Nat → Nat → Nat
  | 0, _, _, acc => acc
  | n + 1, k, t, acc => expGo z n (k + 1) (t * z / fxOne / k) (acc + t)

def expFx (z : Nat) : Nat := expGo z 70 1 fxOne 0

/-- 2^f for a fraction f. -/
def exp2Fx (f : Nat) : Nat := expFx (f * ln2Fx / fxOne)

/-- π by 16·atan(1/5) − 4·atan(1/239). -/
def atanGo (q2 : Nat) : Nat → Nat → Nat → Int → Int → Int
  | 0, _, _, _, acc => acc
  | n + 1, k, t, sg, acc => atanGo q2 n (k + 2) (t / q2) (-sg) (acc + sg * (t / k : Nat))

def piFx : Nat :=
  let one := fxOne * 2 ^ 32
  ((16 * atanGo 25 70 1 (one / 5) 1 0 - 4 * atanGo 57121 30 1 (one / 239) 1 0).toNat) / 2 ^ 32

/-- Alternating series 1 − z ÷ (d(d+1)) + …: with d = 2 it is sin y ÷ y, with d = 1 it is cos y, for z = y². -/
def altGo (z : Nat) : Nat → Nat → Nat → Int → Int → Int
  | 0, _, _, _, acc => acc
  | n + 1, d, t, sg, acc => altGo z n (d + 2) (t * z / fxOne / (d * (d + 1))) (-sg) (acc + sg * t)

/-- An inexact magnitude: truncated, with a bit below that says so. -/
def sticky (neg : Bool) (m : Nat) (e : Int) : Dy := ⟨neg, 2 * m + 1, e - 1⟩

/-- The square root of a Nat below 2^256, rounded down. -/
def isqrt (n : Nat) : Nat := (List.range 128).reverse.foldl (fun r i => if (r + 2 ^ i) * (r + 2 ^ i) ≤ n then r + 2 ^ i else r) 0

/-- An even exponent. -/
def Dy.evenExp (x : Dy) : Dy := if x.e % 2 = 0 then x else ⟨x.neg, 2 * x.m, x.e - 1⟩

/-! ## The functions on finite nonzero values, exactly or with a sticky bit -/

def rcpDy (x : Dy) : Dy :=
  let q := 2 ^ 96 / x.m
  if q * x.m = 2 ^ 96 then ⟨x.neg, q, -96 - x.e⟩ else sticky x.neg q (-96 - x.e)

def sqrtDy (x : Dy) : Dy :=
  let y := x.evenExp
  let r := isqrt (y.m * 2 ^ 80)
  if r * r = y.m * 2 ^ 80 then ⟨false, r, y.e / 2 - 40⟩ else sticky false r (y.e / 2 - 40)

def rsqDy (x : Dy) : Dy :=
  let y := x.evenExp
  let r := isqrt (2 ^ 160 / y.m)
  if r * r * y.m = 2 ^ 160 then ⟨false, r, -80 - y.e / 2⟩ else sticky false r (-80 - y.e / 2)

/-- 2^x; beyond ±512 any exponent there rounds alike. -/
def exp2Dy (x : Dy) : Dy :=
  if 9 ≤ x.e + bitLen x.m - 1 then sticky false 1 (if x.neg then -512 else 512)
  else
    let m : Int := (x.m * 2 ^ (x.e + 256).toNat : Nat)
    let v := if x.neg then -m else m
    let n := v / fxOne
    let f := (v % fxOne).toNat
    if f = 0 then ⟨false, 1, n⟩ else sticky false (exp2Fx f) (n - fxP)

def log2Dy (x : Dy) : Dy :=
  let n := bitLen x.m - 1
  let e : Int := x.e + n
  if x.m = 2 ^ n then dyOfInt e 0
  else
    let l := 2 * atanhFx (x.m - 2 ^ n) (x.m + 2 ^ n) * fxOne / ln2Fx
    let v : Int := e * fxOne + l
    sticky (decide (v < 0)) v.natAbs (-(fxP : Int))

/-- sin(π·n ÷ 2^149) for n below 2^150; none where it is zero. -/
def sinFx (n : Nat) : Option Dy :=
  let neg := decide (2 ^ 149 ≤ n)
  let y := n % 2 ^ 149
  let y := if 2 ^ 148 < y then 2 ^ 149 - y else y
  if y = 0 then none
  else if y = 2 ^ 148 then some ⟨neg, 1, 0⟩
  else if y ≤ 2 ^ 147 then
    let p := y * piFx / 2 ^ 149
    some (sticky neg (y * piFx * (altGo (p * p / fxOne) 50 2 fxOne 1 0).toNat) (-149 - 2 * (fxP : Int)))
  else
    let p := (2 ^ 148 - y) * piFx / 2 ^ 149
    some (sticky neg (altGo (p * p / fxOne) 50 1 fxOne 1 0).toNat (-(fxP : Int)))

/-- |x| modulo 2, in units of 2^−149. -/
def modTwo (x : Dy) : Nat := x.m * 2 ^ (x.e + 149).toNat % 2 ^ 150

def tanhDy (x : Dy) : Dy :=
  let top := x.e + bitLen x.m - 1
  if top < -60 then ⟨x.neg, x.m * 2 ^ 100 - 1, x.e - 100⟩
  else if 5 ≤ top then ⟨x.neg, 2 ^ 100 - 1, -100⟩
  else
    let y := 2 * x.m * 2 ^ (x.e + 256).toNat * fxOne / ln2Fx
    let ex := exp2Fx (y % fxOne) * 2 ^ (y / fxOne)
    sticky x.neg ((ex - fxOne) * fxOne / (ex + fxOne)) (-(fxP : Int))

/-! ## The instructions -/

/-- A function form (R211): NaN operands by R97, then its own special operands and values. -/
def funcForm (x : LaneArgs) (s : State) (f : Nat → Nat × Fl) : Host.Outcome State Fault Refusal :=
  s.withCx fun c => s.laneResult c x false fun l =>
    let a := laneMods x fp32 2 (c.src s.tick x.a l).toNat
    let r := match nanRule fp32 [a] with
      | some r => r
      | none => f a
    (BitVec.ofNat 64 r.1, r.2)

/-- R211: 1 ÷ x. -/
def execRcp (x : LaneArgs) (s : State) : Host.Outcome State Fault Refusal :=
  funcForm x s fun a =>
    if fp32.isInf a then (fp32.signBit (fp32.sign a), 0)
    else if fp32.isZero a then (fp32.inf (fp32.sign a), flDZ)
    else roundFP fp32 x.rnd.toNat (rcpDy (fp32.real a))

/-- R211: 1 ÷ √x. -/
def execRsq (x : LaneArgs) (s : State) : Host.Outcome State Fault Refusal :=
  funcForm x s fun a =>
    if fp32.isZero a then (fp32.inf (fp32.sign a), flDZ)
    else if fp32.sign a then (fp32.nan, flIV)
    else if fp32.isInf a then (0, 0)
    else roundFP fp32 0 (rsqDy (fp32.real a))

/-- R211: √x. -/
def execSqrt (x : LaneArgs) (s : State) : Host.Outcome State Fault Refusal :=
  funcForm x s fun a =>
    if fp32.isZero a then (a, 0)
    else if fp32.sign a then (fp32.nan, flIV)
    else if fp32.isInf a then (a, 0)
    else roundFP fp32 x.rnd.toNat (sqrtDy (fp32.real a))

/-- R211: 2^x. -/
def execExp2 (x : LaneArgs) (s : State) : Host.Outcome State Fault Refusal :=
  funcForm x s fun a =>
    if fp32.isInf a then (if fp32.sign a then 0 else a, 0)
    else roundFP fp32 0 (exp2Dy (fp32.real a))

/-- R211: log2 x. -/
def execLog2 (x : LaneArgs) (s : State) : Host.Outcome State Fault Refusal :=
  funcForm x s fun a =>
    if fp32.isZero a then (fp32.inf true, flDZ)
    else if fp32.sign a then (fp32.nan, flIV)
    else if fp32.isInf a then (a, 0)
    else roundFP fp32 0 (log2Dy (fp32.real a))

/-- R211: sin(π·x). -/
def execSinp (x : LaneArgs) (s : State) : Host.Outcome State Fault Refusal :=
  funcForm x s fun a =>
    if fp32.isInf a then (fp32.nan, flIV)
    else match sinFx (modTwo (fp32.real a)) with
      | none => (fp32.signBit (fp32.sign a), 0)
      | some d => roundFP fp32 0 { d with neg := d.neg != fp32.sign a }

/-- R211: cos(π·x) = sin(π·(|x| + ½)). -/
def execCosp (x : LaneArgs) (s : State) : Host.Outcome State Fault Refusal :=
  funcForm x s fun a =>
    if fp32.isInf a then (fp32.nan, flIV)
    else match sinFx ((modTwo (fp32.real a) + 2 ^ 148) % 2 ^ 150) with
      | none => (0, 0)
      | some d => roundFP fp32 0 d

/-- R211: tanh x. -/
def execTanh (x : LaneArgs) (s : State) : Host.Outcome State Fault Refusal :=
  funcForm x s fun a =>
    if fp32.isInf a then (fp32.signBit (fp32.sign a) + 0x3F800000, 0)
    else if fp32.isZero a then (a, 0)
    else roundFP fp32 0 (tanhDy (fp32.real a))

/-! ## Conversions (R212, R213) -/

/-- A type code of R212: an integer of a width and signedness, or a float. -/
inductive CvtType where
  | int (w : Nat) (signed : Bool)
  | flt (f : Fmt)
deriving DecidableEq, Repr

def cvtType (k : Nat) : CvtType :=
  match k with
  | 0 => .int 8 false
  | 1 => .int 8 true
  | 2 => .int 16 false
  | 3 => .int 16 true
  | 4 => .int 32 false
  | 5 => .int 32 true
  | 6 => .int 64 false
  | 7 => .int 64 true
  | 8 => .flt fp16
  | 9 => .flt bf16
  | 10 => .flt fp32
  | _ => .flt fp64

def CvtType.width : CvtType → Nat
  | .int w _ => w
  | .flt f => f.width

/-- The value of the low bits as an integer type reads them. -/
def intVal (w : Nat) (signed : Bool) (v : Nat) : Int := if signed then sint w v else (v % 2 ^ w : Nat)

def satInt (w : Nat) (signed : Bool) (i : Int) : Int :=
  let lo : Int := if signed then -(2 ^ (w - 1) : Nat) else 0
  let hi : Int := if signed then (2 ^ (w - 1) : Nat) - 1 else (2 ^ w : Nat) - 1
  max lo (min hi i)

/-- An integer result as it is written: 8 and 16 bits extended to 32. -/
def intOut (w : Nat) (signed : Bool) (v : Nat) : DWord :=
  if w < 32 ∧ signed then (BitVec.ofInt 32 (sint w v)).setWidth 64 else BitVec.ofNat 64 (v % 2 ^ w)

/-- One conversion of R212, of a source already modified. -/
def cvtVal (src dst : CvtType) (sat : Bool) (mode v : Nat) : DWord × Fl :=
  match src, dst with
  | .int w sg, .int w' sg' =>
    let i := intVal w sg v
    let r := if sat then satInt w' sg' i else i
    (intOut w' sg' (r % (2 ^ w' : Nat)).toNat, 0)
  | .int w sg, .flt f => let r := intToF f mode (intVal w sg v); (BitVec.ofNat 64 r.1, r.2)
  | .flt f, .int w sg => let r := fToInt f mode w sg v; (intOut w sg r.1, r.2)
  | .flt f, .flt g =>
    let r := if f = g then fRound f mode v else fConv f g mode v
    (BitVec.ofNat 64 r.1, r.2)

/-- R212: between integers and floats, or to an integral value. -/
def execCvt (x : LaneArgs) (s : State) : Host.Outcome State Fault Refusal :=
  s.withCx fun c =>
    let src := cvtType (nbits x.sub.toNat 3 0)
    let dst := cvtType (nbits x.sub.toNat 7 4)
    s.laneResult c x (decide (dst.width = 64)) fun l =>
      let v := if src.width = 64 then (c.src64 s.tick x.a (·.setWidth 64) l).toNat else (c.src s.tick x.a l).toNat
      let v := v % 2 ^ src.width
      let v := match src with | .flt f => laneMods x f 2 v | .int _ _ => v
      cvtVal src dst (x.sub.getLsbD 8) x.rnd.toNat v

/-- R213: pack to halves, or unpack. -/
def execCvtp (x : LaneArgs) (s : State) : Host.Outcome State Fault Refusal :=
  s.withCx fun c =>
    let f := if x.sub.getLsbD 0 then bf16 else fp16
    if x.sub.getLsbD 1 then
      s.laneResult c x true fun l =>
        let v := (c.src s.tick x.a l).toNat
        let lo := fConv f fp32 0 (laneMods x f 2 (v % 65536))
        let hi := fConv f fp32 0 (laneMods x f 2 (v / 65536))
        (BitVec.ofNat 64 (lo.1 + 2 ^ 32 * hi.1), lo.2 ||| hi.2)
    else
      s.laneResult c x false fun l =>
        let a := fConv fp32 f x.rnd.toNat (laneMods x fp32 2 (c.src s.tick x.a l).toNat)
        let b := fConv fp32 f x.rnd.toNat (laneMods x fp32 1 (c.src s.tick x.b l).toNat)
        (BitVec.ofNat 64 (a.1 + 65536 * b.1), a.2 ||| b.2)

/-! ## The split form in lanes (R214, R215) -/

/-- θ of QENC: a NaN or a value below zero is +∞. -/
def qencTheta (v : Nat) : Option Int := if fp32.isNaN v ∨ (fp32.sign v ∧ !fp32.isZero v) then none else thetaOf v

/-- The word of R214. -/
def qencWord (e : Nat) (x : EncEl) : Nat :=
  x.dres.bf16 * 2 ^ 16 + e * 2 ^ 8 + (if x.dres = .none then 0 else 128) + x.mu * 64 + (x.code % 16).toNat

/-- R214: two blocks of 16 lanes split-encoded. -/
def execQenc (x : LaneArgs) (s : State) : Host.Outcome State Fault Refusal :=
  s.withCx fun c =>
    let q := c.party s.tick x.g
    let enc (g : Nat) : Nat × List EncEl :=
      let els := (List.range 16).map fun k => if q.has (16 * g + k) then some (c.src s.tick x.a (16 * g + k)).toNat else none
      let low := ((List.range 16).find? fun k => q.has (16 * g + k)).getD 0
      encBlock (x.sub.getLsbD 0) (qencTheta (c.src s.tick x.b (16 * g + low)).toNat) els
    let e0 := enc 0
    let e1 := enc 1
    s.someResult c x false fun l =>
      if q.has l then
        let e := if l < 16 then e0 else e1
        some (BitVec.ofNat 64 (qencWord e.1 (e.2.getD (l % 16) {})))
      else none

/-- R215: a word of the split form to FP32. -/
def execQdec (x : LaneArgs) (s : State) : Host.Outcome State Fault Refusal :=
  s.withCx fun c => s.laneResult c x false fun l =>
    let v := (c.src s.tick x.a l).toNat
    let code := if x.sub.getLsbD 0 then sint 3 v else sint 4 v
    (BitVec.ofNat 64 (decodeEl (nbits v 15 8) (nbits v 6 6) code (some (nbits v 31 16))), 0)

end Sys2Proof.Machine
end

