-- ==== Sys2Proof/Machine/EngCopy.lean ====
section
/-! DEFINITION. Copy, encode and decode commands (R261 to R264), multicast rings (R265 to R267), storage reads (R277, R278)
and device-side launch (R279, R280). -/

namespace Sys2Proof.Machine

/-! ## The copy descriptor (R261) -/

def Desc.f (d : Desc) (hi lo : Nat) : Nat := nbits d.toNat hi lo
/-- A field of CTL, by its own numbering. -/
def Desc.ctl (d : Desc) (hi lo : Nat) : Nat := nbits d.toNat (448 + hi) (448 + lo)
def copySrc (d : Desc) : Nat := nbits d.toNat 63 0
def copyDst (d : Desc) : Nat := nbits d.toNat 127 64
def copySsp (d : Desc) : Nat := nbits d.toNat 452 451
def copyDsp (d : Desc) : Nat := nbits d.toNat 454 453
def copyEsz (d : Desc) : Nat := nbits d.toNat 450 448
def copyEtype (d : Desc) : Nat := nbits d.toNat 463 463
def copyH3 (d : Desc) : Bool := decide (nbits d.toNat 464 464 = 1)
def copyKdir (d : Desc) : Bool := decide (nbits d.toNat 465 465 = 1)
def copyCap (d : Desc) : Nat := nbits d.toNat 472 466
def copySpill (d : Desc) : Nat := nbits d.toNat 479 473
def copyRpitch (d : Desc) : Nat := nbits d.toNat 495 480

/-- The element width of CENC and CDEC. -/
def copyW (d : Desc) : Nat := if copyEtype d = 0 then 4 else 2

/-- The checks of R258, R261 and R263 on a descriptor. -/
def copyOk (op : CopyOp) (d : Desc) : Bool :=
  decide (nbits d.toNat 511 496 = 0 ∧ copySsp d ≠ 3 ∧ copyDsp d ≠ 3)
  && (match op with
      | .cenc => decide (copyEsz d = 0 ∧ copyCap d ≤ 64 ∧ copySpill d ≤ 64 ∧ 16 * copyW d ≤ copyRpitch d ∧ copyRpitch d % copyW d = 0)
      | .cdec => decide (copyEsz d = 0 ∧ copyCap d = 0 ∧ copySpill d = 0 ∧ nbits d.toNat 465 464 = 0)
      | _ => decide (nbits d.toNat 495 463 = 0 ∧ copyEsz d ≤ 4) && (decide (op ≠ .cpym) || decide (copyDsp d = 1)))

/-- A stride field, 24 bits signed, shifted. -/
def strideOf (d : Desc) (base shift k : Nat) : Int := sint 24 (nbits d.toNat (base + 23 + 24 * k) (base + 24 * k)) * (2 ^ shift : Nat)

/-- The sum of R262. -/
def copyAddr (d : Desc) (dst : Bool) (v : List Nat) : Int :=
  let sp := if dst then copyDsp d else copySsp d
  let a := if dst then copyDst d else copySrc d
  let base : Int := if sp = 1 then (a % 2 ^ 32 : Nat) else (a : Nat)
  mapFrom 0 (fun k (i : Nat) => (i : Int) * (if dst then strideOf d 328 (nbits d.toNat 462 459) k else strideOf d 208 (nbits d.toNat 458 455) k)) v
    |>.foldl (· + ·) base

def runFrom (n : Nat) (a : Int) : List Int := (List.range n).map fun i => a + (i : Nat)

/-- The bytes that an iteration of a copy command writes. -/
def copyDstBytes (op : CopyOp) (d : Desc) (v : List Nat) : List Int :=
  let z := copyAddr d true v
  match op with
  | .cenc => runFrom (recSize (copyH3 d) (copyCap d)) z
  | .cdec => (elAddrs z (copyRpitch d) (copyW d) 16 16).flatMap (runFrom (copyW d))
  | _ => runFrom (2 ^ copyEsz d) z

/-- The bytes that it reads; of a tile record as many as the largest has. -/
def copySrcBytes (op : CopyOp) (d : Desc) (v : List Nat) : List Int :=
  let a := copyAddr d false v
  match op with
  | .cenc => (elAddrs a (copyRpitch d) (copyW d) 16 16).flatMap (runFrom (copyW d))
  | .cdec => runFrom (recSize false 64) a
  | _ => runFrom (2 ^ copyEsz d) a

/-- The accumulator tiles that a command uses, each by its core and number: its own tile, or those that a copy reaches through the window
in the iterations that it has to come (R119, R138). A tile of a block that is away is apart from all others. -/
def State.cmdTiles (s : State) (b : Block) (cmd : Cmd) : List (Nat × Nat) :=
  match cmd.kind with
  | .copy op d _ _ _ _ _ _ _ =>
    if copySsp d ≠ 2 ∧ copyDsp d ≠ 2 then []
    else ((List.range (cmd.kind.count - cmd.iter)).flatMap fun n =>
      let v := vecOf cmd.kind.bounds (cmd.iter + n)
      ((if copySsp d = 2 then copySrcBytes op d v else []) ++ if copyDsp d = 2 then copyDstBytes op d v else []).filterMap fun a =>
        match s.winCore (b.asCx cmd.warp cmd.place) (addr64 a) with
        | .error _ => none
        | .ok k => match winTgt k (addr64 a) with
          | some (.acc core t _ _ _) => some (core, t)
          | _ => none).eraseDups
  | kind => match kind.tile? with
    | some t => [if b.resident then (b.core, b.tiles.getD t 16) else (2 ^ 20 + b.key, t)]
    | none => []

/-- Nothing of the command itself keeps it from going on: the earlier commands of its core on its tiles are done (R169), its context has not
failed, and its block is where it must be. Commands of a stowed block go on, in its image (R69, R387); those of a block that the debugger shows in
its past do not (log 37). -/
def State.cmdFree (s : State) (b : Block) (cmd : Cmd) : Bool :=
  let ts := s.cmdTiles b cmd
  !cmd.finished && cmd.stopped.isNone && !(s.ctx b.ctx).failed && !s.replaying b.key
    && (if cmd.kind.writesTile then decide (b.mv = .resident) else decide (b.mv ≠ .saved))
    && (ts.isEmpty || (s.onCore b.core).all fun y => y.ecs.all fun e => e.cmds.all fun o =>
      o.finished || decide (cmd.seq ≤ o.seq) || !(s.cmdTiles y o).any ts.contains)

/-- A command may run its next iteration: its context is not stopped either. -/
def State.cmdReady (s : State) (b : Block) (cmd : Cmd) : Bool := (s.ctx b.ctx).en && !(s.ctx b.ctx).pre && s.cmdFree b cmd

/-- A request of the command has been sent and is not answered: it is finished before a pre-emption's stop (R91). -/
def Cmd.sent (cmd : Cmd) : Bool := cmd.asked == some cmd.iter

/-! ## Iterations -/

/-- CPY: one element (R262). -/
def State.iterCpy (s : State) (b : Block) (k : Nat) (cmd : Cmd) (d : Desc) (v : List Nat) : State :=
  let n := 2 ^ copyEsz d
  let a := copyAddr d false v
  match s.engRead b cmd (copySsp d) a n with
  | (s, .error (e, x)) => s.engFault b k cmd e x
  | (s, .ok bs) =>
    let z := copyAddr d true v
    match s.engWrite b cmd (copyDsp d) z bs with
    | (s, some (e, x)) => s.engFault b k cmd e x
    | (s, none) => s.iterDone b.key k cmd

/-- Little-endian elements of `w` bytes. -/
def elemsOf (w : Nat) (bs : List Byte) (n : Nat) : List Nat := (List.range n).map fun j => leNat ((bs.drop (w * j)).take w)

/-- A byte of an encoded record takes bits from the poisoned elements `bad` (R371): the header and the outlier entries from the whole tile, E, μ
and the codes of a block from its elements; entries that are not used and padding from none. -/
def encPoison (t : TileRec) (bad : List Nat) (i : Nat) : Bool :=
  let blks := (bad.map t.blk).eraseDups
  let w := codeBits (decide (t.fmt = 1))
  let body := 36 + bodyBytes (decide (t.fmt = 1))
  (!bad.isEmpty && decide (i < 4 ∨ (body ≤ i ∧ i < body + 4 * t.count)))
    || (blks.any fun b => i == 4 + b || i == 20 + b)
    || (List.range 256).any fun j => decide (36 + w * j / 8 ≤ i ∧ i ≤ 36 + (w * j + w - 1) / 8) && blks.contains (t.blk j)

/-- CENC: one tile (R263). Its source is read and encoded first, then its destination is checked (log 130). -/
def State.iterCenc (s : State) (b : Block) (k : Nat) (cmd : Cmd) (d : Desc) (theta : Word) (v : List Nat) : State :=
  let a := copyAddr d false v
  let z := copyAddr d true v
  match s.engReadEls b cmd (copySsp d) (copyW d) (elAddrs a (copyRpitch d) (copyW d) 16 16) with
  | (s, .error (e, x)) => s.engFault b k cmd e x
  | (s, .ok bs) =>
    let els := elemsOf (copyW d) (bs.map (·.1)) 256
    let els := if copyEtype d = 0 then els else els.map fun e => e * 65536
    match encTile (copyH3 d) (copyKdir d) (thetaOf theta.toNat) (copyCap d) (copySpill d) els with
      | none => s.engFault b k cmd 0x19 (addr64 a)
      | some rec =>
        if alignBad (copyDsp d) 32 z then s.engFault b k cmd 0x10 (addr64 z)
        else
        let bad := (List.range 256).filter fun j => ((bs.drop (copyW d * j)).take (copyW d)).any (·.2)
        match s.engWrite b cmd (copyDsp d) z (mapFrom 0 (fun i x => (x, encPoison (parseTile rec) bad i)) rec) with
        | (s, some (e, x)) => s.engFault b k cmd e x
        | (s, none) => s.iterDone b.key k cmd

/-- A record breaks R107 to R109 (R264). -/
def recordBad (bs : List Byte) (t : TileRec) : Bool :=
  t.rsv || decide (2 ≤ t.fmt) || decide (t.cap < t.count)
  || !((t.outs.zip (t.outs.drop 1)).all fun p => decide (p.1.1 < p.2.1))
  || (List.range t.count).any fun i => (bs.getD (36 + bodyBytes (decide (t.fmt = 1)) + 4 * i + 2) 0) != 0

/-- A tile record read from a space: its header first, then as much as its header says; a FMT of 2 or 3 is a record fault by the header alone
(log 48). -/
def State.readTile (s : State) (b : Block) (cmd : Cmd) (sp : Nat) (a : Int) : State × Except (Nat × Nat) (List PByte) :=
  match s.engRead b cmd sp a 4 with
  | (s, .error e) => (s, .error e)
  | (s, .ok h) =>
    let w := leNat (h.map (·.1))
    if 2 ≤ hdrFmt w then (s, .error (0x18, addr64 a))
    else s.engRead b cmd sp a (recSize (decide (hdrFmt w = 1)) (hdrCap w))

/-- The bytes of a record that element `j` takes its value from: header, E, μ, code and entries. -/
def recordTouches (t : TileRec) (j : Nat) (withE : Bool) (i : Nat) : Bool :=
  let h3 := decide (t.fmt = 1)
  let w := codeBits h3
  decide (i < 4) || (withE && decide (i = 4 + t.blk j)) || decide (i = 20 + t.blk j)
  || decide (36 + w * j / 8 ≤ i ∧ i ≤ 36 + (w * j + w - 1) / 8)
  || decide (36 + bodyBytes h3 ≤ i ∧ i < 36 + bodyBytes h3 + 4 * t.count)

def poisonIx (bs : List PByte) : List Nat := (List.range bs.length).filter fun i => (bs.getD i (0, false)).2

/-- An element of a record decoded to BF16, rounded once (R264). -/
def TileRec.decodeBf (t : TileRec) (j : Nat) : Nat :=
  let e := t.e.getD (t.blk j) 0
  let r := (t.res j).getD 0
  if e = 0xFF ∨ bf16.isNaN r then bf16.nan
  else if bf16.isInf r then bf16.inf (bf16.sign r)
  else
    let body : Dy := if e = 0 then ⟨false, 0, 0⟩ else dyOfInt (2 * t.codes.getD j 0 + 1) ((e : Int) - 128 - t.muOf j)
    (roundFP bf16 0 (dyAdd 0 body (bf16.real r))).1

/-- CDEC: one tile record (R264). -/
def State.iterCdec (s : State) (b : Block) (k : Nat) (cmd : Cmd) (d : Desc) (v : List Nat) : State :=
  let a := copyAddr d false v
  let z := copyAddr d true v
  match s.readTile b cmd (copySsp d) a with
  | (s, .error (e, x)) => s.engFault b k cmd e x
  | (s, .ok bs) =>
    let t := parseTile (bs.map (·.1))
    if recordBad (bs.map (·.1)) t then s.engFault b k cmd 0x18 (addr64 a)
    else
      let ps := poisonIx bs
      let els := (List.range 256).map fun j =>
        (leBytes (copyW d) (if copyEtype d = 0 then t.decode j else t.decodeBf j)).map fun x => (x, ps.any (recordTouches t j true))
      match s.engWriteEls b cmd (copyDsp d) ((elAddrs z (copyRpitch d) (copyW d) 16 16).zip els) with
      | (s, some (e, x)) => s.engFault b k cmd e x
      | (s, none) => s.iterDone b.key k cmd

/-- A ring word written by the device in its home block's scratchpad, an engine's write (R265, R310, R382). -/
def Block.putRing (b : Block) (at_ w : Nat) : Block :=
  { (b.spadWrite (mapFrom 0 (fun i x => (at_ + i, x)) (leBytes 4 w))).raceClear at_ 4 with spadForeign := true }

def State.putSlot (s : State) (home off slot w : Nat) : State := s.modNow home fun y => y.putRing (off + 64 + 4 * slot) w

/-- The block of a cluster that is resident on a core, as it stands in the present. -/
def State.memberOn (s : State) (b : Block) (core : Nat) : Option Block :=
  ((s.clusterOf b).find? fun x => decide (x.core = core) && x.resident).map s.nowOf

/-- CPYM: one element into every consumer's slot; the last marks the slot filled (R267). An address that fails is told as the scratchpad address
that it is (R365). -/
def State.iterCpym (s : State) (b : Block) (k : Nat) (cmd : Cmd) (d : Desc) (home off slot base size : Nat) (cores : List (Option Nat))
    (v : List Nat) : State :=
  let n := 2 ^ copyEsz d
  let a := copyAddr d false v
  let z := copyAddr d true v
  match s.engRead b cmd (copySsp d) a n with
  | (s, .error (e, x)) => s.engFault b k cmd e x
  | (s, .ok bs) =>
    if z < 0 ∨ (size : Int) < z + n then s.engFault b k cmd 0x14 (addr64 (base + (if z < 0 then z else max z size)))
    else
      let tgts := cores.map fun o => o.bind (s.memberOn b)
      if tgts.any Option.isNone then s.engFault b k cmd 0x15 (addr64 (base + z))
      else match tgts.find? fun o => o.any fun t => decide ((t.spSize : Int) < base + z + n) with
      | some o => s.engFault b k cmd 0x14 (addr64 (max (base + z) (o.map (·.spSize)).get!))
      | none =>
        let s := tgts.foldl (fun s o => match o with
          | some t => s.modNow t.key fun y => y.takeSpad true (mapFrom 0 (fun i x => (base + z.toNat + i, x)) bs)
          | none => s) s
        let s := if cmd.kind.count ≤ cmd.iter + 1 then
            match (s.block? home).map s.nowOf with
            | some h =>
              let w := h.slotWord s.tick off slot
              let w := w - nbits w 15 8 * 2 ^ 8 + (nbits w 15 8 + 1) % 256 * 2 ^ 8
              s.putSlot home off slot (if nbits w 7 7 = 0 then w + 128 else w)
            | none => s
          else s
        (s.iterDone b.key k cmd).wakeAll

/-! ## Issue of the copy commands -/

def copyKind (op : CopyOp) (d : Desc) (theta : Word) : CmdKind := .copy op d theta 0 0 0 0 0 []

/-- The snapshot of a copy command. -/
def copyMake (op : CopyOp) (c : Cx) (off : Word) (theta : Word) (s : State) : Except Nat CmdKind :=
  match s.descAt c.bk off.toNat 64 with
  | none => .error 0x20
  | some v =>
    let d : Desc := BitVec.ofNat 512 v
    if !copyOk op d then .error 0x20
    else if op = .cenc ∧ (fp32.isNaN theta.toNat ∨ (fp32.sign theta.toNat ∧ ¬ fp32.isZero theta.toNat)) then .error 0x20
    else .ok (copyKind op d theta)

/-- R262: a copy over a five-level loop nest. -/
def execCpy (x : EngArgs) (s : State) : Host.Outcome State Fault Refusal :=
  s.withGuardN x.g fun c _ => s.issueOne c (issueOf 0x00 x) (copyMake .cpy c (c.opS s.tick x.o1) 0)

/-- R263: split-encodes 16×16 tiles. -/
def execCenc (x : EngArgs) (s : State) : Host.Outcome State Fault Refusal :=
  s.withGuardN x.g fun c _ => s.issueOne c (issueOf 0x01 x) (copyMake .cenc c (c.opS s.tick x.o1) (c.opS s.tick x.o2))

/-- R264: decodes tile records. -/
def execCdec (x : EngArgs) (s : State) : Host.Outcome State Fault Refusal :=
  s.withGuardN x.g fun c _ => s.issueOne c (issueOf 0x02 x) (copyMake .cdec c (c.opS s.tick x.o1) 0)

/-! ## Multicast rings (R265 to R267) -/

/-- The physical core that a logical slot of the issuing block's cell names; 7 is the issuing core (R136, R137). -/
def Cx.slotCore (c : Cx) (h : Nat) : Nat :=
  if h = 7 then c.b.core else c.b.cell * 8 + c.b.place.pos h

/-- The descriptor keeps R265, which lists slot words 0 to NS: those past NS are not checked (log 131). -/
def Block.ringOk (b : Block) (tick off : Nat) : Bool :=
  let cfg := b.ringWord tick off 0
  let ns := nbits cfg 3 0
  decide (off % 64 = 0 ∧ off + 128 ≤ b.spSize)
  && decide (1 ≤ nbits cfg 31 16 ∧ nbits cfg 31 16 ≤ 16384 ∧ nbits cfg 15 15 = 0 ∧ nbits cfg 14 8 ≠ 0 ∧ b.ringWord tick off 1 % 64 = 0
      ∧ b.ringWord tick off 2 ≤ ns)
  && (List.range 13).all (fun i => b.ringWord tick off (3 + i) == 0)
  && (List.range (ns + 1)).all fun k => decide (b.slotWord tick off k < 65536)

/-- The home block of a ring form, where its issue check passes (R266). -/
def State.ringHome (s : State) (c : Cx) (h off : Nat) : Option Block :=
  match s.memberOn c.b (c.slotCore h) with
  | some b => if b.ringOk s.tick off then some b else none
  | none => none

/-- A ring form has run on the descriptor (R265, log 97). -/
def State.useRing (s : State) (home off : Nat) : State :=
  s.modNow home fun y => if y.rings.contains off then y else { y with rings := insertSorted off y.rings }

/-- Slots whose mask is not zero (R265). -/
def Block.occupancy (b : Block) (tick off : Nat) : Nat :=
  ((List.range (nbits (b.ringWord tick off 0) 3 0 + 1)).filter fun k => decide (nbits (b.slotWord tick off k) 6 0 ≠ 0)).length

/-- A ring boost ends when the occupancy falls below the low watermark (R86). -/
def State.boostEnds (s : State) (home off : Nat) : State :=
  match (s.block? home).map s.nowOf with
  | none => s
  | some h =>
    if h.boosts.contains off && decide (h.occupancy s.tick off < nbits (h.ringWord s.tick off 0) 7 4)
    then s.modNow home fun y => { y with boosts := y.boosts.filter (· ≠ off) } else s

/-- R266: the slot at HEAD is claimed once it is free and no boost holds the warp. -/
def execRingp (x : EngArgs) (s : State) : Host.Outcome State Fault Refusal :=
  s.withGuardN x.g fun c _ =>
    let off := (c.opS s.tick x.o1).toNat
    match s.waitLogged c with
    | some s => s.waitAct c (.ringp ((s.ringHome c (x.dimm.toNat % 8) off).elim c.bk (·.key)) off)
    | none => match s.fromLog c x.sdst.toNat false with
    | some s => s
    | none => match s.ringHome c (x.dimm.toNat % 8) off with
      | none => s.warpTrap c 0x20 0
      | some h =>
        let cfg := h.ringWord s.tick off 0
        let ns := nbits cfg 3 0
        let hd := h.ringWord s.tick off 2
        let s := s.useRing h.key off
        if h.ringFree s.tick off then
          let w := h.slotWord s.tick off hd
          let s := s.putSlot h.key off hd (nbits w 15 8 * 2 ^ 8 + nbits cfg 14 8)
          let s := s.modNow h.key fun y => y.putRing (off + 8) ((hd + 1) % (ns + 1))
          (s.giveS c.bk c.wi x.sdst.toNat (BitVec.ofNat 32 hd)).acquire c.bk 2
        else
          let full := (List.range (ns + 1)).all fun k => decide (nbits (h.slotWord s.tick off k) 6 0 ≠ 0)
          let s := if full && decide (nbits cfg 7 4 ≠ 0) && !h.boosts.contains off
            then (s.modNow h.key fun y => { y with boosts := y.boosts ++ [off] }).boostEnds h.key off else s
          (s.logWait c).waitAct c (.ringp h.key off)

/-- Both RINGC forms: the warp records its ring (R86); home block, slot and the issuing core's bit, where the checks pass. -/
def State.ringcArgs (s : State) (c : Cx) (x : EngArgs) : Option (Block × Nat × Nat × Nat) :=
  let off := (c.opS s.tick x.o1).toNat
  let slot := (c.opS s.tick x.o2).toNat
  match s.ringHome c (x.dimm.toNat % 8) off with
  | none => none
  | some h => if nbits (h.ringWord s.tick off 0) 3 0 < slot then none else some (h, off, slot, c.b.lslot)

/-- R266: the issuing core's bit of a slot is released at CELL scope. -/
def execRingc (x : EngArgs) (s : State) : Host.Outcome State Fault Refusal :=
  s.withGuardN x.g fun c _ =>
    if s.replaying c.bk then s
    else match s.ringcArgs c x with
    | none => s.warpTrap c 0x20 0
    | some (h, off, slot, bit) =>
      let s := ((s.release c.bk c.wi 2).useRing h.key off).modWarp c.bk c.wi fun w => { w with ring := some (h.key, off) }
      let w := h.slotWord s.tick off slot
      if w / 2 ^ bit % 2 = 0 then s
      else
        let w := w - 2 ^ bit
        let w := if nbits w 6 0 = 0 ∧ nbits w 7 7 = 1 then w - 128 else w
        ((s.putSlot h.key off slot w).boostEnds h.key off).wakeAll

/-- R266: wait until a slot is full and holds the core's bit, then acquire at CELL scope. -/
def execRingcWait (x : EngArgs) (s : State) : Host.Outcome State Fault Refusal :=
  s.withGuardN x.g fun c _ =>
    if s.replaying c.bk then
      match s.waitLogged c, s.ringcArgs c x with
      | some s, some (h, off, slot, bit) => s.waitAct c (.ringc h.key off slot bit)
      | some s, none => s.waitAct c (.ringc c.bk 0 0 0)
      | none, _ => s
    else match s.ringcArgs c x with
    | none => s.warpTrap c 0x20 0
    | some (h, off, slot, bit) =>
      let s := (s.useRing h.key off).modWarp c.bk c.wi fun w => { w with ring := some (h.key, off) }
      let w := h.slotWord s.tick off slot
      if nbits w 7 7 = 1 ∧ w / 2 ^ bit % 2 = 1 then s.acquire c.bk 2
      else (s.logWait c).waitAct c (.ringc h.key off slot bit)

/-- The snapshot of a CPYM: descriptor, ring, slot, and the consumers' cores. -/
def cpymMake (c : Cx) (x : EngArgs) (tick : Nat) (s : State) : Except Nat CmdKind :=
  let off := (c.opS tick x.o2).toNat
  let slot := (c.opS tick x.o3).toNat
  match copyMake .cpym c (c.opS tick x.o1) 0 s, s.ringHome c (x.dimm.toNat % 8) off with
  | .ok (.copy _ d _ _ _ _ _ _ _), some h =>
    let cfg := h.ringWord s.tick off 0
    let w := h.slotWord s.tick off slot
    if nbits cfg 3 0 < slot ∨ nbits w 6 0 = 0 ∨ nbits w 7 7 = 1 then .error 0x20
    else
      let size := 64 * nbits cfg 31 16
      .ok (.copy .cpym d 0 h.key off slot (h.ringWord s.tick off 1 + size * slot) size
        (((List.range 7).filter fun i => cfg / 2 ^ (8 + i) % 2 = 1).map fun i => some (c.slotCore i)))
  | _, _ => .error 0x20

/-- R267: a copy into a claimed slot of every consumer. -/
def execCpym (x : EngArgs) (s : State) : Host.Outcome State Fault Refusal :=
  s.withGuardN x.g fun c _ => s.issueOne c (issueOf 0x03 x) (cpymMake c x s.tick)

/-! ## Storage and peer reads (R277, R278) -/

/-- An NVMe entry that can be used: its handle in range, V set. -/
def State.nvmeOk (s : State) (h : Nat) : Bool := decide (h < 256) && (tgetD s.nvme h 0).getLsbD 511

/-- The logical block size of an NVMe entry (R333). -/
def State.blockLen (s : State) (h : Nat) : Nat := if (tgetD s.nvme h 0).getLsbD 320 then 4096 else 512

/-- The snapshot of an IORD; a storage target with V clear is the place fault of R136. -/
def iordMake (c : Cx) (x : EngArgs) (tick : Nat) (s : State) : Except Nat CmdKind :=
  let t := c.b.place.stgt.getD (x.dimm.toNat % 16) 0
  let sp := x.dimm.getLsbD 4
  let src := c.opS64 tick x.o1
  let dst := c.opS64 tick x.o2
  let len := (c.opS tick x.o3).toNat
  let h := nbits t.toNat 27 0
  if !t.getLsbD 31 then .error 0x16
  else if 2 ≤ nbits t.toNat 30 28 ∨ len = 0 ∨ 2 ^ 20 < len then .error 0x20
  else if nbits t.toNat 30 28 = 0 ∧ s.nvmeOk h ∧ len % s.blockLen h ≠ 0 then .error 0x20
  else if nbits t.toNat 30 28 = 1 ∧ (src.toNat % 4 ≠ 0 ∨ dst.toNat % 4 ≠ 0 ∨ len % 4 ≠ 0) then .error 0x20
  else if sp ∧ c.b.spSize < dst.toNat % 2 ^ 32 + len then .error 0x20
  else .ok (.iord sp src dst len t)

/-- R277: a read of NVMe or UALink peer storage. -/
def execIord (x : EngArgs) (s : State) : Host.Outcome State Fault Refusal :=
  s.withGuardN x.g fun c _ => s.issueOne c (issueOf 0x0C x) (iordMake c x s.tick)

/-- The bytes of request `r`. -/
def iordLen (len r : Nat) : Nat := min 32768 (len - 32768 * r)

/-- The Read command that a request of KIND 0 sends to its NVMe controller (R278): namespace, first logical block, blocks. -/
structure NvmeRead where
  nsid : Nat
  slba : Nat
  blocks : Nat
deriving DecidableEq, Repr

/-- A physical range written by an agent that holds it in no L1: the Wellhead, or a controller. -/
def State.writePa (s : State) (pa : Nat) (bs : List Byte) : State :=
  match s.paKey? pa with
  | some k => (s.l2WriteN s.anyDie k bs).foreignStore none ((List.range bs.length).map (k + ·))
  | none => s

/-- A doorbell is written (R333). -/
def State.ring (s : State) (addr v : Nat) : State :=
  s.modWh fun w => { w with doorbells := w.doorbells ++ [{ addr := BitVec.ofNat 64 addr, value := BitVec.ofNat 32 v }] }

/-- How many Reads stand in the queue pair `h`. -/
def State.readsOpen (s : State) (h : Nat) : Nat :=
  (s.blocks.flatMap fun b => b.ecs.flatMap fun e => e.cmds.filter fun c => c.asked.isSome && match c.kind with
    | .iord _ _ _ _ t => nbits t.toNat 30 28 == 0 && nbits t.toNat 27 0 == h
    | _ => false).length

/-- The Read command as it stands in the submission queue, by the layout of the NVMe specification (log 124). Its identifier and its data
pointers are free values. -/
def NvmeRead.entry (r : NvmeRead) (tick : Nat) : List Byte :=
  let f n k := (List.range n).map fun i => Config.freeByte tick (k + i)
  leBytes 2 2 ++ f 2 0 ++ leBytes 4 r.nsid ++ leBytes 16 0 ++ f 16 2 ++ leBytes 8 r.slba ++ leBytes 4 (r.blocks - 1) ++ leBytes 12 0

/-- The Read command of a request joins the submission queue of its pair where there is room, and the doorbell tells the controller. -/
def State.submitRead (s : State) (b : Block) (k : Nat) (cmd : Cmd) (h : Nat) (r : NvmeRead) : State :=
  let e := (tgetD s.nvme h 0).toNat
  let q := tgetD s.wh.nvmePairs h {}
  let tail := (q.sqTail + 1) % (nbits e 271 256 + 1)
  if cmd.asked = some cmd.iter ∨ max 1 (nbits e 271 256) ≤ s.readsOpen h then s
  else
    let s := (s.writePa (nbits e 179 128 + 64 * q.sqTail) (r.entry s.tick)).ring (nbits e 63 0) tail
    (s.modWh fun w => { w with nvmePairs := tset w.nvmePairs h { q with sqTail := tail } }).modCmd b.key k cmd.tok fun c => { c with asked := some cmd.iter }

/-- The controller's completion entry of 16 bytes is taken from the completion queue; what it holds beside its status is free. -/
def State.takeCompletion (s : State) (b : Block) (k : Nat) (cmd : Cmd) (h : Nat) : State :=
  let e := (tgetD s.nvme h 0).toNat
  let q := tgetD s.wh.nvmePairs h {}
  let head := (q.cqHead + 1) % (nbits e 271 256 + 1)
  let s := (s.writePa (nbits e 243 192 + 16 * q.cqHead) ((List.range 16).map fun i => Config.freeByte s.tick (32 + i))).ring (nbits e 127 64) head
  (s.modWh fun w => { w with nvmePairs := tset w.nvmePairs h { q with cqHead := head } }).modCmd b.key k cmd.tok fun c => { c with asked := none }

/-- The Read command of request `r`, where its entry can be used (R333). -/
def State.nvmeRead (s : State) (tgt : Word) (src : DWord) (len r : Nat) : Option NvmeRead :=
  let h := nbits tgt.toNat 27 0
  if s.nvmeOk h then
    some { nsid := nbits (tgetD s.nvme h 0).toNat 319 288, slba := (src.toNat + 32768 * r / s.blockLen h) % 2 ^ 64, blocks := iordLen len r / s.blockLen h }
  else none

/-- The storage address of request `r` of KIND 1, or the first address that fails: HANDLE is the peer index of R303, S2s the offset in that
peer's window (R277, log 117). An entry, a window or a port that does not serve it is the translation fault (R303, R374). -/
def State.peerRead (s : State) (tgt : Word) (src : DWord) (len r : Nat) : Except Nat Nat :=
  let h := nbits tgt.toNat 27 0
  let off := src.toNat + 32768 * r
  let pa := h * 2 ^ 38 + off
  if 1024 ≤ h ∨ 2 ^ 38 ≤ off ∨ !s.peerOk pa then .error ((peerBase + pa) % 2 ^ 64)
  else
    let window := nbits (tgetD s.peers h 0).toNat 38 0
    if window < off + iordLen len r then .error (peerBase + h * 2 ^ 38 + window) else .ok (peerBase + pa)

/-- The next request of an IORD can be sent nowhere: the I/O engine fault of an entry that cannot be used, or the translation fault of a peer
(R333, R278, R303), with its address. -/
def State.iordBroken (s : State) (tgt : Word) (src : DWord) (len r : Nat) : Option (Nat × Nat) :=
  if nbits tgt.toNat 30 28 = 0 then (if (s.nvmeRead tgt src len r).isNone then some (0x1B, 0) else none)
  else match s.peerRead tgt src len r with
    | .error a => some (0x12, a)
    | .ok _ => none

/-- The data of the next request is written to its target. -/
def State.iordData (s : State) (b : Block) (k : Nat) (cmd : Cmd) (sp : Bool) (dst : DWord) (bs : List PByte) : State :=
  let a : Int := if sp then (dst.toNat % 2 ^ 32 + 32768 * cmd.iter : Nat) else (dst.toNat + 32768 * cmd.iter : Nat)
  match s.engWrite b cmd (if sp then 1 else 0) a bs with
  | (s, some (e, x)) => s.engFault b k cmd e x
  | (s, none) => s.iterDone b.key k cmd

/-- The next request of an IORD as far as the device does it of itself: one that can be sent nowhere fails; a UALink read returns what the
peer's memory holds, what an L2 here had modified written back first (R278, R164, log 108); a Read command is sent to its controller. -/
def State.iterIord (s : State) (b : Block) (k : Nat) (cmd : Cmd) (sp : Bool) (src dst : DWord) (len : Nat) (tgt : Word) : State :=
  match s.iordBroken tgt src len cmd.iter with
  | some (e, a) => s.engFault b k cmd e a
  | none =>
    let n := iordLen len cmd.iter
    if nbits tgt.toNat 30 28 = 0 then
      match s.nvmeRead tgt src len cmd.iter with
      | some r => s.submitRead b k cmd (nbits tgt.toNat 27 0) r
      | none => s
    else match s.peerRead tgt src len cmd.iter with
      | .error _ => s
      | .ok a =>
        let s := s.cleanHLines fun h => decide (a / 128 ≤ h.line ∧ h.line ≤ (a + n - 1) / 128)
        s.iordData b k cmd sp dst ((List.range n).map fun i => (s.mem.read (a + i), s.poisoned (a + i)))

/-- IO_REQUEST_COMPLETE (R278): the storage answers the open request of an IORD with its data, poisoned or not (R371), or with an error; a
controller only a Read that stands in its queue, which it answers while its context is pre-empted too (R91). A peer's data is what its memory
holds. -/
def execIoRequestComplete (b k tok : Nat) (ok : Bool) (data : Payload) (s : State) : Host.Outcome State Fault Refusal :=
  .next <| match s.block? b with
  | none => s
  | some bl => match bl.cmd? k tok with
    | none => s
    | some cmd => match cmd.kind with
      | .iord sp src dst len tgt =>
        let nvme := decide (nbits tgt.toNat 30 28 = 0)
        if !(s.cmdReady bl cmd || cmd.sent && s.cmdFree bl cmd) || (s.iordBroken tgt src len cmd.iter).isSome || (nvme && !cmd.sent) then s
        else if nvme && ok && decide (data.bytes.length ≠ iordLen len cmd.iter) then s
        else
          let s := if nvme then s.takeCompletion bl k cmd (nbits tgt.toNat 27 0) else s
          let cmd := if nvme then { cmd with asked := none } else cmd
          if !ok then s.engFault bl k cmd 0x1B 0
          else if nvme then s.iordData bl k cmd sp dst (data.bytes.map fun x => (x, data.pois))
          else s.iterIord bl k cmd sp src dst len tgt
      | _ => s

/-! ## What a command writes of its own block (R67) -/

/-- An iteration of a copy through the window, of those that are still to come, writes a resource of the command's own block (R67). -/
def State.winOwn (s : State) (b : Block) (cmd : Cmd) (op : CopyOp) (d : Desc) : Bool :=
  (List.range (cmd.kind.count - cmd.iter)).any fun n =>
    (copyDstBytes op d (vecOf cmd.kind.bounds (cmd.iter + n))).any fun a =>
      match s.winCore (b.asCx cmd.warp cmd.place) (addr64 a) with
      | .error _ => false
      | .ok k => (winTgt k (addr64 a)).any b.holdsTgt

/-- The command writes its own block's scratchpad, registers or accumulators (R67). -/
def State.writesOwn (s : State) (b : Block) (cmd : Cmd) : Bool :=
  match cmd.kind with
  | .copy .cpym _ _ home _ _ _ _ cores => home == b.key || cores.contains (some b.core)
  | .copy op d _ _ _ _ _ _ _ => if copyDsp d = 0 then false else if copyDsp d = 1 then true else s.winOwn b cmd op d
  | .iord sp _ _ _ _ => sp
  | .drain d _ clr => clr || d.getLsbD 394
  | .launch => false
  | _ => true

/-! ## Device-side launch (R65, R279, R280) -/

/-- A launch record read from 64 bytes, where it keeps R279. CODE need not be a multiple of 4 (log 116). -/
def parseLaunch (v : Nat) : Option LaunchRec :=
  let ec := (List.range 8).map fun k => nbits v (266 + 3 * k) (264 + 3 * k)
  let r : LaunchRec :=
    { code := BitVec.ofNat 64 v, param := BitVec.ofNat 64 (v / 2 ^ 64), done := BitVec.ofNat 64 (v / 2 ^ 128),
      nblk := nbits v 223 192, nthr := nbits v 234 224, clus := nbits v 237 235, spad := nbits v 249 239, nacc := nbits v 254 250,
      tlrv := decide (nbits v 255 255 = 1), tlri := nbits v 263 256, ecscope := ec.map fun e => if e = 0 then 1 else e }
  if nbits v 511 288 ≠ 0 ∨ ec.any (fun e => decide (6 ≤ e)) ∨ 16 < r.nacc ∨ 1024 < r.spad ∨ nbits v 238 238 ≠ 0 ∨ 7 ≤ r.clus ∨ r.nthr = 0
      ∨ 1024 < r.nthr ∨ r.nblk = 0 ∨ r.nblk % (r.clus + 1) ≠ 0 ∨ r.done.toNat % 8 ≠ 0 then none
  else some r

/-- A warp moves to the pending set of its slice. -/
def State.toPending (s : State) (bk wi : Nat) : State :=
  s.modWarp bk wi fun w => { w with active := false, enter := s.tick, readyClk := 0 }

/-- R280, R65: a launch record joins the block's pending-launch queue; while it is full the thread waits and its warp is pending. -/
def execLaunch (x : EngArgs) (s : State) : Host.Outcome State Fault Refusal :=
  s.withGuardN x.g fun c _ =>
    let off := (c.opS s.tick x.o1).toNat
    match s.waitLogged c with
    | some s => (s.waitAct c .launchFull).toPending c.bk c.wi
    | none => match s.fromLog c x.sdst.toNat true with
    | some s => s
    | none =>
      let i := issueOf 0x0D x
      let s := (s.release c.bk c.wi 4).release c.bk c.wi (c.ecScope i.ec)
      if !(c.b.eng i.ec).room then (s.logWait c).waitAct c (.room i.ec)
      else match (s.descAt c.bk off 64).bind parseLaunch with
        | none => s.warpTrap c 0x20 0
        | some r =>
          if 4 ≤ c.b.launchq.length then ((s.logWait c).waitAct c .launchFull).toPending c.bk c.wi
          else
            let (s, tok) := s.startCmd c i.op i.ec .launch
            let s := s.modBlock c.bk fun b => { b with launchq := b.launchq ++ [{ lrec := r, ec := i.ec, tok := tok }] }
            s.giveS64 c.bk c.wi i.sdst (BitVec.ofNat 64 tok)

end Sys2Proof.Machine
end

