-- ==== Sys2Proof/Machine/Mat.lean ====
section
/-! DEFINITION. Gangs (R61 to R64, R268, R352), matrix commands (R111 to R115, R269 to R273), drain and accumulators (R117, R118,
R274 to R276). -/

namespace Sys2Proof.Machine

/-! ## The arithmetic of the matrix path (R111 to R113) -/

/-- A factor or a sum: every NaN is one (R113). -/
inductive MVal where
  | nan
  | inf (neg : Bool)
  | fin (x : Dy)
deriving DecidableEq, Repr

def MVal.zero : MVal := .fin ⟨false, 0, 0⟩

def MVal.ofFp (f : Fmt) (v : Nat) : MVal :=
  if f.isNaN v then .nan else if f.isInf v then .inf (f.sign v) else .fin (f.real v)

def MVal.mul : MVal → MVal → MVal
  | .fin x, .fin y => .fin (dyMul x y)
  | .inf n, .inf m => .inf (n != m)
  | .inf n, .fin y => if y.m = 0 then .nan else .inf (n != y.neg)
  | .fin x, .inf m => if x.m = 0 then .nan else .inf (x.neg != m)
  | _, _ => .nan

def MVal.add : MVal → MVal → MVal
  | .fin x, .fin y => .fin (dyAdd 0 x y)
  | .inf n, .inf m => if n = m then .inf n else .nan
  | .inf n, .fin _ => .inf n
  | .fin _, .inf m => .inf m
  | _, _ => .nan

def MVal.toFp32 : MVal → Nat
  | .nan => fp32.nan
  | .inf n => fp32.inf n
  | .fin x => (roundFP fp32 0 x).1

/-- One step of R111: the accumulator and a term, rounded once. -/
def accStep (acc : Nat) (t : MVal) : Nat := ((MVal.ofFp fp32 acc).add t).toFp32

/-- An element of an operand: its body value, its residual, and whether it takes bits from a poisoned word. -/
structure MEl where
  body : MVal
  res : Option MVal := none
  pois : Bool := false
deriving DecidableEq, Repr

/-- The outlier steps of one k. -/
def accOutliers (acc : Nat) (p : MEl × MEl) : Nat :=
  let acc := match p.1.res with | some ra => accStep acc (ra.mul p.2.body) | none => acc
  let acc := match p.2.res with | some rb => accStep acc (p.1.body.mul rb) | none => acc
  match p.1.res, p.2.res with
  | some ra, some rb => accStep acc (ra.mul rb)
  | _, _ => acc

/-- R111 over one K-block: the exact body sum, then the outlier steps in ascending k. -/
def foldBlock (acc : Nat) (ps : List (MEl × MEl)) : Nat :=
  ps.foldl accOutliers (accStep acc (ps.foldl (fun s p => s.add (p.1.body.mul p.2.body)) .zero))

/-! ## Operand records (R269, R273) -/

inductive MRec where
  | split (t : TileRec) (pois : List Nat)
  | dense (bs : List PByte)
deriving DecidableEq, Repr

/-- The body value of a code (R103). -/
def bodyVal (e mu : Nat) (code : Int) : MVal :=
  if e = 0xFF then .nan else if e = 0 then .zero else .fin (dyOfInt (2 * code + 1) ((e : Int) - 128 - mu))

/-- Element j of a record; `scale` is the E that a gang supplies instead of the record's own (R270). -/
def MRec.el (m : MRec) (j : Nat) (scale : Option Nat) : MEl :=
  match m with
  | .split t ps =>
    { body := bodyVal (scale.getD (t.e.getD (t.blk j) 0)) (t.muOf j) (t.codes.getD j 0),
      res := (t.res j).map (MVal.ofFp bf16), pois := ps.any (recordTouches t j scale.isNone) }
  | .dense bs =>
    let b0 := bs.getD (2 * j) (0, false)
    let b1 := bs.getD (2 * j + 1) (0, false)
    { body := MVal.ofFp bf16 (b0.1.toNat + 256 * b1.1.toNat), pois := b0.2 || b1.2 }

/-- An operand of a matrix command: its space, its base, dense or split, the KDIR of its records, and whether near-memory
units read it. -/
structure Operand where
  sp : Nat
  base : Int
  dense : Bool
  kdir : Bool
  nm : Bool := false

/-- The page of a B record that near-memory units read has NM and lies in a stack, and the record does not cross it (R272, R9). -/
def State.nmOk (s : State) (b : Block) (a n : Nat) : State × Option Nat :=
  match s.devPage b.ctx a .read with
  | (s, .error e) => (s, some e)
  | (s, .ok t) => (s, if !t.nm || isOutside t.key || decide (65536 < a % 65536 + n) then some 0x1A else none)

/-- Every owner of a line of the range writes it home; copies stay (R143). -/
def State.writeHome (s : State) (key n : Nat) : State :=
  let lines := (List.range ((key + n - 1) / 128 - key / 128 + 1)).map (key / 128 + ·)
  if isOutside key then s.cleanHLines fun h => lines.contains h.line
  else lines.foldl (fun s l => (s.ownerHome l).setDir l (s.dirOf l).home) s

/-- Bytes of an operand: by near-memory units, which read the stack itself (R143), or by the engine. -/
def State.operandBytes (s : State) (b : Block) (cmd : Cmd) (o : Operand) (a : Int) (n : Nat) : State × Except (Nat × Nat) (List PByte) :=
  if !o.nm then s.engRead b cmd o.sp a n
  else
    let va := addr64 a
    match s.devRange b.ctx va n .read with
    | (s, .error e) => (s, .error e)
    | (s, .ok (p, q)) =>
      let s := (s.writeHome (byteKey p q va 0) 1).writeHome (byteKey p q va (n - 1)) 1
      let s := if n ≤ 128 then s else s.writeHome (byteKey p q va 0) n
      (s, .ok ((List.range n).map fun i => (s.cohByte (byteKey p q va i), s.poisoned (byteKey p q va i))))

/-- The header word of a record. -/
def State.recHeader (s : State) (b : Block) (cmd : Cmd) (o : Operand) (a : Int) : State × Except (Nat × Nat) Nat :=
  let (s, bad) := if o.nm then s.nmOk b (addr64 a) 4 else (s, none)
  match bad with
  | some e => (s, .error (e, addr64 a))
  | none => match s.operandBytes b cmd o a 4 with
    | (s, .error e) => (s, .error e)
    | (s, .ok h) => (s, .ok (leNat (h.map (·.1))))

/-- FMT and CAP of an operand's first record, read where they are not known yet. -/
def State.firstRec (s : State) (b : Block) (cmd : Cmd) (o : Operand) (known : Option (Nat × Nat)) :
    State × Except (Nat × Nat) (Nat × Nat) :=
  match known with
  | some f => (s, .ok f)
  | none =>
    if o.dense then (s, .ok (0, 0))
    else match s.recHeader b cmd o o.base with
      | (s, .error e) => (s, .error e)
      | (s, .ok h) => if 2 ≤ hdrFmt h ∨ 64 < hdrCap h then (s, .error (0x18, addr64 o.base)) else (s, .ok (hdrFmt h, hdrCap h))

/-- Record `i` of an operand whose first record has format and capacity `f` (R273). -/
def State.operandRec (s : State) (b : Block) (cmd : Cmd) (o : Operand) (f : Nat × Nat) (i : Nat) :
    State × Except (Nat × Nat) MRec :=
  if o.dense then
    let a := o.base + (512 * i : Nat)
    match s.engRead b cmd o.sp a 512 with
    | (s, .error e) => (s, .error e)
    | (s, .ok bs) => (s, .ok (.dense bs))
  else
    let n := recSize (decide (f.1 = 1)) f.2
    let a := o.base + (n * i : Nat)
    match s.recHeader b cmd o a with
    | (s, .error e) => (s, .error e)
    | (s, .ok h) =>
      if hdrFmt h ≠ f.1 ∨ hdrCap h ≠ f.2 ∨ hdrKdir h ≠ o.kdir then (s, .error (0x18, addr64 a))
      else
        let (s, bad) := if o.nm then s.nmOk b (addr64 a) n else (s, none)
        match bad with
        | some e => (s, .error (e, addr64 a))
        | none => match s.operandBytes b cmd o a n with
          | (s, .error e) => (s, .error e)
          | (s, .ok bs) =>
            let t := parseTile (bs.map (·.1))
            if recordBad (bs.map (·.1)) t then (s, .error (0x18, addr64 a)) else (s, .ok (.split t (poisonIx bs)))

/-- Several records of an operand. -/
def State.operandRecs (s : State) (b : Block) (cmd : Cmd) (o : Operand) (f : Nat × Nat) :
    List Nat → State × Except (Nat × Nat) (List MRec)
  | [] => (s, .ok [])
  | i :: is => match s.operandRec b cmd o f i with
    | (s, .error e) => (s, .error e)
    | (s, .ok r) => match s.operandRecs b cmd o f is with
      | (s, .error e) => (s, .error e)
      | (s, .ok rs) => (s, .ok (r :: rs))

/-! ## Accumulator tiles -/

/-- A whole tile replaced: element `j` of 4096 holds `f j`, or is undefined. -/
def Block.setTile (b : Block) (t : Nat) (f : Nat → Option Word) : Block :=
  { b with acc := b.acc.filter (fun e => decide (e.1 < 4096 * t))
      ++ (List.range 4096).filterMap (fun j => (f j).map fun v => (4096 * t + j, v))
      ++ b.acc.filter fun e => decide (4096 * (t + 1) ≤ e.1) }

/-- Element (i, j) of a tile. -/
def Block.accEl (b : Block) (tick t i j : Nat) : Word :=
  (tget b.acc (4096 * t + 64 * i + j)).getD (Config.freeWord tick (4096 * t + 64 * i + j))

/-- The elements (i, j) with i < m and j < n take a value and perhaps poison; the others keep theirs. -/
def Block.foldTile (b : Block) (t m n : Nat) (f : Nat → Nat → Word × Bool) : Block :=
  let inside (k : Nat) : Bool := decide (k / 4096 = t ∧ k % 4096 / 64 < m ∧ k % 64 < n)
  let b' := b.setTile t fun k => if k / 64 < m ∧ k % 64 < n then some (f (k / 64) (k % 64)).1 else tget b.acc (4096 * t + k)
  { b' with accPois := (List.range (m * n)).foldl (fun p k =>
      if (f (k / n) (k % n)).2 then insertSorted (4096 * t + 64 * (k / n) + k % n) p else p) (b.accPois.filter fun k => !inside k) }

/-- The 16 elements of row `i` of A in a K-block, with the E that scale `sc` gives. -/
def rowOf (as : List MRec) (i : Nat) (sc : Option Nat) : List MEl :=
  (List.range 16).map fun k => ((as[i / 16]?).getD (.dense [])).el (16 * (i % 16) + k) sc

/-- The 16 elements of column `j` of B in a K-block. -/
def colOf (bs : List MRec) (j : Nat) : List MEl :=
  (List.range 16).map fun k => ((bs[j / 16]?).getD (.dense [])).el (16 * k + j % 16) none

/-- What a K-block needs: both first records, then the records, or the fault. -/
def State.matBlock (s : State) (b : Block) (k : Nat) (cmd : Cmd) (oa ob : Operand) (ia ib : List Nat)
    (f : State → List MRec → List MRec → State) : State :=
  match s.firstRec b cmd oa cmd.firstA with
  | (s, .error e) => s.engFault b k cmd e.1 e.2
  | (s, .ok fa) => match s.firstRec b cmd ob cmd.firstB with
    | (s, .error e) => s.engFault b k cmd e.1 e.2
    | (s, .ok fb) =>
      let s := s.modCmd b.key k cmd.tok fun c => { c with firstA := some fa, firstB := some fb }
      match s.operandRecs b cmd oa fa ia with
      | (s, .error e) => s.engFault b k cmd e.1 e.2
      | (s, .ok as) => match s.operandRecs b cmd ob fb ib with
        | (s, .error e) => s.engFault b k cmd e.1 e.2
        | (s, .ok bs) => (f s as bs).iterDone b.key k cmd

/-- The base of an operand: a scratchpad offset is the low word (R269). -/
def opBase (sp : Nat) (a : DWord) : Int := if sp = 1 then (a.toNat % 2 ^ 32 : Nat) else (a.toNat : Nat)

def dimM (dimm : BitVec 13) : Nat := 16 * 2 ^ nbits dimm.toNat 1 0
def dimN (dimm : BitVec 13) : Nat := 16 * 2 ^ nbits dimm.toNat 3 2
def dimKt (dimm : BitVec 13) : Nat := nbits dimm.toNat 7 4 + 1

/-- MMA and MMAB: K-block `kt` (R270). `scale` is E(i, kt), none for a dense A. -/
def State.iterMma (s : State) (b : Block) (k : Nat) (cmd : Cmd) (dimm : BitVec 13) (a bb : DWord) (ctl : Word) (dense bd : Bool)
    (scale : Nat → Option Nat) : State :=
  let c := ctl.toNat
  let m := dimM dimm
  let n := dimN dimm
  let kt := cmd.iter
  let oa : Operand := { sp := nbits c 4 4, base := opBase (nbits c 4 4) a, dense := dense, kdir := false }
  let ob : Operand := { sp := nbits c 5 5, base := opBase (nbits c 5 5) bb, dense := dense || bd, kdir := true }
  s.matBlock b k cmd oa ob ((List.range (m / 16)).map fun ta => ta * dimKt dimm + kt) ((List.range (n / 16)).map fun tb => kt * (n / 16) + tb)
    fun s as bs =>
      let t := nbits c 3 0
      s.modBlock b.key fun y => y.foldTile t m n fun i j =>
        let ps := (rowOf as i (scale i)).zip (colOf bs j)
        (BitVec.ofNat 32 (foldBlock (y.accEl s.tick t i j).toNat ps),
         y.accPois.contains (4096 * t + 64 * i + j) || ps.any fun p => p.1.pois || p.2.pois)

/-- MMV: K-tile `t` (R115, R272). -/
def State.iterMmv (s : State) (b : Block) (k : Nat) (cmd : Cmd) (dimm : BitVec 13) (a : Nat) (bb : DWord) (ctl : Word) : State :=
  let m := nbits dimm.toNat 2 0 + 1
  let n := 16 * 2 ^ nbits dimm.toNat 4 3
  let kt := cmd.iter
  let oa : Operand := { sp := 1, base := (a : Nat), dense := dimm.getLsbD 5, kdir := false }
  let ob : Operand := { sp := 0, base := (bb.toNat : Nat), dense := false, kdir := true, nm := true }
  s.matBlock b k cmd oa ob [kt] ((List.range (n / 16)).map fun tb => kt * (n / 16) + tb) fun s as bs =>
    let t := nbits ctl.toNat 3 0
    s.modBlock b.key fun y => y.foldTile t m n fun i j =>
      let ps := (rowOf as i none).zip (colOf bs j)
      (BitVec.ofNat 32 (accStep (y.accEl s.tick t i j).toNat (MVal.ofFp fp32 (foldBlock 0 ps))),
       y.accPois.contains (4096 * t + 64 * i + j) || ps.any fun p => p.1.pois || p.2.pois)

/-! ## Drain and dropout (R117, R118, R274, R275) -/

def mix1 : Nat := 0x8F3A61C5D29B7E15
def mix2 : Nat := 0xB7E40A935C6DF2A9
def mix3 : Nat := 0xD3C19B578E2F46B1

def mixRound (h : DWord) (m : Nat) : DWord := (h ^^^ (h >>> 29)) * BitVec.ofNat 64 m

/-- The keep test of R118. -/
def keepTest (row col : Word) (key : DWord) (p16 : Nat) : Bool :=
  let h := mixRound (mixRound (mixRound ((row ++ col) ^^^ key) mix1) mix2) mix3
  let h := h ^^^ (h >>> 32)
  decide (p16 ≤ nbits h.toNat 63 48)

def drainFmt (code : Nat) : Fmt := match code with | 0 => fp32 | 1 => bf16 | _ => fp16
def drainBytes (code : Nat) : Nat := if code = 0 then 4 else 2

/-- R117: α × acc, dropout, residual; in FP32. `kept` is none without dropout. -/
def drainValue (acc alpha scale : Nat) (kept : Option Bool) (res : Option MVal) : Nat :=
  let f := MVal.ofFp fp32
  let a := ((f alpha).mul (f acc)).toFp32
  let a := match kept with
    | some true => ((f a).mul (f scale)).toFp32
    | some false => 0
    | none => a
  match res with
  | some r => (r.add (f a)).toFp32
  | none => a

/-- The descriptor keeps R274. -/
def drainOk (d : Desc) : Bool :=
  decide (nbits d.toNat 511 416 = 0 ∧ nbits d.toNat 399 396 = 0 ∧ nbits d.toNat 391 390 ≠ 3 ∧ nbits d.toNat 389 388 ≠ 3
    ∧ nbits d.toNat 387 386 ≠ 3 ∧ nbits d.toNat 385 384 ≠ 3)

/-- Elements of `w` bytes read one after another, each at an aligned address: their bytes, or the first that fails with its cause. -/
def State.drainRead (s : State) (b : Block) (cmd : Cmd) (sp w : Nat) : List Int → State × Except (Nat × Nat) (List PByte)
  | [] => (s, .ok [])
  | a :: as =>
    if alignBad sp w a then (s, .error (0x10, addr64 a))
    else match s.engRead b cmd sp a w with
    | (s, .error e) => (s, .error e)
    | (s, .ok bs) => match s.drainRead b cmd sp w as with
      | (s, .error e) => (s, .error e)
      | (s, .ok cs) => (s, .ok (bs ++ cs))

/-- A row of elements written, each at an aligned address, or the first that fails with its cause, and then none is (log 40). -/
def State.drainWrite (s : State) (b : Block) (cmd : Cmd) (sp w : Nat) (es : List (Int × List PByte)) : State × Option (Nat × Nat) :=
  match es.find? fun e => alignBad sp w e.1 with
  | none => s.engWriteEls b cmd sp es
  | some z =>
    let pre := es.takeWhile fun e => !alignBad sp w e.1
    if sp = 0 then match s.engKeys b pre with
      | (s, .error x) => (s, some x)
      | (s, .ok _) => (s, some (0x10, addr64 z.1))
    else match pre.find? fun e => decide (e.1 < 0 ∨ (b.spSize : Int) < e.1 + e.2.length) with
      | some e => (s, some (0x14, b.spadEdge e.1))
      | none => (s, some (0x10, addr64 z.1))

/-- DRAIN: one accumulator row (R275), its residual before its output (log 130). A faulting row writes nothing (log 40). -/
def State.iterDrain (s : State) (b : Block) (k : Nat) (cmd : Cmd) (d : Desc) (tile : Nat) (clr : Bool) : State :=
  let v := d.toNat
  let i := cmd.iter
  let cols := 16 * 2 ^ nbits v 387 386
  let rw := drainBytes (nbits v 391 390)
  let ow := drainBytes (nbits v 389 388)
  let rsp := nbits v 395 395
  let osp := nbits v 394 394
  let resv := decide (nbits v 392 392 = 1)
  let ra := elAddrs (opBase rsp (BitVec.ofNat 64 (nbits v 127 64)) + (i * nbits v 383 352 : Nat)) 0 rw 1 cols
  let oa := elAddrs (opBase osp (BitVec.ofNat 64 (nbits v 63 0)) + (i * nbits v 351 320 : Nat)) 0 ow 1 cols
  match s.drainRead b cmd rsp rw (if resv then ra else []) with
    | (s, .error e) => s.engFault b k cmd e.1 e.2
    | (s, .ok rs) =>
      let els := (List.range cols).map fun j =>
        let row := BitVec.ofNat 32 (nbits v 287 256 + i)
        let col := BitVec.ofNat 32 (nbits v 319 288 + j)
        let kept := if nbits v 393 393 = 1 then some (keepTest row col (BitVec.ofNat 64 (nbits v 191 128)) (nbits v 415 400)) else none
        let mine := (rs.drop (rw * j)).take rw
        let res := if resv then some (MVal.ofFp (drainFmt (nbits v 391 390)) (leNat (mine.map (·.1)))) else none
        let y := drainValue (b.accEl s.tick tile i j).toNat (nbits v 223 192) (nbits v 255 224) kept res
        let y := if nbits v 389 388 = 0 then y
          else if fp32.isNaN y then (drainFmt (nbits v 389 388)).nan else (fConv fp32 (drainFmt (nbits v 389 388)) 0 y).1
        let p := b.accPois.contains (4096 * tile + 64 * i + j) || mine.any (·.2)
        (leBytes ow y).map fun x => (x, p)
      match s.drainWrite b cmd osp ow (oa.zip els) with
      | (s, some e) => s.engFault b k cmd e.1 e.2
      | (s, none) =>
        let s := if clr then s.modBlock b.key fun y =>
            { y with acc := (List.range cols).foldl (fun t j => tset t (4096 * tile + 64 * i + j) 0) y.acc,
                     accPois := y.accPois.filter fun e => !decide (e / 64 = 64 * tile + i ∧ e % 64 < cols) }
          else s
        s.iterDone b.key k cmd

/-- AZERO: the whole tile (R276). -/
def State.iterAzero (s : State) (b : Block) (k : Nat) (cmd : Cmd) (tile : Nat) : State :=
  (s.modBlock b.key fun y =>
    { y.setTile tile (fun _ => some 0) with accPois := y.accPois.filter fun e => decide (e / 4096 ≠ tile) }).iterDone b.key k cmd

/-- COMMAND_ITERATION (R259): the next iteration of a command that may run. -/
def execCommandIteration (b k tok : Nat) (s : State) : Host.Outcome State Fault Refusal :=
  .next <| match s.block? b with
  | none => s
  | some bl => match bl.cmd? k tok with
    | none => s
    | some cmd =>
      if !s.cmdReady bl cmd then s
      else match cmd.kind with
        | .copy .cpy d _ _ _ _ _ _ _ => s.iterCpy bl k cmd d (vecOf cmd.kind.bounds cmd.iter)
        | .copy .cenc d th _ _ _ _ _ _ => s.iterCenc bl k cmd d th (vecOf cmd.kind.bounds cmd.iter)
        | .copy .cdec d _ _ _ _ _ _ _ => s.iterCdec bl k cmd d (vecOf cmd.kind.bounds cmd.iter)
        | .copy .cpym d _ home off slot base size cores =>
          s.iterCpym bl k cmd d home off slot base size cores (vecOf cmd.kind.bounds cmd.iter)
        | .mma dimm a bb ctl scales =>
          s.iterMma bl k cmd dimm a bb ctl false (dimm.getLsbD 12) fun i =>
            let n := cmd.iter * dimM dimm + i
            some ((scales.getD n none).getD (Config.freeByte s.tick n)).toNat
        | .mmab dimm a bb ctl => s.iterMma bl k cmd dimm a bb ctl true true fun _ => none
        | .mmv dimm a bb ctl _ => s.iterMmv bl k cmd dimm a bb ctl
        | .drain d t clr => s.iterDrain bl k cmd d t clr
        | .azero t => s.iterAzero bl k cmd t
        | .iord sp src dst len tgt => s.iterIord bl k cmd sp src dst len tgt
        | .launch => s

/-! ## Gangs: forming and leaving (R62, R268) -/

def popcount (m : Mask) : Nat := m.list.length

/-- The rank of a warp in a mask (R61). -/
def rankIn (mask : Mask) (wi : Nat) : Nat := (mask.list.filter fun w => decide (w < wi)).length

/-- The issue check of R268 on a nonzero mask. -/
def gangMaskOk (c : Cx) (mask : Mask) : Bool :=
  decide (2 ≤ popcount mask ∧ popcount mask ≤ 6) && mask.has c.wi && mask.list.all (fun w => decide (w < c.b.warps.length)) && !c.w.gang.valid

/-- A warp is no longer in any other formation of its block (R268): those keep waiting. -/
def Core.leaveForming (k : Core) (bk wi : Nat) : Core :=
  { k with latches := k.latches.map fun l =>
      if l.2.block == bk && !l.2.formed then (l.1, { l.2 with joined := l.2.joined &&& ~~~(maskOf (· == wi)) }) else l }

/-- A formation joined in latch `k`; the last member forms the gang, whose SEQ starts at 0 (log 113), and releases the others. -/
def State.joinGang (s : State) (c : Cx) (mask : Mask) (k : Nat) (x : Latch) : State :=
  let x := { x with joined := x.joined ||| maskOf (· == c.wi) }
  let s := s.modCore c.b.core fun y => y.leaveForming c.bk c.wi
  if x.joined = mask then
    let s := s.modCore c.b.core fun y => { y with latches := tset y.latches k { x with formed := true } }
    let s := s.modBlock c.bk fun b => b.mapWarps fun i w =>
      if mask.has i then { w with gang := { members := mask, valid := true, latch := k, seq := 0, rank := rankIn mask i } } else w
    mask.list.foldl (fun s i => s.releaseIf c.bk i fun t => t == .forming mask) s
  else
    (s.modCore c.b.core fun y => { y with latches := tset y.latches k x }).waitAct c (.forming mask)

/-- R268: forms, joins or leaves a gang. -/
def execGangset (x : EngArgs) (s : State) : Host.Outcome State Fault Refusal :=
  s.withGuardN x.g fun c _ =>
    let mask : Mask := c.opS s.tick x.o1
    match s.waitLogged c with
    | some s => s.waitAct c (.gangset mask)
    | none =>
    if mask = 0 then
      match s.gangLatch c.b c.wi with
      | some k => ((s.dissolve c.b k).settle c.bk).wakeAll
      | none => s
    else if !gangMaskOk c mask then s.warpTrap c 0x20 0
    else match (s.core c.b.core).latches.find? fun l => l.2.block == c.bk && l.2.mask == mask && !l.2.formed with
      | some (k, l) => s.joinGang c mask k l
      | none => match s.freeLatch c.b.core (s.replaying c.bk) with
        | some k => s.joinGang c mask k { block := c.bk, mask := mask, formed := false, joined := 0, arrivals := [] }
        | none => (s.logWait c).waitAct c (.gangset mask)

/-! ## Issue of the matrix forms (R63, R64, R271 to R273, R352) -/

/-- The scale bytes of one member (R271): byte b of its area; none where its lane is a helper, absent or exited. -/
def Cx.scaleBytes (c : Cx) (tick : Nat) (x : EngArgs) : List (Option Byte) :=
  match x.o4 with
  | .v r => (List.range ((nbits x.dimm.toNat 11 8 + 1) * dimM x.dimm)).map fun b =>
      let l := b / 4 % 32
      let y := c.w.lane l
      if y.isReal && !y.isExited then some (BitVec.ofNat 8 ((c.v tick l (r.toNat + b / 128)).toNat / 2 ^ (8 * (b % 4)))) else none
  | _ => []

/-- A scratchpad operand of `n` records passes SPSIZE (R273): the spacing is that of its first record. -/
def Block.passes (b : Block) (tick : Nat) (sp a n : Nat) (dense : Bool) : Bool :=
  decide (sp = 1) &&
  (if dense then decide (b.spSize < a + 512 * n)
   else if b.spSize < a + 4 then true
   else
     let h := leNat ((List.range 4).map fun i => b.spadByte tick (a + i))
     decide (hdrFmt h < 2 ∧ b.spSize < a + recSize (decide (hdrFmt h = 1)) (hdrCap h) * n))

/-- The snapshot of MMA or MMAB for the member of rank 0; `g` members, their scale bytes in rank order. -/
def mmaMake (mmab : Bool) (c : Cx) (x : EngArgs) (tick : Nat) (scales : List (List (Option Byte))) (s : State) : Except Nat CmdKind :=
  let a := c.opS64 tick x.o1
  let bb := c.opS64 tick x.o2
  let ctl := c.opS tick x.o3
  let asp := nbits ctl.toNat 4 4
  let bsp := nbits ctl.toNat 5 5
  let b := (s.block? c.bk).getD c.b
  if nbits ctl.toNat 31 6 ≠ 0 ∨ b.tiles.length ≤ nbits ctl.toNat 3 0 ∨ opBase asp a % 32 ≠ 0 ∨ opBase bsp bb % 32 ≠ 0
      ∨ b.passes tick asp (opBase asp a).toNat (dimM x.dimm / 16 * dimKt x.dimm) mmab
      ∨ b.passes tick bsp (opBase bsp bb).toNat (dimKt x.dimm * (dimN x.dimm / 16)) (mmab || x.dimm.getLsbD 12) then .error 0x20
  else if mmab then .ok (.mmab x.dimm a bb ctl)
  else if scales.length * (nbits x.dimm.toNat 11 8 + 1) < dimKt x.dimm then .error 0x20
  else .ok (.mma x.dimm a bb ctl (scales.flatten.take (dimKt x.dimm * dimM x.dimm)))

/-- The snapshot of MMV (R272, R273). -/
def mmvMake (c : Cx) (x : EngArgs) (tick : Nat) (s : State) : Except Nat CmdKind :=
  let a := (c.opS tick x.o1).toNat
  let bb := c.opS64 tick x.o2
  let ctl := c.opS tick x.o3
  let t := (c.opS tick x.o4).toNat
  let b := (s.block? c.bk).getD c.b
  if nbits ctl.toNat 31 6 ≠ 0 ∨ nbits ctl.toNat 5 4 ≠ 1 ∨ b.tiles.length ≤ nbits ctl.toNat 3 0 ∨ t = 0 ∨ 4096 < t ∨ a % 32 ≠ 0
      ∨ bb.toNat % 32 ≠ 0 ∨ b.passes tick 1 a t (x.dimm.getLsbD 5) then .error 0x20
  else .ok (.mmv x.dimm a bb ctl t)

/-- What a matrix form compares across members (R63). -/
def Arrival.fields (a : Arrival) : BitVec 6 × BitVec 4 × BitVec 13 × Src × Src × Src × Src :=
  (a.op, a.x.ecf, a.x.dimm, a.x.o1, a.x.o2, a.x.o3, a.x.o4)

/-- The executing warp's arrival, with every thread of ACT. -/
def Cx.arrival (c : Cx) (tick : Nat) (op : BitVec 6) (x : EngArgs) : Arrival :=
  { warp := c.wi, op := op, x := x, act := c.fl.act &&& ~~~c.w.helpers, pc := c.fl.pc, widx := c.fl.idx, next := c.fl.next.2,
    scales := if op = 7 then c.scaleBytes tick x else [] }

/-- The view of a member that has arrived: its warp at the word of its arrival. -/
def State.memberCx (s : State) (c : Cx) (a : Arrival) : Cx :=
  { c with wi := a.warp, w := s.warp c.bk a.warp, fl := { c.fl with pc := a.pc, idx := a.widx, act := a.act } }

def arriveInsert (a : Arrival) : List Arrival → List Arrival
  | [] => [a]
  | y :: ys => if a.warp < y.warp then a :: y :: ys else y :: arriveInsert a ys

/-- A member that has arrived takes a trap at its word (R340); the executing warp's other threads are as they were. -/
def State.memberTrap (s : State) (c : Cx) (a : Arrival) (cause code : Nat) : State :=
  if a.warp = c.wi then s.warpTrap c cause code
  else (s.takeTrap c.bk a.warp a.act a.act a.pc a.widx
    { cause := cause, kind := 1, code := code, lcause := a.act.list.map fun l => (l, cause) }).settle c.bk

def State.setArrivals (s : State) (core k : Nat) (as : List Arrival) : State :=
  s.modCore core fun y => { y with latches := match tget y.latches k with
    | some l => tset y.latches k { l with arrivals := as }
    | none => y.latches }

/-- The command of a gang once its last member has arrived (R63): one token for every member, in re-execution the logged one (R311); SEQ
advances; the waiting members go on. -/
def State.gangIssue (s : State) (c : Cx) (k : Nat) (r0 : Arrival) (as : List Arrival) (kind : CmdKind) : State :=
  let re := s.replaying c.bk
  let (s, tok) := if re then (s, 0) else s.startCmd (s.memberCx c r0) r0.op (r0.x.ecf.setWidth 3).toNat kind
  let s := as.foldl (fun s a =>
    let s := (if re then s.takeS64 c.bk a.warp a.x.sdst.toNat else s.giveS64 c.bk a.warp a.x.sdst.toNat (BitVec.ofNat 64 tok)).modWarp c.bk a.warp fun w =>
      { w with gang := { w.gang with seq := w.gang.seq + 1 } }
    if a.warp = c.wi then s else s.releaseIf c.bk a.warp fun t => t == .gang) s
  s.setArrivals c.b.core k []

/-- A gang member's operation (R63, R352): it waits in the latch until every member has arrived; the last one compares, takes
the snapshot, and issues. -/
def State.gangOp (s : State) (c : Cx) (op : BitVec 6) (x : EngArgs) (k : Nat) (l : Latch)
    (mk : Cx → List (List (Option Byte)) → State → Except Nat CmdKind) : State :=
  let me := c.arrival s.tick op x
  let as := arriveInsert me l.arrivals
  let waitIn (s : State) (as : List Arrival) : State := (s.setArrivals c.b.core k as).waitAct c .gang
  if as.length < popcount l.mask then waitIn s as
  else match as with
    | [] => s
    | r0 :: _ =>
      let bad := as.filter fun a => decide (a.fields ≠ r0.fields)
      if !bad.isEmpty then
        let good := as.filter fun a => decide (a.fields = r0.fields)
        let s := s.setArrivals c.b.core k good
        let s := if good.any fun a => a.warp == c.wi then s.waitAct c .gang else s
        bad.foldl (fun s a => s.memberTrap c a 0x21 0) s
      else match s.waitLogged c with
      | some s => s.waitAct c (.room (x.ecf.setWidth 3).toNat)
      | none =>
      if !s.replaying c.bk && !(c.b.eng (x.ecf.setWidth 3).toNat).room then (s.logWait c).waitAct c (.room (x.ecf.setWidth 3).toNat)
      else match (if s.replaying c.bk then .ok .launch else mk (s.memberCx c r0) (as.map (·.scales)) s) with
        | .error e => as.foldl (fun s a => s.memberTrap c a e 0) (s.setArrivals c.b.core k [])
        | .ok kind => s.gangIssue c k r0 as kind

/-- The common issue of MMA, MMAB and MMV: as a gang's operation, or alone as a gang of one (R268). ACT must hold every real
thread of the warp (R64). -/
def State.matrixOp (s : State) (c : Cx) (op : BitVec 6) (x : EngArgs)
    (mk : Cx → List (List (Option Byte)) → State → Except Nat CmdKind) : State :=
  if !(c.w.liveReal &&& ~~~c.fl.act).none then s.warpTrap c 0x21 2
  else match s.gangLatch c.b c.wi with
    | none => s.issueOne c (issueOf op x) (mk c [(c.arrival s.tick op x).scales])
    | some k => match tget (s.core c.b.core).latches k with
      | none => s
      | some l => (s.release c.bk c.wi (c.ecScope (x.ecf.setWidth 3).toNat)).gangOp c op x k l mk

/-- R270: matrix multiply-accumulate over split-form operands. -/
def execMma (x : EngArgs) (s : State) : Host.Outcome State Fault Refusal :=
  s.withGuardN x.g fun c _ => s.matrixOp c 0x07 x fun r sc => mmaMake false r x s.tick sc

/-- R270: matrix multiply-accumulate over dense BF16 operands. -/
def execMmab (x : EngArgs) (s : State) : Host.Outcome State Fault Refusal :=
  s.withGuardN x.g fun c _ => s.matrixOp c 0x08 x fun r sc => mmaMake true r x s.tick sc

/-- R272: matrix-vector multiply by near-memory units. -/
def execMmv (x : EngArgs) (s : State) : Host.Outcome State Fault Refusal :=
  s.withGuardN x.g fun c _ => s.matrixOp c 0x09 x fun r _ => mmvMake r x s.tick

/-- The snapshot of a DRAIN. -/
def drainMake (c : Cx) (off : Word) (dimm : BitVec 13) (s : State) : Except Nat CmdKind :=
  match s.descAt c.bk off.toNat 64 with
  | none => .error 0x20
  | some v =>
    let d : Desc := BitVec.ofNat 512 v
    if !drainOk d ∨ c.b.tiles.length ≤ nbits dimm.toNat 3 0 then .error 0x20
    else .ok (.drain d (nbits dimm.toNat 3 0) (dimm.getLsbD 4))

/-- R275: scales, drops out, adds a residual to and stores an accumulator tile. -/
def execDrain (x : EngArgs) (s : State) : Host.Outcome State Fault Refusal :=
  s.withGuardN x.g fun c _ => s.issueOne c (issueOf 0x0A x) (drainMake c (c.opS s.tick x.o1) x.dimm)

/-- R276: every element of a tile becomes +0. -/
def execAzero (x : EngArgs) (s : State) : Host.Outcome State Fault Refusal :=
  s.withGuardN x.g fun c _ => s.issueOne c (issueOf 0x0B x) fun _ =>
    if c.b.tiles.length ≤ nbits x.dimm.toNat 3 0 then .error 0x20 else .ok (.azero (nbits x.dimm.toNat 3 0))

/-! ## Restarting a stopped command (R285, R387) -/

/-- The stopped or running command of a handle, with its block and context. -/
def State.cmdOf (s : State) (ctx h : Nat) : Option (Block × Nat × Cmd) :=
  s.blocks.findSome? fun b => if b.ctx = ctx then
      (List.range 8).findSome? fun k => ((b.eng k).cmds.find? fun c => c.handle == h).map fun c => (b, k, c)
    else none

/-- A replacement descriptor, at an offset of the faulted block's scratchpad or of its image, checked as at issue: of the
command's own kind, a copy command or DRAIN. -/
def State.replacement (s : State) (b : Block) (cmd : Cmd) (off : Nat) : Option CmdKind :=
  match s.descAt b.key off 64 with
  | none => none
  | some v =>
    let d : Desc := BitVec.ofNat 512 v
    if b.mv ≠ .resident ∧ !((List.range 64).all fun i => inRanges b.image (off + i)) then none
    else match cmd.kind with
      | .copy op _ th ho of sl ba si co => if copyOk op d then some (.copy op d th ho of sl ba si co) else none
      | .drain _ t clr => if drainOk d then some (.drain d t clr) else none
      | _ => none

/-- ERST and ERST.ABORT stand only in handler code: elsewhere they are the privileged trap. -/
def handlerOnly (c : Cx) (s : State) (f : State) : State := if c.b.handler.isNone then s.warpTrap c 0x04 0 else f

/-- The iteration that the vector of S2v and Sw names; none outside the loop bounds, or where Sw [31:16] is not zero (R285). -/
def CmdKind.vector? (kind : CmdKind) (v w : Nat) : Option Nat :=
  let bounds := kind.bounds ++ List.replicate (5 - kind.bounds.length) 0
  let vec := (List.range 4).map (fun i => nbits v (16 * i + 15) (16 * i)) ++ [w]
  if 65536 ≤ w ∨ (vec.zip bounds).any (fun p => decide (p.2 < p.1)) then none else some (vecIx bounds vec)

/-- The common form of ERST and ERST.ABORT (R285, R387): status 1 where the handle names no command, a wait while the block of its command moves
(log 49) or is shown in its past, status 2 where it is not stopped; else what `f` answers (log 132). -/
def erstForm (x : EngArgs) (s : State) (f : Cx → Block → Nat → Cmd → State × Nat) : Host.Outcome State Fault Refusal :=
  s.withGuardN x.g fun c _ => handlerOnly c s <|
    let answer (r : State × Nat) : State := r.1.giveS c.bk c.wi x.sdst.toNat (BitVec.ofNat 32 r.2)
    match s.waitLogged c with
    | some s => s.waitAct c (.erst c.bk)
    | none => match s.fromLog c x.sdst.toNat false with
    | some s => s
    | none => match s.cmdOf c.b.ctx (c.opS s.tick x.o1).toNat with
    | none => answer (s, 1)
    | some (b, k, cmd) =>
      if !s.waitHolds c.b (.erst b.key) then (s.logWait c).waitAct c (.erst b.key)
      else if cmd.stopped.isNone then answer (s, 2)
      else answer (f c b k cmd)

/-- R285: a stopped command goes on at a vector, perhaps with a replacement descriptor; the vector is tested against the bounds that the
replacement gives (log 132). -/
def execErst (x : EngArgs) (s : State) : Host.Outcome State Fault Refusal :=
  erstForm x s fun c b k cmd =>
    let v := (c.opS64 s.tick x.o2).toNat
    let w := (c.opS s.tick x.o3).toNat
    let kind := match x.o4 with
      | .s r => s.replacement b cmd (c.s s.tick r.toNat).toNat
      | _ => some cmd.kind
    match kind with
    | none => (s, 3)
    | some kind => match kind.vector? v w with
      | none => (s, 3)
      | some i => (s.modCmd b.key k cmd.tok fun y => { y with stopped := none, kind := kind, iter := i }, 0)

/-- R285: a stopped command completes without further iterations; its vector is checked all the same (log 109). -/
def execErstAbort (x : EngArgs) (s : State) : Host.Outcome State Fault Refusal :=
  erstForm x s fun c b k cmd => match cmd.kind.vector? (c.opS64 s.tick x.o2).toNat (c.opS s.tick x.o3).toNat with
    | none => (s, 3)
    | some _ => (s.modCmd b.key k cmd.tok fun y => { y with stopped := none, finished := true }, 0)

end Sys2Proof.Machine
end

