-- ==== Sys2Proof/Machine/Replay.lean ====
section
/-! DEFINITION. Replayed objects: the descriptor (R287, R288), calls and positions (R290, R291, R298, R299), the replay engines
(R292 to R295), read-only calls and waits (R283, R284, R297), and re-seeding (R253, R378). -/

namespace Sys2Proof.Machine

/-! ## The sequencer's objects -/

/-- The sequencer's record of an object, made from the descriptor's fields when it first meets it. -/
def State.meetObj (s : State) (c desc : Nat) (bs : List Byte) : State :=
  match s.robj? c desc with
  | some _ => s
  | none =>
    let o : RObj := { desc := desc, ctx := c, next := bytesAt bs 0x30 8, trim := bytesAt bs 0x38 8,
                      applied := (List.range 8).map fun d => bytesAt bs (0x40 + 8 * d) 8, broken := BitVec.ofNat 8 (bytesAt bs 0x80 1) }
    { s with robjs := s.robjs ++ [o] }

/-- Copies on lost dies are marked broken when the sequencer next meets the object (R376). -/
def State.markLost (s : State) (c desc : Nat) : State :=
  (List.range s.liveCount).foldl (fun s d =>
    match s.robj? c desc with
    | some o => if s.wh.dielost.getLsbD (s.wh.live.getD d 8) && !o.broken.getLsbD d then s.breakCopy c desc d else s
    | none => s) s

/-- The read of a descriptor at issue (R288): the trap of the form, or the descriptor and its object. `seq` says that the form goes to
the sequencer (R376). -/
def State.objAt (s : State) (c : Cx) (real : Mask) (desc : Nat) (lane seq : Bool) (f : State → ObjDesc → RObj → State) : State :=
  if desc % 256 ≠ 0 then s.warpTrap c 0x20 0
  else match s.checkRange c.b.core c.b.ctx desc 768 .read with
    | (s, .error e) =>
      if lane then s.laneTrap c real { cause := e, lcause := real.list.map fun l => (l, e), lval := real.list.map fun l => (l, BitVec.ofNat 64 desc) }
      else s.warpTrap c 0x20 0
    | (s, .ok (p, q)) =>
      let s := s.l2Line c.b.die (byteKey p q desc 0)
      let bs := (List.range 768).map fun i => s.l2Byte c.b.die (byteKey p q desc i)
      if !objDescOk bs then s.warpTrap c 0x20 0
      else
        let s := s.meetObj c.b.ctx desc bs
        let s := if seq then s.markLost c.b.ctx desc else s
        match s.robj? c.b.ctx desc with
        | some o => f s (readObjDesc bs) o
        | none => s

/-! ## Calls and positions (R282, R290, R291, R299) -/

/-- A log entry but for POSLO. -/
def callEntry (c : Cx) (tick : Nat) (d : Nat) (x : EngArgs) (l : Nat) : List Byte :=
  let m := nbits x.dimm.toNat 5 0
  let n := nbits x.dimm.toNat 8 6
  let pair (o : Src) : Nat := match o with | .v r => r.toNat | _ => 0
  let caller := d * 2 ^ 29 + c.b.cell % 6 * 2 ^ 26 + c.b.lslot * 2 ^ 23 + c.wi * 2 ^ 18 + l * 2 ^ 13 + n * 2 ^ 6 + m
  leBytes 8 (c.v64 tick l (pair x.o2)).toNat ++ leBytes 8 caller
    ++ (List.range 6).flatMap fun a => leBytes 8 (if a < n then (c.v64 tick l (pair x.o3 + 2 * a)).toNat else 0)

/-- An entry with its position. -/
def entryAt (e : List Byte) (pos : Nat) : List Byte := e.take 12 ++ leBytes 4 (pos % 2 ^ 32) ++ e.drop 16

/-- One entry written to the log replica of every live die; a die that cannot take it has its copy broken (R290). -/
def State.logWrite (s : State) (c desc : Nat) (w : RWaiting) (pos : Nat) (e : List Byte) : State :=
  (List.range s.liveCount).foldl (fun s d =>
    if s.wh.dielost.getLsbD (s.wh.live.getD d 8) then s
    else
      let a := logSlot w.logBase w.logStride w.logK d pos
      let fail (s : State) (code : Nat) : State := (s.breakCopy c desc d).report3A c desc pos code d (BitVec.ofNat 64 a) false
      match s.devRange c a 64 .write with
      | (s, .error e) => fail s e.1
      | (s, .ok (p, q)) =>
        if isPeer p.key || isPeer q.key then fail s 0x13
        else (s.l2Write (s.wh.live.getD d 0) (mapFrom 0 (fun i x => (byteKey p q a i, x, false)) (entryAt e pos))).foreignStore (some d)
          ((List.range 64).map (byteKey p q a))) s

/-- The sequencer's one step for a call: consecutive positions, the entries, the registers (R290), for a warp that has waited `late`. -/
def State.assign (s : State) (c desc : Nat) (w : RWaiting) (late : Bool) : State :=
  match s.robj? c desc with
  | none => s
  | some o =>
    let p0 := o.next
    let s := (mapFrom 0 (fun i e => (i, e)) w.entries).foldl (fun s e => s.logWrite c desc w (p0 + e.1) e.2.2) s
    let s := (s.modRobj c desc fun o => { o with next := p0 + w.entries.length }).writeDesc c desc 0x30 8 (p0 + w.entries.length)
    let s := if late then s.giveLate w.block w.warp w.sdst (BitVec.ofNat 64 p0) else s.giveS64 w.block w.warp w.sdst (BitVec.ofNat 64 p0)
    (mapFrom 0 (fun i e => (i, e)) w.entries).foldl (fun s e =>
      s.modMask w.block w.warp (maskOf (· == e.2.1)) fun _ x => x.setD w.vp true (BitVec.ofNat 64 (p0 + e.1))) s

/-- The log has room for a call. -/
def RObj.room (o : RObj) (w : RWaiting) : Bool := decide (o.next + w.entries.length ≤ 2 ^ w.logK + o.trim)

/-- R282: appends one call for each guarded lane; with no room, or behind an earlier call, it waits (R299). -/
def execRcall (x : EngArgs) (s : State) : Host.Outcome State Fault Refusal :=
  s.withGuardN x.g fun c m =>
    let real := m &&& ~~~c.w.helpers
    let vp := match x.o4 with | .v r => r.toNat | _ => 0
    let given (s : State) : State :=
      let p0 := ((tget (s.warp c.bk c.wi).s (x.sdst.toNat + 1)).getD 0 ++ (tget (s.warp c.bk c.wi).s x.sdst.toNat).getD 0 : DWord)
      s.modMask c.bk c.wi real fun l y => y.setD vp true (p0 + BitVec.ofNat 64 ((real.list.filter (· < l)).length))
    if real.none then s
    else match s.waitLogged c with
    | some s => (given (s.takeLate c.bk c.wi x.sdst.toNat)).waitHere c c.fl.act (.rcall (c.opS64 s.tick x.o1).toNat)
    | none => match s.fromLog c x.sdst.toNat true with
    | some s => given s
    | none =>
      let tick := s.tick
      let desc := (c.opS64 tick x.o1).toNat
      (s.release c.bk c.wi 4).objAt c real desc true true fun s d o =>
        let mth := nbits x.dimm.toNat 5 0
        if !d.valid mth || d.readOnly mth || decide (2 ^ d.logK < real.list.length) then s.warpTrap c 0x20 0
        else
          let w : RWaiting :=
            { block := c.bk, warp := c.wi, lanes := c.fl.act, logBase := d.log, logStride := d.logStride, logK := d.logK,
              entries := real.list.map fun l => (l, callEntry c tick (s.logicalDie c.b.die) x l), sdst := x.sdst.toNat, vp := vp }
          if o.waiting.isEmpty && o.room w then s.assign c.b.ctx desc w false
          else ((s.modRobj c.b.ctx desc fun o => { o with waiting := o.waiting ++ [w] }).logWait c).waitHere c c.fl.act (.rcall desc)

/-- A context's work goes on: enabled, neither stopped nor failed. -/
def Ctx.runs (c : Ctx) : Bool := c.en && !c.pre && !c.failed

/-- SEQUENCER_ASSIGN (R290, R299): the oldest waiting call of an object gets its positions once there is room and its block is
resident (R300). -/
def execSequencerAssign (obj : Nat) (s : State) : Host.Outcome State Fault Refusal :=
  .next <| match s.robjs[obj]? with
  | none => s
  | some o => match o.waiting with
    | [] => s
    | w :: ws => match s.block? w.block with
      | none => s.modRobj o.ctx o.desc fun o => { o with waiting := ws }
      | some b =>
        if !b.resident || !(s.ctx o.ctx).runs || !o.room w || s.replaying w.block then s
        else
          let s := ((s.modRobj o.ctx o.desc fun o => { o with waiting := ws }).markLost o.ctx o.desc).assign o.ctx o.desc w true
          s.releaseIf w.block w.warp fun t => t == .rcall o.desc

/-! ## Read-only calls and waits (R283, R284) -/

/-- R283: the catch-up query, then the lanes enter the method. -/
def execRread (x : EngArgs) (s : State) : Host.Outcome State Fault Refusal :=
  s.withGuardN x.g fun c m =>
    let real := m &&& ~~~c.w.helpers
    let k := match x.o2 with | .v r => r.toNat | _ => 0
    let sd := x.sdst.toNat
    if real.none then s
    else if s.replaying c.bk then
      match s.logged c.bk (LogEntry.isReg c.wi 100) with
      | some (.regs _ _ entry, s) => match s.waitLogged c with
        | some s => s.waitHere c real (.rread (c.opS64 s.tick x.o1).toNat 0 entry 0 k sd)
        | none => (s.waitHere c real (.rwait 0 0)).rreadReplay c.b c.wi (c.w.withHelpers real) entry k sd false
      | _ => s
    else
      let desc := (c.opS64 s.tick x.o1).toNat
      (s.release c.bk c.wi 0).objAt c real desc true true fun s d o =>
        let mth := nbits x.dimm.toNat 5 0
        if !d.valid mth || !d.readOnly mth then s.warpTrap c 0x20 0
        else
          let die := s.logicalDie c.b.die
          let entry := d.entry mth
          let state := BitVec.ofNat 64 (d.copy die)
          let wt : Wait := .rread desc o.next entry state k sd
          let m' := c.w.withHelpers real
          let s := s.log c.bk (.regs c.wi 100 entry)
          if s.waitHolds c.b wt then (s.waitHere c real wt).rreadEnter c.b c.wi m' entry state k sd false else (s.logWait c).waitHere c real wt

/-- R284: waits until the die's copy has applied a position, then acquires at DEVICE scope. -/
def execRwait (x : EngArgs) (s : State) : Host.Outcome State Fault Refusal :=
  s.withGuardN x.g fun c m =>
    let real := m &&& ~~~c.w.helpers
    let desc := (c.opS64 s.tick x.o1).toNat
    let pos := (c.opS64 s.tick x.o2).toNat
    if real.none then s
    else match s.waitLogged c with
    | some s => s.waitAct c (.rwait desc pos)
    | none =>
    if s.replaying c.bk then s
    else s.objAt c real desc true false fun s _ _ =>
        if s.waitHolds c.b (.rwait desc pos) then s.acquire c.bk 4 else (s.logWait c).waitAct c (.rwait desc pos)

/-! ## The replay engines (R292 to R295) -/

/-- The number under which a die's replay warp slot has its own L1, instruction cache and translation cache. -/
def replayCore (die : Nat) : Nat := 384 + die

/-- The invocation on a die's slot. -/
def State.invocation (s : State) (die : Nat) : Option (Block × RInv) :=
  s.blocks.findSome? fun b => match b.replay with
    | some v => if v.die = die then some (b, v) else none
    | none => none

/-- The turn of an object on a die: contexts by ascending ASID, objects by ascending descriptor address. -/
def State.turnKey (s : State) (o : RObj) : Nat := (s.ctx o.ctx).asid * 2 ^ 64 + o.desc

/-- The object has a position for this die, and may be applied there. -/
def State.canApply (s : State) (o : RObj) (d : Nat) : Bool :=
  (s.ctx o.ctx).runs && !o.broken.getLsbD d && decide (o.applied.getD d 0 < o.next)
    && !s.reseeds.any fun r => r.ctx == o.ctx && r.desc == o.desc && (r.donor == d || r.die == d)

/-- The object whose turn it is. -/
def State.nextObj (s : State) (die d : Nat) : Option RObj :=
  let os := s.robjs.filter fun o => s.canApply o d
  let least (l : List RObj) : Option RObj := l.foldl (fun (a : Option RObj) o => match a with
    | some x => if s.turnKey o < s.turnKey x then some o else some x
    | none => some o) none
  match least (os.filter fun o => decide (tgetD s.rturn die 0 ≤ s.turnKey o)) with
  | some o => some o
  | none => least os

/-- The block that stands for an invocation on a replay warp slot (R293); its barrier registers hold undefined values. -/
def replayBlock (tick key die d : Nat) (o : RObj) (pos : Nat) (od : ObjDesc) (e : List Byte) : Block :=
  let meth := nbits (bytesAt e 8 4) 5 0
  let entry := od.entry meth
  let copy := BitVec.ofNat 64 (od.copy d)
  let caller := BitVec.ofNat 64 (bytesAt e 8 8)
  let put (t : Tab Word) (r : Nat) (v : DWord) : Tab Word := tset (tset t r (v.setWidth 32)) (r + 1) ((v >>> 32).setWidth 32)
  let v := (List.range 6).foldl (fun t a => put t (4 + 2 * a) (BitVec.ofNat 64 (bytesAt e (16 + 8 * a) 8)))
    (put (put [] 0 copy) 2 (BitVec.ofNat 64 pos))
  let s : Tab Word := tset (put [] 0 (BitVec.ofNat 64 o.desc)) 2 (caller.setWidth 32)
  let lane0 : Lane := { kind := .real, st := .runnable, pc := entry, v := v }
  { key := key, ctx := o.ctx, grid := 0, blockId := 0xFFFFFFFF, nthr := 1, core := replayCore die, spSize := 4096, place := .reset,
    codeBase := entry, ecs := List.replicate 8 {},
    replay := some { die := die, desc := o.desc, pos := pos, resaddr := BitVec.ofNat 64 (bytesAt e 0 8), caller := caller, entry := entry,
                     copy := copy, size := od.size },
    warps := [{ lanes := lane0 :: List.replicate 31 {}, s := s,
                bars := (List.range 16).map fun n =>
                  (n, { mask := Config.freeWord tick (placeKey key 0 33 n), arr := Config.freeWord tick (placeKey key 0 34 n) }) }] }

/-- REPLAY_INVOCATION_START (R292, R293, R288): the next position of the object whose turn it is. A descriptor or a log slot that cannot be
read is a failing entry (log 119). -/
def execReplayInvocationStart (die : Nat) (s : State) : Host.Outcome State Fault Refusal :=
  .next <|
    let d := s.logicalDie die
    if !s.wh.live.contains die || s.wh.dielost.getLsbD die || (s.invocation die).isSome then s
    else match s.nextObj die d with
    | none => s
    | some o =>
      let s := { s with rturn := tset s.rturn die (s.turnKey o + 1) }
      let pos := o.applied.getD d 0
      let bad (s : State) (a : Nat) : State := (s.breakCopy o.ctx o.desc d).report3A o.ctx o.desc pos 0x3E d (BitVec.ofNat 64 a) false
      match s.devRead o.ctx die o.desc 768 with
      | (s, .error _) => bad s o.desc
      | (s, .ok bs) =>
        let od := readObjDesc bs
        let slot := logSlot od.log od.logStride od.logK d pos
        match s.devRead o.ctx die slot 64 with
        | (s, .error _) => bad s slot
        | (s, .ok e) =>
          let meth := nbits (bytesAt e 8 4) 5 0
          if bytesAt e 12 4 ≠ pos % 2 ^ 32 then bad s slot
          else if !od.valid meth || od.readOnly meth then bad s (o.desc + 256 + 8 * meth)
          else match s.fetchClause (replayCore die) o.ctx die (od.entry meth).toNat with
            | (s, .error (_, a)) => bad s a
            | (s, .ok _) => ({ s with blocks := s.blocks ++ [replayBlock s.tick s.nextKey die d o pos od e] }).bump

/-- METHOD_CLAUSE_LIMIT (R294): an invocation of 65,536 clauses without EXIT takes the method fault. -/
def execMethodClauseLimit (die : Nat) (s : State) : Host.Outcome State Fault Refusal :=
  .next <| match s.invocation die with
  | none => s
  | some (b, v) =>
    if v.clauses < Config.methodClauses || ((b.warp 0).lane 0).isExited then s else (s.methodFault b v 0x3F 0).wakeAll

/-- REPLAY_INVOCATION_END (R295 step 1): lane 0 has exited, and the result is stored for a caller on the engine's die: an undefined value
where a load is outstanding on V0:V1 (R29). -/
def execReplayInvocationEnd (die : Nat) (s : State) : Host.Outcome State Fault Refusal :=
  .next <| match s.invocation die with
  | none => s
  | some (b, v) =>
    if !((b.warp 0).lane 0).isExited || v.ended then s
    else
      let d := s.logicalDie die
      let val := (b.asCx 0 b.place).dataBytes s.tick 0 0 8
      let lost (s : State) (code : Nat) : State := s.report3A b.ctx v.desc v.pos code d v.resaddr true
      let s := if nbits v.caller.toNat 31 29 ≠ d ∨ v.resaddr = 0 then s
        else if v.resaddr.toNat % 8 ≠ 0 then lost s 0x10
        else match s.devWriteBy (some d) b.ctx die v.resaddr.toNat val with
          | (s, some e) => lost s e
          | (s, none) => s
      s.modBlock b.key fun y => { y with replay := some { v with ended := true } }

/-- REPLAY_APPLIED_UPDATE (R295 steps 2 to 4): the invocation's stores are acknowledged, APPLIED is written as a release at
DEVICE scope and reported; TRIM follows (R298). -/
def execReplayAppliedUpdate (die : Nat) (s : State) : Host.Outcome State Fault Refusal :=
  .next <| match s.invocation die with
  | none => s
  | some (b, v) =>
    if !v.ended then s
    else
      let d := s.logicalDie die
      let s := s.drainAll b.key 0
      let s := { s with blocks := s.blocks.filter fun x => decide (x.key ≠ b.key) }
      let s := (s.modRobj b.ctx v.desc fun o => { o with applied := o.applied.set d (v.pos + 1) }).writeDesc b.ctx v.desc (0x40 + 8 * d) 8 (v.pos + 1)
      (s.updateTrim b.ctx v.desc).wakeAll

/-! ## Re-seeding a broken copy (R253, R378) -/

/-- The healthy live die with the highest APPLIED, the lowest number among equals. -/
def State.donor (s : State) (o : RObj) : Option Nat :=
  (s.healthy o).foldl (fun (a : Option Nat) d => match a with
    | some x => if o.applied.getD x 0 < o.applied.getD d 0 then some d else some x
    | none => some d) none

/-- R253: reports the die's applied position, or starts the re-seed of a broken copy and holds the warp's next clause. -/
def execRsync (x : EngArgs) (s : State) : Host.Outcome State Fault Refusal :=
  s.withGuardN x.g fun c m =>
    match s.fromLog c x.sdst.toNat true with
    | some t => if (s.logged c.bk (LogEntry.isReg c.wi x.sdst.toNat)).isSome then t else t.takeLate c.bk c.wi x.sdst.toNat
    | none =>
      let desc := (c.opS64 s.tick x.o1).toNat
      s.objAt c m desc false true fun s _ o =>
        let d := s.logicalDie c.b.die
        let hold (s : State) : State := s.modWarp c.bk c.wi fun w => { w with hold := w.hold ++ [.rsync desc x.sdst.toNat] }
        if !o.broken.getLsbD d then s.giveS64 c.bk c.wi x.sdst.toNat (BitVec.ofNat 64 (o.applied.getD d 0))
        else if s.reseeds.any fun r => r.ctx == c.b.ctx && r.desc == desc && r.die == d then hold s
        else match s.donor o with
          | none => s.giveS64 c.bk c.wi x.sdst.toNat 0xFFFFFFFFFFFFFFFF
          | some r => hold { s with reseeds := s.reseeds ++ [{ ctx := c.b.ctx, desc := desc, die := d, donor := r }] }

/-- `n` chunks of 64 bytes copied into the copy of logical die `d` through the context's mapping, poison with them (R371): the fault's cause and
address. -/
def State.copyChunks (s : State) (c die d src dst : Nat) : Nat → State × Option (Nat × Nat)
  | 0 => (s, none)
  | n + 1 => match s.devRange c src 64 .read with
    | (s, .error e) => (s, some e)
    | (s, .ok (p, q)) => match s.devRange c dst 64 .write with
      | (s, .error e) => (s, some e)
      | (s, .ok (u, v)) =>
        let s := s.l2Line die (byteKey p q src 0)
        let bs := (List.range 64).map fun i => (byteKey u v dst i, s.l2Byte die (byteKey p q src i), s.l2Pois die (byteKey p q src i))
        ((s.l2Write die bs).foreignStore (some d) (bs.map (·.1))).copyChunks c die d (src + 64) (dst + 64) n

/-- The warps that wait for a re-seed get its answer. -/
def State.reseedAnswer (s : State) (c desc die : Nat) (v : DWord) : State :=
  s.blocks.foldl (fun s b =>
    if b.ctx = c ∧ s.logicalDie b.die = die then
      forN b.warps.length (fun i s => (b.warp i).hold.foldl (fun s h => match h with
        | .rsync d sd =>
          if d = desc then (s.giveLate b.key i sd v).modWarp b.key i fun w => { w with hold := w.hold.filter fun y => decide (y ≠ .rsync d sd) } else s
        | _ => s) s) s
    else s) s

/-- A re-seed whose donor is no longer healthy takes another, or ends where the object is dead. -/
def State.redonor (s : State) (r : Reseed) : State :=
  match (s.robj? r.ctx r.desc).bind s.donor with
  | some d => { s with reseeds := s.reseeds.map fun y => if y = r then { r with donor := d } else y }
  | none => { s with reseeds := s.reseeds.filter fun y => decide (y ≠ r) }.reseedAnswer r.ctx r.desc r.die 0xFFFFFFFFFFFFFFFF

/-- A die's replay engine is in a method of the object. -/
def State.inMethod (s : State) (r : Reseed) (die : Nat) : Bool := (s.invocation die).any fun v => v.1.ctx == r.ctx && v.2.desc == r.desc

/-- A warp that waits for the re-seed is of a block that is shown in its past: the answer waits (log 37). -/
def State.awaitedInPast (s : State) (r : Reseed) : Bool :=
  s.recordings.any fun x => x.present.any fun p => decide (p.ctx = r.ctx ∧ s.logicalDie p.die = r.die) && p.warps.any fun w => w.hold.any fun h =>
    match h with
    | .rsync d _ => d == r.desc
    | _ => false

/-- RSYNC_RESEED_COMPLETE (R378): once the donor stands at a method boundary, and so does the die itself, the donor's copy is written over the
broken one. -/
def execRsyncReseedComplete (b w : Nat) (s : State) : Host.Outcome State Fault Refusal :=
  .next <| match s.block? b with
  | none => s
  | some bl =>
    let d := s.logicalDie bl.die
    match s.reseeds.find? fun r => r.ctx == bl.ctx && r.die == d && (bl.warp w).hold.any fun h => match h with
        | .rsync desc _ => desc == r.desc
        | _ => false with
    | none => s
    | some r =>
      let s := s.markLost r.ctx r.desc
      let donorDie := s.wh.live.getD r.donor 0
      if (s.robj? r.ctx r.desc).any fun o => o.broken.getLsbD r.donor then s.redonor r
      else if s.inMethod r donorDie || s.inMethod r bl.die || s.awaitedInPast r then s
      else match s.robj? r.ctx r.desc with
        | none => s
        | some o =>
          let q := o.applied.getD r.donor 0
          let s := { s with reseeds := s.reseeds.filter fun y => decide (y ≠ r) }
          let fail (s : State) (code a : Nat) : State :=
            (s.report3A r.ctx r.desc q code d (BitVec.ofNat 64 a) false).reseedAnswer r.ctx r.desc d 0xFFFFFFFFFFFFFFFF
          match s.devRead r.ctx donorDie r.desc 768 with
          | (s, .error e) => fail s e r.desc
          | (s, .ok bs) =>
            let od := readObjDesc bs
            match s.copyChunks r.ctx donorDie d (od.copy r.donor) (od.copy d) (od.size / 64) with
            | (s, some (e, a)) => fail s e a
            | (s, none) =>
              let s := s.dropL1 (replayCore bl.die) fun _ => true
              let br := o.broken &&& ~~~(1#8 <<< d)
              let s := s.modRobj r.ctx r.desc fun y => { y with applied := y.applied.set d q, broken := br }
              let s := (s.writeDesc r.ctx r.desc (0x40 + 8 * d) 8 q).writeDesc r.ctx r.desc 0x80 4 br.toNat
              ((s.updateTrim r.ctx r.desc).reseedAnswer r.ctx r.desc d (BitVec.ofNat 64 q)).wakeAll

end Sys2Proof.Machine
end

