-- ==== Sys2Proof/Machine/Sys.lean ====
section
/-! DEFINITION. SYS instructions (R237 to R252): software traps, breakpoints and marks, returning from a trap, the fragment
operations, changes of mapping and of layout records, place tables, stow hints and liveness. -/

namespace Sys2Proof.Machine

/-! ## Traps, breakpoints and trace marks -/

/-- R238: the guarded lanes take the software trap; in a replay method it is the method fault with its code (R294). -/
def execTrapI (x : EngArgs) (s : State) : Host.Outcome State Fault Refusal :=
  s.withGuard x.g fun c m =>
    let real := m &&& ~~~c.w.helpers
    let code := nbits x.dimm.toNat 7 0
    match c.b.replay with
    | some v => s.methodFault c.b v 0x08 (BitVec.ofNat 64 code)
    | none =>
      if real.none then s
      else s.laneTrap c real
        { cause := 0x08, code := code, lcause := real.list.map fun l => (l, 0x08),
          lval := real.list.map fun l => (l, (c.src s.tick x.o1 l).setWidth 64) }

/-- R241, R343: returning from a trap: the record is retired and every thread of ACT exits. -/
def execTret (x : EngArgs) (s : State) : Host.Outcome State Fault Refusal :=
  s.withGuardN x.g fun c _ => handlerOnly c s <|
    let s := if s.replaying c.bk then s else s.retire c.b.ctx (c.opS s.tick x.o1)
    (s.exitThreads c.b c.wi (c.fl.act &&& ~~~c.w.helpers)).settle c.bk

/-- A breakpoint stop of the threads of `m` halts every warp of their block where HALTB is set, once they have parked (R306). -/
def State.haltStop (s : State) (b : Block) (wi : Nat) (m : Mask) : State :=
  if b.dbg.haltb && m.list.all (fun l => ((s.warp b.key wi).lane l).isParked) then s.modCtx b.ctx fun x => { x with halted := insertSorted b.key x.halted } else s

/-- R239: under an attached debugger the guarded lanes stop here as a fragment; a lane that was just resumed passes (R308). A debugger that has
detached stops nothing (R317). -/
def execBrk (x : EngArgs) (s : State) : Host.Outcome State Fault Refusal :=
  s.withGuardN x.g fun c m =>
    let stop := maskOf fun l => m.has l && (c.w.lane l).isReal && !s.resumedHere c.b.core c.bk c.wi (c.w.lane l) c.fl.pc c.fl.idx true
    if !c.b.dbg.att || !(s.ctx c.b.ctx).att || stop.none then s
    else (s.laneTrap c stop { cause := 0x09, dbg := true, atWord := true }).haltStop c.b c.wi stop

/-- R240: one mark packet while the trace is on, and was when the clause began, with the value in the lowest guarded lane. -/
def execTrcmark (x : EngArgs) (s : State) : Host.Outcome State Fault Refusal :=
  s.withGuard x.g fun c m =>
    match m.list.head? with
    | none => s
    | some l =>
      let f := (c.w.lane l).frag
      if !(c.w.lane l).traced then s else s.emit c.b c.wi f c.fl.pc (markPacket c.wi f (nbits x.dimm.toNat 7 0) (c.src s.tick x.o1 l))

/-! ## Fragment operations (R242 to R247) -/

/-- The fragment that a handle names: its core, its entry and the fragment (R242). -/
def State.fragOf (s : State) (c : Cx) (h : Word) : Option (Nat × Nat × Frag) :=
  let slot := nbits h.toNat 18 16
  if h.toNat / 2 ^ 19 ≠ 0 ∨ nbits h.toNat 15 6 ≠ 0 ∨ slot = 7 then none
  else
    let core := c.b.cell * 8 + c.b.place.pos slot
    let e := h.toNat % 64
    match tget (s.core core).frags e with
    | none => none
    | some f => if (s.block? f.block).any fun b => b.ctx == c.b.ctx && b.resident && !s.replaying b.key then some (core, e, f) else none

/-- The block of a fragment that a handle names, where the debugger shows that block in its past: the form waits for its present (log 37). -/
def State.fragInPast (s : State) (c : Cx) (h : Word) : Option Nat :=
  let core := c.b.cell * 8 + c.b.place.pos (nbits h.toNat 18 16)
  s.recordings.findSome? fun r => r.present.bind fun p =>
    if p.core = core ∧ p.ctx = c.b.ctx ∧ (tget p.frags (h.toNat % 64)).isSome then some p.key else none

/-- A fragment form, but where it waits for a block that is shown in its past. -/
def State.fragWait (s : State) (c : Cx) (x : EngArgs) (f : State → State) : State :=
  match s.waitLogged c with
  | some s => s.waitAct c (.erst c.bk)
  | none => if s.replaying c.bk then f s else match s.fragInPast c (c.opS s.tick x.o1) with
    | some bk => (s.logWait c).waitAct c (.erst bk)
    | none => f s

/-- The 128 bits of a fragment-table entry (R52). -/
def Frag.bits (f : Frag) (mask : Mask) (bslot : Nat) : Nat :=
  bslot % 2 ^ 18 + f.warp * 2 ^ 18 + f.fnum * 2 ^ 23 + f.state * 2 ^ 26 + f.cause * 2 ^ 28 + mask.toNat * 2 ^ 36 + f.widx * 2 ^ 68
    + f.pc.toNat % 2 ^ 56 * 2 ^ 72

/-- R243: half of an entry; zero where the handle names nothing. -/
def execFrgq (x : EngArgs) (s : State) : Host.Outcome State Fault Refusal :=
  s.withGuardN x.g fun c _ => handlerOnly c s <| s.fragWait c x fun s =>
    match s.fromLog c x.sdst.toNat true with
    | some s => s
    | none =>
      let v := match s.fragOf c (c.opS s.tick x.o1) with
        | none => 0
        | some (_, _, f) =>
          f.bits ((s.warp f.block f.warp).fragMask f.fnum) (((s.block? f.block).map (·.bslot)).getD 0)
      s.giveS64 c.bk c.wi x.sdst.toNat (BitVec.ofNat 64 (if x.ecf = 0 then v else v / 2 ^ 64))

/-- A form that acts on a parked fragment and answers a status (R244): 1 names none, 2 not parked; else what `f` answers. -/
def State.fragForm (s : State) (c : Cx) (x : EngArgs) (f : State → Nat → Nat → Frag → State × Nat) : State :=
  handlerOnly c s <| s.fragWait c x fun s =>
    match s.fromLog c x.sdst.toNat false with
    | some s => s
    | none =>
      let (s, st) := match s.fragOf c (c.opS s.tick x.o1) with
        | none => (s, 1)
        | some (core, e, g) => if g.state ≠ 1 then (s, 2) else f s core e g
      (s.giveS c.bk c.wi x.sdst.toNat (BitVec.ofNat 32 st)).wakeAll

/-- A fragment's entry and the places of its threads changed. -/
def State.putFrag (s : State) (core e : Nat) (g : Frag) : State :=
  let m := (s.warp g.block g.warp).fragMask g.fnum
  (((s.modCore core fun k => { k with frags := tset k.frags e g }).modMask g.block g.warp m fun _ x =>
    { x with pc := g.pc, widx := g.widx }).syncHelpers g.block).log g.block (.frag g.warp false m g)

/-- R244: the fragment's PC; its target is judged when it resumes. -/
def execFrgsetPc (x : EngArgs) (s : State) : Host.Outcome State Fault Refusal :=
  s.withGuardN x.g fun c _ => s.fragForm c x fun s core e g =>
    let pc := c.opS64 s.tick x.o2
    if pc.toNat % 4 ≠ 0 then (s, 3) else (s.putFrag core e { g with pc := pc, widx := 0, setPc := true }, 0)

/-- Threads of a parked fragment exit, and every barrier is tested again (R246, R247). -/
def State.killThreads (s : State) (g : Frag) (m : Mask) : State :=
  match s.block? g.block with
  | some b => ((s.log b.key (.kill g.warp m)).exitThreads b g.warp m).settle b.key
  | none => s

/-- R244: named threads of the fragment exit. -/
def execFrgsetRem (x : EngArgs) (s : State) : Host.Outcome State Fault Refusal :=
  s.withGuardN x.g fun c _ => s.fragForm c x fun s _ _ g =>
    (s.killThreads g ((s.warp g.block g.warp).fragMask g.fnum &&& c.opS s.tick x.o2), 0)

/-- The TARGET packet of a place set by FRGSET.PC that a fragment reaches (R314). -/
def State.traceSetPc (s : State) (b : Block) (g : Frag) : State :=
  s.emit b g.warp g.fnum g.pc (targetPacket g.warp g.fnum (b.offsetOf g.pc).toNat)

/-- The threads of a fragment run again, as a group that never issued (R245, R54). A place set by FRGSET.PC is judged as a
jump target (R229). -/
def State.resume (s : State) (core e : Nat) (g : Frag) : State :=
  match s.block? g.block with
  | none => s
  | some b =>
    let m := (b.warp g.warp).fragMask g.fnum
    let (s, ok) := if g.setPc then s.landOk core b.ctx b.die g.pc.toNat else (s, true)
    let s := s.putFrag core e { g with state := 2, setPc := false, noSkip := false, fresh := true }
    let s := (s.modMask g.block g.warp m fun _ y => { y with st := .runnable, stamp := none }).syncHelpers g.block
    if ok then (if g.setPc then s.traceSetPc b g else s)
    else (s.takeTrap g.block g.warp m 0 g.pc 0
      { cause := 0x17, lcause := m.list.map fun l => (l, 0x17), lval := m.list.map fun l => (l, g.pc), setPc := true }).settle g.block

/-- The place after the instruction at a fragment's word; none where no instruction can be read there. -/
def State.afterWord (s : State) (core : Nat) (g : Frag) : State × Option (DWord × Nat) :=
  match s.block? g.block with
  | none => (s, none)
  | some b => match s.fetchClause core b.ctx b.die g.pc.toNat with
    | (s, .error _) => (s, none)
    | (s, .ok (h, ws)) =>
      let hd := Header.ofWord h
      let n := g.widx + (if hd.ext.getLsbD (g.widx + 1) then 2 else 1)
      (s, if (clauseError h ws).isSome then none
          else some (if hd.nw ≤ n then (g.pc + 4 + 4 * BitVec.ofNat 64 hd.nw, 0) else (g.pc, n)))

/-- R245: the fragment resumes and executes its word again. -/
def execFrgres (x : EngArgs) (s : State) : Host.Outcome State Fault Refusal :=
  s.withGuardN x.g fun c _ => s.fragForm c x fun s core e g => (s.resume core e g, 0)

/-- A fragment at a place set by FRGSET.PC that is no jump target (R244). -/
def State.badPlace (s : State) (core : Nat) (g : Frag) : State × Bool :=
  match s.block? g.block with
  | some b => if g.setPc then let (s, ok) := s.landOk core b.ctx b.die g.pc.toNat; (s, !ok) else (s, false)
  | none => (s, false)

/-- R245: the fragment resumes after the instruction at its word; at a place set by FRGSET.PC that is no jump target it takes the
jump-target fault there (R244). -/
def execFrgresSkip (x : EngArgs) (s : State) : Host.Outcome State Fault Refusal :=
  s.withGuardN x.g fun c _ => s.fragForm c x fun s core e g =>
    if g.noSkip then (s, 3)
    else match s.badPlace core g with
    | (s, true) => (s.resume core e g, 0)
    | (s, false) => match s.afterWord core g with
      | (s, none) => (s, 3)
      | (s, some (pc, i)) =>
        let s := match s.block? g.block with | some b => if g.setPc then s.traceSetPc b g else s | none => s
        (s.resume core e { g with pc := pc, widx := i, setPc := false }, 0)

/-- R246: every thread of the fragment exits and its entry is freed. -/
def execFrgkill (x : EngArgs) (s : State) : Host.Outcome State Fault Refusal :=
  s.withGuardN x.g fun c _ => s.fragForm c x fun s _ _ g => (s.killThreads g ((s.warp g.block g.warp).fragMask g.fnum), 0)

/-! ## Translation and layout records (R126, R134, R248, R249) -/

def State.mapCores (s : State) (f : Core → Core) : State := { s with cores := s.cores.map fun e => (e.1, f e.2) }

def State.addHold (s : State) (c : Cx) (h : Hold) : State := s.modWarp c.bk c.wi fun w => { w with hold := w.hold ++ [h] }

/-- Holds of a context's warps that have come to their end. -/
def State.endHold (s : State) (ctx : Nat) (h : Hold) : State :=
  { s with blocks := s.blocks.map fun b => if b.ctx = ctx then
      b.mapWarps fun _ w => { w with hold := w.hold.filter fun y => decide (y ≠ h) } else b }

/-- R248: releases at DEVICE scope, then holds the next clause until the change of mapping completes. -/
def execMapt (x : EngArgs) (s : State) : Host.Outcome State Fault Refusal :=
  s.withGuardN x.g fun c _ =>
    if s.replaying c.bk then s
    else
      let va := (c.opS64 s.tick x.o1).toNat / 65536 * 65536
      let n := (c.opS s.tick x.o2).toNat
      let s := s.release c.bk c.wi 4
      if n = 0 then s else s.addHold c (.mapt (BitVec.ofNat 64 va) n)

/-- A page of the range of a mapping change; the part beyond the canonical limit is not of it. -/
def inPages (va n page : Nat) : Bool := decide (va / 65536 ≤ page ∧ page < va / 65536 + n)

/-- The leaf of a translation overlaps the range (R248): a leaf of 2 MiB or 1 GiB may reach beyond it. -/
def TEntry.meets (t : TEntry) (va n : Nat) : Bool :=
  let p := t.page * 65536 / 2 ^ (t.top + 1) * 2 ^ (t.top + 1)
  decide (p < va / 65536 * 65536 + n * 65536 ∧ va / 65536 * 65536 < p + 2 ^ (t.top + 1) ∧ 0 < n)

/-- An outstanding load of the range fills no L1 any more: its line would be that of the old mapping (R126). -/
def PLoad.unmap (va n : Nat) (ld : PLoad) : PLoad :=
  if ld.accs.any fun a => inPages va n (a.addr / 65536) || inPages va n ((a.addr + ld.size - 1) % 2 ^ 64 / 65536) then { ld with alloc := false } else ld

/-- MAPPING_CHANGE_COMPLETE (R126): translation caches drop every translation that overlaps the range, and L1s what it covers, for a MAPT
or for the host. -/
def execMappingChangeComplete (c : Nat) (va : DWord) (n : Nat) (s : State) : Host.Outcome State Fault Refusal :=
  let asid := (s.ctx c).asid
  let unmap (b : Block) : Block := b.mapWarps fun _ w => { w with loads := w.loads.map (PLoad.unmap va.toNat n) }
  let s := { s with blocks := modWhere (fun b => (s.ctx b.ctx).asid == asid) unmap s.blocks }
  .next <| ((s.mapCores fun k =>
    { k with tcache := k.tcache.filter fun t => !(t.asid == asid && t.meets va.toNat n),
             l1 := k.l1.filter fun t => !(t.asid == asid && inPages va.toNat n (t.line / 512)) }).recheckFrames).endHold c (.mapt va n)

/-- R249: releases at DEVICE scope, then holds the next clause until every copy of the record is dropped. -/
def execTlrinv (x : EngArgs) (s : State) : Host.Outcome State Fault Refusal :=
  s.withGuardN x.g fun c _ =>
    if s.replaying c.bk then s else (s.release c.bk c.wi 4).addHold c (.tlrinv (nbits x.dimm.toNat 7 0))

/-- The copies of a record dropped; pages whose home the new record moves become undefined (R134). -/
def State.dropTlr (s : State) (c idx : Nat) (known : Bool) : State :=
  let asid := (s.ctx c).asid
  let moves : List TlrMove := match s.tlrc.find? fun t => t.asid == asid && t.idx == idx with
    | some t => [{ asid := asid, idx := idx, old := if known then some t.tlr else none, gen := s.nextKey }]
    | none => []
  ({ s with tlrc := s.tlrc.filter fun t => !(t.asid == asid && t.idx == idx), tlrMoves := s.tlrMoves ++ moves }).bump

/-- TLR_INVALIDATE_COMPLETE (R134, R249). -/
def execTlrInvalidateComplete (c idx : Nat) (s : State) : Host.Outcome State Fault Refusal :=
  let asid := (s.ctx c).asid
  let s := s.dropTlr c idx true
  .next <| (s.mapCores fun k =>
    { k with tcache := k.tcache.filter fun t => !(t.asid == asid && t.leaf.getLsbD 60 && nbits t.leaf.toNat 59 52 == idx) }).endHold c (.tlrinv idx)

/-! ## Place tables (R250) -/

/-- The privileged trap where the context lacks the place-write permission. -/
def placeRight (c : Cx) (s : State) (f : State) : State :=
  if !(s.ctx c.b.ctx).plw then s.warpTrap c 0x04 0 else if s.replaying c.bk then s else f

def State.modPlace (s : State) (cell : Nat) (f : Place → Place) : State := { s with places := tmod s.places cell .reset f }

/-- R250: a DIEMAP entry of the issuing cell. -/
def execPlcwDie (x : EngArgs) (s : State) : Host.Outcome State Fault Refusal :=
  s.withGuardN x.g fun c _ => placeRight c s <|
    let p := nbits x.dimm.toNat 3 0
    let v := (c.opS s.tick x.o1).toNat % 16
    s.modPlace c.b.cell fun t =>
      { t with diemap := BitVec.ofNat 32 (t.diemap.toNat - nbits t.diemap.toNat (4 * p + 3) (4 * p) * 2 ^ (4 * p) + v * 2 ^ (4 * p)) }

/-- R250: a storage target of the issuing cell. -/
def execPlcwTgt (x : EngArgs) (s : State) : Host.Outcome State Fault Refusal :=
  s.withGuardN x.g fun c _ => placeRight c s <|
    s.modPlace c.b.cell fun t => { t with stgt := t.stgt.set (nbits x.dimm.toNat 3 0) (c.opS s.tick x.o1) }

/-! ## Stow hint and liveness (R251, R252) -/

/-- R251: sets the block's stow hint. -/
def execStow (x : EngArgs) (s : State) : Host.Outcome State Fault Refusal :=
  s.withGuardN x.g fun c _ => s.modBlock c.bk fun b => { b with hint := true }

/-- R251: clears it. -/
def execStowClr (x : EngArgs) (s : State) : Host.Outcome State Fault Refusal :=
  s.withGuardN x.g fun c _ => s.modBlock c.bk fun b => { b with hint := false }

/-- R252: registers the warp's live registers and scratchpad range, cut at SPSIZE. -/
def execLivem (x : EngArgs) (s : State) : Host.Outcome State Fault Refusal :=
  s.withGuardN x.g fun c _ =>
    let off := (c.opS s.tick x.o2).toNat
    let top := min (off + (c.opS s.tick x.o3).toNat) c.b.spSize
    s.modWarp c.bk c.wi fun w => { w with live := some { vmask := c.opS64 s.tick x.o1, off := off, len := top - off } }

/-- R252: removes the registration. -/
def execLivemClr (x : EngArgs) (s : State) : Host.Outcome State Fault Refusal :=
  s.withGuardN x.g fun c _ => s.modWarp c.bk c.wi fun w => { w with live := none }

end Sys2Proof.Machine
end

