-- ==== Sys2Proof/Machine/Record.lean ====
section
/-! DEFINITION. Shares whose layout is the device's own (R327, R309), and recorded mode's intervals (R309, R310). -/

namespace Sys2Proof.Machine

/-- The layout of a share is the device's own: what its pages read as is undefined until they are written again. -/
def State.markShare (s : State) (c : Nat) (vas : List Nat) : State :=
  vas.foldl (fun s va => match s.devPage c va .write with
    | (s, .ok t) => { s with tlrUndef := tset s.tlrUndef (t.key / 65536) { gen := s.nextKey, written := [] } }.bump
    | (s, .error _) => s) s

/-- The same, but for pages that are marked already. -/
def State.markNew (s : State) (c : Nat) (vas : List Nat) : State :=
  s.markShare c (vas.filter fun va => match (s.devPage c va .write).2 with
    | .ok t => (tget s.tlrUndef (t.key / 65536)).isNone
    | .error _ => false)

/-! ## Debug settings (R306) -/

/-- The debug settings that hold from a block's start or from its next clause boundary on (R306, R381). -/
def Ctx.dbgLatch (x : Ctx) : DbgLatch :=
  { sndk := x.sndk, sndbase := x.sndbase, trcbase := x.trcbase, trcsz := x.trcsz, haltb := x.haltb, trc := x.trc, att := x.att, ren := x.ren,
    stopr := x.stopr, recsh := x.recsh, recbase := x.recbase }

/-! ## Recording shares and checkpoints (R309) -/

/-- Bytes of a recording share. -/
def DbgLatch.shareLen (d : DbgLatch) : Nat := max d.recsh.toNat 1 * 65536

/-- The lowest free recording share for a block. -/
def State.freeRecShare (s : State) (b : Block) : Option Nat :=
  firstIdx ((s.ctx b.ctx).recsz.toNat * 65536 / b.dbg.shareLen) fun i => !s.blocks.any fun y => y.ctx == b.ctx && y.recShare == some i

def State.recording? (s : State) (bk : Nat) : Option Recording := s.recordings.find? fun r => r.block == bk

/-- The block with its fragments and latches, as a checkpoint holds it. -/
def State.whole (s : State) (b : Block) : Block :=
  let k := s.core b.core
  { b with frags := k.frags.filter fun e => e.2.block == b.key, latches := k.latches.filter fun e => e.2.block == b.key }

/-- Loads that are outstanding at a checkpoint are performed, so that it holds their values. -/
def State.performAll (s : State) (b : Block) : State := forN b.warps.length (fun i s => s.performTo b.key i s.nextKey) s

/-- An interval begins: the checkpoint is written at the start of the share, WCNT restarts at 0 in every warp, and the log knows the loads
that are outstanding by numbers of their own. -/
def State.startInterval (s : State) (b : Block) (share : Nat) : State :=
  let base := b.dbg.recbase.toNat / 65536 * 65536 + share * b.dbg.shareLen
  let s := s.markShare b.ctx ((List.range (b.dbg.shareLen / 65536)).map fun k => (base + 65536 * k) % 2 ^ 64)
  let s := s.performAll b
  let zero (w : Warp) : Warp :=
    { w with wcnt := 0, wpast := w.wpast + w.wcnt, loads := w.loads.map fun ld => { ld with cnt := 2 ^ 64 + ld.key } }
  let s := s.modBlock b.key fun y => { y.mapWarps (fun _ => zero) with recShare := some share, recCount := 0, spadForeign := false }
  match s.block? b.key with
  | none => s
  | some b => { s with recordings := (s.recordings.filter fun r => decide (r.block ≠ b.key)) ++
      [{ block := b.key, checkpoint := s.whole b, log := [], replaying := none }] }

/-- Outside recorded mode WCNT counts since the warp started (R210). -/
def Warp.unrecord (w : Warp) : Warp := { w with wcnt := w.wpast + w.wcnt, wpast := 0 }

/-- The block is recorded no more. -/
def State.endRecording (s : State) (bk : Nat) : State :=
  if s.recordings.any fun r => r.block == bk then
    { s.modBlock bk fun y => y.mapWarps fun _ => Warp.unrecord with recordings := s.recordings.filter fun r => decide (r.block ≠ bk) }
  else s

/-- At the start of a resident block and at its clause boundaries: under REC an unrecorded block claims its share and its first interval
begins; without REC its recording ends (R309, R316). -/
def State.atBoundary (s : State) (bk : Nat) : State :=
  match s.block? bk with
  | none => s
  | some b =>
    if !b.resident then s
    else if (s.ctx b.ctx).recm && b.replay.isNone then
      match s.recording? bk with
      | some _ => s
      | none => match b.recShare with
        | some i => s.startInterval b i
        | none => match s.freeRecShare b with
          | some i => s.startInterval b i
          | none => s
    else if s.replaying bk then s else s.endRecording bk

/-- The block goes to its checkpoint, or back to its present: its engines, launch queue and outstanding stores stay as they are, and so does
what its slice has of its warps. -/
def Block.rewind (b cp : Block) : Block :=
  { cp with
    key := b.key, ecs := b.ecs, launchq := b.launchq, clk := b.clk, wdogDone := b.wdogDone, frags := [], latches := [],
    warps := mapFrom 0 (fun i w =>
      let v := b.warp i
      { w with stores := v.stores, active := v.active, enter := v.enter, age := v.age, readyClk := v.readyClk }) cp.warps }

/-! ## The end of an interval (R309) -/

/-- Bytes of an entry of the input log (log 69): those of R310, not what the model keeps beside them. -/
def LogEntry.size : LogEntry → Nat
  | .load _ _ vs => 8 + (vs.map fun v => v.2.length).sum
  | .regs _ _ _ => 16
  | .sreg _ vs => 8 + 8 * vs.length
  | .issue _ _ _ _ => 16
  | .wstore _ st => 8 + 8 * st.length
  | .wait _ _ => 8
  | .waitw _ _ v => 8 + v.length
  | .frag _ _ _ _ => 0
  | .kill _ _ => 0
  | .expire _ _ _ => 0
  | .cbar _ => 0
  | .word _ => 0

/-- Bytes of a checkpoint, as R327 bounds a save set. -/
def Block.ckptSize (b : Block) : Nat :=
  4096 + 9216 * (b.warps.filter Warp.isLive).length + (b.spSize + 1023) / 1024 * 1024 + 16384 * b.tiles.length
    + 128 * (b.ecs.map fun e => e.cmds.length).sum

/-- The interval of a block is at its end: 2^20 instructions retired, or its share full. -/
def State.intervalDue (s : State) (b : Block) : Bool :=
  match s.recording? b.key with
  | some r => r.replaying.isNone && (decide (2 ^ 20 ≤ b.recCount)
      || (!r.log.isEmpty && decide (b.dbg.shareLen < r.checkpoint.ckptSize + (r.log.map LogEntry.size).sum)))
  | none => false

/-- An interval that is at its end gives way to the next one. -/
def State.nextInterval (s : State) (b : Block) : State := if s.intervalDue b then s.startInterval b (b.recShare.getD 0) else s

/-! ## A block shown in its past (R311; log 37) -/

/-- Entries of a block put into a core's table: each at its own place, or, of a block shown in its past, past the end of the `n` that the core
has. -/
def putTab {α : Type} (past : Bool) (n : Nat) (es t : Tab α) : Tab α :=
  es.foldl (fun (t : Tab α) (e : Nat × α) => tset t (if past then freePast t n else e.1) e.2) t

/-- The block as a checkpoint or a mark has it (`past`), or its present, is on its core. -/
def State.reload (s : State) (b : Block) (past : Bool) (cp : Block) : State :=
  let s := s.modBlock b.key fun y => y.rewind cp
  s.modCore b.core fun k =>
    { k with frags := putTab past 64 cp.frags (k.frags.filter fun e => decide (e.2.block ≠ b.key)),
             latches := putTab past 4 cp.latches (k.latches.filter fun e => decide (e.2.block ≠ b.key)) }

/-- The block's halt is set or cleared (R307). -/
def State.setHalt (s : State) (b : Block) (on : Bool) : State :=
  s.modCtx b.ctx fun x => { x with halted := if on then insertSorted b.key x.halted else x.halted.filter fun k => decide (k ≠ b.key) }

def State.modRecording (s : State) (bk : Nat) (f : Recording → Recording) : State :=
  { s with recordings := modWhere (fun r => r.block == bk) f s.recordings }

/-- The recording without a stop to go to, or to be shown. -/
def Recording.atPresent (r : Recording) : Recording := { r with replaying := none, mark := none, goal := none, present := none }

/-- A block that is shown in its past stands in its present again, as it was left, but for what its engines, stores and time have done since. -/
def State.toPresent (s : State) (bk : Nat) : State :=
  match s.block? bk, (s.recording? bk).bind (·.present) with
  | some b, some p =>
    let s : State := { (s.reload b false p).modRecording bk Recording.atPresent with cur := if s.cur.map (·.1) = some bk then none else s.cur }
    (s.settle bk).wakeAll
  | _, _ => s

/-- The same for every block of a context; no stop is to be gone to any more. -/
def State.endReplays (s : State) (c : Nat) : State :=
  let mine (b : Block) : Bool := b.ctx == c
  let s := (s.blocks.filter mine).foldl (fun s b => s.toPresent b.key) s
  { s with recordings := s.recordings.map fun r => if ((s.block? r.block).any mine) then { r with goal := none } else r }

end Sys2Proof.Machine
end

