-- ==== Sys2Proof/Machine/Launch.lean ====
section
/-! DEFINITION. From launch to placement (R65, R66, R71 to R76, R279, R320, R329): batches, work queues, the choice of cell and core,
the placing of blocks, and the end of a block. -/

namespace Sys2Proof.Machine

/-! ## Cells, cores and room (R73 to R76) -/

/-- The cells of a partition that can take blocks, ascending (R74, R376). -/
def State.partCells (s : State) (part : Nat) : List Nat :=
  (List.range 48).filter fun c =>
    (tgetD s.wh.partmap c 0xFF).toNat == part && s.wh.live.contains (c / 6) && !s.wh.dielost.getLsbD (c / 6)

/-- The logical core slots of a cell with their physical cores. A SLOTMAP entry that names the spare position names
that core, and of a code 8 to 15 the low three bits count (log 92). -/
def State.cellCores (s : State) (cell : Nat) : List (Nat × Nat) :=
  (List.range 7).map fun t => (t, cell * 8 + (s.place cell).pos t)

/-- The block holds resources of its core (R70, R93). -/
def Block.holdsCore (b : Block) : Bool :=
  b.replay.isNone && (match b.mv with | .resident => true | .stowing => true | .restoring => true | _ => false)

/-- The blocks that hold resources of a core. -/
def State.held (s : State) (core : Nat) : List Block := s.blocks.filter fun b => b.core == core && b.holdsCore

/-- Free warp slots of a slice. -/
def freeSlots (hs : List Block) (slice : Nat) : List Nat :=
  (List.range 32).filter fun t => !(hs.any fun b => b.warps.any fun w => w.slice == slice && w.slot == t)

/-- The list turned by a number. -/
def turnBy {α : Type} (l : List α) (n : Nat) : List α := l.drop (n % l.length) ++ l.take (n % l.length)

/-- The first slice with the most free warp slots. -/
def firstSlice (hs : List Block) : Nat :=
  (List.range 8).foldl (fun best i => if (freeSlots hs best).length < (freeSlots hs i).length then i else best) 0

/-- Slices and slots for `n` warps (R76); which free slot of a slice a warp takes is open (log 9). -/
def warpSlots (hs : List Block) (n tick : Nat) : Option (List (Nat × Nat)) :=
  let s0 := firstSlice hs
  let got := (List.range n).map fun w =>
    let sl := (s0 + w) % 8
    ((turnBy (freeSlots hs sl) (Config.placeChoice tick 0))[w / 8]?).map fun t => (sl, t)
  if got.all Option.isSome then some (got.map fun x => x.getD (0, 0)) else none

/-- Tiles for a block, which ones is open (log 9). -/
def freeTiles (hs : List Block) (n tick : Nat) : Option (List Nat) :=
  let fs := (List.range 16).filter fun t => !hs.any fun b => b.tiles.contains t
  if fs.length < n then none else some ((turnBy fs (Config.placeChoice tick 1)).take n)

/-- The base `k` KiB has room for `kib` KiB; a base is a multiple of 1 KiB (log 100). -/
def baseFits (hs : List Block) (kib k : Nat) : Bool :=
  decide (k + max kib 1 ≤ 1024) &&
    (decide (kib = 0) || hs.all fun b => decide (b.spSize = 0 ∨ 1024 * (k + kib) ≤ b.spBase ∨ b.spBase + b.spSize ≤ 1024 * k))

def freeBases (hs : List Block) (kib : Nat) : List Nat := (List.range 1024).filter (baseFits hs kib)

/-- A core has room for a block of `nw` warps, `kib` KiB and `nacc` tiles (R73). -/
def State.coreRoom (s : State) (core nw kib nacc : Nat) : Bool :=
  let hs := s.held core
  (warpSlots hs nw s.tick).isSome && (freeTiles hs nacc s.tick).isSome && !(freeBases hs kib).isEmpty

def totalFree (hs : List Block) : Nat := 256 - (hs.map fun b => b.warps.length).sum

/-- Cores with room that satisfy `also`, the one with the most free warp slots first, the lowest logical slot among equals (R74). -/
def State.roomyCores (s : State) (cell nw kib nacc : Nat) (also : Nat → Bool) : List (Nat × Nat) :=
  let ok := (s.cellCores cell).filter fun e => s.coreRoom e.2 nw kib nacc && also e.2
  let put (l : List (Nat × Nat)) (e : Nat × Nat) : List (Nat × Nat) :=
    let n := totalFree (s.held e.2)
    (l.filter fun f => decide (n ≤ totalFree (s.held f.2))) ++ [e] ++ l.filter fun f => decide (totalFree (s.held f.2) < n)
  ok.foldl (fun l e => if l.any fun f => f.2 == e.2 then l else put l e) []

/-- `n` distinct cores of a cell with room at one scratchpad base (R73, R120): logical slot and core, and the base in KiB. -/
def State.findCores (s : State) (cell n nw kib nacc : Nat) (also : Nat → Bool) : Option (List (Nat × Nat) × Nat) :=
  let cs := s.roomyCores cell nw kib nacc also
  if cs.length < n then none
  else
    let best := cs.take n
    let bases := (List.range 1024).filter fun k => best.all fun e => baseFits (s.held e.2) kib k
    match (turnBy bases (Config.placeChoice s.tick 2)).head? with
    | some k => some (best, k)
    | none =>
      let fit k := cs.filter fun e => baseFits (s.held e.2) kib k
      ((List.range 1024).find? fun k => decide (n ≤ (fit k).length)).map fun k => ((fit k).take n, k)

/-! ## Blocks that return come first (R73) -/

/-- A wait of a block that is away would now end: the waits of R88's table are tested (R69), the others not. A word that cannot be read ends no
wait; an RCALL wakes when it is the oldest that waits and its log has room (R299). -/
def State.wakeTest (s : State) (b : Block) (wt : Wait) : Bool :=
  match wt with
  | .waitw a v cmp w64 _ _ _ =>
    match (s.resolve (s.ctx b.ctx) a).2 with
    | none => false
    | some t =>
      let n := if w64 then 8 else 4
      let key := t.key + a % 65536
      t.allows .read && (waitwTest cmp n (leNat ((List.range n).map fun i => s.cohByte (key + i))) v.toNat || s.cohPois key)
  | .rcall desc => match s.robj? b.ctx desc with
    | some o => match o.waiting with
      | w :: _ => w.block == b.key && o.room w
      | [] => false
    | none => false
  | wt => wt.stowable && s.waitHolds b wt

/-- A thread of the block has its wake condition true (R69). -/
def State.wakes (s : State) (b : Block) : Bool :=
  b.warps.any fun w => w.lanes.any fun x => x.isReal && (match x.st with | .waiting wt => s.wakeTest b wt | _ => false)

/-- The blocks that are stowed and restored with a block (R67). -/
def State.companions (s : State) (b : Block) : List Block := s.clusterOf b

/-- A block that stows, or is stowed, is woken: its wake condition holds, or held at a step since it began STOWING (R69, R70). -/
def State.noteWake (s : State) (b : Block) : Block :=
  match b.mv with
  | .stowing => { b with woke := b.woke || s.wakes b }
  | .stowed => { b with woke := b.woke || s.wakes b }
  | _ => b

def State.noteWakes (s : State) : State := { s with blocks := s.blocks.map s.noteWake }

/-- The block waits to come back: its wake condition holds, or has held since it began STOWING, or it was saved and its context runs (R69, R70,
R94; log 93). -/
def State.wantsBack (s : State) (b : Block) : Bool :=
  (s.ctx b.ctx).runs && (match b.mv with
    | .saved => true
    | .stowed => (s.companions b).any fun y => y.woke || s.wakes y
    | _ => false)

/-- The cells of a partition in the fixed cycle of R74. -/
def State.cycle74 (s : State) (part : Nat) : List Nat :=
  let cs := s.partCells part
  let t := tgetD s.wh.cellTurn part 0
  cs.filter (fun c => decide (t ≤ c)) ++ cs.filter fun c => decide (c < t)

/-- The block whose record a handler block serves, where it stands (R346, R348). -/
def State.handlerTarget (s : State) (b : Block) : Option Block :=
  b.handler.bind fun rid => ((s.ctx b.ctx).recs.find? fun r => r.rid.toNat == rid).bind fun r => r.trap.block.bind s.block?

/-- The cells that a block without a cell of its own in the partition may go to; a handler goes to its target's, once that is placed; any
other in the order of R74's cycle, which does not advance (log 114). -/
def State.newCells (s : State) (b : Block) : List Nat :=
  match s.handlerTarget b with
  | none => s.cycle74 (s.ctx b.ctx).part.toNat
  | some t => if t.holdsCore then [t.cell] else if t.mv = .saved then [] else s.cycle74 (s.ctx b.ctx).part.toNat

/-- The block is to be restored in the cell (R94). -/
def State.wantsCell (s : State) (b : Block) (cell : Nat) : Bool :=
  s.wantsBack b && if (s.partCells (s.ctx b.ctx).part.toNat).contains b.cell then b.cell == cell else (s.newCells b).contains cell

/-- A cell takes no undispatched block while one waits to return to it, and but for a handler none while a handler waits for
it (R73, R94, R346). -/
def State.cellOpen (s : State) (cell : Nat) (handler : Bool) : Bool :=
  !(s.blocks.any fun b => s.wantsCell b cell) &&
    (handler || !s.grids.any fun g => g.handler.isSome && g.next == 0 && (s.ctx g.ctx).runs && (match g.atCell with
      | some (_, c) => c == cell
      | none => false))

/-! ## Where a grid's next block goes (R73 to R75, R346) -/

/-- The layout record that places a grid: its snapshot, or what is read now. -/
def State.gridTlr (s : State) (g : Grid) : Option Tlr :=
  if !g.lrec.tlrv then none
  else match g.tlr with
    | some t => some t
    | none => some (s.tlrCopy (s.ctx g.ctx) g.lrec.tlri).2

/-- The cells for a grid's next block, in the order in which they are tried. -/
def State.cellsFor (s : State) (g : Grid) : List Nat :=
  let all := s.cycle74 (s.ctx g.ctx).part.toNat
  match g.atCell with
  | some (_, c) => if all.contains c then [c] else all
  | none => match s.gridTlr g with
    | none => all
    | some t =>
      if t.malformed || s.liveCount == 0 then all
      else
        let p := s.wh.live.getD (t.homeOf s.liveCount (g.next % t.tiles)) 8
        if s.wh.dielost.getLsbD p then all
        else
          let here := all.filter fun c => c / 6 == p
          if here.isEmpty then all else here

def Grid.warps (g : Grid) : Nat := (g.lrec.nthr + 31) / 32

/-- The spot of the next block or cluster: cell, cores, base. -/
def State.findSpot (s : State) (g : Grid) : Option (Nat × List (Nat × Nat) × Nat) :=
  (s.cellsFor g).findSome? fun cell =>
    if s.cellOpen cell g.handler.isSome then
      (s.findCores cell (g.lrec.clus + 1) g.warps g.lrec.spad g.lrec.nacc fun _ => true).map fun r => (cell, r.1, r.2)
    else none

/-- The next block of the grid can be placed. -/
def State.placeable (s : State) (g : Grid) : Bool :=
  (s.ctx g.ctx).runs && decide (g.next < g.lrec.nblk) && (s.findSpot g).isSome

/-! ## The order of dispatch (R71) -/

def rankLt : List Nat → List Nat → Bool
  | a :: as, b :: bs => if a < b then true else if b < a then false else rankLt as bs
  | _, _ => false

/-- The turn of a queue at a priority, counted from the next queue to be served. -/
def State.turnDist (s : State) (prio q : Nat) : Nat := (q + Config.queues - tgetD s.wh.queueTurn prio 0) % Config.queues

/-- Lower ranks go first: the grids of handlers and what they launched; then by priority, by turn, and within a turn by kind and
order. Handlers' grids stand in the order in which their records were written. -/
def State.rank (s : State) (g : Grid) (kind : Nat) : List Nat :=
  if g.chain then [0, g.ord] else [1, 7 - min g.prio 7, s.turnDist (min g.prio 7) g.turn, kind, g.ord]

def Grid.kind (g : Grid) : Nat := if g.host then 0 else 1

/-! ## Host work queues (R329) -/

/-- Storage of a host bus address. -/
def hostKey (bus : Nat) : Nat := if bus < 2 ^ 48 then hostBase + bus else 2 ^ 65 + bus

/-- A byte of host memory as the device sees it: what an L2 holds modified, else the host's own. -/
def State.hostByte (s : State) (key : Nat) : Byte :=
  match s.hlines.find? fun h => h.line == key / 128 && h.dirty.contains (key % 128) with
  | some h => h.data.getD (key % 128) 0
  | none => s.mem.read key

def WQueue.logn (q : WQueue) : Nat := min q.logsz.toNat 12

def WQueue.count (q : WQueue) : Nat := (q.tail - q.head).toNat

/-- More records than the ring holds overrun the queue, until the host rewrites TAIL. -/
def WQueue.test (q : WQueue) : WQueue := { q with overrun := q.overrun || decide (2 ^ q.logn < q.count) }

/-- TAIL as the host writes it. -/
def WQueue.setTail (q : WQueue) (tail : Word) : WQueue := { q with tail := tail, overrun := false }.test

/-- The queue has a record that the command processor may take. -/
def State.queueOpen (s : State) (q : WQueue) : Bool :=
  let x := s.ctx q.ctx.toNat
  q.en && x.en && !x.failed && !q.overrun && decide (0 < q.count)

/-- The record at HEAD. -/
def State.queueRecord (s : State) (q : WQueue) : Nat :=
  let a := q.base.toNat * 4096 + 64 * (q.head.toNat % 2 ^ q.logn)
  leNat ((List.range 64).map fun i => s.hostByte (hostKey (a + i)))

/-- The grid that a record of queue `n` would become. -/
def State.queueGrid (s : State) (n : Nat) (q : WQueue) (r : LaunchRec) : Grid :=
  { key := s.nextKey, ctx := q.ctx.toNat, lrec := r, turn := n, host := true, chain := false, prio := q.prio.toNat, ord := s.nextKey }

/-- The grids and records that could be taken now, with their ranks. -/
def State.candidates (s : State) : List (List Nat) :=
  (s.grids.filter s.placeable).map (fun g => s.rank g g.kind) ++ s.queues.filterMap fun e =>
    if s.queueOpen e.2 then (parseLaunch (s.queueRecord e.2)).bind fun r =>
      let g := s.queueGrid e.1 e.2 r
      if s.placeable g then some (s.rank g 2) else none
    else none

/-- Nothing that could be placed goes before this rank. -/
def State.first (s : State) (r : List Nat) : Bool := !(s.candidates.any fun c => rankLt c r)

/-! ## Completion words (R66) -/

/-- An atomic add to a completion word by the launch unit, after a release; a memory cause is the completion fault. -/
def State.completionAdd (s : State) (c done v : Nat) (system : Bool) : State :=
  let fail (s : State) (e : Nat) : State := s.pend c { id := 0, cause := 0x33, kind := 3, code := e, aux := BitVec.ofNat 64 done }
  if done = 0 then s
  else if !canonical done || !canonical ((done + 7) % 2 ^ 64) then fail s 0x11
  else if done % 8 ≠ 0 then fail s 0x10
  else match s.devPage c done .rmw with
    | (s, .error e) => fail s e
    | (s, .ok t) =>
      let s := if system then s.cleanHLines fun _ => true else s
      let key := t.key + done % 65536
      let s := if isOutside key then
          let s := s.dropHLines fun h => h.line == key / 128
          s.putHome key (leBytes 8 ((leNat (s.mem.readN key 8) + v) % 2 ^ 64))
        else s.l2WriteN (keyDie key) key (leBytes 8 ((leNat (s.l2Bytes (keyDie key) key 8) + v) % 2 ^ 64))
      s.foreignStore none ((List.range 8).map (key + ·))

/-- WORK_QUEUE_TAKE (R71, R329): the record at HEAD is snapshotted as a grid; one that breaks R279 is discarded. Records of a
pre-empted context are taken, and their blocks wait (R337). -/
def execWorkQueueTake (q : Nat) (s : State) : Host.Outcome State Fault Refusal :=
  .next <|
    let d := s.queue q
    if !s.queueOpen d then s
    else
      let took (s : State) : State := s.modQueue q fun x => { x with head := x.head + 1 }
      let v := s.queueRecord d
      match parseLaunch v with
      | none => ((took s).completionAdd d.ctx.toNat (nbits v 191 128) (2 ^ 63) true).wakeAll
      | some r =>
        let g := s.queueGrid q d r
        if (s.ctx d.ctx.toNat).pre then { (took s).bump with grids := s.grids ++ [g] }
        else if s.placeable g && s.first (s.rank g 2) then { (took s).bump with grids := s.grids ++ [g] }
        else s

/-- WORK_QUEUE_DOORBELL (R329): TAIL as the host writes it, of one of the 8,192 queues (R12). -/
def execWorkQueueDoorbell (q : Nat) (tail : Word) (s : State) : Host.Outcome State Fault Refusal :=
  .next (if q < Config.queues then s.modQueue q fun x => x.setTail tail else s)

/-! ## Pending-launch queues (R65, R320) -/

/-- The fragment-table entries of a block: on its core, or with it while it is away. -/
def State.fragsOfBlock (s : State) (b : Block) : List Frag :=
  (if b.holdsCore then (s.core b.core).frags.filter fun f => f.2.block == b.key else b.frags).map (·.2)

/-- The debugger has stopped threads of the warp (R307, R308). -/
def State.stoppedBy (s : State) (b : Block) (wi : Nat) : Bool := (s.fragsOfBlock b).any fun f => f.warp == wi && f.dbg && f.state == 1

/-- A thread counts as runnable for R320: runnable in a warp that is not held, or stopped by the debugger, in a held warp too (log 123), and
any of a block that is shown in its past; none of a stowed block. -/
def State.countsRunnable (s : State) (b : Block) : Bool :=
  b.mv != .stowed && (s.replaying b.key || (mapFrom 0 (fun i w => (i, w)) b.warps).any fun e =>
    decide (e.2.held = []) && e.2.lanes.any (fun x => x.isReal && x.isRunnable) || s.stoppedBy b e.1)

/-- Commands of a context leave, and its level advances past every token whose commands are done (R57). -/
def Eng.drop (e : Eng) (p : Cmd → Bool) : Eng :=
  let cs := e.cmds.filter fun c => !p c
  { e with cmds := cs, level := (cs.map (·.tok)).foldl (fun a t => min a (t - 1)) e.top }

/-- The batch: every entry is snapshotted in order and freed in one step. -/
def State.takeBatch (s : State) (b : Block) : State :=
  let parent := s.grids.find? fun g => g.key == b.grid
  let s := b.launchq.foldl (fun s e =>
    let g : Grid := { key := s.nextKey, ctx := b.ctx, lrec := e.lrec, host := false, turn := (parent.map (·.turn)).getD 0,
                      chain := (parent.map (·.chain)).getD false, prio := (parent.map (·.prio)).getD 0, ord := s.nextKey }
    { s.bump with grids := s.grids ++ [g] }) s
  (s.modBlock b.key fun y =>
    { y with launchq := [],
             ecs := mapFrom 0 (fun k e => e.drop fun c => b.launchq.any fun (l : LEntry) => l.ec == k && l.tok == c.tok) y.ecs }).wakeAll

/-- The launch unit may take a batch of the block; not of one that the debugger shows in its past. -/
def State.mayTake (s : State) (b : Block) : Bool := !b.launchq.isEmpty && (s.ctx b.ctx).runs && !s.replaying b.key

/-- The oldest entry has stood for 4,096 cycles of the block's CLK. -/
def Block.launchDue (b : Block) : Bool := match b.launchq with | e :: _ => decide (Config.launchTimeout ≤ e.age) | [] => false

/-- Every batch that may be taken now is taken (R320). -/
def State.takeDue (s : State) : State :=
  s.blocks.foldl (fun s b => match s.block? b.key with
    | some b => if s.mayTake b && (!s.countsRunnable b || b.launchDue) then s.takeBatch b else s
    | none => s) s

/-- LAUNCH_BATCH_TAKE (R320): no thread of the block is runnable. -/
def execLaunchBatchTake (b : Nat) (s : State) : Host.Outcome State Fault Refusal :=
  .next <| match s.block? b with
  | none => s
  | some bl => if s.mayTake bl && !s.countsRunnable bl then s.takeBatch bl else s

/-- LAUNCH_BATCH_TIMEOUT (R320): the oldest entry has stood for 4,096 cycles of the block's CLK. -/
def execLaunchBatchTimeout (b : Nat) (s : State) : Host.Outcome State Fault Refusal :=
  .next <| match s.block? b with
  | none => s
  | some bl =>
    if s.mayTake bl && bl.launchDue then s.takeBatch bl else s

/-! ## Placing (R72, R73, R76, R30, R38) -/

/-- The kind of lane `l` of warp `wi` in a block of `nthr` threads (R38). -/
def laneKind (nthr wi l : Nat) : LaneKind :=
  if 32 * wi + l < nthr then .real else if l < 4 * ((min 32 (nthr - 32 * wi) + 3) / 4) then .helper else .absent

/-- A lane on entry to a kernel (R30). -/
def Lane.start (k : LaneKind) (code : DWord) : Lane :=
  match k with
  | .absent => {}
  | k => { kind := k, st := .runnable, pc := code }

def Warp.start (nthr wi : Nat) (code param : DWord) (tick : Nat) (at_ : Nat × Nat) (active : Bool) : Warp :=
  { slice := at_.1, slot := at_.2, active := active, enter := tick, age := tick,
    lanes := (List.range 32).map fun l => Lane.start (laneKind nthr wi l) code,
    s := [(0, param.setWidth 32), (1, (param >>> 32).setWidth 32)] }

/-- Active warps of a slice. -/
def activeCount (hs : List Block) (slice : Nat) : Nat :=
  (hs.flatMap fun b => b.warps.filter fun w => w.slice == slice && w.active && w.isLive).length

/-- Which of the newly placed warps enter their active sets: those that find fewer than 8 there (R76). -/
def activeFlags (hs : List Block) : List (Nat × Nat) → List (Nat × Nat) → List Bool
  | _, [] => []
  | done, x :: xs =>
    let on := decide (activeCount hs x.1 + (done.filter fun d => d.1 == x.1).length < 8)
    on :: activeFlags hs (if on then done ++ [x] else done) xs

def freeBslot (hs : List Block) (tick : Nat) : Nat :=
  ((turnBy ((List.range 256).filter fun n => !hs.any fun b => b.bslot == n) (Config.placeChoice tick 3)).head?).getD 0

/-- The scheduling fields a block takes at placement and at restore (R77). -/
def Block.sched (b : Block) (x : Ctx) : Block :=
  let v := x.sched.toNat
  { b with stowt := nbits v 31 24, sbsw := if nbits v 23 16 = 0 then 64 else nbits v 23 16,
           pstarv := if nbits v 15 8 = 0 then 16 else nbits v 15 8 }

/-- One block of a grid on its core; under REC its first interval starts with it (R309). -/
def State.putBlock (s : State) (g : Grid) (cluster : Option Nat) (rank id slot core base : Nat) : State :=
  let hs := s.held core
  let at_ := (warpSlots hs g.warps s.tick).getD []
  let act := activeFlags hs [] at_
  let b : Block :=
    { key := s.nextKey, ctx := g.ctx, grid := g.key, blockId := BitVec.ofNat 32 id, cluster := cluster, crank := rank, nthr := g.lrec.nthr,
      core := core, lslot := slot, bslot := freeBslot hs s.tick, spBase := 1024 * base, spSize := 1024 * g.lrec.spad,
      tiles := (freeTiles hs g.lrec.nacc s.tick).getD [], place := s.place (core / 8), codeBase := g.lrec.code, handler := g.handler,
      dbg := (s.ctx g.ctx).dbgLatch,
      ecs := g.lrec.ecscope.map fun e => { scope := e },
      warps := mapFrom 0 (fun i p => Warp.start g.lrec.nthr i g.lrec.code g.lrec.param s.tick p (act.getD i false)) at_ }
  (({ s with blocks := s.blocks ++ [b.sched (s.ctx g.ctx)] }.bump).acquire s.nextKey (if g.host then 5 else 4)).atBoundary s.nextKey

/-- The code lines of a grid's address space leave the partition's instruction caches (R184). -/
def State.dropCode (s : State) (c : Nat) : State :=
  let x := s.ctx c
  { s with cores := s.cores.map fun e =>
      (e.1, if (tgetD s.wh.partmap (e.1 / 8) 0xFF).toNat = x.part.toNat then
              { e.2 with icache := e.2.icache.filter fun l => l.asid != x.asid } else e.2) }

def State.modGrid (s : State) (k : Nat) (f : Grid → Grid) : State := { s with grids := modWhere (fun g => g.key == k) f s.grids }

/-- What the dispatch of a grid's first block does: the layout snapshot (R75), the grid's number (R315), the turn (R71), which passes to the
next queue then (log 94), the code lines (R184). -/
def State.startGrid (s : State) (g : Grid) : State :=
  if g.started then s
  else
    let n := (s.ctx g.ctx).gridCount
    let t := s.gridTlr g
    let s := if g.lrec.tlrv then (s.tlrCopy (s.ctx g.ctx) g.lrec.tlri).1 else s
    let s := s.modGrid g.key fun x => { x with started := true, num := n, tlr := t }
    let s := s.modCtx g.ctx fun x => { x with gridCount := n + 1 }
    let s := if g.chain then s else s.modWh fun w => { w with queueTurn := tset w.queueTurn (min g.prio 7) ((g.turn + 1) % Config.queues) }
    s.dropCode g.ctx

/-- A die leaves idle states before a block is placed on it (R336). -/
def State.wakeDie (s : State) (die : Nat) : State := s.modWh fun w => { w with pwrst := tset w.pwrst die 0 }

/-- BLOCK_PLACE (R72, R73): the grid's next block, or its whole next cluster, goes to its cores in one step, where room is free
and nothing goes before it. -/
def execBlockPlace (grid : Nat) (s : State) : Host.Outcome State Fault Refusal :=
  .next <| match s.grids.find? fun g => g.key == grid with
  | none => s
  | some g =>
    if !s.placeable g || !s.first (s.rank g g.kind) then s
    else match s.findSpot g with
      | none => s
      | some (cell, cores, base) =>
        let s := (s.startGrid g).wakeDie (cell / 6)
        let part := (s.ctx g.ctx).part.toNat
        let s := s.modWh fun w => { w with cellTurn := tset w.cellTurn part (cell + 1) }
        let cluster := if cores.length = 1 then none else some s.nextKey
        let s := (mapFrom 0 (fun i e => (i, e)) cores).foldl (fun s e => s.putBlock g cluster e.1 (g.next + e.1) e.2.1 e.2.2 base) s
        s.modGrid grid fun x => { x with next := g.next + cores.length }

/-! ## The end of a block (R231, R66) -/

/-- The block of the word in flight. -/
def State.curBlock (s : State) : Option Nat := match s.cur with | some (k, _) => some k | none => none

/-- The block is removed, with what it held. -/
def State.dropBlock (s : State) (b : Block) : State :=
  let s := { s with blocks := s.blocks.filter fun x => decide (x.key ≠ b.key),
                    recordings := s.recordings.filter fun r => decide (r.block ≠ b.key),
                    cur := if s.curBlock = some b.key then none else s.cur }
  s.modCore b.core fun k => { k with frags := k.frags.filter fun e => decide (e.2.block ≠ b.key),
                                     latches := k.latches.filter fun e => decide (e.2.block ≠ b.key) }

/-- A block of a grid has ended; after the last one the completion word is added to and the grid is gone. -/
def State.gridEnd (s : State) (k : Nat) : State :=
  match s.grids.find? fun g => g.key == k with
  | none => s
  | some g =>
    if g.lrec.nblk ≤ g.ended + 1 then
      ({ s with grids := s.grids.filter fun x => decide (x.key ≠ k) }).completionAdd g.ctx g.lrec.done.toNat 1 g.host
    else s.modGrid k fun x => { x with ended := g.ended + 1 }

/-- Every thread has exited, nothing holds a warp's next clause, every counted store is acknowledged and no command is left. -/
def Block.over (b : Block) : Bool :=
  b.replay.isNone && b.warps.all (fun w => !w.isLive && w.hold.isEmpty && w.stores.all (·.uo)) && b.ecs.all fun e => e.cmds.isEmpty

/-- The block is the home of a ring, and another block of its cluster has threads that may run a ring form: it keeps what it holds, and may be
stowed with its cluster (R318, R392; log 122). -/
def State.lingers (s : State) (b : Block) : Bool :=
  b.over && !b.rings.isEmpty && (s.clusterOf b).any fun y => decide (y.key ≠ b.key) && y.warps.any Warp.isLive

/-- BLOCK_END (R231): a block whose threads have exited frees its resources once its release counters are zero and its commands
are done, and no other member of its cluster may need its ring. The completion add follows every store of the block and every store
that it has read (R170). A handler's record has had its handler (R347). -/
def execBlockEnd (b : Nat) (s : State) : Host.Outcome State Fault Refusal :=
  .next <| match s.block? b with
  | none => s
  | some bl =>
    if !bl.resident || !bl.over || s.lingers bl || s.replaying b then s
    else
      let s := forN bl.warps.length (fun i s => (s.drainSeen b i).drainAll b i) (s.windowSettle bl)
      let s := match bl.handler with
        | some rid => s.modCtx bl.ctx fun x =>
            { x with recs := modWhere (fun r => r.rid.toNat == rid) (fun r => { r with handling := .done }) x.recs }
        | none => s
      ((s.dropBlock bl).gridEnd bl.grid).wakeAll

end Sys2Proof.Machine
end

