-- ==== Sys2Proof/Machine/Sched.lean ====
section
/-! DEFINITION. The scheduler of a slice: groups (R41), readiness (R78), raised warps (R86), swaps (R79, R80), and the passing of time
(R87, R89, R320, R379). -/

namespace Sys2Proof.Machine

/-! ## Groups (R41, R42) -/

/-- The runnable threads of a warp at one place; `step` is set for a fragment that the debugger steps, which is a group of its own (R308), `behind` is how many clauses
other groups have issued since one of them could run (R42). -/
structure Group where
  pc : DWord
  widx : Nat
  step : Bool
  mask : Mask
  stamp : Nat
  behind : Nat := 0
deriving DecidableEq, Repr

/-- When a lane last issued; a lane that never did comes first (R41). -/
def Lane.order (x : Lane) : Nat := match x.stamp with | none => 0 | some t => t + 1

/-- The fragment of a thread that the debugger steps. -/
def Lane.stepKey (x : Lane) : Option Nat := if x.step then some x.frag else none

/-- The groups of a warp, by their lowest lanes. -/
def Warp.groups (w : Warp) : List Group :=
  let at_ := (w.lanes.filter fun x => x.isReal && x.isRunnable).map fun x => (x.pc, x.widx, x.stepKey)
  at_.eraseDups.map fun p =>
    let mask := maskOf fun l => (w.lane l).isRunnable && (w.lane l).pc == p.1 && (w.lane l).widx == p.2.1 && (w.lane l).stepKey == p.2.2
    { pc := p.1, widx := p.2.1, step := p.2.2.isSome, mask := mask,
      stamp := (mask.list.map fun l => (w.lane l).order).foldl min ((w.lane (mask.list.headD 0)).order),
      behind := (mask.list.map fun l => (w.lane l).behind).foldl max 0 }

/-! ## Readiness (R29, R78) -/

/-- A scoreboard counts an outstanding operation of the warp (R29); 7 stands for those without one. -/
def Warp.sbBusy (w : Warp) (n : Nat) : Bool := w.loads.any fun ld => ld.sb == n

/-- The clause where the group stands is held on a scoreboard that its WSB names. A clause that goes on at a later word has started already
(log 24). -/
def State.wsbHeld (s : State) (b : Block) (w : Warp) (g : Group) : Bool :=
  decide (g.widx = 0) && match (s.fetchWord b.core b.ctx b.die g.pc.toNat).2 with
    | .ok h => (List.range 6).any fun n => h.getLsbD (4 + n) && w.sbBusy n
    | .error _ => false

/-- A group may issue: nothing without a scoreboard is outstanding, and where its clause starts the scoreboards of its WSB are zero. -/
def State.mayStart (s : State) (b : Block) (w : Warp) (g : Group) : Bool :=
  w.loads.isEmpty || (!w.sbBusy 7 && !s.wsbHeld b w g)

/-- The debugger halts the block (R307). -/
def State.halted (s : State) (b : Block) : Bool := (s.ctx b.ctx).halted.contains b.key

/-- Only a fragment that the debugger steps may issue: the block is halted, or its context is being pre-empted (R308, R316). -/
def State.stepOnly (s : State) (b : Block) : Bool := s.halted b || (s.ctx b.ctx).pre && b.replay.isNone

def byBehind (l : List Group) (g : Group) : List Group :=
  l.filter (fun x => decide (g.behind ≤ x.behind)) ++ [g] ++ l.filter fun x => decide (x.behind < g.behind)

/-- The groups from which the next must be taken, so that no thread sees more than 31 clauses of other groups (R42): where the groups, most
overtaken first, have no time to lose up to one of them, those up to it. -/
def dueGroups (gs : List Group) : List Group :=
  let l := gs.foldl byBehind []
  match firstIdx l.length fun i => decide (31 ≤ ((l[i]?).map (·.behind)).getD 0 + i) with
  | some i => l.take (i + 1)
  | none => gs

/-- The groups of which one issues next (R42, R308). -/
def State.nextGroups (s : State) (b : Block) (w : Warp) : List Group :=
  if s.stepOnly b then w.groups.filter (·.step) else dueGroups w.groups

/-- The next clause of the warp, of whichever group, is held on a scoreboard (R79): not one that waits for an operation without a scoreboard. -/
def State.sbHeld (s : State) (b : Block) (w : Warp) : Bool :=
  w.flight.isNone && !(s.nextGroups b w).isEmpty && (s.nextGroups b w).all (s.wsbHeld b w)

/-- The group that issues next (R41, R42): of those whose clause may start, the one that issued least recently. -/
def State.nextGroup (s : State) (b : Block) (w : Warp) : Option Group :=
  ((s.nextGroups b w).filter (s.mayStart b w)).foldl (fun (a : Option Group) g => match a with
    | some x => if g.stamp < x.stamp then some g else some x
    | none => some g) none

/-- A step of the warp is under way (R308). -/
def Warp.stepping (w : Warp) : Bool := w.lanes.any fun x => x.isReal && x.step

/-- Nothing holds the warp: it is neither held by a trap nor by an instruction before its next clause. -/
def Warp.free (w : Warp) : Bool := decide (w.held = []) && w.hold.isEmpty

/-- The warp is ready (R78). -/
def State.warpReady (s : State) (b : Block) (w : Warp) : Bool :=
  b.resident && decide (w.held = []) && (w.flight.isSome || (w.hold.isEmpty && (s.nextGroup b w).isSome))

/-- The block's warps may issue a clause: it is resident, not halted, and its context runs, with no trap kept for after its restore (R92,
R376, R307, R353); of a halted or pre-empted block a fragment that is stepped may (R308, R316). A replay method of a pre-empted context
runs to its end (R91). -/
def State.mayIssue (s : State) (b : Block) : Bool :=
  let x := s.ctx b.ctx
  b.resident && x.en && !x.failed && !x.kept
    && (b.replay.isSome || !s.stepOnly b || (!x.preFault && b.warps.any (·.stepping)))

/-- The warp is between clauses, and the next that it issues is an ENG clause. A re-execution issues in the order of its log. -/
def State.engNext (s : State) (b : Block) (w : Warp) : Bool :=
  w.flight.isNone && w.active && w.free && s.mayIssue b && !s.replaying b.key && (s.nextGroup b w).any fun g =>
    match (s.fetchWord b.core b.ctx b.die g.pc.toNat).2 with
    | .ok h => Cls.ofBits (Header.ofWord h).cls == some .eng
    | .error _ => false

/-- An ENG word of the warp is granted (R84): no other slice of the core that has one ready, in a clause in flight or in the next of a warp
between clauses, comes before its own, counted from the slice whose turn it is. -/
def State.engTurn (s : State) (b : Block) (w : Warp) (ready : Block → Warp → Bool) : Bool :=
  let t := (s.core b.core).engTurn
  let dist (v : Warp) : Nat := (v.slice + 8 - t % 8) % 8
  !(s.onCore b.core).any fun y => !s.replaying y.key && y.warps.any fun v =>
    decide (dist v < dist w) && ((ready y v && v.flight.any (·.cls == .eng)) || s.engNext y v)

/-- The clause in flight could go on; a pending warp issues nothing (R79). A re-execution goes as its log tells, until it stands at its stop. -/
def State.wordReady (s : State) (b : Block) (w : Warp) : Bool :=
  let x := s.ctx b.ctx
  b.resident && w.flight.isSome && x.en && !x.failed && if s.replaying b.key then !s.halted b else w.active && decide (w.held = [])

/-- The clause in flight goes on. -/
def State.mayWord (s : State) (b : Block) (w : Warp) : Bool :=
  s.wordReady b w && (s.replaying b.key || !(w.flight.any (·.cls == .eng)) || s.engTurn b w s.wordReady)

/-! ## Raised warps (R86) -/

/-- A boost raises the warp: it records that ring, on a core that the ring's consumer masks name. -/
def State.raised (s : State) (b : Block) (w : Warp) : Bool :=
  match w.ring with
  | none => false
  | some (home, off) => (s.block? home).any fun h => h.boosts.contains off
      && (List.range (nbits (h.ringWord s.tick off 0) 3 0 + 1)).any fun k => decide (h.slotWord s.tick off k / 2 ^ b.lslot % 2 = 1)

/-! ## Swaps (R79, R80) -/

/-- Warps of a slice of a core: block, index, warp. -/
def State.sliceWarps (s : State) (core slice : Nat) : List (Block × Nat × Warp) :=
  (s.held core).flatMap fun b => (mapFrom 0 (fun i w => (b, i, w)) b.warps).filter fun e => e.2.2.slice == slice && e.2.2.isLive

/-- The one of a list with the least value. -/
def leastBy {α : Type} (f : α → Nat) (l : List α) : Option α :=
  l.foldl (fun (a : Option α) x => match a with
    | some y => if f x < f y then some x else some y
    | none => some x) none

def State.pendingReady (s : State) (core slice : Nat) : List (Block × Nat × Warp) :=
  (s.sliceWarps core slice).filter fun e => !e.2.2.active && s.warpReady e.1 e.2.2

/-- The ready pending warp that enters next: a raised one, which waits for a place as any other (R86, log 96), else the one pending longest. -/
def State.entrant (s : State) (core slice : Nat) : Option (Block × Nat × Warp) :=
  let ps := s.pendingReady core slice
  match leastBy (fun e => e.2.2.enter) (ps.filter fun e => s.raised e.1 e.2.2) with
  | some e => some e
  | none => leastBy (fun e => e.2.2.enter) ps

/-- The warp waits on a long-latency wait (R79). -/
def State.longWait (s : State) (b : Block) (w : Warp) : Bool :=
  w.flight.isNone && w.groups.isEmpty && (w.lanes.any fun x => x.isReal && (match x.st with | .waiting t => t.long | _ => false))
    || (decide (b.sbsw ≤ w.sbClk) && s.sbHeld b w)

def State.enterSet (s : State) (b : Block) (wi : Nat) (on : Bool) : State :=
  s.modWarp b.key wi fun w => { w with active := on, enter := s.tick, age := s.tick, readyClk := 0 }

/-- A pending warp enters, in the place of an active one where there is one to leave. -/
def State.swapIn (s : State) (core slice : Nat) (out : Option (Block × Nat × Warp)) : State :=
  match s.entrant core slice with
  | none => s
  | some e =>
    let s := match out with
      | some o => s.enterSet o.1 o.2.1 false
      | none => s
    s.enterSet e.1 e.2.1 true

def State.actives (s : State) (core slice : Nat) : List (Block × Nat × Warp) := (s.sliceWarps core slice).filter fun e => e.2.2.active

/-- WARP_SWAP (R79, R86): a ready pending warp takes a free place of the active set, or that of an active warp in a long-latency
wait: the one that entered longest ago (log 95). -/
def execWarpSwap (core slice : Nat) (s : State) : Host.Outcome State Fault Refusal :=
  let act := s.actives core slice
  .next <|
    if act.length < 8 then s.swapIn core slice none
    else match leastBy (fun e => e.2.2.enter) (act.filter fun e => s.longWait e.1 e.2.2) with
      | some o => s.swapIn core slice (some o)
      | none => s

/-- PENDING_STARVATION_SWAP (R80): a warp that has stayed ready and pending for PSTARV × 64 cycles takes the place of the active
warp that entered longest ago. -/
def execPendingStarvationSwap (core slice : Nat) (s : State) : Host.Outcome State Fault Refusal :=
  let due := (s.pendingReady core slice).filter fun e => decide (64 * e.1.pstarv ≤ e.2.2.readyClk)
  .next <| match leastBy (fun e => e.2.2.enter) due with
  | none => s
  | some e =>
    let s := match leastBy (fun e => e.2.2.enter) (s.actives core slice) with
      | some o => if (s.actives core slice).length < 8 then s else s.enterSet o.1 o.2.1 false
      | none => s
    s.enterSet e.1 e.2.1 true

/-! ## Time (R87, R89, R320, R379, R380) -/

/-- The warp holds threads that a debugger stop or a halt keeps from running (R380), be it shown in its past. -/
def State.stoppedWarp (s : State) (b : Block) (wi : Nat) : Bool :=
  s.halted b || s.replaying b.key || s.stoppedBy b wi

/-- The wait lacks an arrival of a thread that the debugger has stopped (R380); the forming of a gang counts as a rendezvous (log 110). -/
def State.waitsOnHalted (s : State) (b : Block) (wi : Nat) (wt : Wait) : Bool :=
  match wt with
  | .bwait _ => s.stoppedWarp b wi
  | .bwaitTimed _ _ _ => s.stoppedWarp b wi
  | .bar i => (List.range b.warps.length).any fun j => s.stoppedWarp b j && !(b.warp j).arrived ((tgetD b.bars i {}).arr.getD j 0)
  | .cbar i => (s.clusterOf b).any fun y => (List.range y.warps.length).any fun j =>
      s.stoppedWarp y j && !(y.warp j).arrived ((tgetD y.cbars i {}).arr.getD j 0)
  | .gang => match (s.gangLatch b wi).bind fun k => tget (s.core b.core).latches k with
    | some l => l.mask.list.any fun j => s.stoppedWarp b j && !l.arrivals.any fun a => a.warp == j
    | none => false
  | .forming m => m.list.any fun j => s.stoppedWarp b j && !((s.core b.core).latches.any fun l =>
      l.2.block == b.key && l.2.mask == m && !l.2.formed && l.2.joined.has j)
  | _ => false

/-- A lane after `n` cycles of `fs` femtoseconds in all. -/
def Lane.pass (x : Lane) (n fs : Nat) (resident counts : Bool) : Lane :=
  match x.st with
  | .waiting _ => { x with waitClk := if resident then x.waitClk + n else x.waitClk, waitWall := if counts then x.waitWall + fs else x.waitWall }
  | _ => x

/-- The cycles before `c` in which cores issue: the first `k` of each 16 (R336, log 3). -/
def issueCycles (k c : Nat) : Nat := c / 16 * k + min (c % 16) k

/-- A warp after `n` cycles, `on` of which were not gated (R336). -/
def State.passWarp (s : State) (b : Block) (wi : Nat) (w : Warp) (n fs on : Nat) : Warp :=
  let live := !(s.ctx b.ctx).pre && decide (b.mv ≠ .saved) && !s.replaying b.key
  let lanes := w.lanes.map fun x => x.pass n fs b.resident (live && (match x.st with | .waiting t => !s.waitsOnHalted b wi t | _ => true))
  { w with
    lanes := lanes,
    readyClk := if !w.active && b.resident then (if s.warpReady b w then w.readyClk + on else 0) else w.readyClk,
    sbClk := if !b.resident then w.sbClk else if s.sbHeld b w then w.sbClk + n else 0 }

/-- A block after `n` cycles: CLK runs only while it is resident; a launch entry does not age during a debugger stop;
a watchdog report stands for the threads that it names until each has left its wait (R379). -/
def State.passBlock (s : State) (n fs on : Nat) (b : Block) : Block :=
  let stop := (List.range b.warps.length).any (s.stoppedWarp b)
  let still (e : Nat × Mask) : Nat × Mask := (e.1, maskOf fun l => e.2.has l && decide (0 < ((b.warp e.1).lane l).waitWall))
  let b' := { b.mapWarps (fun i w => s.passWarp b i w n fs on) with wdogDone := (b.wdogDone.map still).filter fun e => !e.2.none }
  if b.resident then
    { b' with clk := b.clk + n, launchq := if stop then b.launchq else b.launchq.map fun e => { e with age := e.age + n } }
  else b'

/-- `n` cycles of the arithmetic clock pass (R89): WALL runs for the device. -/
def State.elapse (s : State) (n : Nat) : State :=
  let fs := n * (Config.cyclePart / s.wh.mhz)
  let on := issueCycles s.wh.gateK (s.cycle + n) - issueCycles s.wh.gateK s.cycle
  { s with cycle := s.cycle + n, wallU := s.wallU + fs, blocks := s.blocks.map (s.passBlock n fs on) }

end Sys2Proof.Machine
end

