-- ==== Sys2Proof/Machine/Traps.lean ====
section
/-! DEFINITION. The trap queue: records (R343 to R345), handler blocks (R346), rewrites of handles (R348), timers (R90) and watchdogs
(R379). -/

namespace Sys2Proof.Machine

/-! ## Records in memory (R344) -/

/-- The WHO word. -/
def Trap.who (t : Trap) (hgen : BitVec 8) : Nat :=
  hgen.toNat * 2 ^ 12 + t.widx % 16 * 2 ^ 20 + t.fnum % 8 * 2 ^ 24 + t.warp % 32 * 2 ^ 27 + t.lmask.toNat * 2 ^ 32

/-- The 512 bytes of a record. -/
def Rec.bytes (r : Rec) : List Byte :=
  let t := r.trap
  let eng := t.i4 % 65536 + t.ec % 8 * 2 ^ 21 + t.cop.toNat * 2 ^ 24 + t.chandle.toNat * 2 ^ 32
  leBytes 8 r.header ++ leBytes 4 t.fhandle.toNat ++ leBytes 4 t.blockId.toNat ++ leBytes 8 t.pc.toNat ++ leBytes 8 (t.who r.hgen)
    ++ leBytes 8 t.aux.toNat ++ leBytes 8 t.vec.toNat ++ leBytes 8 eng ++ leBytes 8 t.token
    ++ (lanes32.map fun l => BitVec.ofNat 8 (tgetD t.lcause l 0)) ++ leBytes 160 0
    ++ lanes32.flatMap fun l => leBytes 8 (tgetD t.lval l 0).toNat

/-- Failure reports and save faults enter the sediment log when their record is written (R384). -/
def trapEvent (cause : Nat) : Option Nat :=
  match cause with
  | 0x38 => some 0x40
  | 0x39 => some 0x41
  | 0x3A => some 0x42
  | 0x3B => some 0x43
  | 0x31 => some 0x44
  | 0x32 => some 0x44
  | _ => none

def Trap.src (t : Trap) : Nat := match t.cell with | some (d, _) => d | none => 0xFF

/-- The oldest pending trap becomes a record where the ring has room, and TAIL follows as a release at SYSTEM scope; a fault at the
ring leaves the trap pending (R345). -/
def State.writeRecord (s : State) (c : Nat) : State :=
  let x := s.ctx c
  match x.traps with
  | [] => s
  | t :: ts =>
    if x.ringFault || x.saved || x.kept || decide (x.ringLen ≤ (x.tail - x.head).toNat) then s
    else
      let r : Rec := { rid := x.tail, trap := t, handling := if t.nested then .none else .waiting, ord := s.nextKey }
      match s.devWrite c s.anyDie (x.recAddr x.tail) r.bytes with
      | (s, some _) =>
        ((s.modCtx c fun y => { y with ringFault := true }).signal x.fn.toNat 0).sediment (some c) 0xFF 0x45 (BitVec.ofNat 448 x.trapq.toNat)
      | (s, none) =>
        let s := (s.cleanHLines fun _ => true).modCtx c fun y => { y with traps := ts, tail := x.tail + 1, recs := y.recs ++ [r] }
        let s := if x.irq then s.signal x.fn.toNat 0 else s
        (match trapEvent t.cause with
        | some e => s.sediment (some c) t.src e (BitVec.ofNat 448 x.tail.toNat)
        | none => s).bump

/-- TRAP_RECORD_WRITE (R345). -/
def execTrapRecordWrite (c : Nat) (s : State) : Host.Outcome State Fault Refusal := .next (s.writeRecord c)

/-- TRAP_RECORD_RETIRE (R343): a write of an identifier to CTX_TRAPRET. -/
def execTrapRecordRetire (c : Nat) (rid : Word) (s : State) : Host.Outcome State Fault Refusal := .next ((s.retire c rid).wakeAll)

/-- CTX_TRAPCTL as it is held (R343). -/
def Ctx.setTrapctl (x : Ctx) (v : Nat) : Ctx :=
  { x with hen := decide (nbits v 31 31 = 1), irq := decide (nbits v 30 30 = 1), hmax := BitVec.ofNat 4 (nbits v 23 20),
           hspad := BitVec.ofNat 8 (nbits v 15 8) }

/-- TRAPQ_WRITE (R343, R345): a write of CTX_TRAPQ or CTX_TRAPCTL; a record write that failed is tried again. -/
def execTrapqWrite (c : Nat) (ctl : Bool) (v : DWord) (s : State) : Host.Outcome State Fault Refusal :=
  .next <| s.modCtx c fun x =>
    let x := if ctl then x.setTrapctl v.toNat else { x with trapq := v &&& 0xFFFFFFFFFFFF000F }
    { x with ringFault := false }

/-! ## Handler blocks (R346, R347) -/

def Ctx.hlimit (x : Ctx) : Nat := if x.hmax = 0 then 1 else min x.hmax.toNat 8

/-- The first record in RID order whose handler has not started. -/
def Ctx.nextRec (x : Ctx) : Option Rec := x.recs.find? fun r => decide (r.handling = .waiting)

/-- The cell for a record's handler: that of its block as it stands now. -/
def State.handlerCell (s : State) (t : Trap) : Option (Nat × Nat) :=
  match t.block.bind s.block? with
  | some b => some (b.die, b.cell)
  | none => t.cell

/-- The grid of a handler block that is to start or runs: one whose threads have all exited has ended, be its commands done or not (R346, R347). -/
def State.handling (s : State) (c : Nat) (g : Grid) : Bool :=
  g.ctx == c && g.handler.isSome && (match s.blocks.find? fun b => b.grid == g.key with
    | some b => b.warps.any Warp.isLive
    | none => true)

/-- HANDLER_BLOCK_START (R346): the next record gets its grid of one block of 32 threads. -/
def execHandlerBlockStart (c : Nat) (s : State) : Host.Outcome State Fault Refusal :=
  .next <|
    let x := s.ctx c
    match x.nextRec with
    | none => s
    | some r =>
      if !x.hen || !x.runs || decide (x.hlimit ≤ (s.grids.filter (s.handling c)).length) then s
      else
        let rec0 : LaunchRec :=
          { code := x.hcode, param := BitVec.ofNat 64 (x.recAddr r.rid), done := 0, nblk := 1, nthr := 32, clus := 0, spad := x.hspad.toNat,
            nacc := 0, tlrv := false, tlri := 0, ecscope := List.replicate 8 1 }
        let g : Grid := { key := s.nextKey, ctx := c, lrec := rec0, turn := 0, host := false, chain := true, prio := 7,
                          handler := some r.rid.toNat, atCell := s.handlerCell r.trap, ord := r.ord }
        let s := s.modCtx c fun y => { y with recs := modWhere (fun z => z.rid == r.rid) (fun z => { z with handling := .running }) y.recs }
        { s.bump with grids := s.grids ++ [g] }

/-! ## Handles that follow a block (R348) -/

/-- The trap names a fragment of the block. -/
def Trap.isOf (t : Trap) (bk : Nat) : Bool := t.block == some bk && decide (t.fnum ≠ 0)

/-- The handle of a fragment of the block on its core. -/
def State.handleNow (s : State) (b : Block) (t : Trap) : Option Word :=
  ((s.core b.core).frag? b.key t.warp t.fnum).map fun e => handleOf b.lslot e.1

/-- The new handle of a record, with its HGEN, written to the ring and kept. -/
def State.rewriteRec (s : State) (c : Nat) (r : Rec) (h : Word) : State :=
  let r' : Rec := { r with trap := { r.trap with fhandle := h }, hgen := r.hgen + 1 }
  let a := (s.ctx c).recAddr r.rid
  let s := (s.devWrite c s.anyDie (a + 8) (leBytes 4 h.toNat)).1
  let s := (s.devWrite c s.anyDie (a + 0x18) (leBytes 4 (r'.trap.who r'.hgen))).1
  s.modCtx c fun y => { y with recs := modWhere (fun z => z.rid == r.rid) (fun _ => r') y.recs }

/-- Every record and pending trap that names a fragment of the block gets the handle that `h` gives, if any. -/
def State.rewriteHandles (s : State) (b : Block) (h : Trap → Option Word) : State :=
  let s := (s.ctx b.ctx).recs.foldl (fun s r => if r.trap.isOf b.key then
      (match h r.trap with | some v => s.rewriteRec b.ctx r v | none => s) else s) s
  let f (t : Trap) : Trap := if t.isOf b.key then { t with fhandle := (h t).getD t.fhandle } else t
  s.modCtx b.ctx fun y => { y with traps := y.traps.map f }

/-! ## Timers and watchdogs (R90, R379) -/

/-- WALL has reached DL: one timer trap, and DL is 0 (R90). A context that is switched out takes it when it comes back. -/
def State.takeDeadline (s : State) (c : Nat) : State :=
  let x := s.ctx c
  if x.deadline = 0 ∨ s.wall < x.deadline.toNat ∨ x.saved then s
  else (s.modCtx c fun y => { y with deadline := 0 }).pend c { id := 0, cause := 0x30, kind := 3 }

/-- DEADLINE_EXPIRY (R90). -/
def execDeadlineExpiry (c : Nat) (s : State) : Host.Outcome State Fault Refusal := .next (s.takeDeadline c)

/-- A thread's wait has passed the limit. -/
def Lane.overdue (x : Lane) (limit : Nat) : Bool :=
  x.isReal && (match x.st with | .waiting t => decide (t.code ≠ 0 ∧ limit < x.waitWall) | _ => false)

/-- A report for the block stands: a thread that it names has not left its wait. -/
def Block.wdogOpen (b : Block) : Bool :=
  b.wdogDone.any fun e => e.2.list.any fun l => ((b.warp e.1).lane l).isWaiting && decide (0 < ((b.warp e.1).lane l).waitWall)

/-- WATCHDOG_EXPIRY (R379): one report for the block; the wait goes on. -/
def execWatchdogExpiry (b w : Nat) (s : State) : Host.Outcome State Fault Refusal :=
  .next <| match s.block? b with
  | none => s
  | some bl =>
    let x := s.ctx bl.ctx
    let limit := x.wdms.toNat * (10 ^ 6 * Config.wallUnit)
    let wp := bl.warp w
    if x.wdms = 0 ∨ bl.wdogOpen ∨ x.pre ∨ s.replaying b then s
    else match lanes32.find? fun l => (wp.lane l).overdue limit with
      | none => s
      | some l =>
        let x0 := wp.lane l
        let m := maskOf fun j => (wp.lane j).isReal && (wp.lane j).st == x0.st && (wp.lane j).pc == x0.pc && (wp.lane j).widx == x0.widx
        let s := s.modBlock b fun y => { y with wdogDone := [(w, m)] }
        s.pend bl.ctx
          { id := 0, cause := 0x39, kind := 3, fhandle := 0, code := (match x0.st with | .waiting t => t.code | _ => 0),
            aux := BitVec.ofNat 64 (bl.blockId.toNat * 2 ^ 32 + w % 32 * 2 ^ 27), pc := x0.pc, widx := x0.widx, lmask := m }

end Sys2Proof.Machine
end

