-- ==== Sys2Proof/Machine/Move.lean ====
section
/-! DEFINITION. Blocks that leave and regain a core: stow (R67 to R70, R87, R88, R251), pre-emption (R91 to R94, R328), the stow area
(R327), and what meets them (R161, R348, R353). -/

namespace Sys2Proof.Machine

/-! ## Save sets (R68, R92) -/

def State.liveEntry (s : State) (c : Nat) (pc : DWord) : Option LiveEntry := s.livetab.find? fun e => e.ctx == c && e.pc == pc

/-- The liveness entries of a warp whose threads all stand at word index 0 of clauses that have one: V mask and scratchpad ranges. -/
def State.liveUnion (s : State) (b : Block) (w : Warp) : Option (DWord × List (Nat × Nat)) :=
  let es := (w.lanes.filter fun x => x.isReal && !x.isExited).map fun x => if x.widx = 0 then s.liveEntry b.ctx x.pc else none
  if es.all Option.isSome then
    let es := (es.filterMap id).eraseDups
    some (es.foldl (fun m e => m ||| e.vmask) 0, es.flatMap (·.ranges))
  else none

/-- What is saved of a warp: the mask of V registers, and scratchpad ranges, none where the whole allocation is saved. LIVEM
registrations count for stow only. -/
def State.warpSave (s : State) (b : Block) (w : Warp) (pre : Bool) : DWord × Option (List (Nat × Nat)) :=
  if !w.isLive then (0, some [])
  else match s.liveUnion b w with
    | some (m, rs) => (m, some rs)
    | none => match w.live with
      | some l => if pre then (0xFFFFFFFFFFFFFFFF, none) else (l.vmask, some (if l.len = 0 then [] else [(l.off, l.len)]))
      | none => (0xFFFFFFFFFFFFFFFF, none)

/-- The scratchpad ranges saved of a block. -/
def State.saveRanges (s : State) (b : Block) (pre : Bool) : List (Nat × Nat) :=
  let rs := b.warps.map fun w => (s.warpSave b w pre).2
  if rs.all Option.isSome then
    (rs.flatMap fun r => r.getD []).map fun r => (r.1, min (r.1 + r.2) b.spSize - r.1)
  else [(0, b.spSize)]

/-- What a save set needs at most (R327). -/
def State.saveSize (s : State) (b : Block) (pre : Bool) : Nat :=
  4096 + ((b.warps.filter Warp.isLive).map fun w => 1024 + 128 * ((List.range 64).filter (s.warpSave b w pre).1.getLsbD).length).sum
    + ((s.saveRanges b pre).map fun r => (r.2 + 1023) / 1024 * 1024).sum + 16384 * b.tiles.length
    + 128 * (b.ecs.map fun e => e.cmds.length).sum

/-! ## Stow shares (R327) -/

def Ctx.shareLen (x : Ctx) : Nat := max x.stowsh.toNat 1 * 65536

def Ctx.shareAddr (x : Ctx) (i : Nat) : Nat := (x.stowb.toNat / 65536 * 65536 + i * x.shareLen) % 2 ^ 64

/-- The lowest free share of a context, beside those in `taken`. -/
def State.freeShare (s : State) (c : Nat) (taken : List Nat) : Option Nat :=
  let x := s.ctx c
  firstIdx (x.stowsz.toNat * 65536 / x.shareLen) fun i =>
    !taken.contains i && !s.blocks.any fun b => b.ctx == c && b.share == some i

/-- The pages that a save set of `size` bytes takes in share `i`. -/
def Ctx.sharePages (x : Ctx) (i size : Nat) : List Nat := (List.range ((size + 65535) / 65536)).map fun k => (x.shareAddr i + k * 65536) % 2 ^ 64

/-- The device may write those pages. -/
def State.sharesOk (s : State) (c : Nat) : List Nat → State × Bool
  | [] => (s, true)
  | va :: vas => match s.devPage c va .write with
    | (s, .ok _) => s.sharesOk c vas
    | (s, .error _) => (s, false)

/-- Another agent has written into the share `i` since it was taken, anywhere in it, or a page that the image of `size` bytes takes is no longer
what it was. -/
def State.shareTouched (s : State) (c i size : Nat) : Bool :=
  let x := s.ctx c
  let written (va : Nat) : Option Bool := match (s.devPage c va .write).2 with
    | .ok t => (tget s.tlrUndef (t.key / 65536)).map fun u => !u.written.isEmpty
    | .error _ => none
  (x.sharePages i size).any (fun va => (written va).getD true) || (x.sharePages i x.shareLen).any fun va => (written va).getD false

/-- A share is taken: what its pages read as is undefined until they are written again (R327). -/
def State.takeShare (s : State) (c i : Nat) : State := s.markShare c ((s.ctx c).sharePages i (s.ctx c).shareLen)

/-! ## Leaving a core -/

/-- A warp with only what was saved: other V registers hold undefined values after the restore. -/
def Warp.keep (w : Warp) (m : DWord) : Warp :=
  { w with lanes := w.lanes.map fun x => { x with v := x.v.filter fun e => m.getLsbD e.1, vPois := x.vPois.filter m.getLsbD } }

/-- The block leaves its core: its fragments and latches go with it, and what was not saved is undefined. -/
def State.vacate (s : State) (bk : Nat) (mv : Movement) (pre : Bool) : State :=
  match s.block? bk with
  | none => s
  | some b =>
    let rs := s.saveRanges b pre
    let k := s.core b.core
    let b' : Block :=
      { b.mapWarps (fun _ w => w.keep (s.warpSave b w pre).1) with
        mv := mv, image := rs, imgBytes := s.saveSize b pre, spad := b.spad.filter fun e => inRanges rs e.1, spadPois := b.spadPois.filter fun i => inRanges rs (4 * i),
        frags := k.frags.filter fun e => e.2.block == bk, latches := k.latches.filter fun e => e.2.block == bk }
    (s.modBlock bk fun _ => b').modCore b.core fun k =>
      { k with frags := k.frags.filter fun e => e.2.block != bk, latches := k.latches.filter fun e => e.2.block != bk }

/-! ## Stow (R67, R70, R87) -/

/-- A thread's wait has passed the stow threshold (R87, R251). -/
def Block.passed (b : Block) (x : Lane) : Bool := b.hint || decide (b.stowt * 4096 < x.waitClk)

def Block.stowWaits (b : Block) : List Lane :=
  b.warps.flatMap fun w => w.lanes.filter fun x => x.isReal && (match x.st with | .waiting t => t.stowable | _ => false)

/-- Every stowable wait of the block has passed the threshold, and there is one. -/
def Block.allPassed (b : Block) : Bool := !b.stowWaits.isEmpty && b.stowWaits.all b.passed

/-- STOW_THRESHOLD_EXPIRY (R87, R251): the last of a block's stowable waits passes the threshold. -/
def execStowThresholdExpiry (b : Nat) (s : State) : Host.Outcome State Fault Refusal :=
  .next <| match s.block? b with
  | none => s
  | some bl => if bl.resident && decide (bl.stowt ≠ 0) && bl.allPassed then s.modBlock b fun y => { y with due := true } else s

/-- The warp keeps its block from no stow: it is not held (R342), and no thread of it can run or is in a rendezvous, whose forming counts as
one (log 110). -/
def Warp.quiet (w : Warp) : Bool :=
  w.flight.isNone && decide (w.held = []) && w.lanes.all fun x => !x.isReal || x.isExited || x.isParked || (match x.st with
    | .waiting .gang => false
    | .waiting (.forming _) => false
    | .waiting _ => true
    | _ => false)

/-- The block is stowable (R67), and its context stows (R87, R353). A launch batch that may be taken goes first (R320). None is while the debugger
shows it in its past. -/
def State.stowable (s : State) (b : Block) : Bool :=
  b.resident && b.replay.isNone && b.due && decide (b.stowt ≠ 0) && b.allPassed && b.warps.all Warp.quiet
    && b.ecs.all (fun e => e.cmds.all fun c => c.finished || !s.writesOwn b c)
    && (s.ctx b.ctx).runs && decide ((s.ctx b.ctx).stowOff = []) && (b.launchq.isEmpty || s.countsRunnable b) && !s.replaying b.key

/-- Shares for the blocks, each the lowest free one; none where one does not fit or finds none. -/
def State.claim (s : State) (pre : Bool) : List Block → List Nat → Option (List (Block × Nat))
  | [], _ => some []
  | b :: bs, taken =>
    if (s.ctx b.ctx).shareLen < s.saveSize b pre then none
    else match s.freeShare b.ctx taken with
      | none => none
      | some i => (s.claim pre bs (i :: taken)).map fun r => (b, i) :: r

/-- Before blocks leave their cores, the recording intervals that are at their end give way to the next ones (R316). -/
def State.endIntervals (s : State) (bs : List Block) : State := bs.foldl (fun s b => s.nextInterval b) s

/-- Everything that a block has issued, and every store that it has seen, is performed (R161); what its die's L2 holds of host and peer memory
is written back, since a later release of the block may be on another die (R163). -/
def State.settleAway (s : State) (bk : Nat) : State :=
  match s.block? bk with
  | none => s
  | some b => (forN b.warps.length (fun i s => (s.drainSeen bk i).drainAll bk i) (s.blockSettle bk)).cleanHLines fun h => h.die == b.die

/-- The block begins STOWING in share `i`: its handles name nothing any more (R348), and the share is in use (R327). -/
def State.beginStow (s : State) (b : Block) (i : Nat) : State :=
  ((s.takeShare b.ctx i).modBlock b.key fun y => { y with mv := .stowing, share := some i, woke := false }).rewriteHandles b fun _ => some 0xFFFFFFFF

/-- STOW_BEGIN (R67, R87): the block, with its cluster, begins STOWING, and with them a ring's home whose threads have exited (log 122). -/
def execStowBegin (b : Nat) (s : State) : Host.Outcome State Fault Refusal :=
  .next <| match s.block? b with
  | none => s
  | some bl =>
    let all := s.clusterOf bl
    if !s.stowable bl || !(all.all fun y => s.stowable y || (y.resident && s.lingers y && !s.replaying y.key)) then s
    else match s.claim false all [] with
      | none => s.endIntervals all
      | some cs => cs.foldl (fun s e => s.beginStow e.1 e.2) (s.endIntervals all)

/-- Fragments that a detach released while the block was away, at a place set by FRGSET.PC, are checked as they resume (R244, R317). -/
def State.resumeSet (s : State) (b : Block) : State :=
  ((s.core b.core).frags.filter fun e => e.2.block == b.key && e.2.state == 2 && e.2.setPc).foldl (fun s e => s.resume b.core e.1 e.2) s

/-- A stow that met a fault: the blocks are resident again, with what a detach has let go meanwhile (R317), and no block of the context stows until the record is retired. Under a GO with
FORCE the context stays stopped (R383). -/
def State.abandonStow (s : State) (c : Nat) (bs : List Block) : State :=
  let s := bs.foldl (fun s b =>
    (s.modBlock b.key fun y => { y with mv := .resident, share := none, due := false, woke := false }).rewriteHandles b fun t => s.handleNow b t) s
  let s := bs.foldl (fun s b => (s.resumeSet b).settle b.key) s
  let id := s.nextKey
  ((s.modCtx c fun x => { x with stowOff := x.stowOff ++ [id], preFault := x.preFault || (x.pre && s.wh.partForce) }).pend c
    { id := 0, cause := 0x31, kind := 3 }).wakeAll

/-- STOW_COMPLETE (R70, R161): the release counters are zero and every write is done; the blocks hold no core resources. -/
def execStowComplete (b : Nat) (s : State) : Host.Outcome State Fault Refusal :=
  .next <| match s.block? b with
  | none => s
  | some bl =>
    let all := s.clusterOf bl
    if !(all.all fun y => y.mv == .stowing) then s
    else
      let s := all.foldl (fun s y => s.settleAway y.key) s
      let pages (y : Block) : List Nat := (s.ctx y.ctx).sharePages (y.share.getD 0) (s.saveSize y false)
      let (s, ok) := s.sharesOk bl.ctx (all.flatMap pages)
      if !ok then s.abandonStow bl.ctx all
      else all.foldl (fun s y => (s.markNew y.ctx (pages y)).vacate y.key .stowed false) s

/-! ## Coming back (R69, R73, R94) -/

/-- Where a block returns to: core, logical slot, base in bytes, warp slots. -/
structure Spot where
  core : Nat
  lslot : Nat
  base : Nat
  slots : List (Nat × Nat)
deriving DecidableEq, Repr

/-- A core can take the block's fragment-table entries and latches (R73, R91). -/
def State.alsoRoom (s : State) (b : Block) (core : Nat) : Bool :=
  decide (b.frags.length ≤ (s.freeEntries core).length) && b.latches.all fun e => s.latchFree core e.1

/-- The logical slot of a physical core as the place table stands. -/
def State.slotOf (s : State) (core old : Nat) : Nat := ((s.cellCores (core / 8)).find? fun e => e.2 == core).elim old (·.1)

/-- The very spot that the block was saved on is free. -/
def State.oldSpot (s : State) (b : Block) : Option Spot :=
  let hs := s.held b.core
  let mine := b.warps.map fun w => (w.slice, w.slot)
  if mine.all (fun p => (freeSlots hs p.1).contains p.2) && baseFits hs (b.spSize / 1024) (b.spBase / 1024)
      && (freeTiles hs b.tiles.length s.tick).isSome && s.alsoRoom b b.core
  then some { core := b.core, lslot := s.slotOf b.core b.lslot, base := b.spBase, slots := mine } else none

/-- A spot for a block of a stowed cluster: the same logical slot and base (R94). -/
def State.sameSlot (s : State) (b : Block) : Option Spot :=
  let core := b.cell * 8 + (s.place b.cell).pos b.lslot
  let hs := s.held core
  if baseFits hs (b.spSize / 1024) (b.spBase / 1024) && (freeTiles hs b.tiles.length s.tick).isSome && s.alsoRoom b core then
    (warpSlots hs b.warps.length s.tick).map fun ws => { core := core, lslot := b.lslot, base := b.spBase, slots := ws }
  else none

/-- Spots for blocks of one shape on distinct cores of a cell. -/
def State.anySpots (s : State) (bs : List Block) (cell : Nat) : Option (List (Block × Spot)) :=
  match bs with
  | [] => some []
  | b :: _ =>
    (s.findCores cell bs.length b.warps.length (b.spSize / 1024) b.tiles.length fun k => bs.all fun y => s.alsoRoom y k).map fun r =>
      (bs.zip r.1).map fun e =>
        (e.1, { core := e.2.2, lslot := e.2.1, base := 1024 * r.2,
                slots := (warpSlots (s.held e.2.2) e.1.warps.length s.tick).getD [] })

/-- A saved handler block whose target has been placed in the cell goes there next (R348). -/
def State.handlerNext (s : State) (h : Block) (cell : Nat) : Bool :=
  h.mv == .saved && s.wantsBack h && (s.handlerTarget h).any fun t => t.holdsCore && t.cell == cell

/-- The block's turn to be restored has come (R348): the target of a handler goes before it, and the handler of a block that has been placed
before any other block of that cell. -/
def State.inTurn (s : State) (b : Block) : Bool :=
  match s.handlerTarget b with
  | some t => t.mv != .saved
  | none => !s.blocks.any fun h => (s.handlerTarget h).any fun t => s.handlerNext h t.cell && s.wantsCell b t.cell

/-- The spots of a restore (R94): the block alone, or with its cluster. -/
def State.spots (s : State) (b : Block) : Option (List (Block × Spot)) :=
  let mine := (s.partCells (s.ctx b.ctx).part.toNat).contains b.cell
  let all := (s.clusterOf b).filter fun y => y.mv == .stowed || y.mv == .saved
  if !mine then (s.newCells b).findSome? fun c => s.anySpots all c
  else if b.mv = .saved then (s.oldSpot b).map fun p => [(b, p)]
  else if b.cluster.isNone then s.anySpots [b] b.cell
  else
    let ps := all.map s.sameSlot
    if ps.all Option.isSome then some (all.zip (ps.filterMap id)) else none

/-- The block takes its spot; its fragments take new entries, its latches their own numbers; the move count follows (R94). -/
def State.bring (s : State) (b : Block) (p : Spot) : State :=
  let hs := s.held p.core
  let moved := decide (p.core ≠ b.core ∨ p.base ≠ b.spBase ∨ p.slots ≠ b.warps.map fun w => (w.slice, w.slot))
  let act := activeFlags hs [] p.slots
  let b' : Block :=
    { b.mapWarps (fun i w => { w with slice := (p.slots.getD i (0, 0)).1, slot := (p.slots.getD i (0, 0)).2, active := act.getD i false,
                                      enter := s.tick, age := s.tick, readyClk := if act.getD i false then 0 else w.readyClk }) with
      mv := .restoring, core := p.core, lslot := p.lslot, spBase := p.base, bslot := freeBslot hs s.tick,
      tiles := (freeTiles hs b.tiles.length s.tick).getD [], moves := if moved then b.moves + 1 else b.moves, frags := [], latches := [] }
  let s := (s.modBlock b.key fun _ => b').wakeDie (p.core / 48)
  s.modCore p.core fun k =>
    { k with frags := (b.frags.zip (s.freeEntries p.core)).foldl (fun fs e => tset fs e.2 e.1.2) k.frags,
             latches := b.latches.foldl (fun ls e => tset ls e.1 e.2) k.latches }

/-- RESTORE_BEGIN (R69, R94): a stowed or saved block that is to come back begins RESTORING once its room is free. -/
def execRestoreBegin (b : Nat) (s : State) : Host.Outcome State Fault Refusal :=
  .next <| match s.block? b with
  | none => s
  | some bl =>
    if !s.wantsBack bl || !s.inTurn bl then s
    else match s.spots bl with
      | none => s
      | some ps => ps.foldl (fun s e => s.bring e.1 e.2) s

/-- A free number of 64 bits. -/
def freeDWord (tick place : Nat) : DWord := (Config.freeWord tick (2 * place)).setWidth 64 ||| ((Config.freeWord tick (2 * place + 1)).setWidth 64 <<< 32)

/-- A free place of a thread. -/
def freePlace (tick place : Nat) : DWord × Nat := (freeDWord tick place, (Config.freeWord tick (place + 2 ^ 40)).toNat % 15)

/-- What a lane saved is undefined (R327). -/
def Lane.spoil (x : Lane) (tick place : Nat) : Lane :=
  let at_ := freePlace tick place
  { x with v := [], p := [], vPois := [], pc := at_.1, widx := at_.2, resume := freePlace tick (place + 1), fp := Config.freeWord tick (place + 2 ^ 41),
           fl := (Config.freeWord tick (place + 2 ^ 42)).setWidth 5 }

/-- What an outstanding load would deliver, and where, is undefined, and the scoreboard that counts it. -/
def PLoad.spoil (ld : PLoad) (tick place : Nat) : PLoad :=
  let f (k : Nat) : Nat := (Config.freeWord tick (place + 2 ^ 44 + 16 * ld.key + k)).toNat
  let bytes (p : Nat) (v : Nat × List Byte) : Nat × List Byte := (v.1, mapFrom 0 (fun i _ => Config.freeByte tick (place + 2 ^ 44 + 64 * ld.key + 4096 * p + i)) v.2)
  { ld with sb := if ld.sb = 7 then 7 else f 0 % 6, dat := f 1 % 64, vals := ld.vals.map (mapFrom 0 bytes) }

/-- What a warp saved is undefined: registers, scoreboards, barrier registers, GANG, and the places of its threads. -/
def Warp.spoil (w : Warp) (tick place : Nat) : Warp :=
  let f (k : Nat) : Word := Config.freeWord tick (place + 2 ^ 43 + k)
  { w with
    s := [], sPois := [], lanes := mapFrom 0 (fun l x => x.spoil tick (place + 64 * l)) w.lanes,
    loads := w.loads.map fun ld => ld.spoil tick place,
    bars := (List.range 16).map fun n => (n, { mask := f (2 * n), arr := f (2 * n + 1) }),
    gang := { members := f 32, valid := (f 33).getLsbD 0, latch := (f 34).toNat % 4, seq := (f 35).setWidth 8, rank := (f 36).toNat % 32 } }

/-- What a block or cluster barrier saved is undefined. -/
def BBar.spoil (warps tick place : Nat) : BBar :=
  { arr := (List.range warps).map fun i => Config.freeWord tick (place + i), gen := Config.freeWord tick (place + 32) }

/-- An undefined launch record, of those that R279 lets into the queue. -/
def freeLaunch (tick place : Nat) : LaunchRec :=
  let f (k : Nat) : Nat := (Config.freeWord tick (place + k)).toNat
  let clus := f 6 % 7
  { code := freeDWord tick (place + 2 ^ 45), param := freeDWord tick (place + 2 ^ 45 + 1), done := freeDWord tick (place + 2 ^ 45 + 2) <<< 3,
    nblk := (f 7 + 1) * (clus + 1), nthr := f 8 % 1024 + 1, clus := clus, spad := f 9 % 1025, nacc := f 10 % 17, tlrv := (f 11).testBit 0,
    tlri := f 12 % 256, ecscope := (List.range 8).map fun k => f (13 + k) % 5 + 1 }

/-- What the snapshot of a command in flight holds is undefined. -/
def CmdKind.spoil (x : CmdKind) (tick place : Nat) : CmdKind :=
  let f (k : Nat) : Word := Config.freeWord tick (place + k)
  let d (k : Nat) : DWord := freeDWord tick (place + 2 ^ 45 + k)
  let desc : Desc := BitVec.ofNat 512 (leNat ((List.range 64).map fun i => Config.freeByte tick (place + i)))
  match x with
  | .copy op _ _ home _ _ _ _ cons => .copy op desc (f 0) home (f 1).toNat ((f 2).toNat % 16) (f 3).toNat (f 4).toNat cons
  | .mma _ _ _ _ sc => .mma ((f 0).setWidth 13) (d 0) (d 1) (f 1) (sc.map fun _ => none)
  | .mmab _ _ _ _ => .mmab ((f 0).setWidth 13) (d 0) (d 1) (f 1)
  | .mmv _ _ _ _ _ => .mmv ((f 0).setWidth 13) ((f 2).toNat % 16) (d 1) (f 1) ((f 3).toNat % 16)
  | .drain _ _ _ => .drain desc ((f 0).toNat % 16) ((f 1).getLsbD 0)
  | .azero _ => .azero ((f 0).toNat % 16)
  | .iord _ _ _ _ _ => .iord ((f 0).getLsbD 0) (d 0) (d 1) (f 1).toNat (f 2)
  | .launch => .launch

/-- An engine context with its commands in flight and their tokens, all of it undefined. -/
def Eng.spoil (e : Eng) (tick place : Nat) : Eng :=
  let cmd (i : Nat) (c : Cmd) : Cmd :=
    { c with tok := (freeDWord tick (place + 2 ^ 46 + i)).toNat, iter := (Config.freeWord tick (place + 64 * i + 63)).toNat,
             kind := c.kind.spoil tick (place + 64 * i) }
  { level := (freeDWord tick (place + 2 ^ 47)).toNat, top := (freeDWord tick (place + 2 ^ 47 + 1)).toNat,
    scope := (Config.freeWord tick (place + 2 ^ 48)).toNat % 5 + 1, cmds := mapFrom 0 cmd e.cmds }

/-- A block whose image another agent has overwritten: everything that R68 saves of it is undefined (R327). Which of its threads have
exited, are parked or wait, and how many commands and launch entries it has, the device keeps itself. -/
def Block.spoil (b : Block) (tick : Nat) : Block :=
  let at_ (k : Nat) : Nat := 2 ^ 49 + placeKey b.key 0 0 0 * 64 + 2 ^ 16 * k
  { b.mapWarps (fun i w => w.spoil tick (placeKey b.key i 0 0)) with
    spad := [], spadPois := [], acc := [], accPois := [],
    bars := (List.range 16).map fun n => (n, BBar.spoil b.warps.length tick (at_ 0 + 64 * n)),
    cbars := (List.range 8).map fun n => (n, BBar.spoil b.warps.length tick (at_ 1 + 64 * n)),
    launchq := mapFrom 0 (fun i e => { e with lrec := freeLaunch tick (at_ 2 + 64 * i), ec := (Config.freeWord tick (at_ 3 + i)).toNat % 8,
                                              tok := (freeDWord tick (at_ 4 + i)).toNat }) b.launchq,
    ecs := mapFrom 0 (fun i e => e.spoil tick (at_ (5 + i))) b.ecs }

/-- What a member's arrival holds is undefined, but for which warp it is. -/
def Arrival.spoil (a : Arrival) (tick place : Nat) : Arrival :=
  let f (k : Nat) : Word := Config.freeWord tick (place + k)
  let at_ := freePlace tick (place + 16)
  { a with op := (f 0).setWidth 6, x := { a.x with ecf := (f 1).setWidth 4, dimm := (f 2).setWidth 13 }, act := f 3, pc := at_.1, widx := at_.2,
           next := (f 4).toNat % 15, scales := a.scales.map fun _ => none }

/-- What a rendezvous latch saved is undefined: its members, who has joined, and what has arrived. -/
def Latch.spoil (l : Latch) (tick place : Nat) : Latch :=
  { l with mask := Config.freeWord tick place, joined := Config.freeWord tick (place + 1),
           arrivals := l.arrivals.map fun a => a.spoil tick (place + 2 ^ 50 + 64 * a.warp) }

/-- The places and causes in the fragment-table entries of such a block are undefined too, and its latches. -/
def State.spoilFrags (s : State) (b : Block) : State :=
  let frag (e : Nat × Frag) : Frag :=
    let place := placeKey b.key 32 e.1 0
    let at_ := freePlace s.tick place
    { e.2 with pc := at_.1, widx := at_.2, cause := (Config.freeWord s.tick (place + 2 ^ 51)).toNat % 256 }
  s.modCore b.core fun k =>
    { k with frags := k.frags.map fun e => if e.2.block = b.key then (e.1, frag e) else e,
             latches := k.latches.map fun e => if e.2.block = b.key then (e.1, e.2.spoil s.tick (2 ^ 52 + placeKey b.key 32 e.1 1)) else e }

/-- The traps that a pre-emption found pending are written once no block of the context is still to be restored (R353, log 93). -/
def State.endKept (s : State) (c : Nat) : State :=
  if !(s.ctx c).kept || s.blocks.any (fun b => b.ctx == c && (b.mv == .saved || b.mv == .restoring)) then s
  else iter (s.ctx c).traps.length (fun s => s.writeRecord c) (s.modCtx c fun x => { x with kept := false })

/-- RESTORE_COMPLETE (R70, R161, R137, R348): an acquire at DEVICE scope, the place table and scheduling fields of now, no stow hint, new
handles; then every wait is tested again. -/
def execRestoreComplete (b : Nat) (s : State) : Host.Outcome State Fault Refusal :=
  .next <| match s.block? b with
  | none => s
  | some bl =>
    if bl.mv ≠ .restoring then s
    else
      let bad := match bl.share with
        | some i => s.shareTouched bl.ctx i bl.imgBytes
        | none => false
      let s := if bad then s.spoilFrags bl else s
      let b0 := if bad then bl.spoil s.tick else bl
      let b' : Block := { b0 with mv := .resident, share := none, image := [], hint := false, due := false, race := [], woke := false,
                                  place := s.place bl.cell, dbg := (s.ctx bl.ctx).dbgLatch }
      let s := s.modBlock b fun _ => b'.sched (s.ctx bl.ctx)
      let s := s.endRecording b
      let s := (s.acquire b 4).rewriteHandles b' fun t => s.handleNow b' t
      ((((s.resumeSet b').settle b).atBoundary b).endKept bl.ctx).wakeAll

/-! ## Pre-emption (R91 to R93, R328) -/

/-- A clause of a class that stops at the instruction stops there; clauses of the lane classes go on to their end (R91), and so does the
clause of a fragment that is stepped (R316). -/
def Warp.stop (w : Warp) : Warp :=
  match w.flight with
  | none => w
  | some f =>
    if f.whole ∨ f.act.list.any (fun l => (w.lane l).step) then w
    else { w.modMask f.act (fun _ x => { x with pc := f.pc, widx := f.idx }) with flight := none }

/-- PRE is set: the context's blocks and engines stop at their units; on a failed context PRE is ignored (R376). No block is shown in its past
any more (log 37). -/
def State.preempt (s : State) (c : Nat) : State :=
  if (s.ctx c).failed then s
  else
    let s := (s.endReplays c).modCtx c fun x => { x with pre := true, preFault := false, clearPending := false }
    { s with blocks := s.blocks.map fun b => if b.ctx = c ∧ b.replay.isNone then b.mapWarps fun _ w => w.stop else b }

/-- PREEMPT_REQUEST (R328). -/
def execPreemptRequest (c : Nat) (s : State) : Host.Outcome State Fault Refusal := .next (s.preempt c)

/-- PRE and SAVED are cleared; a deadline that has passed and the traps kept pending are told of after the restore, before any warp issues
(R90, R353). -/
def State.clearPre (s : State) (c : Nat) : State :=
  let s := (s.modCtx c fun x => { x with pre := false, saved := false, preFault := false, clearPending := false }).takeDeadline c
  (s.modCtx c fun x => { x with kept := !x.traps.isEmpty }).endKept c

/-- PRE is cleared: the blocks come back; before SAVED the pre-emption completes first; after a save fault the blocks go on where
they stopped (R328, R353). -/
def State.unpreempt (s : State) (c : Nat) : State :=
  let x := s.ctx c
  if !x.pre then s
  else if x.saved || x.preFault then (s.clearPre c).wakeAll
  else s.modCtx c fun x => { x with clearPending := true }

/-- PREEMPT_CLEAR (R328, R353). -/
def execPreemptClear (c : Nat) (s : State) : Host.Outcome State Fault Refusal := .next (s.unpreempt c)

/-- A warp can be saved: its clause has ended, what R254 lets complete first has completed, and so has a step (R316). A held warp is saved
held (R353), with the load for whose poison it is held. -/
def Warp.savable (w : Warp) : Bool :=
  w.flight.isNone && w.hold.isEmpty && !(w.loads.any fun ld => ld.sb == 7 && !(decide (w.held ≠ []) && (ld.held || ld.pois.isSome)))
    && (decide (w.held ≠ []) || !w.groups.any (·.step))

/-- Every engine in use has stopped at its unit (R92): no I/O request that has been sent is unanswered (R91). -/
def State.collected (s : State) (c : Nat) : Bool :=
  s.blocks.all fun b => b.ctx != c || (b.replay.isNone && b.mv != .stowing && b.mv != .restoring
    && b.ecs.all (fun e => e.cmds.all fun x => x.finished || x.stopped.isSome || !x.sent)
    && (b.mv != .resident || b.warps.all Warp.savable))

/-- A save that failed: SAVED stays 0, the blocks stay on their cores, and the function is signalled (R353). -/
def State.saveFault (s : State) (c : Nat) : State :=
  ((s.modCtx c fun x => { x with preFault := true }).pend c { id := 0, cause := 0x32, kind := 3 }).signal (s.ctx c).fn.toNat 0

/-- Saves every resident block of a context, each in its share; none is saved where one cannot be. -/
def State.saveAll (s : State) (c : Nat) : State :=
  let mine (b : Block) : Bool := b.ctx == c && b.resident
  let s := (s.blocks.filter mine).foldl (fun s b => s.settleAway b.key) (s.endIntervals (s.blocks.filter mine))
  let bs := s.blocks.filter mine
  match s.claim true bs [] with
  | none => s.saveFault c
  | some cs =>
    let pages (e : Block × Nat) : List Nat := (s.ctx c).sharePages e.2 (s.saveSize e.1 true)
    let (s, ok) := s.sharesOk c (cs.flatMap pages)
    if !ok then s.saveFault c
    else
      let s := cs.foldl (fun s e =>
        ((s.takeShare c e.2).rewriteHandles e.1 fun _ => some 0xFFFFFFFF).modBlock e.1.key fun y => { y with share := some e.2 }) s
      (cs.foldl (fun s e => s.vacate e.1.key .saved true) s).modCtx c fun x => { x with saved := true }

/-- PREEMPT_COMPLETE (R92): once everything has stopped, the blocks are saved and SAVED is set. -/
def execPreemptComplete (c : Nat) (s : State) : Host.Outcome State Fault Refusal :=
  .next <|
    let x := s.ctx c
    if !x.pre || x.saved || x.preFault || x.failed || !s.collected c then s
    else
      let s := s.saveAll c
      if (s.ctx c).clearPending && ((s.ctx c).saved || (s.ctx c).preFault) then s.clearPre c else s

/-! ## Enabling a context (R327, R376) -/

/-- EN is set. -/
def State.enable (s : State) (c : Nat) : State := (s.modCtx c fun x => { x with en := true }).wakeAll

/-- CONTEXT_ENABLE (R327). -/
def execContextEnable (c : Nat) (s : State) : Host.Outcome State Fault Refusal := .next (s.enable c)

/-- Everything that a failed context holds is freed, on every die (R376). -/
def State.freeContext (s : State) (c : Nat) : State :=
  let s := (s.blocks.filter fun b => b.ctx == c).foldl (fun s b => s.dropBlock b) s
  let s := { s with grids := s.grids.filter fun g => g.ctx != c, robjs := s.robjs.filter fun o => o.ctx != c,
                    reseeds := s.reseeds.filter fun r => r.ctx != c }
  s.modCtx c fun x => { x with failed := false, pre := false, saved := false, preFault := false, clearPending := false, stowOff := [],
                               halted := [], kept := false }

/-- EN is cleared: the context runs no more; a failed one frees its resources. -/
def State.disable (s : State) (c : Nat) : State :=
  let s := s.modCtx c fun x => { x with en := false }
  if (s.ctx c).failed then s.freeContext c else s

/-- CONTEXT_DISABLE (R327, R376). -/
def execContextDisable (c : Nat) (s : State) : Host.Outcome State Fault Refusal := .next (s.disable c)

end Sys2Proof.Machine
end

