-- ==== Sys2Proof/Machine/Debug.lean ====
section
/-! DEFINITION. Recorded mode (R309 to R311) and the debugger's step, continue and detach (R307, R308, R317). -/

namespace Sys2Proof.Machine

/-! ## Intervals (R306, R309) -/

/-- RECORDED_MODE_ENABLE (R306, R309): REC is set; each block's first interval begins at its next clause boundary. -/
def execRecordedModeEnable (c : Nat) (s : State) : Host.Outcome State Fault Refusal := .next (s.modCtx c fun x => { x with recm := true })

/-- CHECKPOINT_INTERVAL_END (R309): after 2^20 instructions, or with a full share (log 69): the next interval begins over the share's
start. -/
def execCheckpointIntervalEnd (b : Nat) (s : State) : Host.Outcome State Fault Refusal :=
  .next <| match s.block? b with
  | some bl => s.nextInterval bl
  | none => s

/-! ## Reaching a stop (R311) -/

/-- No warp of the block has a clause in flight. -/
def Block.between (b : Block) : Bool := b.warps.all (·.flight.isNone)

/-- What the loads and atomics in progress have read is performed and logged, so that the re-execution receives the same. -/
def State.logLoads (s : State) (b : Block) : State :=
  let s := s.performAll b
  forN b.warps.length (fun i s => (s.warp b.key i).loads.foldl (fun s ld => match ld.form, ld.vals, ld.pois with
    | .lds, _, _ => s
    | .atoms _, _, _ => s
    | _, some vs, none => s.log b.key (.load i ld.cnt vs)
    | _, _, _ => s) s) s

/-- A checkpoint as its block starts from it: the log tells of the traps that hold its warps, of what its warps' next clauses wait for, of the
window stores that its clauses see, and of the loads that poison has met. -/
def Block.asPast (cp : Block) : Block :=
  let again (ld : PLoad) : PLoad := if ld.held || ld.pois.isSome then { ld with vals := none, pois := none, held := false } else ld
  cp.mapWarps fun _ w => { w with held := [], hold := [], wstores := [], loads := w.loads.map again }

/-- The block's present is kept, its checkpoint is reloaded, and it re-executes from its log towards the stop. -/
def State.startReach (s : State) (b : Block) (r : Recording) (w n : Nat) : State :=
  let t := s.logLoads b
  let es := ((t.recording? b.key).getD r).log
  let p := t.whole ((t.block? b.key).getD b)
  let cp := r.checkpoint.asPast
  let t := t.modRecording b.key fun y =>
    { y with log := r.log, replaying := some (w, n, es), mark := some (cp, es), goal := none, present := some p }
  { ((t.reload b true cp).setHalt b false) with cur := if s.curBlock = some b.key then none else s.cur }

/-- A halted block that is to reach a stop goes there once every warp stands at a clause boundary. -/
def State.reachGoal (s : State) (r : Recording) : State :=
  match r.goal, s.block? r.block with
  | some (w, n), some b => if b.resident && b.between then s.startReach b r w n else s
  | _, _ => s

def State.reachGoals (s : State) : State := s.recordings.foldl (fun s r => s.reachGoal r) s

/-- DEBUG_REACH_STOP (R311): the block halts at its clause boundaries, and from there goes to the stop. -/
def execDebugReachStop (b w n : Nat) (s : State) : Host.Outcome State Fault Refusal :=
  .next <| match s.block? b, s.recording? b with
  | some bl, some _ =>
    if !bl.resident || !(s.ctx bl.ctx).att then s
    else (((s.toPresent b).setHalt bl true).modRecording b fun y => { y with goal := some (w, n) }).reachGoals
  | _, _ => s

/-! ## Continue, detach, step (R308, R317) -/

/-- The block's halt ends once no fragment of it stands under the debugger. -/
def State.unhalt (s : State) (b : Block) : State :=
  if (s.core b.core).frags.any fun e => e.2.block == b.key && e.2.dbg && e.2.state == 1 then s
  else (s.setHalt b false).modRecording b.key fun r => { r with goal := none }

/-- The entry of a fragment that stands under the debugger. -/
def State.stopped? (s : State) (b : Block) (w f : Nat) : Option (Nat × Frag) :=
  (s.core b.core).frags.find? fun e => e.2.block == b.key && e.2.warp == w && e.2.fnum == f && e.2.dbg && e.2.state == 1

/-- DEBUG_CONTINUE (R308): the stopped fragment resumes as FRGRES does; a block that is shown in its past stands in its present first, and a
halt of it that no fragment keeps ends. -/
def execDebugContinue (b w f : Nat) (s : State) : Host.Outcome State Fault Refusal :=
  .next <| match (s.toPresent b).block? b with
  | none => s
  | some bl =>
    if !bl.resident || !(s.ctx bl.ctx).att then s
    else
      let s := s.toPresent b
      match s.stopped? bl w f with
      | none => s.unhalt bl
      | some (e, g) => ((s.resume bl.core e g).unhalt bl).wakeAll

/-- Clearing ATT: every stop under the debugger ends, and its fragments resume as FRGRES does, those too of a block that is away or on its way,
whose entries go with it; a block that is shown in its past stands in its present first. -/
def State.detach (s : State) (c : Nat) : State :=
  let s := (s.endReplays c).modCtx c fun x => { x with att := false, halted := [] }
  let free (w : Warp) : Warp := { w with lanes := w.lanes.map fun x => { x with step := false } }
  let s : State := { s with blocks := s.blocks.map fun b => if b.ctx = c then b.mapWarps (fun _ => free) else b }
  (s.blocks.filter fun b => b.ctx == c).foldl (fun s b =>
    let core := s.core b.core
    if b.resident then
      (core.frags.filter fun e => e.2.block == b.key && e.2.dbg && e.2.state == 1).foldl (fun s e => s.resume b.core e.1 e.2) s
    else
      let mine (i : Nat) (x : Lane) : Bool := x.isParked &&
        (b.frags ++ core.frags).any fun e => e.2.block == b.key && e.2.warp == i && e.2.fnum == x.frag && e.2.dbg && e.2.state == 1
      let go1 (i : Nat) (x : Lane) : Lane := if mine i x then { x with st := .runnable, stamp := none } else x
      let wake (i : Nat) (w : Warp) : Warp := { w with lanes := w.lanes.map (go1 i) }
      let go (e : Nat × Frag) : Nat × Frag :=
        if e.2.block == b.key && e.2.dbg && e.2.state == 1 then (e.1, { e.2 with state := 2, noSkip := false, fresh := true }) else e
      (s.modBlock b.key fun y => { y.mapWarps wake with frags := y.frags.map go }).modCore b.core fun k => { k with frags := k.frags.map go }) s

/-- DEBUG_DETACH (R317). -/
def execDebugDetach (c : Nat) (s : State) : Host.Outcome State Fault Refusal := .next ((s.detach c).wakeAll)

/-- A wait that has to begin, under a guard. -/
def State.waitGuard (s : State) (c : Cx) (g : Guard) (wt : Wait) : Option Guard := if s.wakeTest c.b wt then none else some g

/-- The guard of a CTL word at which the threads that it names would begin to wait as the machine stands; at an ENG word every thread of ACT
waits (log 50). -/
def State.stepWait (s : State) (c : Cx) (i : Instr) : Option Guard :=
  let tick := s.tick
  match i with
  | .bwait g _ => some g
  | .bwaitTimed g _ _ _ => some g
  | .bar g _ => some g
  | .cbar g _ => some g
  | .twait g ec n => s.waitGuard c g (.twait ec.toNat (c.opS64 tick n).toNat)
  | .twaitImm g ec v => s.waitGuard c g (.twait ec.toNat v.toNat)
  | .waitw x => s.waitGuard c x.g (.waitw (c.opS64 tick x.adr).toNat (c.waitVal tick x) x.cmp x.w64 false 0 false)
  | _ => none

/-- The guard of a word at which threads leave their fragment for one of their own: BRK and TRAP stop them, RREAD takes them to its method. -/
def stepParts (att : Bool) : Instr → Option Guard
  | .brk x => if att then some x.g else none
  | .trapI x => some x.g
  | .rread x => some x.g
  | _ => none

/-- The guard of a word at which threads exit. -/
def stepExits : Instr → Option Guard
  | .exitI g => some g
  | .tret x => some x.g
  | _ => none

/-- The threads for which an object's descriptor, as it reads now, fails the checks of a form (R288): those of the guard, or all of ACT. -/
def State.objFaults (s : State) (c : Cx) (x : EngArgs) (lane : Bool) (ok : ObjDesc → Bool) : Mask :=
  let desc := (c.opS64 s.tick x.o1).toNat
  if desc % 256 ≠ 0 then c.fl.act
  else match s.checkRange c.b.core c.b.ctx desc 768 .read with
    | (_, .error _) => if lane then c.guarded s.tick x.g else c.fl.act
    | (s, .ok (p, q)) =>
      let bs := (List.range 768).map fun i => s.cohByte (byteKey p q desc i)
      if objDescOk bs && ok (readObjDesc bs) then 0 else c.fl.act

def failed {α : Type} : Except Nat α → Bool
  | .error _ => true
  | .ok _ => false

/-- The threads that take a cause of their own at a word, by its addresses, its targets or its object as the machine stands. -/
def State.stepFaults (s : State) (c : Cx) (i : Instr) : Mask :=
  let tick := s.tick
  let of_ (g : Guard) (f : Nat → Bool) : Mask := maskOf fun l => (c.guarded tick g).has l && f l
  let glob (x : MemArgs) (need : Need) (align l1 : Bool) (l : Nat) := (s.checkGlobal c (c.addrOf tick x l) (MemSize x) need align l1).2
  let spad (x : MemArgs) : Mask := of_ x.g fun l => failed (c.checkSpad (c.offOf tick x l) (MemSize x))
  let win (x : MemArgs) : Mask := of_ x.g fun l => failed (s.checkWin c (c.addrOf tick x l) (MemSize x))
  match i with
  | .ld x => of_ x.g fun l => failed (glob x .read (decide (x.ord = 4)) (decide (x.ord ≠ 1 ∨ x.scope.toNat < 2)) l)
  | .st x => of_ x.g fun l => failed (glob x .write (decide (x.ord = 4)) false l)
  | .atom x => of_ x.g fun l => match glob x .rmw true false l with
    | .ok p => decide (x.aop = 11) && isPeer p.1.key
    | .error _ => true
  | .lds x => spad x
  | .sts x => spad x
  | .atoms x => spad x
  | .ldw x => win x
  | .stw x => win x
  | .jmpi g a => maskOf ((s.badTargets c (c.guarded tick g) fun l => c.b.codeBase + (c.src tick a l).setWidth 64).2).contains
  | .csw g a => maskOf ((s.badTargets c (c.guarded tick g) fun l => c.b.codeBase + (c.src tick a l).setWidth 64).2).contains
  | .waitw x => of_ x.g fun _ => failed (s.checkGlobal c (c.opS64 tick x.adr).toNat (if x.w64 then 8 else 4) .read true false).2
  | .rcall x => s.objFaults c x true fun d => d.valid (nbits x.dimm.toNat 5 0) && !d.readOnly (nbits x.dimm.toNat 5 0)
      && decide ((c.guarded tick x.g).list.length ≤ 2 ^ d.logK)
  | .rread x => s.objFaults c x true fun d => d.valid (nbits x.dimm.toNat 5 0) && d.readOnly (nbits x.dimm.toNat 5 0)
  | .rwait x => s.objFaults c x true fun _ => true
  | _ => 0

/-- The threads that STOPR stops at a word of scratchpad as the machine stands. -/
def State.stepRaces (s : State) (c : Cx) (i : Instr) : Mask :=
  let of_ (x : MemArgs) : Mask :=
    let n := MemSize x
    let accs := (c.guarded s.tick x.g).list.filterMap fun l => match c.checkSpad (c.offOf s.tick x l) n with
      | .ok a => some (l, a)
      | .error _ => none
    s.raceStops c (s.races c accs n)
  match i with
  | .lds x => of_ x
  | .sts x => of_ x
  | _ => 0

/-- The threads of a stepped fragment fall into parts that come to an end apart, some before the clause does. -/
structure StepParts where
  going : List Mask
  ended : Nat := 0

/-- Threads leave the clause, and those of each part stand apart. -/
def StepParts.stop (p : StepParts) (m : Mask) : StepParts :=
  let some_ (ms : List Mask) : List Mask := ms.filter fun m => !m.none
  { going := some_ (p.going.map (· &&& ~~~m)), ended := p.ended + (some_ (p.going.map (· &&& m))).length }

/-- What the word at `i` makes of the parts: a wait divides one, a stop, a cause or an exit takes threads from it. -/
def State.stepWord (s : State) (c : Cx) (resumed : Bool) (p : StepParts) (i : Nat) : StepParts :=
  match instrAt c.fl.cls c.fl.ext c.fl.words i with
  | none => p
  | some (x, _) =>
    let c := { c with fl := { c.fl with idx := i, act := p.going.foldl (· ||| ·) 0 } }
    let again := resumed && i == c.fl.idx
    let of_ (g : Option Guard) : Mask := maskOf fun l => g.any fun g => c.guard s.tick g l
    match stepExits x with
    | some g => { p.stop (of_ (some g)) with ended := p.ended }
    | none => match stepParts (c.b.dbg.att && (s.ctx c.b.ctx).att && !again) x with
      | some g => p.stop (of_ (some g))
      | none =>
        let p := p.stop (s.stepFaults c x)
        let p := if again then p else p.stop (s.stepRaces c x)
        let w := of_ (s.stepWait c x)
        { p with going := (p.going.flatMap fun m => [m &&& w, m &&& ~~~w]).filter fun m => !m.none }

/-- The places where the threads of a stepped fragment may end: the clause's successor, and the targets of its last instruction. -/
def State.stepEnds (s : State) (c : Cx) (m : Mask) : List DWord :=
  let tick := s.tick
  let last : Option Instr := (firstIdx c.fl.words.length fun i => decide (c.fl.words.length ≤ i + c.fl.len i)).bind fun i =>
    (instrAt c.fl.cls c.fl.ext c.fl.words i).map (·.1)
  let at_ (g : Guard) (t : Nat → DWord) : List DWord := m.list.map fun l => if c.guard tick g l then t l else c.fl.succ
  match last with
  | some (.bra g off) => at_ g fun _ => c.fl.pc + (off.signExtend 64 <<< 2)
  | some (.jmpi g a) => at_ g fun l => c.b.codeBase + (c.src tick a l).setWidth 64
  | some (.csw g (.v r)) => at_ g fun l => c.b.codeBase + (c.v tick l r.toNat).setWidth 64
  | _ => [c.fl.succ]

/-- How many fragments more than one the step of a clause would leave, as far as that can be told before it runs (log 103). -/
def State.stepNeed (s : State) (b w : Nat) (bl : Block) (g : Frag) (m : Mask) : Nat :=
  match (s.fetchClause bl.core bl.ctx bl.die g.pc.toNat).2 with
  | .error _ => 0
  | .ok (h, ws) =>
    let hd := Header.ofWord h
    match Cls.ofBits hd.cls with
    | some cls =>
      let fl : InFlight := { pc := g.pc, cls := cls, ext := hd.ext, words := ws, idx := g.widx, act := m, yld := false }
      let c : Cx := { bk := b, wi := w, b := bl, w := bl.warp w, fl := fl }
      let p := ((List.range ws.length).filter fun i => decide (g.widx ≤ i) && !hd.ext.getLsbD i).foldl (s.stepWord c g.atWord) { going := [m] }
      p.ended + (p.going.map fun m => (s.stepEnds c m).eraseDups.length).sum - 1
    | none => 0

/-- DEBUG_STEP (R308): the stopped fragment resumes for exactly one clause; refused where the step would need a fragment number or a
table entry that is not free. A block that is shown in its past stands in its present first. -/
def execDebugStep (b w f : Nat) (s : State) : Host.Outcome State Fault Refusal :=
  .next <| match (s.toPresent b).block? b with
  | none => s
  | some bl => match (s.toPresent b).stopped? bl w f with
    | none => s
    | some (e, g) =>
      if !bl.resident || !(s.ctx bl.ctx).att then s
      else
        let s := s.toPresent b
        let m := (bl.warp w).fragMask f
        let need := s.stepNeed b w bl g m
        let numbers := ([1, 2, 3, 4, 5, 6, 7].filter fun n => ((s.core bl.core).frag? b w n).isNone).length
        if numbers < need ∨ (s.freeEntries bl.core).length < need then s
        else (((s.resume bl.core e g).modMask b w m fun _ x => { x with step := !x.isParked }).syncHelpers b).wakeAll

/-- Threads of the stepped fragment that have come to the end of the clause, `m` of them, park again: the place of the lowest lane is taken for
the fragment's own, and keeps its number where no other thread bears it (log 133), the others form new fragments under the debugger; so do
those that have rejoined fragment 0 (R54). -/
def State.endStep (s : State) (bk wi : Nat) (m : Mask) : State :=
  match s.block? bk with
  | none => s
  | some b =>
    let w := b.warp wi
    let mine := maskOf fun l => m.has l && (w.lane l).isReal && (w.lane l).isRunnable && (w.lane l).step && decide ((w.lane l).widx = 0)
    let ends := (mine.list.map fun l => (w.lane l).pc).eraseDups
    ends.reverse.foldl (fun s pc =>
      let here := maskOf fun l => mine.has l && (w.lane l).pc == pc
      match s.park b wi here pc 0 { cause := 0x09, dbg := true } with
      | some r => r.1
      | none => s.exhaust b wi here here pc 0) s

end Sys2Proof.Machine
end

