-- ==== Sys2Proof/Machine/Host.lean ====
section
/-! DEFINITION. What the host does to the machine: accesses from outside (R164, R371), reset and bring-up (R330, R331, R14), partitions
(R332, R383), and power (R336). -/

namespace Sys2Proof.Machine

/-! ## Accesses from outside (R164, R371) -/

/-- The storage address of a device address, homed by R130 or on the logical die that R133 gives it. -/
def State.homeKey? (s : State) (home : Option Nat) (pa : Nat) : Option Nat :=
  if 2 ^ 48 ≤ pa then none
  else s.devKey? (home.getD (hashHome s.liveCount (nbits pa 47 16))) (nbits pa 47 16) (pa % 65536)

/-- The storage addresses of consecutive device bytes, with each one's place. -/
def State.outKeys (s : State) (home : Option Nat) (pa n : Nat) : List (Nat × Nat) :=
  (List.range n).filterMap fun i => (s.homeKey? home (pa + i)).map fun k => (i, k)

/-- A write from outside is performed as a store at its home; poisoned data is held poisoned (R371). -/
def State.outWrite (s : State) (home : Option Nat) (pa : Nat) (data : Payload) : State :=
  let ks := s.outKeys home pa data.bytes.length
  let s := forN Config.dies (fun d s =>
    let here := ks.filter fun e => keyDie e.2 == d
    if here.isEmpty then s else s.l2Write d (here.map fun e => (e.2, data.bytes.getD e.1 0, data.pois))) s
  s.foreignStore none (ks.map (·.2))

/-- A read from outside: its bytes, and whether one of them is poisoned. -/
def State.outRead (s : State) (home : Option Nat) (pa n : Nat) : State :=
  let ks := s.outKeys home pa n
  { s with hostRead := some { data := ks.map fun e => s.l2Byte (keyDie e.2) e.2, poisoned := ks.any fun e => s.l2Pois (keyDie e.2) e.2 } }

/-- HOST_WRITE (R164, R371). -/
def execHostWrite (home : Option Nat) (pa : Nat) (data : Payload) (s : State) : Host.Outcome State Fault Refusal :=
  .next (s.outWrite home pa data)

/-- HOST_READ (R371). -/
def execHostRead (home : Option Nat) (pa n : Nat) (s : State) : Host.Outcome State Fault Refusal := .next (s.outRead home pa n)

/-- PEER_WRITE (R164, R371). -/
def execPeerWrite (home : Option Nat) (pa : Nat) (data : Payload) (s : State) : Host.Outcome State Fault Refusal :=
  .next (s.outWrite home pa data)

/-- PEER_READ (R371). -/
def execPeerRead (home : Option Nat) (pa n : Nat) (s : State) : Host.Outcome State Fault Refusal := .next (s.outRead home pa n)

/-! ## Reset (R330, R337, R384) -/

/-- Lines that hold host or peer data when a reset comes: whether an L2 has written one back is open (log 12). -/
def State.outsideMem (s : State) : State := s.writeBack (s.hlines.filter fun h => Config.freeBool s.tick h.line)

/-- What the L2s hold poisoned of lines that their homes do not have reaches the homes with the data. -/
def State.poisonHome (s : State) : State :=
  s.dir.foldl (fun s e => if isOutside (128 * e.1) then s else s.ownerHome e.1) s

/-- COLD_RESET (R330, R89, R384): the reset state. What hosts and peers hold stays theirs. -/
def execColdReset (s : State) : Host.Outcome State Fault Refusal :=
  .next { State.reset with
    tick := s.tick, inputs := s.inputs, nextKey := s.nextKey, mem := s.outsideMem.mem.filter fun e => isOutside e.1,
    memPoison := s.outsideMem.memPoison.filter fun w => isOutside (32 * w) }

/-- WARM_RESET (R337, R376, R384): every context is lost and bring-up restarts; WALL, the sediment log and memory stay; a lost die is
not usable any more. -/
def execWarmReset (s : State) : Host.Outcome State Fault Refusal :=
  .next <|
    let s' : State := { State.reset with
      tick := s.tick, inputs := s.inputs, nextKey := s.nextKey, wallU := s.wallU, mem := s.outsideMem.mem, memPoison := s.outsideMem.poisonHome.memPoison,
      wh := { usable := s.wh.usable &&& ~~~s.wh.dielost, sediment := s.wh.sediment, msix := s.wh.msix, portsDown := s.wh.portsDown,
              corrected := s.wh.corrected, frameErr := s.wh.frameErr } }
    s'.sediment none 0xFF 2 0

/-! ## Bring-up (R330, R331, R332, R14) -/

/-- Usable dies, ascending. -/
def usableList (u : BitVec 8) : List Nat := (List.range 8).filter u.getLsbD

/-- The live dies of full service: of exactly four usable dies the highest is retired (R14). -/
def liveOf (u : BitVec 8) : List Nat :=
  let ds := usableList u
  if ds.length = 4 then ds.take 3 else ds

/-- The SLOTMAP that bring-up writes for a cell: its seven enabled positions. -/
def bringupSlots (cell : Nat) : BitVec 28 :=
  let spare := Config.spareCore cell % 8
  BitVec.ofNat 28 (((List.range 7).map fun t => (if t < spare then t else t + 1) * 16 ^ t).sum)

/-- WH_READY (R330). -/
def Wellhead.readyWord (w : Wellhead) : Nat := w.err.toNat * 2 ^ 12 + w.stage.toNat * 2 ^ 8 + w.ready.toNat

/-- Device memory in a range is zeroed, with its check bits: no poison, no undefined contents. -/
def State.zeroWhere (s : State) (p : Nat → Bool) : State :=
  { s with mem := s.mem.filter fun e => !p e.1, memPoison := s.memPoison.filter fun w => !p (32 * w),
           l2Poison := s.l2Poison.filter fun w => !p (32 * (w / 8)),
           tlrUndef := s.tlrUndef.filter fun u => !p (65536 * u.1), spoiled := s.spoiled.filter fun r => !p r.key }

/-- Bring-up stops with an error (R330). -/
def State.stopBringup (s : State) (err : BitVec 4) : State :=
  let s := s.modWh fun w => { w with err := err, ready := 0, live := [] }
  s.sediment none 0xFF 3 (BitVec.ofNat 448 s.wh.readyWord)

/-- The bytes tested when READY became 1: of the reduced-service die, below WH_MEMOK. -/
def inTested (d memok key : Nat) : Bool := keyDie key == d && decide (key % 2 ^ 37 < memok * 2 ^ 30)

/-- In stages 3 and 4 the tests of the reduced-service die's memory go on: WH_MEMOK rises to `gib`, and what was tested is zeroed (R331). -/
def State.memRise (s : State) (gib : Nat) : State :=
  let old := s.wh.memok.toNat
  let ok := min gib 128
  if s.wh.err ≠ 0 ∨ (s.wh.stage ≠ 3 ∧ s.wh.stage ≠ 4) ∨ ok ≤ old then s
  else
    let d := (usableList s.wh.usable).headD 0
    (s.zeroWhere fun k => !isOutside k && inTested d ok k && !inTested d old k).modWh fun w => { w with memok := BitVec.ofNat 32 ok }

/-- Stage 3 is done: reduced service begins on the lowest usable die (R331, R332). -/
def State.reduced (s : State) (d : Nat) : State :=
  (s.memRise (Config.memTested s.tick)).modWh fun w =>
    { w with stage := 4, ready := 1, live := [d], mhz := 600,
             partmap := (List.range 6).foldl (fun m c => tset m (6 * d + c) 0) w.partmap, pwrst := tset w.pwrst d 0 }

/-- A die has a cell in a partition. -/
def Wellhead.hasCells (w : Wellhead) (d : Nat) : Bool := (List.range 6).any fun c => tgetD w.partmap (6 * d + c) 0xFF != 0xFF

/-- Power states after a change of the map: off without cells in partitions, else as it was (R336). -/
def Wellhead.settlePower (w : Wellhead) : Wellhead :=
  { w with pwrst := w.live.foldl (fun p d => if w.hasCells d then (if tgetD p d 0 = 3 then tset p d 0 else p) else tset p d 3) w.pwrst }

/-- Stage 4 is done: all other live memory is zeroed; with three usable dies or more full service begins (R330, R14). -/
def State.fullService (s : State) : State :=
  let d := s.wh.live.headD 0
  let ok := s.wh.memok.toNat
  let live := liveOf s.wh.usable
  let s := s.zeroWhere fun k => !isOutside k && !inTested d ok k
  if live.length < 3 then s.modWh fun w => { w with stage := 5, memok := 128 }
  else
    let s := s.modWh fun w => Wellhead.settlePower { w with stage := 5, ready := 2, live := live, mhz := 1200, gateK := 16, memok := 128 }
    s.mapCores fun k => { k with tcache := [] }

/-- BRINGUP_STAGE_COMPLETE (R330, R335): the stage finishes, or stops with an error that it can find. -/
def execBringupStageComplete (err : BitVec 4) (s : State) : Host.Outcome State Fault Refusal :=
  .next <|
    if s.wh.err ≠ 0 ∨ 5 ≤ s.wh.stage.toNat then s
    else if err = 3 ∨ (err = 1 ∧ s.wh.stage = 0) then s.stopBringup err
    else if err ≠ 0 then s
    else match s.wh.stage.toNat with
      | 2 =>
        let u := Config.usable s.tick &&& s.wh.usable
        let s := s.modWh fun w => { w with usable := u }
        if u = 0 then s.stopBringup 2
        else
          let cells := (usableList u).flatMap fun d => (List.range 6).map fun c => 6 * d + c
          let s := cells.foldl (fun s c => s.modPlace c fun p => { p with slotmap := bringupSlots c }) s
          s.modWh fun w => { w with stage := 3 }
      | 3 => s.reduced ((usableList s.wh.usable).headD 0)
      | 4 => s.fullService
      | n => s.modWh fun w => { w with stage := BitVec.ofNat 4 (n + 1) }

/-! ## Partitions (R332, R337, R383) -/

/-- The map that a GO is to apply: WH_PARTNEW as it is, or, while a GO with FORCE goes on, as it was at that GO. -/
def Wellhead.goMap (w : Wellhead) : Tab (BitVec 8) := if w.partForce then w.forceMap else w.partnew

def State.newPart (s : State) (cell : Nat) : Nat := (tgetD s.wh.goMap cell 0xFF).toNat
def State.oldPart (s : State) (cell : Nat) : Nat := (tgetD s.wh.partmap cell 0xFF).toNat

/-- A die that bring-up has retired (R14), or that has been lost since. -/
def Wellhead.gone (w : Wellhead) (d : Nat) : Bool := !(liveOf w.usable).contains d || w.dielost.getLsbD d

/-- WH_PARTNEW names a partition above 47, or gives a cell of a retired or lost die a partition; none of any die before bring-up has found the
usable ones (log 5). -/
def State.partRefused (s : State) : Bool :=
  (List.range 48).any fun c => s.newPart c != 0xFF && (decide (47 < s.newPart c ∨ s.wh.stage.toNat < 3) || s.wh.gone (c / 6))

/-- The set of cells of the partition changes. -/
def State.affected (s : State) (p : Nat) : Bool :=
  (List.range 48).any fun c => s.newPart c != s.oldPart c && (s.newPart c == p || s.oldPart c == p)

/-- The context has blocks that are resident, stowed or queued. Saved blocks, which a pre-emption leaves, do not count. -/
def State.hasBlocks (s : State) (c : Nat) : Bool :=
  (s.blocks.any fun b => b.ctx == c && b.replay.isNone && b.mv != .saved)
    || s.grids.any fun g => g.ctx == c && decide (g.next < g.lrec.nblk)

/-- The contexts that keep the map from changing; a failed one counts as holding no blocks. -/
def State.busyCtxs (s : State) : List Nat :=
  (s.ctxs.filter fun e => e.2.en && !e.2.failed && s.affected e.2.part.toNat && s.hasBlocks e.1).map (·.1)

def State.partStatus (s : State) (v : BitVec 2) : State := s.modWh fun w => { w with partst := v, partForce := false, forced := [], forceMap := [] }

/-- A GO is written: it takes the place of one with FORCE that goes on still (log 134). -/
def State.go (s : State) : State := s.modWh fun w => { w with partForce := false, forced := [], forceMap := [] }

/-- The map is applied. -/
def State.applyMap (s : State) : State :=
  ((s.modWh fun w => Wellhead.settlePower { w with partmap := w.goMap }).partStatus 1).sediment none 0xFF 0x50 (1 <<< 28)

/-- A GO without FORCE. -/
def State.goPlain (s : State) : State :=
  let s := s.go
  if s.partRefused then s.partStatus 3 else if s.busyCtxs.isEmpty then s.applyMap else s.partStatus 2

/-- PARTITION_APPLY (R332, R383): a GO without FORCE. -/
def execPartitionApply (s : State) : Host.Outcome State Fault Refusal := .next s.goPlain

/-- The context is to stay pre-empted: one that runs, that goes on once its pre-emption completes, or that stands stopped after a save fault is
pre-empted anew (R328, R353). -/
def State.holdPre (s : State) (c : Nat) : State :=
  let x := s.ctx c
  if x.pre && !x.clearPending && !x.preFault then s else s.preempt c

/-- The contexts that a GO with FORCE pre-empts: those that it found, be their blocks at their end meanwhile, and what has come to be affected
since. -/
def State.forcedCtxs (s : State) : List Nat :=
  (s.wh.forced.filter fun c => (s.ctx c).en && !(s.ctx c).failed) ++ s.busyCtxs.filter fun c => !s.wh.forced.contains c

/-- A GO with FORCE goes on: once its contexts are saved the map is applied; a save fault makes it BUSY. -/
def State.finishForce (s : State) : State :=
  if !s.wh.partForce then s
  else
    let xs := s.forcedCtxs
    if xs.any fun c => (s.ctx c).preFault then s.partStatus 2
    else if xs.all fun c => (s.ctx c).saved then s.applyMap
    else xs.foldl (fun s c => s.holdPre c) s

/-- A GO with FORCE begins: contexts that stand stopped after a save fault try again (R353). -/
def State.startForce (s : State) : State :=
  (s.busyCtxs.foldl (fun s c => s.holdPre c)
    (s.modWh fun w => { w with partst := 0, partForce := true, forced := s.busyCtxs, forceMap := w.partnew })).finishForce

/-- A GO with FORCE. -/
def State.goForce (s : State) : State :=
  let s := s.go
  if s.partRefused then s.partStatus 3 else s.startForce

/-- PARTITION_APPLY_FORCE (R332, R337, R383): the affected contexts are pre-empted, then the map is applied. -/
def execPartitionApplyForce (s : State) : Host.Outcome State Fault Refusal := .next s.goForce

/-! ## Power (R336) -/

/-- POWER_LIMIT_ADJUST (R336): the clock goes to `mhz`, issue to `k` of 16 cycles, down by one step at a time; gating only at 0.6 GHz, the
clock of reduced service. Called again at the floor, power is still above LIM. -/
def execPowerLimitAdjust (mhz k : Nat) (s : State) : Host.Outcome State Fault Refusal :=
  .next <|
    let w := s.wh
    let far := decide (mhz + 50 < w.mhz ∨ k + 1 < w.gateK ∨ (k < w.gateK ∧ w.mhz ≠ 600))
    if w.ready = 0 ∨ (w.ready = 1 ∧ mhz ≠ 600) ∨ mhz < 600 ∨ 1200 < mhz ∨ mhz % 50 ≠ 0 ∨ k < 2 ∨ 16 < k ∨ (k ≠ 16 ∧ mhz ≠ 600) ∨ far then s
    else
      let floor := decide (mhz = 600 ∧ k = 2)
      let still := floor && decide (w.mhz = 600 ∧ w.gateK = 2)
      let s := s.modWh fun w => { w with mhz := mhz, gateK := k, ceilingNoted := floor && (w.ceilingNoted || still) }
      if still && !w.ceilingNoted then s.sediment none 0xFF 0x52 (w.lim.setWidth 448)
      else if w.mhz = 1200 ∧ mhz < 1200 then s.sediment none 0xFF 0x51 (w.lim.setWidth 448)
      else s

/-- The die has nothing resident, no engine command, handler or invocation, and nothing pending for its engines. -/
def State.dieIdle (s : State) (d : Nat) : Bool :=
  !(s.blocks.any fun b => b.die == d && (b.holdsCore || b.replay.isSome || b.ecs.any fun e => e.cmds.any fun c => !c.finished))
    && !(s.robjs.any fun o => decide (o.applied.getD (s.logicalDie d) 0 < o.next) && (s.healthy o).contains (s.logicalDie d))

/-- DIE_IDLE_ENTRY (R336): an idle die with cells in a partition goes to state 1 or 2. -/
def execDieIdleEntry (d : Nat) (deep : Bool) (s : State) : Host.Outcome State Fault Refusal :=
  .next <|
    if s.wh.live.contains d && !s.wh.dielost.getLsbD d && s.wh.hasCells d && s.dieIdle d then
      s.modWh fun w => { w with pwrst := tset w.pwrst d (if deep then 2 else 1) }
    else s

end Sys2Proof.Machine
end

