-- ==== Sys2Proof/Machine/Sha.lean ====
section
/-! DEFINITION. SHA-384, which chains the sediment log and stands under every signature (R335, R384, R385). The spec names the standard
digest; its constants are computed here from what they are: root fractions of primes. -/

namespace Sys2Proof.Machine

/-! ## Constants -/

/-- The largest `r` below `2^bits` above `r0` with `r^e ≤ n`, one bit after the other. -/
def rootBits (e n : Nat) : Nat → Nat → Nat
  | 0, r0 => r0
  | bits + 1, r0 => rootBits e n bits (if (r0 + 2 ^ bits) ^ e ≤ n then r0 + 2 ^ bits else r0)

/-- The first 64 bits behind the point of the `e`-th root of a number below 512. -/
def rootFraction (e p : Nat) : DWord := BitVec.ofNat 64 (rootBits e (p * 2 ^ (64 * e)) 69 0)

/-- The primes below 410, of which there are 80. -/
def primes80 : List Nat := (List.range 410).filter fun p => decide (2 ≤ p) && (List.range 21).all fun d => decide (d < 2 ∨ p ≤ d) || p % d != 0

/-- A word for each of the 80 rounds: cube roots. -/
def roundWords : List DWord := primes80.map (rootFraction 3)

/-- The chaining value before the first block: square roots of the ninth to the sixteenth prime. -/
def startWords : List DWord := ((primes80.drop 8).take 8).map (rootFraction 2)

/-! ## The compression of a block -/

/-- Rotations of a word to the right, combined, with a shifted one where `sh` is not 0. -/
def mixBits (rots : List Nat) (sh : Nat) (x : DWord) : DWord :=
  rots.foldl (fun m r => m ^^^ x.rotateRight r) (if sh = 0 then 0 else x >>> sh)

/-- The message schedule: from the words so far, the newest first, `n` more. -/
def schedule : Nat → List DWord → List DWord
  | 0, ws => ws
  | n + 1, ws =>
    let back (i : Nat) : DWord := ws.getD (i - 1) 0
    schedule n ((mixBits [19, 61] 6 (back 2) + back 7 + mixBits [1, 8] 7 (back 15) + back 16) :: ws)

/-- The two histories of a block's compression, newest first: each round adds one word to each. -/
structure Mixing where
  up : List DWord
  down : List DWord
deriving DecidableEq, Repr

/-- One round: what enters `down` is chosen by its own last words and fed from the oldest of `up`; `up` gains the vote of its last three. -/
def Mixing.step (m : Mixing) (kw : DWord × DWord) : Mixing :=
  let u (i : Nat) : DWord := m.up.getD i 0
  let d (i : Nat) : DWord := m.down.getD i 0
  let choice := d 2 ^^^ (d 0 &&& (d 1 ^^^ d 2))
  let vote := (u 0 &&& (u 1 ||| u 2)) ||| (u 1 &&& u 2)
  let t := kw.1 + kw.2 + choice + mixBits [14, 18, 41] 0 (d 0) + d 3
  { up := (t + vote + mixBits [28, 34, 39] 0 (u 0)) :: m.up, down := (u 3 + t) :: m.down }

/-- A block of 16 words folded into the chaining value. -/
def digestBlock (h ws : List DWord) : List DWord :=
  let m := (roundWords.zip (schedule 64 ws.reverse).reverse).foldl Mixing.step { up := h.take 4, down := h.drop 4 }
  List.zipWith (· + ·) h (m.up.take 4 ++ m.down.take 4)

/-! ## The whole digest -/

/-- Bytes as one number, the first byte the most significant. -/
def beNat (bs : List Byte) : Nat := bs.foldl (fun a b => a * 256 + b.toNat) 0

/-- A number as `n` bytes, the most significant first. -/
def beBytes (n v : Nat) : List Byte := (leBytes n v).reverse

/-- The zeros that bring a message, its end mark and its length to whole blocks of 128 bytes. -/
def padZeros (len : Nat) : Nat := (128 - (len + 17) % 128) % 128

/-- The padded message: the end mark 0x80, zeros, the length in bits over 16 bytes. -/
def padded (m : List Byte) : List Byte := m ++ 0x80 :: (List.replicate (padZeros m.length) 0 ++ beBytes 16 (8 * m.length))

/-- Block `i` of a padded message as words. -/
def blockWords (m : List Byte) (i : Nat) : List DWord :=
  (List.range 16).map fun j => BitVec.ofNat 64 (beNat ((m.drop (128 * i + 8 * j)).take 8))

/-- The 48 bytes of SHA-384. -/
def sha384 (m : List Byte) : List Byte :=
  let p := padded m
  (((List.range (p.length / 128)).foldl (fun h i => digestBlock h (blockWords p i)) startWords).take 6).flatMap fun x => beBytes 8 x.toNat

end Sys2Proof.Machine
end

