-- ==== Sys2Proof/Machine/Attest.lean ====
section
/-! DEFINITION. SPDM on the DOE mailboxes (R335), the chain of the sediment log and its signature (R384, R385), and WH_LIVECFG (R16). -/

namespace Sys2Proof.Machine

/-! ## Registers that attestation reports -/

/-- WH_LIVECFG (R16, R331). -/
def Wellhead.livecfg (w : Wellhead) : Nat :=
  if w.ready = 0 then 0 else w.live.length * 2 ^ 12 + (w.live.map (2 ^ ·)).sum

/-! ## The sediment chain (R384, R385) -/

/-- Bytes 0x00 to 0x4F of entry `seq`. -/
def Sediment.bytes (e : Sediment) (seq : Nat) : List Byte :=
  leBytes 8 seq ++ leBytes 8 e.wall.toNat ++ leBytes 2 e.event.toNat ++ leBytes 2 e.src.toNat ++ leBytes 2 e.ctx.toNat ++ leBytes 2 0
    ++ leBytes 56 e.detail.toNat

/-- The CHAIN after the entries of a list, of which the first is number `seq`. -/
def chainFrom (prev : List Byte) (seq : Nat) : List Sediment → List Byte
  | [] => prev
  | e :: es => chainFrom (sha384 (prev ++ e.bytes seq)) (seq + 1) es

/-- CHAIN of entry `n`. -/
def Wellhead.chain (w : Wellhead) (n : Nat) : List Byte := chainFrom (List.replicate 48 0) 0 (w.sediment.take (n + 1))

/-- WH_SEDSEQ: the newest entry. -/
def Wellhead.newest (w : Wellhead) : Nat := w.sediment.length - 1

/-- A write of SIGN (R385): DONE is cleared, and the newest entry is being signed. -/
def State.sign (s : State) : State := s.modWh fun w => { w with sigDone := false, signing := some w.newest }

/-- SEDIMENT_SIGN (R385). -/
def execSedimentSign (s : State) : Host.Outcome State Fault Refusal := .next s.sign

/-- SEDIMENT_SIGN_COMPLETE (R385): the signature over the digest of SEQ and CHAIN, and DONE. -/
def execSedimentSignComplete (s : State) : Host.Outcome State Fault Refusal :=
  .next <| match s.wh.signing with
  | none => s
  | some n => s.modWh fun w =>
      { w with sigDone := true, signing := none, signature := Config.signature (beNat (sha384 (leBytes 8 n ++ w.chain n))) }

/-! ## SPDM (R335) -/

/-- The answer on a PF's mailbox. -/
def State.answer (s : State) (pf : Nat) (f : Spdm → Spdm) : State :=
  if 2 ≤ pf then s else s.modWh fun w => { w with spdm := tmod w.spdm pf {} f }

def State.agreed (s : State) (pf : Nat) : Bool := (tgetD s.wh.spdm pf {}).agreed

/-- A request that needs agreed algorithms (log 16). -/
def State.agreedAnswer (s : State) (pf : Nat) (r : SpdmResp) : State :=
  s.answer pf fun x => { x with resp := some (if s.agreed pf then r else .error) }

/-- GET_VERSION (R335): 1.2 and 1.3; the agreement starts anew. -/
def execGetVersion (pf : Nat) (s : State) : Host.Outcome State Fault Refusal :=
  .next (s.answer pf fun _ => { agreed := false, resp := some (.version [0x12, 0x13]) })

/-- GET_CAPABILITIES (R335): one certificate slot, no sessions. -/
def execGetCapabilities (pf : Nat) (s : State) : Host.Outcome State Fault Refusal :=
  .next (s.answer pf fun x => { x with resp := some (.capabilities [0] false) })

/-- NEGOTIATE_ALGORITHMS (R335): P-384 and SHA-384 only. -/
def execNegotiateAlgorithms (pf : Nat) (offered : List SpdmAlg) (s : State) : Host.Outcome State Fault Refusal :=
  .next (s.answer pf fun x =>
    if offered.contains .ecdsaP384 && offered.contains .sha384 then { x with agreed := true, resp := some (.algorithms .ecdsaP384 .sha384) }
    else { x with resp := some .error })

/-- GET_DIGESTS (R335): of the chain in slot 0. -/
def execGetDigests (pf : Nat) (s : State) : Host.Outcome State Fault Refusal :=
  .next (s.agreedAnswer pf (.digests 0 (beNat (sha384 Config.certChain))))

/-- GET_CERTIFICATE (R335): a portion of the chain in slot 0. -/
def execGetCertificate (pf slot off len : Nat) (s : State) : Host.Outcome State Fault Refusal :=
  let rest := Config.certChain.drop off
  .next (s.agreedAnswer pf (if slot = 0 then .certificate 0 (rest.take len) (rest.length - len) else .error))

/-- CHALLENGE (R335). -/
def execChallenge (pf slot nonce : Nat) (s : State) : Host.Outcome State Fault Refusal :=
  .next (s.agreedAnswer pf (if slot = 0 then .challenge 0 nonce (Config.challengeSig s.tick nonce) else .error))

/-- Measurement `i` of R335. -/
def State.measure (s : State) (i : Nat) : Nat × Nat :=
  (i, if i = 5 then s.wh.livecfg + 2 ^ 32 * Config.rollback else Config.measurement i)

/-- GET_MEASUREMENTS (R335): one of the measurements 1 to 5, or all of them. -/
def execGetMeasurements (pf idx : Nat) (s : State) : Host.Outcome State Fault Refusal :=
  .next (s.agreedAnswer pf (
    if idx = 0xFF then .measurements ([1, 2, 3, 4, 5].map s.measure)
    else if 1 ≤ idx ∧ idx ≤ 5 then .measurements [s.measure idx]
    else .error))

end Sys2Proof.Machine
end

