-- ==== Sys2Proof/Machine/Fail.lean ====
section
/-! DEFINITION. Failures: corrected and uncorrectable errors (R370), die links (R373), UALink ports (R374), the loss of a die (R376). -/

namespace Sys2Proof.Machine

/-! ## Errors in storage (R370, R384) -/

/-- The physical address of a device storage address: the page with the smallest number that has that home by R130 and that frame. -/
def State.paOf (s : State) (key : Nat) : Nat :=
  let f := key % 2 ^ 37 / 65536
  let k := firstIdx 2048 fun k => s.wh.live[hashHome s.liveCount (k * 2 ^ 21 + f)]? == some (keyDie key)
  (k.getD 0 * 2 ^ 21 + f) * 65536 + key % 65536

/-- The physical address of any storage address. -/
def State.paAny (s : State) (key : Nat) : Nat :=
  if isPeer key then 2 ^ 49 + (key - peerBase) else if isOutside key then 2 ^ 48 + (key - hostBase) else s.paOf key

/-- The die of a core; a replay engine's caches stand under a number of their own. -/
def coreDie (core : Nat) : Nat := if core < 384 then core / 48 else core - 384

/-- SRC of the sediment log for a site (R384). -/
def State.siteSrc (s : State) : ErrSite → Nat
  | .hbm a => if isOutside a then 0xFF else 0x10 + s.stackOf a
  | .l2 d _ => d
  | .spad b _ => ((s.block? b).map Block.die).getD 0xFF
  | .vreg b _ _ _ => ((s.block? b).map Block.die).getD 0xFF
  | .sreg b _ _ => ((s.block? b).map Block.die).getD 0xFF
  | .acc b _ => ((s.block? b).map Block.die).getD 0xFF
  | .l1 core _ _ => coreDie core
  | .icache core _ _ => coreDie core
  | .l2tag d _ => d
  | .frag core _ => coreDie core

/-- The words of a line that an L2 holds modified. -/
def State.dirtyWords (s : State) (line : Nat) : List Nat :=
  if isOutside (128 * line) then (s.hlines.filter fun h => h.line == line).flatMap fun h => (h.dirty.map (· / 32)).eraseDups
  else if (s.dirOf line).dirty then List.range 4 else []

/-- A line is back-invalidated after an error in its tag, its directory entry or its snoop-filter entry: modified data is poisoned at its home
(R370, R142). -/
def State.backInvalidate (s : State) (line : Nat) : State :=
  let s := (s.dirtyWords line).foldl (fun s j => s.poison (128 * line + 32 * j)) s
  { s.dropPois line (fun _ => true) with hlines := s.hlines.filter fun h => h.line != line, dir := terase s.dir line }

/-- The site is of a die that is live: a retired one has no stacks, no L2 and no cores (R17). -/
def State.siteLive (s : State) : ErrSite → Bool
  | .hbm a => isOutside a || s.wh.live.contains (keyDie a)
  | .l2 d _ => s.wh.live.contains d
  | .l2tag d _ => s.wh.live.contains d
  | .frag core _ => s.wh.live.contains (coreDie core)
  | .l1 core _ _ => s.wh.live.contains (coreDie core)
  | .icache core _ _ => s.wh.live.contains (coreDie core)
  | _ => true

/-- The L2 of a die holds the line of a storage address. -/
def State.l2Holds (s : State) (d key : Nat) : Bool :=
  if isOutside key then s.hlines.any fun h => h.die == d && h.line == key / 128 else (s.dirOf (key / 128)).sharers.getLsbD d

/-- An uncorrectable error: the word is poisoned where it stands, in HBM4E or in one L2; a line of an L1 or an instruction cache is dropped. A
register, scratchpad or tile word that no block holds holds nothing. What the sediment log names for a fragment table is free (log 111). -/
def State.uncorrectable (s : State) (site : ErrSite) : State :=
  let src := s.siteSrc site
  let ev (s : State) (addr loc : Nat) : State := s.sediment none src 0x11 (BitVec.ofNat 448 (addr + loc * 2 ^ 64))
  match site with
  | .hbm a => ev (s.poison a) (s.paAny a / 32 * 32) (if isOutside a then 5 else 0)
  | .l2 d a => if !s.l2Holds d a then s else ev (s.l2SetPois d a true) (s.paAny a / 32 * 32) (if isOutside a then 5 else 1)
  | .spad k w => match s.block? k with
    | none => s
    | some b => if decide (b.spSize ≤ 4 * w) || !b.holdsCore then s
        else ev (s.modBlock k fun y => { y with spadPois := insertSorted w y.spadPois }) (b.window 0 (b.spBase + 4 * w)) 2
  | .vreg k i l r => match s.block? k with
    | none => s
    | some b => if !b.resident || decide (64 ≤ r ∨ 32 ≤ l) then s
        else
          let hit (x : Lane) : Lane := { x with vPois := insertSorted r x.vPois }
          let seen (f : InFlight) : InFlight := { f with boundVPois := modNth l (insertSorted r) f.boundVPois }
          ev (s.modWarp k i fun w => { w.modLane l hit with flight := w.flight.map seen }) (regWindow b (b.warp i) l r) 3
  | .sreg k i r => match s.block? k with
    | none => s
    | some b => if !b.resident || decide (32 ≤ r) then s
        else
          let seen (f : InFlight) : InFlight := { f with boundSPois := insertSorted r f.boundSPois }
          ev (s.modWarp k i fun w => { w with sPois := insertSorted r w.sPois, flight := w.flight.map seen }) (regWindow b (b.warp i) 32 r) 3
  | .acc k e => match s.block? k with
    | none => s
    | some b => match b.tiles[e / 4096]? with
      | none => s
      | some t => if !b.holdsCore then s
          else ev (s.modBlock k fun y => { y with accPois := insertSorted e y.accPois })
            (b.window 3 (t * 2 ^ 14 + e % 4096 * 4)) 4
  | .l1 core asid line => s.dropL1 core fun x => x.asid == asid && x.line == line
  | .icache core asid line => s.modCore core fun k => { k with icache := k.icache.filter fun x => !(x.asid == asid && x.line == line) }
  | .l2tag _ line =>
    let t := s.backInvalidate line
    if (s.dirtyWords line).isEmpty then t else ev t (s.paAny (128 * line)) 1
  | .frag core e => match tget (s.core core).frags e with
    | none => s
    | some f => ev (s.modCore core fun k => { k with frags := tset k.frags e { f with pois := true } }) (freeDWord s.tick core).toNat
        ((Config.freeWord s.tick core).toNat % 256)

/-- `n` corrected errors of a source: an event for each 1,024. -/
def State.countCorrected (s : State) (src n : Nat) : State :=
  let old := tgetD s.wh.corrected src 0
  let s := s.modWh fun w => { w with corrected := tset w.corrected src (old + n) }
  forN ((old + n) / 1024 - old / 1024) (fun i s => s.sediment none src 0x10 (BitVec.ofNat 448 (1024 * (old / 1024 + 1 + i)))) s

/-- A corrected word of an HBM4E frame: an event at the eighth distinct one. -/
def State.noteFrame (s : State) (key : Nat) : State :=
  let f := key / 65536
  let ws := tgetD s.wh.frameErr f []
  if ws.contains (key / 32) || decide (8 ≤ ws.length) then s
  else
    let s := s.modWh fun w => { w with frameErr := tset w.frameErr f (ws ++ [key / 32]) }
    if ws.length = 7 then s.sediment none (0x10 + s.stackOf key) 0x12 (BitVec.ofNat 448 (f % 2 ^ 21)) else s

/-- SCRUB (R370): `corrected` errors put right at a site, or, with 0, one that cannot be. -/
def execScrub (site : ErrSite) (corrected : Nat) (s : State) : Host.Outcome State Fault Refusal :=
  .next <|
    if !s.siteLive site then s
    else if corrected = 0 then s.uncorrectable site
    else
      let s := s.countCorrected (s.siteSrc site) corrected
      match site with
      | .hbm a => if isOutside a then s else s.noteFrame a
      | _ => s

/-! ## Losing a die (R376) -/

/-- The die holds a block, a handler block or a command in flight of the context. -/
def State.ctxOnDie (s : State) (c d : Nat) : Bool :=
  s.blocks.any fun b => b.ctx == c && b.replay.isNone && b.die == d && (b.holdsCore || b.ecs.any fun e => e.cmds.any fun k => !k.finished)

/-- The context gets its report and is failed: no block of it issues again. -/
def State.failCtx (s : State) (d c : Nat) : State :=
  if (s.ctx c).failed then s
  else (s.modCtx c fun x => { x with failed := true }).pend c { id := 0, cause := 0x3B, kind := 3, fhandle := 0, code := d, cell := some (d, 6 * d) }

/-- A directory entry without the sharer bits of a lost die; of a modified line that other L2s hold too, one of them is the owner then
(log 104). -/
def Dir.lose (x : Dir) (d : Nat) : Dir :=
  let sh := x.sharers &&& ~~~dieBit d
  if sh = 0 then {} else if x.owner = some d then { x with owner := firstIdx 8 sh.getLsbD, sharers := sh } else { x with sharers := sh }

/-- The lines homed elsewhere whose modified data the L2 of `d` alone holds, owned or modified. -/
def State.onlyIn (s : State) (d : Nat) : List Nat :=
  (s.dir.filter fun e => e.2.dirty && e.2.owner == some d && decide (e.2.sharers &&& ~~~dieBit d = 0) && !isOutside (128 * e.1) && keyDie (128 * e.1) != d).map (·.1)
    ++ (s.hlines.filter fun h => h.die == d && !h.dirty.isEmpty).map (·.line)

/-- Lines held modified in the lost die's L2 alone are poisoned at their home, and later stores to them are discarded; the L1s drop what they hold,
so that later loads of a poisoned line consume its poison. -/
def State.loseLines (s : State) (d : Nat) : State :=
  let mine := s.onlyIn d
  let s := mine.foldl (fun s l => forN 4 (fun i s => s.poison (128 * l + 32 * i)) s) s
  let s : State :=
    { s with l2Poison := s.l2Poison.filter fun k => k % 8 != d, lostLines := mine.foldl (fun ls l => insertSorted l ls) s.lostLines, hlines := s.hlines.filter fun h => h.die != d,
             dir := (s.dir.map fun e => (e.1, e.2.lose d)).filter fun e => decide (e.2.sharers ≠ 0) }
  s.mapCores fun k => { k with l1 := [] }

/-- The loss of a live die. -/
def State.loseDie (s : State) (d : Nat) : State :=
  if !s.wh.live.contains d || s.wh.dielost.getLsbD d then s
  else
    let hit := (s.ctxs.map (·.1)).filter fun c => s.ctxOnDie c d && !(s.ctx c).failed
    let s := s.modWh fun w => { w with dielost := w.dielost ||| (1#8 <<< d) }
    let s := s.sediment none d 0x30 ((Config.freeWord s.tick d).setWidth 448)
    let s := (s.signal 0 1).signal 193 1
    let s := hit.foldl (fun s c => s.failCtx d c) s
    let s := s.loseLines d
    { s with blocks := s.blocks.filter fun b => b.replay.isNone || b.die != d,
             cur := match s.curBlock.bind s.block? with
               | some b => if (s.ctx b.ctx).failed || (b.replay.isSome && b.die == d) then none else s.cur
               | none => s.cur }

/-- DIE_LOST (R376). -/
def execDieLost (d : Nat) (s : State) : Host.Outcome State Fault Refusal := .next (s.loseDie d)

/-! ## Links (R373, R374) -/

/-- A bundle of a direction of a die's link. -/
def bundleKey (d dir b : Nat) : Nat := d * 32 + dir * 16 + b

/-- Bundles dropped in a direction. -/
def Wellhead.droppedIn (w : Wellhead) (d dir : Nat) : Nat :=
  ((List.range 16).filter fun b => (tgetD w.links (bundleKey d dir b) {}).dropped).length

/-- LANE_SPARE (R373): a lane passes its error threshold: the bundle's spare takes its place, or the bundle is dropped; more than two
dropped in a direction lose the die. -/
def execLaneSpare (d dir bundle : Nat) (s : State) : Host.Outcome State Fault Refusal :=
  .next <|
    let k := bundleKey d dir bundle
    let b := tgetD s.wh.links k {}
    let detail : BitVec 448 := BitVec.ofNat 448 (dir + bundle * 2 ^ 64)
    if !s.wh.live.contains d || decide (2 ≤ dir ∨ 16 ≤ bundle) || b.dropped then s
    else if !b.spared then
      (s.modWh fun w => { w with links := tset w.links k { spared := true, dropped := false, training := true } }).sediment none d 0x20 detail
    else
      let s := (s.modWh fun w => { w with links := tset w.links k { spared := true, dropped := true, training := false } }).sediment none d 0x21 detail
      if 2 < s.wh.droppedIn d dir then s.loseDie d else s

/-- BUNDLE_RETRAIN_COMPLETE (R373). -/
def execBundleRetrainComplete (d dir bundle : Nat) (s : State) : Host.Outcome State Fault Refusal :=
  .next <| match tget s.wh.links (bundleKey d dir bundle) with
  | none => s
  | some b => s.modWh fun w => { w with links := tset w.links (bundleKey d dir bundle) { b with training := false } }

/-- LINK_LEVEL_RETRY (R373): the flit is sent again; nothing is lost, and the error counts for that direction of a live die's link. -/
def execLinkLevelRetry (d dir : Nat) (s : State) : Host.Outcome State Fault Refusal :=
  .next (if !s.wh.live.contains d || decide (2 ≤ dir) then s else s.modWh fun w => { w with flitErr := tmod w.flitErr (2 * d + dir) 0 (· + 1) })

/-- HOST_LINK_RETRAIN (R374): one of the two host links retrains, which is reported through AER. -/
def execHostLinkRetrain (link : Nat) (s : State) : Host.Outcome State Fault Refusal :=
  .next (if 2 ≤ link then s else s.modWh fun w => { w with hostRetrains := tmod w.hostRetrains link 0 (· + 1) })

/-- The requests to a storage address take port `p`. -/
def State.onPort (s : State) (p key : Nat) : Bool := isPeer key && s.linePort key == some p

/-- Whether a request that is outstanding at a port that goes down fails with it (R374). -/
def State.portFails (s : State) (key : Nat) : Bool := Config.freeBool s.tick key

/-- The bytes of a load that are requested through the port, each with its lane's access. -/
def State.portBytes (s : State) (p : Nat) (ld : PLoad) : List (Acc × Nat) :=
  ld.accs.flatMap fun a => if a.zero then [] else ((List.range ld.size).filter fun i => s.onPort p (a.bkey i)).map fun i => (a, i)

/-- A load or atomic outstanding at the port completes, or fails as a poisoned read; where only helper lanes read there, they consume nothing and
read zero (R372). -/
def State.settlePortLoad (s : State) (b : Block) (wi p : Nat) (ld : PLoad) : State :=
  let hit := s.portBytes p ld
  if ld.form == .ldw || ld.vals.isSome || hit.isEmpty then s
  else
    let t := s.perform b.key wi ld.key
    if !s.portFails ld.key then t
    else match hit.find? fun e => !((b.warp wi).lane e.1.lane).isHelper with
      | some (a, i) => s.modLoad b.key wi ld.key fun x =>
          { x with vals := some (ld.accs.map fun a => (a.lane, List.replicate ld.size 0)), pois := some (a.poisAt s.tick i) }
      | none => t.modLoad b.key wi ld.key fun x =>
          { x with vals := x.vals.map fun vs => vs.map fun v => if hit.any fun e => e.1.lane == v.1 then (v.1, List.replicate ld.size 0) else v }

/-- A store outstanding at the port completes, or is one that the peer did not accept. -/
def State.settlePortStore (s : State) (b : Block) (wi p : Nat) (st : PStore) : State :=
  if st.form ≠ .st ∨ !st.bytes.any (fun x => s.onPort p x.key) then s
  else
    let st' : PStore := if s.portFails st.key then { st with bytes := st.bytes.filter fun x => !s.onPort p x.key } else st
    (s.modWarp b.key wi fun w => { w with stores := modWhere (fun x => x.key == st.key) (fun _ => st') w.stores }).ackStore b.key wi st.key

/-- A UALink read of an IORD that is outstanding at the port completes later on another one, or is an I/O engine fault. -/
def State.settlePortIord (s : State) (b : Block) (k p : Nat) (cmd : Cmd) : State :=
  match cmd.kind with
  | .iord _ src _ len tgt =>
    match (if nbits tgt.toNat 30 28 = 1 && s.cmdReady b cmd then s.peerRead tgt src len cmd.iter else .error 0) with
    | .ok a =>
      if (List.range ((iordLen len cmd.iter + 127) / 128)).any (fun i => s.onPort p (a + 128 * i)) && s.portFails cmd.seq then s.engFault b k cmd 0x1B 0
      else s
    | .error _ => s
  | _ => s

/-- The requests that are outstanding at a port that goes down have completed or failed, before its lines move to other ports (R374). -/
def State.settlePort (s : State) (p : Nat) : State :=
  s.blocks.foldl (fun s b =>
    let s := forN b.warps.length (fun i s =>
      (b.warp i).stores.foldl (fun s st => s.settlePortStore b i p st) ((b.warp i).loads.foldl (fun s ld => s.settlePortLoad b i p ld) s)) s
    (mapFrom 0 (fun k e => (k, e)) b.ecs).foldl (fun s e => e.2.cmds.foldl (fun s c => s.settlePortIord b e.1 p c) s) s) s

/-- A change of a UALink port, with its event. A peer that no port reaches is translated no more (R303, R374). -/
def State.setPort (s : State) (p : Nat) (down : Bool) : State :=
  if 16 ≤ p ∨ s.wh.portsDown.getLsbD p = down then s
  else
    let bit := 1#16 <<< p
    let s := if down then s.settlePort p else s
    let s := s.modWh fun w => { w with portsDown := if down then w.portsDown ||| bit else w.portsDown &&& ~~~bit }
    let s := if down then s.mapCores fun k => { k with tcache := k.tcache.filter fun t => !(isPeer t.key && (s.peerPorts (nbits t.key 47 38)).isEmpty) } else s
    s.sediment none (0x20 + p) 0x22 (if down then 0 else 1)

/-- UALINK_PORT_DOWN (R374). -/
def execUalinkPortDown (p : Nat) (s : State) : Host.Outcome State Fault Refusal := .next (s.setPort p true)

/-- UALINK_PORT_UP (R384). -/
def execUalinkPortUp (p : Nat) (s : State) : Host.Outcome State Fault Refusal := .next (s.setPort p false)

end Sys2Proof.Machine
end

