-- ==== Sys2Proof/Machine/IntAlu.lean ====
section
/-! DEFINITION. Integer, move and packed integer instructions of the ALU (R192 to R198). -/

namespace Sys2Proof.Machine

/-! ## Results -/

/-- A field specification (R195): position, extracted width, signed bit. -/
def fieldSpec (b : Word) : Nat × Nat × Bool :=
  let p := nbits b.toNat 7 0
  let w := min (nbits b.toNat 15 8) 32
  (p, if p < 32 then min w (32 - p) else 0, b.getLsbD 16)

def bfeVal (a b : Word) : Word :=
  let (p, w, sg) := fieldSpec b
  if w = 0 then 0
  else
    let f := nbits a.toNat (p + w - 1) p
    if sg && decide (2 ^ (w - 1) ≤ f) then BitVec.ofNat 32 (2 ^ 32 - 2 ^ w + f) else BitVec.ofNat 32 f

def bfiVal (a b c : Word) : Word :=
  let (p, w, _) := fieldSpec b
  if w = 0 then c
  else BitVec.ofNat 32 (c.toNat - nbits c.toNat (p + w - 1) p * 2 ^ p + nbits a.toNat (w - 1) 0 * 2 ^ p)

def popcVal (a : Word) : Nat := ((List.range 32).filter fun i => a.getLsbD i).length
def clzVal (a : Word) : Nat := 32 - bitLen a.toNat
def brevVal (a : Word) : Word := BitVec.ofNat 32 ((List.range 32).foldl (fun v i => v + if a.getLsbD i then 2 ^ (31 - i) else 0) 0)
def iabsVal (a : Word) : Word := if a.msb then -a else a

/-- A shift (R193) of width `n`: counts of the width or more give 0, or the sign in every bit. -/
def shlVal {n : Nat} (a : BitVec n) (k : Nat) : BitVec n := if k < n then a <<< k else 0
def shrVal {n : Nat} (a : BitVec n) (k : Nat) : BitVec n := if k < n then a >>> k else 0
def sarVal {n : Nat} (a : BitVec n) (k : Nat) : BitVec n := if k < n then a.sshiftRight k else (if a.msb then -1 else 0)

/-- Both halves of a 16-bit packed form (R198). -/
def halves (f : BitVec 16 → BitVec 16 → BitVec 16) (a b : Word) : Word :=
  f (a.extractLsb 31 16) (b.extractLsb 31 16) ++ f (a.extractLsb 15 0) (b.extractLsb 15 0)

/-- SatS(x, 16) (R36, R102). -/
def satS16 (x : Int) : BitVec 16 := BitVec.ofInt 16 (max (-32768) (min 32767 x))

/-! ## The shared forms -/

/-- A two-source form with the .64 suffix in SUB[0] (R192). A 64-bit form carries no immediate (R187). -/
def int2 (x : LaneArgs) (s : State) (f : Word → Word → Word) (g : DWord → DWord → DWord) :
    Host.Outcome State Fault Refusal :=
  s.withCx fun c =>
    if x.sub.getLsbD 0 then
      s.laneResult c x true fun l => (g (c.src64 s.tick x.a (·.setWidth 64) l) (c.src64 s.tick x.b (·.setWidth 64) l), 0)
    else s.laneResult c x false fun l => ((f (c.src s.tick x.a l) (c.src s.tick x.b l)).setWidth 64, 0)

/-- A two-source 32-bit form. -/
def int32 (x : LaneArgs) (s : State) (f : Word → Word → Word) : Host.Outcome State Fault Refusal :=
  s.withCx fun c => s.laneResult c x false fun l => ((f (c.src s.tick x.a l) (c.src s.tick x.b l)).setWidth 64, 0)

/-- A one-source 32-bit form (R196). -/
def int1 (x : LaneArgs) (s : State) (f : Word → Word) : Host.Outcome State Fault Refusal :=
  s.withCx fun c => s.laneResult c x false fun l => ((f (c.src s.tick x.a l)).setWidth 64, 0)

/-- A shift (R193): B is read as 32 bits, its low byte is the count. -/
def intShift (x : LaneArgs) (s : State) (f : Word → Nat → Word) (g : DWord → Nat → DWord) : Host.Outcome State Fault Refusal :=
  s.withCx fun c =>
    if x.sub.getLsbD 0 then
      s.laneResult c x true fun l => (g (c.src64 s.tick x.a (·.setWidth 64) l) (nbits (c.src s.tick x.b l).toNat 7 0), 0)
    else s.laneResult c x false fun l => ((f (c.src s.tick x.a l) (nbits (c.src s.tick x.b l).toNat 7 0)).setWidth 64, 0)

/-! ## Meanings -/

/-- R192: a + b modulo 2^n. -/
def execIadd (x : LaneArgs) (s : State) : Host.Outcome State Fault Refusal := int2 x s (· + ·) (· + ·)

/-- R192: a − b modulo 2^n. -/
def execIsub (x : LaneArgs) (s : State) : Host.Outcome State Fault Refusal := int2 x s (· - ·) (· - ·)

/-- R192: bits [31:0] of the product. -/
def execImul (x : LaneArgs) (s : State) : Host.Outcome State Fault Refusal := int32 x s (· * ·)

/-- R192: bits [63:32] of the signed product. -/
def execImulh (x : LaneArgs) (s : State) : Host.Outcome State Fault Refusal := int32 x s fun a b => ((a.signExtend 64 * b.signExtend 64) >>> 32).setWidth 32

/-- R192: bits [63:32] of the unsigned product. -/
def execUmulh (x : LaneArgs) (s : State) : Host.Outcome State Fault Refusal := int32 x s fun a b => ((a.setWidth 64 * b.setWidth 64) >>> 32).setWidth 32

/-- R194: a × b + c of 32 bits, or of 64 bits unsigned or signed with C a pair. -/
def execImad (x : LaneArgs) (s : State) : Host.Outcome State Fault Refusal :=
  s.withCx fun c =>
    match (x.sub.setWidth 2).toNat with
    | 0 => s.laneResult c x false fun l => ((c.src s.tick x.a l * c.src s.tick x.b l + c.src s.tick x.c l).setWidth 64, 0)
    | 1 => s.laneResult c x true fun l => ((c.src s.tick x.a l).setWidth 64 * (c.src s.tick x.b l).setWidth 64
        + c.src64 s.tick x.c (·.setWidth 64) l, 0)
    | _ => s.laneResult c x true fun l => ((c.src s.tick x.a l).signExtend 64 * (c.src s.tick x.b l).signExtend 64
        + c.src64 s.tick x.c (·.setWidth 64) l, 0)

/-- R192: the signed minimum. -/
def execImin (x : LaneArgs) (s : State) : Host.Outcome State Fault Refusal := int2 x s (fun a b => if b.slt a then b else a) (fun a b => if b.slt a then b else a)

/-- R192: the signed maximum. -/
def execImax (x : LaneArgs) (s : State) : Host.Outcome State Fault Refusal := int2 x s (fun a b => if a.slt b then b else a) (fun a b => if a.slt b then b else a)

/-- R192: the unsigned minimum. -/
def execUmin (x : LaneArgs) (s : State) : Host.Outcome State Fault Refusal := int2 x s (fun a b => if b.ult a then b else a) (fun a b => if b.ult a then b else a)

/-- R192: the unsigned maximum. -/
def execUmax (x : LaneArgs) (s : State) : Host.Outcome State Fault Refusal := int2 x s (fun a b => if a.ult b then b else a) (fun a b => if a.ult b then b else a)

/-- R196: the magnitude modulo 2^32. -/
def execIabs (x : LaneArgs) (s : State) : Host.Outcome State Fault Refusal := int1 x s iabsVal

/-- R192: bitwise AND. -/
def execAndI (x : LaneArgs) (s : State) : Host.Outcome State Fault Refusal := int2 x s (· &&& ·) (· &&& ·)

/-- R192: bitwise OR. -/
def execOrI (x : LaneArgs) (s : State) : Host.Outcome State Fault Refusal := int2 x s (· ||| ·) (· ||| ·)

/-- R192: bitwise XOR. -/
def execXorI (x : LaneArgs) (s : State) : Host.Outcome State Fault Refusal := int2 x s (· ^^^ ·) (· ^^^ ·)

/-- R192: a and not b. -/
def execAndn (x : LaneArgs) (s : State) : Host.Outcome State Fault Refusal := int2 x s (fun a b => a &&& ~~~b) (fun a b => a &&& ~~~b)

/-- R193: shift left. -/
def execShl (x : LaneArgs) (s : State) : Host.Outcome State Fault Refusal := intShift x s shlVal shlVal

/-- R193: shift right with zero fill. -/
def execShr (x : LaneArgs) (s : State) : Host.Outcome State Fault Refusal := intShift x s shrVal shrVal

/-- R193: shift right with the sign. -/
def execSar (x : LaneArgs) (s : State) : Host.Outcome State Fault Refusal := intShift x s sarVal sarVal

/-- R195: a bit field extracted. -/
def execBfe (x : LaneArgs) (s : State) : Host.Outcome State Fault Refusal := int32 x s bfeVal

/-- R195: a bit field inserted into C. -/
def execBfi (x : LaneArgs) (s : State) : Host.Outcome State Fault Refusal :=
  s.withCx fun c => s.laneResult c x false fun l =>
    ((bfiVal (c.src s.tick x.a l) (c.src s.tick x.b l) (c.src s.tick x.c l)).setWidth 64, 0)

/-- R196: the number of set bits. -/
def execPopc (x : LaneArgs) (s : State) : Host.Outcome State Fault Refusal := int1 x s fun a => BitVec.ofNat 32 (popcVal a)

/-- R196: the number of leading zero bits. -/
def execClz (x : LaneArgs) (s : State) : Host.Outcome State Fault Refusal := int1 x s fun a => BitVec.ofNat 32 (clzVal a)

/-- R196: the bits in reverse order. -/
def execBrev (x : LaneArgs) (s : State) : Host.Outcome State Fault Refusal := int1 x s brevVal

/-- R197: a where the predicate of SUB[7:4] is set, b elsewhere. -/
def execSel (x : LaneArgs) (s : State) : Host.Outcome State Fault Refusal :=
  s.withCx fun c =>
    let n := nbits x.sub.toNat 7 4
    if x.sub.getLsbD 0 then
      s.laneResult c x true fun l => (if c.p s.tick l n then c.src64 s.tick x.a (·.setWidth 64) l else c.src64 s.tick x.b (·.setWidth 64) l, 0)
    else s.laneResult c x false fun l => ((if c.p s.tick l n then c.src s.tick x.a l else c.src s.tick x.b l).setWidth 64, 0)

/-- R197: a copy of A; with SD the value of the lowest guarded lane. -/
def execMov (x : LaneArgs) (s : State) : Host.Outcome State Fault Refusal :=
  s.withCx fun c =>
    if x.sub.getLsbD 0 then s.laneResult c x true fun l => (c.src64 s.tick x.a (·.setWidth 64) l, 0)
    else s.laneResult c x false fun l => ((c.src s.tick x.a l).setWidth 64, 0)

/-- R197: the 14-bit immediate sign-extended. -/
def execMovi (x : MoviArgs) (s : State) : Host.Outcome State Fault Refusal :=
  s.withCx fun c =>
    s.laneResult c { g := x.g, n := x.n, sd := x.sd, d := x.d, a := .zero, b := .zero, c := .zero, rnd := 0, neg := 0, abs := 0, sub := 0,
                     cont := false } false fun _ => ((x.imm.signExtend 32).setWidth 64, 0)

/-- R198: each half a + b. -/
def execIadd2 (x : LaneArgs) (s : State) : Host.Outcome State Fault Refusal := int32 x s (halves (· + ·))

/-- R198: each half a − b. -/
def execIsub2 (x : LaneArgs) (s : State) : Host.Outcome State Fault Refusal := int32 x s (halves (· - ·))

/-- R198: the signed minimum of each half. -/
def execImin2 (x : LaneArgs) (s : State) : Host.Outcome State Fault Refusal := int32 x s (halves fun a b => if b.slt a then b else a)

/-- R198: the signed maximum of each half. -/
def execImax2 (x : LaneArgs) (s : State) : Host.Outcome State Fault Refusal := int32 x s (halves fun a b => if a.slt b then b else a)

/-- R198: each half a + b, saturated. -/
def execIadds2 (x : LaneArgs) (s : State) : Host.Outcome State Fault Refusal := int32 x s (halves fun a b => satS16 (a.toInt + b.toInt))

/-- R198: each half a − b, saturated. -/
def execIsubs2 (x : LaneArgs) (s : State) : Host.Outcome State Fault Refusal := int32 x s (halves fun a b => satS16 (a.toInt - b.toInt))

end Sys2Proof.Machine
end

