-- ==== Sys2Proof/Machine/Regs.lean ====
section
/-! DEFINITION. The registers of host space (R326 to R336, R343, R306, R307, R375, R379, R381, R384, R385): what a host reads of each, and
REGISTER_WRITE. -/

namespace Sys2Proof.Machine

/-! ## What is read (32-bit words) -/

def b2n (b : Bool) : Nat := if b then 1 else 0

/-- Word `i` of a value of many words. -/
def wordOf (v i : Nat) : Nat := nbits v (32 * i + 31) (32 * i)

/-- Four bytes of a table of bytes. -/
def tabWord (t : Tab (BitVec 8)) (o : Nat) : Nat := leNat ((List.range 4).map fun i => tgetD t (o + i) 0xFF)

/-- WH_DIESTAT (R375). -/
def Wellhead.diestat (w : Wellhead) : Nat :=
  w.dielost.toNat + 2 ^ 8 * maskNat (fun d => decide (0 < w.droppedIn d 0 + w.droppedIn d 1)) (List.range 8)

/-- WH_PWRST (R336). -/
def Wellhead.pwrWord (w : Wellhead) : Nat := ((List.range 8).map fun d => (tgetD w.pwrst d 0).toNat * 4 ^ d).sum

/-- The Wellhead configuration block. -/
def State.whWord (s : State) (o : Nat) : Nat :=
  let w := s.wh
  if 0x100 ≤ o ∧ o < 0x130 then tabWord w.partmap (o - 0x100)
  else if 0x200 ≤ o ∧ o < 0x230 then tabWord w.partnew (o - 0x200)
  else if 0x380 ≤ o ∧ o < 0x3E0 then wordOf w.signature ((o - 0x380) / 4)
  else match o with
    | 0x000 => w.readyWord
    | 0x008 => w.memok.toNat
    | 0x040 => w.livecfg
    | 0x048 => w.diestat
    | 0x080 => w.partst.toNat * 2 ^ 28
    | 0x090 => w.lim.toNat
    | 0x098 => w.pwrWord
    | 0x300 => wordOf w.newest 0
    | 0x304 => wordOf w.newest 1
    | 0x310 => b2n w.sigDone * 2 ^ 30
    | _ => 0

/-- A place table as one value (R135). -/
def Place.bits (p : Place) : Nat :=
  p.slotmap.toNat + p.diemap.toNat * 2 ^ 32 + ((mapFrom 0 (fun i v => v.toNat * 2 ^ (512 + 32 * i)) p.stgt).sum)

/-- A breakpoint register (R307). -/
def Brk.bits (b : Brk) : Nat :=
  b.addr.toNat + b2n b.en * 2 ^ 64 + b2n b.psense * 2 ^ 91 + b.pred.toNat * 2 ^ 92 + b.lmask.toNat * 2 ^ 96

/-- CTX_CTL (R327). PRE reads as it was last written, while a pre-emption that was cleared too early still completes (R328). -/
def Ctx.ctl (x : Ctx) : Nat :=
  b2n x.en * 2 ^ 31 + b2n (x.pre && !x.clearPending) * 2 ^ 30 + b2n x.plw * 2 ^ 29 + b2n x.saved * 2 ^ 28 + x.fn.toNat * 2 ^ 16 + x.part.toNat

/-- CTX_TRAPCTL (R343). -/
def Ctx.trapctl (x : Ctx) : Nat := b2n x.hen * 2 ^ 31 + b2n x.irq * 2 ^ 30 + x.hmax.toNat * 2 ^ 20 + x.hspad.toNat * 2 ^ 8

/-- DBG_CTL (R306). -/
def Ctx.dbgctl (x : Ctx) : Nat := x.sndk.toNat * 2 ^ 24 + b2n x.haltb * 8 + b2n x.trc * 4 + b2n x.recm * 2 + b2n x.att

/-- A context page (R327, R77, R123, R343, R379, R306, R307, R381). -/
def Ctx.word (x : Ctx) (o : Nat) : Nat :=
  if 0x840 ≤ o ∧ o < 0x940 then wordOf (tgetD x.bps ((o - 0x840) / 16) {}).bits ((o - 0x840) % 16 / 4)
  else match o with
    | 0x00 => x.sched.toNat
    | 0x08 => wordOf x.deadline.toNat 0
    | 0x0C => wordOf x.deadline.toNat 1
    | 0x10 => wordOf x.root.toNat 0
    | 0x14 => wordOf x.root.toNat 1
    | 0x18 => wordOf x.tlrb.toNat 0
    | 0x1C => wordOf x.tlrb.toNat 1
    | 0x20 => wordOf x.stowb.toNat 0
    | 0x24 => wordOf x.stowb.toNat 1
    | 0x28 => x.stowsz.toNat
    | 0x30 => x.ctl
    | 0x38 => wordOf x.trapq.toNat 0
    | 0x3C => wordOf x.trapq.toNat 1
    | 0x40 => x.trapctl
    | 0x48 => wordOf x.hcode.toNat 0
    | 0x4C => wordOf x.hcode.toNat 1
    | 0x50 => x.head.toNat
    | 0x54 => x.tail.toNat
    | 0x60 => x.wdms.toNat
    | 0x68 => x.stowsh.toNat
    | 0x800 => x.dbgctl
    | 0x808 => wordOf x.sndbase.toNat 0
    | 0x80C => wordOf x.sndbase.toNat 1
    | 0x810 => wordOf x.recbase.toNat 0
    | 0x814 => wordOf x.recbase.toNat 1
    | 0x818 => wordOf x.trcbase.toNat 0
    | 0x81C => wordOf x.trcbase.toNat 1
    | 0x820 => x.trcsz.toNat
    | 0x828 => b2n x.stopr * 2 + b2n x.ren
    | 0x830 => x.recsz.toNat
    | 0x838 => x.recsh.toNat
    | _ => 0

/-- A work queue descriptor (R329). -/
def WQueue.bits (q : WQueue) : Nat :=
  q.logsz.toNat + q.prio.toNat * 2 ^ 8 + q.base.toNat * 2 ^ 12 + b2n q.en * 2 ^ 65 + q.ctx.toNat * 2 ^ 66 + q.head.toNat * 2 ^ 128
    + q.tail.toNat * 2 ^ 160

/-- Entry `i` of the sediment ring: the newest whose number is `i` modulo 512. -/
def State.sedimentBytes (s : State) (i : Nat) : List Byte :=
  let n := s.wh.newest
  let seq := n - (n + 512 - i) % 512
  match (if n % 512 < i ∧ n < 512 then none else s.wh.sediment[seq]?) with
  | some e => e.bytes seq ++ s.wh.chain seq
  | none => List.replicate 128 0

/-- The cell of a configuration block is on a die that is retired, or lost (R326). -/
def State.cellGone (s : State) (cell : Nat) : Bool := s.wh.gone (cell / 6)

/-- A 32-bit word of a PF's BAR0 (R326). -/
def State.barWord (s : State) (o : Nat) : Nat :=
  if o < 0x1000 then s.whWord o
  else if 0x10000 ≤ o ∧ o < 0x40000 then
    let cell := (o - 0x10000) / 4096
    if s.cellGone cell || decide (128 ≤ o % 4096) then 0 else wordOf (s.place cell).bits (o % 4096 / 4)
  else if 0x80000 ≤ o ∧ o < 0x90000 then leNat (((s.sedimentBytes ((o - 0x80000) / 128)).drop (o % 128)).take 4)
  else if 0x100000 ≤ o ∧ o < 0x104000 then wordOf (tgetD s.nvme ((o - 0x100000) / 64) 0).toNat (o % 64 / 4)
  else if 0x120000 ≤ o ∧ o < 0x124000 then wordOf (tgetD s.peers ((o - 0x120000) / 16) 0).toNat (o % 16 / 4)
  else if 0x1000000 ≤ o ∧ o < 0x1400000 then (s.ctx ((o - 0x1000000) / 4096)).word (o % 4096)
  else if 0x2000000 ≤ o ∧ o < 0x2080000 then wordOf (s.queue ((o - 0x2000000) / 64)).bits (o % 64 / 4)
  else 0

/-! ## What a VF sees (R326, R328) -/

/-- The contexts of a VF, ascending. -/
def State.vfCtxs (s : State) (v : Nat) : List Nat := (List.range Config.contexts).filter fun c => (s.ctx c).fn.toNat == v + 1

/-- The queues of a VF, ascending. -/
def State.vfQueues (s : State) (v : Nat) : List Nat :=
  (List.range Config.queues).filter fun q => (s.ctx (s.queue q).ctx.toNat).fn.toNat == v + 1

/-- The PF offset behind an offset of a VF's BAR0. -/
def State.vfOff (s : State) (v o : Nat) : Option Nat :=
  if o < 0x80000 then ((s.vfCtxs v)[o / 4096]?).map fun c => 0x1000000 + 4096 * c + o % 4096
  else if o < 0x100000 then ((s.vfQueues v)[(o - 0x80000) / 64]?).map fun q => 0x2000000 + 64 * q + o % 64
  else none

/-! ## What is written -/

/-- Word `i` of a value replaced. -/
def putWord (v i w : Nat) : Nat := v - wordOf v i * 2 ^ (32 * i) + w % 2 ^ 32 * 2 ^ (32 * i)

def put64 (x : DWord) (i v : Nat) : DWord := BitVec.ofNat 64 (putWord x.toNat i v)

/-- A write of the Wellhead block: the word `v`, of which the bytes of `en` are written. -/
def State.setWh (s : State) (o v : Nat) : State :=
  if 0x200 ≤ o ∧ o < 0x230 then
    s.modWh fun w => { w with partnew := (List.range 4).foldl (fun t i => tset t (o - 0x200 + i) (BitVec.ofNat 8 (v / 256 ^ i))) w.partnew }
  else match o with
    | 0x080 =>
      if nbits v 31 31 = 0 then s else if nbits v 30 30 = 1 then s.goForce else s.goPlain
    | 0x090 => s.modWh fun w => { w with lim := BitVec.ofNat 12 (max 1000 (min 2800 (v % 4096))) }
    | 0x310 => if nbits v 31 31 = 1 then s.sign else s
    | _ => s

/-- A place table with word `i` written. -/
def Place.setWord (p : Place) (i v : Nat) : Place :=
  if i = 0 then { p with slotmap := BitVec.ofNat 28 v }
  else if i = 1 then { p with diemap := BitVec.ofNat 32 v }
  else if 16 ≤ i then { p with stgt := p.stgt.set (i - 16) (BitVec.ofNat 32 v) }
  else p

/-- The writable bits of an NVMe entry (R333) and of a peer entry (R334), by word. -/
def nvmeMask (i : Nat) : Nat :=
  match i with
  | 4 => 0xFFFFFFFF
  | 5 => 0xFFFFF
  | 6 => 0xFFFFFFFF
  | 7 => 0xFFFFF
  | 8 => 0xFFFF
  | 9 => 0xFFFFFFFF
  | 10 => 1
  | 15 => 0x80000000
  | n => if n < 4 then 0xFFFFFFFF else 0

def peerMask (i : Nat) : Nat :=
  match i with
  | 0 => 0xFFFFFFFF
  | 1 => 0x7F
  | 3 => 0x800003FF
  | _ => 0

/-- A write of CTX_CTL (R327, R328). Only a PF writes FN, PART and PLW. -/
def State.setCtl (s : State) (c v : Nat) (pf : Bool) : State :=
  let old := s.ctx c
  let s := if pf then s.modCtx c fun x =>
      { x with fn := if nbits v 23 16 ≤ 193 then BitVec.ofNat 8 (nbits v 23 16) else x.fn, part := BitVec.ofNat 6 v, plw := decide (nbits v 29 29 = 1) }
    else s
  let s := if nbits v 31 31 = 1 then (if old.en then s else s.enable c) else if old.en then s.disable c else s
  if nbits v 30 30 = 1 then s.holdPre c else if old.pre then s.unpreempt c else s

/-- A write of DBG_CTL (R306, R309, R315, R317). -/
def State.setDbg (s : State) (c v : Nat) : State :=
  let old := s.ctx c
  let s := if old.att && nbits v 0 0 == 0 then s.detach c else s
  s.modCtx c fun x =>
    { x with sndk := BitVec.ofNat 8 (nbits v 31 24), haltb := decide (nbits v 3 3 = 1), trc := decide (nbits v 2 2 = 1),
             recm := decide (nbits v 1 1 = 1), att := decide (nbits v 0 0 = 1),
             trace := if nbits v 2 2 = 1 ∧ !old.trc then {} else x.trace }

/-- A breakpoint register with word `i` written. -/
def Brk.setWord (b : Brk) (i v : Nat) : Brk :=
  match i with
  | 0 => { b with addr := put64 b.addr 0 (v / 4 * 4) }
  | 1 => { b with addr := put64 b.addr 1 v }
  | 2 => { b with en := decide (nbits v 0 0 = 1), psense := decide (nbits v 27 27 = 1), pred := BitVec.ofNat 4 (nbits v 31 28) }
  | _ => { b with lmask := BitVec.ofNat 32 v }

/-- A write of a context page. -/
def State.setCtxWord (s : State) (c o v : Nat) (pf : Bool) : State :=
  let put (f : Ctx → Ctx) : State := s.modCtx c f
  if 0x840 ≤ o ∧ o < 0x940 then
    put fun x => { x with bps := tmod x.bps ((o - 0x840) / 16) {} fun b => b.setWord ((o - 0x840) % 16 / 4) v }
  else match o with
    | 0x00 => put fun x => { x with sched := BitVec.ofNat 32 (v / 256 * 256) }
    | 0x08 => put fun x => { x with deadline := put64 x.deadline 0 v }
    | 0x0C => put fun x => { x with deadline := put64 x.deadline 1 v }
    | 0x10 => put fun x => { x with root := put64 x.root 0 v }
    | 0x14 => put fun x => { x with root := put64 x.root 1 (v % 2 ^ 25) }
    | 0x18 => put fun x => { x with tlrb := put64 x.tlrb 0 (v / 2 ^ 14 * 2 ^ 14) }
    | 0x1C => put fun x => { x with tlrb := put64 x.tlrb 1 (v % 2 ^ 20) }
    | 0x20 => put fun x => { x with stowb := put64 x.stowb 0 v }
    | 0x24 => put fun x => { x with stowb := put64 x.stowb 1 v }
    | 0x28 => put fun x => { x with stowsz := BitVec.ofNat 32 v }
    | 0x30 => s.setCtl c v pf
    | 0x38 => put fun x => { x with trapq := put64 x.trapq 0 (v / 65536 * 65536 + v % 16), ringFault := false }
    | 0x3C => put fun x => { x with trapq := put64 x.trapq 1 v, ringFault := false }
    | 0x40 => put fun x => { x.setTrapctl v with ringFault := false }
    | 0x48 => put fun x => { x with hcode := put64 x.hcode 0 v }
    | 0x4C => put fun x => { x with hcode := put64 x.hcode 1 v }
    | 0x58 => (s.retire c (BitVec.ofNat 32 v)).wakeAll
    | 0x60 => put fun x => { x with wdms := BitVec.ofNat 16 v }
    | 0x68 => put fun x => { x with stowsh := BitVec.ofNat 16 v }
    | 0x800 => s.setDbg c v
    | 0x808 => put fun x => { x with sndbase := put64 x.sndbase 0 v }
    | 0x80C => put fun x => { x with sndbase := put64 x.sndbase 1 v }
    | 0x810 => put fun x => { x with recbase := put64 x.recbase 0 v }
    | 0x814 => put fun x => { x with recbase := put64 x.recbase 1 v }
    | 0x818 => put fun x => { x with trcbase := put64 x.trcbase 0 v }
    | 0x81C => put fun x => { x with trcbase := put64 x.trcbase 1 v }
    | 0x820 => put fun x => { x with trcsz := BitVec.ofNat 32 v }
    | 0x828 => put fun x => { x with stopr := decide (nbits v 1 1 = 1), ren := decide (nbits v 0 0 = 1) }
    | 0x830 => put fun x => { x with recsz := BitVec.ofNat 32 v }
    | 0x838 => put fun x => { x with recsh := BitVec.ofNat 16 v }
    | _ => s

/-- A work queue descriptor with word `i` written (R329). HEAD is read-only. A smaller ring may be overrun by what it holds. -/
def WQueue.setWord (q : WQueue) (i v : Nat) : WQueue :=
  match i with
  | 0 => { q with logsz := BitVec.ofNat 4 v, prio := BitVec.ofNat 4 (nbits v 11 8),
                  base := BitVec.ofNat 52 (q.base.toNat / 2 ^ 20 * 2 ^ 20 + nbits v 31 12) }.test
  | 1 => { q with base := BitVec.ofNat 52 (q.base.toNat % 2 ^ 20 + v % 2 ^ 32 * 2 ^ 20) }
  | 2 => { q with en := decide (nbits v 1 1 = 1), ctx := BitVec.ofNat 10 (nbits v 11 2) }
  | 5 => q.setTail (BitVec.ofNat 32 v)
  | _ => q

/-- A write of a 32-bit word of BAR0. -/
def State.setBar (s : State) (o v : Nat) (pf : Bool) : State :=
  if o < 0x1000 then s.setWh o v
  else if 0x10000 ≤ o ∧ o < 0x40000 then
    let cell := (o - 0x10000) / 4096
    if s.cellGone cell || decide (128 ≤ o % 4096) then s else s.modPlace cell fun p => p.setWord (o % 4096 / 4) v
  else if 0x100000 ≤ o ∧ o < 0x104000 then
    { s with nvme := tmod s.nvme ((o - 0x100000) / 64) 0 fun e => BitVec.ofNat 512 (putWord e.toNat (o % 64 / 4) (v &&& nvmeMask (o % 64 / 4))) }
  else if 0x120000 ≤ o ∧ o < 0x124000 then
    { s with peers := tmod s.peers ((o - 0x120000) / 16) 0 fun e => BitVec.ofNat 128 (putWord e.toNat (o % 16 / 4) (v &&& peerMask (o % 16 / 4))) }
  else if 0x1000000 ≤ o ∧ o < 0x1400000 then s.setCtxWord ((o - 0x1000000) / 4096) (o % 4096) v pf
  else if 0x2000000 ≤ o ∧ o < 0x2080000 then s.modQueue ((o - 0x2000000) / 64) fun q => q.setWord (o % 64 / 4) v
  else s

/-- A bit that is only written reads as zero, so a write that leaves out its byte does not set it. -/
def State.writeWord (s : State) (o v en : Nat) (pf : Bool) : State := s.setBar o ((s.barWord o &&& (2 ^ 32 - 1 - en)) ||| (v &&& en)) pf

/-- REGISTER_WRITE (R326): `size` bytes at an offset of a PF's BAR0, or, above 2^26·(v + 1), of the BAR0 of VF v, one of 192 (R12). -/
def execRegisterWrite (off size v : Nat) (s : State) : Host.Outcome State Fault Refusal :=
  let vf := off / 2 ^ 26
  let o := off % 2 ^ 26
  let n := min size 64
  let val := v % 256 ^ n * 256 ^ (o % 4)
  let ens := (256 ^ n - 1) * 256 ^ (o % 4)
  .next <| forN ((o % 4 + n + 3) / 4) (fun i s =>
    let at_ := o / 4 * 4 + 4 * i
    if Config.vfs < vf then s
    else if vf = 0 then s.writeWord at_ (wordOf val i) (wordOf ens i) true
    else match s.vfOff (vf - 1) at_ with
      | some p => s.writeWord p (wordOf val i) (wordOf ens i) false
      | none => s) s

end Sys2Proof.Machine
end

