-- ==== Sys2Proof/Machine/Issue.lean ====
section
/-! DEFINITION. Issuing a clause (R41, R171, R172, R183, R184, R307, R310, R311, R314, R356, R372), and what follows each of its words
(R41, R81, R82, R210). -/

namespace Sys2Proof.Machine

/-- The instruction at the word in flight. -/
def InFlight.instr (f : InFlight) : Option Instr := (instrAt f.cls f.ext f.words f.idx).map (·.1)

/-! ## Registers that an instruction reads and writes (R372) -/

/-- A register: S registers where the first component is true. -/
abbrev RegRef := Bool × Nat

def regRun (s : Bool) (r n : Nat) : List RegRef := (List.range n).map fun i => (s, r + i)

/-- The registers of an operand of `n` words. -/
def Src.refs (x : Src) (n : Nat) : List RegRef :=
  match x with
  | .v r => regRun false r.toNat n
  | .s r => regRun true r.toNat n
  | _ => []

/-- The cause of a decode trap (R339). -/
def causeOf (e : DecodeError) : Nat :=
  match e with
  | .illegalClause => 0x01
  | .illegalInstruction => 0x02
  | .illegalOperand => 0x03

def two (b : Bool) : Nat := if b then 2 else 1

def opkWords (k : Opk) : Nat :=
  match k with
  | .sPair => 2
  | .vPair => 2
  | _ => 1

/-- What a MEM form reads: its base, and the data of stores, atomics and L1INV. -/
def memRefs (op : Nat) (x : MemArgs) : List RegRef :=
  let n := (2 ^ x.size.toNat + 3) / 4
  (if op = 6 then [] else Src.refs x.adr (two (decide (op ≠ 2 ∧ op ≠ 3 ∧ op ≠ 5))))
    ++ (match op with
        | 1 => regRun false x.dat.toNat n
        | 3 => regRun false x.dat.toNat n
        | 10 => regRun false x.dat.toNat n
        | 4 => regRun false x.dat.toNat (if x.aop = 10 then 2 * n else n)
        | 5 => regRun false x.dat.toNat (if x.aop = 10 then 2 * n else n)
        | 8 => regRun false x.dat.toNat 1
        | _ => [])

/-- What an ENG or SYS form reads. RREAD's O2 and RCALL's O4 are written, not read; RCALL's O3 names all its arguments, MMA's O4 all
its scales. -/
def engRefs (c : Cls) (op : Nat) (x : EngArgs) : List RegRef :=
  match engSpecOf c op x with
  | none => []
  | some sp =>
    let eng := decide (c = .eng)
    Src.refs x.o1 (opkWords sp.o1)
      ++ (if eng && op == 0x10 then [] else Src.refs x.o2 (opkWords sp.o2))
      ++ Src.refs x.o3 (if eng && op == 0x0F then 2 * (x.dimm.toNat / 64 % 8) else opkWords sp.o3)
      ++ (if eng && op == 0x0F then []
          else if eng && op == 0x07 then Src.refs x.o4 (((x.dimm.toNat / 256 % 16 + 1) * (16 * 2 ^ (x.dimm.toNat % 4)) - 1) / 128 + 1)
          else Src.refs x.o4 (opkWords (engO4Of c op)))

/-- The registers that an instruction reads. -/
def instrReads (i : Instr) : List RegRef :=
  match i.parts with
  | .lane c op x => match laneSpec c op x.sub with
    | none => []
    | some sp =>
      (if sp.useA && !sp.predA then Src.refs x.a (two (sp.pairs.getLsbD 2)) else [])
        ++ (if sp.useB && !sp.predB then Src.refs x.b (two (sp.pairs.getLsbD 1)) else [])
        ++ (if sp.useC then Src.refs x.c (two (sp.pairs.getLsbD 0)) else [])
  | .movi _ => []
  | .mem op x => memRefs op x
  | .eng c op x => engRefs c op x
  | .ctl _ _ _ _ => match i with
    | .jmpi _ a => Src.refs a 1
    | .csw _ a => Src.refs a 2
    | .twait _ _ n => Src.refs n 2
    | .waitw x => Src.refs x.adr 2 ++ Src.refs x.val (two x.w64)
    | _ => []
  | .event => []

/-- The registers that a lane-class instruction writes. -/
def instrWrites (i : Instr) : List RegRef :=
  match i.parts with
  | .lane c op x => match laneSpec c op x.sub with
    | none => []
    | some sp => match sp.dst with
      | .w32 => if x.n then [] else regRun x.sd x.d.toNat 1
      | .w64 => if x.n then [] else regRun x.sd x.d.toNat 2
      | _ => []
  | .movi x => if x.n then [] else regRun x.sd x.d.toNat 1
  | _ => []

/-- What the words of a clause from index `i` on read before one of them writes it. -/
def clauseReads (cls : Cls) (ext : BitVec 15) (ws : List Word) (i : Nat) : List RegRef :=
  let is := ((List.range ws.length).filter fun j => decide (i ≤ j) && !ext.getLsbD j).filterMap fun j => (instrAt cls ext ws j).map (·.1)
  (is.foldl (fun (p : List RegRef × List RegRef) x =>
    (p.1 ++ (instrReads x).filter (fun r => !p.2.contains r), p.2 ++ instrWrites x)) ([], [])).1

/-- A poisoned register of a list: its lane, 32 for an S register, and its number. Helper lanes consume nothing. -/
def Warp.poisonIn (w : Warp) (m : Mask) (refs : List RegRef) : Option (Nat × Nat) :=
  refs.findSome? fun r =>
    if r.1 then (if w.sPois.contains r.2 then some (32, r.2) else none)
    else ((m &&& ~~~w.helpers).list.find? fun l => (w.lane l).vPois.contains r.2).map fun l => (l, r.2)

/-! ## Window stores seen at the clause start (R140, R310) -/

/-- A store met a load outstanding on its register, which is not done yet. -/
def Warp.busyReg (w : Warp) (e : WStore) : Bool := e.undef && w.loading e.lane e.reg

/-- The poison of a register file after a store: it moves with the bytes, and a register written whole loses its own (R371). -/
def WStore.poisons (e : WStore) (ps : List Nat) : List Nat :=
  if e.pois then insertSorted e.reg ps else if e.full then ps.filter (· ≠ e.reg) else ps

/-- One window store reaches its register, or leaves it undefined. -/
def Warp.applyStore (w : Warp) (tick place : Nat) (e : WStore) : Warp :=
  if e.undef then w.modLane e.lane fun x => { x with v := terase x.v e.reg, vPois := e.poisons x.vPois }
  else if e.lane = 32 then
    let old := (tget w.s e.reg).getD (Config.freeWord tick (place + e.reg))
    { w with s := tset w.s e.reg (putByte old.toNat e.byte e.b), sPois := e.poisons w.sPois }
  else
    let put (x : Lane) : Lane :=
      let old := (tget x.v e.reg).getD (Config.freeWord tick (place + 64 * e.lane + e.reg))
      { x with v := tset x.v e.reg (putByte old.toNat e.byte e.b), vPois := e.poisons x.vPois }
    w.modLane e.lane put

/-- The stores that a starting clause of the warp sees, after any load of the register that was issued later and is done; those that met a load
still outstanding stay (R140). -/
def State.seeStores (s : State) (bk wi : Nat) : State :=
  let w := s.warp bk wi
  let go := w.wstores.filter fun e => !w.busyReg e
  if go.isEmpty then s
  else
    let s := s.modWarp bk wi fun w =>
      { go.foldl (fun x e => x.applyStore s.tick (placeKey bk wi 0 0) e) w with wstores := w.wstores.filter w.busyReg }
    s.log bk (.wstore wi go)

/-! ## Re-execution (R311) -/

def LogEntry.isStore : LogEntry → Bool
  | .wstore _ _ => true
  | _ => false

/-- What the log tells of more than the step that it stands before: the value of a load, and what a register receives late. -/
def LogEntry.lasts : LogEntry → Bool
  | .load _ _ _ => true
  | .regs _ r _ => decide (128 ≤ r)
  | _ => false

def State.setReplay (s : State) (bk : Nat) (r : Option (Nat × Nat × List LogEntry)) : State := s.modRecording bk fun x => { x with replaying := r }

/-- The threads of `m` come to stand with a fragment, as the log tells; they wait in no latch then. -/
def State.seatLogged (s : State) (b : Block) (wi : Nat) (m : Mask) (f : Frag) : State :=
  let k := s.core b.core
  let s := if m.list.any fun l => ((b.warp wi).lane l).wait? == some .gang then
      s.modCore b.core fun k => { k with latches := k.latches.map fun e =>
        if e.2.block = b.key then (e.1, { e.2 with arrivals := e.2.arrivals.filter fun a => decide (a.warp ≠ wi) }) else e }
    else s
  s.seat b wi m (((k.frag? b.key wi f.fnum).map (·.1)).getD (freePast k.frags 64)) f

/-- What the log tells of between two steps happens to a re-executing block. -/
def State.follow (s : State) (bk : Nat) (e : LogEntry) : State :=
  match s.block? bk, e with
  | some _, .frag w true m f => s.modWarp bk w fun x => x.cutAt m f.pc f.widx
  | some b, .frag w false m f => s.seatLogged b w m f
  | some b, .kill w m => (s.exitThreads b w m).settle bk
  | some _, .expire w n m => (s.expire bk w n m).settle bk
  | some _, .cbar j => s.modBlock bk (Block.completeCbar j)
  | some _, .wstore w st => s.modWarp bk w fun x => st.foldl (fun x e => x.applyStore s.tick (placeKey bk w 0 0) e) x
  | _, _ => s

/-- The re-execution has come to its stop: the block is as it was at the last boundary that may be the stop, with what happened to it before its next
step, but for the window stores that its next clause would see, and halted. -/
def State.stopReplay (s : State) (b : Block) (r : Recording) : State :=
  match r.mark with
  | some (cp, es) =>
    let s := (s.reload b true cp).setReplay b.key (r.replaying.map fun p => (p.1, p.2.1, es))
    (((es.takeWhile fun e => !e.acts).filter fun e => !e.isStore).foldl (fun s e => s.follow b.key e) s).setHalt b true
  | none => s

/-- At a clause boundary of the named warp (R311). -/
def State.checkStop (s : State) (bk wi : Nat) : State :=
  match s.block? bk, s.recording? bk with
  | some b, some r => match r.replaying with
    | some (w, n, es) =>
      if w ≠ wi ∨ (b.warp wi).flight.isSome then s
      else if (b.warp wi).wcnt ≤ n then s.modRecording bk fun x => { x with mark := some (s.whole b, es) }
      else s.stopReplay b r
    | none => s
  | _, _ => s

/-- A lane that the log says runs at a place is made to stand there. -/
def Lane.place (x : Lane) (pc : DWord) (i : Nat) : Lane :=
  { x with st := .runnable, pc := pc, widx := i, waitClk := 0, waitWall := 0 }

/-! ## Issuing (R41, R307, R356, R183) -/

/-- Lanes of the group that an enabled breakpoint register stops; none of a replay invocation, which has no fragments (log 120). -/
def State.breakLanes (s : State) (b : Block) (wi : Nat) (g : Group) : Mask :=
  if g.widx ≠ 0 ∨ b.replay.isSome ∨ s.replaying b.key then 0
  else
    let w := b.warp wi
    let hits := (s.ctx b.ctx).bps.filter fun e => e.2.en && e.2.addr == g.pc
    maskOf fun l => g.mask.has l && (w.lane l).isReal && !s.resumedHere b.core b.key wi (w.lane l) g.pc 0 false &&
      hits.any fun e => e.2.lmask.has l &&
        (decide (12 ≤ e.2.pred.toNat) ||
          (tget (w.lane l).p e.2.pred.toNat).getD (Config.freeBool s.tick (placeKey b.key wi l (48 + e.2.pred.toNat))) == e.2.psense)

/-- A lane of a warp whose group `act` issues: its latches are empty (R27), and a thread of another group that could run has been overtaken
once more (R42). -/
def Lane.issue (x : Lane) (mine : Bool) (tick : Nat) (trc : Bool) : Lane :=
  if mine then { x with stamp := some tick, behind := 0, x := {}, traced := trc } else if x.isReal && x.isRunnable then { x with behind := x.behind + 1 } else x

/-- The warp with its clause in flight; the window reads its registers as they are now (R222). -/
def Warp.issue (w : Warp) (f : InFlight) (tick : Nat) (trc : Bool) : Warp :=
  { w with lanes := mapFrom 0 (fun l x => x.issue (f.act.has l) tick trc) w.lanes,
           flight := some { f with boundV := w.lanes.map (·.v), boundS := w.s, boundVPois := w.lanes.map (·.vPois), boundSPois := w.sPois }, sbClk := 0 }

/-- The clause of a group is fetched, decoded and starts; or its fate is taken at word index 0 (R354 to R356, R183), or poison holds the
warp there (R372). -/
def State.startClause (s : State) (b : Block) (wi : Nat) (pc : DWord) (widx : Nat) (act : Mask) : State :=
  let w := s.warp b.key wi
  let real := (act &&& ~~~w.helpers).list
  match s.fetchClause b.core b.ctx b.die pc.toNat with
  | (s, .error (e, va)) =>
    (s.takeTrap b.key wi (maskOf real.contains) act pc 0
      { cause := e, noSkip := true, lcause := real.map fun l => (l, e), lval := real.map fun l => (l, BitVec.ofNat 64 va) }).settle b.key
  | (s, .ok (h, ws)) => match clauseError h ws with
    | some (e, i) =>
      (s.takeTrap b.key wi (maskOf real.contains) act pc 0
        { cause := causeOf e, kind := 1, word := i, noSkip := true, lcause := real.map fun l => (l, causeOf e) }).settle b.key
    | none => match Cls.ofBits (Header.ofWord h).cls with
      | none => s
      | some cls =>
        let hd := Header.ofWord h
        let lane := decide (cls = .alu ∨ cls = .xln ∨ cls = .sfu)
        match (if lane && !s.replaying b.key then w.poisonIn act (clauseReads cls hd.ext ws widx) else none) with
        | some (l, r) => s.consume b.key wi act pc 0 3 (regWindow b w l r) (maskOf real.contains)
        | none =>
          let s := (w.fragsOf act).foldl (fun s f => s.emit b wi f pc (clausePacket wi f hd.nw)) s
          let f : InFlight := { pc := pc, cls := cls, ext := hd.ext, words := ws, idx := widx, act := act, yld := hd.yld }
          let s := s.modWarp b.key wi fun w => w.issue f s.tick b.dbg.trc
          (s.modBlock b.key fun y => { y with replay := y.replay.map fun v => { v with clauses := v.clauses + 1 } }).log b.key (.issue wi act pc widx)

/-- A group of a warp issues: lanes that a breakpoint stops park first, the others start the clause. -/
def State.issueGroup (s : State) (b : Block) (wi : Nat) (g : Group) : State :=
  let s := s.seeStores b.key wi
  let stop := s.breakLanes b wi g
  if stop.none then s.startClause b wi g.pc g.widx g.mask
  else
    let s := (((s.takeTrap b.key wi stop g.mask g.pc 0 { cause := 0x09, dbg := true }).settle b.key).haltStop b wi stop)
    let w := s.warp b.key wi
    let left := g.mask &&& w.maskWhere fun x => x.isRunnable && x.pc == g.pc && x.widx == g.widx
    if decide (w.held ≠ []) || (left &&& ~~~w.helpers).none then s
    else match s.block? b.key with
      | some b => s.startClause b wi g.pc g.widx left
      | none => s

/-- The threads of `m` that wait in an RREAD enter its method, as the log had them do before they issued. -/
def State.enterLogged (s : State) (b : Block) (wi : Nat) (m : Mask) : State :=
  ((m.list.filterMap fun l => ((s.warp b.key wi).lane l).wait?).eraseDups).foldl (fun s t => match t with
    | .rread _ _ entry _ k sd => s.rreadReplay b wi (maskOf fun l => ((s.warp b.key wi).lane l).wait? == some t) entry k sd true
    | _ => s) s

/-- The issue that the log of a re-executing block tells of next, once its clause may start, with what happened before it; where the log and the
last clauses are at their end, the block stands in its present. A word that no clause is left to run is passed. -/
def State.issueLogged (s : State) (b : Block) (wi w n : Nat) (es : List LogEntry) : State :=
  match es.span fun e => !e.acts with
  | (_, []) => if b.between then (s.toPresent b.key).setHalt b true else s
  | (pre, .issue v m pc i :: rest) =>
    if v ≠ wi || !s.mayStart b (b.warp wi) { pc := pc, widx := i, step := false, mask := m, stamp := 0 } then s
    else
      let s := s.setReplay b.key (some (w, n, pre.filter LogEntry.lasts ++ rest))
      let s := pre.foldl (fun s e => s.follow b.key e) s
      let s := (s.enterLogged b wi m).modMask b.key wi m fun _ x => x.place pc i
      match s.block? b.key with
      | some b => s.startClause b wi pc i m
      | none => s
  | (pre, .word v :: rest) =>
    if v ≠ wi then s
    else pre.foldl (fun s e => s.follow b.key e) (s.setReplay b.key (some (w, n, pre.filter LogEntry.lasts ++ rest)))
  | _ => s

/-- What takes effect for a block at its clause boundary: the debug settings, and REC (R306, R309); where a share is smaller now than what it
holds, the next interval. -/
def State.boundary (s : State) (bk : Nat) : State :=
  let s := (s.modBlock bk fun y => { y with dbg := (s.ctx y.ctx).dbgLatch }).atBoundary bk
  match s.block? bk with
  | some b => s.nextInterval b
  | none => s

/-- The threads of a group that is stepped which are at the end of their clause (R308): at word 0 of another, where a wait has left them, and
not where they were resumed or are to execute a word again. -/
def State.stepDone (s : State) (b : Block) (wi : Nat) (g : Group) : Mask :=
  if g.step && decide (g.widx = 0) then
    maskOf fun l =>
      let x := (b.warp wi).lane l
      g.mask.has l && x.isReal && x.resume == (x.pc, 0) && !((s.core b.core).frag? b.key wi x.frag).any fun e => e.2.fresh
  else 0

/-- CLAUSE_ISSUE (R41, R42, R78): an active, ready warp of a block that may issue starts its next group's clause. -/
def execClauseIssue (b w : Nat) (s : State) : Host.Outcome State Fault Refusal :=
  .next <| match s.block? b with
  | none => s
  | some bl =>
    let wp := bl.warp w
    if !s.mayIssue bl || wp.flight.isSome then s
    else if bl.replay.any fun v => decide (Config.methodClauses ≤ v.clauses) then s
    else match (s.recording? b).bind fun r => r.replaying with
      | some (rw, n, es) => s.issueLogged bl w rw n es
      | none => if !wp.active || !wp.free then s else match s.nextGroup bl wp with
        | none => s
        | some g =>
          if !(s.stepDone bl w g).none then s.endStep b w (s.stepDone bl w g)
          else
            let s := s.boundary b
            match s.block? b with
            | some bl => s.issueGroup bl w g
            | none => s

/-! ## After a word (R41, R81, R82, R210, R308) -/

/-- An instruction counts in WCNT unless every lane of ACT stays at its word: parked there, or waiting to execute it again. -/
def Warp.retired (w : Warp) (f : InFlight) : Bool :=
  f.act.list.any fun l =>
    let x := w.lane l
    !(x.pc == f.pc && x.widx == f.idx && (x.isParked || (match x.st with | .waiting t => t.again | _ => false)))

/-- The clause of a warp is at its end: lanes still in it stand at the successor. With YLD a ready pending warp takes the warp's place. -/
def State.endClause (s : State) (bk wi : Nat) (f : InFlight) : State :=
  let s := s.modWarp bk wi fun w => { w with flight := none }
  let s := (s.endStep bk wi f.act).checkStop bk wi
  match s.block? bk with
  | none => s
  | some b =>
    let w := b.warp wi
    if f.yld && w.active && b.replay.isNone && !(s.pendingReady b.core w.slice).isEmpty then s.swapIn b.core w.slice (some (b, wi, w)) else s

/-- Fragments that have run a word since they resumed (R307). -/
def State.stale (s : State) (b : Block) (wi : Nat) (f : InFlight) : State :=
  let ran (e : Frag) : Bool := e.fresh && e.block == b.key && e.warp == wi && f.act.list.any fun l => ((b.warp wi).lane l).frag == e.fnum
  if (s.core b.core).frags.any fun e => ran e.2 then
    s.modCore b.core fun k => { k with frags := k.frags.map fun e => if ran e.2 then (e.1, { e.2 with fresh := false }) else e }
  else s

/-- What follows the word `f.idx`, whose instruction took `f.len f.idx` words: the next word, or the end of the clause. A warp that is
held has no clause in flight any more. -/
def State.finishWord (s : State) (bk wi : Nat) (f : InFlight) : State :=
  match s.block? bk with
  | none => s
  | some b =>
    let s := if f.cls = .eng then s.modCore b.core fun k => { k with engTurn := ((b.warp wi).slice + 1) % 8 } else s
    match (b.warp wi).flight with
    | none => s
    | some g =>
      let one : Nat := if (b.warp wi).retired f then 1 else 0
      let s := if one = 1 then s.stale b wi f else s
      let s := s.modBlock bk fun y => { (y.modWarp wi fun w => { w with wcnt := w.wcnt + one, age := s.tick }) with recCount := y.recCount + one }
      let next := f.idx + f.len f.idx
      if g.act.none ∨ f.words.length ≤ next then
        let s := s.modMask bk wi g.act fun _ x => { x with pc := f.succ, widx := 0 }
        s.endClause bk wi { f with yld := g.yld }
      else s.modFlight bk wi fun g => { g with idx := next }

/-- A poisoned register that a MEM, CTL, ENG or SYS word reads (R372). -/
def State.wordPoison (s : State) (c : Cx) (i : Instr) : Option (Nat × Nat) :=
  if c.fl.cls = .alu ∨ c.fl.cls = .xln ∨ c.fl.cls = .sfu then none
  else
    let g := match i.parts with
      | .lane _ _ x => x.g
      | .movi x => x.g
      | .mem _ x => x.g
      | .eng _ _ x => x.g
      | .ctl _ g _ _ => g
      | .event => .always
    let m := c.guarded s.tick g
    if m.none then none else c.w.poisonIn m (instrReads i)

end Sys2Proof.Machine
end

