-- ==== Sys2Proof/Machine/Dispatch.lean ====
section
/-! DEFINITION. The meaning of every instruction and event of the opcode table: one arm per constructor. -/

namespace Sys2Proof.Machine

def exec (i : Instr) (s : State) : Host.Outcome State Fault Refusal :=
  match i with
  | .iadd x => Sys2Proof.Machine.execIadd x s
  | .isub x => Sys2Proof.Machine.execIsub x s
  | .imul x => Sys2Proof.Machine.execImul x s
  | .imulh x => Sys2Proof.Machine.execImulh x s
  | .umulh x => Sys2Proof.Machine.execUmulh x s
  | .imad x => Sys2Proof.Machine.execImad x s
  | .imin x => Sys2Proof.Machine.execImin x s
  | .imax x => Sys2Proof.Machine.execImax x s
  | .umin x => Sys2Proof.Machine.execUmin x s
  | .umax x => Sys2Proof.Machine.execUmax x s
  | .iabs x => Sys2Proof.Machine.execIabs x s
  | .andI x => Sys2Proof.Machine.execAndI x s
  | .orI x => Sys2Proof.Machine.execOrI x s
  | .xorI x => Sys2Proof.Machine.execXorI x s
  | .andn x => Sys2Proof.Machine.execAndn x s
  | .shl x => Sys2Proof.Machine.execShl x s
  | .shr x => Sys2Proof.Machine.execShr x s
  | .sar x => Sys2Proof.Machine.execSar x s
  | .bfe x => Sys2Proof.Machine.execBfe x s
  | .bfi x => Sys2Proof.Machine.execBfi x s
  | .popc x => Sys2Proof.Machine.execPopc x s
  | .clz x => Sys2Proof.Machine.execClz x s
  | .brev x => Sys2Proof.Machine.execBrev x s
  | .sel x => Sys2Proof.Machine.execSel x s
  | .mov x => Sys2Proof.Machine.execMov x s
  | .movi x => Sys2Proof.Machine.execMovi x s
  | .iadd2 x => Sys2Proof.Machine.execIadd2 x s
  | .isub2 x => Sys2Proof.Machine.execIsub2 x s
  | .imin2 x => Sys2Proof.Machine.execImin2 x s
  | .imax2 x => Sys2Proof.Machine.execImax2 x s
  | .iadds2 x => Sys2Proof.Machine.execIadds2 x s
  | .isubs2 x => Sys2Proof.Machine.execIsubs2 x s
  | .fadd x => Sys2Proof.Machine.execFadd x s
  | .fsub x => Sys2Proof.Machine.execFsub x s
  | .fmul x => Sys2Proof.Machine.execFmul x s
  | .ffma x => Sys2Proof.Machine.execFfma x s
  | .fmin x => Sys2Proof.Machine.execFmin x s
  | .fmax x => Sys2Proof.Machine.execFmax x s
  | .fadd2 x => Sys2Proof.Machine.execFadd2 x s
  | .fmul2 x => Sys2Proof.Machine.execFmul2 x s
  | .ffma2 x => Sys2Proof.Machine.execFfma2 x s
  | .hadd2 x => Sys2Proof.Machine.execHadd2 x s
  | .hmul2 x => Sys2Proof.Machine.execHmul2 x s
  | .hfma2 x => Sys2Proof.Machine.execHfma2 x s
  | .badd2 x => Sys2Proof.Machine.execBadd2 x s
  | .bmul2 x => Sys2Proof.Machine.execBmul2 x s
  | .bfma2 x => Sys2Proof.Machine.execBfma2 x s
  | .dadd x => Sys2Proof.Machine.execDadd x s
  | .dmul x => Sys2Proof.Machine.execDmul x s
  | .dfma x => Sys2Proof.Machine.execDfma x s
  | .icmp x => Sys2Proof.Machine.execIcmp x s
  | .ucmp x => Sys2Proof.Machine.execUcmp x s
  | .fcmp x => Sys2Proof.Machine.execFcmp x s
  | .hcmp2 x => Sys2Proof.Machine.execHcmp2 x s
  | .dcmp x => Sys2Proof.Machine.execDcmp x s
  | .pand x => Sys2Proof.Machine.execPand x s
  | .por x => Sys2Proof.Machine.execPor x s
  | .pxor x => Sys2Proof.Machine.execPxor x s
  | .pset x => Sys2Proof.Machine.execPset x s
  | .pmovTo x => Sys2Proof.Machine.execPmovTo x s
  | .pmovFrom x => Sys2Proof.Machine.execPmovFrom x s
  | .vote x => Sys2Proof.Machine.execVote x s
  | .shfl x => Sys2Proof.Machine.execShfl x s
  | .qswp x => Sys2Proof.Machine.execQswp x s
  | .qbcst x => Sys2Proof.Machine.execQbcst x s
  | .scan x => Sys2Proof.Machine.execScan x s
  | .redw x => Sys2Proof.Machine.execRedw x s
  | .matchI x => Sys2Proof.Machine.execMatchI x s
  | .flgrd x => Sys2Proof.Machine.execFlgrd x s
  | .flgclr x => Sys2Proof.Machine.execFlgclr x s
  | .sreg x => Sys2Proof.Machine.execSreg x s
  | .rcp x => Sys2Proof.Machine.execRcp x s
  | .rsq x => Sys2Proof.Machine.execRsq x s
  | .sqrt x => Sys2Proof.Machine.execSqrt x s
  | .exp2 x => Sys2Proof.Machine.execExp2 x s
  | .log2 x => Sys2Proof.Machine.execLog2 x s
  | .sinp x => Sys2Proof.Machine.execSinp x s
  | .cosp x => Sys2Proof.Machine.execCosp x s
  | .tanh x => Sys2Proof.Machine.execTanh x s
  | .cvt x => Sys2Proof.Machine.execCvt x s
  | .cvtp x => Sys2Proof.Machine.execCvtp x s
  | .qenc x => Sys2Proof.Machine.execQenc x s
  | .qdec x => Sys2Proof.Machine.execQdec x s
  | .ld x => Sys2Proof.Machine.execLd x s
  | .st x => Sys2Proof.Machine.execSt x s
  | .lds x => Sys2Proof.Machine.execLds x s
  | .sts x => Sys2Proof.Machine.execSts x s
  | .atom x => Sys2Proof.Machine.execAtom x s
  | .atoms x => Sys2Proof.Machine.execAtoms x s
  | .fence x => Sys2Proof.Machine.execFence x s
  | .pref x => Sys2Proof.Machine.execPref x s
  | .l1inv x => Sys2Proof.Machine.execL1inv x s
  | .ldw x => Sys2Proof.Machine.execLdw x s
  | .stw x => Sys2Proof.Machine.execStw x s
  | .bra g off => Sys2Proof.Machine.execBra g off s
  | .jmpi g a => Sys2Proof.Machine.execJmpi g a s
  | .csw g a => Sys2Proof.Machine.execCsw g a s
  | .exitI g => Sys2Proof.Machine.execExitI g s
  | .bset g bn => Sys2Proof.Machine.execBset g bn s
  | .bwait g bn => Sys2Proof.Machine.execBwait g bn s
  | .bwaitTimed g bn pp count => Sys2Proof.Machine.execBwaitTimed g bn pp count s
  | .bclr g bn => Sys2Proof.Machine.execBclr g bn s
  | .bar g id => Sys2Proof.Machine.execBar g id s
  | .barArv g id => Sys2Proof.Machine.execBarArv g id s
  | .cbar g id => Sys2Proof.Machine.execCbar g id s
  | .cbarArv g id => Sys2Proof.Machine.execCbarArv g id s
  | .twait g ec n => Sys2Proof.Machine.execTwait g ec n s
  | .twaitImm g ec val => Sys2Proof.Machine.execTwaitImm g ec val s
  | .waitw x => Sys2Proof.Machine.execWaitw x s
  | .yieldI g => Sys2Proof.Machine.execYieldI g s
  | .nop g => Sys2Proof.Machine.execNop g s
  | .cpy x => Sys2Proof.Machine.execCpy x s
  | .cenc x => Sys2Proof.Machine.execCenc x s
  | .cdec x => Sys2Proof.Machine.execCdec x s
  | .cpym x => Sys2Proof.Machine.execCpym x s
  | .ringp x => Sys2Proof.Machine.execRingp x s
  | .ringc x => Sys2Proof.Machine.execRingc x s
  | .ringcWait x => Sys2Proof.Machine.execRingcWait x s
  | .gangset x => Sys2Proof.Machine.execGangset x s
  | .mma x => Sys2Proof.Machine.execMma x s
  | .mmab x => Sys2Proof.Machine.execMmab x s
  | .mmv x => Sys2Proof.Machine.execMmv x s
  | .drain x => Sys2Proof.Machine.execDrain x s
  | .azero x => Sys2Proof.Machine.execAzero x s
  | .iord x => Sys2Proof.Machine.execIord x s
  | .launch x => Sys2Proof.Machine.execLaunch x s
  | .lvl x => Sys2Proof.Machine.execLvl x s
  | .rcall x => Sys2Proof.Machine.execRcall x s
  | .rread x => Sys2Proof.Machine.execRread x s
  | .rwait x => Sys2Proof.Machine.execRwait x s
  | .erst x => Sys2Proof.Machine.execErst x s
  | .erstAbort x => Sys2Proof.Machine.execErstAbort x s
  | .trapI x => Sys2Proof.Machine.execTrapI x s
  | .tret x => Sys2Proof.Machine.execTret x s
  | .frgq x => Sys2Proof.Machine.execFrgq x s
  | .frgsetPc x => Sys2Proof.Machine.execFrgsetPc x s
  | .frgsetRem x => Sys2Proof.Machine.execFrgsetRem x s
  | .frgres x => Sys2Proof.Machine.execFrgres x s
  | .frgresSkip x => Sys2Proof.Machine.execFrgresSkip x s
  | .frgkill x => Sys2Proof.Machine.execFrgkill x s
  | .brk x => Sys2Proof.Machine.execBrk x s
  | .trcmark x => Sys2Proof.Machine.execTrcmark x s
  | .mapt x => Sys2Proof.Machine.execMapt x s
  | .tlrinv x => Sys2Proof.Machine.execTlrinv x s
  | .plcwDie x => Sys2Proof.Machine.execPlcwDie x s
  | .plcwTgt x => Sys2Proof.Machine.execPlcwTgt x s
  | .stow x => Sys2Proof.Machine.execStow x s
  | .stowClr x => Sys2Proof.Machine.execStowClr x s
  | .rsync x => Sys2Proof.Machine.execRsync x s
  | .livem x => Sys2Proof.Machine.execLivem x s
  | .livemClr x => Sys2Proof.Machine.execLivemClr x s
  | .clauseIssue b w => Sys2Proof.Machine.execClauseIssue b w s
  | .loadComplete b w k => Sys2Proof.Machine.execLoadComplete b w k s
  | .storeAck b w k => Sys2Proof.Machine.execStoreAck b w k s
  | .bwaitTimeout b w => Sys2Proof.Machine.execBwaitTimeout b w s
  | .waitwRelease b w => Sys2Proof.Machine.execWaitwRelease b w s
  | .waitwPoll b w => Sys2Proof.Machine.execWaitwPoll b w s
  | .warpSwap core slice => Sys2Proof.Machine.execWarpSwap core slice s
  | .pendingStarvationSwap core slice => Sys2Proof.Machine.execPendingStarvationSwap core slice s
  | .commandIteration b k tok => Sys2Proof.Machine.execCommandIteration b k tok s
  | .commandComplete b k tok => Sys2Proof.Machine.execCommandComplete b k tok s
  | .ioRequestComplete b k tok ok data => Sys2Proof.Machine.execIoRequestComplete b k tok ok data s
  | .launchBatchTake b => Sys2Proof.Machine.execLaunchBatchTake b s
  | .launchBatchTimeout b => Sys2Proof.Machine.execLaunchBatchTimeout b s
  | .workQueueTake q => Sys2Proof.Machine.execWorkQueueTake q s
  | .blockPlace grid => Sys2Proof.Machine.execBlockPlace grid s
  | .blockEnd b => Sys2Proof.Machine.execBlockEnd b s
  | .stowThresholdExpiry b => Sys2Proof.Machine.execStowThresholdExpiry b s
  | .stowBegin b => Sys2Proof.Machine.execStowBegin b s
  | .stowComplete b => Sys2Proof.Machine.execStowComplete b s
  | .restoreBegin b => Sys2Proof.Machine.execRestoreBegin b s
  | .restoreComplete b => Sys2Proof.Machine.execRestoreComplete b s
  | .preemptRequest c => Sys2Proof.Machine.execPreemptRequest c s
  | .preemptClear c => Sys2Proof.Machine.execPreemptClear c s
  | .preemptComplete c => Sys2Proof.Machine.execPreemptComplete c s
  | .contextEnable c => Sys2Proof.Machine.execContextEnable c s
  | .contextDisable c => Sys2Proof.Machine.execContextDisable c s
  | .deadlineExpiry c => Sys2Proof.Machine.execDeadlineExpiry c s
  | .watchdogExpiry b w => Sys2Proof.Machine.execWatchdogExpiry b w s
  | .trapRecordWrite c => Sys2Proof.Machine.execTrapRecordWrite c s
  | .handlerBlockStart c => Sys2Proof.Machine.execHandlerBlockStart c s
  | .trapRecordRetire c rid => Sys2Proof.Machine.execTrapRecordRetire c rid s
  | .trapqWrite c ctl v => Sys2Proof.Machine.execTrapqWrite c ctl v s
  | .sequencerAssign obj => Sys2Proof.Machine.execSequencerAssign obj s
  | .replayInvocationStart die => Sys2Proof.Machine.execReplayInvocationStart die s
  | .methodClauseLimit die => Sys2Proof.Machine.execMethodClauseLimit die s
  | .replayInvocationEnd die => Sys2Proof.Machine.execReplayInvocationEnd die s
  | .replayAppliedUpdate die => Sys2Proof.Machine.execReplayAppliedUpdate die s
  | .rsyncReseedComplete b w => Sys2Proof.Machine.execRsyncReseedComplete b w s
  | .mappingChangeComplete c va n => Sys2Proof.Machine.execMappingChangeComplete c va n s
  | .tlrInvalidateComplete c idx => Sys2Proof.Machine.execTlrInvalidateComplete c idx s
  | .hostWrite home pa data => Sys2Proof.Machine.execHostWrite home pa data s
  | .hostRead home pa n => Sys2Proof.Machine.execHostRead home pa n s
  | .peerWrite home pa data => Sys2Proof.Machine.execPeerWrite home pa data s
  | .peerRead home pa n => Sys2Proof.Machine.execPeerRead home pa n s
  | .workQueueDoorbell q tail => Sys2Proof.Machine.execWorkQueueDoorbell q tail s
  | .coldReset => Sys2Proof.Machine.execColdReset s
  | .warmReset => Sys2Proof.Machine.execWarmReset s
  | .bringupStageComplete err => Sys2Proof.Machine.execBringupStageComplete err s
  | .partitionApply => Sys2Proof.Machine.execPartitionApply s
  | .partitionApplyForce => Sys2Proof.Machine.execPartitionApplyForce s
  | .getVersion pf => Sys2Proof.Machine.execGetVersion pf s
  | .getCapabilities pf => Sys2Proof.Machine.execGetCapabilities pf s
  | .negotiateAlgorithms pf offered => Sys2Proof.Machine.execNegotiateAlgorithms pf offered s
  | .getDigests pf => Sys2Proof.Machine.execGetDigests pf s
  | .getCertificate pf slot off len => Sys2Proof.Machine.execGetCertificate pf slot off len s
  | .challenge pf slot nonce => Sys2Proof.Machine.execChallenge pf slot nonce s
  | .getMeasurements pf idx => Sys2Proof.Machine.execGetMeasurements pf idx s
  | .sedimentSign => Sys2Proof.Machine.execSedimentSign s
  | .sedimentSignComplete => Sys2Proof.Machine.execSedimentSignComplete s
  | .powerLimitAdjust mhz k => Sys2Proof.Machine.execPowerLimitAdjust mhz k s
  | .dieIdleEntry d deep => Sys2Proof.Machine.execDieIdleEntry d deep s
  | .scrub site corrected => Sys2Proof.Machine.execScrub site corrected s
  | .laneSpare d dir bundle => Sys2Proof.Machine.execLaneSpare d dir bundle s
  | .bundleRetrainComplete d dir bundle => Sys2Proof.Machine.execBundleRetrainComplete d dir bundle s
  | .dieLost d => Sys2Proof.Machine.execDieLost d s
  | .ualinkPortDown p => Sys2Proof.Machine.execUalinkPortDown p s
  | .ualinkPortUp p => Sys2Proof.Machine.execUalinkPortUp p s
  | .checkpointIntervalEnd b => Sys2Proof.Machine.execCheckpointIntervalEnd b s
  | .recordedModeEnable c => Sys2Proof.Machine.execRecordedModeEnable c s
  | .debugStep b w f => Sys2Proof.Machine.execDebugStep b w f s
  | .debugContinue b w f => Sys2Proof.Machine.execDebugContinue b w f s
  | .debugReachStop b w n => Sys2Proof.Machine.execDebugReachStop b w n s
  | .debugDetach c => Sys2Proof.Machine.execDebugDetach c s
  | .registerWrite off size v => Sys2Proof.Machine.execRegisterWrite off size v s
  | .linkLevelRetry d dir => Sys2Proof.Machine.execLinkLevelRetry d dir s
  | .hostLinkRetrain link => Sys2Proof.Machine.execHostLinkRetrain link s

end Sys2Proof.Machine
end

