-- ==== Sys2Proof/Machine/Run.lean ====
section
/-! DEFINITION. What moves: a word of a warp, an event, time, and the choices that the spec leaves open; and which of them comes when no
input names one (log 2). -/

namespace Sys2Proof.Machine

/-! ## A word of a warp -/

/-- A load of the warp that has met poison, for a word that may be held for it: those of the lane classes never stop part-way (R372). -/
def Cx.metPoison (c : Cx) (w : Warp) : Option (PLoad × Nat × Nat) :=
  if c.fl.whole then none else w.loads.findSome? fun ld => ld.pois.map fun p => (ld, p.1, p.2)

/-- What the log tells of the word that a re-executing block runs next, but for the cluster barriers that complete with it: before the word all of it
happens, and each of them whose last arrival was before it. -/
def State.leadIn (s : State) (bk : Nat) (pre : List LogEntry) : State × List LogEntry :=
  pre.foldl (fun (p : State × List LogEntry) e => match e with
    | .cbar j => if (p.1.block? bk).any fun b => b.allArrived (tgetD b.cbars j {}) then (p.1.follow bk e, p.2) else (p.1, p.2 ++ [e])
    | _ => (p.1.follow bk e, p.2)) (s, [])

/-- The word of a re-executing block is done, and so is what the log tells of it. -/
def State.wordLogged (s : State) (bk : Nat) : State :=
  s.modRecording bk fun r => { r with replaying := r.replaying.map fun p =>
    (p.1, p.2.1, match p.2.2.span fun e => !e.acts with
      | (pre, .word _ :: rest) => pre.filter LogEntry.lasts ++ rest
      | (pre, rest) => pre ++ rest) }

/-- A word of a re-executing block, where the log tells of it next (R311): for the threads that the log does not take from it. -/
def State.runLogged (s : State) (bk wi : Nat) (b : Block) (w n : Nat) (es : List LogEntry) : Host.Outcome State Fault Refusal :=
  match es.span (fun e => !e.acts), (b.warp wi).flight with
  | (pre, .word v :: rest), some fl =>
    if v ≠ wi then .next s
    else
      let s := s.setReplay bk (some (w, n, pre ++ .word v :: rest))
      let (s, late) := s.leadIn bk pre
      let finish (t : State) : Host.Outcome State Fault Refusal :=
        .next ((((late.foldl (fun t e => t.follow bk e) t).wordLogged bk).finishWord bk wi fl).elapse 1)
      match ({ s with cur := some (bk, wi) } : State).cx? with
      | none => finish s
      | some c =>
        if c.fl.act.none then finish s
        else match c.fl.instr with
          | none => finish s
          | some i => match exec i { s with cur := some (bk, wi) } with
            | .next t => finish t
            | .fault f => .fault f
            | .refused r => .refused r
  | _, _ => .next s

/-- The word at the clause in flight runs: a poisoned register that it reads holds the warp at it, with nothing of the word done, and so does
poison that a load met, of its own or an earlier one that it needs performed (R372); else the instruction acts and the clause goes on. One
cycle passes. -/
def State.runWord (s : State) (bk wi : Nat) : Host.Outcome State Fault Refusal :=
  match s.block? bk with
  | none => .next s
  | some b =>
    if !s.mayWord b (b.warp wi) then .next s
    else match (s.recording? bk).bind (·.replaying) with
    | some (w, n, es) => s.runLogged bk wi b w n es
    | none =>
      let s := { s with cur := some (bk, wi) }
      match s.cx? with
      | none => .next s
      | some c => match c.fl.instr with
        | none => .next ((s.warpTrap c 0x02 0).elapse 1)
        | some i => match s.wordPoison c i with
          | some (l, r) => .next ((s.consume bk wi c.fl.act c.fl.pc c.fl.idx 3 (regWindow b c.w l r) c.takers).elapse 1)
          | none => match c.metPoison c.w with
            | some (ld, code, a) => .next ((s.loadPoison b wi ld code a).elapse 1)
            | none => match exec i s with
              | .next t => match c.metPoison (t.warp bk wi) with
                | some (ld, code, a) => .next ((s.loadPoison b wi ld code a).elapse 1)
                | none => .next (((t.log bk (.word wi)).finishWord bk wi c.fl).elapse 1)
              | .fault f => .fault f
              | .refused r => .refused r

/-! ## What the host and the peers do to their own memory (R163, R371) -/

/-- Bytes at storage addresses of host or peer memory; a 32-byte word wholly written without poison loses its own. -/
def State.outsideWrite (s : State) (addr : Nat) (data : List Byte) (poison : Bool) : State :=
  if !isOutside addr || data.isEmpty then s
  else
    let s := s.putHome addr data
    let n := (addr + data.length - 1) / 32 - addr / 32 + 1
    let s := forN n (fun i s =>
      let w := 32 * (addr / 32 + i)
      if poison then s.poison w
      else if addr ≤ w ∧ w + 32 ≤ addr + data.length then s.unpoison w else s) s
    s.foreignStore none ((List.range data.length).map (addr + ·))

/-- A layout record that was rewritten without TLRINV is fetched again: the contents of the pages it maps are undefined (R134). -/
def State.refetchTlr (s : State) (asid idx : Nat) : State :=
  match s.ctxs.find? fun e => e.2.asid == asid, s.tlrc.find? fun t => t.asid == asid && t.idx == idx with
  | some (c, x), some t =>
    if s.readTlr x idx = t.tlr then s
    else (s.dropTlr c idx false).mapCores fun k =>
      { k with tcache := k.tcache.filter fun e => !(e.asid == asid && e.leaf.getLsbD 60 && nbits e.leaf.toNat 59 52 == idx) }
  | _, _ => s

/-! ## Moves -/

/-- One move of the machine. An instruction row acts only as the word of a warp. -/
def State.move (s : State) (m : Move) : Host.Outcome State Fault Refusal :=
  match m with
  | .word b w => s.runWord b w
  | .event i => if i.cls.isSome then .next s else exec i s
  | .elapse n => .next (s.elapse n)
  | .perform b w k => .next (s.perform b w k)
  | .l1Drop core asid line => .next (s.dropL1 core fun x => x.asid == asid && x.line == line)
  | .l2Drop die line => .next (s.l2Evict die line)
  | .icDrop core asid line => .next (s.modCore core fun k => { k with icache := k.icache.filter fun x => !(x.asid == asid && x.line == line) })
  | .tcDrop core asid page => .next (s.modCore core fun k => { k with tcache := k.tcache.filter fun x => !(x.asid == asid && x.page == page) })
  | .outside addr data poison => .next (s.outsideWrite addr data poison)
  | .memTested gib => .next (s.memRise gib)
  | .tlrRefetch asid idx => .next (s.refetchTlr asid idx)
  | .liveTable e => .next { s with livetab := s.livetab ++ [e] }

/-! ## The moves that the machine makes of itself -/

/-- The warps of every block, with their places. -/
def State.eachWarp (s : State) (f : Block → Nat → Warp → List Move) : List Move :=
  s.blocks.flatMap fun b => (mapFrom 0 (fun i w => f b i w) b.warps).flatten

def Hold.move (c b w : Nat) : Hold → Move
  | .mapt va n => .event (.mappingChangeComplete c va n)
  | .tlrinv idx => .event (.tlrInvalidateComplete c idx)
  | .rsync _ _ => .event (.rsyncReseedComplete b w)

/-- What waits to happen of itself in a warp. -/
def warpMoves (b : Block) (i : Nat) (w : Warp) : List Move :=
  (w.stores.map fun x => .event (.storeAck b.key i x.key)) ++ (w.loads.map fun x => .event (.loadComplete b.key i x.key))
    ++ w.hold.map (Hold.move b.ctx b.key i)
    ++ [.event (.bwaitTimeout b.key i), .event (.waitwRelease b.key i), .event (.watchdogExpiry b.key i)]

def engMoves (b : Block) : List Move :=
  (mapFrom 0 (fun k e => e.cmds.flatMap fun c =>
    [Move.event (.commandIteration b.key k c.tok), .event (.commandComplete b.key k c.tok)]) b.ecs).flatten

def ctxMoves (c : Nat) : List Move :=
  [.event (.deadlineExpiry c), .event (.trapRecordWrite c), .event (.handlerBlockStart c), .event (.preemptComplete c)]

def State.blockMoves (s : State) (b : Block) : List Move :=
  [.event (.restoreComplete b.key), .event (.restoreBegin b.key), .event (.launchBatchTake b.key), .event (.launchBatchTimeout b.key),
   .event (.blockEnd b.key), .event (.stowComplete b.key), .event (.stowThresholdExpiry b.key), .event (.stowBegin b.key)]
    ++ if s.intervalDue b then [.event (.checkpointIntervalEnd b.key)] else []

def dieMoves (d : Nat) : List Move :=
  [.event (.methodClauseLimit d), .event (.replayInvocationEnd d), .event (.replayAppliedUpdate d), .event (.replayInvocationStart d)]

/-- The picks: raised warps first (R86), then the oldest active warp (R82); a warp between clauses issues its next one. -/
def State.issueMoves (s : State) : List Move :=
  let ws : List (Block × Nat × Warp) := s.blocks.flatMap fun b => mapFrom 0 (fun i w => (b, i, w)) b.warps
  let ok := ws.filter fun e => s.mayWord e.1 e.2.2 || ((e.2.2.active || s.replaying e.1.key) && e.2.2.flight.isNone && s.mayIssue e.1)
  let put (l : List (Block × Nat × Warp)) (e : Block × Nat × Warp) : List (Block × Nat × Warp) :=
    l.filter (fun x => decide (x.2.2.age ≤ e.2.2.age)) ++ [e] ++ l.filter fun x => decide (e.2.2.age < x.2.2.age)
  let sorted := ok.foldl put []
  let pick (e : Block × Nat × Warp) : Move := if e.2.2.flight.isSome then .word e.1.key e.2.1 else .event (.clauseIssue e.1.key e.2.1)
  ((sorted.filter fun e => s.raised e.1 e.2.2) ++ sorted.filter fun e => !s.raised e.1 e.2.2).map pick

/-- The slices that hold warps. -/
def State.slices (s : State) : List (Nat × Nat) :=
  (s.blocks.flatMap fun b => if b.holdsCore then b.warps.map fun w => (b.core, w.slice) else []).eraseDups

/-- The moves that may be made of itself, in the order in which they are tried: what completes, then what starts, then the picks of the
slices. -/
def State.choices (s : State) : List Move :=
  [.event (.bringupStageComplete 0)]
    ++ s.ctxs.flatMap (fun e => ctxMoves e.1)
    ++ s.eachWarp warpMoves
    ++ s.blocks.flatMap engMoves
    ++ (List.range s.robjs.length).map (fun o => .event (.sequencerAssign o))
    ++ s.wh.live.flatMap dieMoves
    ++ s.blocks.flatMap s.blockMoves
    ++ s.queues.map (fun e => .event (.workQueueTake e.1))
    ++ s.grids.map (fun g => .event (.blockPlace g.key))
    ++ s.slices.flatMap (fun p => [.event (.warpSwap p.1 p.2), .event (.pendingStarvationSwap p.1 p.2)])
    ++ (if s.cycle % 4096 = 0 then s.eachWarp (fun b i w => if w.watches.isEmpty then [] else [.event (.waitwPoll b.key i)]) else [])
    ++ s.issueMoves

/-- The move that is made where no input names one: the first that changes something, else one cycle passes. -/
def State.choose (s : State) : Move :=
  (s.choices.find? fun m => match s.move m with
    | .next t => decide (t ≠ s)
    | _ => false).getD (.elapse 1)

/-- The move of a step and the state that it is made in. -/
def State.pick (s : State) : Move × State :=
  match s.inputs with
  | m :: ms => (m, { s with inputs := ms })
  | [] => (s.choose, s)

/-- What every step ends with: a GO with FORCE goes on, launch batches that may be taken are (R320), waits are tested, those of blocks that are away
too (R69, R70), the step counter advances. -/
def State.close (s : State) : State :=
  let s := s.finishForce.reachGoals.takeDue.wakeAll.noteWakes
  { s with tick := s.tick + 1 }

/-! ## A word in place of a program -/

/-- The clause of a bare word of the opcode table: its class, its continuation bit, its words. -/
def tableClause (nbits w : Nat) : Cls × BitVec 15 × List Word :=
  let w0 := BitVec.ofNat 32 w
  let k := BitVec.ofNat 32 (w / 2 ^ 32)
  match decodeTableWord nbits w with
  | none => (.alu, 0, [w0])
  | some i => match encode i with
    | some (_, some _) => (i.cls.getD .alu, 2, [w0, k])
    | _ => (i.cls.getD .alu, 0, [w0])

/-- A warp of 32 threads with a clause in flight, its registers zero and its predicates true. -/
def probeWarp (f : InFlight) : Warp :=
  let w : Warp := Warp.start 32 0 0 0 0 (0, 0) true
  let v : Tab Word := (List.range 64).map fun r => (r, 0)
  let p : Tab Bool := (List.range 8).map fun r => (r, true)
  let s : Tab Word := (List.range 32).map fun r => (r, 0)
  { w with lanes := w.lanes.map fun x => { x with v := v, p := p }, s := s,
           flight := some { f with boundV := List.replicate 32 v, boundS := s } }

/-- A block of one warp of context 0 on core 0, with a clause in flight. -/
def probeBlock (key : Nat) (p : Place) (f : InFlight) : Block :=
  { key := key, ctx := 0, grid := 0, blockId := 0, nthr := 32, core := 0, spSize := 65536, tiles := [0], place := p, codeBase := 0,
    ecs := List.replicate 8 {}, warps := [probeWarp f] }

/-- The machine with that clause issued, as after a launch: the dies live, the context enabled, the next move its first word. -/
def State.issued (s : State) (cls : Cls) (ext : BitVec 15) (ws : List Word) : State :=
  let f : InFlight := { pc := 0, cls := cls, ext := ext, words := ws, idx := 0, act := 0xFFFFFFFF, yld := false }
  let s := if s.wh.live.isEmpty then s.modWh fun w => { w with stage := 5, ready := 2, live := List.range 8 } else s
  let s := s.modCtx 0 fun x => { x with en := true, pre := false, failed := false }
  { s.bump with blocks := s.blocks ++ [probeBlock s.nextKey (s.place 0) f], cur := some (s.nextKey, 0), inputs := .word s.nextKey 0 :: s.inputs }

end Sys2Proof.Machine
end

