-- ==== Sys2Proof/Machine/Step.lean ====
section
/-! DEFINITION. One step of the machine, and a word placed where the next step runs it. -/

namespace Sys2Proof.Machine

/-- One step: the next input's move, or the one that the machine makes of itself. -/
def step (s : State) : Host.Outcome State Fault Refusal :=
  match s.pick.2.move s.pick.1 with
  | .next t => .next t.close
  | .fault f => .fault f
  | .refused r => .refused r

/-- A word of the opcode table as the word in flight of a warp, and the next move its execution (log 60: how a program comes to run). -/
def State.withFetchWord (s : State) (nbits w : Nat) : State :=
  s.issued (tableClause nbits w).1 (tableClause nbits w).2.1 (tableClause nbits w).2.2

end Sys2Proof.Machine
end

