-- ==== Sys2Proof/Safety.lean ====
section
/-! DEFINITION. What statements speak of: a step that goes on, the invariant of memory, the warp that executes a word, and what the
shapes of instructions change and leave alone. -/

namespace Sys2Proof

open Machine

/-- A step answers a next state. -/
def Goes (s : State) : Prop := ∃ t, step s = .next t

/-- The invariant of memory: its canonical form. -/
def MemoryOk (s : State) : Prop := s.mem.wf = true

/-- The invariant of blocks: every warp has 32 lanes (R37), every block eight engine contexts (R57), every launch record eight scopes
(R279), and what a recording keeps of a block is so too (R309, R311). -/
structure Whole (s : State) : Prop where
  warps : ∀ b ∈ s.blocks, ∀ w ∈ b.warps, w.lanes.length = 32
  engs : ∀ b ∈ s.blocks, b.ecs.length = 8
  queued : ∀ b ∈ s.blocks, ∀ e ∈ b.launchq, e.lrec.ecscope.length = 8
  grids : ∀ g ∈ s.grids, g.lrec.ecscope.length = 8
  checkpoints : ∀ r ∈ s.recordings, ∀ w ∈ r.checkpoint.warps, w.lanes.length = 32
  marks : ∀ r ∈ s.recordings, ∀ m, r.mark = some m → ∀ w ∈ m.1.warps, w.lanes.length = 32
  presents : ∀ r ∈ s.recordings, ∀ p, r.present = some p → ∀ w ∈ p.warps, w.lanes.length = 32

/-- The warp `c` has the word in flight in `s`, and its warp and its block are whole. -/
structure Executes (s : State) (c : Cx) : Prop where
  cx : s.cx? = some c
  whole : c.w.lanes.length = 32
  engs : c.b.ecs.length = 8

/-- Some lane of ACT is guarded, and `m` is all of them (R36). -/
structure Guarded (s : State) (c : Cx) (g : Guard) (m : Mask) : Prop where
  mask : c.guarded s.tick g = m
  some : m.none = false

/-- `t` is `s` but for the executing warp: memory, every block but its own, every other warp, the block's scratchpad, accumulators,
barriers and engine contexts, the cores, the contexts and the Wellhead are as they were. -/
def OnlyWarp (s t : State) (c : Cx) : Prop := ∃ f : Warp → Warp, t = s.modWarp c.bk c.wi f

/-- `t` is `s` but for the lanes of the executing warp. -/
structure OnlyLanes (s t : State) (c : Cx) : Prop where
  warp : OnlyWarp s t c
  rest : { t.warp c.bk c.wi with lanes := c.w.lanes } = c.w

/-- What a guarded lane gets from a result `v` with flags `f` in V register `d` (R27, R176, R188): `x` before, `y` after. With `n` the
register is not written. -/
structure LaneGets (n wide : Bool) (d : Nat) (v : DWord) (f : Fl) (x y : Lane) : Prop where
  latch : y.x = x.x.push (narrow wide v)
  flags : y.fl = if x.isHelper then x.fl else x.fl ||| f
  reg : n = false → tget y.v d = some (v.setWidth 32)
  high : n = false → wide = true → tget y.v (d + 1) = some ((v >>> 32).setWidth 32)
  others : ∀ r, n = true ∨ (r ≠ d ∧ (wide = true → r ≠ d + 1)) → tget y.v r = tget x.v r
  rest : { y with x := x.x, fl := x.fl, v := x.v, vPois := x.vPois } = x

/-- A form with a V destination: each guarded lane gets its result, an unguarded lane of ACT the latch value 0, no other lane changes. -/
structure VResult (s t : State) (c : Cx) (x : LaneArgs) (wide : Bool) (f : Nat → DWord × Fl) : Prop where
  only : OnlyLanes s t c
  on : ∀ l, l < 32 → c.fl.act.has l = true → c.guard s.tick x.g l = true →
    LaneGets x.n wide x.d.toNat (f l).1 (f l).2 (c.w.lane l) ((t.warp c.bk c.wi).lane l)
  off : ∀ l, l < 32 → c.fl.act.has l = true → c.guard s.tick x.g l = false →
    (t.warp c.bk c.wi).lane l = { c.w.lane l with x := (c.w.lane l).x.push 0 }
  out : ∀ l, l < 32 → c.fl.act.has l = false → (t.warp c.bk c.wi).lane l = c.w.lane l

/-- A form with an S destination (R27, R176): the result of the lowest guarded lane `l₀` in S register `d mod 32`, the same value in the
latch of every lane of ACT, the flags of that lane alone. -/
structure SResult (s t : State) (c : Cx) (x : LaneArgs) (wide : Bool) (f : Nat → DWord × Fl) (l₀ : Nat) : Prop where
  only : OnlyWarp s t c
  rest : { t.warp c.bk c.wi with lanes := c.w.lanes, s := c.w.s, sPois := c.w.sPois } = c.w
  reg : x.n = false → tget (t.warp c.bk c.wi).s (x.d.toNat % 32) = some ((f l₀).1.setWidth 32)
  high : x.n = false → wide = true → tget (t.warp c.bk c.wi).s (x.d.toNat % 32 + 1) = some (((f l₀).1 >>> 32).setWidth 32)
  others : ∀ r, x.n = true ∨ (r ≠ x.d.toNat % 32 ∧ (wide = true → r ≠ x.d.toNat % 32 + 1)) → tget (t.warp c.bk c.wi).s r = tget c.w.s r
  lane : ∀ l, l < 32 → (t.warp c.bk c.wi).lane l =
    { c.w.lane l with
      x := if c.fl.act.has l then (c.w.lane l).x.push (narrow wide (f l₀).1) else (c.w.lane l).x
      fl := if l = l₀ ∧ (c.w.lane l).isHelper = false then (c.w.lane l).fl ||| (f l₀).2 else (c.w.lane l).fl }

/-- A form with an S destination where no lane is guarded (R27, R176): S is unchanged, and its value enters the latch of every lane of
ACT. -/
structure SKeeps (s t : State) (c : Cx) (x : LaneArgs) (wide : Bool) : Prop where
  only : OnlyLanes s t c
  lane : ∀ l, l < 32 → (t.warp c.bk c.wi).lane l =
    if c.fl.act.has l then
      { c.w.lane l with
        x := (c.w.lane l).x.push (if wide then c.s64 s.tick (x.d.toNat % 32) else (c.s s.tick (x.d.toNat % 32)).setWidth 64) }
    else c.w.lane l

/-- A lane-class form: its V destination, or its S destination with and without a guarded lane. -/
structure LaneForm (s t : State) (c : Cx) (x : LaneArgs) (wide : Bool) (f : Nat → DWord × Fl) : Prop where
  toV : x.sd = false → VResult s t c x wide f
  toS : x.sd = true → ∀ l₀, (c.guarded s.tick x.g).list.head? = some l₀ → SResult s t c x wide f l₀
  keep : x.sd = true → (c.guarded s.tick x.g).none = true → SKeeps s t c x wide

/-- What a guarded lane gets from a form with a predicate pair (R175): `Pd` and `Pd+1`. -/
structure PairGets (n : Bool) (d : Nat) (a b : Bool) (x y : Lane) : Prop where
  latch : y.x = x.x.push (if a then 1 else 0)
  reg : n = false → tget y.p d = some a ∧ tget y.p (d + 1) = some b
  others : ∀ r, n = true ∨ (r ≠ d ∧ r ≠ d + 1) → tget y.p r = tget x.p r
  rest : { y with x := x.x, p := x.p } = x

/-- A form with a predicate-pair destination: each guarded lane's two predicates; no register and no flag changes. -/
structure PResult (s t : State) (c : Cx) (x : LaneArgs) (f : Nat → Bool × Bool) : Prop where
  only : OnlyLanes s t c
  on : ∀ l, l < 32 → c.fl.act.has l = true → c.guard s.tick x.g l = true →
    PairGets x.n x.d.toNat (f l).1 (f l).2 (c.w.lane l) ((t.warp c.bk c.wi).lane l)
  off : ∀ l, l < 32 → c.fl.act.has l = true → c.guard s.tick x.g l = false →
    (t.warp c.bk c.wi).lane l = { c.w.lane l with x := (c.w.lane l).x.push 0 }
  out : ∀ l, l < 32 → c.fl.act.has l = false → (t.warp c.bk c.wi).lane l = c.w.lane l

/-- A form that gives a result to some lanes of ACT only (R190). -/
structure SomeLanes (s t : State) (c : Cx) (x : LaneArgs) (wide : Bool) (f : Nat → Option DWord) : Prop where
  only : OnlyLanes s t c
  on : ∀ l v, l < 32 → c.fl.act.has l = true → f l = some v →
    LaneGets x.n wide x.d.toNat v 0 (c.w.lane l) ((t.warp c.bk c.wi).lane l)
  off : ∀ l, l < 32 → c.fl.act.has l = true → f l = none → (t.warp c.bk c.wi).lane l = { c.w.lane l with x := (c.w.lane l).x.push 0 }
  out : ∀ l, l < 32 → c.fl.act.has l = false → (t.warp c.bk c.wi).lane l = c.w.lane l

/-- A source operand as 32 bits, and as an integer pair. -/
abbrev Cx32 (c : Cx) (s : State) (x : Src) (l : Nat) : Word := c.src s.tick x l
abbrev Cx64 (c : Cx) (s : State) (x : Src) (l : Nat) : DWord := c.src64 s.tick x (·.setWidth 64) l

/-- The fields of MOVI as those of a form without sources. -/
def movLane (x : MoviArgs) : LaneArgs :=
  { g := x.g, n := x.n, sd := x.sd, d := x.d, a := .zero, b := .zero, c := .zero, rnd := 0, neg := 0, abs := 0, sub := 0, cont := false }

/-- Element `i` of a floating-point source after its modifiers (R26, R187, R189): `m` is 2 for A, 1 for B, 0 for C. -/
def fpArg (c : Cx) (s : State) (x : LaneArgs) (sh : Shape) (m : Nat) (src : Src) (l i : Nat) : Nat :=
  laneMods x sh.fmt m ((c.elems s.tick sh src l).getD i 0)

/-- A finite value of exact arithmetic as a rational number. -/
def Dy.rat (d : Dy) : ℚ := (if d.neg then -1 else 1) * d.m * 2 ^ d.e

/-- `r` stands for the magnitude `y` with `f y = z`, for an increasing `f`: it is `y` where `y` is dyadic, and else it ends in a set bit
between two neighbours of `y` that agree in their first 27 bits. -/
def StandsFor (r : Dy) (f : ℚ → ℚ) (z : ℚ) : Prop :=
  (∀ (k : Nat) (j : Int), f (k * 2 ^ j) = z → (r.m : ℚ) * 2 ^ r.e = k * 2 ^ j) ∧
  (f (r.m * 2 ^ r.e) = z ∨ (r.m % 2 = 1 ∧ 2 ^ 28 < r.m ∧ f (((r.m : ℚ) - 1) * 2 ^ r.e) < z ∧ z < f (((r.m : ℚ) + 1) * 2 ^ r.e)))

/-- `v` is a finite value of format `f`. -/
def Finite (f : Fmt) (v : Nat) : Prop := v < 2 ^ f.width ∧ f.isNaN v = false ∧ f.isInf v = false

/-- The four formats (R95). -/
def formats : List Fmt := [fp64, fp32, fp16, bf16]

/-- The combination of the values of a list in its order (R207). -/
def combine (op : Nat) : List Word → Option Word
  | [] => none
  | a :: as => some (as.foldl (scanStep op) a)

/-! ## Memory instructions -/

/-- The guarded lanes that are no helper lanes. -/
def realOf (c : Cx) (m : Mask) : Mask := m &&& ~~~c.w.helpers

/-- The scratchpad access of lane `l` is naturally aligned and inside the allocation (R217, R218). -/
def SpadOk (c : Cx) (s : State) (x : MemArgs) (l : Nat) : Prop :=
  c.offOf s.tick x l % (MemSize x : Int) = 0 ∧ 0 ≤ c.offOf s.tick x l ∧ c.offOf s.tick x l + MemSize x ≤ c.b.spSize

/-- Its byte offset. -/
def spadAt (c : Cx) (s : State) (x : MemArgs) (l : Nat) : Nat := (c.offOf s.tick x l).toNat

/-- The lanes of `m` checked for a global access in ascending order: the state after, with what the translation caches took, and per lane
the pages, or the cause. -/
def globalChecks (s : State) (c : Cx) (x : MemArgs) (m : Mask) (need : Need) (align l1 : Bool) : State × List (Nat × Except Nat (TEntry × TEntry)) :=
  s.checkLanes m fun u l => u.checkGlobal c (c.addrOf s.tick x l) (MemSize x) need align l1

/-- Every lane passes its checks. -/
def AllOk {α : Type} (rs : List (Nat × Except Nat α)) : Prop := ∀ e ∈ rs, ∃ p, e.2 = .ok p

/-- The registers of the executing warp are as they were: V, S, predicates, flags, latches, places, barriers. -/
def RegsKept (t : State) (c : Cx) : Prop :=
  (t.warp c.bk c.wi).lanes = c.w.lanes ∧ (t.warp c.bk c.wi).s = c.w.s ∧ (t.warp c.bk c.wi).bars = c.w.bars

/-! ## Engine instructions -/

/-- The next token of an engine context of the executing warp's block. -/
def Machine.State.newToken (s : State) (c : Cx) (k : Nat) : Nat := (((s.block? c.bk).map fun b => (b.eng k).top).getD 0) + 1

/-- `u` after the issue of a command: it joins context `k` with the next token, and the S pair at `sd` gets the token (R57, R257). -/
def commandStarted (u : State) (c : Cx) (k : Nat) (op : BitVec 6) (kind : CmdKind) (sd : Nat) : State :=
  let n := u.newToken c k
  ((u.modBlock c.bk fun b => b.modEng k fun e => { e with top := n, cmds := e.cmds ++ [u.newCmd c op n kind] }).bump).giveS64 c.bk c.wi sd
    (BitVec.ofNat 64 n)

/-- The descriptor read of a replayed-object form that passes its checks (R288): the state after, the descriptor, the object. `seq` says
that the form goes to the sequencer, which marks the copies of lost dies (R376). -/
def objRead (s : State) (c : Cx) (desc : Nat) (seq : Bool) : Option (State × ObjDesc × RObj) :=
  match s.checkRange c.b.core c.b.ctx desc 768 .read with
  | (_, .error _) => none
  | (u, .ok (p, q)) =>
    let u := u.l2Line c.b.die (byteKey p q desc 0)
    let bs := (List.range 768).map fun i => u.l2Byte c.b.die (byteKey p q desc i)
    let v := u.meetObj c.b.ctx desc bs
    let v := if seq then v.markLost c.b.ctx desc else v
    if desc % 256 = 0 ∧ objDescOk bs = true then (v.robj? c.b.ctx desc).map fun o => (v, readObjDesc bs, o) else none

/-! ## Guards and rights -/

/-- The guard of a MEM, CTL, ENG or SYS word. -/
def Instr.guardOf (i : Instr) : Option Guard :=
  match i.parts with
  | .mem _ x => some x.g
  | .eng _ _ x => some x.g
  | .ctl _ g _ _ => some g
  | _ => none

/-- The MEM, CTL, ENG and SYS forms that a replay method may use, and TRAP, which has a fault of its own there (R294). -/
def Instr.methodMay (i : Instr) : Bool :=
  match i with
  | .ld _ => true
  | .st _ => true
  | .atom _ => true
  | .lds _ => true
  | .sts _ => true
  | .atoms _ => true
  | .fence _ => true
  | .bra _ _ => true
  | .jmpi _ _ => true
  | .csw _ _ => true
  | .exitI _ => true
  | .bset _ _ => true
  | .bwait _ _ => true
  | .bwaitTimed _ _ _ _ => true
  | .bclr _ _ => true
  | .yieldI _ => true
  | .nop _ => true
  | .trcmark _ => true
  | .trapI _ => true
  | _ => false

/-- The threads of `m` stand parked at the word in flight. -/
def ParkedAt (t : State) (c : Cx) (m : Mask) : Prop :=
  ∀ l, l < 32 → m.has l = true →
    let y := (t.warp c.bk c.wi).lane l
    y.st = .parked ∧ y.pc = c.fl.pc ∧ y.widx = c.fl.idx

/-- The warp `w` of the block `bl` may issue a clause, and `g` is the group whose turn it is (R41, R42), with no recording, debugger setting,
replay invocation or window store that acts at a clause's start. -/
structure Issues (s : State) (b w : Nat) (bl : Block) (g : Group) : Prop where
  block : s.block? b = some bl
  warp : w < bl.warps.length
  whole : (bl.warp w).lanes.length = 32
  plain : s.recordings = []
  unrecorded : (s.ctx bl.ctx).recm = false
  untraced : (s.ctx bl.ctx).trc = false
  unbroken : (s.ctx bl.ctx).bps = []
  unstepped : ∀ l, ((bl.warp w).lane l).step = false
  runs : s.stepOnly bl = false
  may : s.mayIssue bl = true
  noMethod : bl.replay = none
  active : (bl.warp w).active = true
  free : (bl.warp w).free = true
  idle : (bl.warp w).flight = none
  unseen : (bl.warp w).wstores = []
  next : s.nextGroup bl (bl.warp w) = some g

/-- `i` goes on, and gives each lane `f`: result and flags. -/
def Gives (i : Instr) (s : State) (c : Cx) (x : LaneArgs) (wide : Bool) (f : Nat → DWord × Fl) : Prop :=
  ∃ t, exec i s = .next t ∧ LaneForm s t c x wide f

/-- `i` goes on, and sets each guarded lane's pair to `f` and its complement. -/
def Tests (i : Instr) (s : State) (c : Cx) (x : LaneArgs) (f : Nat → Bool) : Prop :=
  ∃ t, exec i s = .next t ∧ PResult s t c x fun l => (f l, !f l)

/-- `i` goes on, and gives `f` to the lanes that have one. -/
def GivesSome (i : Instr) (s : State) (c : Cx) (x : LaneArgs) (wide : Bool) (f : Nat → Option DWord) : Prop :=
  ∃ t, exec i s = .next t ∧ SomeLanes s t c x wide f

end Sys2Proof
end

