-- ==== Sys2Proof/WellFormed.lean ====
section
/-! DEFINITION. A well-formed instruction: one that the checks of R183 accept (their tables stand in Decode.lean, by form). -/

namespace Sys2Proof

/-- Every illegal-instruction and every illegal-operand check passes, and the constructor is that of the fields. -/
def Instr.wellFormed (i : Instr) : Bool := i.instrOk && i.opndOk && i.variantOk

/-- The instruction has words of its own: it is no event row. -/
def Instr.hasWords (i : Instr) : Bool := i.cls.isSome

end Sys2Proof
end

