-- ==== Sys2Proof/Certificates/Slice0/Obligations.lean ====
section
/-! DEFINITION. The statements for the provers. `c` is the executing warp, `s` the state before, `t` the state after. -/

open Sys2Proof Sys2Proof.Machine

/-! ## Encoding (R171 to R185) -/

/-- Decoding gives back every well-formed instruction from its words, and encoding gives back every pair of words that decodes, to a
well-formed instruction of its class: no bit of an encoding is dropped. -/
def Obligations.DecodeEncode : Prop :=
  (∀ i : Instr, i.wellFormed = true → i.hasWords = true →
    ∃ c w k, i.cls = some c ∧ encode i = some (w, k) ∧ decodeWord c w k = .ok i) ∧
  ∀ c w k i, decodeWord c w k = .ok i → i.wellFormed = true ∧ i.cls = some c ∧ encode i = some (w, k)

/-- Words that the spec encodes decode to what it says of them: SHL ~V13, V25, #5; IADD V16, V2, X0; FFMA.RZ V21, -V10, |V20|, V11;
ICMP.LT P2, V14, V8; SREG V24, LANEID; ST.32.REL.DEVICE; ATOM.ADD; BRA; WAITW; FRGRES.SKIP. -/
def Obligations.DecodedWords : Prop :=
  decodeWord .alu 0x3FE34CFE (some 5) = .ok (.shl ⟨.always, true, false, 13, .v 25, .imm 5, .zero, 0, 0, 0, 0, true⟩) ∧
  decodeWord .alu 0x03C40160 none = .ok (.iadd ⟨.always, false, false, 16, .v 2, .x 0, .zero, 0, 0, 0, 0, false⟩) ∧
  decodeWord .alu 0x8FC54514 (some 0x16620000) = .ok (.ffma ⟨.always, false, false, 21, .v 10, .v 20, .v 11, 1, 4, 2, 0, true⟩) ∧
  decodeWord .xln 0x03C08708 (some 0xC8000002) = .ok (.icmp ⟨.always, false, false, 2, .v 14, .v 8, .zero, 0, 0, 0, 2, true⟩) ∧
  decodeWord .xln 0x4FC63264 none = .ok (.sreg ⟨.always, false, false, 24, .zero, .zero, .zero, 0, 0, 0, 0, false⟩) ∧
  decodeWord .mem 0x053B6592 (some 0x80000000) = .ok (.st ⟨.p 4, 7, 27, .v 22, 2, 2, 4, 0, 0, true⟩) ∧
  decodeWord .mem 0x13D0D114 (some 0x81000010) = .ok (.atom ⟨.always, 2, 6, .s 4, 2, 4, 4, 1, 16, true⟩) ∧
  decodeWord .ctl 0x003FFFFA none = .ok (.bra (.p 0) 0x3FFFFA) ∧
  decodeWord .ctl 0x2BC35280 (some 0x9F800001) = .ok (.waitw ⟨.always, .s 10, 2, true, true, 4, .imm 1⟩) ∧
  decodeWord .sys 0x13C48000 (some 0x8D932640) = .ok (.frgresSkip ⟨.always, 1, 4, 0, .s 6, .zero, .zero, .zero, true⟩)

/-- A reserved OP and a reserved guard are the illegal instruction in every class (R183, R185); CLS 7, an empty clause and nonzero low
header bits are the illegal clause; a clause that passes its checks has an instruction at every first word. -/
def Obligations.ReservedRefused : Prop :=
  (∀ e ∈ ([(.alu, 0x32), (.xln, 0x14), (.sfu, 0x0C), (.mem, 0x0B), (.ctl, 0x0D), (.eng, 0x13), (.sys, 0x0E)] : List (Cls × Nat)),
    ∀ w k, e.2 ≤ w.toNat / 2 ^ 26 → decodeWord e.1 w k = .error .illegalInstruction) ∧
  (∀ c w k, 12 ≤ w.toNat / 2 ^ 22 % 16 → w.toNat / 2 ^ 22 % 16 ≤ 14 → decodeWord c w k = .error .illegalInstruction) ∧
  (∀ h ws, h.toNat / 2 ^ 25 % 8 = 7 ∨ h.toNat / 2 ^ 28 = 0 ∨ h.toNat % 4 ≠ 0 → clauseError h ws = some (.illegalClause, 0)) ∧
  ∀ h ws c, clauseError h ws = none → Cls.ofBits (Header.ofWord h).cls = some c → ws.length = (Header.ofWord h).nw →
    ∀ i, i < ws.length → (Header.ofWord h).ext.getLsbD i = false →
      ∃ x n, instrAt c (Header.ofWord h).ext ws i = some (x, n) ∧ x.wellFormed = true


/-! ## The machine -/

/-- A step runs the decoded instruction: where the next move is a word of a warp that may go on, of a block that does not re-execute, and its word
in flight decodes to `i`, the step is `exec i` of the executing warp, then the word enters the input log of a recorded block (log 37), the
clause goes on by that word, one cycle passes, and the step closes. Where a register that the word reads is poisoned, or a load has met
poison, the warp is held at the word instead (R372). After a word that leaves lanes in the clause (R171, R172): the next word is the one after
the instruction's one or two, and WCNT counts the instruction once, unless every lane of ACT stays at it. The one cycle of a word is the
model's choice (log 3). -/
def Obligations.StepRunsWord : Prop :=
  (∀ (s : State) (b w : Nat) (bl : Block) (rest : List Move) (c : Cx) (w₀ : Word) (i : Instr) (t : State),
      s.inputs = .word b w :: rest → s.block? b = some bl → (s.recording? b).bind (·.replaying) = none → ({ s with inputs := rest } : State).mayWord bl (bl.warp w) = true →
      let u : State := { s with inputs := rest, cur := some (b, w) }
      u.cx? = some c → c.fl.words[c.fl.idx]? = some w₀ →
      decodeWord c.fl.cls w₀ (if c.fl.ext.getLsbD (c.fl.idx + 1) then c.fl.words[c.fl.idx + 1]? else none) = .ok i →
      (u.wordPoison c i = none → c.metPoison c.w = none → exec i u = .next t → c.metPoison (t.warp b w) = none →
        step s = .next (((t.log b (.word w)).finishWord b w c.fl).elapse 1).close) ∧
      (∀ l r, u.wordPoison c i = some (l, r) →
        step s = .next ((u.consume b w c.fl.act c.fl.pc c.fl.idx 3 (regWindow bl c.w l r) c.takers).elapse 1).close) ∧
      ∀ ld code a, u.wordPoison c i = none →
        c.metPoison c.w = some (ld, code, a) ∨ (c.metPoison c.w = none ∧ exec i u = .next t ∧ c.metPoison (t.warp b w) = some (ld, code, a)) →
        step s = .next ((u.loadPoison bl w ld code a).elapse 1).close) ∧
  (∀ (s : State) (c : Cx), Executes s c → c.fl.act.none = false → c.fl.idx + c.fl.len c.fl.idx < c.fl.words.length →
      (s.finishWord c.bk c.wi c.fl).warp c.bk c.wi =
        { c.w with
          flight := some { c.fl with idx := c.fl.idx + c.fl.len c.fl.idx }
          wcnt := c.w.wcnt + (if c.w.retired c.fl then 1 else 0)
          age := s.tick })

/-- Source operands (R22, R23, R27, R187): registers as they stand where no load is outstanding on them, latches, zero, the lane index, an
immediate; pairs with the high half in the odd register, an FP32-pair immediate in both halves. -/
def Obligations.SourceReads : Prop :=
  ∀ (s : State) (c : Cx) (l : Nat), Executes s c →
    (∀ (r : BitVec 6) v, c.w.busyV l r.toNat = false → tget (c.w.lane l).v r.toNat = some v → Cx32 c s (.v r) l = v) ∧
    (∀ (r : BitVec 6) v u, c.w.busyV l r.toNat = false → c.w.busyV l (r.toNat + 1) = false → tget (c.w.lane l).v r.toNat = some v →
      tget (c.w.lane l).v (r.toNat + 1) = some u → (Cx64 c s (.v r) l).toNat = v.toNat + 2 ^ 32 * u.toNat) ∧
    (∀ (r : BitVec 5) v, tget c.w.s r.toNat = some v → Cx32 c s (.s r) l = v) ∧
    (∀ (r : BitVec 5) v u, tget c.w.s r.toNat = some v → tget c.w.s (r.toNat + 1) = some u →
      (Cx64 c s (.s r) l).toNat = v.toNat + 2 ^ 32 * u.toNat) ∧
    Cx64 c s (.x 0) l = (c.w.lane l).x.x0 ∧ Cx64 c s (.x 1) l = (c.w.lane l).x.x1 ∧ Cx64 c s (.x 2) l = (c.w.lane l).x.x2 ∧
    Cx64 c s (.x 3) l = (c.w.lane l).x.x3 ∧ (∀ k, (Cx32 c s (.x k) l).toNat = (Cx64 c s (.x k) l).toNat % 2 ^ 32) ∧
    Cx32 c s .zero l = 0 ∧ Cx64 c s .zero l = 0 ∧ (l < 32 → (Cx32 c s .lane l).toNat = l ∧ (Cx64 c s .lane l).toNat = l) ∧
    (∀ v, Cx32 c s (.imm v) l = v ∧ (c.src64 s.tick (.imm v) imPair l).toNat = v.toNat + 2 ^ 32 * v.toNat)

/-- Every step keeps memory in its canonical form: addresses strictly rising, no entry equal to what an unlisted byte reads as. That an unlisted
byte reads as 0 is the model's choice where the spec gives no contents (log 4). -/
def Obligations.MemoryKept : Prop := ∀ s t, MemoryOk s → step s = .next t → MemoryOk t

/-- Every step keeps blocks whole, where a warp then executes a word whatever the state it came from: 32 lanes in every warp (R37), eight engine
contexts in every block (R57), eight scopes in every launch (R279), in recorded blocks too (R309). -/
def Obligations.StaysWhole : Prop :=
  (∀ s t, Whole s → step s = .next t → Whole t) ∧ ∀ s c, Whole s → s.cx? = some c → Executes s c

/-- At reset (R330, R384): memory lists nothing and is in its canonical form, blocks are whole, no context is enabled, no die is live, READY is 0,
WALL is 0, no block is on any core, and the sediment log holds the entry of the cold reset alone. That memory lists nothing stands for its
contents by log 4, the model's choice for what bring-up has not zeroed. -/
def Obligations.ResetState : Prop :=
  MemoryOk State.reset ∧ Whole State.reset ∧ (∀ a, State.reset.mem.read a = 0) ∧ (∀ c, (State.reset.ctx c).en = false) ∧ State.reset.wh.live = [] ∧
  State.reset.wh.ready = 0 ∧ State.reset.wallU = 0 ∧ State.reset.blocks = [] ∧
  State.reset.wh.sediment.map (fun e => (e.wall, e.ctx, e.src, e.event)) = [(0, 0xFFFF, 0xFF, 1)]

/-- Every step goes on, in every state, and the step counter rises by one. The step counter is the model's own (log 1). -/
def Obligations.StepGoesOn : Prop := ∀ s : State, ∃ t, step s = .next t ∧ t.tick = s.tick + 1

/-- No instruction of a program changes which dies are live, the partition map, the bring-up state, the NVMe table or the peer table (R326, R331,
R332). -/
def Obligations.HostRegistersKept : Prop :=
  ∀ (i : Instr) (s t : State), i.hasWords = true → exec i s = .next t →
    t.wh.live = s.wh.live ∧ t.wh.partmap = s.wh.partmap ∧ t.wh.stage = s.wh.stage ∧ t.wh.ready = s.wh.ready ∧ t.nvme = s.nvme ∧ t.peers = s.peers


/-! ## Lane instructions: the ALU (R192 to R200) -/

/-- SHL, SHR and SAR (R193), of the OPs 0x0F to 0x11, by the low byte of B: a product or a quotient by a power of two, SAR's quotient rounded down. -/
def Obligations.IntegerShift : Prop :=
  ∀ e ∈ ([(.shl, 0x0F, fun n a k => .ofNat n (a.toNat * 2 ^ k)), (.shr, 0x10, fun n a k => .ofNat n (a.toNat / 2 ^ k)),
      (.sar, 0x11, fun n a k => .ofInt n (a.toInt / 2 ^ k))] : List ((LaneArgs → Instr) × Nat × ((n : Nat) → BitVec n → Nat → BitVec n))),
    (∀ x, (e.1 x).parts = .lane .alu e.2.1 x) ∧
    ∀ s c x, Executes s c → Gives (e.1 x) s c x (x.sub.getLsbD 0) fun l =>
      (if x.sub.getLsbD 0 then e.2.2 64 (Cx64 c s x.a l) ((Cx32 c s x.b l).toNat % 256)
       else (e.2.2 32 (Cx32 c s x.a l) ((Cx32 c s x.b l).toNat % 256)).setWidth 64, 0)

/-- IADD, ISUB and the signed and unsigned minima and maxima (R192): the mathematical result modulo 2^n in each guarded lane, pairs with SUB[0];
AND, OR, XOR and ANDN bit by bit. IMUL, IMULH and UMULH (R192), and IMAD in its three modes (R194). -/
def Obligations.IntegerArithmetic : Prop :=
  ((∀ e ∈ ([(.iadd, fun n a b => .ofInt n (a.toInt + b.toInt)), (.isub, fun n a b => .ofInt n (a.toInt - b.toInt)),
        (.imin, fun n a b => .ofInt n (min a.toInt b.toInt)), (.imax, fun n a b => .ofInt n (max a.toInt b.toInt)),
        (.umin, fun n a b => .ofNat n (min a.toNat b.toNat)), (.umax, fun n a b => .ofNat n (max a.toNat b.toNat))] :
        List ((LaneArgs → Instr) × ((n : Nat) → BitVec n → BitVec n → BitVec n))),
      ∀ s c x, Executes s c → Gives (e.1 x) s c x (x.sub.getLsbD 0) fun l =>
        (if x.sub.getLsbD 0 then e.2 64 (Cx64 c s x.a l) (Cx64 c s x.b l) else (e.2 32 (Cx32 c s x.a l) (Cx32 c s x.b l)).setWidth 64, 0)) ∧
    ∀ e ∈ ([(.andI, fun a b => a && b), (.orI, fun a b => a || b), (.xorI, fun a b => a != b), (.andn, fun a b => a && !b)] :
        List ((LaneArgs → Instr) × (Bool → Bool → Bool))),
      ∀ s c x, Executes s c → ∃ r : Nat → DWord, Gives (e.1 x) s c x (x.sub.getLsbD 0) (fun l => (r l, 0)) ∧
        ∀ l i, if x.sub.getLsbD 0 then i < 64 → (r l).getLsbD i = e.2 ((Cx64 c s x.a l).getLsbD i) ((Cx64 c s x.b l).getLsbD i)
          else i < 32 → (r l).getLsbD i = e.2 ((Cx32 c s x.a l).getLsbD i) ((Cx32 c s x.b l).getLsbD i)) ∧
  (∀ s c x, Executes s c →
      Gives (.imul x) s c x false (fun l => ((BitVec.ofInt 32 ((Cx32 c s x.a l).toInt * (Cx32 c s x.b l).toInt)).setWidth 64, 0)) ∧
      Gives (.imulh x) s c x false (fun l => ((BitVec.ofInt 32 ((Cx32 c s x.a l).toInt * (Cx32 c s x.b l).toInt / 2 ^ 32)).setWidth 64, 0)) ∧
      Gives (.umulh x) s c x false (fun l => (BitVec.ofNat 64 ((Cx32 c s x.a l).toNat * (Cx32 c s x.b l).toNat / 2 ^ 32), 0)) ∧
      (x.sub.toNat % 4 = 0 → Gives (.imad x) s c x false fun l =>
        ((BitVec.ofNat 32 ((Cx32 c s x.a l).toNat * (Cx32 c s x.b l).toNat + (Cx32 c s x.c l).toNat)).setWidth 64, 0)) ∧
      (x.sub.toNat % 4 = 1 → Gives (.imad x) s c x true fun l =>
        (BitVec.ofNat 64 ((Cx32 c s x.a l).toNat * (Cx32 c s x.b l).toNat + (Cx64 c s x.c l).toNat), 0)) ∧
      (x.sub.toNat % 4 = 2 → Gives (.imad x) s c x true fun l =>
        (BitVec.ofInt 64 ((Cx32 c s x.a l).toInt * (Cx32 c s x.b l).toInt + (Cx64 c s x.c l).toInt), 0)))

/-- BFE and BFI (R195), bit by bit: with position p, width w and w′ = min(w, 32 − p), 0 for p ≥ 32. IABS, POPC, CLZ and BREV (R196). SEL, MOV and
MOVI (R197). -/
def Obligations.BitFieldsAndMoves : Prop :=
  (∀ s c x, Executes s c → ∃ r q : Nat → DWord, Gives (.bfe x) s c x false (fun l => (r l, 0)) ∧ Gives (.bfi x) s c x false (fun l => (q l, 0)) ∧
      ∀ l i, i < 32 →
        let b := Cx32 c s x.b l
        let p := b.toNat % 256
        let w := min (min (b.toNat / 256 % 256) 32) (32 - p)
        (r l).getLsbD i = (if i < w then (Cx32 c s x.a l).getLsbD (p + i)
          else b.getLsbD 16 && decide (0 < w) && (Cx32 c s x.a l).getLsbD (p + w - 1)) ∧
        (q l).getLsbD i = if p ≤ i ∧ i < p + w then (Cx32 c s x.a l).getLsbD (i - p) else (Cx32 c s x.c l).getLsbD i) ∧
  (∀ s c x, Executes s c →
      Gives (.iabs x) s c x false (fun l => (BitVec.ofNat 64 (Cx32 c s x.a l).toInt.natAbs, 0)) ∧
      Gives (.popc x) s c x false (fun l => (BitVec.ofNat 64 (∑ i ∈ Finset.range 32, ((Cx32 c s x.a l).getLsbD i).toNat), 0)) ∧
      (∃ z : Nat → Nat, Gives (.clz x) s c x false (fun l => (BitVec.ofNat 64 (z l), 0)) ∧
        ∀ l, z l ≤ 32 ∧ (∀ i, i < z l → (Cx32 c s x.a l).getLsbD (31 - i) = false) ∧ (z l < 32 → (Cx32 c s x.a l).getLsbD (31 - z l) = true)) ∧
      ∃ r : Nat → DWord, Gives (.brev x) s c x false (fun l => (r l, 0)) ∧
        ∀ l i, i < 32 → (r l).getLsbD i = (Cx32 c s x.a l).getLsbD (31 - i)) ∧
  (∀ s c, Executes s c →
      (∀ x, Gives (.mov x) s c x (x.sub.getLsbD 0) fun l =>
        (if x.sub.getLsbD 0 then Cx64 c s x.a l else (Cx32 c s x.a l).setWidth 64, 0)) ∧
      (∀ x, Gives (.sel x) s c x (x.sub.getLsbD 0) fun l =>
        let src := if c.p s.tick l (x.sub.toNat / 16 % 16) then x.a else x.b
        (if x.sub.getLsbD 0 then Cx64 c s src l else (Cx32 c s src l).setWidth 64, 0)) ∧
      ∀ x, Gives (.movi x) s c (movLane x) false fun _ => ((BitVec.ofInt 32 x.imm.toInt).setWidth 64, 0))

/-- The packed 16-bit integer forms (R198), of the OPs 0x1A to 0x1F and without a continuation field: each half on its own, the saturating ones clamped to the signed 16-bit range (R102). -/
def Obligations.PackedInteger : Prop :=
  ∀ e ∈ ([(.iadd2, 0x1A, fun a b => a + b), (.isub2, 0x1B, fun a b => a - b), (.imin2, 0x1C, min), (.imax2, 0x1D, max),
      (.iadds2, 0x1E, fun a b => max (-32768) (min 32767 (a + b))), (.isubs2, 0x1F, fun a b => max (-32768) (min 32767 (a - b)))] :
      List ((LaneArgs → Instr) × Nat × (Int → Int → Int))),
    (∀ x, (e.1 x).parts = .lane .alu e.2.1 x ∧
      ((e.1 x).wellFormed = true → x.c = .zero ∧ x.rnd = 0 ∧ x.neg = 0 ∧ x.abs = 0 ∧ x.sub = 0)) ∧
    ∀ s c x, Executes s c → Gives (e.1 x) s c x false fun l =>
      let half (v : Word) (i : Nat) : BitVec 16 := BitVec.ofNat 16 (v.toNat / 65536 ^ i)
      let res (i : Nat) : BitVec 16 := BitVec.ofInt 16 (e.2.2 (half (Cx32 c s x.a l) i).toInt (half (Cx32 c s x.b l) i).toInt)
      (BitVec.ofNat 64 ((res 0).toNat + 65536 * (res 1).toNat), 0)

/-- The floating-point forms (R199, R200): for each element of the form's shape the operation of the format on the modified sources in the
mode RND, and the flags of the elements together (R100); FMIN and FMAX on the shape that SUB[2:0] names (R98). -/
def Obligations.FloatForms : Prop :=
  (∀ e ∈ ([(.fadd, .one32, fun f m a b _ => fAdd f m a b), (.fsub, .one32, fun f m a b _ => fAdd f m a (f.negate b)),
      (.fmul, .one32, fun f m a b _ => fMul f m a b), (.ffma, .one32, fFma),
      (.fadd2, .pair32, fun f m a b _ => fAdd f m a b), (.fmul2, .pair32, fun f m a b _ => fMul f m a b), (.ffma2, .pair32, fFma),
      (.hadd2, .half16, fun f m a b _ => fAdd f m a b), (.hmul2, .half16, fun f m a b _ => fMul f m a b), (.hfma2, .half16, fFma),
      (.badd2, .halfBf, fun f m a b _ => fAdd f m a b), (.bmul2, .halfBf, fun f m a b _ => fMul f m a b), (.bfma2, .halfBf, fFma),
      (.dadd, .one64, fun f m a b _ => fAdd f m a b), (.dmul, .one64, fun f m a b _ => fMul f m a b), (.dfma, .one64, fFma)] :
      List ((LaneArgs → Instr) × Shape × (Fmt → Nat → Nat → Nat → Nat → Nat × Fl))),
    ∀ s c x, Executes s c → Gives (e.1 x) s c x e.2.1.wide fun l =>
      let r (i : Nat) := e.2.2 e.2.1.fmt x.rnd.toNat (fpArg c s x e.2.1 2 x.a l i) (fpArg c s x e.2.1 1 x.b l i) (fpArg c s x e.2.1 0 x.c l i)
      if e.2.1 = .one32 ∨ e.2.1 = .one64 then (BitVec.ofNat 64 (r 0).1, (r 0).2)
      else (BitVec.ofNat 64 ((r 0).1 + 2 ^ e.2.1.fmt.width * (r 1).1), (r 0).2 ||| (r 1).2)) ∧
  ∀ e ∈ ([(.fmin, false), (.fmax, true)] : List ((LaneArgs → Instr) × Bool)),
    ∀ k ∈ ([(0, .one32), (1, .pair32), (2, .half16), (3, .halfBf), (4, .one64)] : List (Nat × Shape)),
      ∀ s c x, Executes s c → x.sub.toNat = k.1 → Gives (e.1 x) s c x k.2.wide fun l =>
        let r (i : Nat) := fMinMax k.2.fmt e.2 (fpArg c s x k.2 2 x.a l i) (fpArg c s x k.2 1 x.b l i)
        if k.2 = .one32 ∨ k.2 = .one64 then (BitVec.ofNat 64 (r 0).1, (r 0).2)
        else (BitVec.ofNat 64 ((r 0).1 + 2 ^ k.2.fmt.width * (r 1).1), (r 0).2 ||| (r 1).2)

/-- Rounding is exact where it can be, and otherwise goes to the side that its mode names (R36, R96): a finite value of the format comes back with
no flag; a finite result of RZ is no larger in magnitude, of RU not below, of RD not above the exact value; IX tells whether it differs.
Rounding to nearest (R96): no finite value of the format is nearer to the exact value than a finite result of RNE or RNA. Where rounding goes
(R36, R96): to the nearest finite value on the side of RZ, RU and RD, a result of RNE midway between two values being even and one of RNA the
larger; past the largest finite value to the infinity or the largest value that the mode names, with OF and IX; with UF where the result is
inexact and, rounded with an unbounded exponent, below the smallest normal value. -/
def Obligations.Rounding : Prop :=
  (∀ f ∈ formats, ∀ m, m < 5 →
      (∀ v, Finite f v → roundFP f m (f.real v) = (v, 0)) ∧
      ∀ d : Dy, Finite f (roundFP f m d).1 →
        (m = 1 → |Dy.rat (f.real (roundFP f m d).1)| ≤ |Dy.rat d|) ∧
        (m = 2 → Dy.rat d ≤ Dy.rat (f.real (roundFP f m d).1)) ∧
        (m = 3 → Dy.rat (f.real (roundFP f m d).1) ≤ Dy.rat d) ∧
        ((roundFP f m d).2 &&& flIX = 0 ↔ Dy.rat (f.real (roundFP f m d).1) = Dy.rat d)) ∧
  (∀ f ∈ formats, ∀ m, m = 0 ∨ m = 4 → ∀ (d : Dy) (v : Nat), Finite f v → Finite f (roundFP f m d).1 →
      |Dy.rat (f.real (roundFP f m d).1) - Dy.rat d| ≤ |Dy.rat (f.real v) - Dy.rat d|) ∧
  (∀ f ∈ formats, ∀ d : Dy,
      let r (m : Nat) : ℚ := Dy.rat (f.real (roundFP f m d).1)
      let top : ℚ := 2 ^ (f.bias + 1) - 2 ^ (f.bias - f.fb)
      let past (m v : Nat) : Prop := roundFP f m d = (v, flOF ||| flIX)
      let fits (m : Nat) : Prop := Finite f (roundFP f m d).1 ∧ (roundFP f m d).2 &&& flOF = 0
      (∀ m, m < 5 → f.sign (roundFP f m d).1 = d.neg) ∧
      (∀ v, Finite f v → (|Dy.rat (f.real v)| ≤ |Dy.rat d| → |Dy.rat (f.real v)| ≤ |r 1|) ∧
        (Finite f (roundFP f 2 d).1 → Dy.rat d ≤ Dy.rat (f.real v) → r 2 ≤ Dy.rat (f.real v)) ∧
        (Finite f (roundFP f 3 d).1 → Dy.rat (f.real v) ≤ Dy.rat d → Dy.rat (f.real v) ≤ r 3)) ∧
      (∀ m, m = 0 ∨ m = 4 → ∀ v, Finite f v → Finite f (roundFP f m d).1 → |Dy.rat (f.real v) - Dy.rat d| = |r m - Dy.rat d| →
        Dy.rat (f.real v) ≠ r m → (m = 0 → (roundFP f m d).1 % 2 = 0) ∧ (m = 4 → |Dy.rat (f.real v)| < |r m|)) ∧
      (∀ m, m = 0 ∨ m = 4 → if 2 ^ (f.bias + 1) - 2 ^ (f.bias - f.fb - 1) ≤ |Dy.rat d| then past m (f.inf d.neg) else fits m) ∧
      (if 2 ^ (f.bias + 1) ≤ |Dy.rat d| then past 1 (f.maxFin d.neg) else fits 1) ∧
      (if top < Dy.rat d then past 2 (f.inf false) else if Dy.rat d ≤ -2 ^ (f.bias + 1) then past 2 (f.maxFin true) else fits 2) ∧
      (if Dy.rat d < -top then past 3 (f.inf true) else if 2 ^ (f.bias + 1) ≤ Dy.rat d then past 3 (f.maxFin false) else fits 3) ∧
      ∀ m, m < 5 → ((roundFP f m d).2 &&& flUF ≠ 0 ↔ (roundFP f m d).2 &&& flIX ≠ 0 ∧
        |Dy.rat (Fmt.real ⟨f.eb + 1, f.fb⟩ (roundFP ⟨f.eb + 1, f.fb⟩ m d).1)| < 2 / 2 ^ f.bias))

/-! ## Lane instructions: cross-lane and function units (R201 to R215) -/

/-- ICMP and UCMP (R201): the condition SUB[3:0] on signed or unsigned integers, pairs with SUB[4]; each guarded lane gets the condition and its
complement, and no flag changes. FCMP, HCMP2 and DCMP (R201): the condition SUB[3:0] on the modified sources; HCMP2 combines its halves by
SUB[5:4]. -/
def Obligations.Comparisons : Prop :=
  (∀ k ∈ ([(0, fun a b => decide (a = b)), (1, fun a b => decide (a ≠ b)), (2, fun a b => decide (a < b)), (3, fun a b => decide (a ≤ b)),
        (4, fun a b => decide (b < a)), (5, fun a b => decide (b ≤ a))] : List (Nat × (Int → Int → Bool))),
      ∀ s c x, Executes s c → x.sub.toNat % 16 = k.1 →
        Tests (.icmp x) s c x (fun l => if x.sub.getLsbD 4 then k.2 (Cx64 c s x.a l).toInt (Cx64 c s x.b l).toInt
          else k.2 (Cx32 c s x.a l).toInt (Cx32 c s x.b l).toInt) ∧
        Tests (.ucmp x) s c x (fun l => if x.sub.getLsbD 4 then k.2 (Cx64 c s x.a l).toNat (Cx64 c s x.b l).toNat
          else k.2 (Cx32 c s x.a l).toNat (Cx32 c s x.b l).toNat)) ∧
  (∀ k ∈ ([(0, fun f a b => fEq f a b), (1, fun f a b => !fEq f a b), (2, fun f a b => fLt f a b), (3, fun f a b => fLt f a b || fEq f a b),
        (4, fun f a b => fLt f b a), (5, fun f a b => fLt f b a || fEq f a b), (6, fun f a b => !f.isNaN a && !f.isNaN b),
        (7, fun f a b => f.isNaN a || f.isNaN b)] : List (Nat × (Fmt → Nat → Nat → Bool))),
      ∀ s c x, Executes s c → x.sub.toNat % 16 = k.1 →
        let t (sh : Shape) (l i : Nat) : Bool := k.2 sh.fmt (fpArg c s x sh 2 x.a l i) (fpArg c s x sh 1 x.b l i)
        let sh : Shape := if x.sub.getLsbD 6 then .halfBf else .half16
        Tests (.fcmp x) s c x (fun l => t .one32 l 0) ∧
        Tests (.dcmp x) s c x (fun l => t .one64 l 0) ∧
        (x.sub.toNat / 16 % 4 = 0 → Tests (.hcmp2 x) s c x fun l => t sh l 0 && t sh l 1) ∧
        (x.sub.toNat / 16 % 4 = 1 → Tests (.hcmp2 x) s c x fun l => t sh l 0 || t sh l 1) ∧
        (x.sub.toNat / 16 % 4 = 2 → Tests (.hcmp2 x) s c x fun l => t sh l 0) ∧
        (x.sub.toNat / 16 % 4 = 3 → Tests (.hcmp2 x) s c x fun l => t sh l 1))

/-- Special operands of the floating-point operations (R97, R98), in every format and mode: the first NaN quieted, the default NaN where
infinities or zeros meet, IV where R97 items 3 and 4 say, and FMIN and FMAX, whose order has −0 below +0. Sums, products and fused sums of
finite operands (R96): the exact result, rounded once in the mode. An exact zero sum of operands of one sign keeps that sign, one of opposite
signs is +0 but in RD; zero is rounded to itself. The order of floating-point compares is that of the exact values (R201): −0 equals +0, and
nothing holds of a NaN. -/
def Obligations.FloatSpecialsAndOrder : Prop :=
  (∀ f ∈ formats, ∀ m a b c, a < 2 ^ f.width → b < 2 ^ f.width → c < 2 ^ f.width →
      let iv (p : Bool) : Fl := if p then flIV else 0
      let n := f.sign a != f.sign b
      (f.isNaN a = true → fAdd f m a b = (f.quiet a, iv (f.isSig a || f.isSig b)) ∧ fMul f m a b = (f.quiet a, iv (f.isSig a || f.isSig b))) ∧
      (f.isNaN a = false → f.isNaN b = true → fAdd f m a b = (f.quiet b, iv (f.isSig b)) ∧ fMul f m a b = (f.quiet b, iv (f.isSig b))) ∧
      (f.isInf a = true → f.isInf b = true → fAdd f m a b = if n then (f.nan, flIV) else (a, 0)) ∧
      (f.isInf a = true → f.isZero b = true → fMul f m a b = (f.nan, flIV) ∧ fMul f m b a = (f.nan, flIV) ∧
        (fFma f m a b c).2 &&& flIV = flIV ∧ (f.isNaN c = false → (fFma f m a b c).1 = f.nan)) ∧
      (f.isInf a = true → f.isNaN b = false → f.isZero b = false → fMul f m a b = (f.inf n, 0)) ∧
      (f.isNaN c = true → f.isNaN a = false → f.isNaN b = false → (fFma f m a b c).1 = f.quiet c) ∧
      (f.isNaN a = false → f.isNaN b = false → fAdd f m a b = fAdd f m b a ∧ fMul f m a b = fMul f m b a) ∧
      (f.isNaN a = true → f.isNaN b = false → ∀ k, fMinMax f k a b = (b, iv (f.isSig a)) ∧ fMinMax f k b a = (b, iv (f.isSig a))) ∧
      (f.isNaN a = true → f.isNaN b = true → ∀ k, fMinMax f k a b = (f.quiet a, iv (f.isSig a || f.isSig b))) ∧
      (f.isNaN a = false → f.isNaN b = false →
        let zeros := f.isZero a && f.isZero b
        fMinMax f false a b = (if fLt f b a || zeros && f.sign b then b else a, 0) ∧
        fMinMax f true a b = (if fLt f a b || zeros && f.sign a then b else a, 0))) ∧
  (∀ f ∈ formats, ∀ m, m < 5 →
      (∀ d : Dy, Dy.rat d = 0 → roundFP f m d = (f.signBit d.neg, 0)) ∧
      ∀ a b c, Finite f a → Finite f b → Finite f c →
        let x := Dy.rat (f.real a)
        let y := Dy.rat (f.real b)
        let zero (n k : Bool) : Bool := if n = k then n else decide (m = 3)
        (∃ d : Dy, Dy.rat d = x + y ∧ (x + y = 0 → d.neg = zero (f.sign a) (f.sign b)) ∧ fAdd f m a b = roundFP f m d) ∧
        (∃ d : Dy, Dy.rat d = x * y ∧ d.neg = (f.sign a != f.sign b) ∧ fMul f m a b = roundFP f m d) ∧
        ∃ d : Dy, Dy.rat d = x * y + Dy.rat (f.real c) ∧
          (x * y + Dy.rat (f.real c) = 0 → d.neg = zero (f.sign a != f.sign b) (f.sign c)) ∧ fFma f m a b c = roundFP f m d) ∧
  (∀ f ∈ formats, ∀ a b,
      (Finite f a → Finite f b → (fLt f a b = true ↔ Dy.rat (f.real a) < Dy.rat (f.real b)) ∧ (fEq f a b = true ↔ Dy.rat (f.real a) = Dy.rat (f.real b))) ∧
      (f.isNaN a = true ∨ f.isNaN b = true → fLt f a b = false ∧ fEq f a b = false) ∧
      (Finite f a → fLt f a (f.inf false) = true ∧ fLt f (f.inf true) a = true))

/-- SHFL, QSWP and QBCST (R205, R206): each guarded lane gets the A value of its source lane, its own where that does not exist or is not in ACT
(R191); pairs with SUB[2]. SCAN and REDW (R207): with q₁ < q₂ < … the participating lanes, SCAN gives a participating lane the combination of
the values up to its own, with .EX before its own (the identity in the first); REDW gives the combination of all, in V or in S, and leaves S
unchanged where no lane participates. The steps are those of the table; the integer identities change nothing, those of FADD, FMIN and FMAX
are −0, +∞ and −∞. -/
def Obligations.CrossLane : Prop :=
  (∀ s c (x : LaneArgs), Executes s c →
      let own (l : Nat) (j : Option Nat) : Nat := match j with | some j => if c.fl.act.has j then j else l | none => l
      let val (l : Nat) : DWord := if x.sub.getLsbD 2 then Cx64 c s x.a l else (Cx32 c s x.a l).setWidth 64
      let b (l : Nat) : Nat := (Cx32 c s x.b l).toNat
      let w : Nat := 32 / 2 ^ (x.sub.toNat / 256 % 8)
      let base (l : Nat) : Nat := l - l % w
      (x.sub.toNat % 4 = 0 → Gives (.shfl x) s c x (x.sub.getLsbD 2) fun l => (val (own l (some (base l + b l % w))), 0)) ∧
      (x.sub.toNat % 4 = 1 → Gives (.shfl x) s c x (x.sub.getLsbD 2) fun l =>
        (val (own l (if base l + b l ≤ l then some (l - b l) else none)), 0)) ∧
      (x.sub.toNat % 4 = 2 → Gives (.shfl x) s c x (x.sub.getLsbD 2) fun l =>
        (val (own l (if l + b l < base l + w then some (l + b l) else none)), 0)) ∧
      (x.sub.toNat % 4 = 3 → Gives (.shfl x) s c x (x.sub.getLsbD 2) fun l => (val (own l (some (l ^^^ (b l % w)))), 0)) ∧
      Gives (.qswp x) s c x (x.sub.getLsbD 2) (fun l => (val (own l (some (l ^^^ (x.sub.toNat % 4 + 1)))), 0)) ∧
      Gives (.qbcst x) s c x (x.sub.getLsbD 2) fun l => (val (own l (some (4 * (l / 4) + b l % 4))), 0)) ∧
  ((∀ op ∈ [0, 2, 3, 4, 5, 6, 7, 8], ∀ v, scanStep op (scanId op) v = v) ∧ scanId 1 = 0x80000000 ∧ scanId 9 = 0x7F800000 ∧
    scanId 10 = 0xFF800000 ∧
    (∀ a b : Word, scanStep 0 a b = BitVec.ofInt 32 (a.toInt + b.toInt) ∧
      scanStep 1 a b = BitVec.ofNat 32 (fAdd fp32 0 a.toNat b.toNat).1 ∧
      scanStep 2 a b = BitVec.ofInt 32 (min a.toInt b.toInt) ∧ scanStep 3 a b = BitVec.ofInt 32 (max a.toInt b.toInt) ∧
      scanStep 4 a b = BitVec.ofNat 32 (min a.toNat b.toNat) ∧ scanStep 5 a b = BitVec.ofNat 32 (max a.toNat b.toNat) ∧
      scanStep 6 a b = a &&& b ∧ scanStep 7 a b = a ||| b ∧ scanStep 8 a b = a ^^^ b ∧
      scanStep 9 a b = BitVec.ofNat 32 (fMinMax fp32 false a.toNat b.toNat).1 ∧
      scanStep 10 a b = BitVec.ofNat 32 (fMinMax fp32 true a.toNat b.toNat).1) ∧
    ∀ s c (x : LaneArgs), Executes s c →
      let q : List Nat := (List.range 32).filter fun l => c.fl.act.has l && c.guard s.tick x.g l && !(c.w.lane l).isHelper
      let op : Nat := x.sub.toNat % 16
      let upTo (p : Nat → Bool) : Option DWord := (combine op ((q.filter p).map (Cx32 c s x.a))).map (·.setWidth 64)
      (x.sub.getLsbD 4 = false → GivesSome (.scan x) s c x false fun l => if l ∈ q then upTo (· ≤ l) else none) ∧
      (x.sub.getLsbD 4 = true → GivesSome (.scan x) s c x false fun l =>
        if l ∈ q then some ((upTo (· < l)).getD ((scanId op).setWidth 64)) else none) ∧
      (x.sd = false → GivesSome (.redw x) s c x false fun l => if l ∈ q then upTo (fun _ => true) else none) ∧
      (x.sd = true → ∃ t : State, exec (.redw x) s = .next t ∧
        (∀ v, upTo (fun _ => true) = some v → SResult s t c x false (fun _ => (v, 0)) 0) ∧ (q = [] → SKeeps s t c x false)))

/-- PAND, POR, PXOR (R202) with their inverted sources, and PSET (R203); PMOV.TO gives P11 to P0 as a word, PMOV.FROM sets in each guarded lane
the predicates of the mask from the bits of A, the latch taking all twelve. VOTE (R204) over the participating lanes (of ACT, guarded, no
helper lane): ALL, ANY and UNI into a predicate pair, BALLOT as a mask in V or S. MATCH (R208): a participating lane gets the mask of the
participating lanes whose A equals its own; the others are not written. FLGRD and FLGCLR (R209): the flags as a word; or, in each guarded
lane, the flags but for those of A, which the latch takes. -/
def Obligations.PredicatesVotesFlags : Prop :=
  ((∀ s c (x : LaneArgs), Executes s c →
      let p (l : Nat) : Bool := c.p s.tick l x.a.predNum != x.neg.getLsbD 2
      let q (l : Nat) : Bool := c.p s.tick l x.b.predNum != x.neg.getLsbD 1
      Tests (.pand x) s c x (fun l => p l && q l) ∧ Tests (.por x) s c x (fun l => p l || q l) ∧ Tests (.pxor x) s c x (fun l => p l != q l) ∧
      Tests (.pset x) s c x fun l => (Cx32 c s x.a l).getLsbD l) ∧
    ∀ s c (x : LaneArgs), Executes s c →
      (∃ r : Nat → DWord, Gives (.pmovTo x) s c x false (fun l => (r l, 0)) ∧
        ∀ l i, i < 32 → (r l).getLsbD i = (decide (i < 12) && c.p s.tick l i)) ∧
      ∃ t : State, exec (.pmovFrom x) s = .next t ∧ OnlyLanes s t c ∧ ∀ l, l < 32 →
        let y := (t.warp c.bk c.wi).lane l
        let nv (i : Nat) : Bool := if x.sub.getLsbD (4 + i) then (Cx32 c s x.a l).getLsbD i else c.p s.tick l i
        (c.fl.act.has l = false → y = c.w.lane l) ∧
        (c.fl.act.has l = true → c.guard s.tick x.g l = false → y = { c.w.lane l with x := (c.w.lane l).x.push 0 }) ∧
        (c.fl.act.has l = true → c.guard s.tick x.g l = true →
          { y with x := (c.w.lane l).x, p := (c.w.lane l).p } = c.w.lane l ∧
          (∃ v : DWord, y.x = (c.w.lane l).x.push v ∧ ∀ i, i < 64 → v.getLsbD i = (decide (i < 12) && nv i)) ∧
          (∀ i, x.n = false → i < 12 → x.sub.getLsbD (4 + i) = true → tget y.p i = some (nv i)) ∧
          ∀ i, x.n = true ∨ 12 ≤ i ∨ x.sub.getLsbD (4 + i) = false → tget y.p i = tget (c.w.lane l).p i)) ∧
  (∀ s c (x : LaneArgs), Executes s c →
      let q (l : Nat) : Bool := decide (l < 32) && c.fl.act.has l && c.guard s.tick x.g l && !(c.w.lane l).isHelper
      let b (l : Nat) : Bool := if x.sub.getLsbD 3 then (c.w.lane l).fl.getLsbD (x.sub.toNat / 16 % 8)
        else c.p s.tick l x.a.predNum != x.neg.getLsbD 2
      (x.sub.toNat % 8 = 0 → Tests (.vote x) s c x fun _ => decide (∀ l : Nat, l < 32 → q l = true → b l = true)) ∧
      (x.sub.toNat % 8 = 1 → Tests (.vote x) s c x fun _ => decide (∃ l : Nat, l < 32 ∧ q l = true ∧ b l = true)) ∧
      (x.sub.toNat % 8 = 2 → Tests (.vote x) s c x fun _ =>
        decide ((∀ l : Nat, l < 32 → q l = true → b l = true) ∨ ∀ l : Nat, l < 32 → q l = true → b l = false)) ∧
      (x.sub.toNat % 8 = 3 → ∃ (r : DWord) (t : State), exec (.vote x) s = .next t ∧
        (∀ i, i < 64 → r.getLsbD i = (q i && b i)) ∧
        (x.sd = false → VResult s t c x false fun _ => (r, 0)) ∧ (x.sd = true → SResult s t c x false (fun _ => (r, 0)) 0))) ∧
  (∀ s c (x : LaneArgs), Executes s c →
      let q (l : Nat) : Bool := c.fl.act.has l && c.guard s.tick x.g l && !(c.w.lane l).isHelper
      let val (l : Nat) : DWord := if x.sub.getLsbD 0 then Cx64 c s x.a l else (Cx32 c s x.a l).setWidth 64
      ∃ r : Nat → DWord, (∀ l i, i < 64 → (r l).getLsbD i = (decide (i < 32) && (q i && decide (val i = val l)))) ∧
        GivesSome (.matchI x) s c x false fun l => if l < 32 ∧ q l = true then some (r l) else none) ∧
  (∀ s c (x : LaneArgs), Executes s c →
      Gives (.flgrd x) s c x false (fun l => ((c.w.lane l).fl.setWidth 64, 0)) ∧
      ∃ t : State, exec (.flgclr x) s = .next t ∧ OnlyLanes s t c ∧ ∀ l, l < 32 →
        let y := (t.warp c.bk c.wi).lane l
        (c.fl.act.has l = false → y = c.w.lane l) ∧
        (c.fl.act.has l = true → c.guard s.tick x.g l = false → y = { c.w.lane l with x := (c.w.lane l).x.push 0 }) ∧
        (c.fl.act.has l = true → c.guard s.tick x.g l = true →
          (∀ i, i < 5 → y.fl.getLsbD i = ((c.w.lane l).fl.getLsbD i && !(Cx32 c s x.a l).getLsbD i)) ∧
          y = { c.w.lane l with fl := y.fl, x := (c.w.lane l).x.push (y.fl.setWidth 64) }))

/-- SREG (R210): each special register's value in the reading lane; CLK, WALL and WCNT are pairs. The value of a register that the input log
holds (R310) is logged where the block is recorded, and taken from the log where it re-executes (R311); a replay method that names another
register than LANEID, QUADID, HELPERM, FRAME, ACTM and SPSIZE takes the method fault (R294). -/
def Obligations.SpecialRegisters : Prop :=
  ∀ s c (x : LaneArgs), Executes s c →
    let id := x.sub.toNat % 256
    let wide := decide (32 ≤ id)
    let table : List (Nat × (Nat → DWord)) :=
      [(0x00, fun l => BitVec.ofNat 64 l), (0x01, fun l => BitVec.ofNat 64 (l / 4)), (0x02, fun _ => BitVec.ofNat 64 c.wi),
       (0x03, fun _ => c.b.blockId.setWidth 64), (0x04, fun _ => BitVec.ofNat 64 c.b.lslot), (0x05, fun _ => BitVec.ofNat 64 c.b.die),
       (0x06, fun _ => BitVec.ofNat 64 (c.b.core / 8 % 6)), (0x07, fun _ => c.w.helpers.setWidth 64),
       (0x08, fun _ => BitVec.ofNat 64 c.b.spBase), (0x09, fun _ => BitVec.ofNat 64 (32 * c.w.slice + c.w.slot)),
       (0x0A, fun l => (c.w.lane l).fp.setWidth 64), (0x0B, fun _ => BitVec.ofNat 64 c.b.warps.length),
       (0x0D, fun _ => BitVec.ofNat 64 c.b.crank), (0x0E, fun _ => c.fl.act.setWidth 64), (0x0F, fun _ => BitVec.ofNat 64 c.b.spSize),
       (0x10, fun _ => c.b.moves.setWidth 64), (0x20, fun _ => BitVec.ofNat 64 c.b.clk), (0x21, fun _ => BitVec.ofNat 64 (s.wallU / Config.wallUnit)),
       (0x22, fun _ => BitVec.ofNat 64 c.w.wcnt)]
    (∀ e ∈ table, id = e.1 → c.b.replay = none ∨ methodSpecial id = true → s.recordings = [] →
      Gives (.sreg x) s c x wide fun l => (e.2 l, 0)) ∧
    (id = 0x0C → c.b.replay = none → ∀ g, s.grids.find? (fun g => g.key == c.b.grid) = some g →
      Gives (.sreg x) s c x wide fun _ => (BitVec.ofNat 64 g.lrec.nblk, 0)) ∧
    (loggedSpecial id = true → c.b.replay = none → s.replaying c.bk = false → ∃ t : State, exec (.sreg x) s = .next t ∧
      LaneForm (s.log c.bk (.sreg c.wi ((List.range 32).map (c.special s id)))) t c x wide fun l => (c.special s id l, 0)) ∧
    (loggedSpecial id = true → c.b.replay = none → ∀ vs s', s.logged c.bk (fun e => match e with | .sreg w _ => w == c.wi | _ => false)
        = some (.sreg c.wi vs, s') → ∃ t : State, exec (.sreg x) s = .next t ∧ LaneForm s' t c x wide fun l => (vs.getD l 0, 0)) ∧
    (∀ v, c.b.replay = some v → methodSpecial id = false → exec (.sreg x) s = .next (s.methodFault c.b v 0x04 0))

/-- The function unit (R211): for an operand that is no NaN, its special operands and their flags, else the function's value rounded once, RCP and
SQRT in the mode RND and the others to nearest. CVT and CVTP (R212, R213): the conversion that SUB[7:0] names of the modified source in the
mode RND; two FP32 values to halves, or the halves of a word to an FP32 pair. -/
def Obligations.FunctionsAndConversions : Prop :=
  (∀ e ∈ ([(.rcp, true, fun m a => if fp32.isInf a then (fp32.signBit (fp32.sign a), 0) else if fp32.isZero a then (fp32.inf (fp32.sign a), flDZ)
          else roundFP fp32 m (rcpDy (fp32.real a))),
        (.rsq, false, fun m a => if fp32.isZero a then (fp32.inf (fp32.sign a), flDZ) else if fp32.sign a then (fp32.nan, flIV)
          else if fp32.isInf a then (0, 0) else roundFP fp32 m (rsqDy (fp32.real a))),
        (.sqrt, true, fun m a => if fp32.isZero a then (a, 0) else if fp32.sign a then (fp32.nan, flIV) else if fp32.isInf a then (a, 0)
          else roundFP fp32 m (sqrtDy (fp32.real a))),
        (.exp2, false, fun m a => if fp32.isInf a then (if fp32.sign a then 0 else a, 0) else roundFP fp32 m (exp2Dy (fp32.real a))),
        (.log2, false, fun m a => if fp32.isZero a then (fp32.inf true, flDZ) else if fp32.sign a then (fp32.nan, flIV)
          else if fp32.isInf a then (a, 0) else roundFP fp32 m (log2Dy (fp32.real a))),
        (.sinp, false, fun m a => if fp32.isInf a then (fp32.nan, flIV) else match sinFx (modTwo (fp32.real a)) with
          | none => (fp32.signBit (fp32.sign a), 0)
          | some d => roundFP fp32 m ⟨d.neg != fp32.sign a, d.m, d.e⟩),
        (.cosp, false, fun m a => if fp32.isInf a then (fp32.nan, flIV) else match sinFx ((modTwo (fp32.real a) + 2 ^ 148) % 2 ^ 150) with
          | none => (0, 0)
          | some d => roundFP fp32 m d),
        (.tanh, false, fun m a => if fp32.isInf a then (fp32.signBit (fp32.sign a) + 0x3F800000, 0) else if fp32.isZero a then (a, 0)
          else roundFP fp32 m (tanhDy (fp32.real a)))] : List ((LaneArgs → Instr) × Bool × (Nat → Nat → Nat × Fl))),
      ∀ s c x, Executes s c → Gives (e.1 x) s c x false fun l =>
        let a := laneMods x fp32 2 (Cx32 c s x.a l).toNat
        let r := if fp32.isNaN a then (fp32.quiet a, if fp32.isSig a then flIV else 0) else e.2.2 (if e.2.1 then x.rnd.toNat else 0) a
        (BitVec.ofNat 64 r.1, r.2)) ∧
  (∀ s c (x : LaneArgs), Executes s c →
      let src := cvtType (x.sub.toNat % 16)
      let dst := cvtType (x.sub.toNat / 16 % 16)
      let v (l : Nat) : Nat := (if src.width = 64 then (Cx64 c s x.a l).toNat else (Cx32 c s x.a l).toNat) % 2 ^ src.width
      let f : Fmt := if x.sub.getLsbD 0 then bf16 else fp16
      Gives (.cvt x) s c x (decide (dst.width = 64)) (fun l =>
        cvtVal src dst (x.sub.getLsbD 8) x.rnd.toNat (match src with | .flt g => laneMods x g 2 (v l) | .int _ _ => v l)) ∧
      (x.sub.getLsbD 1 = false → Gives (.cvtp x) s c x false fun l =>
        let a := fConv fp32 f x.rnd.toNat (laneMods x fp32 2 (Cx32 c s x.a l).toNat)
        let b := fConv fp32 f x.rnd.toNat (laneMods x fp32 1 (Cx32 c s x.b l).toNat)
        (BitVec.ofNat 64 (a.1 + 65536 * b.1), a.2 ||| b.2)) ∧
      (x.sub.getLsbD 1 = true → Gives (.cvtp x) s c x true fun l =>
        let a := (Cx32 c s x.a l).toNat
        let lo := fConv f fp32 0 (laneMods x f 2 (a % 65536))
        let hi := fConv f fp32 0 (laneMods x f 2 (a / 65536))
        (BitVec.ofNat 64 (lo.1 + 2 ^ 32 * hi.1), lo.2 ||| hi.2)))

/-- What the function unit rounds (R211): a reciprocal, a root or a reciprocal root is the exact value where the value is dyadic, and else lies
between its neighbours and ends in a bit far below FP32's last, so that one rounding of it is the one rounding of the exact value and raises
IX with it; the integer root is the largest whose square does not exceed its operand. What conversions give (R101, R212): an integer keeps its
low bits or is clamped; a finite float becomes the integer that its mode rounds it to, or the nearest one in range with IV; a NaN becomes 0
with IV; widening a finite float keeps its value and raises nothing. -/
def Obligations.FunctionAndConversionValues : Prop :=
  ((∀ n, n < 2 ^ 256 → isqrt n ^ 2 ≤ n ∧ n < (isqrt n + 1) ^ 2) ∧
    (∀ d : Dy, 0 < d.m → d.m < 2 ^ 24 →
      (rcpDy d).neg = d.neg ∧ StandsFor (rcpDy d) (fun y => y * |Dy.rat d|) 1 ∧
      (d.neg = false → (sqrtDy d).neg = false ∧ StandsFor (sqrtDy d) (fun y => y ^ 2) (Dy.rat d) ∧
        (rsqDy d).neg = false ∧ StandsFor (rsqDy d) (fun y => y ^ 2 * Dy.rat d) 1)) ∧
    ∀ n : Int, -126 ≤ n → n ≤ 127 → exp2Dy ⟨decide (n < 0), n.natAbs, 0⟩ = ⟨false, 1, n⟩ ∧ log2Dy ⟨false, 1, n⟩ = ⟨decide (n < 0), n.natAbs, 0⟩) ∧
  ((∀ w ∈ [8, 16, 32, 64], ∀ w' ∈ [8, 16, 32, 64], ∀ (sg sg' : Bool) (v : Nat), v < 2 ^ w →
      let i : Int := if sg = true ∧ 2 ^ (w - 1) ≤ v then (v : Int) - 2 ^ w else v
      let out (r : Int) : DWord := if w' = 64 then BitVec.ofInt 64 r else (BitVec.ofInt 32 r).setWidth 64
      cvtVal (.int w sg) (.int w' sg') false 0 v = (out (if sg' then i.bmod (2 ^ w') else i % 2 ^ w'), 0) ∧
      cvtVal (.int w sg) (.int w' sg') true 0 v =
        (out (if sg' then max (-2 ^ (w' - 1)) (min (2 ^ (w' - 1) - 1) i) else max 0 (min (2 ^ w' - 1) i)), 0)) ∧
    (∀ f ∈ formats, ∀ w ∈ [8, 16, 32, 64], ∀ sg m v, m < 5 → v < 2 ^ f.width →
      (f.isNaN v = true → fToInt f m w sg v = (0, flIV)) ∧
      (Finite f v → ∃ i : Int, (0 ≤ Dy.rat (f.real v) → 0 ≤ i) ∧ (Dy.rat (f.real v) ≤ 0 → i ≤ 0) ∧
          (m = 1 → |(i : ℚ)| ≤ |Dy.rat (f.real v)| ∧ |Dy.rat (f.real v)| < |(i : ℚ)| + 1) ∧
        (m = 2 → Dy.rat (f.real v) ≤ i ∧ (i : ℚ) < Dy.rat (f.real v) + 1) ∧ (m = 3 → (i : ℚ) ≤ Dy.rat (f.real v) ∧ Dy.rat (f.real v) < i + 1) ∧
        (m = 0 ∨ m = 4 → |(i : ℚ) - Dy.rat (f.real v)| ≤ 1 / 2) ∧
        (|(i : ℚ) - Dy.rat (f.real v)| = 1 / 2 → (m = 0 → i % 2 = 0) ∧ (m = 4 → |Dy.rat (f.real v)| < |(i : ℚ)|)) ∧
        let lo : Int := if sg then -2 ^ (w - 1) else 0
        let hi : Int := if sg then 2 ^ (w - 1) - 1 else 2 ^ w - 1
        fToInt f m w sg v = ((max lo (min hi i) % 2 ^ w).toNat,
          if i < lo ∨ hi < i then flIV else if (i : ℚ) = Dy.rat (f.real v) then 0 else flIX))) ∧
    ∀ e ∈ [(fp16, fp32), (bf16, fp32), (fp16, fp64), (bf16, fp64), (fp32, fp64)], ∀ m v, m < 5 → Finite e.1 v →
      (fConv e.1 e.2 m v).2 = 0 ∧ Finite e.2 (fConv e.1 e.2 m v).1 ∧ Dy.rat (e.2.real (fConv e.1 e.2 m v).1) = Dy.rat (e.1.real v))

/-! ## Memory instructions (R216 to R227, R29, R157) -/

/-- LDS and STS (R219) where every guarded lane's access is aligned and in bounds (R217, R218). LDS becomes an operation of its warp that holds
the bytes each guarded lane read, and changes nothing else. STS writes each lane's bytes at its offset, where lanes overlap the highest lane's
(R122), and changes no other byte and nothing else of the block; no byte of memory changes. Where it meets HEAD or a slot word of a ring in
use, that ring's words hold undefined values (R265). When a ring is in use is the model's reading (log 97). -/
def Obligations.ScratchpadLoadsStores : Prop :=
  ∀ s c (x : MemArgs) m, Executes s c → Guarded s c x.g m → s.recordings = [] → c.b.dbg.ren = false →
    (c.b.spadPois = [] → (∀ l, l < 32 → m.has l = true → SpadOk c s x l) →
      ∃ (t : State) (ld : PLoad) (vs : List (Nat × List Byte)), exec (.lds x) s = .next t ∧ t = (s.modWarp c.bk c.wi fun w => { w with loads := w.loads ++ [ld] }).bump ∧
        ld.key = s.nextKey ∧ ld.form = .lds ∧ ld.dat = x.dat.toNat ∧ ld.size = 2 ^ x.size.toNat ∧ ld.sb = x.sb.toNat ∧ ld.vals = some vs ∧
        ∀ l, l < 32 → tget vs l =
          if m.has l then some ((List.range (2 ^ x.size.toNat)).map fun i => c.b.spadByte s.tick (spadAt c s x l + i)) else none) ∧
    ((∀ l, l < 32 → (realOf c m).has l = true → SpadOk c s x l) →
      let covers (l i : Nat) : Prop := l < 32 ∧ (realOf c m).has l = true ∧ spadAt c s x l ≤ i ∧ i < spadAt c s x l + 2 ^ x.size.toNat
      let undone (i : Nat) : Prop :=
        ∃ off ∈ c.b.rings, c.b.ringBusy off = true ∧ i ∈ c.b.ringBytes off ∧ ∃ l j, covers l j ∧ j ∈ c.b.ringBytes off
      ∃ (t : State) (b : Block), exec (.sts x) s = .next t ∧ t.block? c.bk = some b ∧ (∀ k, k ≠ c.bk → t.block? k = s.block? k) ∧ t.mem = s.mem ∧
        { b with spad := c.b.spad, spadPois := c.b.spadPois } = c.b ∧
        (∀ i, undone i → tget b.spad i = none) ∧
        (∀ i, ¬ undone i → (∀ l, ¬ covers l i) → tget b.spad i = tget c.b.spad i) ∧
        ∀ l i, ¬ undone i → covers l i → (∀ k, l < k → ¬ covers k i) →
          tget b.spad i = (c.dataBytes s.tick l x.dat.toNat (2 ^ x.size.toNat))[i - spadAt c s x l]?)

/-- ATOMS (R223): the guarded real lanes in ascending order each read the word at their offset, which they receive, and write the new one before
the next lane reads; no ring stands in the scratchpad. The new word of an atomic (R223) by its operation: sums modulo 2^w, signed and unsigned
extremes, bitwise, exchange, compare and swap, and the FP32 sum. -/
def Obligations.ScratchpadAtomics : Prop :=
  (∀ s c (x : MemArgs) m, Executes s c → Guarded s c x.g m → s.recordings = [] → c.b.spadPois = [] → c.b.rings = [] →
      (∀ l, l < 32 → (realOf c m).has l = true → SpadOk c s x l) → (realOf c m).none = false →
      ∃ (t : State) (ld : PLoad) (vs : List (Nat × List Byte)) (b : Nat → Block), exec (.atoms x) s = .next t ∧ b 0 = c.b ∧
        t.mem = s.mem ∧ RegsKept t c ∧ (t.warp c.bk c.wi).loads = c.w.loads ++ [ld] ∧ ld.form = .atoms x.aop ∧ ld.dat = x.dat.toNat ∧
        ld.vals = some vs ∧ (t.block? c.bk).map (·.spad) = some (b (realOf c m).list.length).spad ∧
        ∀ k l, (realOf c m).list[k]? = some l →
          let n := 2 ^ x.size.toNat
          let old := (List.range n).map fun i => (b k).spadByte s.tick (spadAt c s x l + i)
          let new := atomNew x.aop.toNat (8 * n) (leNat old) (c.dataVal s.tick l x.dat.toNat n).toNat (c.dataVal s.tick l (x.dat.toNat + n / 4) n).toNat
          tget vs l = some old ∧ (∀ i, i < n → tget (b (k + 1)).spad (spadAt c s x l + i) = (leBytes n new)[i]?) ∧
          ∀ j, j < spadAt c s x l ∨ spadAt c s x l + n ≤ j → tget (b (k + 1)).spad j = tget (b k).spad j) ∧
  (∀ w ∈ [32, 64], ∀ (a v u : BitVec w),
      let f (aop : Nat) : BitVec w := BitVec.ofNat w (atomNew aop w a.toNat v.toNat u.toNat)
      f 1 = a + v ∧ (f 2).toInt = min a.toInt v.toInt ∧ (f 3).toInt = max a.toInt v.toInt ∧ (f 4).toNat = min a.toNat v.toNat ∧
      (f 5).toNat = max a.toNat v.toNat ∧ f 6 = a &&& v ∧ f 7 = a ||| v ∧ f 8 = a ^^^ v ∧ f 9 = v ∧ f 10 = (if a = v then u else a) ∧
      atomNew 11 32 a.toNat v.toNat u.toNat = (fAdd fp32 0 a.toNat v.toNat).1)

/-- FENCE, PREF and L1INV (R225 to R227) change no register. A release fence leaves no store outstanding but to UO pages and an atomic that met
poison (R371); an acquire fence at CELL scope or wider leaves no line in the core's L1. PREF of one lane brings its line where it translates,
may be read and is not on an SO page. L1INV drops the lines of the context that meet a guarded lane's range, and no other line. That L1INV
drops no other line is the model's choice (log 13). -/
def Obligations.FencesCaches : Prop :=
  ∀ s c (x : MemArgs) m, Executes s c → Guarded s c x.g m → (c.w.loads.map (·.key)).Nodup →
    (c.b.replay = none → ∃ t : State, exec (.fence x) s = .next t ∧ RegsKept t c ∧
      (x.ord ≠ 1 → ∀ st ∈ (t.warp c.bk c.wi).stores, st.uo = true ∨
        ∃ ld ∈ (t.warp c.bk c.wi).loads, ld.key = st.key ∧ (ld.held = true ∨ ld.pois.isSome = true)) ∧ (x.ord ≠ 2 → 2 ≤ x.scope.toNat → (t.core c.b.core).l1 = [])) ∧
    (c.b.replay = none → ∃ t : State, exec (.pref x) s = .next t ∧ t.warp c.bk c.wi = c.w ∧
      ∀ l, m.list = [l] → ∀ u e, s.checkPage c.b.core c.b.ctx (c.addrOf s.tick x l) .read = (u, .ok e) → e.ord ≠ 1 →
        ((t.core c.b.core).l1Find e.asid (c.addrOf s.tick x l / 128)).isSome = true) ∧
    (c.b.replay = none → ∃ t : State, exec (.l1inv x) s = .next t ∧ t.warp c.bk c.wi = c.w ∧ t.mem = s.mem ∧
      ∀ ln, ln ∈ (t.core c.b.core).l1 ↔ ln ∈ (s.core c.b.core).l1 ∧ ¬ (ln.asid = (s.ctx c.b.ctx).asid ∧ ∃ l, l < 32 ∧ m.has l = true ∧
        let a := c.addrOf s.tick x l
        let z := min (a + (c.v s.tick l x.dat.toNat).toNat) (2 ^ 64)
        a < z ∧ ln.line * 128 < z ∧ a < ln.line * 128 + 128))

/-- LD and LDW (R219) where every guarded lane passes its checks: the warp has an outstanding operation on its scoreboard for DAT with each
guarded lane's address, and no register has changed. An acquire load leaves no line in the core's L1 (R158). LOAD_COMPLETE (R29, R219) of an
operation that has its values: each lane's registers at DAT get its bytes, low word first and narrow ones zero-extended, the operation is gone
from its scoreboard, and no other register and no byte of memory changes. The values that LOAD_COMPLETE brings where the operation is still to
be performed, with no older operation of its thread on its bytes (R149, R219): an LD that no line of the L1 and no outstanding store of its
core meets gets the bytes of memory at its addresses, where nothing is poisoned, an LDW those of the window's resources (R138, R222). That the
bytes of an access are performed in one step is the model's choice (log 101). -/
def Obligations.GlobalLoads : Prop :=
  (∀ s c (x : MemArgs) m, Executes s c → Guarded s c x.g m → s.recordings = [] →
      (let thru := c.b.replay.isSome || decide (x.ord.toNat = 1 ∧ 2 ≤ x.scope.toNat)
       let r := globalChecks s c x m .read (decide (x.ord.toNat = 4)) (!thru)
       c.b.replay = none → AllOk r.2 →
        ∃ t : State, exec (.ld x) s = .next t ∧ RegsKept t c ∧
          (∃ ld ∈ (t.warp c.bk c.wi).loads, ld.key = r.1.nextKey ∧ ld.form = .ld ∧ ld.dat = x.dat.toNat ∧ ld.size = 2 ^ x.size.toNat ∧
            ld.sb = x.sb.toNat ∧ ld.accs = (oksOf r.2).map fun o => accOf o.1 (c.addrOf s.tick x o.1) o.2) ∧
          (x.ord = 1 → 2 ≤ x.scope.toNat → (t.core c.b.core).l1 = [])) ∧
      (c.b.replay = none → (∀ l, l < 32 → m.has l = true → ∃ k, s.checkWin c (c.addrOf s.tick x l) (2 ^ x.size.toNat) = .ok k) →
        ∃ t : State, exec (.ldw x) s = .next t ∧ RegsKept t c ∧
          ∀ l, l < 32 → m.has l = true →
            ∃ ld ∈ (t.warp c.bk c.wi).loads, s.nextKey ≤ ld.key ∧ ld.form = .ldw ∧ ld.dat = x.dat.toNat ∧ ld.size = 2 ^ x.size.toNat ∧
              ld.sb = x.sb.toNat ∧ (l, c.addrOf s.tick x l) ∈ ld.accs.map fun a => (a.lane, a.addr))) ∧
  (∀ s (b w k : Nat) bl ld vs, s.block? b = some bl → w < bl.warps.length → bl.resident = true → ld.held = false → (bl.warp w).wstores = [] →
      (bl.warp w).loads.find? (fun y => decide (y.key = k)) = some ld → ld.vals = some vs → ld.pois = none →
      ∃ t : State, exec (.loadComplete b w k) s = .next t ∧ t.mem = s.mem ∧ (t.warp b w).loads = (bl.warp w).loads.filter (fun y => decide (y.key ≠ ld.key)) ∧
        (t.warp b w).s = (bl.warp w).s ∧
        ∀ l, l < (bl.warp w).lanes.length →
          let x := (bl.warp w).lane l
          let y := (t.warp b w).lane l
          { y with v := x.v, vPois := x.vPois } = x ∧
          (∀ r, tget vs l = none ∨ r < ld.dat ∨ ld.dat + (ld.size + 3) / 4 ≤ r → tget y.v r = tget x.v r) ∧
          ∀ bs i, tget vs l = some bs → i < (ld.size + 3) / 4 → tget y.v (ld.dat + i) = some (BitVec.ofNat 32 (leNat ((bs.drop (4 * i)).take 4)))) ∧
  (∀ s (b w k : Nat) bl ld, s.block? b = some bl → w < bl.warps.length → bl.resident = true → ld.held = false → (bl.warp w).wstores = [] → s.replaying b = false →
      (bl.warp w).loads.find? (fun y => decide (y.key = k)) = some ld → ld.vals = none → (ld.accs.map (·.lane)).Nodup →
      (∀ o ∈ (bl.warp w).loads, o.key < k → o.vals = none → accsMeet o.accs o.size ld.accs ld.size = false) → (∀ a ∈ ld.accs, a.zero = false) →
      ∀ val : Acc → Nat → Byte,
        (ld.form = .ld ∧ (s.core bl.core).l1 = [] ∧ (∀ y ∈ s.blocks, y.core = bl.core → ∀ v ∈ y.warps, v.stores = []) ∧
            s.memPoison = [] ∧ s.l2Poison = [] ∧
            ∀ a ∈ ld.accs, ∀ i, i < ld.size → isOutside (a.bkey i) = false ∧ s.wh.dielost.getLsbD (keyDie (a.bkey i)) = false ∧ s.undefAt (a.bkey i) = false ∧
              val a i = s.mem.read (a.bkey i)) ∨
          (ld.form = .ldw ∧ ∀ a ∈ ld.accs, ∀ i, i < ld.size → (winTgt a.key (a.addr + i)).bind (s.winGet bl.ctx none) = some (val a i, none)) →
        ∃ t : State, exec (.loadComplete b w k) s = .next t ∧ (t.warp b w).s = (bl.warp w).s ∧
          (t.warp b w).loads.find? (fun y => decide (y.key = k)) = none ∧
          (∀ l r, (∀ a ∈ ld.accs, a.lane ≠ l) ∨ r < ld.dat ∨ ld.dat + (ld.size + 3) / 4 ≤ r →
            tget ((t.warp b w).lane l).v r = tget ((bl.warp w).lane l).v r) ∧
          ∀ a ∈ ld.accs, a.lane < (bl.warp w).lanes.length → ∀ i, i < (ld.size + 3) / 4 →
            tget ((t.warp b w).lane a.lane).v (ld.dat + i) =
              some (BitVec.ofNat 32 (leNat ((((List.range ld.size).map (val a)).drop (4 * i)).take 4))))

/-- ST and STW (R219) where every guarded real lane passes its checks: each byte of each lane is in an outstanding store of the warp, under its
address, and no register changes. A release store leaves no older store outstanding, but to UO pages (R150, R154), and an atomic that met
poison (R371). STORE_ACK (R157) of a store to device memory that no older store of its core meets (R148): its bytes are in memory, the last
where two fall together, every other byte of device memory is as it was, and the release counter no longer counts the store. STW to a
scratchpad window (R138, R222), and the acknowledgement of the other window stores (R140, R157, R159). Each byte of STW stands in the
scratchpad of the context's block that holds it, the highest lane's where lanes meet. STORE_ACK leaves each byte of a register to the next
clause of its warp, and puts each byte of an accumulator in no command's use in its place. -/
def Obligations.GlobalStores : Prop :=
  (∀ s c (x : MemArgs) m, Executes s c → Guarded s c x.g m → s.recordings = [] → c.b.replay = none → (c.w.loads.map (·.key)).Nodup →
      (let r := globalChecks s c x (realOf c m) .write (decide (x.ord.toNat = 4)) false
       AllOk r.2 →
        ∃ t : State, exec (.st x) s = .next t ∧ RegsKept t c ∧
          (∀ o ∈ oksOf r.2, ∀ i b, (c.dataBytes s.tick o.1 x.dat.toNat (2 ^ x.size.toNat))[i]? = some b →
            ∃ st ∈ (t.warp c.bk c.wi).stores, ∃ y ∈ st.bytes, st.form = .st ∧ y.lane = o.1 ∧ y.va = (c.addrOf s.tick x o.1 + i) % 2 ^ 64 ∧
              y.key = byteKey o.2.1 o.2.2 (c.addrOf s.tick x o.1) i ∧ y.b = b) ∧
          (x.ord = 2 → ∀ st ∈ (t.warp c.bk c.wi).stores, st.uo = true ∨ r.1.nextKey ≤ st.key ∨
            ∃ ld ∈ (t.warp c.bk c.wi).loads, ld.key = st.key ∧ (ld.held = true ∨ ld.pois.isSome = true))) ∧
      ((∀ l, l < 32 → (realOf c m).has l = true → ∃ k, s.checkWin c (c.addrOf s.tick x l) (2 ^ x.size.toNat) = .ok k) →
        ∃ t : State, exec (.stw x) s = .next t ∧ RegsKept t c ∧
          ∀ l, l < 32 → (realOf c m).has l = true → isSpadWin (c.addrOf s.tick x l) = false →
            ∀ i b, (c.dataBytes s.tick l x.dat.toNat (2 ^ x.size.toNat))[i]? = some b →
              ∃ st ∈ (t.warp c.bk c.wi).stores, ∃ y ∈ st.bytes, st.form = .stw ∧ y.lane = l ∧ y.va = c.addrOf s.tick x l + i ∧ y.b = b)) ∧
  (∀ s (b w k : Nat) bl st, s.block? b = some bl → w < bl.warps.length → (bl.warp w).loads = [] →
      (bl.warp w).stores.find? (fun y => decide (y.key = k)) = some st → st.form = .st →
      (∀ y ∈ s.blocks, y.core = bl.core → ∀ v ∈ y.warps, ∀ o ∈ v.stores, o.key < k → o.meets st = false) →
      (∀ y ∈ st.bytes, isOutside y.key = false ∧ s.wh.dielost.getLsbD (keyDie y.key) = false ∧ y.key / 128 ∉ s.lostLines) →
      ∃ t : State, exec (.storeAck b w k) s = .next t ∧
        (t.warp b w) = { bl.warp w with stores := (bl.warp w).stores.filter fun y => decide (y.key ≠ k) } ∧
        ∀ a, s.hlines = [] ∨ isOutside a = false → t.mem.read a = match (st.bytes.reverse.find? fun y => decide (y.key = a)) with
          | some y => y.b
          | none => s.mem.read a) ∧
  ((∀ s c (x : MemArgs) m, Executes s c → Guarded s c x.g m → s.recordings = [] → c.b.replay = none → (s.blocks.map (·.key)).Nodup →
      let n := 2 ^ x.size.toNat
      (∀ l, l < 32 → (realOf c m).has l = true → ∃ k, s.checkWin c (c.addrOf s.tick x l) n = .ok k) →
      let meets (l i core off : Nat) : Prop :=
        i < n ∧ ∃ k, s.checkWin c (c.addrOf s.tick x l) n = .ok k ∧ winTgt k (c.addrOf s.tick x l + i) = some (.spad core off)
      ∃ t : State, exec (.stw x) s = .next t ∧ ∀ l i b core off y, l < 32 → (realOf c m).has l = true → meets l i core off →
        (c.dataBytes s.tick l x.dat.toNat n)[i]? = some b → (∀ j k, l < j → j < 32 → (realOf c m).has j = true → ¬ meets j k core off) →
        y ∈ s.blocks → y.ctx = c.b.ctx → y.holdsTgt (.spad core off) = true → y.rings = [] →
        (t.block? y.key).map (fun z => tget z.spad (off - y.spBase)) = some (some b)) ∧
    ∀ s (b w k : Nat) bl st, s.block? b = some bl → w < bl.warps.length → (bl.warp w).loads = [] → (s.blocks.map (·.key)).Nodup →
      (∀ r ∈ s.recordings, r.present = none) → (bl.warp w).stores.find? (fun y => decide (y.key = k)) = some st → st.form = .stw →
      (∀ y ∈ s.blocks, y.core = bl.core → ∀ v ∈ y.warps, ∀ o ∈ v.stores, o.key < k → o.meets st = false) →
      ∃ t : State, exec (.storeAck b w k) s = .next t ∧ t.mem = s.mem ∧
        (t.warp b w).stores = (bl.warp w).stores.filter (fun y => decide (y.key ≠ k)) ∧
        ∀ y ∈ st.bytes,
          (∀ core slice slot reg lane byte z i, winTgt y.key y.va = some (.vreg core slice slot reg lane byte) →
            s.blockAt bl.ctx core slice slot = some (z, i) →
            ∃ e ∈ (t.warp z.key i).wstores, e.lane = lane ∧ e.reg = reg ∧ e.byte = byte ∧ e.b = y.b) ∧
          (∀ core slice slot reg byte z i, winTgt y.key y.va = some (.sreg core slice slot reg byte) →
            s.blockAt bl.ctx core slice slot = some (z, i) →
            ∃ e ∈ (t.warp z.key i).wstores, e.lane = 32 ∧ e.reg = reg ∧ e.byte = byte ∧ e.b = y.b) ∧
          ∀ core tile row col byte z, winTgt y.key y.va = some (.acc core tile row col byte) → s.accBlock bl.ctx core tile = some z →
            z.tileBusy none (z.tileIx tile) = false → (∀ q ∈ st.bytes, winTgt q.key q.va = winTgt y.key y.va → q.b = y.b) →
            ∃ v : Word, (t.block? z.key).map (fun u => tget u.acc (4096 * z.tileIx tile + 64 * row + col)) = some (some v) ∧
              v.toNat / 2 ^ (8 * byte) % 256 = y.b.toNat)

/-- ATOM (R223, R224) where every guarded real lane passes its checks: an outstanding atomic with each lane's word, operand and CAS's swap value,
and, where it is no acquire, its acknowledgement still to come; no register changes. The atomics of an instruction performed (R122, R222 to
R224), by LOAD_COMPLETE or by STORE_ACK: in ascending lane order each reads its word, which its registers get at completion, and writes the
new one of its operation before the next lane reads; no other byte of memory changes. That an operation is performed in one step is the
model's choice (log 101). -/
def Obligations.GlobalAtomics : Prop :=
  (∀ s c (x : MemArgs) m, Executes s c → Guarded s c x.g m → s.recordings = [] → (realOf c m).none = false →
      let r := globalChecks s c x (realOf c m) .rmw true false
      AllOk r.2 → (x.aop = 11 → ∀ o ∈ oksOf r.2, isPeer o.2.1.key = false) →
        ∃ t : State, exec (.atom x) s = .next t ∧ RegsKept t c ∧
          ∃ ld ∈ (t.warp c.bk c.wi).loads, ld.form = .atom x.aop ∧ ld.dat = x.dat.toNat ∧ ld.size = 2 ^ x.size.toNat ∧
            ld.accs.map (fun a => (a.lane, a.addr, a.opnd, a.swap)) =
              (oksOf r.2).map (fun o => (o.1, c.addrOf s.tick x o.1, c.dataVal s.tick o.1 x.dat.toNat (2 ^ x.size.toNat),
                c.dataVal s.tick o.1 (x.dat.toNat + 2 ^ x.size.toNat / 4) (2 ^ x.size.toNat))) ∧
            (x.ord ≠ 1 → x.ord ≠ 3 → (∀ o ∈ oksOf r.2, o.2.1.ord ≠ 1) → ∃ st ∈ (t.warp c.bk c.wi).stores, st.form = .atom ∧ st.key = ld.key)) ∧
  (∀ s (b w k : Nat) bl ld aop, s.block? b = some bl → w < bl.warps.length → bl.resident = true → ld.held = false → (bl.warp w).wstores = [] →
      s.replaying b = false → ((bl.warp w).loads.map (·.key)).Nodup → (bl.warp w).loads.find? (fun y => decide (y.key = k)) = some ld →
      ld.vals = none → ld.form = .atom aop →
      ld.size = 4 ∨ ld.size = 8 → (ld.accs.map (·.lane)).Nodup →
      (∀ o ∈ (bl.warp w).loads, o.key < k → o.vals = none → accsMeet o.accs o.size ld.accs ld.size = false) →
      (∀ y ∈ s.blocks, y.core = bl.core → ∀ v ∈ y.warps, ∀ o ∈ v.stores, o.form ≠ .st) → s.hlines = [] → s.tlrUndef = [] → s.tlrMoves = [] →
      (∀ a ∈ ld.accs, (∀ i, i < ld.size → s.cohPois (a.bkey i) = false) ∧
        ∀ i, i < ld.size → s.undefAt (a.bkey 0 + i) = false ∧ s.lost (a.bkey 0 + i) = false ∧ isOutside (a.bkey 0 + i) = isOutside (a.bkey 0)) →
      ∃ (t : State) (m : Nat → Memory), exec (.loadComplete b w k) s = .next t ∧ m 0 = s.mem ∧ t.mem = m ld.accs.length ∧
        (t.warp b w).loads.find? (fun y => decide (y.key = k)) = none ∧
        (∀ st, (bl.warp w).stores.find? (fun y => decide (y.key = k)) = some st → st.form = .atom → st.bytes = [] →
          ∃ u : State, exec (.storeAck b w k) s = .next u ∧ u.mem = t.mem ∧
            (u.warp b w).stores = (bl.warp w).stores.filter fun y => decide (y.key ≠ k)) ∧
        ∀ j a, ld.accs[j]? = some a →
          let old := (List.range ld.size).map fun i => (m j).read (a.bkey 0 + i)
          let new := atomNew aop.toNat (8 * ld.size) (leNat old) (a.opnd.toNat % 2 ^ (8 * ld.size)) (a.swap.toNat % 2 ^ (8 * ld.size))
          (∀ i, i < ld.size → (leBytes ld.size new)[i]? = some ((m (j + 1)).read (a.bkey 0 + i))) ∧
          (∀ q, q < a.bkey 0 ∨ a.bkey 0 + ld.size ≤ q → (m (j + 1)).read q = (m j).read q) ∧
          (a.lane < (bl.warp w).lanes.length → ∀ i, i < ld.size / 4 →
            tget ((t.warp b w).lane a.lane).v (ld.dat + i) = some (BitVec.ofNat 32 (leNat ((old.drop (4 * i)).take 4)))))

/-- Where memory forms trap (R217, R218, R339, R340): the guarded real lanes whose access fails a check park at the word with one trap, each
with its own cause and address, the others going on; where they cannot be split off, nothing is done and the warp is held with the trap of
fragment exhaustion (R342). A scratchpad offset is checked for alignment, then for its bounds; a global address for its canonical form,
then its alignment, then its pages; a window address for its alignment, its place, then what it names. -/
def Obligations.MemoryFaults : Prop :=
  ∀ s c (x : MemArgs) m, Executes s c → Guarded s c x.g m → s.recordings = [] → c.b.replay = none → c.b.handler = none →
    let n : Nat := 2 ^ x.size.toNat
    let addr (l : Nat) : Nat := c.addrOf s.tick x l
    let traps (i : Instr) (bad : List (Nat × Nat × DWord)) : Prop :=
      let lanes := maskOf fun l => bad.any fun e => e.1 == l
      bad ≠ [] → ∃ (t : State) (tr : Trap), exec i s = .next t ∧ (t.ctx c.b.ctx).traps.getLast? = some tr ∧ tr.pc = c.fl.pc ∧
        tr.widx = c.fl.idx ∧ tr.lmask = lanes ∧
        (s.canPark c.bk c.wi lanes = true → ParkedAt t c lanes ∧ tr.kind = 0 ∧ some tr.cause = bad.head?.map (·.2.1) ∧
          tr.lcause = bad.map (fun e => (e.1, e.2.1)) ∧ tr.lval = bad.map fun e => (e.1, e.2.2)) ∧
        (s.canPark c.bk c.wi lanes = false → tr.cause = 0x22 ∧ (t.warp c.bk c.wi).held = c.w.held ++ [tr.id] ∧ t.mem = s.mem ∧
          (t.warp c.bk c.wi).loads = c.w.loads ∧ (t.warp c.bk c.wi).stores = c.w.stores)
    let failed (r : List (Nat × Except Nat (TEntry × TEntry))) : List (Nat × Nat × DWord) := r.filterMap fun e => match e.2 with
      | .error k => if (c.w.lane e.1).isHelper then none else some (e.1, k, BitVec.ofNat 64 (addr e.1))
      | .ok _ => none
    (c.b.dbg.ren = false → c.b.spadPois = [] → ∀ i ∈ [Instr.lds x, .sts x, .atoms x], traps i ((realOf c m).list.filterMap fun l =>
      let a := c.offOf s.tick x l
      if a % (n : Int) ≠ 0 then some (l, 0x10, BitVec.ofInt 64 a)
      else if a < 0 ∨ (c.b.spSize : Int) < a + n then some (l, 0x14, BitVec.ofInt 64 a) else none)) ∧
    traps (.ld x) (failed (globalChecks s c x m .read (decide (x.ord.toNat = 4)) (!decide (x.ord.toNat = 1 ∧ 2 ≤ x.scope.toNat))).2) ∧
    traps (.st x) (failed (globalChecks s c x (realOf c m) .write (decide (x.ord.toNat = 4)) false).2) ∧
    (let r := globalChecks s c x (realOf c m) .rmw true false
     (x.aop = 11 → ∀ o ∈ oksOf r.2, isPeer o.2.1.key = false) → traps (.atom x) (failed r.2)) ∧
    (∀ i ∈ [Instr.ldw x, .stw x], traps i ((realOf c m).list.filterMap fun l => match s.checkWin c (addr l) n with
      | .error e => some (l, e, BitVec.ofNat 64 (addr l))
      | .ok _ => none)) ∧
    (∀ (a : Nat) (need : Need) (align l1 : Bool),
      let canon (v : Nat) : Prop := ∀ i, 55 ≤ i → i < 64 → v.testBit i = v.testBit 55
      let last := (a + n - 1) % 2 ^ 64
      let r := (s.checkGlobal c a n need align l1).2
      (¬ canon a ∨ ¬ canon last → r = .error 0x11) ∧
      (canon a → canon last → align = true → a % n ≠ 0 → r = .error 0x10) ∧
      (canon a → canon last → (align = true → a % n = 0) → l1 = false → ∀ u v p q,
        s.checkPage c.b.core c.b.ctx a need = (u, p) → u.checkPage c.b.core c.b.ctx last need = (v, q) →
        (∀ e f, p = .ok e → q = .ok f → r = .ok (e, f)) ∧ (∀ e f, p = .error e → q = .ok f → r = .error e) ∧
        (∀ e f, p = .ok e → q = .error f → r = .error f) ∧ ∀ e f, p = .error e → q = .error f → r = .error (min e f))) ∧
    ∀ a : Nat, let r := s.checkWin c a n
      (a % n ≠ 0 → r = .error 0x10) ∧
      (a % n = 0 →
        (a / 2 ^ 36 % 16 ≠ 15 → 8 ≤ a / 2 ^ 36 % 16 → r = .error 0x15) ∧
        (a / 2 ^ 36 % 16 < 8 → s.wh.live.length ≤ c.b.place.diemap.toNat / 2 ^ (4 * (a / 2 ^ 36 % 16)) % 16 → r = .error 0x16) ∧
        (a / 2 ^ 36 % 16 = 15 → a / 2 ^ 40 ≠ 0 ∨ a / 2 ^ 33 % 8 = 6 → r = .error 0x15) ∧
        ∀ k, s.winCore c a = .ok k → s.winOwned c k a n = false → r = .error 0x15)

/-- The walk of a translation (R123 to R125), its homes (R129, R130, R133) and what a page allows (R218). Each level's entry is at its table's
base plus 8 times the level's bits of the address, read coherently; a pointer leads on, a leaf of 1 GiB, 2 MiB or 64 KiB at its level ends the
walk, and anything else is the translation fault. A device page lies on the die of its hashed home, or of its tensor tile, in the frame of its
page number's low 21 bits. -/
def Obligations.Translations : Prop :=
  (∀ (s : State) (x : Ctx) (va : Nat),
    let at_ (base hi lo : Nat) : Option Nat := (s.paKey? (base + 8 * (va / 2 ^ lo % 2 ^ (hi + 1 - lo)))).map fun k =>
      leNat ((List.range 8).map fun i => s.cohByte (k + i))
    let base (e : Nat) : Nat := e / 2 ^ 8 % 2 ^ 44 * 2 ^ 8
    let pointer (e size : Nat) : Prop := e % 4 = 1 ∧ e / 4 % 2 ^ 6 = 0 ∧ e / 2 ^ 52 % 2 ^ 12 = 0 ∧ base e % size = 0
    let leaf (e z : Nat) : Prop := e % 4 = 2 ∧ e / 2 ^ 5 % 2 ^ 11 = 0 ∧ e / 2 ^ 62 % 4 ≠ 3 ∧ (e / 2 ^ 60 % 2 = 1 ∨ e / 2 ^ 52 % 2 ^ 8 = 0) ∧
      e / 2 ^ 16 % 2 ^ (z - 15) = 0
    let page (e z : Nat) : Nat := e / 2 ^ (z + 1) % 2 ^ (51 - z) * 2 ^ (z + 1) + va % 2 ^ (z + 1) / 65536 * 65536
    let ends (r : Option (Nat × Nat × Nat)) : Prop := s.walk x va = r
    let root := x.root.toNat % 2 ^ 41 * 2 ^ 11
    (at_ root 55 48 = none → ends none) ∧
    ∀ e₀, at_ root 55 48 = some e₀ → (¬ pointer e₀ 4096 → ends none) ∧
      (pointer e₀ 4096 → (at_ (base e₀) 47 39 = none → ends none) ∧
        ∀ e₁, at_ (base e₀) 47 39 = some e₁ → (¬ pointer e₁ 4096 → ends none) ∧
          (pointer e₁ 4096 → (at_ (base e₁) 38 30 = none → ends none) ∧
            ∀ e₂, at_ (base e₁) 38 30 = some e₂ → (leaf e₂ 29 → ends (some (e₂, page e₂ 29, 29))) ∧
              (¬ leaf e₂ 29 → ¬ pointer e₂ 4096 → ends none) ∧
              (pointer e₂ 4096 → (at_ (base e₂) 29 21 = none → ends none) ∧
                ∀ e₃, at_ (base e₂) 29 21 = some e₃ → (leaf e₃ 20 → ends (some (e₃, page e₃ 20, 20))) ∧
                  (¬ leaf e₃ 20 → ¬ pointer e₃ 256 → ends none) ∧
                  (pointer e₃ 256 → (at_ (base e₃) 20 16 = none → ends none) ∧
                    ∀ e₄, at_ (base e₃) 20 16 = some e₄ → (leaf e₄ 15 → ends (some (e₄, page e₄ 15, 15))) ∧
                      (¬ leaf e₄ 15 → ends none)))))) ∧
  (∀ (s : State) (x : Ctx) (va : Nat),
    let out (e : Option TEntry) : Prop := ∃ u : State, s.resolve x va = (u, e) ∧ u.mem = s.mem ∧ u.blocks = s.blocks
    (s.walk x va = none → out none) ∧
    ∀ leaf pa z, s.walk x va = some (leaf, pa, z) →
      let entry (k : Nat) : TEntry := { asid := x.asid, page := va / 65536, leaf := BitVec.ofNat 64 leaf, pa := pa, key := k, top := z }
      let ppn := pa / 2 ^ 16 % 2 ^ 32
      let hashed := ppn * 0x9E3779B97F4A7C15 % 2 ^ 64 / 2 ^ 32 * s.wh.live.length / 2 ^ 32
      let frame (d : Nat) : Option TEntry := (s.wh.live[d]?).map fun p => entry (p * 2 ^ 37 + ppn % 2 ^ 21 * 65536)
      (pa / 2 ^ 48 = 0 → leaf / 2 ^ 60 % 2 = 0 → out (frame hashed)) ∧
      (pa / 2 ^ 48 = 0 → leaf / 2 ^ 60 % 2 = 1 → ∀ t : TlrCopy, s.tlrc.find? (fun t => t.asid == x.asid && t.idx == leaf / 2 ^ 52 % 2 ^ 8) = some t →
        out (frame ((t.tlr.home? s.wh.live.length (va / 65536 * 65536)).getD hashed))) ∧
      (pa / 2 ^ 48 = 1 → out (some (entry (2 ^ 48 + pa % 2 ^ 48)))) ∧ (pa / 2 ^ 48 = 2 → out (if s.peerOk pa then some (entry (2 ^ 49 + pa % 2 ^ 48)) else none)) ∧
      (3 ≤ pa / 2 ^ 48 → out none)) ∧
  (∀ (t : Tlr) (l va : Nat), t.malformed = false → 0 < l →
    let f (hi lo : Nat) : Nat := t.raw.toNat / 2 ^ lo % 2 ^ (hi + 1 - lo)
    let tile := (va - f 63 0) / (f 223 192 * 65536)
    let tpr := (f 127 96 + f 159 144 - 1) / f 159 144
    let i := (tile / tpr % f 227 224 * f 231 228 + tile % tpr % f 231 228) % l
    (f 63 0 ≤ va → va < f 63 0 + tpr * ((f 95 64 + f 143 128 - 1) / f 143 128) * (f 223 192 * 65536) →
      t.home? l va = some (t.raw.toNat / 2 ^ (256 + 8 * i) % 256 % l)) ∧
    (va < f 63 0 ∨ f 63 0 + tpr * ((f 95 64 + f 143 128 - 1) / f 143 128) * (f 223 192 * 65536) ≤ va → t.home? l va = none)) ∧
  ∀ (s : State) (core k va : Nat) (need : Need),
    let r := s.checkPage core k va need
    let canon : Prop := ∀ i, 55 ≤ i → i < 64 → va.testBit i = va.testBit 55
    (¬ canon → r.2 = .error 0x11) ∧
    (canon → ∀ u e, s.xlate core k va = (u, e) → r.1 = u ∧ (e = none → r.2 = .error 0x12) ∧
      ∀ t, e = some t →
        let may : Bool := match need with
          | .read => t.leaf.getLsbD 2
          | .write => t.leaf.getLsbD 3
          | .exec => t.leaf.getLsbD 4
          | .rmw => t.leaf.getLsbD 2 && t.leaf.getLsbD 3
        r.2 = if may then .ok t else .error 0x13)

/-! ## Control instructions (R45 to R49, R56, R228 to R236) -/

/-- BRA, JMPI and CSW (R228, R229, R56): each guarded lane, helper lanes apart, stands at its target and leaves the clause; the others are as they
were. BRA's target is 4·SInt(OFF) from its header, JMPI's and CSW's are CodeBase plus the operand, here accepted; CSW exchanges the pair with
the offset of the successor and the frame pointer. EXIT, YIELD and NOP (R231, R236): the guarded real threads have exited and no byte of
memory has changed; YIELD ends the clause for its whole group, which is the most recently issued and stands at the successor, as if YLD were
set; NOP does nothing. Where YIELD leaves its group in the order is the model's reading (log 43). -/
def Obligations.ControlTransfers : Prop :=
  (∀ s c g m, Executes s c → Guarded s c g m → c.b.dbg.trc = false →
      let leaves (t : State) (l : Nat) (y : Lane) : Prop :=
        (t.warp c.bk c.wi).lane l = (if m.has l then y else c.w.lane l) ∧
          ((t.warp c.bk c.wi).flight.map fun f => f.act.has l) = some (c.fl.act.has l && !m.has l)
      (∀ off : BitVec 22, ∃ t : State, exec (.bra g off) s = .next t ∧ t.mem = s.mem ∧ ∀ l, l < 32 → (c.w.lane l).isHelper = false →
        leaves t l { c.w.lane l with pc := BitVec.ofInt 64 (c.fl.pc.toInt + 4 * off.toInt), widx := 0 }) ∧
      (∀ a : Src, (s.badTargets c (realOf c m) fun l => c.b.codeBase + (Cx32 c s a l).setWidth 64).2 = [] →
        ∃ t : State, exec (.jmpi g a) s = .next t ∧ ∀ l, l < 32 → (c.w.lane l).isHelper = false →
          leaves t l { c.w.lane l with pc := c.b.codeBase + (Cx32 c s a l).setWidth 64, widx := 0 }) ∧
      ∀ r : BitVec 6, (s.badTargets c (realOf c m) fun l => c.b.codeBase + (c.v s.tick l r.toNat).setWidth 64).2 = [] →
        ∃ t : State, exec (.csw g (.v r)) s = .next t ∧ ∀ l, l < 32 → (c.w.lane l).isHelper = false →
          let x := c.w.lane l
          let y := (t.warp c.bk c.wi).lane l
          (m.has l = false → y = x) ∧
          (m.has l = true →
            { y with v := x.v, vPois := x.vPois } =
              { x with pc := c.b.codeBase + (c.v s.tick l r.toNat).setWidth 64, widx := 0, fp := c.v s.tick l (r.toNat + 1) } ∧
            tget y.v r.toNat = some ((c.fl.succ - c.b.codeBase).setWidth 32) ∧ tget y.v (r.toNat + 1) = some x.fp ∧
            ∀ k, k ≠ r.toNat → k ≠ r.toNat + 1 → tget y.v k = tget x.v k)) ∧
  (∀ s c g m, Executes s c → Guarded s c g m →
      (s.gangLatch c.b c.wi = none → ∃ t : State, exec (.exitI g) s = .next t ∧ t.mem = s.mem ∧
        ∀ l, l < 32 → m.has l = true → (c.w.lane l).isReal = true → ((t.warp c.bk c.wi).lane l).st = .exited) ∧
      (∃ t : State, exec (.yieldI g) s = .next t ∧ OnlyWarp s t c ∧
        (t.warp c.bk c.wi).flight = some { c.fl with act := 0, yld := true } ∧
        ∀ l, l < 32 → (t.warp c.bk c.wi).lane l =
          if c.fl.act.has l then { c.w.lane l with stamp := some s.tick, pc := c.fl.succ, widx := 0 } else c.w.lane l) ∧
      exec (.nop g) s = .next s)

/-- BSET, BWAIT, timed BWAIT and BCLR (R45, R46, R232). BSET's MASK is the guarded real threads, be they none, and a waiter outside it is released,
a timed one with the expiry indication. BWAIT's guarded threads of MASK wait at the word, or go on at the next word where every thread of MASK has
arrived or exited, timed ones with the indication of a full release; a thread outside MASK passes. BCLR takes the guarded threads from MASK and
ARR. -/
def Obligations.ReconvergenceBarriers : Prop :=
  ∀ s c g (n : BitVec 4), Executes s c →
    let br : BReg := tgetD c.w.bars n.toNat {}
    let after (t : State) : BReg := tgetD (t.warp c.bk c.wi).bars n.toNat {}
    let lane (t : State) (l : Nat) : Lane := (t.warp c.bk c.wi).lane l
    let set : Mask := realOf c (c.guarded s.tick g)
    (∃ t : State, exec (.bset g n) s = .next t ∧ t.mem = s.mem ∧ (after t).mask = set ∧
      ∀ l, l < 32 → (c.w.lane l).isReal = true → (c.w.lane l).waitsOnB n.toNat = true → set.has l = false →
        (lane t l).st = .runnable ∧ (lane t l).pc = (c.w.lane l).resume.1 ∧ (lane t l).widx = (c.w.lane l).resume.2 ∧
        ∀ k pp q, (c.w.lane l).st = .waiting (.bwaitTimed k pp q) → tget (lane t l).p pp = some true ∧ tget (lane t l).p (pp + 1) = some false) ∧
    ∀ m, Guarded s c g m →
    let go : Mask := realOf c m &&& br.mask
    (∃ t : State, exec (.bclr g n) s = .next t ∧ t.mem = s.mem ∧ (after t).mask = br.mask &&& ~~~m ∧
      ∀ l, (after t).arr.has l = true → br.arr.has l = true ∧ m.has l = false) ∧
    ((∀ l, br.mask.has l = true → (c.w.lane l).isHelper = false) →
      ∀ pp count, ∀ e ∈ [(Instr.bwait g n, Wait.bwait n.toNat), (Instr.bwaitTimed g n pp count, Wait.bwaitTimed n.toNat pp.toNat count.toNat)],
        ∃ t : State, exec e.1 s = .next t ∧ (after t).mask = br.mask ∧
          (∀ l, l < 32 → (c.w.lane l).isHelper = false → (c.w.lane l).isRunnable = true → go.has l = false →
            { lane t l with frag := (c.w.lane l).frag } = c.w.lane l) ∧
          (go.none = false → (∀ l, l < 32 → br.mask.has l = true → (br.arr ||| go).has l = true ∨ (c.w.lane l).isExited = true) →
            (after t).arr = 0 ∧ ∀ l, l < 32 → go.has l = true → (lane t l).st = .runnable ∧ (lane t l).pc = c.fl.next.1 ∧
              (lane t l).widx = c.fl.next.2 ∧
              (e.2 = .bwaitTimed n.toNat pp.toNat count.toNat → tget (lane t l).p pp.toNat = some false ∧ tget (lane t l).p (pp.toNat + 1) = some true)) ∧
          ∀ j, j < 32 → br.mask.has j = true → (br.arr ||| go).has j = false → (c.w.lane j).isExited = false →
            (go.none = false → (after t).arr = br.arr ||| go) ∧
            ∀ l, l < 32 → go.has l = true → (lane t l).st = .waiting e.2 ∧ (lane t l).pc = c.fl.pc ∧ (lane t l).widx = c.fl.idx)

/-- BAR, BAR.ARV, CBAR and CBAR.ARV (R48, R49, R233): the guarded real threads arrive, and in the waiting forms wait at the word. Where with
them every warp of the block has arrived, the block barrier completes: its generation count rises, its arrival masks are clear, and they go
on at the next word; so does a cluster barrier of a block alone, which in a re-execution completes where its log says (log 37). -/
def Obligations.BlockBarriers : Prop :=
  ∀ s c g m, Executes s c → Guarded s c g m → c.b.replay = none → (realOf c m).none = false →
    let lane (t : State) (l : Nat) : Lane := (t.warp c.bk c.wi).lane l
    let goesOn (t : State) : Prop := ∀ l, l < 32 → (realOf c m).has l = true →
      (lane t l).st = .runnable ∧ (lane t l).pc = c.fl.next.1 ∧ (lane t l).widx = c.fl.next.2
    let waitsOn (t : State) (w : Wait) : Prop := ∀ l, l < 32 → (realOf c m).has l = true →
      (lane t l).st = .waiting w ∧ (lane t l).pc = c.fl.pc ∧ (lane t l).widx = c.fl.idx
    let arrived (x : BBar) : Prop := ∀ j, j < c.b.warps.length →
      (c.b.warp j).arrived (if j = c.wi then x.arr.getD j 0 ||| realOf c m else x.arr.getD j 0) = true
    (∀ i : BitVec 4, let x : BBar := tgetD c.b.bars i.toNat {}
      let bar (t : State) : BBar := ((t.block? c.bk).map fun b => tgetD b.bars i.toNat {}).getD {}
      ∃ (t u : State), exec (.bar g i) s = .next t ∧ exec (.barArv g i) s = .next u ∧
        (arrived x → goesOn t ∧ bar t = { arr := [], gen := x.gen + 1 } ∧ bar u = { arr := [], gen := x.gen + 1 }) ∧
        (¬ arrived x → waitsOn t (.bar i.toNat) ∧ (bar t).arr.getD c.wi 0 = x.arr.getD c.wi 0 ||| realOf c m ∧ bar u = bar t)) ∧
    ∀ j : BitVec 3, let x : BBar := tgetD c.b.cbars j.toNat {}
      let bar (t : State) : BBar := ((t.block? c.bk).map fun b => tgetD b.cbars j.toNat {}).getD {}
      ∃ (t u : State), exec (.cbar g j) s = .next t ∧ exec (.cbarArv g j) s = .next u ∧ (goesOn t ∨ waitsOn t (.cbar j.toNat)) ∧
        (c.b.cluster = none → s.replaying c.bk = false → arrived x → goesOn t ∧ bar t = { arr := [], gen := x.gen + 1 } ∧ bar u = { arr := [], gen := x.gen + 1 }) ∧
        (¬ arrived x → waitsOn t (.cbar j.toNat) ∧ (bar t).arr.getD c.wi 0 = x.arr.getD c.wi 0 ||| realOf c m ∧ bar u = bar t)

/-- TWAIT and WAITW (R234, R235): where the level has reached the value, or the word meets the test, the group goes on with the acquire of the
context's scope, or of SCOPE where ACQ asks for one; else the guarded real threads wait at the word. The ends of waits: BWAIT_TIMEOUT (R46)
releases the threads whose count has expired, once the words of that cycle have run, with P2k set and P2k+1 clear; WAITW_RELEASE (R235)
releases the threads whose test now holds; WAITW_POLL (R88) makes the watched host or peer word's die give up its line and tests again. A wait
whose condition holds at once passes in its own step (log 89, the model's reading). -/
def Obligations.LevelAndWordWaits : Prop :=
  (∀ s c g m, Executes s c → Guarded s c g m → c.b.replay = none → s.replaying c.bk = false →
      let waitsOn (t : State) (w : Wait) : Prop := ∀ l, l < 32 → (realOf c m).has l = true →
        let y := (t.warp c.bk c.wi).lane l
        y.st = .waiting w ∧ y.pc = c.fl.pc ∧ y.widx = c.fl.idx ∧ y.resume = c.fl.next
      (∀ (k : BitVec 3) (a : Src) (v : Word), ∀ e ∈ [(Instr.twait g k a, (Cx64 c s a 0).toNat), (Instr.twaitImm g k v, v.toNat)],
        ∃ t : State, exec e.1 s = .next t ∧
          (e.2 ≤ (c.b.eng k.toNat).level → t = s.acquire c.bk (c.b.eng k.toNat).scope ∧ RegsKept t c) ∧
          ((c.b.eng k.toNat).level < e.2 → waitsOn t (.twait k.toNat e.2) ∧ t.mem = s.mem)) ∧
      ∀ x : WaitwArgs, x.g = g → s.recordings = [] → (realOf c m).none = false →
        let n := if x.w64 then 8 else 4
        let a := (Cx64 c s x.adr 0).toNat
        let v := (c.waitVal s.tick x).toNat
        ∀ u p z bs, s.checkGlobal c a n .read true false = (u, .ok p) → (u.forceWord c (realOf c m) a n).watchRead c.b a n (byteKey p.1 p.2 a 0) = (z, bs) →
          z.l2Pois c.b.die (byteKey p.1 p.2 a 0) = false →
          ∃ t : State, exec (.waitw x) s = .next t ∧
            (waitwTest x.cmp n (leNat bs) v = true → RegsKept t c ∧
              ((x.acq = true ∧ 2 ≤ x.scope.toNat ∨ p.1.ord = 1) → (t.core c.b.core).l1 = [])) ∧
            (waitwTest x.cmp n (leNat bs) v = false →
              waitsOn t (.waitw a (BitVec.ofNat 64 v) x.cmp x.w64 (x.acq || decide (p.1.ord = 1)) (if p.1.ord = 1 then 5 else x.scope) false))) ∧
  (∀ s (b w : Nat) bl, s.block? b = some bl → w < bl.warps.length → bl.resident = true → s.replaying b = false →
      (∃ t : State, exec (.bwaitTimeout b w) s = .next t ∧ ∀ l n pp count, l < 32 → l < (bl.warp w).lanes.length → n < 16 →
        ((bl.warp w).lane l).isHelper = false → ((bl.warp w).lane l).st = .waiting (.bwaitTimed n pp count) → count < ((bl.warp w).lane l).waitClk →
          let y := (t.warp b w).lane l
          y.st = .runnable ∧ y.pc = ((bl.warp w).lane l).resume.1 ∧ y.widx = ((bl.warp w).lane l).resume.2 ∧
          tget y.p pp = some true ∧ tget y.p (pp + 1) = some false) ∧
      ((bl.warp w).held = [] → ∀ wt u bs, (bl.warp w).watches = [wt] → s.waitwNow bl wt = (u, some (true, none, bs)) →
        ∃ t : State, exec (.waitwRelease b w) s = .next t ∧ ∀ l, l < (bl.warp w).lanes.length → ((bl.warp w).lane l).isHelper = false →
          ((bl.warp w).lane l).st = .waiting wt →
            let y := (t.warp b w).lane l
            y.st = .runnable ∧ y.pc = ((bl.warp w).lane l).resume.1 ∧ y.widx = ((bl.warp w).lane l).resume.2) ∧
      ∃ (u t : State), exec (.waitwPoll b w) s = .next t ∧ exec (.waitwRelease b w) u = .next t ∧ u.blocks = s.blocks ∧
        ∀ a v k f q z o, (bl.warp w).watches = [.waitw a v k f q z o] → ∀ r e, s.resolve (s.ctx bl.ctx) a = (r, some e) → isOutside e.key = true →
          ∀ h ∈ u.hlines, h.line ≠ (e.key + a % 65536) / 128)



/-! ## Engine instructions and commands (R55 to R66, R255 to R286) -/

/-- The command forms CPY, CENC, CDEC, CPYM, DRAIN, AZERO and IORD (R257): a release at the context's scope first, then the snapshot and its
checks. Where the context has room and the checks pass, the command joins the context with the next token, which the S pair gets, and nothing
else changes; a failed check is the trap of its cause, and without room the threads of ACT wait at the word (log 50). That a wait for room
holds all of ACT, and that a command issues whose guard holds in a helper lane only, are the model's readings (logs 50 and 129). -/
def Obligations.CommandIssue : Prop :=
  ∀ s c (x : EngArgs) m, Executes s c → Guarded s c x.g m → c.b.replay = none → s.replaying c.bk = false →
    let k := x.ecf.toNat % 8
    let u := s.release c.bk c.wi (c.b.eng k).scope
    ∀ e ∈ ([(.cpy x, 0x00, copyMake .cpy c (c.opS s.tick x.o1) 0), (.cenc x, 0x01, copyMake .cenc c (c.opS s.tick x.o1) (c.opS s.tick x.o2)),
        (.cdec x, 0x02, copyMake .cdec c (c.opS s.tick x.o1) 0), (.cpym x, 0x03, cpymMake c x s.tick),
        (.drain x, 0x0A, drainMake c (c.opS s.tick x.o1) x.dimm),
        (.azero x, 0x0B, fun _ => if x.dimm.toNat % 16 < c.b.tiles.length then .ok (.azero (x.dimm.toNat % 16)) else .error 0x20),
        (.iord x, 0x0C, iordMake c x s.tick)] : List (Instr × BitVec 6 × (State → Except Nat CmdKind))),
      (∀ kind, (c.b.eng k).top - (c.b.eng k).level < 256 → e.2.2 u = .ok kind → exec e.1 s = .next (commandStarted u c k e.2.1 kind x.sdst.toNat)) ∧
      (∀ code, (c.b.eng k).top - (c.b.eng k).level < 256 → e.2.2 u = .error code → exec e.1 s = .next (u.warpTrap c code 0)) ∧
      (256 ≤ (c.b.eng k).top - (c.b.eng k).level → exec e.1 s = .next ((u.logWait c).waitAct c (.room k)))

/-- MMA, MMAB and MMV (R270, R272) of a warp in no gang, where ACT holds every thread of the warp that has not exited (R64): the issue of a
command. Otherwise the trap of cause 0x21 with CODE 2. In a gang the operation waits in the latch until every member has arrived (R63); the
last one, where the members' words agree and the checks pass, issues one command, whose token every member gets. GANGSET (R268): the first
warp of a formation takes a latch and waits, and the last forms the gang; of mask 0 in no gang nothing. That R64 holds for a warp in no gang,
and that a wait at an ENG word holds all of ACT, are the model's readings (logs 44 and 50). -/
def Obligations.MatrixAndGangs : Prop :=
  ∀ s c (x : EngArgs) m, Executes s c → Guarded s c x.g m → c.b.replay = none → s.replaying c.bk = false →
    let k := x.ecf.toNat % 8
    let u := s.release c.bk c.wi (c.b.eng k).scope
    (∀ e ∈ ([(.mma x, 7, fun r sc => mmaMake false r x s.tick sc), (.mmab x, 8, fun r sc => mmaMake true r x s.tick sc),
        (.mmv x, 9, fun r _ => mmvMake r x s.tick)] : List (Instr × BitVec 6 × (Cx → List (List (Option Byte)) → State → Except Nat CmdKind))),
      let me : Arrival := c.arrival s.tick e.2.1 x
      ((∃ l, l < 32 ∧ (c.w.lane l).isReal = true ∧ (c.w.lane l).isExited = false ∧ c.fl.act.has l = false) →
        exec e.1 s = .next (s.warpTrap c 0x21 2)) ∧
      ((∀ l, l < 32 → (c.w.lane l).isReal = true → (c.w.lane l).isExited = false → c.fl.act.has l = true) →
        (∀ kind, s.gangLatch c.b c.wi = none → (c.b.eng k).top - (c.b.eng k).level < 256 → e.2.2 c [me.scales] u = .ok kind →
          exec e.1 s = .next (commandStarted u c k e.2.1 kind x.sdst.toNat)) ∧
        ∀ g lt, s.gangLatch c.b c.wi = some g → tget (s.core c.b.core).latches g = some lt →
          (lt.arrivals.length + 1 < lt.mask.list.length →
            exec e.1 s = .next ((u.setArrivals c.b.core g (arriveInsert me lt.arrivals)).waitAct c .gang)) ∧
          ∀ r₀ as kind, arriveInsert me lt.arrivals = r₀ :: as → lt.mask.list.length ≤ as.length + 1 → (∀ a ∈ as, a.fields = r₀.fields) →
            (c.b.eng k).top - (c.b.eng k).level < 256 → e.2.2 (u.memberCx c r₀) ((r₀ :: as).map (·.scales)) u = .ok kind →
            exec e.1 s = .next (u.gangIssue c g r₀ (r₀ :: as) kind))) ∧
    (let mask : Mask := c.opS s.tick x.o1
     (mask = 0 → s.gangLatch c.b c.wi = none → exec (.gangset x) s = .next s) ∧
     (mask = 0 → ∀ g, s.gangLatch c.b c.wi = some g → exec (.gangset x) s = .next ((s.dissolve c.b g).settle c.bk).wakeAll) ∧
     (mask ≠ 0 → gangMaskOk c mask = false → exec (.gangset x) s = .next (s.warpTrap c 0x20 0)) ∧
     (mask ≠ 0 → gangMaskOk c mask = true →
      let forming := (s.core c.b.core).latches.find? fun l => l.2.block == c.bk && l.2.mask == mask && !l.2.formed
      (∀ g, forming = none → s.freeLatch c.b.core false = some g →
        let lt : Latch := { block := c.bk, mask := mask, formed := false, joined := maskOf (· == c.wi), arrivals := [] }
        exec (.gangset x) s = .next (((s.modCore c.b.core fun y => y.leaveForming c.bk c.wi).modCore c.b.core fun y =>
          { y with latches := tset y.latches g lt }).waitAct c (.forming mask))) ∧
      (forming = none → s.freeLatch c.b.core false = none → exec (.gangset x) s = .next ((s.logWait c).waitAct c (.gangset mask))) ∧
      ∀ g lt, forming = some (g, lt) → lt.joined ||| maskOf (· == c.wi) = mask →
        ∃ t : State, exec (.gangset x) s = .next t ∧ t.mem = s.mem ∧ ((tget (t.core c.b.core).latches g).map fun y => (y.formed, y.mask)) = some (true, mask) ∧
          ∀ i, i < c.b.warps.length → mask.has i = true →
            (t.warp c.bk i).gang = { members := mask, valid := true, latch := g, seq := 0, rank := rankIn mask i }))

/-- RINGP, RINGC and RINGC.WAIT (R265, R266). RINGP of a free slot claims it: the slot word gets the consumers' mask, HEAD moves on, the S
register gets the slot, and the core's L1 is dropped; of a slot that is not free it waits. RINGC clears the issuing core's bit of its slot,
and FULL with the last bit. RINGC.WAIT of a full slot with the core's bit goes on with an acquire at CELL scope, else it waits. When a ring is
in use is the model's reading (log 97), and so is that a wait at an ENG word holds all of ACT (log 50). -/
def Obligations.Rings : Prop :=
  ∀ s c (x : EngArgs) m h, Executes s c → Guarded s c x.g m → c.b.replay = none → s.replaying c.bk = false →
    let off := (c.opS s.tick x.o1).toNat
    s.ringHome c (x.dimm.toNat % 8) off = some h →
    let cfg := h.ringWord s.tick off 0
    let hd := h.ringWord s.tick off 2
    let put (z : State) (p v : Nat) : State := z.modNow h.key fun y =>
      { (y.spadWrite (mapFrom 0 (fun i b => (p + i, b)) (leBytes 4 v))).raceClear p 4 with spadForeign := true }
    (h.slotWord s.tick off (hd % 16) % 128 = 0 → h.boosts.contains off = false →
      exec (.ringp x) s = .next (((put (put (s.useRing h.key off) (off + 64 + 4 * hd) (h.slotWord s.tick off hd / 256 % 256 * 256 + cfg / 256 % 128))
        (off + 8) ((hd + 1) % (cfg % 16 + 1))).giveS c.bk c.wi x.sdst.toNat (BitVec.ofNat 32 hd)).acquire c.bk 2)) ∧
    (h.slotWord s.tick off (hd % 16) % 128 ≠ 0 ∨ h.boosts.contains off = true →
      ∃ u : State, exec (.ringp x) s = .next (u.waitAct c (.ringp h.key off)) ∧ u.mem = s.mem) ∧
    (∀ slot, (c.opS s.tick x.o2).toNat = slot → slot ≤ cfg % 16 →
      let w := h.slotWord s.tick off slot
      let u := ((s.release c.bk c.wi 2).useRing h.key off).modWarp c.bk c.wi fun y => { y with ring := some (h.key, off) }
      (w.testBit c.b.lslot = false → exec (.ringc x) s = .next u) ∧
      (w.testBit c.b.lslot = true → c.b.lslot < 7 →
        let w' := w - 2 ^ c.b.lslot
        exec (.ringc x) s = .next ((put u (off + 64 + 4 * slot) (if w' % 128 = 0 ∧ w.testBit 7 = true then w' - 128 else w')).boostEnds h.key off).wakeAll) ∧
      let v := (s.useRing h.key off).modWarp c.bk c.wi fun y => { y with ring := some (h.key, off) }
      (w.testBit 7 = true → w.testBit c.b.lslot = true → exec (.ringcWait x) s = .next (v.acquire c.bk 2)) ∧
      (¬ (w.testBit 7 = true ∧ w.testBit c.b.lslot = true) → exec (.ringcWait x) s = .next ((v.logWait c).waitAct c (.ringc h.key off slot c.b.lslot))))

/-- The iterations of MMA, MMAB, MMV and DRAIN (R111, R112, R115, R117, R118, R269 to R273, R275). A K-block's records are read, of A from the
rows and of B from the columns, and folded into the tile's drained part; MMA takes E of A from the gang's scale bytes, MMV folds each partial
from +0 and adds it once. A row of DRAIN reads its residuals, writes its outputs in their format, and with .CLR zeroes its elements. A fault
of a record or of an element address is the engine fault, with the failing address. The arithmetic of the matrix path (R103, R111 to R113,
R117, R118): what folding writes and leaves; the exact body sum, whose zero is +0 and whose specials are R113's; then the accumulator and each
outlier term rounded once, in ascending k; the drained value of values that are no NaN by the operations of R96, and DefaultNaN of a NaN; and
the keep test. The order of the iterations (log 90), that a faulting row of DRAIN writes nothing (log 40), and that its alignment is checked
after its residual is read (log 130) are the model's choices. -/
def Obligations.MatrixIterations : Prop :=
  (∀ s (b k tok : Nat) bl cmd, s.block? b = some bl → bl.cmd? k tok = some cmd → s.cmdReady bl cmd = true →
      let iteration := exec (.commandIteration b k tok) s
      let done (u : State) : State := u.modCmd b k tok fun y => { y with iter := cmd.iter + 1, finished := decide (cmd.kind.count ≤ cmd.iter + 1) }
      let at_ (sp : Nat) (v : Nat) : Nat := if sp = 1 then v % 2 ^ 32 else v
      let rows (oa ob : Operand) (ia ib : List Nat) (fold : State → List MRec → List MRec → State) : Prop :=
        (∀ u e, s.firstRec bl cmd oa cmd.firstA = (u, .error e) → iteration = .next (u.engFault bl k cmd e.1 e.2)) ∧
        ∀ u fa v fb, s.firstRec bl cmd oa cmd.firstA = (u, .ok fa) → u.firstRec bl cmd ob cmd.firstB = (v, .ok fb) →
          let w := v.modCmd b k tok fun y => { y with firstA := some fa, firstB := some fb }
          (∀ u e, w.operandRecs bl cmd oa fa ia = (u, .error e) → iteration = .next (u.engFault bl k cmd e.1 e.2)) ∧
          ∀ u as v bs, w.operandRecs bl cmd oa fa ia = (u, .ok as) → u.operandRecs bl cmd ob fb ib = (v, .ok bs) →
            iteration = .next (done (fold v as bs))
      let folded (t m n : Nat) (E : Nat → Option Nat) (f : Nat → List (MEl × MEl) → Nat) (v : State) (as bs : List MRec) : State :=
        v.modBlock b fun y => y.foldTile t m n fun i j =>
          let ps := (rowOf as i (E i)).zip (colOf bs j)
          (BitVec.ofNat 32 (f (y.accEl v.tick t i j).toNat ps), y.accPois.contains (4096 * t + 64 * i + j) || ps.any fun p => p.1.pois || p.2.pois)
      let product (dimm : BitVec 13) (a a' : DWord) (ctl : Word) (dense dense' : Bool) (E : Nat → Option Nat) : Prop :=
        let m := 16 * 2 ^ (dimm.toNat % 4)
        let n := 16 * 2 ^ (dimm.toNat / 4 % 4)
        let asp := ctl.toNat / 16 % 2
        let bsp := ctl.toNat / 32 % 2
        rows { sp := asp, base := (at_ asp a.toNat : Nat), dense := dense, kdir := false }
          { sp := bsp, base := (at_ bsp a'.toNat : Nat), dense := dense', kdir := true }
          ((List.range (m / 16)).map fun i => i * (dimm.toNat / 16 % 16 + 1) + cmd.iter)
          ((List.range (n / 16)).map fun j => cmd.iter * (n / 16) + j) (folded (ctl.toNat % 16) m n E foldBlock)
      (∀ dimm a a' ctl scales, cmd.kind = .mma dimm a a' ctl scales → product dimm a a' ctl false (dimm.getLsbD 12) fun i =>
        let x := cmd.iter * (16 * 2 ^ (dimm.toNat % 4)) + i
        some ((scales.getD x none).getD (Config.freeByte s.tick x)).toNat) ∧
      (∀ dimm a a' ctl, cmd.kind = .mmab dimm a a' ctl → product dimm a a' ctl true true fun _ => none) ∧
      (∀ dimm a a' ctl n, cmd.kind = .mmv dimm a a' ctl n →
        let cols := 2 ^ (dimm.toNat / 8 % 4)
        rows { sp := 1, base := (a : Nat), dense := dimm.getLsbD 5, kdir := false }
          { sp := 0, base := (a'.toNat : Nat), dense := false, kdir := true, nm := true }
          [cmd.iter] ((List.range cols).map fun j => cmd.iter * cols + j)
          (folded (ctl.toNat % 16) (dimm.toNat % 8 + 1) (16 * cols) (fun _ => none) fun acc ps => accStep acc (MVal.ofFp fp32 (foldBlock 0 ps)))) ∧
      ∀ d tile clr, cmd.kind = .drain d tile clr →
        let f (hi lo : Nat) : Nat := d.toNat / 2 ^ lo % 2 ^ (hi + 1 - lo)
        let bytes (code : Nat) : Nat := if code = 0 then 4 else 2
        let cols := 16 * 2 ^ f 387 386
        let i := cmd.iter
        let resv : Bool := decide (f 392 392 = 1)
        let rw := bytes (f 391 390)
        let ow := bytes (f 389 388)
        let ra := (List.range cols).map fun j => ((at_ (f 395 395) (f 127 64) + i * f 383 352 + j * rw : Nat) : Int)
        let oa := (List.range cols).map fun j => ((at_ (f 394 394) (f 63 0) + i * f 351 320 + j * ow : Nat) : Int)
        let straight (w : Nat) (as : List Int) : Prop := ∀ a ∈ as, a % (w : Int) = 0
        let odd (sp w : Nat) (a : Int) : Prop := a % (w : Int) ≠ 0 ∧ (sp = 0 → canonical (addr64 a) = true)
        (∀ pre a post u xs, resv = true → ra = pre ++ a :: post → straight rw pre → odd (f 395 395) rw a →
          s.engReadEls bl cmd (f 395 395) rw pre = (u, .ok xs) → iteration = .next (u.engFault bl k cmd 0x10 (addr64 a))) ∧
        (resv = false ∨ straight rw ra →
          (∀ u e, s.engReadEls bl cmd (f 395 395) rw (if resv then ra else []) = (u, .error e) → iteration = .next (u.engFault bl k cmd e.1 e.2)) ∧
          ∀ u rs, s.engReadEls bl cmd (f 395 395) rw (if resv then ra else []) = (u, .ok rs) →
            let mine (j : Nat) : List PByte := (rs.drop (rw * j)).take rw
            let kept (j : Nat) : Option Bool := if f 393 393 = 1 then
              some (keepTest (BitVec.ofNat 32 (f 287 256 + i)) (BitVec.ofNat 32 (f 319 288 + j)) (BitVec.ofNat 64 (f 191 128)) (f 415 400)) else none
            let res (j : Nat) : Option MVal := if resv then some (MVal.ofFp (drainFmt (f 391 390)) (leNat ((mine j).map (·.1)))) else none
            let val (j : Nat) : Nat := drainValue (bl.accEl u.tick tile i j).toNat (f 223 192) (f 255 224) (kept j) (res j)
            let g := drainFmt (f 389 388)
            let out (j : Nat) : Nat := if f 389 388 = 0 then val j else if fp32.isNaN (val j) then g.nan else (fConv fp32 g 0 (val j)).1
            let els := (List.range cols).map fun j =>
              (leBytes ow (out j)).map fun x => (x, bl.accPois.contains (4096 * tile + 64 * i + j) || (mine j).any (·.2))
            (∀ pre a post v, oa = pre ++ a :: post → straight ow pre → odd (f 394 394) ow a →
              (f 394 394 = 1 → v = u ∧ ∀ z ∈ pre, 0 ≤ z ∧ z + ow ≤ bl.spSize) →
              (f 394 394 = 0 → ∃ ks, u.engKeys bl ((oa.zip els).take pre.length) = (v, .ok ks)) →
              iteration = .next (v.engFault bl k cmd 0x10 (addr64 a))) ∧
            (straight ow oa →
              (∀ v e, u.engWriteEls bl cmd (f 394 394) (oa.zip els) = (v, some e) → iteration = .next (v.engFault bl k cmd e.1 e.2)) ∧
              ∀ v, u.engWriteEls bl cmd (f 394 394) (oa.zip els) = (v, none) →
              ∃ clean : Block → Block, iteration = .next (done (if clr then v.modBlock b clean else v)) ∧ ∀ y,
                { clean y with acc := y.acc, accPois := y.accPois } = y ∧
                (∀ tick t r j, r < 64 → j < 64 →
                  (clean y).accEl tick t r j = if t = tile ∧ r = i ∧ j < cols then 0 else y.accEl tick t r j) ∧
                ∀ e, e ∈ (clean y).accPois ↔ e ∈ y.accPois ∧ ¬ (e / 64 = 64 * tile + i ∧ e % 64 < cols)))) ∧
  ((∀ (y : Block) (t m n : Nat) f (tick t' i j : Nat), i < 64 → j < 64 →
      (y.foldTile t m n f).accEl tick t' i j = if t' = t ∧ i < m ∧ j < n then (f i j).1 else y.accEl tick t' i j) ∧
    (∀ x y : Dy, (∃ d : Dy, MVal.mul (.fin x) (.fin y) = .fin d ∧ Dy.rat d = Dy.rat x * Dy.rat y ∧ d.neg = (x.neg != y.neg)) ∧
      ∀ n, MVal.mul (.inf n) (.fin y) = (if Dy.rat y = 0 then .nan else .inf (n != y.neg)) ∧ MVal.mul (.fin y) (.inf n) = MVal.mul (.inf n) (.fin y) ∧
        ∀ k, MVal.mul (.inf n) (.inf k) = .inf (n != k)) ∧
    (∀ acc (ps : List (MEl × MEl)), ∃ body : MVal, foldBlock acc ps = ps.foldl accOutliers (accStep acc body) ∧
      let terms := ps.map fun p => p.1.body.mul p.2.body
      (body = .nan ↔ .nan ∈ terms ∨ (.inf true ∈ terms ∧ .inf false ∈ terms)) ∧
      (∀ n, body = .inf n ↔ .nan ∉ terms ∧ .inf n ∈ terms ∧ .inf (!n) ∉ terms) ∧
      ∀ x, body = .fin x → Dy.rat x = (terms.map fun z => match z with | .fin d => Dy.rat d | _ => 0).sum ∧ (Dy.rat x = 0 → x.neg = false)) ∧
    (∀ r a b, accOutliers r (a, b) =
      let r := match a.res with | some ra => accStep r (ra.mul b.body) | none => r
      let r := match b.res with | some rb => accStep r (a.body.mul rb) | none => r
      match a.res, b.res with | some ra, some rb => accStep r (ra.mul rb) | _, _ => r) ∧
    (∀ acc, acc < 2 ^ 32 → accStep acc .nan = fp32.nan ∧
      (∀ x, (fp32.isNaN acc = true → accStep acc x = fp32.nan) ∧
        (fp32.isInf acc = true → accStep acc x = if x = .nan ∨ x = .inf (!fp32.sign acc) then fp32.nan else acc)) ∧
      (Finite fp32 acc → ∀ n, accStep acc (.inf n) = fp32.inf n) ∧
      (Finite fp32 acc → ∀ x : Dy, ∃ d : Dy, Dy.rat d = Dy.rat (fp32.real acc) + Dy.rat x ∧ (Dy.rat d = 0 → d.neg = (fp32.sign acc && x.neg)) ∧
        accStep acc (.fin x) = (roundFP fp32 0 d).1)) ∧
    (∀ e mu code, bodyVal 0xFF mu code = .nan ∧ bodyVal 0 mu code = .fin ⟨false, 0, 0⟩ ∧ (e ≠ 0 → e < 0xFF → ∃ d : Dy, bodyVal e mu code = .fin d ∧
      Dy.rat d = ((code : ℚ) + 1 / 2) * 2 ^ ((e : Int) - 127 - mu))) ∧
    (∀ acc alpha scale r, acc < 2 ^ 32 → alpha < 2 ^ 32 → scale < 2 ^ 32 → r < 2 ^ 32 →
      fp32.isNaN acc = false → fp32.isNaN alpha = false → fp32.isNaN scale = false → fp32.isNaN r = false →
      let a := (fMul fp32 0 alpha acc).1
      let z : MVal := MVal.ofFp fp32 r
      drainValue acc alpha scale none none = a ∧ drainValue acc alpha scale (some false) none = 0 ∧
      (fp32.isNaN a = false → drainValue acc alpha scale (some true) none = (fMul fp32 0 a scale).1 ∧
        drainValue acc alpha scale none (some z) = (fAdd fp32 0 r a).1 ∧
        (fp32.isNaN (fMul fp32 0 a scale).1 = false → drainValue acc alpha scale (some true) (some z) = (fAdd fp32 0 r (fMul fp32 0 a scale).1).1)) ∧
      drainValue acc alpha scale (some false) (some z) = (fAdd fp32 0 r 0).1) ∧
    (∀ acc alpha scale kept res, fp32.isNaN acc = true ∨ fp32.isNaN alpha = true → kept ≠ some false →
      drainValue acc alpha scale kept res = fp32.nan) ∧
    (∀ acc alpha scale kept, drainValue acc alpha scale kept (some .nan) = fp32.nan) ∧
    ∀ (row col : Word) (key : DWord) p,
      let mix (h : DWord) (m : Nat) : DWord := BitVec.ofNat 64 ((h ^^^ (h >>> 29)).toNat * m)
      let h := mix (mix (mix (BitVec.ofNat 64 (row.toNat * 2 ^ 32 + col.toNat) ^^^ key) 0x8F3A61C5D29B7E15) 0xB7E40A935C6DF2A9) 0xD3C19B578E2F46B1
      keepTest row col key p = decide (p ≤ (h ^^^ (h >>> 32)).toNat / 2 ^ 48))

/-- QENC and QDEC (R214, R215): a participating lane gets the word of its element in the encoding of its block of 16 lanes, the others absent, by
the threshold of the block's lowest participating lane; and each guarded lane gets the FP32 value of such a word. What the encoding of a block
and the value of an element are. An encoded block (R105, R214) has E 0xFF where an element is a NaN; else E is 0 where no candidate-free
magnitude is above 0, and the least that covers the largest one otherwise; a pair takes μ where both its elements are no candidates and within
half the scale; a code is the nearest one, ties to even, clamped; a candidate keeps its exact residual. A decoded element (R103, R110) is the
body value plus the residual, rounded once. θ below zero or a NaN is +∞ to QENC. A tile record (R105 to R109): the fields of a record that
CENC writes, read back. The candidates are ranked by the magnitude of their exact residual, ties by coordinate; the first Cap of them have
entries, the next S are spilled, and more than Cap and S give no record. A record that breaks no rule of R264 comes of it. -/
def Obligations.SplitForms : Prop :=
  (∀ s c (x : LaneArgs), Executes s c →
      let q (l : Nat) : Bool := decide (l < 32) && (c.fl.act.has l && c.guard s.tick x.g l && !(c.w.lane l).isHelper)
      let h3 : Bool := x.sub.getLsbD 0
      let low (g : Nat) : Nat := ((List.range 16).find? fun k => q (16 * g + k)).getD 0
      let enc (g : Nat) : Nat × List EncEl := encBlock h3 (qencTheta (Cx32 c s x.b (16 * g + low g)).toNat)
        ((List.range 16).map fun k => if q (16 * g + k) then some (Cx32 c s x.a (16 * g + k)).toNat else none)
      GivesSome (.qenc x) s c x false (fun l =>
        let el : EncEl := (enc (l / 16)).2.getD (l % 16) {}
        if q l then some (BitVec.ofNat 64 (el.dres.bf16 * 65536 + (enc (l / 16)).1 * 256 + (if el.dres = .none then 0 else 128) + el.mu * 64
          + (el.code % 16).toNat)) else none) ∧
      Gives (.qdec x) s c x false fun l =>
        let v := (Cx32 c s x.a l).toNat
        (BitVec.ofNat 64 (decodeEl (v / 256 % 256) (v / 64 % 2) (if h3 then sint 3 v else sint 4 v) (some (v / 65536))), 0)) ∧
  ((∀ (h3 : Bool) (theta : Option Int) (els : List (Option Nat)), els.length = 16 → (∀ v, some v ∈ els → v < 2 ^ 32) →
      let el (k : Nat) : Option Nat := els.getD k none
      let E := (encBlock h3 theta els).1
      let out (k : Nat) : EncEl := ((encBlock h3 theta els).2).getD k {}
      let nan : Prop := ∃ v, some v ∈ els ∧ fp32.isNaN v = true
      let val (v : Nat) : ℚ := Dy.rat (fp32.real v)
      let cand (v : Nat) : Prop := fp32.isInf v = true ∨ ∃ t, theta = some t ∧ (t : ℚ) * 2 ^ (-149 : Int) < |val v|
      let G : ℚ := if h3 then 7 / 2 else 15 / 2
      let covers (e : Nat) : Prop := ∀ k v, el k = some v → ¬ cand v → |val v| ≤ G * 2 ^ ((e : Int) - 127)
      let small (k : Nat) : Prop := ∀ v, el k = some v → ¬ cand v ∧ |val v| ≤ G * 2 ^ ((E : Int) - 128)
      let low : Int := if h3 then -4 else -8
      (encBlock h3 theta els).2.length = 16 ∧
      (nan → E = 0xFF ∧ ∀ k, k < 16 → out k = {}) ∧
      (¬ nan →
        (E = 0 ↔ ∀ k v, el k = some v → ¬ cand v → val v = 0) ∧ E ≤ 252 ∧
        (E ≠ 0 → (E < 252 → covers E) ∧ ∀ e, 1 ≤ e → e < E → ¬ covers e) ∧
        (∀ k, k < 16 → (out k).mu = if E ≠ 0 ∧ small (k / 2 * 2) ∧ small (k / 2 * 2 + 1) then 1 else 0) ∧
        ∀ k v, k < 16 → el k = some v →
          let step : ℚ := 2 ^ ((E : Int) - 127 - (out k).mu)
          let body : ℚ := if E = 0 then 0 else ((out k).code + 1 / 2) * step
          (E = 0 → (out k).code = 0) ∧
          (E ≠ 0 → (fp32.isInf v = true → (out k).code = if fp32.sign v then low else -low - 1) ∧
            (fp32.isInf v = false → ∃ n : Int, |(n : ℚ) - (val v / step - 1 / 2)| ≤ 1 / 2 ∧
              (|(n : ℚ) - (val v / step - 1 / 2)| = 1 / 2 → n % 2 = 0) ∧ (out k).code = max low (min (-low - 1) n))) ∧
          (¬ cand v → (out k).dres = .none) ∧
          (cand v → (fp32.isInf v = true → (out k).dres = .inf (fp32.sign v)) ∧
            (fp32.isInf v = false → (val v = body → (out k).dres = .none) ∧
              (val v ≠ body → ∃ d : Int, (out k).dres = .fin d ∧ (d : ℚ) * 2 ^ (-149 : Int) = val v - body))))) ∧
    (∀ d : Int, ∃ x : Dy, Dy.rat x = (d : ℚ) * 2 ^ (-149 : Int) ∧ Dres.bf16 (.fin d) = (roundFP bf16 0 x).1) ∧
    (∀ n, Dres.bf16 (.inf n) = bf16.inf n) ∧
    (∀ v, v < 2 ^ 32 → (fp32.isNaN v = true ∨ fp32.isInf v = true ∨ (fp32.sign v = true ∧ fp32.isZero v = false) → qencTheta v = none) ∧
      (Finite fp32 v → fp32.sign v = false ∨ fp32.isZero v = true → ∃ t, qencTheta v = some t ∧ (t : ℚ) * 2 ^ (-149 : Int) = Dy.rat (fp32.real v))) ∧
    ∀ (mu : Nat) (code : Int) (res : Nat), mu < 2 → res < 2 ^ 16 →
      (decodeEl 0xFF mu code (some res) = fp32.nan) ∧
      ∀ e, e < 0xFF → decodeEl e mu code none = decodeEl e mu code (some 0) ∧
        (bf16.isNaN res = true → decodeEl e mu code (some res) = fp32.nan) ∧
        (bf16.isInf res = true → decodeEl e mu code (some res) = fp32.inf (bf16.sign res)) ∧
        (Finite bf16 res → ∃ x : Dy, Dy.rat x = (if e = 0 then 0 else ((code : ℚ) + 1 / 2) * 2 ^ ((e : Int) - 127 - mu)) + Dy.rat (bf16.real res) ∧
          (Dy.rat x = 0 → x.neg = false) ∧ decodeEl e mu code (some res) = (roundFP fp32 0 x).1)) ∧
  (∀ (h3 kdir : Bool) theta cap spill (els : List Nat), cap ≤ 64 → spill ≤ 64 → els.length = 256 →
      let blk (j : Nat) : Nat := if kdir then j % 16 else j / 16
      let pos (j : Nat) : Nat := if kdir then j / 16 else j % 16
      let block (b : Nat) : Nat × List EncEl :=
        encBlock h3 theta ((List.range 16).map fun k => some (els.getD (if kdir then k * 16 + b else b * 16 + k) 0))
      let el (j : Nat) : EncEl := (block (blk j)).2.getD (pos j) {}
      let cands := (List.range 256).filter fun j => decide ((el j).dres ≠ .none)
      let before (i j : Nat) : Bool := (el i).dres.above (el j).dres || (!(el j).dres.above (el i).dres && decide (i < j))
      let rank (j : Nat) : Nat := (cands.filter fun i => before i j).length
      (encTile h3 kdir theta cap spill els = none ↔ cap + spill < cands.length) ∧
      ∀ rec, encTile h3 kdir theta cap spill els = some rec →
        let t := parseTile rec
        rec.length = recSize h3 cap ∧ t.fmt = (if h3 then 1 else 0) ∧ t.kdir = kdir ∧ t.cap = cap ∧ t.spill = cands.length - cap ∧
        t.count = min cap cands.length ∧ recordBad rec t = false ∧
        ∀ j, j < 256 → t.e.getD (blk j) 0 = (block (blk j)).1 ∧ t.muOf j = (el j).mu ∧ t.codes.getD j 0 = (el j).code ∧
          t.res j = if (el j).dres ≠ .none ∧ rank j < cap then some (el j).dres.bf16 else none)

/-- COMMAND_ITERATION, COMMAND_COMPLETE and IO_REQUEST_COMPLETE (R57, R259, R262, R276, R278). An iteration of CPY reads its element and writes it
at the sums of R262; of AZERO makes every element of the tile +0; then the iteration count rises, and the last one finishes the command. The
completion removes the command: the level is the highest token with no command at or below it left. A storage request is a Read of R333's
entry, put into its queue; its data is written at its place with its poison; a peer request's is what the peer's memory holds. A request that
can be sent nowhere, or fails, is an engine fault. The iterations of CENC, CDEC and CPYM (R105, R106, R110, R261, R263, R264, R267): a tile of
elements becomes one record or the fault of its overflow or then of its alignment; a record becomes its elements, each decoded and rounded
once, or the record fault; an element goes into the slot of every consumer, and the last one marks the slot full and advances its generation,
or it is the fault of a slot's end, of a consumer without a block of the cluster, or of a scratchpad's end. The order of the iterations, and
that a store's alignment is checked after the reads before it, are the model's choices (logs 90 and 130), and where IORD reads a peer and what
its handle names are its readings (logs 108 and 117). -/
def Obligations.CommandProgress : Prop :=
  (∀ s (b k tok : Nat) bl cmd, s.block? b = some bl → bl.cmd? k tok = some cmd →
      let done (u : State) : State := u.modCmd b k tok fun y => { y with iter := cmd.iter + 1, finished := decide (cmd.kind.count ≤ cmd.iter + 1) }
      (s.cmdReady bl cmd = true →
        (∀ d th a₁ a₂ a₃ a₄ a₅ l u v bs, cmd.kind = .copy .cpy d th a₁ a₂ a₃ a₄ a₅ l →
          let vec := vecOf (copyCounts d) cmd.iter
          s.engRead bl cmd (copySsp d) (copyAddr d false vec) (2 ^ copyEsz d) = (u, .ok bs) →
          u.engWrite bl cmd (copyDsp d) (copyAddr d true vec) bs = (v, none) →
          exec (.commandIteration b k tok) s = .next (done v)) ∧
        (∀ tile, cmd.kind = .azero tile → ∃ (t : State) (y : Block), exec (.commandIteration b k tok) s = .next t ∧ t.block? b = some y ∧ t.mem = s.mem ∧
          (∀ i j, i < 64 → j < 64 → y.accEl t.tick tile i j = 0) ∧
          { y with acc := bl.acc, accPois := bl.accPois, ecs := bl.ecs } = bl) ∧
        (∀ sp src dst len tgt, cmd.kind = .iord sp src dst len tgt →
          let n := min 32768 (len - 32768 * cmd.iter)
          let h := tgt.toNat % 2 ^ 28
          let size := s.blockLen h
          let place : Int := ((if sp then dst.toNat % 2 ^ 32 else dst.toNat) + 32768 * cmd.iter : Nat)
          let broken := s.iordBroken tgt src len cmd.iter
          (∀ e a, broken = some (e, a) → exec (.commandIteration b k tok) s = .next (s.engFault bl k cmd e a)) ∧
          (tgt.toNat / 2 ^ 28 % 8 = 0 →
            (s.nvmeOk h = false → broken = some (0x1B, 0)) ∧
            (s.nvmeOk h = true → broken = none ∧ ∃ r : NvmeRead, exec (.commandIteration b k tok) s = .next (s.submitRead bl k cmd h r) ∧
              r.slba = (src.toNat + 32768 * cmd.iter / size) % 2 ^ 64 ∧ r.blocks = n / size) ∧
            (broken = none → cmd.asked = some cmd.iter → ∀ data : Payload,
              let u := s.takeCompletion bl k cmd h
              exec (.ioRequestComplete b k tok false data) s = .next (u.engFault bl k { cmd with asked := none } 0x1B 0) ∧
              ∀ v, data.bytes.length = n →
                u.engWrite bl cmd (if sp then 1 else 0) place (data.bytes.map fun x => (x, data.pois)) = (v, none) →
                exec (.ioRequestComplete b k tok true data) s = .next (done v))) ∧
          (tgt.toNat / 2 ^ 28 % 8 ≠ 0 →
            (∀ a, s.peerRead tgt src len cmd.iter = .error a → broken = some (0x12, a)) ∧
            (broken = none → ∀ data, exec (.ioRequestComplete b k tok false data) s = .next (s.engFault bl k cmd 0x1B 0)) ∧
            ∀ a v, s.peerRead tgt src len cmd.iter = .ok a →
              let u := s.cleanHLines fun h => decide (a / 128 ≤ h.line ∧ h.line ≤ (a + n - 1) / 128)
              u.engWrite bl cmd (if sp then 1 else 0) place ((List.range n).map fun i => (u.mem.read (a + i), u.poisoned (a + i))) =
                (v, none) →
              exec (.commandIteration b k tok) s = .next (done v)))) ∧
      (cmd.finished = true →
        let cs := (bl.eng k).cmds.filter fun y => decide (y.tok ≠ tok)
        ∃ (u : State) (y : Block) (n : Nat), exec (.commandComplete b k tok) s = .next u.wakeAll ∧ u.mem = s.mem ∧ u.block? b = some y ∧
          { y with ecs := bl.ecs } = bl ∧ y.eng k = { bl.eng k with cmds := cs, level := n } ∧ (∀ j, j ≠ k → y.eng j = bl.eng j) ∧
          (∀ z ∈ cs, 0 < z.tok → n < z.tok) ∧ (n = (bl.eng k).top ∨ ∃ z ∈ cs, z.tok - 1 = n))) ∧
  ((∀ s (b k tok : Nat) bl cmd op d th home off slot base size cores, s.block? b = some bl → bl.cmd? k tok = some cmd → s.cmdReady bl cmd = true →
      cmd.kind = .copy op d th home off slot base size cores →
      let iteration := exec (.commandIteration b k tok) s
      let done (u : State) : State := u.modCmd b k tok fun y => { y with iter := cmd.iter + 1, finished := decide (cmd.kind.count ≤ cmd.iter + 1) }
      let vec := vecOf (copyCounts d) cmd.iter
      let a := copyAddr d false vec
      let z := copyAddr d true vec
      let w := copyW d
      let grid (x : Int) : List Int := (List.range 16).flatMap fun r => (List.range 16).map fun c => x + (r * copyRpitch d + c * w : Nat)
      (op = .cenc → ∀ u bs, s.engReadEls bl cmd (copySsp d) w (grid a) = (u, .ok bs) →
          let raw (j : Nat) : List PByte := (bs.drop (w * j)).take w
          let els := (List.range 256).map fun j => leNat ((raw j).map (·.1)) * (if copyEtype d = 0 then 1 else 65536)
          let bad := (List.range 256).filter fun j => (raw j).any (·.2)
          let enc := encTile (copyH3 d) (copyKdir d) (thetaOf th.toNat) (copyCap d) (copySpill d) els
          (enc = none → iteration = .next (u.engFault bl k cmd 0x19 (addr64 a))) ∧
          ∀ rec v, enc = some rec →
            (z % 32 ≠ 0 → (copyDsp d = 0 → canonical (addr64 z) = true) → iteration = .next (u.engFault bl k cmd 0x10 (addr64 z))) ∧
            (z % 32 = 0 →
              u.engWrite bl cmd (copyDsp d) z (mapFrom 0 (fun i x => (x, encPoison (parseTile rec) bad i)) rec) = (v, none) →
              iteration = .next (done v))) ∧
      (op = .cdec → ∀ u e, s.readTile bl cmd (copySsp d) a = (u, .error e) → iteration = .next (u.engFault bl k cmd e.1 e.2)) ∧
      (op = .cdec → ∀ u bs, s.readTile bl cmd (copySsp d) a = (u, .ok bs) →
        let t := parseTile (bs.map (·.1))
        let poison (j : Nat) : Bool := (poisonIx bs).any (recordTouches t j true)
        let val (j : Nat) : Nat := if copyEtype d = 0 then t.decode j else t.decodeBf j
        (recordBad (bs.map (·.1)) t = true → iteration = .next (u.engFault bl k cmd 0x18 (addr64 a))) ∧
        (recordBad (bs.map (·.1)) t = false → ∀ v,
          u.engWriteEls bl cmd (copyDsp d) ((grid z).zip ((List.range 256).map fun j => (leBytes w (val j)).map fun x => (x, poison j))) =
            (v, none) →
          iteration = .next (done v))) ∧
      (op = .cpym → ∀ u bs, s.engRead bl cmd (copySsp d) a (2 ^ copyEsz d) = (u, .ok bs) →
        let n := 2 ^ copyEsz d
        let dst := cores.map fun o => o.bind (u.memberOn bl)
        let fits (t : Block) : Prop := (base + z + n : Int) ≤ t.spSize
        (z < 0 ∨ (size : Int) < z + n →
          iteration = .next (u.engFault bl k cmd 0x14 (addr64 (base + (if z < 0 then z else max z size))))) ∧
        (0 ≤ z → z + n ≤ size →
          (none ∈ dst → iteration = .next (u.engFault bl k cmd 0x15 (addr64 (base + z)))) ∧
          (none ∉ dst → ∀ pre t post, dst = pre ++ some t :: post → (∀ y, some y ∈ pre → fits y) → ¬ fits t →
            iteration = .next (u.engFault bl k cmd 0x14 (addr64 (max (base + z) t.spSize)))) ∧
          (none ∉ dst → (∀ t, some t ∈ dst → fits t) →
            let v := dst.reduceOption.foldl (fun x t => x.modNow t.key fun y => y.takeSpad true (mapFrom 0 (fun i e => (base + z.toNat + i, e)) bs)) u
            (cmd.iter + 1 < cmd.kind.count → iteration = .next (done v).wakeAll) ∧
            (cmd.kind.count ≤ cmd.iter + 1 → ∀ h, (v.block? home).map v.nowOf = some h →
              let g := h.slotWord v.tick off slot
              iteration = .next (done (v.putSlot home off slot
                (g % 2 ^ 7 + 2 ^ 7 + (g / 2 ^ 8 + 1) % 2 ^ 8 * 2 ^ 8 + g / 2 ^ 16 * 2 ^ 16))).wakeAll))))) ∧
    (∀ t i, encPoison t [] i = false) ∧
    ∀ (t : TileRec) j,
      let e := t.e.getD (t.blk j) 0
      let r := (t.res j).getD 0
      t.decode j = decodeEl e (t.muOf j) (t.codes.getD j 0) (some r) ∧
      (e = 0xFF → t.decodeBf j = bf16.nan) ∧
      (e < 0xFF → r < 2 ^ 16 → (bf16.isNaN r = true → t.decodeBf j = bf16.nan) ∧ (bf16.isInf r = true → t.decodeBf j = r) ∧
        (Finite bf16 r → ∃ x : Dy, Dy.rat x =
            (if e = 0 then 0 else ((t.codes.getD j 0 : ℚ) + 1 / 2) * 2 ^ ((e : Int) - 127 - t.muOf j)) + Dy.rat (bf16.real r) ∧
          (Dy.rat x = 0 → x.neg = false) ∧ t.decodeBf j = (roundFP bf16 0 x).1)))


/-- RCALL, RREAD and RWAIT (R282 to R284, R290, R299) where the descriptor passes its checks and the method is of the form's kind. RCALL of an
object with no call waiting and room in its log gets its positions, else it joins the waiting calls. RREAD enters the method where the die's
copy has applied every position assigned so far, else it waits, and so does RWAIT, which goes on with an acquire at DEVICE scope. The wrong
kind of method is the trap of cause 0x20. What ACT does while a call waits is the model's reading (log 50). -/
def Obligations.ReplayedCalls : Prop :=
  ∀ s c (x : EngArgs) m, Executes s c → Guarded s c x.g m → c.b.replay = none → s.replaying c.bk = false → (realOf c m).none = false →
    let desc := (c.opS64 s.tick x.o1).toNat
    let mth := x.dimm.toNat % 64
    let caught (u : State) (o : RObj) (n : Nat) : Prop :=
      n ≤ o.applied.getD (u.logicalDie c.b.die) 0 ∧ o.broken.getLsbD (u.logicalDie c.b.die) = false
    (∀ u d o, objRead (s.release c.bk c.wi 4) c desc true = some (u, d, o) →
      (d.valid mth = false ∨ d.readOnly mth = true → exec (.rcall x) s = .next (u.warpTrap c 0x20 0)) ∧
      (d.valid mth = true → d.readOnly mth = false → (realOf c m).list.length ≤ 2 ^ d.logK →
        let vp := match x.o4 with | .v r => r.toNat | _ => 0
        let w : RWaiting :=
          { block := c.bk, warp := c.wi, lanes := c.fl.act, logBase := d.log, logStride := d.logStride, logK := d.logK,
            entries := (realOf c m).list.map fun l => (l, callEntry c s.tick (u.logicalDie c.b.die) x l), sdst := x.sdst.toNat, vp := vp }
        (o.waiting = [] → o.next + (realOf c m).list.length ≤ 2 ^ d.logK + o.trim → exec (.rcall x) s = .next (u.assign c.b.ctx desc w false)) ∧
        (o.waiting ≠ [] ∨ 2 ^ d.logK + o.trim < o.next + (realOf c m).list.length →
            exec (.rcall x) s = .next (((u.modRobj c.b.ctx desc fun y => { y with waiting := y.waiting ++ [w] }).logWait c).waitHere c c.fl.act (.rcall desc))))) ∧
    (∀ u d o, objRead (s.release c.bk c.wi 0) c desc true = some (u, d, o) →
      (d.valid mth = false ∨ d.readOnly mth = false → exec (.rread x) s = .next (u.warpTrap c 0x20 0)) ∧
      (d.valid mth = true → d.readOnly mth = true →
        let k := match x.o2 with | .v r => r.toNat | _ => 0
        let state := BitVec.ofNat 64 (d.copy (u.logicalDie c.b.die))
        let v := u.log c.bk (.regs c.wi 100 (d.entry mth))
        let wt : Wait := .rread desc o.next (d.entry mth) state k x.sdst.toNat
        (caught u o o.next → exec (.rread x) s =
          .next ((v.waitHere c (realOf c m) wt).rreadEnter c.b c.wi (c.w.withHelpers (realOf c m)) (d.entry mth) state k x.sdst.toNat false)) ∧
        (¬ caught u o o.next → exec (.rread x) s = .next ((v.logWait c).waitHere c (realOf c m) wt)))) ∧
    ∀ u d o, objRead s c desc false = some (u, d, o) →
      let pos := (c.opS64 s.tick x.o2).toNat
      (caught u o (pos + 1) → exec (.rwait x) s = .next (u.acquire c.bk 4)) ∧
      (¬ caught u o (pos + 1) → exec (.rwait x) s = .next ((u.logWait c).waitAct c (.rwait desc pos)))

/-- LAUNCH (R280) and LVL (R281). LAUNCH: where the record keeps R279 and the pending-launch queue has fewer than four entries, the record joins
the queue, and its context has a command with the next token, which the S pair gets; with four entries the threads wait and the warp is
pending. LVL gives the level of its context to the S pair and changes nothing else. LAUNCH_BATCH_TAKE and LAUNCH_BATCH_TIMEOUT (R320): a block
none of whose threads is runnable, or whose oldest entry has stood for 4,096 cycles, gives up its whole pending-launch queue in one step: the
entries become grids in their order, the queue is empty, and the entries' commands are complete. That a wait at an ENG word holds all of ACT
is the model's reading (log 50). -/
def Obligations.LaunchesAndLevels : Prop :=
  (∀ s c (x : EngArgs) m, Executes s c → Guarded s c x.g m → c.b.replay = none → s.replaying c.bk = false →
      let k := x.ecf.toNat % 8
      let u := (s.release c.bk c.wi 4).release c.bk c.wi (c.b.eng k).scope
      (∀ v r, (c.b.eng k).top - (c.b.eng k).level < 256 → u.descAt c.bk (c.opS s.tick x.o1).toNat 64 = some v → parseLaunch v = some r →
        (c.b.launchq.length < 4 →
          let n := u.newToken c k
          exec (.launch x) s = .next ((((u.modBlock c.bk fun b => b.modEng k fun e =>
              { e with top := n, cmds := e.cmds ++ [u.newCmd c 0x0D n .launch] }).bump.modBlock c.bk fun b =>
              { b with launchq := b.launchq ++ [{ lrec := r, ec := k, tok := n }] }).giveS64 c.bk c.wi x.sdst.toNat (BitVec.ofNat 64 n)))) ∧
        (4 ≤ c.b.launchq.length → exec (.launch x) s = .next (((u.logWait c).waitAct c .launchFull).toPending c.bk c.wi))) ∧
      (256 ≤ (c.b.eng k).top - (c.b.eng k).level → exec (.launch x) s = .next ((u.logWait c).waitAct c (.room k))) ∧
      (s.recordings = [] → ∃ t : State, exec (.lvl x) s = .next t ∧ OnlyWarp s t c ∧
        let v := BitVec.ofNat 64 (c.b.eng k).level
        let w := t.warp c.bk c.wi
        { w with s := c.w.s, sPois := c.w.sPois } = c.w ∧
        tget w.s x.sdst.toNat = some (v.setWidth 32) ∧ tget w.s (x.sdst.toNat + 1) = some ((v >>> 32).setWidth 32) ∧
        ∀ r, r ≠ x.sdst.toNat → r ≠ x.sdst.toNat + 1 → tget w.s r = tget c.w.s r)) ∧
  (∀ (s : State) (b : Nat) (bl : Block) (e : LEntry) es, s.block? b = some bl → bl.launchq = e :: es → (s.ctx bl.ctx).runs = true → s.replaying b = false →
      let taken (i : Instr) : Prop := ∃ (u : State) (y : Block) (gs : List Grid), exec i s = .next u.wakeAll ∧ u.mem = s.mem ∧
        u.grids = s.grids ++ gs ∧ gs.map (·.lrec) = bl.launchq.map (·.lrec) ∧
        (∀ g ∈ gs, g.ctx = bl.ctx ∧ g.host = false ∧ g.next = 0 ∧ g.started = false ∧ g.handler = none) ∧
        u.block? b = some y ∧ y.launchq = [] ∧ y.warps = bl.warps ∧
        ∀ k, (y.eng k).cmds = (bl.eng k).cmds.filter fun z => !bl.launchq.any fun l => l.ec == k && l.tok == z.tok
      (s.countsRunnable bl = false → taken (.launchBatchTake b)) ∧ (s.countsRunnable bl = true → exec (.launchBatchTake b) s = .next s) ∧
      (4096 ≤ e.age → taken (.launchBatchTimeout b)) ∧ (e.age < 4096 → exec (.launchBatchTimeout b) s = .next s))


/-! ## System instructions and traps (R237 to R254, R338 to R353) -/

/-- A MEM, CTL, ENG or SYS word but BSET whose guard holds in no lane of ACT changes nothing (R182, R216). In a replay method a form that R294 does not
allow takes the method fault with CODE 0x04, and TRAP the method fault with CODE 0x08. The handler forms outside a handler block, and PLCW
without the permission, take the privileged-instruction trap (R237). -/
def Obligations.GuardsAndRights : Prop :=
  (∀ (i : Instr) s c g, s.cx? = some c → i.guardOf = some g → (∀ g' n, i ≠ .bset g' n) → (c.guarded s.tick g).none = true → exec i s = .next s) ∧
  (∀ (i : Instr) s c g m v, Executes s c → i.guardOf = some g → Guarded s c g m → c.b.replay = some v → i.methodMay = false →
    exec i s = .next (s.methodFault c.b v 0x04 0)) ∧
  ∀ s c (x : EngArgs) m, Executes s c → Guarded s c x.g m →
    (∀ v, c.b.replay = some v → exec (.trapI x) s = .next (s.methodFault c.b v 0x08 (BitVec.ofNat 64 (x.dimm.toNat % 256)))) ∧
    (c.b.replay = none → c.b.handler = none →
      ∀ i ∈ [Instr.tret x, .frgq x, .frgsetPc x, .frgsetRem x, .frgres x, .frgresSkip x, .frgkill x, .erst x, .erstAbort x],
        exec i s = .next (s.warpTrap c 0x04 0)) ∧
    (c.b.replay = none → (s.ctx c.b.ctx).plw = false → ∀ i ∈ [Instr.plcwDie x, .plcwTgt x], exec i s = .next (s.warpTrap c 0x04 0))

/-- TRAP, BRK and TRCMARK (R238 to R240, R340, R342, R347). TRAP parks the guarded threads as a fragment at its word, and one trap with its
cause, code, lanes and values joins the context's pending ones; where the split is impossible the whole warp is held, and the trap of
fragment exhaustion joins them; in a handler block a NESTED trap does. BRK under an attached debugger parks the guarded threads that were
not just resumed there, with no trap; without a debugger it does nothing. TRCMARK emits its packet, and nothing with the trace off, or where it was
off when the fragment began its clause (R306). -/
def Obligations.TrapForms : Prop :=
  ∀ s c (x : EngArgs) m, Executes s c → Guarded s c x.g m → c.b.replay = none → s.recordings = [] →
    let r := realOf c m
    let old := (s.ctx c.b.ctx).traps
    (r.none = false → c.b.handler = none → s.canPark c.bk c.wi r = true →
      ∃ t : State, exec (.trapI x) s = .next t ∧ t.mem = s.mem ∧ ParkedAt t c r ∧
        ∃ tr, (t.ctx c.b.ctx).traps = old ++ [tr] ∧ tr.cause = 0x08 ∧ tr.code = x.dimm.toNat % 256 ∧ tr.kind = 0 ∧ tr.nested = false ∧
          tr.block = some c.b.key ∧ tr.blockId = c.b.blockId ∧ tr.pc = c.fl.pc ∧ tr.widx = c.fl.idx ∧ tr.warp = c.wi ∧ tr.lmask = r ∧
          tr.lcause = r.list.map (fun l => (l, 0x08)) ∧ tr.lval = r.list.map fun l => (l, (Cx32 c s x.o1 l).setWidth 64)) ∧
    (r.none = false → c.b.handler = none → s.canPark c.bk c.wi r = false →
      ∃ t : State, exec (.trapI x) s = .next t ∧ t.mem = s.mem ∧ (t.warp c.bk c.wi).flight = none ∧
        ∃ tr, (t.ctx c.b.ctx).traps = old ++ [tr] ∧ (t.warp c.bk c.wi).held = c.w.held ++ [tr.id] ∧ tr.holds = some (c.bk, c.wi) ∧ tr.cause = 0x22 ∧
          tr.kind = 1 ∧ tr.pc = c.fl.pc ∧ tr.widx = c.fl.idx ∧ tr.lmask = r) ∧
    (r.none = false → c.b.handler.isSome = true →
      ∃ (t : State) (tr : Trap), exec (.trapI x) s = .next t ∧ (t.ctx c.b.ctx).traps.getLast? = some tr ∧ tr.nested = true ∧ tr.cause = 0x08) ∧
    (let stop := maskOf fun l => m.has l && (c.w.lane l).isReal && !s.resumedHere c.b.core c.bk c.wi (c.w.lane l) c.fl.pc c.fl.idx true
     (c.b.dbg.att = false ∨ (s.ctx c.b.ctx).att = false ∨ stop.none = true → exec (.brk x) s = .next s) ∧
     (c.b.dbg.att = true → (s.ctx c.b.ctx).att = true → stop.none = false → c.b.handler = none → s.canPark c.bk c.wi stop = true →
      ∃ t : State, exec (.brk x) s = .next t ∧ t.mem = s.mem ∧ ParkedAt t c stop ∧ (t.ctx c.b.ctx).traps = old ∧
        (c.b.dbg.haltb = true → c.b.key ∈ (t.ctx c.b.ctx).halted))) ∧
    (∀ l, m.list.head? = some l → (c.w.lane l).traced = false → exec (.trcmark x) s = .next s) ∧
    (∀ l, m.list.head? = some l → (c.w.lane l).traced = true →
      exec (.trcmark x) s = .next (s.emit c.b c.wi (c.w.lane l).frag c.fl.pc
        (markPacket c.wi (c.w.lane l).frag (x.dimm.toNat % 256) (Cx32 c s x.o1 l)))) ∧
    (c.b.dbg.trc = false → exec (.trcmark x) s = .next s)

/-- The handler forms in a handler block (R241 to R247, R285). TRET retires its record and the threads of ACT exit. FRGQ gives half of the entry
that the handle names, zero of one that names nothing. FRGSET, FRGRES, FRGRES.SKIP and FRGKILL give status 1 where it names nothing and 2
where it is not parked; of a parked fragment FRGSET.PC moves its place, FRGRES makes its threads runnable there, FRGRES.SKIP after the word,
FRGSET.REM and FRGKILL make the named threads or all of them exit. Threads that exit leave no entry of a fragment that they were the last of,
and change no other thread that waits for nothing but its number where fragments rejoin. Resumed threads are runnable at the fragment's place
with their registers as they were (R54), a place that FRGSET.PC set being a jump target (R229, R244). ERST and ERST.ABORT in a handler block
(R285, R387): status 1 of a handle that names no command of the context; a wait while the command's block is STOWING or RESTORING; status 2 of
a command that has not stopped, and 3, with nothing changed, of a vector outside its bounds (Sw [31:16] not zero among them) or a replacement
that fails its check. Otherwise with status 0 the stopped command is no longer stopped, and goes on at the vector, or with .ABORT is finished.
That an ERST waits for a movement before any status but 1, that .ABORT checks its vector, and the order of the statuses, are the model's
readings (logs 49, 109 and 132). -/
def Obligations.HandlerFormsAndStops : Prop :=
  ((∀ (s : State) (k e : Nat) (f : Frag) (b : Block), s.block? f.block = some b → f.warp < b.warps.length →
      (f.setPc = true → (s.landOk k b.ctx b.die f.pc.toNat).2 = true) →
      let t := s.resume k e f
      (f.setPc = false → t.mem = s.mem) ∧ tget (t.core k).frags e = some { f with state := 2, setPc := false, noSkip := false, fresh := true } ∧
      ∀ l, l < 32 → l < (b.warp f.warp).lanes.length → ((b.warp f.warp).fragMask f.fnum).has l = true →
        let y := (t.warp f.block f.warp).lane l
        y.st = .runnable ∧ y.pc = f.pc ∧ y.widx = f.widx ∧ y.v = ((b.warp f.warp).lane l).v ∧ y.p = ((b.warp f.warp).lane l).p ∧
          y.fl = ((b.warp f.warp).lane l).fl) ∧
    (∀ (s : State) (b y : Block) (w : Nat) (m : Mask), s.block? b.key = some y → w < y.warps.length → s.gangLatch b w = none →
      let t := (s.exitThreads b w m).settle b.key
      t.mem = s.mem ∧
      (∀ l, m.has l = true → ((y.warp w).lane l).isReal = true → ((t.warp b.key w).lane l).st = .exited) ∧
      (∀ l, m.has l = false → ((y.warp w).lane l).isReal = true → ((y.warp w).lane l).isWaiting = false →
        { (t.warp b.key w).lane l with frag := ((y.warp w).lane l).frag } = (y.warp w).lane l) ∧
      ∀ n, ((y.warp w).fragMask n &&& ~~~m).none = true → (t.core b.core).frag? b.key w n = none) ∧
    (∀ (s : State) (f : Frag) (m : Mask) (b : Block), s.block? f.block = some b → s.killThreads f m = ((s.log b.key (.kill f.warp m)).exitThreads b f.warp m).settle b.key) ∧
    ∀ s c (x : EngArgs) m, Executes s c → Guarded s c x.g m → c.b.replay = none → s.recordings = [] → c.b.handler.isSome = true →
      let h := c.opS s.tick x.o1
      let answer (u : State) (n : Nat) : State := (u.giveS c.bk c.wi x.sdst.toNat (BitVec.ofNat 32 n)).wakeAll
      (∃ t : State, exec (.tret x) s = .next t ∧ t = ((s.retire c.b.ctx h).exitThreads c.b c.wi (c.fl.act &&& ~~~c.w.helpers)).settle c.bk ∧
        (∀ r ∈ (t.ctx c.b.ctx).recs, r.rid ≠ h) ∧
        (s.gangLatch c.b c.wi = none → ∀ l, c.fl.act.has l = true → (c.w.lane l).isReal = true → ((t.warp c.bk c.wi).lane l).st = .exited)) ∧
      (∃ t : State, exec (.frgq x) s = .next t ∧ OnlyWarp s t c ∧ (t.warp c.bk c.wi).lanes = c.w.lanes ∧ ∃ v : Nat,
        tget (t.warp c.bk c.wi).s x.sdst.toNat = some (BitVec.ofNat 32 v) ∧
        tget (t.warp c.bk c.wi).s (x.sdst.toNat + 1) = some (BitVec.ofNat 32 (v / 2 ^ 32)) ∧
        (s.fragOf c h = none → v = 0) ∧
        ∀ k e f b, s.fragOf c h = some (k, e, f) → s.block? f.block = some b →
          let bits := f.bits ((s.warp f.block f.warp).fragMask f.fnum) b.bslot
          v = if x.ecf = 0 then bits % 2 ^ 64 else bits / 2 ^ 64) ∧
      (∀ i ∈ [Instr.frgsetPc x, .frgsetRem x, .frgres x, .frgresSkip x, .frgkill x],
        (s.fragOf c h = none → exec i s = .next (answer s 1)) ∧
        ∀ k e f, s.fragOf c h = some (k, e, f) → f.state ≠ 1 → exec i s = .next (answer s 2)) ∧
      (∀ k e f, s.fragOf c h = some (k, e, f) → f.state = 1 →
        let whole := (s.warp f.block f.warp).fragMask f.fnum
        let pc := c.opS64 s.tick x.o2
        (pc.toNat % 4 ≠ 0 → exec (.frgsetPc x) s = .next (answer s 3)) ∧
        (pc.toNat % 4 = 0 → exec (.frgsetPc x) s = .next (answer (s.putFrag k e { f with pc := pc, widx := 0, setPc := true }) 0)) ∧
        exec (.frgsetRem x) s = .next (answer (s.killThreads f (whole &&& c.opS s.tick x.o2)) 0) ∧
        exec (.frgkill x) s = .next (answer (s.killThreads f whole) 0) ∧
        exec (.frgres x) s = .next (answer (s.resume k e f) 0) ∧
        (f.noSkip = true → exec (.frgresSkip x) s = .next (answer s 3)) ∧
        (f.noSkip = false →
          (f.setPc = false →
            (∀ u, s.afterWord k f = (u, none) → exec (.frgresSkip x) s = .next (answer u 3)) ∧
            ∀ u p i, s.afterWord k f = (u, some (p, i)) →
              exec (.frgresSkip x) s = .next (answer (u.resume k e { f with pc := p, widx := i, setPc := false }) 0)) ∧
          (f.setPc = true → ∀ b v, s.block? f.block = some b →
            (s.landOk k b.ctx b.die f.pc.toNat = (v, false) → exec (.frgresSkip x) s = .next (answer (v.resume k e f) 0)) ∧
            (s.landOk k b.ctx b.die f.pc.toNat = (v, true) →
              (∀ u, v.afterWord k f = (u, none) → exec (.frgresSkip x) s = .next (answer u 3)) ∧
              ∀ u p i y, v.afterWord k f = (u, some (p, i)) → u.block? f.block = some y →
                exec (.frgresSkip x) s =
                  .next (answer ((u.traceSetPc y f).resume k e { f with pc := p, widx := i, setPc := false }) 0)))))) ∧
  (∀ s c (x : EngArgs) m, Executes s c → Guarded s c x.g m → c.b.replay = none → s.recordings = [] → c.b.handler.isSome = true →
      let answer (u : State) (n : Nat) : State := u.giveS c.bk c.wi x.sdst.toNat (BitVec.ofNat 32 n)
      let found := s.cmdOf c.b.ctx (c.opS s.tick x.o1).toNat
      let moving (b : Block) : Prop := ∃ y, s.block? b.key = some y ∧ (y.mv = .stowing ∨ y.mv = .restoring)
      (∀ i ∈ [Instr.erst x, .erstAbort x], (found = none → exec i s = .next (answer s 1)) ∧
        ∀ b k cmd, found = some (b, k, cmd) → (moving b → exec i s = .next ((s.logWait c).waitAct c (.erst b.key))) ∧
          (¬ moving b → cmd.stopped = none → exec i s = .next (answer s 2))) ∧
      ∀ b k cmd, found = some (b, k, cmd) → cmd.stopped.isSome = true → ¬ moving b →
        let v := (c.opS64 s.tick x.o2).toNat
        let w := (c.opS s.tick x.o3).toNat
        let vec := [v % 2 ^ 16, v / 2 ^ 16 % 2 ^ 16, v / 2 ^ 32 % 2 ^ 16, v / 2 ^ 48 % 2 ^ 16, w]
        let inside (kind : CmdKind) : Prop := w < 2 ^ 16 ∧ ∀ i, i < 5 → vec.getD i 0 ≤ kind.bounds.getD i 0
        let kind := match x.o4 with
          | .s r => s.replacement b cmd (c.s s.tick r.toNat).toNat
          | _ => some cmd.kind
        (inside cmd.kind → exec (.erstAbort x) s = .next (answer (s.modCmd b.key k cmd.tok fun y => { y with stopped := none, finished := true }) 0)) ∧
        (¬ inside cmd.kind → exec (.erstAbort x) s = .next (answer s 3)) ∧
        (kind = none → exec (.erst x) s = .next (answer s 3)) ∧
        ∀ z, kind = some z →
          (inside z → exec (.erst x) s = .next (answer (s.modCmd b.key k cmd.tok fun y =>
            { y with stopped := none, iter := vecIx (z.bounds ++ List.replicate (5 - z.bounds.length) 0) vec, kind := z }) 0)) ∧
          (¬ inside z → exec (.erst x) s = .next (answer s 3)))




/-- MAPT, TLRINV, PLCW, STOW and LIVEM (R134, R248 to R252), and MAPPING_CHANGE_COMPLETE and TLR_INVALIDATE_COMPLETE (R126). MAPT and
TLRINV release at DEVICE scope and hold the warp's next clause until the completion, which drops the translations whose leaf the change overlaps, and
the L1 lines of a changed mapping, and ends the holds. PLCW.DIE sets one entry of the cell's DIEMAP, PLCW.TGT one storage target, and no other.
STOW and STOW.CLR set and clear the block's hint, LIVEM and LIVEM.CLR the warp's registration. -/
def Obligations.MappingPlacesLiveness : Prop :=
  (∀ s c (x : EngArgs) m, Executes s c → Guarded s c x.g m → c.b.replay = none → s.recordings = [] →
    let hold (y : Hold) : State := (s.release c.bk c.wi 4).modWarp c.bk c.wi fun w => { w with hold := w.hold ++ [y] }
    (let n := (c.opS s.tick x.o2).toNat
     (n = 0 → exec (.mapt x) s = .next (s.release c.bk c.wi 4)) ∧
     (n ≠ 0 → exec (.mapt x) s = .next (hold (.mapt (BitVec.ofNat 64 ((c.opS64 s.tick x.o1).toNat / 65536 * 65536)) n)))) ∧
    exec (.tlrinv x) s = .next (hold (.tlrinv (x.dimm.toNat % 256))) ∧
    ((s.ctx c.b.ctx).plw = true →
      let old := s.place c.b.cell
      let p := x.dimm.toNat % 16
      (∃ t : State, exec (.plcwDie x) s = .next t ∧ t.mem = s.mem ∧ t.blocks = s.blocks ∧ (t.place c.b.cell).stgt = old.stgt ∧
        (t.place c.b.cell).slotmap = old.slotmap ∧ (∀ k, k ≠ c.b.cell → t.place k = s.place k) ∧
        ∀ i, i < 32 → (t.place c.b.cell).diemap.getLsbD i =
          if i / 4 = p then (c.opS s.tick x.o1).getLsbD (i % 4) else old.diemap.getLsbD i) ∧
      ∃ t : State, exec (.plcwTgt x) s = .next t ∧ t.mem = s.mem ∧ t.blocks = s.blocks ∧ (t.place c.b.cell).diemap = old.diemap ∧
        (t.place c.b.cell).slotmap = old.slotmap ∧ (∀ k, k ≠ c.b.cell → t.place k = s.place k) ∧
        ∀ i, (t.place c.b.cell).stgt[i]? = if i = p ∧ i < old.stgt.length then some (c.opS s.tick x.o1) else old.stgt[i]?) ∧
    (∀ e ∈ [(Instr.stow x, true), (.stowClr x, false)], ∃ (t : State) (b : Block), exec e.1 s = .next t ∧ t.block? c.bk = some b ∧ b = { c.b with hint := e.2 } ∧
      t.mem = s.mem ∧ ∀ k, k ≠ c.bk → t.block? k = s.block? k) ∧
    (let off := (c.opS s.tick x.o2).toNat
     let top := min (off + (c.opS s.tick x.o3).toNat) c.b.spSize
     ∃ (t u : State), exec (.livem x) s = .next t ∧ exec (.livemClr x) s = .next u ∧ OnlyWarp s t c ∧ OnlyWarp s u c ∧
      t.warp c.bk c.wi = { c.w with live := some { vmask := c.opS64 s.tick x.o1, off := off, len := top - off } } ∧
      u.warp c.bk c.wi = { c.w with live := none })) ∧
  ∀ (s : State) (k : Nat),
    let mine (h : Hold) (t : State) : Prop := ∀ bk b', t.block? bk = some b' → b'.ctx = k → ∀ w ∈ b'.warps, h ∉ w.hold
    (∀ (va : DWord) n, ∃ t : State, exec (.mappingChangeComplete k va n) s = .next t ∧ t.mem = s.mem ∧ mine (.mapt va n) t ∧
      let inside (page : Nat) : Prop := va.toNat / 65536 ≤ page ∧ page < va.toNat / 65536 + n
      let overlaps (e : TEntry) : Prop :=
        let lo := e.page * 65536 / 2 ^ (e.top + 1) * 2 ^ (e.top + 1)
        0 < n ∧ lo < (va.toNat / 65536 + n) * 65536 ∧ va.toNat / 65536 * 65536 < lo + 2 ^ (e.top + 1)
      ∀ core, (∀ e, e ∈ (t.core core).tcache ↔ e ∈ (s.core core).tcache ∧ ¬ (e.asid = (s.ctx k).asid ∧ overlaps e)) ∧
        ∀ e, e ∈ (t.core core).l1 ↔ e ∈ (s.core core).l1 ∧ ¬ (e.asid = (s.ctx k).asid ∧ inside (e.line / 512))) ∧
    ∀ idx, ∃ t : State, exec (.tlrInvalidateComplete k idx) s = .next t ∧ t.mem = s.mem ∧ mine (.tlrinv idx) t ∧
      (∀ e, e ∈ t.tlrc ↔ e ∈ s.tlrc ∧ ¬ (e.asid = (s.ctx k).asid ∧ e.idx = idx)) ∧
      ∀ core e, e ∈ (t.core core).tcache ↔ e ∈ (s.core core).tcache ∧
        ¬ (e.asid = (s.ctx k).asid ∧ e.leaf.getLsbD 60 = true ∧ e.leaf.toNat / 2 ^ 52 % 256 = idx)

/-- RSYNC and RSYNC_RESEED_COMPLETE (R253, R378). RSYNC gives the number of calls that the copy on the warp's die has applied where that copy is
whole; where it is broken it starts the copying from the healthy die that has applied the most, and holds the warp's next clause, or gives all
ones where no copy is healthy. The completion, once the donor and the die itself stand at a method boundary, leaves the copy whole at the donor's position. -/
def Obligations.Resynchronisation : Prop :=
  (∀ s c (x : EngArgs) m, Executes s c → Guarded s c x.g m → c.b.replay = none → s.recordings = [] →
    let desc := (c.opS64 s.tick x.o1).toNat
    ∀ u d o, objRead s c desc true = some (u, d, o) →
      let die := u.logicalDie c.b.die
      let hold (v : State) : State := v.modWarp c.bk c.wi fun w => { w with hold := w.hold ++ [.rsync desc x.sdst.toNat] }
      (o.broken.getLsbD die = false →
        exec (.rsync x) s = .next (u.giveS64 c.bk c.wi x.sdst.toNat (BitVec.ofNat 64 (o.applied.getD die 0)))) ∧
      (o.broken.getLsbD die = true → u.reseeds = [] →
        (u.healthy o = [] → exec (.rsync x) s = .next (u.giveS64 c.bk c.wi x.sdst.toNat 0xFFFFFFFFFFFFFFFF)) ∧
        (u.healthy o ≠ [] → ∃ r ∈ u.healthy o, (∀ i ∈ u.healthy o, o.applied.getD i 0 ≤ o.applied.getD r 0) ∧
          exec (.rsync x) s = .next (hold { u with reseeds := [{ ctx := c.b.ctx, desc := desc, die := die, donor := r }] })))) ∧
  ∀ (s : State) (b w : Nat) (bl : Block) (o : RObj) (r : Reseed) (u v : State) (bs : List Byte) sd,
    s.block? b = some bl → s.reseeds = [r] → r.ctx = bl.ctx → r.die = s.logicalDie bl.die → r.die < 8 → Hold.rsync r.desc sd ∈ (bl.warp w).hold →
    let s₁ := s.markLost r.ctx r.desc
    let die := s₁.wh.live.getD r.donor 0
    s₁.robj? r.ctx r.desc = some o → o.applied.length = 8 → o.broken.getLsbD r.donor = false →
    s₁.inMethod r die = false → s₁.inMethod r bl.die = false → s₁.awaitedInPast r = false →
    ({ s₁ with reseeds := [] } : State).devRead r.ctx die r.desc 768 = (u, .ok bs) →
    (let d := readObjDesc bs
     u.copyChunks r.ctx die r.die (d.copy r.donor) (d.copy r.die) (d.size / 64) = (v, none)) →
    ∃ (t : State) (y : RObj), exec (.rsyncReseedComplete b w) s = .next (State.wakeAll t) ∧ t.reseeds = [] ∧ t.robj? r.ctx r.desc = some y ∧
      y.broken.getLsbD r.die = false ∧ (∀ i, i ≠ r.die → y.broken.getLsbD i = o.broken.getLsbD i) ∧
      y.applied.getD r.die 0 = o.applied.getD r.donor 0 ∧ (∀ i, i ≠ r.die → y.applied.getD i 0 = o.applied.getD i 0) ∧ y.next = o.next


/-! ## Events of the scheduler and of launch (R41, R71 to R80, R320, R379) -/

/-- CLAUSE_ISSUE (R27, R41, R42, R78): of an active, ready warp the group issues that went longest without issuing among those whose clause may
start, and before any other one that 31 clauses have overtaken; its clause is in flight at the word it stands at, with its lanes as ACT, whose
latches are empty and which trace nothing where the trace is off; every other thread that could run is overtaken once more, and nothing else
changes in any lane. WARP_SWAP and PENDING_STARVATION_SWAP (R79, R80): the entrant becomes active, in the place of the active warp that
leaves; where nothing is due nothing changes. WATCHDOG_EXPIRY (R379): one report for the block, and no thread leaves its wait. The stamp of a
group whose threads issued at different times and which warps leave and enter are the model's readings (logs 23, 95 and 96). -/
def Obligations.SchedulingEvents : Prop :=
  (∀ (s u : State) (b w : Nat) (bl : Block) (g : Group) (h : Word) (ws : List Word) (cls : Cls),
    Issues s b w bl g → (bl.warp w).sPois = [] → (∀ l, ((bl.warp w).lane l).vPois = []) →
    (s.boundary b).fetchClause bl.core bl.ctx bl.die g.pc.toNat = (u, .ok (h, ws)) → clauseError h ws = none →
    Cls.ofBits (Header.ofWord h).cls = some cls →
    (g ∈ (bl.warp w).groups ∧ s.mayStart bl (bl.warp w) g = true ∧
      ((∀ k ∈ (bl.warp w).groups, k.behind + (bl.warp w).groups.length ≤ 31) →
        ∀ k ∈ (bl.warp w).groups, s.mayStart bl (bl.warp w) k = true → g.stamp ≤ k.stamp) ∧
      ∀ k ∈ (bl.warp w).groups, 31 ≤ k.behind → k.behind ≤ g.behind) ∧
    ∃ t : State, exec (.clauseIssue b w) s = .next t ∧ t.mem = u.mem ∧
      (t.warp b w).flight = some { pc := g.pc, cls := cls, ext := (Header.ofWord h).ext, words := ws, idx := g.widx, act := g.mask,
                                   yld := (Header.ofWord h).yld, boundV := (bl.warp w).lanes.map (·.v), boundS := (bl.warp w).s,
                                   boundVPois := (bl.warp w).lanes.map (·.vPois), boundSPois := (bl.warp w).sPois } ∧
      ∀ l, l < 32 → (t.warp b w).lane l =
        let x := (bl.warp w).lane l
        if g.mask.has l then { x with stamp := some s.tick, behind := 0, x := {}, traced := false }
        else if x.isReal = true ∧ x.isRunnable = true then { x with behind := x.behind + 1 } else x) ∧
  (∀ (s : State) (core slice : Nat),
    let enter (u : State) (e : Block × Nat × Warp) : State := u.enterSet e.1 e.2.1 true
    let out := leastBy (fun e => e.2.2.enter) ((s.actives core slice).filter fun e => s.longWait e.1 e.2.2)
    let due := leastBy (fun e => e.2.2.enter) ((s.pendingReady core slice).filter fun e => decide (64 * e.1.pstarv ≤ e.2.2.readyClk))
    let first := leastBy (fun e => e.2.2.enter) (s.actives core slice)
    (s.entrant core slice = none → exec (.warpSwap core slice) s = .next s) ∧
    (∀ e, s.entrant core slice = some e → (s.actives core slice).length < 8 → exec (.warpSwap core slice) s = .next (enter s e)) ∧
    (∀ e o, s.entrant core slice = some e → 8 ≤ (s.actives core slice).length → out = some o →
      exec (.warpSwap core slice) s = .next (enter (s.enterSet o.1 o.2.1 false) e)) ∧
    (8 ≤ (s.actives core slice).length → out = none → exec (.warpSwap core slice) s = .next s) ∧
    (due = none → exec (.pendingStarvationSwap core slice) s = .next s) ∧
    (∀ e, due = some e → (s.actives core slice).length < 8 → exec (.pendingStarvationSwap core slice) s = .next (enter s e)) ∧
    ∀ e o, due = some e → first = some o → 8 ≤ (s.actives core slice).length →
      exec (.pendingStarvationSwap core slice) s = .next (enter (s.enterSet o.1 o.2.1 false) e)) ∧
  ∀ (s : State) (b w l : Nat) (bl : Block) (wt : Wait), s.block? b = some bl → l < 32 → ((bl.warp w).lane l).isReal = true →
    ((bl.warp w).lane l).st = .waiting wt → wt.code ≠ 0 → (s.ctx bl.ctx).wdms ≠ 0 → (s.ctx bl.ctx).pre = false → s.replaying b = false →
    (s.ctx bl.ctx).wdms.toNat * (10 ^ 6 * Config.wallUnit) < ((bl.warp w).lane l).waitWall → bl.wdogDone = [] →
    (∀ j, j < l → ((bl.warp w).lane j).overdue ((s.ctx bl.ctx).wdms.toNat * (10 ^ 6 * Config.wallUnit)) = false) →
    ∃ (t : State) (y : Block) (tr : Trap), exec (.watchdogExpiry b w) s = .next t ∧ t.mem = s.mem ∧ t.block? b = some y ∧ y.warps = bl.warps ∧
      (t.ctx bl.ctx).traps = (s.ctx bl.ctx).traps ++ [tr] ∧ tr.cause = 0x39 ∧ tr.code = wt.code ∧ tr.pc = ((bl.warp w).lane l).pc ∧
      tr.widx = ((bl.warp w).lane l).widx ∧ tr.lmask.has l = true

/-- What stops a clause before its first word (R183, R338 to R342, R354 to R356, R372). A failing fetch parks every thread of ACT at word 0 with
its cause and the first failing address, a decode trap with the cause of its row and the index of the failing word; where the warp cannot split,
it is held with the trap of fragment exhaustion. A poisoned register that an ALU, XLN or SFU clause reads holds the warp at word 0, with one
report and its window address. The fetch reads the words one after another; the header is judged first, and a word before the words after it. -/
def Obligations.IssueFaults : Prop :=
  (∀ (s u : State) (b w : Nat) (bl : Block) (g : Group), Issues s b w bl g → bl.handler = none →
    let real : Mask := g.mask &&& ~~~(bl.warp w).helpers
    let fetch := (s.boundary b).fetchClause bl.core bl.ctx bl.die g.pc.toNat
    let ends (f : State → Trap → Prop) : Prop := ∃ (t : State) (tr : Trap), exec (.clauseIssue b w) s = .next t ∧ t.mem = u.mem ∧
      (t.ctx bl.ctx).traps = (s.ctx bl.ctx).traps ++ [tr] ∧ tr.block = some bl.key ∧ tr.warp = w ∧ tr.pc = g.pc ∧ tr.widx = 0 ∧ tr.lmask = real ∧ f t tr
    let held (t : State) (tr : Trap) : Prop := (t.warp b w).held = [tr.id] ∧ tr.holds = some (b, w) ∧ (t.warp b w).flight = none
    let trap (cause kind word : Nat) (lval : Tab DWord) : Prop := ends fun t tr =>
      (u.canPark b w real = true → tr.cause = cause ∧ tr.kind = kind ∧ tr.word = word ∧
        tr.lcause = real.list.map (fun l => (l, cause)) ∧ tr.lval = lval ∧
        ∀ l, l < 32 → real.has l = true → let y := (t.warp b w).lane l; y.st = .parked ∧ y.pc = g.pc ∧ y.widx = 0) ∧
      (u.canPark b w real = false → tr.cause = 0x22 ∧ held t tr)
    (∀ e va, fetch = (u, .error (e, va)) → trap e 0 0 (real.list.map fun l => (l, BitVec.ofNat 64 va))) ∧
    (∀ h ws e i, fetch = (u, .ok (h, ws)) → clauseError h ws = some (e, i) → trap (match e with
      | .illegalClause => 0x01
      | .illegalInstruction => 0x02
      | .illegalOperand => 0x03) 1 i []) ∧
    ∀ h ws cls l r, fetch = (u, .ok (h, ws)) → clauseError h ws = none → Cls.ofBits (Header.ofWord h).cls = some cls → cls ∈ [Cls.alu, .xln, .sfu] →
      (bl.warp w).poisonIn g.mask (clauseReads cls (Header.ofWord h).ext ws g.widx) = some (l, r) → ends fun t tr =>
        tr.cause = 0x38 ∧ tr.kind = 3 ∧ tr.code = 3 ∧ tr.aux = BitVec.ofNat 64 (regWindow bl (bl.warp w) l r) ∧ held t tr ∧
        ∀ k, ((t.warp b w).lane k).v = ((bl.warp w).lane k).v) ∧
  (∀ (s : State) (core c die a : Nat),
    let r := s.fetchWord core c die a
    let canon : Prop := ∀ i, 55 ≤ i → i < 64 → a.testBit i = a.testBit 55
    (¬ canon → r = (s, .error 0x11)) ∧
    (canon → (∀ x, (s.core core).icache.find? (fun x => x.asid == (s.ctx c).asid && x.line == a / 128) = some x →
        r = (s, .ok (BitVec.ofNat 32 (leNat ((x.data.drop (a % 128)).take 4))))) ∧
      ((s.core core).icache.find? (fun x => x.asid == (s.ctx c).asid && x.line == a / 128) = none → ∀ u p, s.checkPage core c a .exec = (u, p) →
        (∀ e, p = .error e → r = (u, .error e)) ∧
        ∀ t, p = .ok t →
          let key := t.key + a % 65536 / 128 * 128
          r.2 = .ok (BitVec.ofNat 32 (leNat ((((u.l2Line die key).l2Bytes die key 128).drop (a % 128)).take 4)))))) ∧
  ∀ h ws,
    let hd := Header.ofWord h
    (hd.cls.toNat = 7 ∨ hd.nw = 0 ∨ h.toNat % 4 ≠ 0 ∨ hd.ext.getLsbD 0 = true ∨ (∃ i, hd.ext.getLsbD i = true ∧ (hd.ext.getLsbD (i + 1) = true ∨ hd.nw ≤ i)) →
      clauseError h ws = some (.illegalClause, 0)) ∧
    (∀ cls i w, Cls.ofBits hd.cls = some cls → ws.length = hd.nw → ws[i]? = some w → hd.ext.getLsbD i = false →
      (cls = .ctl ∧ w.toNat / 2 ^ 26 < 4) ∨ (cls = .sys ∧ w.toNat / 2 ^ 26 = 1) ∨ (cls = .eng ∧ w.toNat / 2 ^ 26 = 0x10) →
      i + (if hd.ext.getLsbD (i + 1) then 2 else 1) < hd.nw → clauseError h ws = some (.illegalClause, 0)) ∧
    ∀ e i, clauseError h ws = some (e, i) → e ≠ .illegalClause → ∃ cls w, Cls.ofBits hd.cls = some cls ∧ ws[i]? = some w ∧
      let next (j : Nat) : Option Word := if hd.ext.getLsbD (j + 1) then ws[j + 1]? else none
      decodeWord cls w (next i) = .error e ∧
      ∀ j v, j < i → ws[j]? = some v → hd.ext.getLsbD j = false → ∃ x, decodeWord cls v (next j) = .ok x

/-- WORK_QUEUE_TAKE, WORK_QUEUE_DOORBELL, BLOCK_PLACE and BLOCK_END (R30, R38, R66, R71 to R76, R231, R279, R329). A record that keeps R279 and
may go first becomes a grid and HEAD moves on; one that breaks it is discarded. A doorbell writes TAIL of one of the 8,192 queues, and whether
more records than the ring holds then overrun it. A placed block has its grid's identifiers, its core and allocation; its threads stand at the
kernel's code, real lanes up to its thread count, the parameter in S0 and S1. A block whose threads have exited, and whose rings no other
block of its cluster can need, leaves with its core's fragments, and its grid counts it or ends with it. Which free slot, tile and base is
taken is a free value (log 9); that a base is a multiple of 1 KiB (log 100) and when the turn of a queue passes (log 94) are the model's
choices, and that a ring's home keeps its place its reading (log 122). -/
def Obligations.PlacementEvents : Prop :=
  (∀ (s : State) (q : Nat), s.queueOpen (s.queue q) = true →
    let r := s.queueRecord (s.queue q)
    (parseLaunch r = none → ∃ u : State, exec (.workQueueTake q) s = .next u.wakeAll ∧ u.grids = s.grids ∧
      u.queue q = { s.queue q with head := (s.queue q).head + 1 }) ∧
    ∀ lr, parseLaunch r = some lr →
      let g := s.queueGrid q (s.queue q) lr
      ((s.ctx (s.queue q).ctx.toNat).pre = true ∨ (s.placeable g = true ∧ s.first (s.rank g 2) = true) →
        ∃ t : State, exec (.workQueueTake q) s = .next t ∧ t.mem = s.mem ∧ t.grids = s.grids ++ [g] ∧ g.lrec = lr ∧ g.ctx = (s.queue q).ctx.toNat ∧
          t.queue q = { s.queue q with head := (s.queue q).head + 1 } ∧ ∀ k, k ≠ q → t.queue k = s.queue k) ∧
      (¬ ((s.ctx (s.queue q).ctx.toNat).pre = true ∨ (s.placeable g = true ∧ s.first (s.rank g 2) = true)) →
        exec (.workQueueTake q) s = .next s)) ∧
  (∀ (s : State) (q : Nat) (v : Word), 8192 ≤ q → exec (.workQueueDoorbell q v) s = .next s) ∧
  (∀ (s : State) (q : Nat) (v : Word), q < 8192 → ∃ t : State, exec (.workQueueDoorbell q v) s = .next t ∧ t.mem = s.mem ∧
    t.queue q = { s.queue q with tail := v, overrun := decide (2 ^ (s.queue q).logn < (v - (s.queue q).head).toNat) } ∧
    ∀ k, k ≠ q → t.queue k = s.queue k) ∧
  (∀ (s : State) (k cell slot core base : Nat) (g : Grid), s.grids.find? (fun g => g.key == k) = some g → s.placeable g = true →
    s.first (s.rank g g.kind) = true → (s.ctx g.ctx).recm = false → s.findSpot g = some (cell, [(slot, core)], base) →
    ∃ (t : State) (nb : Block), exec (.blockPlace k) s = .next t ∧ t.blocks = s.blocks ++ [nb] ∧
      (t.grids.find? (fun y => y.key == k)).map (·.next) = some (g.next + 1) ∧
      nb.ctx = g.ctx ∧ nb.grid = g.key ∧ nb.blockId = BitVec.ofNat 32 g.next ∧ nb.core = core ∧ nb.lslot = slot ∧ nb.spBase = 1024 * base ∧
      nb.spSize = 1024 * g.lrec.spad ∧ nb.spad = [] ∧ nb.clk = 0 ∧ nb.mv = .resident ∧ nb.handler = g.handler ∧ nb.place = s.place (core / 8) ∧
      nb.ecs.map (·.scope) = g.lrec.ecscope ∧ nb.warps.length = (g.lrec.nthr + 31) / 32 ∧
      (∀ i w, nb.warps[i]? = some w → ∀ l, l < 32 → ((w.lane l).kind = .real ↔ 32 * i + l < g.lrec.nthr)) ∧
      ∀ w ∈ nb.warps, tget w.s 0 = some (g.lrec.param.setWidth 32) ∧ tget w.s 1 = some ((g.lrec.param >>> 32).setWidth 32) ∧ w.flight = none ∧
        w.lanes.length = 32 ∧ ∀ x ∈ w.lanes, (x.kind = .absent ∧ x.st = .exited) ∨ (x.kind ≠ .absent ∧ x.st = .runnable ∧ x.pc = g.lrec.code ∧
          x.widx = 0 ∧ x.v = [] ∧ x.p = [] ∧ x.fl = 0)) ∧
  (∀ (s : State) (b : Nat) (bl : Block), s.block? b = some bl → bl.resident = false ∨ bl.over = false ∨ s.lingers bl = true →
    exec (.blockEnd b) s = .next s) ∧
  ∀ (s : State) (b : Nat) (bl : Block), s.block? b = some bl → bl.resident = true → bl.over = true → bl.handler = none → s.replaying b = false →
    (bl.rings = [] ∨ ∀ y ∈ s.clusterOf bl, y.key ≠ b → ∀ w ∈ y.warps, w.isLive = false) →
    ∃ u : State, exec (.blockEnd b) s = .next u.wakeAll ∧ u.block? b = none ∧
      (∀ e ∈ (u.core bl.core).frags, e.2.block ≠ b) ∧
      ∀ g, s.grids.find? (fun g => g.key == bl.grid) = some g →
        (g.ended + 1 < g.lrec.nblk → (u.grids.find? fun y => y.key == bl.grid) = some { g with ended := g.ended + 1 }) ∧
        (g.lrec.nblk ≤ g.ended + 1 → (u.grids.find? fun y => y.key == bl.grid) = none)


/-- Stow and restore (R67 to R70, R87, R94, R327). STOW_THRESHOLD_EXPIRY marks a block whose stowable waits have all passed the threshold;
STOW_BEGIN of a stowable block with a free share makes it STOWING there; STOW_COMPLETE, where the device may write the share, leaves it stowed
with nothing of it on its core; RESTORE_BEGIN puts it at its spot, the move count rising where that is another; RESTORE_COMPLETE makes it
resident with the place table of its cell, without share and hint, with the debug settings of now, and tests its waits. A condition that held
at a step since STOWING began brings a stowed block back, whatever it is now. That the saved state stays in the block is the model's choice
(log 14); the commands that keep a block, and the forming of a gang, are its readings (logs 64 and 110). -/
def Obligations.StowEvents : Prop :=
  ∀ (s : State) (b : Nat) (bl : Block), s.block? b = some bl → bl.cluster = none →
    (bl.resident = true → bl.stowt ≠ 0 → bl.allPassed = true → ∃ (t : State) (y : Block), exec (.stowThresholdExpiry b) s = .next t ∧ t.block? b = some y ∧
      y = { bl with due := true } ∧ t.mem = s.mem) ∧
    (bl.resident = false ∨ bl.stowt = 0 ∨ bl.allPassed = false → exec (.stowThresholdExpiry b) s = .next s) ∧
    (∀ i, s.stowable bl = true → s.intervalDue bl = false → s.saveSize bl false ≤ (s.ctx bl.ctx).shareLen → s.freeShare bl.ctx [] = some i →
      ∃ (t : State) (y : Block), exec (.stowBegin b) s = .next t ∧ t.block? b = some y ∧ y = { bl with mv := .stowing, share := some i, woke := false }) ∧
    (s.stowable bl = false → exec (.stowBegin b) s = .next s) ∧
    (bl.mv = .stowing →
      let u := s.settleAway b
      ∀ v, u.sharesOk bl.ctx ((u.ctx bl.ctx).sharePages (bl.share.getD 0) (u.saveSize bl false)) = (v, true) →
      ∃ (t : State) (y : Block), exec (.stowComplete b) s = .next t ∧ t.block? b = some y ∧ y.mv = .stowed ∧ y.holdsCore = false ∧
        (∀ e ∈ (t.core bl.core).frags, e.2.block ≠ b) ∧ ∀ e ∈ (t.core bl.core).latches, e.2.block ≠ b) ∧
    (∀ p, s.wantsBack bl = true → s.inTurn bl = true → s.spots bl = some [(bl, p)] →
      ∃ (t : State) (y : Block), exec (.restoreBegin b) s = .next t ∧ t.block? b = some y ∧ t.mem = s.mem ∧ y.mv = .restoring ∧ y.core = p.core ∧ y.lslot = p.lslot ∧
        y.spBase = p.base ∧ y.spSize = bl.spSize ∧ y.spad = bl.spad ∧
        y.moves = (if p.core = bl.core ∧ p.base = bl.spBase ∧ p.slots = bl.warps.map (fun w => (w.slice, w.slot)) then bl.moves else bl.moves + 1) ∧
        y.warps.map (fun w => (w.lanes, w.s, w.bars)) = bl.warps.map fun w => (w.lanes, w.s, w.bars)) ∧
    (bl.mv = .stowed → s.wantsBack bl = ((s.ctx bl.ctx).runs && (bl.woke || s.wakes bl))) ∧
    (s.wantsBack bl = false ∨ s.inTurn bl = false → exec (.restoreBegin b) s = .next s) ∧
    (bl.mv = .restoring → bl.replay = none → ∃ (u : State) (y : Block),
      exec (.restoreComplete b) s = .next (((u.settle b).atBoundary b).endKept bl.ctx).wakeAll ∧ u.block? b = some y ∧
      y.mv = .resident ∧ y.share = none ∧ y.woke = false ∧ y.dbg = (s.ctx bl.ctx).dbgLatch ∧ y.hint = false ∧ y.due = false ∧ y.image = [] ∧ y.place = s.place bl.cell ∧ y.core = bl.core ∧
      (u.core bl.core).l1 = []) ∧
    (bl.mv ≠ .restoring → exec (.restoreComplete b) s = .next s)

/-- Pre-emption and enabling (R90 to R94, R327, R328, R353, R376). PREEMPT_REQUEST sets PRE and ends the clauses of the classes that stop at an
instruction, on no failed context; PREEMPT_COMPLETE, once everything has stopped and a share is free for each block, saves every resident
block of the context and sets SAVED; PREEMPT_CLEAR clears PRE and SAVED, or waits for the save. CONTEXT_ENABLE sets EN; CONTEXT_DISABLE clears
it, and of a failed context frees its blocks and grids. DEADLINE_EXPIRY takes the timer trap once, and only once it is due, of a context that
is not switched out. What clearing EN frees is the model's reading (log 70), and so is when a context is switched out for its timer (log 72). -/
def Obligations.ContextEvents : Prop :=
  ∀ (s : State) (c : Nat),
    let x := s.ctx c
    let others (t : State) : Prop := ∀ k, k ≠ c → t.ctx k = s.ctx k
    (x.failed = true → exec (.preemptRequest c) s = .next s) ∧
    (x.failed = false → (∀ r ∈ s.recordings, r.present = none) → ∃ t : State, exec (.preemptRequest c) s = .next t ∧ t.mem = s.mem ∧
      t.ctx c = { x with pre := true, preFault := false, clearPending := false } ∧ others t ∧
      ∀ (b w : Nat) bl f, s.block? b = some bl → bl.ctx = c → bl.replay = none → w < bl.warps.length →
        (bl.warp w).flight = some f → (∀ l, f.act.has l = true → ((bl.warp w).lane l).step = false) →
        (f.cls = .alu ∨ f.cls = .xln ∨ f.cls = .sfu → t.warp b w = bl.warp w) ∧
        (f.cls = .mem ∨ f.cls = .ctl ∨ f.cls = .eng ∨ f.cls = .sys → (t.warp b w).flight = none ∧
          ∀ l, l < (bl.warp w).lanes.length → (t.warp b w).lane l =
            if f.act.has l then { (bl.warp w).lane l with pc := f.pc, widx := f.idx } else (bl.warp w).lane l)) ∧
    (let mine (u : State) : List Block := u.blocks.filter fun b => b.ctx == c && b.resident
     let u := (mine s).foldl (fun s b => s.settleAway b.key) (s.endIntervals (mine s))
     x.pre = true → x.saved = false → x.preFault = false → x.failed = false → x.clearPending = false → s.collected c = true →
     ∀ cs v, u.claim true (mine u) [] = some cs → u.sharesOk c (cs.flatMap fun e => (u.ctx c).sharePages e.2 (u.saveSize e.1 true)) = (v, true) →
      ∃ t : State, exec (.preemptComplete c) s = .next t ∧ (t.ctx c).saved = true ∧ (t.ctx c).pre = true ∧ ∀ b ∈ t.blocks, b.ctx = c → b.resident = false) ∧
    (x.pre = false ∨ x.saved = true ∨ x.preFault = true ∨ x.failed = true ∨ s.collected c = false → exec (.preemptComplete c) s = .next s) ∧
    (x.pre = false → exec (.preemptClear c) s = .next s) ∧
    (x.pre = true → x.saved = true ∨ x.preFault = true → ∃ u : State, exec (.preemptClear c) s = .next u.wakeAll ∧ (u.ctx c).pre = false ∧
      (u.ctx c).saved = false) ∧
    (x.pre = true → x.saved = false → x.preFault = false → ∃ t : State, exec (.preemptClear c) s = .next t ∧ t.ctx c = { x with clearPending := true } ∧
      others t ∧ t.blocks = s.blocks) ∧
    (∃ u : State, exec (.contextEnable c) s = .next u.wakeAll ∧ u.ctx c = { x with en := true } ∧ others u ∧ u.blocks = s.blocks ∧ u.mem = s.mem) ∧
    (x.failed = false → ∃ t : State, exec (.contextDisable c) s = .next t ∧ t.ctx c = { x with en := false } ∧ others t ∧ t.blocks = s.blocks ∧ t.mem = s.mem) ∧
    (x.failed = true → ∃ t : State, exec (.contextDisable c) s = .next t ∧ (t.ctx c).en = false ∧ (t.ctx c).failed = false ∧ t.mem = s.mem ∧
      (∀ b ∈ t.blocks, b.ctx ≠ c) ∧ t.grids = s.grids.filter fun g => g.ctx != c) ∧
    (x.deadline ≠ 0 → x.deadline.toNat ≤ s.wallU / Config.wallUnit → x.saved = false →
      ∃ (t : State) (tr : Trap), exec (.deadlineExpiry c) s = .next t ∧ t.ctx c = { x with deadline := 0, traps := x.traps ++ [tr] } ∧ tr.cause = 0x30 ∧ others t ∧
        t.blocks = s.blocks ∧ t.mem = s.mem) ∧
    (x.deadline = 0 ∨ s.wallU / Config.wallUnit < x.deadline.toNat ∨ x.saved = true → exec (.deadlineExpiry c) s = .next s)


/-- The trap queue (R343 to R347). TRAP_RECORD_WRITE: where the ring has room and can be written, the oldest pending trap becomes the record with
the identifier TAIL, its bytes at its place in the ring, and TAIL rises; a fault at the ring leaves it pending. HANDLER_BLOCK_START: the first
record without a handler gets a grid of one block of 32 threads at HCODE with the record's address, while fewer handlers run than HMAX admits,
one whose threads have all exited running no more. TRAP_RECORD_RETIRE: the record is gone, and the warp that it held is released where no
other trap holds it. TRAPQ_WRITE writes CTX_TRAPQ or CTX_TRAPCTL, and a failed record write is tried again. Handlers of records written while
HEN was clear are the model's reading (log 73). -/
def Obligations.TrapQueueEvents : Prop :=
  ∀ (s : State) (c : Nat),
    let x := s.ctx c
    (∀ g, s.handling c g = true ↔ g.ctx = c ∧ g.handler.isSome = true ∧
      ∀ y, s.blocks.find? (fun y => y.grid == g.key) = some y → ∃ w ∈ y.warps, w.isLive = true) ∧
    (∀ tr ts, x.traps = tr :: ts → x.ringFault = false → x.saved = false → x.kept = false → (x.tail - x.head).toNat < x.ringLen →
      let r : Rec := { rid := x.tail, trap := tr, handling := if tr.nested then .none else .waiting, ord := s.nextKey }
      (∀ v, s.devWrite c s.anyDie (x.recAddr x.tail) r.bytes = (v, none) →
        ∃ t : State, exec (.trapRecordWrite c) s = .next t ∧ t.ctx c = { x with traps := ts, tail := x.tail + 1, recs := x.recs ++ [r] } ∧
          t.blocks = s.blocks) ∧
      ∀ v e, s.devWrite c s.anyDie (x.recAddr x.tail) r.bytes = (v, some e) →
        ∃ t : State, exec (.trapRecordWrite c) s = .next t ∧ t.ctx c = { x with ringFault := true } ∧ t.blocks = s.blocks) ∧
    (x.traps = [] ∨ x.ringFault = true ∨ x.saved = true ∨ x.kept = true ∨ x.ringLen ≤ (x.tail - x.head).toNat → exec (.trapRecordWrite c) s = .next s) ∧
    (∀ r, x.nextRec = some r → x.hen = true → x.runs = true → (s.grids.filter (s.handling c)).length < x.hlimit →
      r ∈ x.recs ∧ r.handling = .waiting ∧
      ∃ (t : State) (g : Grid), exec (.handlerBlockStart c) s = .next t ∧ t.grids = s.grids ++ [g] ∧ t.mem = s.mem ∧ t.blocks = s.blocks ∧ g.ctx = c ∧
        g.handler = some r.rid.toNat ∧ g.next = 0 ∧ g.lrec.nblk = 1 ∧ g.lrec.nthr = 32 ∧ g.lrec.code = x.hcode ∧ g.lrec.spad = x.hspad.toNat ∧
        g.lrec.param = BitVec.ofNat 64 (x.recAddr r.rid) ∧ g.lrec.done = 0) ∧
    (x.nextRec = none ∨ x.hen = false ∨ x.runs = false ∨ x.hlimit ≤ (s.grids.filter (s.handling c)).length →
      exec (.handlerBlockStart c) s = .next s) ∧
    (∀ rid r, x.recs.find? (fun y => y.rid == rid) = some r →
      ∃ u : State, exec (.trapRecordRetire c rid) s = .next u.wakeAll ∧ u.mem = s.mem ∧ (u.ctx c).recs = x.recs.filter (fun y => y.rid != rid) ∧
        (u.ctx c).tail = x.tail ∧ (u.ctx c).traps = x.traps ∧
        ∀ b w bl, r.trap.holds = some (b, w) → s.block? b = some bl → (∀ y ∈ s.recordings, y.present = none) → w < bl.warps.length →
          (u.warp b w).held = (bl.warp w).held.filter (fun i => decide (i ≠ r.trap.id)) ∧ (u.warp b w).lanes = (bl.warp w).lanes) ∧
    (∀ rid, x.recs.find? (fun y => y.rid == rid) = none → exec (.trapRecordRetire c rid) s = .next s.wakeAll) ∧
    ∀ v : DWord, ∃ (t u : State), exec (.trapqWrite c true v) s = .next t ∧ exec (.trapqWrite c false v) s = .next u ∧ t.mem = s.mem ∧ u.mem = s.mem ∧
      t.blocks = s.blocks ∧ u.blocks = s.blocks ∧
      t.ctx c = { x with hen := v.getLsbD 31, irq := v.getLsbD 30, hmax := (v >>> 20).setWidth 4, hspad := (v >>> 8).setWidth 8, ringFault := false } ∧
      u.ctx c = { x with trapq := (v >>> 16) <<< 16 ||| (v &&& 15), ringFault := false }

/-- The sequencer's step (R290): the calls of one RCALL get consecutive positions from NEXT on, in the S pair the first one and in each lane's V
pair its own, and NEXT rises by their number. SEQUENCER_ASSIGN gives them to the oldest waiting call once there is room. The replay engines
(R292 to R295). REPLAY_INVOCATION_START on a live die runs the next position of the object whose turn it is: lane 0 of a block on the die's
slot stands at the method's ENTRY with the copy's address, the position and the arguments in its V registers, and the descriptor and the
caller in S. METHOD_CLAUSE_LIMIT of an invocation of 65,536 clauses is the method fault. REPLAY_INVOCATION_END stores V0 and V1 at the
caller's address on the caller's die; REPLAY_APPLIED_UPDATE makes APPLIED the next position and ends the invocation. -/
def Obligations.ReplayPositions : Prop :=
  ((∀ (s : State) (ctx desc : Nat) (o : RObj) (w : RWaiting) (b : Block) (late : Bool), s.robj? ctx desc = some o → s.block? w.block = some b → w.warp < b.warps.length →
      (b.warp w.warp).lanes.length = 32 → s.recordings = [] → (w.entries.map (·.1)).Nodup →
      let t := s.assign ctx desc w late
      (t.robj? ctx desc).map (·.next) = some (o.next + w.entries.length) ∧
      tget (t.warp w.block w.warp).s w.sdst = some (BitVec.ofNat 32 (o.next % 2 ^ 32)) ∧
      tget (t.warp w.block w.warp).s (w.sdst + 1) = some (BitVec.ofNat 32 (o.next / 2 ^ 32)) ∧
      ∀ i l e, w.entries[i]? = some (l, e) → l < 32 →
        tget ((t.warp w.block w.warp).lane l).v w.vp = some (BitVec.ofNat 32 ((o.next + i) % 2 ^ 32)) ∧
        tget ((t.warp w.block w.warp).lane l).v (w.vp + 1) = some (BitVec.ofNat 32 ((o.next + i) / 2 ^ 32))) ∧
    ∀ (s : State) (n : Nat) (o : RObj) (w : RWaiting) ws (b : Block), s.robjs[n]? = some o → o.waiting = w :: ws → s.block? w.block = some b → b.resident = true →
      (s.ctx o.ctx).runs = true → o.next + w.entries.length ≤ 2 ^ w.logK + o.trim → s.replaying w.block = false →
      exec (.sequencerAssign n) s = .next (((((s.modRobj o.ctx o.desc fun y => { y with waiting := ws }).markLost o.ctx o.desc).assign o.ctx o.desc w true)
        ).releaseIf w.block w.warp fun t => t == .rcall o.desc)) ∧
  ((∀ (s u v w : State) (die : Nat) (o : RObj) (bs e : List Byte) (f : Word × List Word),
      let d := s.logicalDie die
      let pos := o.applied.getD d 0
      let od := readObjDesc bs
      let meth := leNat ((e.drop 8).take 4) % 64
      s.wh.live.contains die = true → s.wh.dielost.getLsbD die = false → s.invocation die = none → s.nextObj die d = some o →
      ({ s with rturn := tset s.rturn die (s.turnKey o + 1) } : State).devRead o.ctx die o.desc 768 = (u, .ok bs) →
      u.devRead o.ctx die (logSlot od.log od.logStride od.logK d pos) 64 = (v, .ok e) →
      leNat ((e.drop 12).take 4) = pos % 2 ^ 32 → od.valid meth = true → od.readOnly meth = false →
      v.fetchClause (replayCore die) o.ctx die (od.entry meth).toNat = (w, .ok f) →
      ∃ (t : State) (nb : Block) (rv : RInv), exec (.replayInvocationStart die) s = .next t ∧ t.blocks = w.blocks ++ [nb] ∧ nb.ctx = o.ctx ∧ nb.spSize = 4096 ∧
        nb.replay = some rv ∧ rv.die = die ∧ rv.desc = o.desc ∧ rv.pos = pos ∧ rv.clauses = 0 ∧ rv.ended = false ∧
        let x := (nb.warp 0).lane 0
        let pair (r : Nat) (n : Nat) : Prop := tget x.v r = some (BitVec.ofNat 32 n) ∧ tget x.v (r + 1) = some (BitVec.ofNat 32 (n / 2 ^ 32))
        x.kind = .real ∧ x.st = .runnable ∧ x.pc = od.entry meth ∧ x.widx = 0 ∧ (∀ l, 1 ≤ l → l < 32 → ((nb.warp 0).lane l).kind = .absent) ∧
        pair 0 (od.copy d) ∧ pair 2 pos ∧ (∀ a, a < 6 → pair (4 + 2 * a) (leNat ((e.drop (16 + 8 * a)).take 8))) ∧
        tget (nb.warp 0).s 0 = some (BitVec.ofNat 32 o.desc) ∧ tget (nb.warp 0).s 1 = some (BitVec.ofNat 32 (o.desc / 2 ^ 32)) ∧
        tget (nb.warp 0).s 2 = some (BitVec.ofNat 32 (leNat ((e.drop 8).take 8)))) ∧
    ∀ (s : State) (die : Nat),
      (s.wh.live.contains die = false ∨ s.wh.dielost.getLsbD die = true ∨ (s.invocation die).isSome = true ∨ s.nextObj die (s.logicalDie die) = none →
        exec (.replayInvocationStart die) s = .next s) ∧
      ∀ b v, s.invocation die = some (b, v) →
        let d := s.logicalDie die
        let x := (b.warp 0).lane 0
        (65536 ≤ v.clauses → x.isExited = false → exec (.methodClauseLimit die) s = .next (s.methodFault b v 0x3F 0).wakeAll) ∧
        (v.clauses < 65536 ∨ x.isExited = true → exec (.methodClauseLimit die) s = .next s) ∧
        (x.isExited = true → v.ended = false →
          (v.caller.toNat / 2 ^ 29 % 8 ≠ d ∨ v.resaddr = 0 → exec (.replayInvocationEnd die) s =
            .next (s.modBlock b.key fun y => { y with replay := some { v with ended := true } })) ∧
          (∀ lo hi u, v.caller.toNat / 2 ^ 29 % 8 = d → v.resaddr ≠ 0 → v.resaddr.toNat % 8 = 0 → (b.warp 0).loads = [] → tget x.v 0 = some lo → tget x.v 1 = some hi →
            s.devWrite b.ctx die v.resaddr.toNat (leBytes 4 lo.toNat ++ leBytes 4 hi.toNat) = (u, none) →
            exec (.replayInvocationEnd die) s = .next (u.modBlock b.key fun y => { y with replay := some { v with ended := true } }))) ∧
        (v.ended = true → ∀ o, s.robj? b.ctx v.desc = some o → d < o.applied.length →
          ∃ (u : State) (y : RObj), exec (.replayAppliedUpdate die) s = .next u.wakeAll ∧ u.block? b.key = none ∧ u.robj? b.ctx v.desc = some y ∧
            y.applied.getD d 0 = v.pos + 1 ∧ (∀ j, j ≠ d → y.applied.getD j 0 = o.applied.getD j 0) ∧ y.next = o.next ∧ y.broken = o.broken) ∧
        (v.ended = false → exec (.replayAppliedUpdate die) s = .next s))


/-! ## The host, reset, bring-up, partitions and attestation (R324 to R337, R383 to R385) -/

/-- HOST_WRITE and PEER_WRITE, HOST_READ and PEER_READ (R164, R371), and REGISTER_WRITE (R326, R327, R329). A write of bytes of one page stores
each at the page's home, where neither the die is lost nor the line, and no other byte of device memory, and with poisoned data poisons the
words; a read gives the bytes there, where no two page numbers, foreign store or TLR change have left them undefined, with the poison that the
home's L2 has or would read, and changes nothing else. A 32-bit register write changes what its register holds: of a context its schedule
word, table roots, stow area size, watchdog limit, debug control; of a queue its TAIL. The coding of a register write is the model's (log 76),
and so are when a shared page is noticed and where poison lies (logs 91 and 125). -/
def Obligations.HostAccesses : Prop :=
  (∀ (s : State) (home : Option Nat) (pa die : Nat), pa < 2 ^ 48 → s.wh.live[home.getD (hashHome s.wh.live.length (pa / 2 ^ 16))]? = some die →
    die < 8 →
    let key (i : Nat) : Nat := die * 2 ^ 37 + pa / 65536 % 2 ^ 21 * 65536 + pa % 65536 + i
    (∀ data : Payload, pa % 65536 + data.bytes.length ≤ 65536 → s.wh.dielost.getLsbD die = false →
      (∀ i, i < data.bytes.length → key i / 128 ∉ s.lostLines) → ∀ wr ∈ [Instr.hostWrite home pa data, .peerWrite home pa data],
      ∃ t : State, exec wr s = .next t ∧ (∀ i b, data.bytes[i]? = some b → t.mem.read (key i) = b ∧ (data.pois = true → t.devPois die (key i) = true)) ∧
        (∀ k, (∀ i, i < data.bytes.length → k ≠ key i) → s.hlines = [] ∨ isOutside k = false → t.mem.read k = s.mem.read k) ∧
        t.blocks = s.blocks ∧ t.ctxs = s.ctxs) ∧
    ∀ n, pa % 65536 + n ≤ 65536 → (∀ i, i < n → s.undefAt (key i) = false) → ∀ rd ∈ [Instr.hostRead home pa n, .peerRead home pa n],
      ∃ (t : State) (y : ReadReply), exec rd s = .next t ∧ t.hostRead = some y ∧ y.data = (List.range n).map (fun i => s.mem.read (key i)) ∧
        (y.poisoned = true ↔ ∃ i, i < n ∧ s.devPois die (key i) = true) ∧ { t with hostRead := s.hostRead } = s) ∧
  ∀ (s : State) (v : Word) (c q : Nat), c < 1024 → q < 8192 →
    let put (o : Nat) (x : Ctx) : Prop := ∃ t : State, exec (.registerWrite (0x1000000 + 4096 * c + o) 4 v.toNat) s = .next t ∧ t.ctx c = x ∧
      (∀ k, k ≠ c → t.ctx k = s.ctx k) ∧ t.mem = s.mem ∧ t.blocks = s.blocks
    let x := s.ctx c
    put 0x00 { x with sched := (v >>> 8) <<< 8 } ∧ put 0x28 { x with stowsz := v } ∧ put 0x60 { x with wdms := v.setWidth 16 } ∧
    put 0x68 { x with stowsh := v.setWidth 16 } ∧ put 0x820 { x with trcsz := v } ∧ put 0x830 { x with recsz := v } ∧
    put 0x10 { x with root := (x.root >>> 32) <<< 32 ||| v.setWidth 64 } ∧ put 0x50 x ∧ put 0x54 x ∧
    put 0x48 { x with hcode := (x.hcode >>> 32) <<< 32 ||| v.setWidth 64 } ∧
    put 0x4C { x with hcode := v.setWidth 64 <<< 32 ||| x.hcode &&& 0xFFFFFFFF } ∧
    put 0x828 { x with stopr := v.getLsbD 1, ren := v.getLsbD 0 } ∧
    (∃ t : State, exec (.registerWrite (0x2000000 + 64 * q + 20) 4 v.toNat) s = .next t ∧ 
      t.queue q = { s.queue q with tail := v, overrun := decide (2 ^ (s.queue q).logn < (v - (s.queue q).head).toNat) } ∧
      (∀ k, k ≠ q → t.queue k = s.queue k) ∧ t.mem = s.mem) ∧
    ∃ t : State, exec (.registerWrite (0x2000000 + 64 * q + 16) 4 v.toNat) s = .next t ∧ ∀ k, t.queue k = s.queue k

/-- Resets, bring-up and partitions (R14, R330 to R332, R337, R383). COLD_RESET leaves the state of reset, with the memory of hosts and peers;
WARM_RESET keeps WALL, device memory and the sediment log, which gains its event. BRINGUP_STAGE_COMPLETE goes from stage to stage: after stage
3 the lowest usable die serves alone with READY 1, after stage 4 all live dies with READY 2, of exactly four usable ones three; a fatal error
stops it. A new partition map is refused, which any one with a cell in a partition is before the usable dies are known (log 5), finds a busy
context, or is applied; with FORCE the busy contexts are pre-empted first. The usable dies are a free value, and none is known before stage 3
(log 5); what a self-test failure leaves, FORCE and BUSY are the model's readings (logs 80 to 82), and so is what a warm reset keeps (log 83). -/
def Obligations.PowerUpAndPartitions : Prop :=
  (∀ s : State, ∃ t : State, exec .coldReset s = .next t ∧ t.blocks = [] ∧ t.ctxs = [] ∧ t.grids = [] ∧ t.cores = [] ∧ t.wallU = 0 ∧ t.wh = State.reset.wh ∧
    (∀ k, k < 2 ^ 48 → t.mem.read k = 0) ∧ (s.hlines = [] → ∀ k, 2 ^ 48 ≤ k → t.mem.read k = s.mem.read k)) ∧
  (∀ s : State, ∃ (t : State) (e : Sediment), exec .warmReset s = .next t ∧ t.blocks = [] ∧ t.ctxs = [] ∧ t.grids = [] ∧ t.cores = [] ∧ t.wallU = s.wallU ∧ t.wh.ready = 0 ∧
    t.wh.live = [] ∧ t.wh.sediment = s.wh.sediment ++ [e] ∧ e.event = 2 ∧ (s.hlines = [] → t.mem = s.mem) ∧
    ∀ d, t.wh.usable.getLsbD d = (s.wh.usable.getLsbD d && !s.wh.dielost.getLsbD d)) ∧
  (∀ s : State, s.wh.err = 0 →
    (s.wh.stage = 0 ∨ s.wh.stage = 1 → ∃ t : State, exec (.bringupStageComplete 0) s = .next t ∧ t.wh = { s.wh with stage := s.wh.stage + 1 } ∧ t.mem = s.mem) ∧
    (s.wh.stage = 2 → let u := Config.usable s.tick &&& s.wh.usable
      ∃ t : State, exec (.bringupStageComplete 0) s = .next t ∧
        if u = 0 then t.wh.err = 2 ∧ t.wh.ready = 0 ∧ t.wh.live = [] else t.wh = { s.wh with stage := 3, usable := u } ∧ t.mem = s.mem) ∧
    (s.wh.stage = 3 → ∀ d, s.wh.usable.getLsbD d = true → (∀ k, k < d → s.wh.usable.getLsbD k = false) →
      ∃ t : State, exec (.bringupStageComplete 0) s = .next t ∧ t.wh.stage = 4 ∧ t.wh.ready = 1 ∧ t.wh.live = [d] ∧ t.wh.mhz = 600 ∧
        ∀ c, c < 6 → tget t.wh.partmap (6 * d + c) = some 0) ∧
    (s.wh.stage = 4 → let n := ((List.range 8).filter s.wh.usable.getLsbD).length
      (n < 3 → ∃ t : State, exec (.bringupStageComplete 0) s = .next t ∧ t.wh.stage = 5 ∧ t.wh.ready = s.wh.ready ∧ t.wh.live = s.wh.live) ∧
      (3 ≤ n → ∃ t : State, exec (.bringupStageComplete 0) s = .next t ∧ t.wh.stage = 5 ∧ t.wh.ready = 2 ∧ t.wh.mhz = 1200 ∧ t.wh.partmap = s.wh.partmap ∧
        t.wh.live = ((List.range 8).filter s.wh.usable.getLsbD).take (if n = 4 then 3 else n))) ∧
    (s.wh.stage.toNat < 5 → ∃ (t : State) (e : Sediment), exec (.bringupStageComplete 3) s = .next t ∧ t.wh.err = 3 ∧ t.wh.ready = 0 ∧ t.wh.live = [] ∧
      t.wh.sediment = s.wh.sediment ++ [e] ∧ e.event = 3 ∧ t.mem = s.mem)) ∧
  ∀ s : State,
    let set (i : Instr) (v : BitVec 2) : Prop := ∃ t : State, exec i s = .next t ∧
      t.wh = { s.wh with partst := v, partForce := false, forced := [], forceMap := [] } ∧ t.mem = s.mem ∧ t.ctxs = s.ctxs
    let new (c : Nat) : Nat := (tgetD s.wh.partnew c 0xFF).toNat
    let refused : Prop := ∃ c, c < 48 ∧ new c ≠ 0xFF ∧ (47 < new c ∨ s.wh.stage.toNat < 3 ∨ s.wh.gone (c / 6) = true)
    let busy := s.go.busyCtxs
    (refused → set .partitionApply 3 ∧ set .partitionApplyForce 3) ∧
    (¬ refused → busy ≠ [] → set .partitionApply 2) ∧
    (¬ refused → busy = [] → ∀ i ∈ [Instr.partitionApply, .partitionApplyForce], ∃ (t : State) (e : Sediment), exec i s = .next t ∧
      t.wh.partmap = s.wh.partnew ∧ t.wh.partst = 1 ∧ t.wh.sediment = s.wh.sediment ++ [e] ∧ e.event = 0x50 ∧ t.mem = s.mem ∧ t.blocks = s.blocks) ∧
    (¬ refused → busy ≠ [] → (∀ r ∈ s.recordings, r.present = none) → (∀ c ∈ busy, (s.ctx c).preFault = false ∧ (s.ctx c).pre = false ∧
      (s.ctx c).saved = false ∧ (s.ctx c).failed = false) → ∃ t : State, exec .partitionApplyForce s = .next t ∧ t.wh.partForce = true ∧
        t.wh.partst = 0 ∧ t.wh.forced = busy ∧ t.wh.forceMap = s.wh.partnew ∧ t.wh.partmap = s.wh.partmap ∧ ∀ c ∈ busy, (t.ctx c).pre = true)

/-- The SPDM requests on a PF's mailbox and the signature of the sediment log (R335, R385). GET_VERSION forgets the agreement;
NEGOTIATE_ALGORITHMS agrees on P-384 with SHA-384 and nothing else; the requests after it answer with an error without an agreement.
SEDIMENT_SIGN clears DONE, and its completion sets it. Nothing but the mailbox or the signature changes. Signatures and measurements are free
values, and the error answers the model's reading (log 16). -/
def Obligations.Attestation : Prop :=
  (∀ (s : State) (pf : Nat), pf < 2 →
    let old := tgetD s.wh.spdm pf {}
    let answers (i : Instr) (a : Bool) (r : SpdmResp) : Prop := ∃ t : State, exec i s = .next t ∧
      tget t.wh.spdm pf = some { agreed := a, resp := some r } ∧ (∀ k, k ≠ pf → tget t.wh.spdm k = tget s.wh.spdm k) ∧
      { t with wh := { t.wh with spdm := s.wh.spdm } } = s
    let needs (i : Instr) (r : SpdmResp) : Prop := answers i old.agreed (if old.agreed then r else .error)
    answers (.getVersion pf) false (.version [0x12, 0x13]) ∧ answers (.getCapabilities pf) old.agreed (.capabilities [0] false) ∧
    (∀ algs : List SpdmAlg, .ecdsaP384 ∈ algs → .sha384 ∈ algs → answers (.negotiateAlgorithms pf algs) true (.algorithms .ecdsaP384 .sha384)) ∧
    (∀ algs : List SpdmAlg, ¬ (.ecdsaP384 ∈ algs ∧ .sha384 ∈ algs) → answers (.negotiateAlgorithms pf algs) old.agreed .error) ∧
    needs (.getDigests pf) (.digests 0 (beNat (sha384 Config.certChain))) ∧
    (∀ off len, needs (.getCertificate pf 0 off len) (.certificate 0 ((Config.certChain.drop off).take len) (Config.certChain.length - off - len))) ∧
    (∀ slot off len, slot ≠ 0 → needs (.getCertificate pf slot off len) .error) ∧
    (∀ nonce, ∃ sig, needs (.challenge pf 0 nonce) (.challenge 0 nonce sig)) ∧ (∀ slot nonce, slot ≠ 0 → needs (.challenge pf slot nonce) .error) ∧
    (∃ m : List (Nat × Nat), m.map (·.1) = [1, 2, 3, 4, 5] ∧ needs (.getMeasurements pf 0xFF) (.measurements m) ∧
      ∀ i, 1 ≤ i → i ≤ 5 → ∃ v, m[i - 1]? = some (i, v) ∧ needs (.getMeasurements pf i) (.measurements [(i, v)])) ∧
    ∀ i, i = 0 ∨ (6 ≤ i ∧ i ≠ 0xFF) → needs (.getMeasurements pf i) .error) ∧
  ∀ s : State,
    (∃ t : State, exec .sedimentSign s = .next t ∧ t.wh.sigDone = false ∧ t.wh.signing = some (s.wh.sediment.length - 1) ∧
      { t with wh := { t.wh with sigDone := s.wh.sigDone, signing := s.wh.signing } } = s) ∧
    (s.wh.signing = none → exec .sedimentSignComplete s = .next s) ∧
    ∀ n, s.wh.signing = some n → ∃ t : State, exec .sedimentSignComplete s = .next t ∧ t.wh.sigDone = true ∧ t.wh.signing = none ∧
      t.wh.signature = Config.signature (beNat (sha384 (leBytes 8 n ++ s.wh.chain n))) ∧ t.wh.sediment = s.wh.sediment ∧ t.mem = s.mem ∧
      t.blocks = s.blocks ∧ t.ctxs = s.ctxs

/-! ## Power, failures and the debugger (R306 to R317, R336, R369 to R379) -/

/-- Power and failures (R336, R370, R373, R374, R376, R384). POWER_LIMIT_ADJUST sets a clock of its range, down by one step at a time, and gates
issue at the lowest alone; DIE_IDLE_ENTRY puts an idle die in state 1 or 2. SCRUB of an error that cannot be corrected poisons the word and
logs it; of corrected ones it counts; of a die that is not live it does nothing. LANE_SPARE uses the bundle's spare once, then drops the
bundle; BUNDLE_RETRAIN_COMPLETE ends its training. DIE_LOST marks the die, fails the contexts with a block or a command on it, each with its
report, and ends the invocation there. A port that goes down with no request outstanding, or up, is so, with its event; a retried flit and a
retrained host link, of two, count. One report for each context is the model's reading (log 87), and so is what an owned line survives (log
104); the ports' state is its choice (logs 7 and 107). -/
def Obligations.PowerAndFailures : Prop :=
  (∀ (s : State) (mhz k : Nat), s.wh.ready ≠ 0 → (s.wh.ready = 1 → mhz = 600) → 600 ≤ mhz → mhz ≤ 1200 → mhz % 50 = 0 → 2 ≤ k → k ≤ 16 →
    k = 16 ∨ mhz = 600 → s.wh.mhz ≤ mhz + 50 → s.wh.gateK ≤ k + 1 → (k < s.wh.gateK → s.wh.mhz = 600) →
    ∃ t : State, exec (.powerLimitAdjust mhz k) s = .next t ∧ t.wh.mhz = mhz ∧ t.wh.gateK = k ∧ t.mem = s.mem ∧ t.blocks = s.blocks) ∧
  (∀ (s : State) (mhz k : Nat), s.wh.ready = 0 ∨ (s.wh.ready = 1 ∧ mhz ≠ 600) ∨ mhz < 600 ∨ 1200 < mhz ∨ mhz % 50 ≠ 0 ∨ k < 2 ∨ 16 < k ∨
    (k ≠ 16 ∧ mhz ≠ 600) ∨ mhz + 50 < s.wh.mhz ∨ k + 1 < s.wh.gateK ∨ (k < s.wh.gateK ∧ s.wh.mhz ≠ 600) → exec (.powerLimitAdjust mhz k) s = .next s) ∧
  (∀ (s : State) (d : Nat) (deep : Bool), d ∈ s.wh.live → s.wh.dielost.getLsbD d = false → s.wh.hasCells d = true → s.dieIdle d = true →
    ∃ t : State, exec (.dieIdleEntry d deep) s = .next t ∧ tget t.wh.pwrst d = some (if deep then 2 else 1) ∧
      (∀ k, k ≠ d → tget t.wh.pwrst k = tget s.wh.pwrst k) ∧ t.mem = s.mem ∧ t.blocks = s.blocks) ∧
  (∀ (s : State) (a n : Nat), a < 2 ^ 48 → keyDie a ∉ s.wh.live → exec (.scrub (.hbm a) n) s = .next s) ∧
  (∀ (s : State) (a n : Nat), a < 2 ^ 48 → keyDie a ∈ s.wh.live →
    (∃ (t : State) (e : Sediment), exec (.scrub (.hbm a) 0) s = .next t ∧ t.poisoned a = true ∧ t.mem = s.mem ∧ (∀ k, k / 32 ≠ a / 32 → t.poisoned k = s.poisoned k) ∧
      t.wh.sediment = s.wh.sediment ++ [e] ∧ e.event = 0x11) ∧
    (0 < n → ∃ t : State, exec (.scrub (.hbm a) n) s = .next t ∧ t.memPoison = s.memPoison ∧ t.mem = s.mem ∧
      tget t.wh.corrected (0x10 + s.stackOf a) = some (tgetD s.wh.corrected (0x10 + s.stackOf a) 0 + n))) ∧
  (∀ (s : State) (d dir bundle : Nat), d ∈ s.wh.live → dir < 2 → bundle < 16 →
    let key := d * 32 + dir * 16 + bundle
    let b := tgetD s.wh.links key {}
    (b.dropped = false → b.spared = false → ∃ (t : State) (e : Sediment), exec (.laneSpare d dir bundle) s = .next t ∧
      tget t.wh.links key = some { spared := true, dropped := false, training := true } ∧ t.wh.sediment = s.wh.sediment ++ [e] ∧ e.event = 0x20 ∧
      t.mem = s.mem ∧ t.blocks = s.blocks) ∧
    (b.dropped = false → b.spared = true → ∃ t : State, exec (.laneSpare d dir bundle) s = .next t ∧
      tget t.wh.links key = some { spared := true, dropped := true, training := false }) ∧
    (∀ y, tget s.wh.links key = some y → ∃ t : State, exec (.bundleRetrainComplete d dir bundle) s = .next t ∧
      tget t.wh.links key = some { y with training := false } ∧ t.mem = s.mem ∧ t.blocks = s.blocks)) ∧
  (∀ (s : State) (d : Nat), d < 8 → d ∈ s.wh.live → s.wh.dielost.getLsbD d = false →
    ∃ t : State, exec (.dieLost d) s = .next t ∧ t.wh.dielost = s.wh.dielost ||| (1#8 <<< d) ∧ t.mem = s.mem ∧
      (∀ b ∈ t.blocks, b ∈ s.blocks ∧ (b.replay = none ∨ b.die ≠ d)) ∧
      (∀ c, tget s.ctxs c ≠ none → s.ctxOnDie c d = true → (s.ctx c).failed = false → (t.ctx c).failed = true ∧
        ∃ tr, (t.ctx c).traps = (s.ctx c).traps ++ [tr] ∧ tr.cause = 0x3B ∧ tr.code = d) ∧
      ∀ c, s.ctxOnDie c d = false → t.ctx c = s.ctx c) ∧
  (∀ (s : State) (d : Nat), d ∉ s.wh.live ∨ s.wh.dielost.getLsbD d = true → exec (.dieLost d) s = .next s) ∧
  (∀ (s : State) (p : Nat), p < 16 → ∀ e ∈ [(Instr.ualinkPortDown p, true), (.ualinkPortUp p, false)],
    (s.wh.portsDown.getLsbD p = e.2 → exec e.1 s = .next s) ∧
    (s.wh.portsDown.getLsbD p = !e.2 →
      (e.2 = true → ∀ b ∈ s.blocks, (∀ w ∈ b.warps, w.loads = [] ∧ w.stores = []) ∧ ∀ g ∈ b.ecs, g.cmds = []) → ∃ (t : State) (y : Sediment), exec e.1 s = .next t ∧ t.wh.portsDown.getLsbD p = e.2 ∧
      (∀ k, k ≠ p → t.wh.portsDown.getLsbD k = s.wh.portsDown.getLsbD k) ∧ t.wh.sediment = s.wh.sediment ++ [y] ∧ y.event = 0x22 ∧ t.mem = s.mem ∧
      t.blocks = s.blocks)) ∧
  (∀ (s : State) (d : Nat), 2 ≤ d → exec (.hostLinkRetrain d) s = .next s) ∧
  ∀ (s : State) (d dir : Nat), ∃ t : State, exec (.linkLevelRetry d dir) s = .next t ∧
    t.wh = { s.wh with flitErr := tset s.wh.flitErr (2 * d + dir) (tgetD s.wh.flitErr (2 * d + dir) 0 + 1) } ∧ t.mem = s.mem ∧ t.blocks = s.blocks ∧
    (d < 2 → ∃ u : State, exec (.hostLinkRetrain d) s = .next u ∧
    u.wh = { s.wh with hostRetrains := tset s.wh.hostRetrains d (tgetD s.wh.hostRetrains d 0 + 1) } ∧ u.mem = s.mem ∧ u.blocks = s.blocks)

/-- Recorded mode and the debugger (R306 to R311, R317). RECORDED_MODE_ENABLE sets REC; CHECKPOINT_INTERVAL_END begins an interval whose
checkpoint is the block as it stands, with WCNT 0. DEBUG_STEP and DEBUG_CONTINUE resume a fragment that stands under the debugger, the step
for one clause, and refused where the step would need a fragment number or a table entry that is not free; DEBUG_REACH_STOP halts the block,
and once every warp stands at a clause boundary keeps it as it stands and puts it back to its checkpoint, to re-execute from its log towards
the stop; DEBUG_DETACH clears ATT. What a block that is shown in its past leaves alone, when a halt ends, the sizes that fill a share and what
a step may need are the model's readings (logs 37, 39, 69 and 103). -/
def Obligations.DebugEvents : Prop :=
  (∀ (s : State) (c : Nat), ∃ t : State, exec (.recordedModeEnable c) s = .next t ∧ t.ctx c = { s.ctx c with recm := true } ∧
    (∀ k, k ≠ c → t.ctx k = s.ctx k) ∧ t.mem = s.mem ∧ t.blocks = s.blocks) ∧
  (∀ (s : State) (b : Nat) (bl : Block) (r : Recording), s.block? b = some bl → s.recording? b = some r → r.replaying = none →
    2 ^ 20 ≤ bl.recCount → ∃ (t : State) (y : Block) (q : Recording), exec (.checkpointIntervalEnd b) s = .next t ∧ t.block? b = some y ∧ y.recCount = 0 ∧
      (∀ w ∈ y.warps, w.wcnt = 0) ∧ t.recording? b = some q ∧ q.log = [] ∧ q.replaying = none ∧ q.checkpoint.warps = y.warps ∧
      q.checkpoint.spad = y.spad ∧ ((∀ w ∈ bl.warps, w.loads = []) → t.mem = s.mem)) ∧
  (∀ (s : State) (b : Nat) (bl : Block) (r : Recording), s.block? b = some bl → s.recording? b = some r → r.replaying.isSome = true ∨
    (bl.recCount < 2 ^ 20 ∧ r.log = []) → exec (.checkpointIntervalEnd b) s = .next s) ∧
  (∀ (s : State) (b w f : Nat) (bl : Block), s.block? b = some bl → (s.recording? b).bind (·.present) = none →
    (bl.resident = false ∨ (s.ctx bl.ctx).att = false → exec (.debugContinue b w f) s = .next s ∧ exec (.debugStep b w f) s = .next s) ∧
    (bl.resident = true → (s.ctx bl.ctx).att = true →
      (s.stopped? bl w f = none → exec (.debugContinue b w f) s = .next (s.unhalt bl) ∧ exec (.debugStep b w f) s = .next s) ∧
      ∀ e g, s.stopped? bl w f = some (e, g) →
        exec (.debugContinue b w f) s = .next ((s.resume bl.core e g).unhalt bl).wakeAll ∧
        let need := s.stepNeed b w bl g ((bl.warp w).fragMask f)
        let room : Prop := need ≤ ([1, 2, 3, 4, 5, 6, 7].filter fun n => ((s.core bl.core).frag? b w n).isNone).length ∧
          need ≤ (s.freeEntries bl.core).length
        (¬ room → exec (.debugStep b w f) s = .next s) ∧
        (room → exec (.debugStep b w f) s = .next ((((s.resume bl.core e g).modMask b w ((bl.warp w).fragMask f) fun _ x =>
          { x with step := !x.isParked }).syncHelpers b).wakeAll)))) ∧
  (∀ (s : State) (b w n : Nat) (bl : Block) (r : Recording), s.block? b = some bl → s.recordings = [r] → r.block = b → r.present = none →
    bl.resident = true → (s.ctx bl.ctx).att = true →
    (bl.between = false → ∃ (t : State) (q : Recording), exec (.debugReachStop b w n) s = .next t ∧ t.mem = s.mem ∧ t.blocks = s.blocks ∧
      b ∈ (t.ctx bl.ctx).halted ∧ t.recording? b = some q ∧ q.goal = some (w, n) ∧ q.replaying = r.replaying ∧ q.checkpoint = r.checkpoint) ∧
    (bl.between = true → (∀ x ∈ bl.warps, x.loads = []) → ∃ (t : State) (y : Block) (q : Recording), exec (.debugReachStop b w n) s = .next t ∧
      t.mem = s.mem ∧ t.block? b = some y ∧ b ∉ (t.ctx bl.ctx).halted ∧
      y.spad = r.checkpoint.spad ∧ y.clk = bl.clk ∧ y.ecs = bl.ecs ∧ y.warps.map (fun x => (x.lanes, x.s, x.bars, x.flight)) =
        r.checkpoint.warps.map (fun x => (x.lanes, x.s, x.bars, x.flight)) ∧
      t.recording? b = some q ∧ q.replaying = some (w, n, r.log) ∧ q.present = some (s.whole bl) ∧ q.log = r.log ∧ q.checkpoint = r.checkpoint)) ∧
  ∀ (s : State) (c : Nat), ∃ u : State, exec (.debugDetach c) s = .next u.wakeAll ∧ (u.ctx c).att = false ∧ (u.ctx c).halted = []
end

