-- ==== Sys2Proof/Laws/Memory.lean ====
section
/-! SUPPORT. Laws of sparse maps, of memory and its canonical form, of masks, and of reads after updates of blocks, warps and lanes. -/

namespace Sys2Proof.Machine

/-! ## Sparse maps -/

section
variable {α : Type}

theorem tget_tset_same (t : Tab α) (k : Nat) (x : α) : tget (tset t k x) k = some x := by
  induction t with
  | nil => simp [tset, tget]
  | cons e t ih =>
    obtain ⟨j, y⟩ := e
    simp only [tset]
    split
    · simp [tget]
    · split
      · simp [tget]
      · rename_i h1 h2
        have : j ≠ k := fun e => h2 e.symm
        simp [tget, this, ih]

theorem tget_tset_other (t : Tab α) {k i : Nat} (x : α) (h : i ≠ k) : tget (tset t k x) i = tget t i := by
  have hk : k ≠ i := fun e => h e.symm
  induction t with
  | nil => simp [tset, tget, hk]
  | cons e t ih =>
    obtain ⟨j, y⟩ := e
    simp only [tset]
    split
    · simp [tget, hk]
    · split
      · rename_i h1 h2
        subst h2
        simp [tget, hk]
      · simp [tget, ih]

theorem tget_terase_same (t : Tab α) (k : Nat) : tget (terase t k) k = none := by
  induction t with
  | nil => rfl
  | cons e t ih =>
    obtain ⟨j, y⟩ := e
    simp only [terase]
    split
    · exact ih
    · rename_i h
      simp [tget, h, ih]

theorem tget_terase_other (t : Tab α) {k i : Nat} (h : i ≠ k) : tget (terase t k) i = tget t i := by
  induction t with
  | nil => rfl
  | cons e t ih =>
    obtain ⟨j, y⟩ := e
    simp only [terase]
    split
    · rename_i h1
      subst h1
      have hj : ¬ j = i := fun e => h e.symm
      simp [tget, hj, ih]
    · simp [tget, ih]

theorem tgetD_tmod_same (t : Tab α) (k : Nat) (d : α) (f : α → α) : tgetD (tmod t k d f) k d = f (tgetD t k d) := by
  simp [tgetD, tmod, tget_tset_same]

theorem tgetD_tmod_other (t : Tab α) {k i : Nat} (d : α) (f : α → α) (h : i ≠ k) : tgetD (tmod t k d f) i d = tgetD t i d := by
  simp [tgetD, tmod, tget_tset_other _ _ h]

end

/-! ## Memory: a read after a write -/

theorem Memory.read_write_same (m : Memory) (a : Nat) (b : Byte) : (m.write a b).read a = b := by
  unfold Memory.write Memory.read
  split
  · rename_i h
    simp [tget_terase_same, h]
  · simp [tget_tset_same]

theorem Memory.read_write_other (m : Memory) {a i : Nat} (b : Byte) (h : i ≠ a) : (m.write a b).read i = m.read i := by
  unfold Memory.write Memory.read
  split
  · rw [tget_terase_other m h]
  · rw [tget_tset_other m b h]

theorem Memory.read_writeN_other (bs : List Byte) (m : Memory) (a i : Nat) (h : i < a ∨ a + bs.length ≤ i) :
    (m.writeN a bs).read i = m.read i := by
  induction bs generalizing m a with
  | nil => rfl
  | cons b bs ih =>
    simp only [List.length_cons] at h
    simp only [Memory.writeN]
    rw [ih (m.write a b) (a + 1) (by omega), Memory.read_write_other m b (by omega)]

theorem Memory.read_writeN (bs : List Byte) (m : Memory) (a i : Nat) (h : i < bs.length) :
    (m.writeN a bs).read (a + i) = bs.getD i 0 := by
  induction bs generalizing m a i with
  | nil => simp at h
  | cons b bs ih =>
    simp only [Memory.writeN]
    cases i with
    | zero =>
      change ((m.write a b).writeN (a + 1) bs).read a = b
      rw [Memory.read_writeN_other bs (m.write a b) (a + 1) a (by omega), Memory.read_write_same]
    | succ i =>
      have := ih (m.write a b) (a + 1) i (by simpa using h)
      rw [show a + (i + 1) = a + 1 + i by omega, this]
      simp

/-! ## Memory: the canonical form -/

theorem Memory.wfFrom_mono (m : Memory) {lo hi : Nat} (h : lo ≤ hi) (w : Memory.wfFrom hi m = true) : Memory.wfFrom lo m = true := by
  cases m with
  | nil => rfl
  | cons e m =>
    obtain ⟨a, b⟩ := e
    simp only [Memory.wfFrom, Bool.and_eq_true, decide_eq_true_eq] at w ⊢
    exact ⟨⟨by omega, w.1.2⟩, w.2⟩

theorem Memory.wfFrom_terase (m : Memory) (lo k : Nat) (w : Memory.wfFrom lo m = true) : Memory.wfFrom lo (terase (α := Byte) m k) = true := by
  induction m generalizing lo with
  | nil => rfl
  | cons e m ih =>
    obtain ⟨a, b⟩ := e
    simp only [Memory.wfFrom, Bool.and_eq_true, decide_eq_true_eq] at w
    simp only [terase]
    split
    · exact ih lo (wfFrom_mono m (by omega) w.2)
    · simp only [Memory.wfFrom, Bool.and_eq_true, decide_eq_true_eq]
      exact ⟨w.1, ih (a + 1) w.2⟩

theorem Memory.wfFrom_tset (m : Memory) (lo k : Nat) (b : Byte) (hk : lo ≤ k) (hb : b ≠ 0) (w : Memory.wfFrom lo m = true) :
    Memory.wfFrom lo (tset (α := Byte) m k b) = true := by
  induction m generalizing lo with
  | nil =>
    simp only [tset, Memory.wfFrom, Bool.and_eq_true, decide_eq_true_eq]
    exact ⟨⟨hk, hb⟩, trivial⟩
  | cons e m ih =>
    obtain ⟨a, c⟩ := e
    simp only [Memory.wfFrom, Bool.and_eq_true, decide_eq_true_eq] at w
    simp only [tset]
    split
    · rename_i h
      simp only [Memory.wfFrom, Bool.and_eq_true, decide_eq_true_eq]
      exact ⟨⟨hk, hb⟩, ⟨by omega, w.1.2⟩, w.2⟩
    · split
      · rename_i h1 h2
        subst h2
        simp only [Memory.wfFrom, Bool.and_eq_true, decide_eq_true_eq]
        exact ⟨⟨hk, hb⟩, w.2⟩
      · simp only [Memory.wfFrom, Bool.and_eq_true, decide_eq_true_eq]
        exact ⟨w.1, ih (a + 1) (by omega) w.2⟩

theorem Memory.wf_write (m : Memory) (a : Nat) (b : Byte) (w : m.wf = true) : (m.write a b).wf = true := by
  unfold Memory.write
  split
  · exact wfFrom_terase m 0 a w
  · rename_i h
    exact wfFrom_tset m 0 a b (Nat.zero_le _) h w

theorem Memory.wf_writeN (bs : List Byte) (m : Memory) (a : Nat) (w : m.wf = true) : (m.writeN a bs).wf = true := by
  induction bs generalizing m a with
  | nil => exact w
  | cons b bs ih => exact ih _ _ (wf_write m a b w)

theorem Memory.wfFrom_filter (p : Nat × Byte → Bool) (m : Memory) (lo : Nat) (w : Memory.wfFrom lo m = true) :
    Memory.wfFrom lo (List.filter p m : Memory) = true := by
  induction m generalizing lo with
  | nil => rfl
  | cons e m ih =>
    obtain ⟨a, b⟩ := e
    simp only [Memory.wfFrom, Bool.and_eq_true, decide_eq_true_eq] at w
    simp only [List.filter]
    split
    · simp only [Memory.wfFrom, Bool.and_eq_true, decide_eq_true_eq]
      exact ⟨w.1, ih (a + 1) w.2⟩
    · exact ih lo (wfFrom_mono _ (by omega) w.2)

theorem Memory.wf_filter (p : Nat × Byte → Bool) (m : Memory) (w : m.wf = true) : Memory.wf (List.filter p m : Memory) = true :=
  wfFrom_filter p m 0 w

/-! ## Little-endian values -/

theorem length_leBytes (n v : Nat) : (leBytes n v).length = n := by
  induction n generalizing v with
  | zero => rfl
  | succ n ih => simp [leBytes, ih]

theorem leNat_leBytes (n v : Nat) : leNat (leBytes n v) = v % 256 ^ n := by
  induction n generalizing v with
  | zero => simp [leBytes, leNat, Nat.mod_one]
  | succ n ih =>
    simp only [leBytes, leNat, ih, BitVec.toNat_ofNat]
    change v % 256 + 256 * (v / 256 % 256 ^ n) = _
    rw [Nat.pow_succ, Nat.mul_comm (256 ^ n) 256, Nat.mod_mul]

/-! ## Masks -/

theorem maskNat_lt (p : Nat → Bool) (n : Nat) : maskNat p (List.range n) < 2 ^ n := by
  have key : ∀ (k : Nat) (ls : List Nat), maskNat p (ls ++ [k]) = maskNat p ls + (if p k then 2 ^ k else 0) := by
    intro k ls
    induction ls with
    | nil => simp [maskNat]
    | cons a ls ih => simp [maskNat, ih]; omega
  induction n with
  | zero => simp [maskNat]
  | succ n ih =>
    rw [List.range_succ, key, Nat.pow_succ]
    split <;> omega

theorem testBit_maskNat (p : Nat → Bool) (n l : Nat) : (maskNat p (List.range n)).testBit l = (decide (l < n) && p l) := by
  have key : ∀ (k : Nat) (ls : List Nat), maskNat p (ls ++ [k]) = maskNat p ls + (if p k then 2 ^ k else 0) := by
    intro k ls
    induction ls with
    | nil => simp [maskNat]
    | cons a ls ih => simp [maskNat, ih]; omega
  induction n with
  | zero => simp [maskNat]
  | succ n ih =>
    have hlt := maskNat_lt p n
    rw [List.range_succ, key]
    by_cases hp : p n = true
    · rw [if_pos hp, Nat.add_comm]
      by_cases hl : l = n
      · subst hl
        rw [Nat.testBit_two_pow_add_eq, Nat.testBit_lt_two_pow hlt]
        simp [hp]
      · by_cases hl2 : l < n
        · rw [Nat.testBit_two_pow_add_gt hl2, ih]
          simp [hl2, Nat.lt_succ_of_lt hl2]
        · have h3 : 2 ^ n + maskNat p (List.range n) < 2 ^ l :=
            lt_of_lt_of_le (b := 2 ^ (n + 1)) (by rw [Nat.pow_succ]; omega) (Nat.pow_le_pow_right (by omega) (by omega))
          rw [Nat.testBit_lt_two_pow h3]
          have : ¬ l < n + 1 := by omega
          simp [this]
    · rw [if_neg hp, Nat.add_zero, ih]
      by_cases hl : l = n
      · subst hl
        simp [hp]
      · have : (l < n) ↔ (l < n + 1) := by omega
        simp [this]

/-- The lanes of `maskOf p` are those below 32 of which `p` holds. -/
@[simp] theorem maskOf_has (p : Nat → Bool) (l : Nat) : (maskOf p).has l = (decide (l < 32) && p l) := by
  unfold maskOf Mask.has lanes32
  rw [BitVec.getLsbD_ofNat, testBit_maskNat]
  by_cases h : l < 32 <;> simp [h]

theorem mem_mask_list (m : Mask) (l : Nat) : l ∈ m.list ↔ l < 32 ∧ m.has l = true := by
  simp [Mask.list, lanes32]

theorem mask_none_iff (m : Mask) : m.none = true ↔ ∀ l, l < 32 → m.has l = false := by
  constructor
  · intro h l _
    have : m = 0 := by simpa [Mask.none] using h
    simp [this, Mask.has]
  · intro h
    have : m = 0 := by
      apply BitVec.eq_of_getLsbD_eq
      intro i hi
      simpa [Mask.has] using h i hi
    simp [Mask.none, this]

/-! ## Lists -/

section
variable {α β : Type}

theorem length_mapFrom (i : Nat) (f : Nat → α → β) (l : List α) : (mapFrom i f l).length = l.length := by
  induction l generalizing i with
  | nil => rfl
  | cons a l ih => simp [mapFrom, ih]

theorem getElem?_mapFrom (i : Nat) (f : Nat → α → β) (l : List α) (k : Nat) : (mapFrom i f l)[k]? = (l[k]?).map (f (i + k)) := by
  induction l generalizing i k with
  | nil => simp [mapFrom]
  | cons a l ih =>
    cases k with
    | zero => simp [mapFrom]
    | succ k =>
      simp only [mapFrom, List.getElem?_cons_succ, ih]
      rw [show i + 1 + k = i + (k + 1) by omega]

theorem length_modNth (n : Nat) (f : α → α) (l : List α) : (modNth n f l).length = l.length := by
  induction l generalizing n with
  | nil => cases n <;> rfl
  | cons a l ih => cases n <;> simp [modNth, ih]

theorem getElem?_modNth (n : Nat) (f : α → α) (l : List α) (k : Nat) :
    (modNth n f l)[k]? = if k = n then (l[k]?).map f else l[k]? := by
  induction l generalizing n k with
  | nil => cases n <;> simp [modNth]
  | cons a l ih =>
    cases n with
    | zero => cases k <;> simp [modNth]
    | succ n =>
      cases k with
      | zero => simp [modNth]
      | succ k =>
        simp only [modNth, List.getElem?_cons_succ, ih]
        simp

theorem find?_modWhere_same (l : List Block) (k : Nat) (f : Block → Block) (h : ∀ b, (f b).key = b.key) :
    (modWhere (fun b => decide (b.key = k)) f l).find? (fun b => decide (b.key = k)) = (l.find? fun b => decide (b.key = k)).map f := by
  unfold modWhere
  induction l with
  | nil => rfl
  | cons b l ih =>
    rw [List.map_cons, List.find?_cons, List.find?_cons, ih]
    by_cases hb : b.key = k
    · simp [hb, h]
    · simp [hb]

theorem find?_modWhere_other (l : List Block) {k j : Nat} (f : Block → Block) (h : ∀ b, (f b).key = b.key) (hj : j ≠ k) :
    (modWhere (fun b => decide (b.key = k)) f l).find? (fun b => decide (b.key = j)) = l.find? fun b => decide (b.key = j) := by
  unfold modWhere
  induction l with
  | nil => rfl
  | cons b l ih =>
    rw [List.map_cons, List.find?_cons, List.find?_cons, ih]
    have hkj : ¬ k = j := fun e => hj e.symm
    by_cases hb : b.key = k
    · simp [hb, h, hkj]
    · simp [hb]

end

/-! ## Reads after updates of blocks, warps and lanes -/

theorem State.block?_modBlock_same (s : State) (k : Nat) (f : Block → Block) (h : ∀ b, (f b).key = b.key) :
    (s.modBlock k f).block? k = (s.block? k).map f := find?_modWhere_same s.blocks k f h

theorem State.block?_modBlock_other (s : State) {k j : Nat} (f : Block → Block) (h : ∀ b, (f b).key = b.key) (hj : j ≠ k) :
    (s.modBlock k f).block? j = s.block? j := find?_modWhere_other s.blocks f h hj

theorem State.block?_modWarp_same (s : State) (k w : Nat) (f : Warp → Warp) :
    (s.modWarp k w f).block? k = (s.block? k).map fun b => b.modWarp w f := s.block?_modBlock_same k _ fun _ => rfl

theorem State.block?_modWarp_other (s : State) {k j : Nat} (w : Nat) (f : Warp → Warp) (hj : j ≠ k) :
    (s.modWarp k w f).block? j = s.block? j := s.block?_modBlock_other _ (fun _ => rfl) hj

theorem Block.warp_modWarp_same (b : Block) (w : Nat) (f : Warp → Warp) (h : w < b.warps.length) : (b.modWarp w f).warp w = f (b.warp w) := by
  simp [Block.warp, Block.modWarp, List.getD_eq_getElem?_getD, getElem?_modNth, h]

theorem Block.warp_modWarp_other (b : Block) {w v : Nat} (f : Warp → Warp) (h : v ≠ w) : (b.modWarp w f).warp v = b.warp v := by
  simp [Block.warp, Block.modWarp, List.getD_eq_getElem?_getD, getElem?_modNth, h]

/-- The executing warp after an update of it. -/
theorem State.warp_modWarp_same (s : State) (k w : Nat) (f : Warp → Warp) {b : Block} (hb : s.block? k = some b) (h : w < b.warps.length) :
    (s.modWarp k w f).warp k w = f (s.warp k w) := by
  simp [State.warp, State.block?_modWarp_same, hb, Block.warp_modWarp_same b w f h]

theorem State.warp_modWarp_other (s : State) {k j w v : Nat} (f : Warp → Warp) (h : j ≠ k ∨ v ≠ w) : (s.modWarp k w f).warp j v = s.warp j v := by
  unfold State.warp
  by_cases hj : j = k
  · subst hj
    rw [State.block?_modWarp_same]
    cases s.block? j with
    | none => rfl
    | some b => exact Block.warp_modWarp_other b f (by omega)
  · rw [State.block?_modWarp_other s w f hj]

theorem Warp.lane_modMask (w : Warp) (m : Mask) (f : Nat → Lane → Lane) (l : Nat) (h : l < w.lanes.length) :
    (w.modMask m f).lane l = if m.has l then f l (w.lane l) else w.lane l := by
  simp only [Warp.lane, Warp.modMask, List.getD_eq_getElem?_getD, getElem?_mapFrom]
  rw [List.getElem?_eq_getElem h]
  simp

/-- A lane of the executing warp after an update of the lanes of a mask. -/
theorem State.lane_modMask (s : State) (k w : Nat) (m : Mask) (f : Nat → Lane → Lane) {b : Block} (hb : s.block? k = some b)
    (hw : w < b.warps.length) (l : Nat) (hl : l < (b.warp w).lanes.length) :
    ((s.modMask k w m f).warp k w).lane l = if m.has l then f l ((s.warp k w).lane l) else (s.warp k w).lane l := by
  unfold State.modMask
  rw [State.warp_modWarp_same s k w _ hb hw]
  have : s.warp k w = b.warp w := by simp [State.warp, hb]
  rw [this]
  exact Warp.lane_modMask _ m f l hl

theorem State.ctx_modCtx_same (s : State) (c : Nat) (f : Ctx → Ctx) : (s.modCtx c f).ctx c = f (s.ctx c) := tgetD_tmod_same _ _ _ _
theorem State.ctx_modCtx_other (s : State) {c d : Nat} (f : Ctx → Ctx) (h : d ≠ c) : (s.modCtx c f).ctx d = s.ctx d := tgetD_tmod_other _ _ _ h
theorem State.core_modCore_same (s : State) (n : Nat) (f : Core → Core) : (s.modCore n f).core n = f (s.core n) := tgetD_tmod_same _ _ _ _
theorem State.queue_modQueue_same (s : State) (q : Nat) (f : WQueue → WQueue) : (s.modQueue q f).queue q = f (s.queue q) := tgetD_tmod_same _ _ _ _

/-! ## The executing warp -/

/-- What `cx?` says of the state it is read from. -/
theorem State.cx?_spec (s : State) {c : Cx} (h : s.cx? = some c) :
    s.cur = some (c.bk, c.wi) ∧ s.block? c.bk = some c.b ∧ c.wi < c.b.warps.length ∧ c.b.warp c.wi = c.w ∧ c.w.flight = some c.fl := by
  unfold State.cx? at h
  split at h
  · simp at h
  · rename_i bk wi hcur
    split at h
    · simp at h
    · rename_i b hb
      split at h
      · simp at h
      · rename_i w hw
        split at h
        · simp at h
        · rename_i fl hfl
          injection h with h
          subst h
          have hlt : wi < b.warps.length := by
            by_contra hn
            rw [List.getElem?_eq_none (by omega)] at hw
            simp at hw
          refine ⟨hcur, hb, hlt, ?_, hfl⟩
          simp [Block.warp, List.getD_eq_getElem?_getD, hw]

theorem State.withCx_of (s : State) (f : Cx → State) {c : Cx} (h : s.cx? = some c) : s.withCx f = .next (f c) := by
  simp [State.withCx, h]

end Sys2Proof.Machine
end

