-- ==== Sys2Proof/Laws/KeepsBase.lean ====
section
/-! SUPPORT. What no operation of the machine may do. `Keeps s t`: from `s` to `t` memory stays in its canonical form, the step
counter stands still, and the registers that only the host and bring-up change are as they were. One lemma per operation. -/

set_option linter.unusedTactic false
set_option linter.unreachableTactic false

namespace Sys2Proof.Machine

/-- The registers that only the host and bring-up change: the live configuration, the partition map, bring-up's stage, the peer
table, the NVMe entries (R326). -/
def State.hostRegs (s : State) : List Nat × Tab (BitVec 8) × BitVec 4 × BitVec 2 × Tab (BitVec 512) × Tab (BitVec 128) :=
  (s.wh.live, s.wh.partmap, s.wh.stage, s.wh.ready, s.nvme, s.peers)

structure Keeps (s t : State) : Prop where
  mem : s.mem.wf = true → t.mem.wf = true
  tick : t.tick = s.tick
  host : t.hostRegs = s.hostRegs

/-- The same of an outcome: of the next state, if there is one. -/
def OKeeps (s : State) (o : Host.Outcome State Fault Refusal) : Prop := ∀ t, o = .next t → Keeps s t

theorem Keeps.refl (s : State) : Keeps s s := ⟨id, rfl, rfl⟩

theorem Keeps.trans {s t u : State} (h : Keeps s t) (g : Keeps t u) : Keeps s u :=
  ⟨fun w => g.mem (h.mem w), g.tick.trans h.tick, g.host.trans h.host⟩

/-- A record update that leaves those fields as they were. -/
theorem Keeps.ofMk {s t : State} {tick : Nat} {inputs : List Move} {cur : Option (Nat × Nat)} {cycle : Nat} {wallU : Nat}
    {mem : Memory} {memPoison l2Poison : List Nat} {dir : Tab Dir} {hlines : List HLine} {tlrc : List TlrCopy} {tlrMoves : List TlrMove}
    {tlrUndef : Tab Undef} {frames : Tab (List FrameUse)} {aliased : List Nat} {spoiled : List Spoiled} {lostLines : List Nat}
    {hostRead : Option ReadReply} {nextKey : Nat} {wh : Wellhead} {places : Tab Place} {nvme : Tab (BitVec 512)}
    {peers : Tab (BitVec 128)} {queues : Tab WQueue} {ctxs : Tab Ctx} {grids : List Grid} {cores : Tab Core} {blocks : List Block}
    {recordings : List Recording} {robjs : List RObj} {rturn : Tab Nat} {reseeds : List Reseed}
    {livetab : List LiveEntry} (hm : t.mem = mem) (ht : t.tick = tick)
    (hl : t.wh.live = wh.live) (hp : t.wh.partmap = wh.partmap) (hs : t.wh.stage = wh.stage) (hr : t.wh.ready = wh.ready)
    (hn : t.nvme = nvme) (hpe : t.peers = peers) (h : Keeps s t) :
    Keeps s (State.mk tick inputs cur cycle wallU mem memPoison l2Poison dir hlines tlrc tlrMoves tlrUndef frames aliased spoiled lostLines hostRead nextKey wh places nvme peers queues ctxs grids cores blocks recordings robjs rturn reseeds livetab) := by
  subst hm ht hn hpe
  exact ⟨h.mem, h.tick, (by simp only [State.hostRegs, hl, hp, hs, hr] : State.hostRegs _ = t.hostRegs).trans h.host⟩

theorem Keeps.memSet {s t u : State} (hm : t.mem.wf = true → u.mem.wf = true) (ht : u.tick = t.tick) (hh : u.hostRegs = t.hostRegs)
    (h : Keeps s t) : Keeps s u := ⟨fun w => hm (h.mem w), ht.trans h.tick, hh.trans h.host⟩

theorem foldl_keeps {α : Type} {s : State} {f : State → α → State} {l : List α} {t : State}
    (hf : ∀ u x, Keeps s u → Keeps s (f u x)) (h : Keeps s t) : Keeps s (l.foldl f t) := by
  induction l generalizing t with
  | nil => exact h
  | cons x l ih => exact ih (hf t x h)

theorem foldl_keeps1 {α β : Type} {s : State} {f : State × β → α → State × β} {l : List α} {p : State × β}
    (hf : ∀ u x, Keeps s u.1 → Keeps s (f u x).1) (h : Keeps s p.1) : Keeps s (l.foldl f p).1 := by
  induction l generalizing p with
  | nil => exact h
  | cons x l ih => exact ih (hf p x h)

theorem forN_keeps {s : State} {n : Nat} {f : Nat → State → State} {t : State}
    (hf : ∀ u i, Keeps s u → Keeps s (f i u)) (h : Keeps s t) : Keeps s (forN n f t) := foldl_keeps (fun u i hu => hf u i hu) h

theorem Keeps.fst {β : Type} {s t : State} {p : State × β} {y : β} (e : p = (t, y)) (h : Keeps s p.1) : Keeps s t := by
  rw [e] at h
  exact h

theorem OKeeps.next {s t : State} (h : Keeps s t) : OKeeps s (.next t) := fun u e => by cases e; exact h

theorem State.withCx_keeps {s0 : State} (s : State) (f : Cx → State) (h : ∀ c, Keeps s0 (f c)) : OKeeps s0 (s.withCx f) := by
  unfold State.withCx
  split
  · intro t e; cases e
  · exact OKeeps.next (h _)

theorem iter_keeps {s : State} {n : Nat} {f : State → State} {t : State} (hf : ∀ u, Keeps s u → Keeps s (f u)) (h : Keeps s t) :
    Keeps s (iter n f t) := by
  induction n generalizing t with
  | zero => exact h
  | succ n ih => exact ih (hf t h)

/-- What even a reset, bring-up and a register write keep: memory's canonical form and the step counter. -/
structure MKeeps (s t : State) : Prop where
  mem : s.mem.wf = true → t.mem.wf = true
  tick : t.tick = s.tick

def OMKeeps (s : State) (o : Host.Outcome State Fault Refusal) : Prop := ∀ t, o = .next t → MKeeps s t

theorem MKeeps.refl (s : State) : MKeeps s s := ⟨id, rfl⟩
theorem MKeeps.trans {s t u : State} (h : MKeeps s t) (g : MKeeps t u) : MKeeps s u := ⟨fun w => g.mem (h.mem w), g.tick.trans h.tick⟩
theorem Keeps.toM {s t : State} (h : Keeps s t) : MKeeps s t := ⟨h.mem, h.tick⟩
theorem MKeeps.andThen {s t u : State} (h : MKeeps s t) (g : Keeps t u) : MKeeps s u := h.trans g.toM
theorem OKeeps.toM {s : State} {o : Host.Outcome State Fault Refusal} (h : OKeeps s o) : OMKeeps s o := fun t e => (h t e).toM
theorem OMKeeps.next {s t : State} (h : MKeeps s t) : OMKeeps s (.next t) := fun u e => by cases e; exact h
theorem MKeeps.same {s t u : State} (hm : u.mem = t.mem) (ht : u.tick = t.tick) (h : MKeeps s t) : MKeeps s u :=
  ⟨fun w => hm ▸ h.mem w, ht.trans h.tick⟩
theorem foldl_mkeeps {α : Type} {s : State} {f : State → α → State} {l : List α} {t : State}
    (hf : ∀ u x, MKeeps s u → MKeeps s (f u x)) (h : MKeeps s t) : MKeeps s (l.foldl f t) := by
  induction l generalizing t with
  | nil => exact h
  | cons x l ih => exact ih (hf t x h)

theorem State.modBlock_keeps {s0 : State} (s : State) (k : Nat) (f : Block → Block) (h0 : Keeps s0 s) : Keeps s0 (State.modBlock s k f) := by
  unfold State.modBlock
  try dsimp only
  repeat (first | with_reducible (first | assumption | refine Keeps.fst (by assumption) ?_ | apply OKeeps.next | apply foldl_keeps | apply foldl_keeps1 | apply forN_keeps | apply iter_keeps) | split | (intro _ _ _; try dsimp only) | (intro _ _; try dsimp only) | (intro _; try dsimp only) | fail_if_no_progress (refine Keeps.ofMk rfl rfl rfl rfl rfl rfl rfl rfl ?_))

theorem State.modWarp_keeps {s0 : State} (s : State) (k w : Nat) (f : Warp → Warp) (h0 : Keeps s0 s) : Keeps s0 (State.modWarp s k w f) := by
  unfold State.modWarp
  try dsimp only
  repeat (first | with_reducible (first | assumption | refine Keeps.fst (by assumption) ?_ | apply OKeeps.next | apply State.modBlock_keeps | apply foldl_keeps | apply foldl_keeps1 | apply forN_keeps | apply iter_keeps) | split | (intro _ _ _; try dsimp only) | (intro _ _; try dsimp only) | (intro _; try dsimp only) | fail_if_no_progress (refine Keeps.ofMk rfl rfl rfl rfl rfl rfl rfl rfl ?_))

theorem State.modMask_keeps {s0 : State} (s : State) (k w : Nat) (m : Mask) (f : Nat → Lane → Lane) (h0 : Keeps s0 s) : Keeps s0 (State.modMask s k w m f) := by
  unfold State.modMask
  try dsimp only
  repeat (first | with_reducible (first | assumption | refine Keeps.fst (by assumption) ?_ | apply OKeeps.next | apply State.modWarp_keeps | apply foldl_keeps | apply foldl_keeps1 | apply forN_keeps | apply iter_keeps) | split | (intro _ _ _; try dsimp only) | (intro _ _; try dsimp only) | (intro _; try dsimp only) | fail_if_no_progress (refine Keeps.ofMk rfl rfl rfl rfl rfl rfl rfl rfl ?_))

theorem State.modCtx_keeps {s0 : State} (s : State) (c : Nat) (f : Ctx → Ctx) (h0 : Keeps s0 s) : Keeps s0 (State.modCtx s c f) := by
  unfold State.modCtx
  try dsimp only
  repeat (first | with_reducible (first | assumption | refine Keeps.fst (by assumption) ?_ | apply OKeeps.next | apply foldl_keeps | apply foldl_keeps1 | apply forN_keeps | apply iter_keeps) | split | (intro _ _ _; try dsimp only) | (intro _ _; try dsimp only) | (intro _; try dsimp only) | fail_if_no_progress (refine Keeps.ofMk rfl rfl rfl rfl rfl rfl rfl rfl ?_))

theorem State.modCore_keeps {s0 : State} (s : State) (n : Nat) (f : Core → Core) (h0 : Keeps s0 s) : Keeps s0 (State.modCore s n f) := by
  unfold State.modCore
  try dsimp only
  repeat (first | with_reducible (first | assumption | refine Keeps.fst (by assumption) ?_ | apply OKeeps.next | apply foldl_keeps | apply foldl_keeps1 | apply forN_keeps | apply iter_keeps) | split | (intro _ _ _; try dsimp only) | (intro _ _; try dsimp only) | (intro _; try dsimp only) | fail_if_no_progress (refine Keeps.ofMk rfl rfl rfl rfl rfl rfl rfl rfl ?_))

theorem State.modQueue_keeps {s0 : State} (s : State) (q : Nat) (f : WQueue → WQueue) (h0 : Keeps s0 s) : Keeps s0 (State.modQueue s q f) := by
  unfold State.modQueue
  try dsimp only
  repeat (first | with_reducible (first | assumption | refine Keeps.fst (by assumption) ?_ | apply OKeeps.next | apply foldl_keeps | apply foldl_keeps1 | apply forN_keeps | apply iter_keeps) | split | (intro _ _ _; try dsimp only) | (intro _ _; try dsimp only) | (intro _; try dsimp only) | fail_if_no_progress (refine Keeps.ofMk rfl rfl rfl rfl rfl rfl rfl rfl ?_))

theorem State.modWh_keeps {s0 : State} (s : State) (f : Wellhead → Wellhead) (hl : (f s.wh).live = s.wh.live)
    (hp : (f s.wh).partmap = s.wh.partmap) (hs : (f s.wh).stage = s.wh.stage) (hr : (f s.wh).ready = s.wh.ready) (h0 : Keeps s0 s) :
    Keeps s0 (s.modWh f) := by
  unfold State.modWh
  exact Keeps.ofMk rfl rfl hl.symm hp.symm hs.symm hr.symm rfl rfl h0

theorem State.bump_keeps {s0 : State} (s : State) (h0 : Keeps s0 s) : Keeps s0 (State.bump s) := by
  unfold State.bump
  try dsimp only
  repeat (first | with_reducible (first | assumption | refine Keeps.fst (by assumption) ?_ | apply OKeeps.next | apply foldl_keeps | apply foldl_keeps1 | apply forN_keeps | apply iter_keeps) | split | (intro _ _ _; try dsimp only) | (intro _ _; try dsimp only) | (intro _; try dsimp only) | fail_if_no_progress (refine Keeps.ofMk rfl rfl rfl rfl rfl rfl rfl rfl ?_))

theorem State.modFlight_keeps {s0 : State} (s : State) (k w : Nat) (f : InFlight → InFlight) (h0 : Keeps s0 s) : Keeps s0 (State.modFlight s k w f) := by
  unfold State.modFlight
  try dsimp only
  repeat (first | with_reducible (first | assumption | refine Keeps.fst (by assumption) ?_ | apply OKeeps.next | apply State.modWarp_keeps | apply foldl_keeps | apply foldl_keeps1 | apply forN_keeps | apply iter_keeps) | split | (intro _ _ _; try dsimp only) | (intro _ _; try dsimp only) | (intro _; try dsimp only) | fail_if_no_progress (refine Keeps.ofMk rfl rfl rfl rfl rfl rfl rfl rfl ?_))

theorem State.leave_keeps {s0 : State} (s : State) (c : Cx) (m : Mask) (h0 : Keeps s0 s) : Keeps s0 (State.leave s c m) := by
  unfold State.leave
  try dsimp only
  repeat (first | with_reducible (first | assumption | refine Keeps.fst (by assumption) ?_ | apply OKeeps.next | apply State.modFlight_keeps | apply foldl_keeps | apply foldl_keeps1 | apply forN_keeps | apply iter_keeps) | split | (intro _ _ _; try dsimp only) | (intro _ _; try dsimp only) | (intro _; try dsimp only) | fail_if_no_progress (refine Keeps.ofMk rfl rfl rfl rfl rfl rfl rfl rfl ?_))

theorem State.startWait_keeps {s0 : State} (s : State) (c : Cx) (m : Mask) (wt : Wait) (h0 : Keeps s0 s) : Keeps s0 (State.startWait s c m wt) := by
  unfold State.startWait
  try dsimp only
  repeat (first | with_reducible (first | assumption | refine Keeps.fst (by assumption) ?_ | apply OKeeps.next | apply State.leave_keeps | apply State.modMask_keeps | apply State.resume_keeps | apply foldl_keeps | apply foldl_keeps1 | apply forN_keeps | apply iter_keeps) | split | (intro _ _ _; try dsimp only) | (intro _ _; try dsimp only) | (intro _; try dsimp only) | fail_if_no_progress (refine Keeps.ofMk rfl rfl rfl rfl rfl rfl rfl rfl ?_))

theorem State.log_keeps {s0 : State} (s : State) (bk : Nat) (e : LogEntry) (h0 : Keeps s0 s) : Keeps s0 (State.log s bk e) := by
  unfold State.log
  try dsimp only
  repeat (first | with_reducible (first | assumption | refine Keeps.fst (by assumption) ?_ | apply OKeeps.next | apply foldl_keeps | apply foldl_keeps1 | apply forN_keeps | apply iter_keeps) | split | (intro _ _ _; try dsimp only) | (intro _ _; try dsimp only) | (intro _; try dsimp only) | fail_if_no_progress (refine Keeps.ofMk rfl rfl rfl rfl rfl rfl rfl rfl ?_))

theorem State.modNow_keeps {s0 : State} (s : State) (k : Nat) (f : Block → Block) (h0 : Keeps s0 s) : Keeps s0 (State.modNow s k f) := by
  unfold State.modNow
  try dsimp only
  repeat (first | with_reducible (first | assumption | refine Keeps.fst (by assumption) ?_ | apply OKeeps.next | apply State.modBlock_keeps | apply foldl_keeps | apply foldl_keeps1 | apply forN_keeps | apply iter_keeps) | split | (intro _ _ _; try dsimp only) | (intro _ _; try dsimp only) | (intro _; try dsimp only) | fail_if_no_progress (refine Keeps.ofMk rfl rfl rfl rfl rfl rfl rfl rfl ?_))

theorem State.takeLog_keeps_eq {s0 s : State} {bk : Nat} {f : List LogEntry → Option (LogEntry × List LogEntry)} {y : LogEntry} {u : State}
    (e : s.takeLog bk f = some (y, u)) (h0 : Keeps s0 s) : Keeps s0 u := by
  unfold State.takeLog at e
  split at e
  · obtain ⟨q, -, hq⟩ := Option.map_eq_some_iff.mp e
    injection hq with _ e2
    subst e2
    exact Keeps.memSet (t := s) id rfl rfl h0
  · cases e

theorem State.logged_keeps_eq {s0 s : State} {bk : Nat} {p : LogEntry → Bool} {y : LogEntry} {u : State} (e : s.logged bk p = some (y, u))
    (h0 : Keeps s0 s) : Keeps s0 u := State.takeLog_keeps_eq e h0

theorem State.loggedLate_keeps_eq {s0 s : State} {bk : Nat} {p : LogEntry → Bool} {y : LogEntry} {u : State} (e : s.loggedLate bk p = some (y, u))
    (h0 : Keeps s0 s) : Keeps s0 u := State.takeLog_keeps_eq e h0

theorem State.logWait_keeps {s0 : State} (s : State) (c : Cx) (h0 : Keeps s0 s) : Keeps s0 (State.logWait s c) := by
  unfold State.logWait
  try dsimp only
  repeat (first | with_reducible (first | assumption | refine Keeps.fst (by assumption) ?_ | apply OKeeps.next | apply State.log_keeps | apply foldl_keeps | apply foldl_keeps1 | apply forN_keeps | apply iter_keeps) | split | (intro _ _ _; try dsimp only) | (intro _ _; try dsimp only) | (intro _; try dsimp only) | fail_if_no_progress (refine Keeps.ofMk rfl rfl rfl rfl rfl rfl rfl rfl ?_))

theorem State.waitLogged_keeps_eq {s0 s : State} {c : Cx} {u : State} (e : s.waitLogged c = some u) (h0 : Keeps s0 s) : Keeps s0 u := by
  unfold State.waitLogged at e
  cases hq : s.logged c.bk (fun e => e == .wait c.wi c.w.wcnt) with
  | none => rw [hq] at e; cases e
  | some q =>
    rw [hq] at e
    injection e with e
    subst e
    exact State.logged_keeps_eq (y := q.1) (u := q.2) hq h0

theorem State.poison_keeps {s0 : State} (s : State) (key : Nat) (h0 : Keeps s0 s) : Keeps s0 (State.poison s key) := by
  unfold State.poison
  try dsimp only
  repeat (first | with_reducible (first | assumption | refine Keeps.fst (by assumption) ?_ | apply OKeeps.next | apply foldl_keeps | apply foldl_keeps1 | apply forN_keeps | apply iter_keeps) | split | (intro _ _ _; try dsimp only) | (intro _ _; try dsimp only) | (intro _; try dsimp only) | fail_if_no_progress (refine Keeps.ofMk rfl rfl rfl rfl rfl rfl rfl rfl ?_))

theorem State.unpoison_keeps {s0 : State} (s : State) (key : Nat) (h0 : Keeps s0 s) : Keeps s0 (State.unpoison s key) := by
  unfold State.unpoison
  try dsimp only
  repeat (first | with_reducible (first | assumption | refine Keeps.fst (by assumption) ?_ | apply OKeeps.next | apply foldl_keeps | apply foldl_keeps1 | apply forN_keeps | apply iter_keeps) | split | (intro _ _ _; try dsimp only) | (intro _ _; try dsimp only) | (intro _; try dsimp only) | fail_if_no_progress (refine Keeps.ofMk rfl rfl rfl rfl rfl rfl rfl rfl ?_))

theorem State.setDir_keeps {s0 : State} (s : State) (line : Nat) (x : Dir) (h0 : Keeps s0 s) : Keeps s0 (State.setDir s line x) := by
  unfold State.setDir
  try dsimp only
  repeat (first | with_reducible (first | assumption | refine Keeps.fst (by assumption) ?_ | apply OKeeps.next | apply foldl_keeps | apply foldl_keeps1 | apply forN_keeps | apply iter_keeps) | split | (intro _ _ _; try dsimp only) | (intro _ _; try dsimp only) | (intro _; try dsimp only) | fail_if_no_progress (refine Keeps.ofMk rfl rfl rfl rfl rfl rfl rfl rfl ?_))

theorem State.bringPois_keeps {s0 : State} (s : State) (die line : Nat) (h0 : Keeps s0 s) : Keeps s0 (State.bringPois s die line) := by
  unfold State.bringPois
  try dsimp only
  repeat (first | with_reducible (first | assumption | refine Keeps.fst (by assumption) ?_ | apply OKeeps.next | apply foldl_keeps | apply foldl_keeps1 | apply forN_keeps | apply iter_keeps) | split | (intro _ _ _; try dsimp only) | (intro _ _; try dsimp only) | (intro _; try dsimp only) | fail_if_no_progress (refine Keeps.ofMk rfl rfl rfl rfl rfl rfl rfl rfl ?_))

theorem State.poisHome_keeps {s0 : State} (s : State) (die line : Nat) (h0 : Keeps s0 s) : Keeps s0 (State.poisHome s die line) := by
  unfold State.poisHome
  try dsimp only
  repeat (first | with_reducible (first | assumption | refine Keeps.fst (by assumption) ?_ | apply OKeeps.next | apply State.poison_keeps | apply State.unpoison_keeps | apply foldl_keeps | apply foldl_keeps1 | apply forN_keeps | apply iter_keeps) | split | (intro _ _ _; try dsimp only) | (intro _ _; try dsimp only) | (intro _; try dsimp only) | fail_if_no_progress (refine Keeps.ofMk rfl rfl rfl rfl rfl rfl rfl rfl ?_))

theorem State.ownerHome_keeps {s0 : State} (s : State) (line : Nat) (h0 : Keeps s0 s) : Keeps s0 (State.ownerHome s line) := by
  unfold State.ownerHome
  try dsimp only
  repeat (first | with_reducible (first | assumption | refine Keeps.fst (by assumption) ?_ | apply OKeeps.next | apply State.poisHome_keeps | apply foldl_keeps | apply foldl_keeps1 | apply forN_keeps | apply iter_keeps) | split | (intro _ _ _; try dsimp only) | (intro _ _; try dsimp only) | (intro _; try dsimp only) | fail_if_no_progress (refine Keeps.ofMk rfl rfl rfl rfl rfl rfl rfl rfl ?_))

theorem State.dropPois_keeps {s0 : State} (s : State) (line : Nat) (p : Nat → Bool) (h0 : Keeps s0 s) : Keeps s0 (State.dropPois s line p) := by
  unfold State.dropPois
  try dsimp only
  repeat (first | with_reducible (first | assumption | refine Keeps.fst (by assumption) ?_ | apply OKeeps.next | apply foldl_keeps | apply foldl_keeps1 | apply forN_keeps | apply iter_keeps) | split | (intro _ _ _; try dsimp only) | (intro _ _; try dsimp only) | (intro _; try dsimp only) | fail_if_no_progress (refine Keeps.ofMk rfl rfl rfl rfl rfl rfl rfl rfl ?_))

theorem writeHLines_wf (hs : List HLine) (m : Memory) (w : m.wf = true) : (hs.foldl writeHLine m).wf = true := by
  induction hs generalizing m with
  | nil => exact w
  | cons h hs ih =>
    refine ih _ ?_
    unfold writeHLine
    generalize h.dirty = d
    induction d generalizing m with
    | nil => exact w
    | cons i d ih2 => exact ih2 _ (Memory.wf_write m _ _ w)

theorem State.writeBack_keeps {s0 : State} (s : State) (hs : List HLine) (h0 : Keeps s0 s) : Keeps s0 (s.writeBack hs) :=
  Keeps.memSet (t := s) (fun w => writeHLines_wf _ _ w) rfl rfl h0

theorem State.dropHLines_keeps {s0 : State} (s : State) (p : HLine → Bool) (h0 : Keeps s0 s) : Keeps s0 (s.dropHLines p) :=
  Keeps.memSet (t := s) (fun w => writeHLines_wf _ _ w) rfl rfl h0

theorem State.cleanHLines_keeps {s0 : State} (s : State) (p : HLine → Bool) (h0 : Keeps s0 s) : Keeps s0 (s.cleanHLines p) :=
  Keeps.memSet (t := s) (fun w => writeHLines_wf _ _ w) rfl rfl h0

theorem State.l2Evict_keeps {s0 : State} (s : State) (die line : Nat) (h0 : Keeps s0 s) : Keeps s0 (State.l2Evict s die line) := by
  unfold State.l2Evict
  try dsimp only
  repeat (first | with_reducible (first | assumption | refine Keeps.fst (by assumption) ?_ | apply OKeeps.next | apply State.dropHLines_keeps | apply State.dropPois_keeps | apply State.leave_keeps | apply State.ownerHome_keeps | apply State.setDir_keeps | apply foldl_keeps | apply foldl_keeps1 | apply forN_keeps | apply iter_keeps) | split | (intro _ _ _; try dsimp only) | (intro _ _; try dsimp only) | (intro _; try dsimp only) | fail_if_no_progress (refine Keeps.ofMk rfl rfl rfl rfl rfl rfl rfl rfl ?_))

theorem State.l2Room_keeps {s0 : State} (s : State) (die : Nat) (h0 : Keeps s0 s) : Keeps s0 (State.l2Room s die) := by
  unfold State.l2Room
  try dsimp only
  repeat (first | with_reducible (first | assumption | refine Keeps.fst (by assumption) ?_ | apply OKeeps.next | apply State.l2Evict_keeps | apply State.l2Lines_keeps | apply foldl_keeps | apply foldl_keeps1 | apply forN_keeps | apply iter_keeps) | split | (intro _ _ _; try dsimp only) | (intro _ _; try dsimp only) | (intro _; try dsimp only) | fail_if_no_progress (refine Keeps.ofMk rfl rfl rfl rfl rfl rfl rfl rfl ?_))

theorem State.l2Line_keeps {s0 : State} (s : State) (die key : Nat) (h0 : Keeps s0 s) : Keeps s0 (State.l2Line s die key) := by
  unfold State.l2Line
  try dsimp only
  repeat (first | with_reducible (first | assumption | refine Keeps.fst (by assumption) ?_ | apply OKeeps.next | apply State.bringPois_keeps | apply State.dropHLines_keeps | apply State.l2Room_keeps | apply State.setDir_keeps | apply foldl_keeps | apply foldl_keeps1 | apply forN_keeps | apply iter_keeps) | split | (intro _ _ _; try dsimp only) | (intro _ _; try dsimp only) | (intro _; try dsimp only) | fail_if_no_progress (refine Keeps.ofMk rfl rfl rfl rfl rfl rfl rfl rfl ?_))

theorem State.l2Lines_keeps {s0 : State} (s : State) (die key n : Nat) (h0 : Keeps s0 s) : Keeps s0 (State.l2Lines s die key n) := by
  unfold State.l2Lines
  try dsimp only
  repeat (first | with_reducible (first | assumption | refine Keeps.fst (by assumption) ?_ | apply OKeeps.next | apply State.l2Line_keeps | apply foldl_keeps | apply foldl_keeps1 | apply forN_keeps | apply iter_keeps) | split | (intro _ _ _; try dsimp only) | (intro _ _; try dsimp only) | (intro _; try dsimp only) | fail_if_no_progress (refine Keeps.ofMk rfl rfl rfl rfl rfl rfl rfl rfl ?_))

theorem State.putMem_keeps {s0 : State} (s : State) (a : Nat) (bs : List Byte) (h0 : Keeps s0 s) : Keeps s0 (s.putMem a bs) :=
  Keeps.memSet (t := s) (fun w => Memory.wf_writeN bs s.mem a w) rfl rfl h0

theorem State.noteWrite_keeps {s0 : State} (s : State) (key : Nat) (h0 : Keeps s0 s) : Keeps s0 (State.noteWrite s key) := by
  unfold State.noteWrite
  try dsimp only
  repeat (first | with_reducible (first | assumption | refine Keeps.fst (by assumption) ?_ | apply OKeeps.next | apply foldl_keeps | apply foldl_keeps1 | apply forN_keeps | apply iter_keeps) | split | (intro _ _ _; try dsimp only) | (intro _ _; try dsimp only) | (intro _; try dsimp only) | fail_if_no_progress (refine Keeps.ofMk rfl rfl rfl rfl rfl rfl rfl rfl ?_))

theorem State.putHome_keeps {s0 : State} (s : State) (key : Nat) (bs : List Byte) (h0 : Keeps s0 s) : Keeps s0 (State.putHome s key bs) := by
  unfold State.putHome
  try dsimp only
  repeat (first | with_reducible (first | assumption | refine Keeps.fst (by assumption) ?_ | apply OKeeps.next | apply State.noteWrite_keeps | apply State.putMem_keeps | apply foldl_keeps | apply foldl_keeps1 | apply forN_keeps | apply iter_keeps) | split | (intro _ _ _; try dsimp only) | (intro _ _; try dsimp only) | (intro _; try dsimp only) | fail_if_no_progress (refine Keeps.ofMk rfl rfl rfl rfl rfl rfl rfl rfl ?_))

theorem State.l2Put_keeps {s0 : State} (s : State) (die key : Nat) (b : Byte) (h0 : Keeps s0 s) : Keeps s0 (s.l2Put die key b) := by
  unfold State.l2Put
  split
  · exact h0
  · split
    · exact State.noteWrite_keeps _ _ (Keeps.memSet (t := s) id rfl rfl h0)
    · exact State.noteWrite_keeps _ _ (Keeps.memSet (t := s) (fun w => Memory.wf_write _ _ _ w) rfl rfl h0)

theorem State.own_keeps {s0 : State} (s : State) (die key : Nat) (h0 : Keeps s0 s) : Keeps s0 (State.own s die key) := by
  unfold State.own
  try dsimp only
  repeat (first | with_reducible (first | assumption | refine Keeps.fst (by assumption) ?_ | apply OKeeps.next | apply State.dropPois_keeps | apply State.setDir_keeps | apply foldl_keeps | apply foldl_keeps1 | apply forN_keeps | apply iter_keeps) | split | (intro _ _ _; try dsimp only) | (intro _ _; try dsimp only) | (intro _; try dsimp only) | fail_if_no_progress (refine Keeps.ofMk rfl rfl rfl rfl rfl rfl rfl rfl ?_))

theorem State.l2SetPois_keeps {s0 : State} (s : State) (die key : Nat) (p : Bool) (h0 : Keeps s0 s) : Keeps s0 (State.l2SetPois s die key p) := by
  unfold State.l2SetPois
  try dsimp only
  repeat (first | with_reducible (first | assumption | refine Keeps.fst (by assumption) ?_ | apply OKeeps.next | apply foldl_keeps | apply foldl_keeps1 | apply forN_keeps | apply iter_keeps) | split | (intro _ _ _; try dsimp only) | (intro _ _; try dsimp only) | (intro _; try dsimp only) | fail_if_no_progress (refine Keeps.ofMk rfl rfl rfl rfl rfl rfl rfl rfl ?_))

theorem State.l2WriteLine_keeps {s0 : State} (s : State) (die line : Nat) (bs : List (Nat × Byte × Bool)) (h0 : Keeps s0 s) : Keeps s0 (State.l2WriteLine s die line bs) := by
  unfold State.l2WriteLine
  try dsimp only
  repeat (first | with_reducible (first | assumption | refine Keeps.fst (by assumption) ?_ | apply OKeeps.next | apply State.l2Line_keeps | apply State.l2Put_keeps | apply State.l2SetPois_keeps | apply State.own_keeps | apply foldl_keeps | apply foldl_keeps1 | apply forN_keeps | apply iter_keeps) | split | (intro _ _ _; try dsimp only) | (intro _ _; try dsimp only) | (intro _; try dsimp only) | fail_if_no_progress (refine Keeps.ofMk rfl rfl rfl rfl rfl rfl rfl rfl ?_))

theorem State.l2Write_keeps {s0 : State} (s : State) (die : Nat) (bs : List (Nat × Byte × Bool)) (h0 : Keeps s0 s) : Keeps s0 (State.l2Write s die bs) := by
  unfold State.l2Write
  try dsimp only
  repeat (first | with_reducible (first | assumption | refine Keeps.fst (by assumption) ?_ | apply OKeeps.next | apply State.l2WriteLine_keeps | apply foldl_keeps | apply foldl_keeps1 | apply forN_keeps | apply iter_keeps) | split | (intro _ _ _; try dsimp only) | (intro _ _; try dsimp only) | (intro _; try dsimp only) | fail_if_no_progress (refine Keeps.ofMk rfl rfl rfl rfl rfl rfl rfl rfl ?_))

theorem State.l2WriteN_keeps {s0 : State} (s : State) (die key : Nat) (bs : List Byte) (h0 : Keeps s0 s) : Keeps s0 (State.l2WriteN s die key bs) := by
  unfold State.l2WriteN
  try dsimp only
  repeat (first | with_reducible (first | assumption | refine Keeps.fst (by assumption) ?_ | apply OKeeps.next | apply State.l2Write_keeps | apply foldl_keeps | apply foldl_keeps1 | apply forN_keeps | apply iter_keeps) | split | (intro _ _ _; try dsimp only) | (intro _ _; try dsimp only) | (intro _; try dsimp only) | fail_if_no_progress (refine Keeps.ofMk rfl rfl rfl rfl rfl rfl rfl rfl ?_))

theorem State.tlrCopy_keeps {s0 : State} (s : State) (c : Ctx) (idx : Nat) (h0 : Keeps s0 s) : Keeps s0 (State.tlrCopy s c idx).1 := by
  unfold State.tlrCopy
  try dsimp only
  repeat (first | with_reducible (first | assumption | refine Keeps.fst (by assumption) ?_ | apply OKeeps.next | apply foldl_keeps | apply foldl_keeps1 | apply forN_keeps | apply iter_keeps) | split | (intro _ _ _; try dsimp only) | (intro _ _; try dsimp only) | (intro _; try dsimp only) | fail_if_no_progress (refine Keeps.ofMk rfl rfl rfl rfl rfl rfl rfl rfl ?_))

theorem State.markMoved_keeps {s0 : State} (s : State) (c : Ctx) (idx va ppn home : Nat) (key : Nat) (h0 : Keeps s0 s) : Keeps s0 (State.markMoved s c idx va ppn home key) := by
  unfold State.markMoved
  try dsimp only
  repeat (first | with_reducible (first | assumption | refine Keeps.fst (by assumption) ?_ | apply OKeeps.next | apply foldl_keeps | apply foldl_keeps1 | apply forN_keeps | apply iter_keeps) | split | (intro _ _ _; try dsimp only) | (intro _ _; try dsimp only) | (intro _; try dsimp only) | fail_if_no_progress (refine Keeps.ofMk rfl rfl rfl rfl rfl rfl rfl rfl ?_))

theorem State.setFrame_keeps {s0 : State} (s : State) (page : Nat) (us : List FrameUse) (h0 : Keeps s0 s) : Keeps s0 (State.setFrame s page us) := by
  unfold State.setFrame
  try dsimp only
  repeat (first | with_reducible (first | assumption | refine Keeps.fst (by assumption) ?_ | apply OKeeps.next | apply foldl_keeps | apply foldl_keeps1 | apply forN_keeps | apply iter_keeps) | split | (intro _ _ _; try dsimp only) | (intro _ _; try dsimp only) | (intro _; try dsimp only) | fail_if_no_progress (refine Keeps.ofMk rfl rfl rfl rfl rfl rfl rfl rfl ?_))

theorem State.useFrame_keeps {s0 : State} (s : State) (u : FrameUse) (page : Nat) (h0 : Keeps s0 s) : Keeps s0 (State.useFrame s u page) := by
  unfold State.useFrame
  try dsimp only
  repeat (first | with_reducible (first | assumption | refine Keeps.fst (by assumption) ?_ | apply OKeeps.next | apply State.setFrame_keeps | apply foldl_keeps | apply foldl_keeps1 | apply forN_keeps | apply iter_keeps) | split | (intro _ _ _; try dsimp only) | (intro _ _; try dsimp only) | (intro _; try dsimp only) | fail_if_no_progress (refine Keeps.ofMk rfl rfl rfl rfl rfl rfl rfl rfl ?_))

theorem State.recheckFrames_keeps {s0 : State} (s : State) (h0 : Keeps s0 s) : Keeps s0 (State.recheckFrames s) := by
  unfold State.recheckFrames
  try dsimp only
  repeat (first | with_reducible (first | assumption | refine Keeps.fst (by assumption) ?_ | apply OKeeps.next | apply State.setFrame_keeps | apply foldl_keeps | apply foldl_keeps1 | apply forN_keeps | apply iter_keeps) | split | (intro _ _ _; try dsimp only) | (intro _ _; try dsimp only) | (intro _; try dsimp only) | fail_if_no_progress (refine Keeps.ofMk rfl rfl rfl rfl rfl rfl rfl rfl ?_))

theorem State.resolve_keeps {s0 : State} (s : State) (c : Ctx) (va : Nat) (h0 : Keeps s0 s) : Keeps s0 (State.resolve s c va).1 := by
  unfold State.resolve
  try dsimp only
  repeat (first | with_reducible (first | assumption | refine Keeps.fst (by assumption) ?_ | apply OKeeps.next | apply State.markMoved_keeps | apply State.tlrCopy_keeps | apply State.useFrame_keeps | apply foldl_keeps | apply foldl_keeps1 | apply forN_keeps | apply iter_keeps) | split | (intro _ _ _; try dsimp only) | (intro _ _; try dsimp only) | (intro _; try dsimp only) | fail_if_no_progress (refine Keeps.ofMk rfl rfl rfl rfl rfl rfl rfl rfl ?_))

theorem State.xlate_keeps {s0 : State} (s : State) (core c va : Nat) (h0 : Keeps s0 s) : Keeps s0 (State.xlate s core c va).1 := by
  unfold State.xlate
  try dsimp only
  repeat (first | with_reducible (first | assumption | refine Keeps.fst (by assumption) ?_ | apply OKeeps.next | apply State.modCore_keeps | apply State.resolve_keeps | apply foldl_keeps | apply foldl_keeps1 | apply forN_keeps | apply iter_keeps) | split | (intro _ _ _; try dsimp only) | (intro _ _; try dsimp only) | (intro _; try dsimp only) | fail_if_no_progress (refine Keeps.ofMk rfl rfl rfl rfl rfl rfl rfl rfl ?_))

theorem State.checkPage_keeps {s0 : State} (s : State) (core c va : Nat) (need : Need) (h0 : Keeps s0 s) : Keeps s0 (State.checkPage s core c va need).1 := by
  unfold State.checkPage
  try dsimp only
  repeat (first | with_reducible (first | assumption | refine Keeps.fst (by assumption) ?_ | apply OKeeps.next | apply State.xlate_keeps | apply foldl_keeps | apply foldl_keeps1 | apply forN_keeps | apply iter_keeps) | split | (intro _ _ _; try dsimp only) | (intro _ _; try dsimp only) | (intro _; try dsimp only) | fail_if_no_progress (refine Keeps.ofMk rfl rfl rfl rfl rfl rfl rfl rfl ?_))

theorem State.checkRange_keeps {s0 : State} (s : State) (core c va n : Nat) (need : Need) (h0 : Keeps s0 s) : Keeps s0 (State.checkRange s core c va n need).1 := by
  unfold State.checkRange
  try dsimp only
  repeat (first | with_reducible (first | assumption | refine Keeps.fst (by assumption) ?_ | apply OKeeps.next | apply State.checkPage_keeps | apply foldl_keeps | apply foldl_keeps1 | apply forN_keeps | apply iter_keeps) | split | (intro _ _ _; try dsimp only) | (intro _ _; try dsimp only) | (intro _; try dsimp only) | fail_if_no_progress (refine Keeps.ofMk rfl rfl rfl rfl rfl rfl rfl rfl ?_))

theorem State.devPage_keeps {s0 : State} (s : State) (c va : Nat) (need : Need) (h0 : Keeps s0 s) : Keeps s0 (State.devPage s c va need).1 := by
  unfold State.devPage
  try dsimp only
  repeat (first | with_reducible (first | assumption | refine Keeps.fst (by assumption) ?_ | apply OKeeps.next | apply State.resolve_keeps | apply foldl_keeps | apply foldl_keeps1 | apply forN_keeps | apply iter_keeps) | split | (intro _ _ _; try dsimp only) | (intro _ _; try dsimp only) | (intro _; try dsimp only) | fail_if_no_progress (refine Keeps.ofMk rfl rfl rfl rfl rfl rfl rfl rfl ?_))

theorem State.devRange_keeps {s0 : State} (s : State) (c va n : Nat) (need : Need) (h0 : Keeps s0 s) : Keeps s0 (State.devRange s c va n need).1 := by
  unfold State.devRange
  try dsimp only
  repeat (first | with_reducible (first | assumption | refine Keeps.fst (by assumption) ?_ | apply OKeeps.next | apply State.devPage_keeps | apply foldl_keeps | apply foldl_keeps1 | apply forN_keeps | apply iter_keeps) | split | (intro _ _ _; try dsimp only) | (intro _ _; try dsimp only) | (intro _; try dsimp only) | fail_if_no_progress (refine Keeps.ofMk rfl rfl rfl rfl rfl rfl rfl rfl ?_))

theorem State.spoil_keeps {s0 : State} (s : State) (c : Nat) (r : Area) (h0 : Keeps s0 s) : Keeps s0 (State.spoil s c r) := by
  unfold State.spoil
  try dsimp only
  repeat (first | with_reducible (first | assumption | refine Keeps.fst (by assumption) ?_ | apply OKeeps.next | apply foldl_keeps | apply foldl_keeps1 | apply forN_keeps | apply iter_keeps) | split | (intro _ _ _; try dsimp only) | (intro _ _; try dsimp only) | (intro _; try dsimp only) | fail_if_no_progress (refine Keeps.ofMk rfl rfl rfl rfl rfl rfl rfl rfl ?_))

theorem State.foreignStore_keeps {s0 : State} (s : State) (own : Option Nat) (ks : List Nat) (h0 : Keeps s0 s) : Keeps s0 (State.foreignStore s own ks) := by
  unfold State.foreignStore
  try dsimp only
  repeat (first | with_reducible (first | assumption | refine Keeps.fst (by assumption) ?_ | apply OKeeps.next | apply State.own_keeps | apply State.spoil_keeps | apply foldl_keeps | apply foldl_keeps1 | apply forN_keeps | apply iter_keeps) | split | (intro _ _ _; try dsimp only) | (intro _ _; try dsimp only) | (intro _; try dsimp only) | fail_if_no_progress (refine Keeps.ofMk rfl rfl rfl rfl rfl rfl rfl rfl ?_))

theorem State.devWriteBy_keeps {s0 : State} (s : State) (own : Option Nat) (c die va : Nat) (bs : List Byte) (h0 : Keeps s0 s) : Keeps s0 (State.devWriteBy s own c die va bs).1 := by
  unfold State.devWriteBy
  try dsimp only
  repeat (first | with_reducible (first | assumption | refine Keeps.fst (by assumption) ?_ | apply OKeeps.next | apply State.devRange_keeps | apply State.foreignStore_keeps | apply State.l2Write_keeps | apply State.own_keeps | apply foldl_keeps | apply foldl_keeps1 | apply forN_keeps | apply iter_keeps) | split | (intro _ _ _; try dsimp only) | (intro _ _; try dsimp only) | (intro _; try dsimp only) | fail_if_no_progress (refine Keeps.ofMk rfl rfl rfl rfl rfl rfl rfl rfl ?_))

theorem State.devWrite_keeps {s0 : State} (s : State) (c die va : Nat) (bs : List Byte) (h0 : Keeps s0 s) : Keeps s0 (State.devWrite s c die va bs).1 := by
  unfold State.devWrite
  try dsimp only
  repeat (first | with_reducible (first | assumption | refine Keeps.fst (by assumption) ?_ | apply OKeeps.next | apply State.devWriteBy_keeps | apply foldl_keeps | apply foldl_keeps1 | apply forN_keeps | apply iter_keeps) | split | (intro _ _ _; try dsimp only) | (intro _ _; try dsimp only) | (intro _; try dsimp only) | fail_if_no_progress (refine Keeps.ofMk rfl rfl rfl rfl rfl rfl rfl rfl ?_))

theorem State.devRead_keeps {s0 : State} (s : State) (c die va n : Nat) (h0 : Keeps s0 s) : Keeps s0 (State.devRead s c die va n).1 := by
  unfold State.devRead
  try dsimp only
  repeat (first | with_reducible (first | assumption | refine Keeps.fst (by assumption) ?_ | apply OKeeps.next | apply State.devRange_keeps | apply State.l2Line_keeps | apply foldl_keeps | apply foldl_keeps1 | apply forN_keeps | apply iter_keeps) | split | (intro _ _ _; try dsimp only) | (intro _ _; try dsimp only) | (intro _; try dsimp only) | fail_if_no_progress (refine Keeps.ofMk rfl rfl rfl rfl rfl rfl rfl rfl ?_))

theorem State.dropL1_keeps {s0 : State} (s : State) (core : Nat) (p : L1Line → Bool) (h0 : Keeps s0 s) : Keeps s0 (State.dropL1 s core p) := by
  unfold State.dropL1
  try dsimp only
  repeat (first | with_reducible (first | assumption | refine Keeps.fst (by assumption) ?_ | apply OKeeps.next | apply State.modCore_keeps | apply foldl_keeps | apply foldl_keeps1 | apply forN_keeps | apply iter_keeps) | split | (intro _ _ _; try dsimp only) | (intro _ _; try dsimp only) | (intro _; try dsimp only) | fail_if_no_progress (refine Keeps.ofMk rfl rfl rfl rfl rfl rfl rfl rfl ?_))

theorem State.fillLine_keeps {s0 : State} (s : State) (core asid die : Nat) (a : Acc) (i : Nat) (h0 : Keeps s0 s) : Keeps s0 (State.fillLine s core asid die a i) := by
  unfold State.fillLine
  try dsimp only
  repeat (first | with_reducible (first | assumption | refine Keeps.fst (by assumption) ?_ | apply OKeeps.next | apply State.modCore_keeps | apply foldl_keeps | apply foldl_keeps1 | apply forN_keeps | apply iter_keeps) | split | (intro _ _ _; try dsimp only) | (intro _ _; try dsimp only) | (intro _; try dsimp only) | fail_if_no_progress (refine Keeps.ofMk rfl rfl rfl rfl rfl rfl rfl rfl ?_))

theorem State.bringByte_keeps {s0 : State} (s : State) (core asid die : Nat) (thru : Bool) (a : Acc) (i : Nat) (h0 : Keeps s0 s) : Keeps s0 (State.bringByte s core asid die thru a i) := by
  unfold State.bringByte
  try dsimp only
  repeat (first | with_reducible (first | assumption | refine Keeps.fst (by assumption) ?_ | apply OKeeps.next | apply State.l2Line_keeps | apply foldl_keeps | apply foldl_keeps1 | apply forN_keeps | apply iter_keeps) | split | (intro _ _ _; try dsimp only) | (intro _ _; try dsimp only) | (intro _; try dsimp only) | fail_if_no_progress (refine Keeps.ofMk rfl rfl rfl rfl rfl rfl rfl rfl ?_))

theorem State.bringAcc_keeps {s0 : State} (s : State) (core asid die : Nat) (thru : Bool) (a : Acc) (n : Nat) (h0 : Keeps s0 s) : Keeps s0 (State.bringAcc s core asid die thru a n) := by
  unfold State.bringAcc
  try dsimp only
  repeat (first | with_reducible (first | assumption | refine Keeps.fst (by assumption) ?_ | apply OKeeps.next | apply State.bringByte_keeps | apply foldl_keeps | apply foldl_keeps1 | apply forN_keeps | apply iter_keeps) | split | (intro _ _ _; try dsimp only) | (intro _ _; try dsimp only) | (intro _; try dsimp only) | fail_if_no_progress (refine Keeps.ofMk rfl rfl rfl rfl rfl rfl rfl rfl ?_))

theorem State.winPut_keeps {s0 : State} (s : State) (ctx : Nat) (own : Option (Nat × Nat)) (t : WinTgt) (b : Byte) (full pois : Bool) (h0 : Keeps s0 s) : Keeps s0 (State.winPut s ctx own t b full pois) := by
  unfold State.winPut
  try dsimp only
  repeat (first | with_reducible (first | assumption | refine Keeps.fst (by assumption) ?_ | apply OKeeps.next | apply State.modNow_keeps | apply State.modWarp_keeps | apply State.own_keeps | apply foldl_keeps | apply foldl_keeps1 | apply forN_keeps | apply iter_keeps) | split | (intro _ _ _; try dsimp only) | (intro _ _; try dsimp only) | (intro _; try dsimp only) | fail_if_no_progress (refine Keeps.ofMk rfl rfl rfl rfl rfl rfl rfl rfl ?_))

theorem State.winSpad_keeps {s0 : State} (s : State) (ctx : Nat) (writer : Option Nat) (bs : List (WinTgt × PByte)) (h0 : Keeps s0 s) : Keeps s0 (State.winSpad s ctx writer bs) := by
  unfold State.winSpad
  try dsimp only
  repeat (first | with_reducible (first | assumption | refine Keeps.fst (by assumption) ?_ | apply OKeeps.next | apply State.modBlock_keeps | apply State.modNow_keeps | apply foldl_keeps | apply foldl_keeps1 | apply forN_keeps | apply iter_keeps) | split | (intro _ _ _; try dsimp only) | (intro _ _; try dsimp only) | (intro _; try dsimp only) | fail_if_no_progress (refine Keeps.ofMk rfl rfl rfl rfl rfl rfl rfl rfl ?_))

theorem State.winStore_keeps {s0 : State} (s : State) (ctx : Nat) (own : Option (Nat × Nat)) (writer : Option Nat) (bs : List (WinTgt × PByte)) (h0 : Keeps s0 s) : Keeps s0 (State.winStore s ctx own writer bs) := by
  unfold State.winStore
  try dsimp only
  repeat (first | with_reducible (first | assumption | refine Keeps.fst (by assumption) ?_ | apply OKeeps.next | apply State.own_keeps | apply State.winPut_keeps | apply State.winSpad_keeps | apply foldl_keeps | apply foldl_keeps1 | apply forN_keeps | apply iter_keeps) | split | (intro _ _ _; try dsimp only) | (intro _ _; try dsimp only) | (intro _; try dsimp only) | fail_if_no_progress (refine Keeps.ofMk rfl rfl rfl rfl rfl rfl rfl rfl ?_))

theorem State.modLoad_keeps {s0 : State} (s : State) (bk wi key : Nat) (f : PLoad → PLoad) (h0 : Keeps s0 s) : Keeps s0 (State.modLoad s bk wi key f) := by
  unfold State.modLoad
  try dsimp only
  repeat (first | with_reducible (first | assumption | refine Keeps.fst (by assumption) ?_ | apply OKeeps.next | apply State.modWarp_keeps | apply foldl_keeps | apply foldl_keeps1 | apply forN_keeps | apply iter_keeps) | split | (intro _ _ _; try dsimp only) | (intro _ _; try dsimp only) | (intro _; try dsimp only) | fail_if_no_progress (refine Keeps.ofMk rfl rfl rfl rfl rfl rfl rfl rfl ?_))

theorem State.landStore_keeps {s0 : State} (s : State) (b : Block) (st : PStore) (h0 : Keeps s0 s) : Keeps s0 (State.landStore s b st) := by
  unfold State.landStore
  try dsimp only
  repeat (first | with_reducible (first | assumption | refine Keeps.fst (by assumption) ?_ | apply OKeeps.next | apply State.foreignStore_keeps | apply State.l2Write_keeps | apply State.winStore_keeps | apply foldl_keeps | apply foldl_keeps1 | apply forN_keeps | apply iter_keeps) | split | (intro _ _ _; try dsimp only) | (intro _ _; try dsimp only) | (intro _; try dsimp only) | fail_if_no_progress (refine Keeps.ofMk rfl rfl rfl rfl rfl rfl rfl rfl ?_))

theorem State.takeStore_keeps {s0 : State} (s : State) (bk wi key : Nat) (h0 : Keeps s0 s) : Keeps s0 (State.takeStore s bk wi key) := by
  unfold State.takeStore
  try dsimp only
  repeat (first | with_reducible (first | assumption | refine Keeps.fst (by assumption) ?_ | apply OKeeps.next | apply State.modWarp_keeps | apply foldl_keeps | apply foldl_keeps1 | apply forN_keeps | apply iter_keeps) | split | (intro _ _ _; try dsimp only) | (intro _ _; try dsimp only) | (intro _; try dsimp only) | fail_if_no_progress (refine Keeps.ofMk rfl rfl rfl rfl rfl rfl rfl rfl ?_))

theorem State.landTo_keeps {s0 : State} (s : State) (bk wi : Nat) (st : PStore) (h0 : Keeps s0 s) : Keeps s0 (State.landTo s bk wi st) := by
  unfold State.landTo
  try dsimp only
  repeat (first | with_reducible (first | assumption | refine Keeps.fst (by assumption) ?_ | apply OKeeps.next | apply State.landStore_keeps | apply State.takeStore_keeps | apply foldl_keeps | apply foldl_keeps1 | apply forN_keeps | apply iter_keeps) | split | (intro _ _ _; try dsimp only) | (intro _ _; try dsimp only) | (intro _; try dsimp only) | fail_if_no_progress (refine Keeps.ofMk rfl rfl rfl rfl rfl rfl rfl rfl ?_))

theorem State.landWhere_keeps {s0 : State} (s : State) (core : Nat) (p : Block → Nat → PStore → Bool) (h0 : Keeps s0 s) : Keeps s0 (State.landWhere s core p) := by
  unfold State.landWhere
  try dsimp only
  repeat (first | with_reducible (first | assumption | refine Keeps.fst (by assumption) ?_ | apply OKeeps.next | apply State.landTo_keeps | apply foldl_keeps | apply foldl_keeps1 | apply forN_keeps | apply iter_keeps) | split | (intro _ _ _; try dsimp only) | (intro _ _; try dsimp only) | (intro _; try dsimp only) | fail_if_no_progress (refine Keeps.ofMk rfl rfl rfl rfl rfl rfl rfl rfl ?_))

theorem State.flushOverlap_keeps {s0 : State} (s : State) (core asid addr n : Nat) (h0 : Keeps s0 s) : Keeps s0 (State.flushOverlap s core asid addr n) := by
  unfold State.flushOverlap
  try dsimp only
  repeat (first | with_reducible (first | assumption | refine Keeps.fst (by assumption) ?_ | apply OKeeps.next | apply State.landWhere_keeps | apply foldl_keeps | apply foldl_keeps1 | apply forN_keeps | apply iter_keeps) | split | (intro _ _ _; try dsimp only) | (intro _ _; try dsimp only) | (intro _; try dsimp only) | fail_if_no_progress (refine Keeps.ofMk rfl rfl rfl rfl rfl rfl rfl rfl ?_))

theorem State.landFor_keeps {s0 : State} (s : State) (core asid bk wi : Nat) (a : Acc) (n : Nat) (h0 : Keeps s0 s) : Keeps s0 (State.landFor s core asid bk wi a n) := by
  unfold State.landFor
  try dsimp only
  repeat (first | with_reducible (first | assumption | refine Keeps.fst (by assumption) ?_ | apply OKeeps.next | apply State.landWhere_keeps | apply foldl_keeps | apply foldl_keeps1 | apply forN_keeps | apply iter_keeps) | split | (intro _ _ _; try dsimp only) | (intro _ _; try dsimp only) | (intro _; try dsimp only) | fail_if_no_progress (refine Keeps.ofMk rfl rfl rfl rfl rfl rfl rfl rfl ?_))

theorem State.markSeen_keeps {s0 : State} (s : State) (core asid bk wi : Nat) (as : List Acc) (n : Nat) (h0 : Keeps s0 s) : Keeps s0 (State.markSeen s core asid bk wi as n) := by
  unfold State.markSeen
  try dsimp only
  repeat (first | with_reducible (first | assumption | refine Keeps.fst (by assumption) ?_ | apply OKeeps.next | apply foldl_keeps | apply foldl_keeps1 | apply forN_keeps | apply iter_keeps) | split | (intro _ _ _; try dsimp only) | (intro _ _; try dsimp only) | (intro _; try dsimp only) | fail_if_no_progress (refine Keeps.ofMk rfl rfl rfl rfl rfl rfl rfl rfl ?_))

theorem State.atomStep_keeps {s0 : State} (s : State) (core asid : Nat) (aop : BitVec 5) (n : Nat) (a : Acc) (h0 : Keeps s0 s) : Keeps s0 (State.atomStep s core asid aop n a).1 := by
  unfold State.atomStep
  try dsimp only
  repeat (first | with_reducible (first | assumption | refine Keeps.fst (by assumption) ?_ | apply OKeeps.next | apply State.dropHLines_keeps | apply State.dropL1_keeps | apply State.flushOverlap_keeps | apply State.l2Line_keeps | apply State.l2WriteN_keeps | apply State.putHome_keeps | apply foldl_keeps | apply foldl_keeps1 | apply forN_keeps | apply iter_keeps) | split | (intro _ _ _; try dsimp only) | (intro _ _; try dsimp only) | (intro _; try dsimp only) | fail_if_no_progress (refine Keeps.ofMk rfl rfl rfl rfl rfl rfl rfl rfl ?_))

theorem State.performOne_keeps {s0 : State} (s : State) (bk wi : Nat) (ld : PLoad) (h0 : Keeps s0 s) : Keeps s0 (State.performOne s bk wi ld) := by
  unfold State.performOne
  try dsimp only
  repeat (first | with_reducible (first | assumption | refine Keeps.fst (by assumption) ?_ | apply OKeeps.next | apply State.atomStep_keeps | apply State.bringAcc_keeps | apply State.fillLine_keeps | apply State.foreignStore_keeps | apply State.landFor_keeps | apply State.markSeen_keeps | apply State.modLoad_keeps | apply foldl_keeps | apply foldl_keeps1 | apply forN_keeps | apply iter_keeps) | split | (intro _ _ _; try dsimp only) | (intro _ _; try dsimp only) | (intro _; try dsimp only) | fail_if_no_progress (refine Keeps.ofMk rfl rfl rfl rfl rfl rfl rfl rfl ?_))

theorem State.performLogged_keeps {s0 : State} (s : State) (bk wi : Nat) (ld : PLoad) (h0 : Keeps s0 s) : Keeps s0 (State.performLogged s bk wi ld) := by
  unfold State.performLogged
  try dsimp only
  repeat (first | with_reducible (first | assumption | refine Keeps.fst (by assumption) ?_ | apply OKeeps.next | refine State.loggedLate_keeps_eq (by assumption) ?_ | apply State.modLoad_keeps | apply State.performOne_keeps | apply foldl_keeps | apply foldl_keeps1 | apply forN_keeps | apply iter_keeps) | split | (intro _ _ _; try dsimp only) | (intro _ _; try dsimp only) | (intro _; try dsimp only) | fail_if_no_progress (refine Keeps.ofMk rfl rfl rfl rfl rfl rfl rfl rfl ?_))

theorem State.performTo_keeps {s0 : State} (s : State) (bk wi key : Nat) (h0 : Keeps s0 s) : Keeps s0 (State.performTo s bk wi key) := by
  unfold State.performTo
  try dsimp only
  repeat (first | with_reducible (first | assumption | refine Keeps.fst (by assumption) ?_ | apply OKeeps.next | apply State.performLogged_keeps | apply foldl_keeps | apply foldl_keeps1 | apply forN_keeps | apply iter_keeps) | split | (intro _ _ _; try dsimp only) | (intro _ _; try dsimp only) | (intro _; try dsimp only) | fail_if_no_progress (refine Keeps.ofMk rfl rfl rfl rfl rfl rfl rfl rfl ?_))

theorem State.perform_keeps {s0 : State} (s : State) (bk wi key : Nat) (h0 : Keeps s0 s) : Keeps s0 (State.perform s bk wi key) := by
  unfold State.perform
  try dsimp only
  repeat (first | with_reducible (first | assumption | refine Keeps.fst (by assumption) ?_ | apply OKeeps.next | apply State.performLogged_keeps | apply State.performTo_keeps | apply foldl_keeps | apply foldl_keeps1 | apply forN_keeps | apply iter_keeps) | split | (intro _ _ _; try dsimp only) | (intro _ _; try dsimp only) | (intro _; try dsimp only) | fail_if_no_progress (refine Keeps.ofMk rfl rfl rfl rfl rfl rfl rfl rfl ?_))

theorem State.ackStore_keeps {s0 : State} (s : State) (bk wi key : Nat) (h0 : Keeps s0 s) : Keeps s0 (State.ackStore s bk wi key) := by
  unfold State.ackStore
  try dsimp only
  repeat (first | with_reducible (first | assumption | refine Keeps.fst (by assumption) ?_ | apply OKeeps.next | apply State.landTo_keeps | apply State.perform_keeps | apply State.performTo_keeps | apply State.takeStore_keeps | apply foldl_keeps | apply foldl_keeps1 | apply forN_keeps | apply iter_keeps) | split | (intro _ _ _; try dsimp only) | (intro _ _; try dsimp only) | (intro _; try dsimp only) | fail_if_no_progress (refine Keeps.ofMk rfl rfl rfl rfl rfl rfl rfl rfl ?_))

theorem State.drain_keeps {s0 : State} (s : State) (bk wi : Nat) (h0 : Keeps s0 s) : Keeps s0 (State.drain s bk wi) := by
  unfold State.drain
  try dsimp only
  repeat (first | with_reducible (first | assumption | refine Keeps.fst (by assumption) ?_ | apply OKeeps.next | apply State.ackStore_keeps | apply foldl_keeps | apply foldl_keeps1 | apply forN_keeps | apply iter_keeps) | split | (intro _ _ _; try dsimp only) | (intro _ _; try dsimp only) | (intro _; try dsimp only) | fail_if_no_progress (refine Keeps.ofMk rfl rfl rfl rfl rfl rfl rfl rfl ?_))

theorem State.drainAll_keeps {s0 : State} (s : State) (bk wi : Nat) (h0 : Keeps s0 s) : Keeps s0 (State.drainAll s bk wi) := by
  unfold State.drainAll
  try dsimp only
  repeat (first | with_reducible (first | assumption | refine Keeps.fst (by assumption) ?_ | apply OKeeps.next | apply State.ackStore_keeps | apply foldl_keeps | apply foldl_keeps1 | apply forN_keeps | apply iter_keeps) | split | (intro _ _ _; try dsimp only) | (intro _ _; try dsimp only) | (intro _; try dsimp only) | fail_if_no_progress (refine Keeps.ofMk rfl rfl rfl rfl rfl rfl rfl rfl ?_))

theorem State.drainBlock_keeps {s0 : State} (s : State) (bk : Nat) (h0 : Keeps s0 s) : Keeps s0 (State.drainBlock s bk) := by
  unfold State.drainBlock
  try dsimp only
  repeat (first | with_reducible (first | assumption | refine Keeps.fst (by assumption) ?_ | apply OKeeps.next | apply State.drain_keeps | apply foldl_keeps | apply foldl_keeps1 | apply forN_keeps | apply iter_keeps) | split | (intro _ _ _; try dsimp only) | (intro _ _; try dsimp only) | (intro _; try dsimp only) | fail_if_no_progress (refine Keeps.ofMk rfl rfl rfl rfl rfl rfl rfl rfl ?_))

theorem State.drainSeen_keeps {s0 : State} (s : State) (bk wi : Nat) (h0 : Keeps s0 s) : Keeps s0 (State.drainSeen s bk wi) := by
  unfold State.drainSeen
  try dsimp only
  repeat (first | with_reducible (first | assumption | refine Keeps.fst (by assumption) ?_ | apply OKeeps.next | apply State.landWhere_keeps | apply foldl_keeps | apply foldl_keeps1 | apply forN_keeps | apply iter_keeps) | split | (intro _ _ _; try dsimp only) | (intro _ _; try dsimp only) | (intro _; try dsimp only) | fail_if_no_progress (refine Keeps.ofMk rfl rfl rfl rfl rfl rfl rfl rfl ?_))

theorem State.release_keeps {s0 : State} (s : State) (bk wi scope : Nat) (h0 : Keeps s0 s) : Keeps s0 (State.release s bk wi scope) := by
  unfold State.release
  try dsimp only
  repeat (first | with_reducible (first | assumption | refine Keeps.fst (by assumption) ?_ | apply OKeeps.next | apply State.cleanHLines_keeps | apply State.drain_keeps | apply State.drainSeen_keeps | apply State.performTo_keeps | apply foldl_keeps | apply foldl_keeps1 | apply forN_keeps | apply iter_keeps) | split | (intro _ _ _; try dsimp only) | (intro _ _; try dsimp only) | (intro _; try dsimp only) | fail_if_no_progress (refine Keeps.ofMk rfl rfl rfl rfl rfl rfl rfl rfl ?_))

theorem State.acquire_keeps {s0 : State} (s : State) (bk scope : Nat) (h0 : Keeps s0 s) : Keeps s0 (State.acquire s bk scope) := by
  unfold State.acquire
  try dsimp only
  repeat (first | with_reducible (first | assumption | refine Keeps.fst (by assumption) ?_ | apply OKeeps.next | apply State.dropHLines_keeps | apply State.dropL1_keeps | apply foldl_keeps | apply foldl_keeps1 | apply forN_keeps | apply iter_keeps) | split | (intro _ _ _; try dsimp only) | (intro _ _; try dsimp only) | (intro _; try dsimp only) | fail_if_no_progress (refine Keeps.ofMk rfl rfl rfl rfl rfl rfl rfl rfl ?_))

theorem State.windowSettle_keeps {s0 : State} (s : State) (k : Block) (h0 : Keeps s0 s) : Keeps s0 (State.windowSettle s k) := by
  unfold State.windowSettle
  try dsimp only
  repeat (first | with_reducible (first | assumption | refine Keeps.fst (by assumption) ?_ | apply OKeeps.next | apply State.ackStore_keeps | apply State.perform_keeps | apply foldl_keeps | apply foldl_keeps1 | apply forN_keeps | apply iter_keeps) | split | (intro _ _ _; try dsimp only) | (intro _ _; try dsimp only) | (intro _; try dsimp only) | fail_if_no_progress (refine Keeps.ofMk rfl rfl rfl rfl rfl rfl rfl rfl ?_))

theorem State.blockSettle_keeps {s0 : State} (s : State) (bk : Nat) (h0 : Keeps s0 s) : Keeps s0 (State.blockSettle s bk) := by
  unfold State.blockSettle
  try dsimp only
  repeat (first | with_reducible (first | assumption | refine Keeps.fst (by assumption) ?_ | apply OKeeps.next | apply State.drain_keeps | apply State.performTo_keeps | apply State.windowSettle_keeps | apply foldl_keeps | apply foldl_keeps1 | apply forN_keeps | apply iter_keeps) | split | (intro _ _ _; try dsimp only) | (intro _ _; try dsimp only) | (intro _; try dsimp only) | fail_if_no_progress (refine Keeps.ofMk rfl rfl rfl rfl rfl rfl rfl rfl ?_))

theorem State.soundInto_keeps {s0 : State} (s : State) (b : Block) (base : Nat) (rec0 : List Byte) (h0 : Keeps s0 s) : Keeps s0 (State.soundInto s b base rec0) := by
  unfold State.soundInto
  try dsimp only
  repeat (first | with_reducible (first | assumption | refine Keeps.fst (by assumption) ?_ | apply OKeeps.next | apply State.devRead_keeps | apply State.devWrite_keeps | apply foldl_keeps | apply foldl_keeps1 | apply forN_keeps | apply iter_keeps) | split | (intro _ _ _; try dsimp only) | (intro _ _; try dsimp only) | (intro _; try dsimp only) | fail_if_no_progress (refine Keeps.ofMk rfl rfl rfl rfl rfl rfl rfl rfl ?_))

theorem State.soundOne_keeps {s0 : State} (s : State) (b : Block) (wi kind : Nat) (r : LineReq) (h0 : Keeps s0 s) : Keeps s0 (State.soundOne s b wi kind r) := by
  unfold State.soundOne
  try dsimp only
  repeat (first | with_reducible (first | assumption | refine Keeps.fst (by assumption) ?_ | apply OKeeps.next | apply State.modCore_keeps | apply State.soundInto_keeps | apply foldl_keeps | apply foldl_keeps1 | apply forN_keeps | apply iter_keeps) | split | (intro _ _ _; try dsimp only) | (intro _ _; try dsimp only) | (intro _; try dsimp only) | fail_if_no_progress (refine Keeps.ofMk rfl rfl rfl rfl rfl rfl rfl rfl ?_))

theorem State.sound_keeps {s0 : State} (s : State) (b : Block) (wi : Nat) (reqs : List LineReq) (kind : Nat) (h0 : Keeps s0 s) : Keeps s0 (State.sound s b wi reqs kind) := by
  unfold State.sound
  try dsimp only
  repeat (first | with_reducible (first | assumption | refine Keeps.fst (by assumption) ?_ | apply OKeeps.next | apply State.soundOne_keeps | apply foldl_keeps | apply foldl_keeps1 | apply forN_keeps | apply iter_keeps) | split | (intro _ _ _; try dsimp only) | (intro _ _; try dsimp only) | (intro _; try dsimp only) | fail_if_no_progress (refine Keeps.ofMk rfl rfl rfl rfl rfl rfl rfl rfl ?_))

end Sys2Proof.Machine
end

