-- ==== Sys2Proof/Laws/KeepsOps.lean ====
section
/-! SUPPORT. `Keeps` for the operations of Ops, Operands, IntAlu, FpAlu, Flags, Xln. -/

set_option linter.unusedTactic false
set_option linter.unreachableTactic false

namespace Sys2Proof.Machine

theorem State.sediment_keeps {s0 : State} (s : State) (ctx : Option Nat) (src event : Nat) (detail : BitVec 448) (h0 : Keeps s0 s) : Keeps s0 (State.sediment s ctx src event detail) := by
  unfold State.sediment
  try dsimp only
  repeat (first | with_reducible (first | assumption | refine Keeps.fst (by assumption) ?_ | apply OKeeps.next | refine State.modWh_keeps _ _ rfl rfl rfl rfl ?_ | apply foldl_keeps | apply foldl_keeps1 | apply forN_keeps | apply iter_keeps) | split | (intro _ _ _; try dsimp only) | (intro _ _; try dsimp only) | (intro _; try dsimp only) | fail_if_no_progress (refine Keeps.ofMk rfl rfl rfl rfl rfl rfl rfl rfl ?_))

theorem State.signal_keeps {s0 : State} (s : State) (fn vector : Nat) (h0 : Keeps s0 s) : Keeps s0 (State.signal s fn vector) := by
  unfold State.signal
  try dsimp only
  repeat (first | with_reducible (first | assumption | refine Keeps.fst (by assumption) ?_ | apply OKeeps.next | refine State.modWh_keeps _ _ rfl rfl rfl rfl ?_ | apply foldl_keeps | apply foldl_keeps1 | apply forN_keeps | apply iter_keeps) | split | (intro _ _ _; try dsimp only) | (intro _ _; try dsimp only) | (intro _; try dsimp only) | fail_if_no_progress (refine Keeps.ofMk rfl rfl rfl rfl rfl rfl rfl rfl ?_))

theorem State.pend_keeps {s0 : State} (s : State) (c : Nat) (t : Trap) (h0 : Keeps s0 s) : Keeps s0 (State.pend s c t) := by
  unfold State.pend
  try dsimp only
  repeat (first | with_reducible (first | assumption | refine Keeps.fst (by assumption) ?_ | apply OKeeps.next | apply State.bump_keeps | apply State.modCtx_keeps | apply foldl_keeps | apply foldl_keeps1 | apply forN_keeps | apply iter_keeps) | split | (intro _ _ _; try dsimp only) | (intro _ _; try dsimp only) | (intro _; try dsimp only) | fail_if_no_progress (refine Keeps.ofMk rfl rfl rfl rfl rfl rfl rfl rfl ?_))

theorem State.freeFrags_keeps {s0 : State} (s : State) (core : Nat) (p : Frag → Bool) (h0 : Keeps s0 s) : Keeps s0 (State.freeFrags s core p) := by
  unfold State.freeFrags
  try dsimp only
  repeat (first | with_reducible (first | assumption | refine Keeps.fst (by assumption) ?_ | apply OKeeps.next | apply State.modCore_keeps | apply foldl_keeps | apply foldl_keeps1 | apply forN_keeps | apply iter_keeps) | split | (intro _ _ _; try dsimp only) | (intro _ _; try dsimp only) | (intro _; try dsimp only) | fail_if_no_progress (refine Keeps.ofMk rfl rfl rfl rfl rfl rfl rfl rfl ?_))

theorem State.freeEmpty_keeps {s0 : State} (s : State) (core bk wi : Nat) (h0 : Keeps s0 s) : Keeps s0 (State.freeEmpty s core bk wi) := by
  unfold State.freeEmpty
  try dsimp only
  repeat (first | with_reducible (first | assumption | refine Keeps.fst (by assumption) ?_ | apply OKeeps.next | apply State.freeFrags_keeps | apply foldl_keeps | apply foldl_keeps1 | apply forN_keeps | apply iter_keeps) | split | (intro _ _ _; try dsimp only) | (intro _ _; try dsimp only) | (intro _; try dsimp only) | fail_if_no_progress (refine Keeps.ofMk rfl rfl rfl rfl rfl rfl rfl rfl ?_))

theorem State.unsync_keeps {s0 : State} (s : State) (c bk wi f : Nat) (h0 : Keeps s0 s) : Keeps s0 (State.unsync s c bk wi f) := by
  unfold State.unsync
  try dsimp only
  repeat (first | with_reducible (first | assumption | refine Keeps.fst (by assumption) ?_ | apply OKeeps.next | apply State.modCtx_keeps | apply foldl_keeps | apply foldl_keeps1 | apply forN_keeps | apply iter_keeps) | split | (intro _ _ _; try dsimp only) | (intro _ _; try dsimp only) | (intro _; try dsimp only) | fail_if_no_progress (refine Keeps.ofMk rfl rfl rfl rfl rfl rfl rfl rfl ?_))

theorem State.rejoin_keeps {s0 : State} (s : State) (core bk wi : Nat) (mask : Mask) (h0 : Keeps s0 s) : Keeps s0 (State.rejoin s core bk wi mask) := by
  unfold State.rejoin
  try dsimp only
  repeat (first | with_reducible (first | assumption | refine Keeps.fst (by assumption) ?_ | apply OKeeps.next | apply State.freeFrags_keeps | apply State.modWarp_keeps | apply State.unsync_keeps | apply foldl_keeps | apply foldl_keeps1 | apply forN_keeps | apply iter_keeps) | split | (intro _ _ _; try dsimp only) | (intro _ _; try dsimp only) | (intro _; try dsimp only) | fail_if_no_progress (refine Keeps.ofMk rfl rfl rfl rfl rfl rfl rfl rfl ?_))

theorem State.timedPair_keeps {s0 : State} (s : State) (bk wi n : Nat) (m : Mask) (full : Bool) (h0 : Keeps s0 s) : Keeps s0 (State.timedPair s bk wi n m full) := by
  unfold State.timedPair
  try dsimp only
  repeat (first | with_reducible (first | assumption | refine Keeps.fst (by assumption) ?_ | apply OKeeps.next | apply State.modMask_keeps | apply foldl_keeps | apply foldl_keeps1 | apply forN_keeps | apply iter_keeps) | split | (intro _ _ _; try dsimp only) | (intro _ _; try dsimp only) | (intro _; try dsimp only) | fail_if_no_progress (refine Keeps.ofMk rfl rfl rfl rfl rfl rfl rfl rfl ?_))

theorem State.settleB_keeps {s0 : State} (s : State) (core bk wi n : Nat) (h0 : Keeps s0 s) : Keeps s0 (State.settleB s core bk wi n) := by
  unfold State.settleB
  try dsimp only
  repeat (first | with_reducible (first | assumption | refine Keeps.fst (by assumption) ?_ | apply OKeeps.next | apply State.modMask_keeps | apply State.modWarp_keeps | apply State.rejoin_keeps | apply State.release_keeps | apply State.timedPair_keeps | apply foldl_keeps | apply foldl_keeps1 | apply forN_keeps | apply iter_keeps) | split | (intro _ _ _; try dsimp only) | (intro _ _; try dsimp only) | (intro _; try dsimp only) | fail_if_no_progress (refine Keeps.ofMk rfl rfl rfl rfl rfl rfl rfl rfl ?_))

theorem State.settleBar_keeps {s0 : State} (s : State) (bk i : Nat) (h0 : Keeps s0 s) : Keeps s0 (State.settleBar s bk i) := by
  unfold State.settleBar
  try dsimp only
  repeat (first | with_reducible (first | assumption | refine Keeps.fst (by assumption) ?_ | apply OKeeps.next | apply State.modBlock_keeps | apply foldl_keeps | apply foldl_keeps1 | apply forN_keeps | apply iter_keeps) | split | (intro _ _ _; try dsimp only) | (intro _ _; try dsimp only) | (intro _; try dsimp only) | fail_if_no_progress (refine Keeps.ofMk rfl rfl rfl rfl rfl rfl rfl rfl ?_))

theorem State.settleCbar_keeps {s0 : State} (s : State) (bk j : Nat) (h0 : Keeps s0 s) : Keeps s0 (State.settleCbar s bk j) := by
  unfold State.settleCbar
  try dsimp only
  repeat (first | with_reducible (first | assumption | refine Keeps.fst (by assumption) ?_ | apply OKeeps.next | apply State.dropL1_keeps | apply State.log_keeps | apply State.modBlock_keeps | apply foldl_keeps | apply foldl_keeps1 | apply forN_keeps | apply iter_keeps) | split | (intro _ _ _; try dsimp only) | (intro _ _; try dsimp only) | (intro _; try dsimp only) | fail_if_no_progress (refine Keeps.ofMk rfl rfl rfl rfl rfl rfl rfl rfl ?_))

theorem State.syncHelpers_keeps {s0 : State} (s : State) (bk : Nat) (h0 : Keeps s0 s) : Keeps s0 (State.syncHelpers s bk) := by
  unfold State.syncHelpers
  try dsimp only
  repeat (first | with_reducible (first | assumption | refine Keeps.fst (by assumption) ?_ | apply OKeeps.next | apply State.modBlock_keeps | apply foldl_keeps | apply foldl_keeps1 | apply forN_keeps | apply iter_keeps) | split | (intro _ _ _; try dsimp only) | (intro _ _; try dsimp only) | (intro _; try dsimp only) | fail_if_no_progress (refine Keeps.ofMk rfl rfl rfl rfl rfl rfl rfl rfl ?_))

theorem State.settle_keeps {s0 : State} (s : State) (bk : Nat) (h0 : Keeps s0 s) : Keeps s0 (State.settle s bk) := by
  unfold State.settle
  try dsimp only
  repeat (first | with_reducible (first | assumption | refine Keeps.fst (by assumption) ?_ | apply OKeeps.next | apply State.settleB_keeps | apply State.settleBar_keeps | apply State.settleCbar_keeps | apply State.syncHelpers_keeps | apply foldl_keeps | apply foldl_keeps1 | apply forN_keeps | apply iter_keeps) | split | (intro _ _ _; try dsimp only) | (intro _ _; try dsimp only) | (intro _; try dsimp only) | fail_if_no_progress (refine Keeps.ofMk rfl rfl rfl rfl rfl rfl rfl rfl ?_))

theorem State.seat_keeps {s0 : State} (s : State) (b : Block) (wi : Nat) (m : Mask) (e : Nat) (f : Frag) (h0 : Keeps s0 s) : Keeps s0 (State.seat s b wi m e f) := by
  unfold State.seat
  try dsimp only
  repeat (first | with_reducible (first | assumption | refine Keeps.fst (by assumption) ?_ | apply OKeeps.next | apply State.freeEmpty_keeps | apply State.modCore_keeps | apply State.modFlight_keeps | apply State.modMask_keeps | apply State.syncHelpers_keeps | apply foldl_keeps | apply foldl_keeps1 | apply forN_keeps | apply iter_keeps) | split | (intro _ _ _; try dsimp only) | (intro _ _; try dsimp only) | (intro _; try dsimp only) | fail_if_no_progress (refine Keeps.ofMk rfl rfl rfl rfl rfl rfl rfl rfl ?_))

theorem State.park_keeps_eq {s0 s : State} {b : Block} {wi : Nat} {m : Mask} {pc : DWord} {widx : Nat} {t : TrapIn} {u : State} {y : Nat × Nat}
    (e : s.park b wi m pc widx t = some (u, y)) (h0 : Keeps s0 s) : Keeps s0 u := by
  have go : ∀ en x y, Keeps s0 (((s.seat b wi m en x).unsync b.ctx b.key wi x.fnum).log b.key y) := fun en x y =>
    State.log_keeps _ _ _ (State.unsync_keeps _ _ _ _ _ (State.seat_keeps _ _ _ _ _ _ h0))
  unfold State.park at e
  dsimp only at e
  split at e
  · injection e with e
    injection e with e1 _
    subst e1
    exact go _ _ _
  · split at e
    · injection e with e
      injection e with e1 _
      subst e1
      exact go _ _ _
    · cases e

theorem State.hold_keeps {s0 : State} (s : State) (b : Block) (wi : Nat) (act : Mask) (pc : DWord) (widx : Nat) (t : Trap) (h0 : Keeps s0 s) : Keeps s0 (State.hold s b wi act pc widx t) := by
  unfold State.hold
  try dsimp only
  repeat (first | with_reducible (first | assumption | refine Keeps.fst (by assumption) ?_ | apply OKeeps.next | apply State.log_keeps | apply State.modWarp_keeps | apply State.pend_keeps | apply foldl_keeps | apply foldl_keeps1 | apply forN_keeps | apply iter_keeps) | split | (intro _ _ _; try dsimp only) | (intro _ _; try dsimp only) | (intro _; try dsimp only) | fail_if_no_progress (refine Keeps.ofMk rfl rfl rfl rfl rfl rfl rfl rfl ?_))

theorem State.exhaust_keeps {s0 : State} (s : State) (b : Block) (wi : Nat) (m act : Mask) (pc : DWord) (widx : Nat) (h0 : Keeps s0 s) : Keeps s0 (State.exhaust s b wi m act pc widx) := by
  unfold State.exhaust
  try dsimp only
  repeat (first | with_reducible (first | assumption | refine Keeps.fst (by assumption) ?_ | apply OKeeps.next | apply State.hold_keeps | apply foldl_keeps | apply foldl_keeps1 | apply forN_keeps | apply iter_keeps) | split | (intro _ _ _; try dsimp only) | (intro _ _; try dsimp only) | (intro _; try dsimp only) | fail_if_no_progress (refine Keeps.ofMk rfl rfl rfl rfl rfl rfl rfl rfl ?_))

theorem State.trapPlain_keeps {s0 : State} (s : State) (b : Block) (wi : Nat) (m act : Mask) (pc : DWord) (widx : Nat) (t : TrapIn) (h0 : Keeps s0 s) : Keeps s0 (State.trapPlain s b wi m act pc widx t) := by
  unfold State.trapPlain
  try dsimp only
  repeat (first | with_reducible (first | assumption | refine Keeps.fst (by assumption) ?_ | apply OKeeps.next | apply State.exhaust_keeps | refine State.park_keeps_eq (by assumption) ?_ | apply State.pend_keeps | apply foldl_keeps | apply foldl_keeps1 | apply forN_keeps | apply iter_keeps) | split | (intro _ _ _; try dsimp only) | (intro _ _; try dsimp only) | (intro _; try dsimp only) | fail_if_no_progress (refine Keeps.ofMk rfl rfl rfl rfl rfl rfl rfl rfl ?_))

theorem State.dissolve_keeps {s0 : State} (s : State) (b : Block) (latch : Nat) (h0 : Keeps s0 s) : Keeps s0 (State.dissolve s b latch) := by
  unfold State.dissolve
  try dsimp only
  repeat (first | with_reducible (first | assumption | refine Keeps.fst (by assumption) ?_ | apply OKeeps.next | apply State.modBlock_keeps | apply State.modCore_keeps | apply State.trapPlain_keeps | apply foldl_keeps | apply foldl_keeps1 | apply forN_keeps | apply iter_keeps) | split | (intro _ _ _; try dsimp only) | (intro _ _; try dsimp only) | (intro _; try dsimp only) | fail_if_no_progress (refine Keeps.ofMk rfl rfl rfl rfl rfl rfl rfl rfl ?_))

theorem State.exitThreads_keeps {s0 : State} (s : State) (b : Block) (wi : Nat) (m : Mask) (h0 : Keeps s0 s) : Keeps s0 (State.exitThreads s b wi m) := by
  unfold State.exitThreads
  try dsimp only
  repeat (first | with_reducible (first | assumption | refine Keeps.fst (by assumption) ?_ | apply OKeeps.next | apply State.dissolve_keeps | apply State.freeEmpty_keeps | apply State.modFlight_keeps | apply State.modMask_keeps | apply State.modWarp_keeps | apply State.syncHelpers_keeps | apply foldl_keeps | apply foldl_keeps1 | apply forN_keeps | apply iter_keeps) | split | (intro _ _ _; try dsimp only) | (intro _ _; try dsimp only) | (intro _; try dsimp only) | fail_if_no_progress (refine Keeps.ofMk rfl rfl rfl rfl rfl rfl rfl rfl ?_))

theorem State.modRobj_keeps {s0 : State} (s : State) (c desc : Nat) (f : RObj → RObj) (h0 : Keeps s0 s) : Keeps s0 (State.modRobj s c desc f) := by
  unfold State.modRobj
  try dsimp only
  repeat (first | with_reducible (first | assumption | refine Keeps.fst (by assumption) ?_ | apply OKeeps.next | apply foldl_keeps | apply foldl_keeps1 | apply forN_keeps | apply iter_keeps) | split | (intro _ _ _; try dsimp only) | (intro _ _; try dsimp only) | (intro _; try dsimp only) | fail_if_no_progress (refine Keeps.ofMk rfl rfl rfl rfl rfl rfl rfl rfl ?_))

theorem State.writeDesc_keeps {s0 : State} (s : State) (c desc off n v : Nat) (h0 : Keeps s0 s) : Keeps s0 (State.writeDesc s c desc off n v) := by
  unfold State.writeDesc
  try dsimp only
  repeat (first | with_reducible (first | assumption | refine Keeps.fst (by assumption) ?_ | apply OKeeps.next | apply State.devWrite_keeps | apply foldl_keeps | apply foldl_keeps1 | apply forN_keeps | apply iter_keeps) | split | (intro _ _ _; try dsimp only) | (intro _ _; try dsimp only) | (intro _; try dsimp only) | fail_if_no_progress (refine Keeps.ofMk rfl rfl rfl rfl rfl rfl rfl rfl ?_))

theorem State.updateTrim_keeps {s0 : State} (s : State) (c desc : Nat) (h0 : Keeps s0 s) : Keeps s0 (State.updateTrim s c desc) := by
  unfold State.updateTrim
  try dsimp only
  repeat (first | with_reducible (first | assumption | refine Keeps.fst (by assumption) ?_ | apply OKeeps.next | apply State.modRobj_keeps | apply State.writeDesc_keeps | apply foldl_keeps | apply foldl_keeps1 | apply forN_keeps | apply iter_keeps) | split | (intro _ _ _; try dsimp only) | (intro _ _; try dsimp only) | (intro _; try dsimp only) | fail_if_no_progress (refine Keeps.ofMk rfl rfl rfl rfl rfl rfl rfl rfl ?_))

theorem State.breakCopy_keeps {s0 : State} (s : State) (c desc d : Nat) (h0 : Keeps s0 s) : Keeps s0 (State.breakCopy s c desc d) := by
  unfold State.breakCopy
  try dsimp only
  repeat (first | with_reducible (first | assumption | refine Keeps.fst (by assumption) ?_ | apply OKeeps.next | apply State.modRobj_keeps | apply State.updateTrim_keeps | apply State.writeDesc_keeps | apply foldl_keeps | apply foldl_keeps1 | apply forN_keeps | apply iter_keeps) | split | (intro _ _ _; try dsimp only) | (intro _ _; try dsimp only) | (intro _; try dsimp only) | fail_if_no_progress (refine Keeps.ofMk rfl rfl rfl rfl rfl rfl rfl rfl ?_))

theorem State.report3A_keeps {s0 : State} (s : State) (c desc pos code d : Nat) (lval0 : DWord) (lost : Bool) (h0 : Keeps s0 s) : Keeps s0 (State.report3A s c desc pos code d lval0 lost) := by
  unfold State.report3A
  try dsimp only
  repeat (first | with_reducible (first | assumption | refine Keeps.fst (by assumption) ?_ | apply OKeeps.next | apply State.pend_keeps | apply foldl_keeps | apply foldl_keeps1 | apply forN_keeps | apply iter_keeps) | split | (intro _ _ _; try dsimp only) | (intro _ _; try dsimp only) | (intro _; try dsimp only) | fail_if_no_progress (refine Keeps.ofMk rfl rfl rfl rfl rfl rfl rfl rfl ?_))

theorem State.methodFault_keeps {s0 : State} (s : State) (b : Block) (v : RInv) (code : Nat) (lval0 : DWord) (h0 : Keeps s0 s) : Keeps s0 (State.methodFault s b v code lval0) := by
  unfold State.methodFault
  try dsimp only
  repeat (first | with_reducible (first | assumption | refine Keeps.fst (by assumption) ?_ | apply OKeeps.next | apply State.breakCopy_keeps | apply State.report3A_keeps | apply foldl_keeps | apply foldl_keeps1 | apply forN_keeps | apply iter_keeps) | split | (intro _ _ _; try dsimp only) | (intro _ _; try dsimp only) | (intro _; try dsimp only) | fail_if_no_progress (refine Keeps.ofMk rfl rfl rfl rfl rfl rfl rfl rfl ?_))

theorem State.markFailed_keeps {s0 : State} (s : State) (c rid : Nat) (h0 : Keeps s0 s) : Keeps s0 (State.markFailed s c rid) := by
  unfold State.markFailed
  try dsimp only
  repeat (first | with_reducible (first | assumption | refine Keeps.fst (by assumption) ?_ | apply OKeeps.next | apply State.devWrite_keeps | apply State.modCtx_keeps | apply foldl_keeps | apply foldl_keeps1 | apply forN_keeps | apply iter_keeps) | split | (intro _ _ _; try dsimp only) | (intro _ _; try dsimp only) | (intro _; try dsimp only) | fail_if_no_progress (refine Keeps.ofMk rfl rfl rfl rfl rfl rfl rfl rfl ?_))

theorem State.handlerFail_keeps {s0 : State} (s : State) (b : Block) (rid : Nat) (t : Trap) (h0 : Keeps s0 s) : Keeps s0 (State.handlerFail s b rid t) := by
  unfold State.handlerFail
  try dsimp only
  repeat (first | with_reducible (first | assumption | refine Keeps.fst (by assumption) ?_ | apply OKeeps.next | apply State.exitThreads_keeps | apply State.markFailed_keeps | apply State.pend_keeps | apply State.signal_keeps | apply foldl_keeps | apply foldl_keeps1 | apply forN_keeps | apply iter_keeps) | split | (intro _ _ _; try dsimp only) | (intro _ _; try dsimp only) | (intro _; try dsimp only) | fail_if_no_progress (refine Keeps.ofMk rfl rfl rfl rfl rfl rfl rfl rfl ?_))

theorem State.handlerTrap_keeps {s0 : State} (s : State) (b : Block) (rid wi : Nat) (m : Mask) (pc : DWord) (widx : Nat) (t : TrapIn) (h0 : Keeps s0 s) : Keeps s0 (State.handlerTrap s b rid wi m pc widx t) := by
  unfold State.handlerTrap
  try dsimp only
  repeat (first | with_reducible (first | assumption | refine Keeps.fst (by assumption) ?_ | apply OKeeps.next | apply State.handlerFail_keeps | apply foldl_keeps | apply foldl_keeps1 | apply forN_keeps | apply iter_keeps) | split | (intro _ _ _; try dsimp only) | (intro _ _; try dsimp only) | (intro _; try dsimp only) | fail_if_no_progress (refine Keeps.ofMk rfl rfl rfl rfl rfl rfl rfl rfl ?_))

theorem State.takeTrap_keeps {s0 : State} (s : State) (bk wi : Nat) (m act : Mask) (pc : DWord) (widx : Nat) (t : TrapIn) (h0 : Keeps s0 s) : Keeps s0 (State.takeTrap s bk wi m act pc widx t) := by
  unfold State.takeTrap
  try dsimp only
  repeat (first | with_reducible (first | assumption | refine Keeps.fst (by assumption) ?_ | apply OKeeps.next | apply State.handlerTrap_keeps | apply State.methodFault_keeps | apply State.trapPlain_keeps | apply foldl_keeps | apply foldl_keeps1 | apply forN_keeps | apply iter_keeps) | split | (intro _ _ _; try dsimp only) | (intro _ _; try dsimp only) | (intro _; try dsimp only) | fail_if_no_progress (refine Keeps.ofMk rfl rfl rfl rfl rfl rfl rfl rfl ?_))

theorem State.laneTrap_keeps {s0 : State} (s : State) (c : Cx) (m : Mask) (t : TrapIn) (h0 : Keeps s0 s) : Keeps s0 (State.laneTrap s c m t) := by
  unfold State.laneTrap
  try dsimp only
  repeat (first | with_reducible (first | assumption | refine Keeps.fst (by assumption) ?_ | apply OKeeps.next | apply State.settle_keeps | apply State.takeTrap_keeps | apply foldl_keeps | apply foldl_keeps1 | apply forN_keeps | apply iter_keeps) | split | (intro _ _ _; try dsimp only) | (intro _ _; try dsimp only) | (intro _; try dsimp only) | fail_if_no_progress (refine Keeps.ofMk rfl rfl rfl rfl rfl rfl rfl rfl ?_))

theorem State.warpTrap_keeps {s0 : State} (s : State) (c : Cx) (cause code : Nat) (h0 : Keeps s0 s) : Keeps s0 (State.warpTrap s c cause code) := by
  unfold State.warpTrap
  try dsimp only
  repeat (first | with_reducible (first | assumption | refine Keeps.fst (by assumption) ?_ | apply OKeeps.next | apply State.laneTrap_keeps | apply foldl_keeps | apply foldl_keeps1 | apply forN_keeps | apply iter_keeps) | split | (intro _ _ _; try dsimp only) | (intro _ _; try dsimp only) | (intro _; try dsimp only) | fail_if_no_progress (refine Keeps.ofMk rfl rfl rfl rfl rfl rfl rfl rfl ?_))

theorem State.splitThen_keeps {s0 : State} (s : State) (c : Cx) (fs : List (Nat × Nat × DWord)) (rest : State → State)
    (hr : ∀ u, Keeps s0 u → Keeps s0 (rest u)) (h0 : Keeps s0 s) : Keeps s0 (s.splitThen c fs rest) := by
  unfold State.splitThen
  dsimp only
  split
  · exact hr s h0
  · split
    · exact State.laneTrap_keeps _ _ _ _ (hr s h0)
    · exact State.laneTrap_keeps _ _ _ _ h0

theorem ite_keeps {s0 t u : State} {p : Prop} [Decidable p] (ht : Keeps s0 t) (hu : Keeps s0 u) : Keeps s0 (if p then t else u) := by
  split <;> assumption

theorem State.splitStop_keeps {s0 : State} (s : State) (c : Cx) (fs : List (Nat × Nat × DWord)) (stop : Mask) (rest : State → State)
    (hr : ∀ u, Keeps s0 u → Keeps s0 (rest u)) (h0 : Keeps s0 s) : Keeps s0 (s.splitStop c fs stop rest) :=
  ite_keeps (State.splitThen_keeps _ _ _ _ hr h0)
    (ite_keeps (State.laneTrap_keeps _ _ _ _ (State.splitThen_keeps _ _ _ _ (fun _ h => h) (hr s h0)))
      (State.settle_keeps _ _ (State.exhaust_keeps _ _ _ _ _ _ _ h0)))

theorem State.consume_keeps {s0 : State} (s : State) (bk wi : Nat) (act : Mask) (pc : DWord) (widx code aux : Nat) (m : Mask) (h0 : Keeps s0 s) : Keeps s0 (State.consume s bk wi act pc widx code aux m) := by
  unfold State.consume
  try dsimp only
  repeat (first | with_reducible (first | assumption | refine Keeps.fst (by assumption) ?_ | apply OKeeps.next | apply State.hold_keeps | apply State.methodFault_keeps | apply foldl_keeps | apply foldl_keeps1 | apply forN_keeps | apply iter_keeps) | split | (intro _ _ _; try dsimp only) | (intro _ _; try dsimp only) | (intro _; try dsimp only) | fail_if_no_progress (refine Keeps.ofMk rfl rfl rfl rfl rfl rfl rfl rfl ?_))

theorem State.retire_keeps {s0 : State} (s : State) (c : Nat) (rid : Word) (h0 : Keeps s0 s) : Keeps s0 (State.retire s c rid) := by
  unfold State.retire
  try dsimp only
  repeat (first | with_reducible (first | assumption | refine Keeps.fst (by assumption) ?_ | apply OKeeps.next | apply State.modCtx_keeps | apply State.modNow_keeps | apply State.modWarp_keeps | apply foldl_keeps | apply foldl_keeps1 | apply forN_keeps | apply iter_keeps) | split | (intro _ _ _; try dsimp only) | (intro _ _; try dsimp only) | (intro _; try dsimp only) | fail_if_no_progress (refine Keeps.ofMk rfl rfl rfl rfl rfl rfl rfl rfl ?_))

theorem State.withGuard_keeps {s0 : State} (s : State) (g : Guard) (f : Cx → Mask → State) (h0 : Keeps s0 s) (h : ∀ c m, Keeps s0 (f c m)) :
    OKeeps s0 (s.withGuard g f) := by
  refine State.withCx_keeps s _ fun c => ?_
  split
  · exact h0
  · exact h c _

theorem State.withGuardN_keeps {s0 : State} (s : State) (g : Guard) (f : Cx → Mask → State) (h0 : Keeps s0 s) (h : ∀ c m, Keeps s0 (f c m)) :
    OKeeps s0 (s.withGuardN g f) := by
  refine State.withGuard_keeps s g _ h0 fun c m => ?_
  split
  · exact State.methodFault_keeps _ _ _ _ _ h0
  · exact h c m

theorem State.setS_keeps {s0 : State} (s : State) (c : Cx) (r : Nat) (v : Word) (h0 : Keeps s0 s) : Keeps s0 (State.setS s c r v) := by
  unfold State.setS
  try dsimp only
  repeat (first | with_reducible (first | assumption | refine Keeps.fst (by assumption) ?_ | apply OKeeps.next | apply State.modWarp_keeps | apply foldl_keeps | apply foldl_keeps1 | apply forN_keeps | apply iter_keeps) | split | (intro _ _ _; try dsimp only) | (intro _ _; try dsimp only) | (intro _; try dsimp only) | fail_if_no_progress (refine Keeps.ofMk rfl rfl rfl rfl rfl rfl rfl rfl ?_))

theorem State.setS64_keeps {s0 : State} (s : State) (c : Cx) (r : Nat) (v : DWord) (h0 : Keeps s0 s) : Keeps s0 (State.setS64 s c r v) := by
  unfold State.setS64
  try dsimp only
  repeat (first | with_reducible (first | assumption | refine Keeps.fst (by assumption) ?_ | apply OKeeps.next | apply State.modWarp_keeps | apply foldl_keeps | apply foldl_keeps1 | apply forN_keeps | apply iter_keeps) | split | (intro _ _ _; try dsimp only) | (intro _ _; try dsimp only) | (intro _; try dsimp only) | fail_if_no_progress (refine Keeps.ofMk rfl rfl rfl rfl rfl rfl rfl rfl ?_))

theorem State.warpResult_keeps {s0 : State} (s : State) (c : Cx) (d : Nat) (n wide : Bool) (r : Option DWord) (h0 : Keeps s0 s) : Keeps s0 (State.warpResult s c d n wide r) := by
  unfold State.warpResult
  try dsimp only
  repeat (first | with_reducible (first | assumption | refine Keeps.fst (by assumption) ?_ | apply OKeeps.next | apply State.modMask_keeps | apply State.modWarp_keeps | apply foldl_keeps | apply foldl_keeps1 | apply forN_keeps | apply iter_keeps) | split | (intro _ _ _; try dsimp only) | (intro _ _; try dsimp only) | (intro _; try dsimp only) | fail_if_no_progress (refine Keeps.ofMk rfl rfl rfl rfl rfl rfl rfl rfl ?_))

theorem State.laneResult_keeps {s0 : State} (s : State) (c : Cx) (x : LaneArgs) (wide : Bool) (f : Nat → DWord × Fl) (h0 : Keeps s0 s) : Keeps s0 (State.laneResult s c x wide f) := by
  unfold State.laneResult
  try dsimp only
  repeat (first | with_reducible (first | assumption | refine Keeps.fst (by assumption) ?_ | apply OKeeps.next | apply State.modMask_keeps | apply State.warpResult_keeps | apply foldl_keeps | apply foldl_keeps1 | apply forN_keeps | apply iter_keeps) | split | (intro _ _ _; try dsimp only) | (intro _ _; try dsimp only) | (intro _; try dsimp only) | fail_if_no_progress (refine Keeps.ofMk rfl rfl rfl rfl rfl rfl rfl rfl ?_))

theorem State.predResult_keeps {s0 : State} (s : State) (c : Cx) (x : LaneArgs) (f : Nat → Bool × Bool) (h0 : Keeps s0 s) : Keeps s0 (State.predResult s c x f) := by
  unfold State.predResult
  try dsimp only
  repeat (first | with_reducible (first | assumption | refine Keeps.fst (by assumption) ?_ | apply OKeeps.next | apply State.modMask_keeps | apply foldl_keeps | apply foldl_keeps1 | apply forN_keeps | apply iter_keeps) | split | (intro _ _ _; try dsimp only) | (intro _ _; try dsimp only) | (intro _; try dsimp only) | fail_if_no_progress (refine Keeps.ofMk rfl rfl rfl rfl rfl rfl rfl rfl ?_))

theorem State.someResult_keeps {s0 : State} (s : State) (c : Cx) (x : LaneArgs) (wide : Bool) (f : Nat → Option DWord) (h0 : Keeps s0 s) : Keeps s0 (State.someResult s c x wide f) := by
  unfold State.someResult
  try dsimp only
  repeat (first | with_reducible (first | assumption | refine Keeps.fst (by assumption) ?_ | apply OKeeps.next | apply State.modMask_keeps | apply foldl_keeps | apply foldl_keeps1 | apply forN_keeps | apply iter_keeps) | split | (intro _ _ _; try dsimp only) | (intro _ _; try dsimp only) | (intro _; try dsimp only) | fail_if_no_progress (refine Keeps.ofMk rfl rfl rfl rfl rfl rfl rfl rfl ?_))

theorem int2_keeps {s0 : State} (x : LaneArgs) (s : State) (f : Word → Word → Word) (g : DWord → DWord → DWord) (h0 : Keeps s0 s) : OKeeps s0 (int2 x s f g) := by
  unfold int2
  try dsimp only
  repeat (first | with_reducible (first | assumption | refine Keeps.fst (by assumption) ?_ | apply OKeeps.next | apply State.laneResult_keeps | apply State.withCx_keeps | apply foldl_keeps | apply foldl_keeps1 | apply forN_keeps | apply iter_keeps) | split | (intro _ _ _; try dsimp only) | (intro _ _; try dsimp only) | (intro _; try dsimp only) | fail_if_no_progress (refine Keeps.ofMk rfl rfl rfl rfl rfl rfl rfl rfl ?_))

theorem int32_keeps {s0 : State} (x : LaneArgs) (s : State) (f : Word → Word → Word) (h0 : Keeps s0 s) : OKeeps s0 (int32 x s f) := by
  unfold int32
  try dsimp only
  repeat (first | with_reducible (first | assumption | refine Keeps.fst (by assumption) ?_ | apply OKeeps.next | apply State.laneResult_keeps | apply State.withCx_keeps | apply foldl_keeps | apply foldl_keeps1 | apply forN_keeps | apply iter_keeps) | split | (intro _ _ _; try dsimp only) | (intro _ _; try dsimp only) | (intro _; try dsimp only) | fail_if_no_progress (refine Keeps.ofMk rfl rfl rfl rfl rfl rfl rfl rfl ?_))

theorem int1_keeps {s0 : State} (x : LaneArgs) (s : State) (f : Word → Word) (h0 : Keeps s0 s) : OKeeps s0 (int1 x s f) := by
  unfold int1
  try dsimp only
  repeat (first | with_reducible (first | assumption | refine Keeps.fst (by assumption) ?_ | apply OKeeps.next | apply State.laneResult_keeps | apply State.withCx_keeps | apply foldl_keeps | apply foldl_keeps1 | apply forN_keeps | apply iter_keeps) | split | (intro _ _ _; try dsimp only) | (intro _ _; try dsimp only) | (intro _; try dsimp only) | fail_if_no_progress (refine Keeps.ofMk rfl rfl rfl rfl rfl rfl rfl rfl ?_))

theorem intShift_keeps {s0 : State} (x : LaneArgs) (s : State) (f : Word → Nat → Word) (g : DWord → Nat → DWord) (h0 : Keeps s0 s) : OKeeps s0 (intShift x s f g) := by
  unfold intShift
  try dsimp only
  repeat (first | with_reducible (first | assumption | refine Keeps.fst (by assumption) ?_ | apply OKeeps.next | apply State.laneResult_keeps | apply State.withCx_keeps | apply foldl_keeps | apply foldl_keeps1 | apply forN_keeps | apply iter_keeps) | split | (intro _ _ _; try dsimp only) | (intro _ _; try dsimp only) | (intro _; try dsimp only) | fail_if_no_progress (refine Keeps.ofMk rfl rfl rfl rfl rfl rfl rfl rfl ?_))

theorem execIadd_keeps {s0 : State} (x : LaneArgs) (s : State) (h0 : Keeps s0 s) : OKeeps s0 (execIadd x s) := by
  unfold execIadd
  try dsimp only
  repeat (first | with_reducible (first | assumption | refine Keeps.fst (by assumption) ?_ | apply OKeeps.next | apply int2_keeps | apply foldl_keeps | apply foldl_keeps1 | apply forN_keeps | apply iter_keeps) | split | (intro _ _ _; try dsimp only) | (intro _ _; try dsimp only) | (intro _; try dsimp only) | fail_if_no_progress (refine Keeps.ofMk rfl rfl rfl rfl rfl rfl rfl rfl ?_))

theorem execIsub_keeps {s0 : State} (x : LaneArgs) (s : State) (h0 : Keeps s0 s) : OKeeps s0 (execIsub x s) := by
  unfold execIsub
  try dsimp only
  repeat (first | with_reducible (first | assumption | refine Keeps.fst (by assumption) ?_ | apply OKeeps.next | apply int2_keeps | apply foldl_keeps | apply foldl_keeps1 | apply forN_keeps | apply iter_keeps) | split | (intro _ _ _; try dsimp only) | (intro _ _; try dsimp only) | (intro _; try dsimp only) | fail_if_no_progress (refine Keeps.ofMk rfl rfl rfl rfl rfl rfl rfl rfl ?_))

theorem execImul_keeps {s0 : State} (x : LaneArgs) (s : State) (h0 : Keeps s0 s) : OKeeps s0 (execImul x s) := by
  unfold execImul
  try dsimp only
  repeat (first | with_reducible (first | assumption | refine Keeps.fst (by assumption) ?_ | apply OKeeps.next | apply int32_keeps | apply foldl_keeps | apply foldl_keeps1 | apply forN_keeps | apply iter_keeps) | split | (intro _ _ _; try dsimp only) | (intro _ _; try dsimp only) | (intro _; try dsimp only) | fail_if_no_progress (refine Keeps.ofMk rfl rfl rfl rfl rfl rfl rfl rfl ?_))

theorem execImulh_keeps {s0 : State} (x : LaneArgs) (s : State) (h0 : Keeps s0 s) : OKeeps s0 (execImulh x s) := by
  unfold execImulh
  try dsimp only
  repeat (first | with_reducible (first | assumption | refine Keeps.fst (by assumption) ?_ | apply OKeeps.next | apply int32_keeps | apply foldl_keeps | apply foldl_keeps1 | apply forN_keeps | apply iter_keeps) | split | (intro _ _ _; try dsimp only) | (intro _ _; try dsimp only) | (intro _; try dsimp only) | fail_if_no_progress (refine Keeps.ofMk rfl rfl rfl rfl rfl rfl rfl rfl ?_))

theorem execUmulh_keeps {s0 : State} (x : LaneArgs) (s : State) (h0 : Keeps s0 s) : OKeeps s0 (execUmulh x s) := by
  unfold execUmulh
  try dsimp only
  repeat (first | with_reducible (first | assumption | refine Keeps.fst (by assumption) ?_ | apply OKeeps.next | apply int32_keeps | apply foldl_keeps | apply foldl_keeps1 | apply forN_keeps | apply iter_keeps) | split | (intro _ _ _; try dsimp only) | (intro _ _; try dsimp only) | (intro _; try dsimp only) | fail_if_no_progress (refine Keeps.ofMk rfl rfl rfl rfl rfl rfl rfl rfl ?_))

theorem execImad_keeps {s0 : State} (x : LaneArgs) (s : State) (h0 : Keeps s0 s) : OKeeps s0 (execImad x s) := by
  unfold execImad
  try dsimp only
  repeat (first | with_reducible (first | assumption | refine Keeps.fst (by assumption) ?_ | apply OKeeps.next | apply State.laneResult_keeps | apply State.withCx_keeps | apply foldl_keeps | apply foldl_keeps1 | apply forN_keeps | apply iter_keeps) | split | (intro _ _ _; try dsimp only) | (intro _ _; try dsimp only) | (intro _; try dsimp only) | fail_if_no_progress (refine Keeps.ofMk rfl rfl rfl rfl rfl rfl rfl rfl ?_))

theorem execImin_keeps {s0 : State} (x : LaneArgs) (s : State) (h0 : Keeps s0 s) : OKeeps s0 (execImin x s) := by
  unfold execImin
  try dsimp only
  repeat (first | with_reducible (first | assumption | refine Keeps.fst (by assumption) ?_ | apply OKeeps.next | apply int2_keeps | apply foldl_keeps | apply foldl_keeps1 | apply forN_keeps | apply iter_keeps) | split | (intro _ _ _; try dsimp only) | (intro _ _; try dsimp only) | (intro _; try dsimp only) | fail_if_no_progress (refine Keeps.ofMk rfl rfl rfl rfl rfl rfl rfl rfl ?_))

theorem execImax_keeps {s0 : State} (x : LaneArgs) (s : State) (h0 : Keeps s0 s) : OKeeps s0 (execImax x s) := by
  unfold execImax
  try dsimp only
  repeat (first | with_reducible (first | assumption | refine Keeps.fst (by assumption) ?_ | apply OKeeps.next | apply int2_keeps | apply foldl_keeps | apply foldl_keeps1 | apply forN_keeps | apply iter_keeps) | split | (intro _ _ _; try dsimp only) | (intro _ _; try dsimp only) | (intro _; try dsimp only) | fail_if_no_progress (refine Keeps.ofMk rfl rfl rfl rfl rfl rfl rfl rfl ?_))

theorem execUmin_keeps {s0 : State} (x : LaneArgs) (s : State) (h0 : Keeps s0 s) : OKeeps s0 (execUmin x s) := by
  unfold execUmin
  try dsimp only
  repeat (first | with_reducible (first | assumption | refine Keeps.fst (by assumption) ?_ | apply OKeeps.next | apply int2_keeps | apply foldl_keeps | apply foldl_keeps1 | apply forN_keeps | apply iter_keeps) | split | (intro _ _ _; try dsimp only) | (intro _ _; try dsimp only) | (intro _; try dsimp only) | fail_if_no_progress (refine Keeps.ofMk rfl rfl rfl rfl rfl rfl rfl rfl ?_))

theorem execUmax_keeps {s0 : State} (x : LaneArgs) (s : State) (h0 : Keeps s0 s) : OKeeps s0 (execUmax x s) := by
  unfold execUmax
  try dsimp only
  repeat (first | with_reducible (first | assumption | refine Keeps.fst (by assumption) ?_ | apply OKeeps.next | apply int2_keeps | apply foldl_keeps | apply foldl_keeps1 | apply forN_keeps | apply iter_keeps) | split | (intro _ _ _; try dsimp only) | (intro _ _; try dsimp only) | (intro _; try dsimp only) | fail_if_no_progress (refine Keeps.ofMk rfl rfl rfl rfl rfl rfl rfl rfl ?_))

theorem execIabs_keeps {s0 : State} (x : LaneArgs) (s : State) (h0 : Keeps s0 s) : OKeeps s0 (execIabs x s) := by
  unfold execIabs
  try dsimp only
  repeat (first | with_reducible (first | assumption | refine Keeps.fst (by assumption) ?_ | apply OKeeps.next | apply int1_keeps | apply foldl_keeps | apply foldl_keeps1 | apply forN_keeps | apply iter_keeps) | split | (intro _ _ _; try dsimp only) | (intro _ _; try dsimp only) | (intro _; try dsimp only) | fail_if_no_progress (refine Keeps.ofMk rfl rfl rfl rfl rfl rfl rfl rfl ?_))

theorem execAndI_keeps {s0 : State} (x : LaneArgs) (s : State) (h0 : Keeps s0 s) : OKeeps s0 (execAndI x s) := by
  unfold execAndI
  try dsimp only
  repeat (first | with_reducible (first | assumption | refine Keeps.fst (by assumption) ?_ | apply OKeeps.next | apply int2_keeps | apply foldl_keeps | apply foldl_keeps1 | apply forN_keeps | apply iter_keeps) | split | (intro _ _ _; try dsimp only) | (intro _ _; try dsimp only) | (intro _; try dsimp only) | fail_if_no_progress (refine Keeps.ofMk rfl rfl rfl rfl rfl rfl rfl rfl ?_))

theorem execOrI_keeps {s0 : State} (x : LaneArgs) (s : State) (h0 : Keeps s0 s) : OKeeps s0 (execOrI x s) := by
  unfold execOrI
  try dsimp only
  repeat (first | with_reducible (first | assumption | refine Keeps.fst (by assumption) ?_ | apply OKeeps.next | apply int2_keeps | apply foldl_keeps | apply foldl_keeps1 | apply forN_keeps | apply iter_keeps) | split | (intro _ _ _; try dsimp only) | (intro _ _; try dsimp only) | (intro _; try dsimp only) | fail_if_no_progress (refine Keeps.ofMk rfl rfl rfl rfl rfl rfl rfl rfl ?_))

theorem execXorI_keeps {s0 : State} (x : LaneArgs) (s : State) (h0 : Keeps s0 s) : OKeeps s0 (execXorI x s) := by
  unfold execXorI
  try dsimp only
  repeat (first | with_reducible (first | assumption | refine Keeps.fst (by assumption) ?_ | apply OKeeps.next | apply int2_keeps | apply foldl_keeps | apply foldl_keeps1 | apply forN_keeps | apply iter_keeps) | split | (intro _ _ _; try dsimp only) | (intro _ _; try dsimp only) | (intro _; try dsimp only) | fail_if_no_progress (refine Keeps.ofMk rfl rfl rfl rfl rfl rfl rfl rfl ?_))

theorem execAndn_keeps {s0 : State} (x : LaneArgs) (s : State) (h0 : Keeps s0 s) : OKeeps s0 (execAndn x s) := by
  unfold execAndn
  try dsimp only
  repeat (first | with_reducible (first | assumption | refine Keeps.fst (by assumption) ?_ | apply OKeeps.next | apply int2_keeps | apply foldl_keeps | apply foldl_keeps1 | apply forN_keeps | apply iter_keeps) | split | (intro _ _ _; try dsimp only) | (intro _ _; try dsimp only) | (intro _; try dsimp only) | fail_if_no_progress (refine Keeps.ofMk rfl rfl rfl rfl rfl rfl rfl rfl ?_))

theorem execShl_keeps {s0 : State} (x : LaneArgs) (s : State) (h0 : Keeps s0 s) : OKeeps s0 (execShl x s) := by
  unfold execShl
  try dsimp only
  repeat (first | with_reducible (first | assumption | refine Keeps.fst (by assumption) ?_ | apply OKeeps.next | apply intShift_keeps | apply foldl_keeps | apply foldl_keeps1 | apply forN_keeps | apply iter_keeps) | split | (intro _ _ _; try dsimp only) | (intro _ _; try dsimp only) | (intro _; try dsimp only) | fail_if_no_progress (refine Keeps.ofMk rfl rfl rfl rfl rfl rfl rfl rfl ?_))

theorem execShr_keeps {s0 : State} (x : LaneArgs) (s : State) (h0 : Keeps s0 s) : OKeeps s0 (execShr x s) := by
  unfold execShr
  try dsimp only
  repeat (first | with_reducible (first | assumption | refine Keeps.fst (by assumption) ?_ | apply OKeeps.next | apply intShift_keeps | apply foldl_keeps | apply foldl_keeps1 | apply forN_keeps | apply iter_keeps) | split | (intro _ _ _; try dsimp only) | (intro _ _; try dsimp only) | (intro _; try dsimp only) | fail_if_no_progress (refine Keeps.ofMk rfl rfl rfl rfl rfl rfl rfl rfl ?_))

theorem execSar_keeps {s0 : State} (x : LaneArgs) (s : State) (h0 : Keeps s0 s) : OKeeps s0 (execSar x s) := by
  unfold execSar
  try dsimp only
  repeat (first | with_reducible (first | assumption | refine Keeps.fst (by assumption) ?_ | apply OKeeps.next | apply intShift_keeps | apply foldl_keeps | apply foldl_keeps1 | apply forN_keeps | apply iter_keeps) | split | (intro _ _ _; try dsimp only) | (intro _ _; try dsimp only) | (intro _; try dsimp only) | fail_if_no_progress (refine Keeps.ofMk rfl rfl rfl rfl rfl rfl rfl rfl ?_))

theorem execBfe_keeps {s0 : State} (x : LaneArgs) (s : State) (h0 : Keeps s0 s) : OKeeps s0 (execBfe x s) := by
  unfold execBfe
  try dsimp only
  repeat (first | with_reducible (first | assumption | refine Keeps.fst (by assumption) ?_ | apply OKeeps.next | apply int32_keeps | apply foldl_keeps | apply foldl_keeps1 | apply forN_keeps | apply iter_keeps) | split | (intro _ _ _; try dsimp only) | (intro _ _; try dsimp only) | (intro _; try dsimp only) | fail_if_no_progress (refine Keeps.ofMk rfl rfl rfl rfl rfl rfl rfl rfl ?_))

theorem execBfi_keeps {s0 : State} (x : LaneArgs) (s : State) (h0 : Keeps s0 s) : OKeeps s0 (execBfi x s) := by
  unfold execBfi
  try dsimp only
  repeat (first | with_reducible (first | assumption | refine Keeps.fst (by assumption) ?_ | apply OKeeps.next | apply State.laneResult_keeps | apply State.withCx_keeps | apply foldl_keeps | apply foldl_keeps1 | apply forN_keeps | apply iter_keeps) | split | (intro _ _ _; try dsimp only) | (intro _ _; try dsimp only) | (intro _; try dsimp only) | fail_if_no_progress (refine Keeps.ofMk rfl rfl rfl rfl rfl rfl rfl rfl ?_))

theorem execPopc_keeps {s0 : State} (x : LaneArgs) (s : State) (h0 : Keeps s0 s) : OKeeps s0 (execPopc x s) := by
  unfold execPopc
  try dsimp only
  repeat (first | with_reducible (first | assumption | refine Keeps.fst (by assumption) ?_ | apply OKeeps.next | apply int1_keeps | apply foldl_keeps | apply foldl_keeps1 | apply forN_keeps | apply iter_keeps) | split | (intro _ _ _; try dsimp only) | (intro _ _; try dsimp only) | (intro _; try dsimp only) | fail_if_no_progress (refine Keeps.ofMk rfl rfl rfl rfl rfl rfl rfl rfl ?_))

theorem execClz_keeps {s0 : State} (x : LaneArgs) (s : State) (h0 : Keeps s0 s) : OKeeps s0 (execClz x s) := by
  unfold execClz
  try dsimp only
  repeat (first | with_reducible (first | assumption | refine Keeps.fst (by assumption) ?_ | apply OKeeps.next | apply int1_keeps | apply foldl_keeps | apply foldl_keeps1 | apply forN_keeps | apply iter_keeps) | split | (intro _ _ _; try dsimp only) | (intro _ _; try dsimp only) | (intro _; try dsimp only) | fail_if_no_progress (refine Keeps.ofMk rfl rfl rfl rfl rfl rfl rfl rfl ?_))

theorem execBrev_keeps {s0 : State} (x : LaneArgs) (s : State) (h0 : Keeps s0 s) : OKeeps s0 (execBrev x s) := by
  unfold execBrev
  try dsimp only
  repeat (first | with_reducible (first | assumption | refine Keeps.fst (by assumption) ?_ | apply OKeeps.next | apply int1_keeps | apply foldl_keeps | apply foldl_keeps1 | apply forN_keeps | apply iter_keeps) | split | (intro _ _ _; try dsimp only) | (intro _ _; try dsimp only) | (intro _; try dsimp only) | fail_if_no_progress (refine Keeps.ofMk rfl rfl rfl rfl rfl rfl rfl rfl ?_))

theorem execSel_keeps {s0 : State} (x : LaneArgs) (s : State) (h0 : Keeps s0 s) : OKeeps s0 (execSel x s) := by
  unfold execSel
  try dsimp only
  repeat (first | with_reducible (first | assumption | refine Keeps.fst (by assumption) ?_ | apply OKeeps.next | apply State.laneResult_keeps | apply State.withCx_keeps | apply foldl_keeps | apply foldl_keeps1 | apply forN_keeps | apply iter_keeps) | split | (intro _ _ _; try dsimp only) | (intro _ _; try dsimp only) | (intro _; try dsimp only) | fail_if_no_progress (refine Keeps.ofMk rfl rfl rfl rfl rfl rfl rfl rfl ?_))

theorem execMov_keeps {s0 : State} (x : LaneArgs) (s : State) (h0 : Keeps s0 s) : OKeeps s0 (execMov x s) := by
  unfold execMov
  try dsimp only
  repeat (first | with_reducible (first | assumption | refine Keeps.fst (by assumption) ?_ | apply OKeeps.next | apply State.laneResult_keeps | apply State.withCx_keeps | apply foldl_keeps | apply foldl_keeps1 | apply forN_keeps | apply iter_keeps) | split | (intro _ _ _; try dsimp only) | (intro _ _; try dsimp only) | (intro _; try dsimp only) | fail_if_no_progress (refine Keeps.ofMk rfl rfl rfl rfl rfl rfl rfl rfl ?_))

theorem execMovi_keeps {s0 : State} (x : MoviArgs) (s : State) (h0 : Keeps s0 s) : OKeeps s0 (execMovi x s) := by
  unfold execMovi
  try dsimp only
  repeat (first | with_reducible (first | assumption | refine Keeps.fst (by assumption) ?_ | apply OKeeps.next | apply State.laneResult_keeps | apply State.withCx_keeps | apply foldl_keeps | apply foldl_keeps1 | apply forN_keeps | apply iter_keeps) | split | (intro _ _ _; try dsimp only) | (intro _ _; try dsimp only) | (intro _; try dsimp only) | fail_if_no_progress (refine Keeps.ofMk rfl rfl rfl rfl rfl rfl rfl rfl ?_))

theorem execIadd2_keeps {s0 : State} (x : LaneArgs) (s : State) (h0 : Keeps s0 s) : OKeeps s0 (execIadd2 x s) := by
  unfold execIadd2
  try dsimp only
  repeat (first | with_reducible (first | assumption | refine Keeps.fst (by assumption) ?_ | apply OKeeps.next | apply int32_keeps | apply foldl_keeps | apply foldl_keeps1 | apply forN_keeps | apply iter_keeps) | split | (intro _ _ _; try dsimp only) | (intro _ _; try dsimp only) | (intro _; try dsimp only) | fail_if_no_progress (refine Keeps.ofMk rfl rfl rfl rfl rfl rfl rfl rfl ?_))

theorem execIsub2_keeps {s0 : State} (x : LaneArgs) (s : State) (h0 : Keeps s0 s) : OKeeps s0 (execIsub2 x s) := by
  unfold execIsub2
  try dsimp only
  repeat (first | with_reducible (first | assumption | refine Keeps.fst (by assumption) ?_ | apply OKeeps.next | apply int32_keeps | apply foldl_keeps | apply foldl_keeps1 | apply forN_keeps | apply iter_keeps) | split | (intro _ _ _; try dsimp only) | (intro _ _; try dsimp only) | (intro _; try dsimp only) | fail_if_no_progress (refine Keeps.ofMk rfl rfl rfl rfl rfl rfl rfl rfl ?_))

theorem execImin2_keeps {s0 : State} (x : LaneArgs) (s : State) (h0 : Keeps s0 s) : OKeeps s0 (execImin2 x s) := by
  unfold execImin2
  try dsimp only
  repeat (first | with_reducible (first | assumption | refine Keeps.fst (by assumption) ?_ | apply OKeeps.next | apply int32_keeps | apply foldl_keeps | apply foldl_keeps1 | apply forN_keeps | apply iter_keeps) | split | (intro _ _ _; try dsimp only) | (intro _ _; try dsimp only) | (intro _; try dsimp only) | fail_if_no_progress (refine Keeps.ofMk rfl rfl rfl rfl rfl rfl rfl rfl ?_))

theorem execImax2_keeps {s0 : State} (x : LaneArgs) (s : State) (h0 : Keeps s0 s) : OKeeps s0 (execImax2 x s) := by
  unfold execImax2
  try dsimp only
  repeat (first | with_reducible (first | assumption | refine Keeps.fst (by assumption) ?_ | apply OKeeps.next | apply int32_keeps | apply foldl_keeps | apply foldl_keeps1 | apply forN_keeps | apply iter_keeps) | split | (intro _ _ _; try dsimp only) | (intro _ _; try dsimp only) | (intro _; try dsimp only) | fail_if_no_progress (refine Keeps.ofMk rfl rfl rfl rfl rfl rfl rfl rfl ?_))

theorem execIadds2_keeps {s0 : State} (x : LaneArgs) (s : State) (h0 : Keeps s0 s) : OKeeps s0 (execIadds2 x s) := by
  unfold execIadds2
  try dsimp only
  repeat (first | with_reducible (first | assumption | refine Keeps.fst (by assumption) ?_ | apply OKeeps.next | apply int32_keeps | apply foldl_keeps | apply foldl_keeps1 | apply forN_keeps | apply iter_keeps) | split | (intro _ _ _; try dsimp only) | (intro _ _; try dsimp only) | (intro _; try dsimp only) | fail_if_no_progress (refine Keeps.ofMk rfl rfl rfl rfl rfl rfl rfl rfl ?_))

theorem execIsubs2_keeps {s0 : State} (x : LaneArgs) (s : State) (h0 : Keeps s0 s) : OKeeps s0 (execIsubs2 x s) := by
  unfold execIsubs2
  try dsimp only
  repeat (first | with_reducible (first | assumption | refine Keeps.fst (by assumption) ?_ | apply OKeeps.next | apply int32_keeps | apply foldl_keeps | apply foldl_keeps1 | apply forN_keeps | apply iter_keeps) | split | (intro _ _ _; try dsimp only) | (intro _ _; try dsimp only) | (intro _; try dsimp only) | fail_if_no_progress (refine Keeps.ofMk rfl rfl rfl rfl rfl rfl rfl rfl ?_))

theorem fpForm_keeps {s0 : State} (x : LaneArgs) (s : State) (sh : Shape) (f : Nat → Nat → Nat → Nat × Fl) (h0 : Keeps s0 s) : OKeeps s0 (fpForm x s sh f) := by
  unfold fpForm
  try dsimp only
  repeat (first | with_reducible (first | assumption | refine Keeps.fst (by assumption) ?_ | apply OKeeps.next | apply State.laneResult_keeps | apply State.withCx_keeps | apply foldl_keeps | apply foldl_keeps1 | apply forN_keeps | apply iter_keeps) | split | (intro _ _ _; try dsimp only) | (intro _ _; try dsimp only) | (intro _; try dsimp only) | fail_if_no_progress (refine Keeps.ofMk rfl rfl rfl rfl rfl rfl rfl rfl ?_))

theorem execFadd_keeps {s0 : State} (x : LaneArgs) (s : State) (h0 : Keeps s0 s) : OKeeps s0 (execFadd x s) := by
  unfold execFadd
  try dsimp only
  repeat (first | with_reducible (first | assumption | refine Keeps.fst (by assumption) ?_ | apply OKeeps.next | apply fpForm_keeps | apply foldl_keeps | apply foldl_keeps1 | apply forN_keeps | apply iter_keeps) | split | (intro _ _ _; try dsimp only) | (intro _ _; try dsimp only) | (intro _; try dsimp only) | fail_if_no_progress (refine Keeps.ofMk rfl rfl rfl rfl rfl rfl rfl rfl ?_))

theorem execFsub_keeps {s0 : State} (x : LaneArgs) (s : State) (h0 : Keeps s0 s) : OKeeps s0 (execFsub x s) := by
  unfold execFsub
  try dsimp only
  repeat (first | with_reducible (first | assumption | refine Keeps.fst (by assumption) ?_ | apply OKeeps.next | apply fpForm_keeps | apply foldl_keeps | apply foldl_keeps1 | apply forN_keeps | apply iter_keeps) | split | (intro _ _ _; try dsimp only) | (intro _ _; try dsimp only) | (intro _; try dsimp only) | fail_if_no_progress (refine Keeps.ofMk rfl rfl rfl rfl rfl rfl rfl rfl ?_))

theorem execFmul_keeps {s0 : State} (x : LaneArgs) (s : State) (h0 : Keeps s0 s) : OKeeps s0 (execFmul x s) := by
  unfold execFmul
  try dsimp only
  repeat (first | with_reducible (first | assumption | refine Keeps.fst (by assumption) ?_ | apply OKeeps.next | apply fpForm_keeps | apply foldl_keeps | apply foldl_keeps1 | apply forN_keeps | apply iter_keeps) | split | (intro _ _ _; try dsimp only) | (intro _ _; try dsimp only) | (intro _; try dsimp only) | fail_if_no_progress (refine Keeps.ofMk rfl rfl rfl rfl rfl rfl rfl rfl ?_))

theorem execFfma_keeps {s0 : State} (x : LaneArgs) (s : State) (h0 : Keeps s0 s) : OKeeps s0 (execFfma x s) := by
  unfold execFfma
  try dsimp only
  repeat (first | with_reducible (first | assumption | refine Keeps.fst (by assumption) ?_ | apply OKeeps.next | apply fpForm_keeps | apply foldl_keeps | apply foldl_keeps1 | apply forN_keeps | apply iter_keeps) | split | (intro _ _ _; try dsimp only) | (intro _ _; try dsimp only) | (intro _; try dsimp only) | fail_if_no_progress (refine Keeps.ofMk rfl rfl rfl rfl rfl rfl rfl rfl ?_))

theorem execFmin_keeps {s0 : State} (x : LaneArgs) (s : State) (h0 : Keeps s0 s) : OKeeps s0 (execFmin x s) := by
  unfold execFmin
  try dsimp only
  repeat (first | with_reducible (first | assumption | refine Keeps.fst (by assumption) ?_ | apply OKeeps.next | apply fpForm_keeps | apply foldl_keeps | apply foldl_keeps1 | apply forN_keeps | apply iter_keeps) | split | (intro _ _ _; try dsimp only) | (intro _ _; try dsimp only) | (intro _; try dsimp only) | fail_if_no_progress (refine Keeps.ofMk rfl rfl rfl rfl rfl rfl rfl rfl ?_))

theorem execFmax_keeps {s0 : State} (x : LaneArgs) (s : State) (h0 : Keeps s0 s) : OKeeps s0 (execFmax x s) := by
  unfold execFmax
  try dsimp only
  repeat (first | with_reducible (first | assumption | refine Keeps.fst (by assumption) ?_ | apply OKeeps.next | apply fpForm_keeps | apply foldl_keeps | apply foldl_keeps1 | apply forN_keeps | apply iter_keeps) | split | (intro _ _ _; try dsimp only) | (intro _ _; try dsimp only) | (intro _; try dsimp only) | fail_if_no_progress (refine Keeps.ofMk rfl rfl rfl rfl rfl rfl rfl rfl ?_))

theorem execFadd2_keeps {s0 : State} (x : LaneArgs) (s : State) (h0 : Keeps s0 s) : OKeeps s0 (execFadd2 x s) := by
  unfold execFadd2
  try dsimp only
  repeat (first | with_reducible (first | assumption | refine Keeps.fst (by assumption) ?_ | apply OKeeps.next | apply fpForm_keeps | apply foldl_keeps | apply foldl_keeps1 | apply forN_keeps | apply iter_keeps) | split | (intro _ _ _; try dsimp only) | (intro _ _; try dsimp only) | (intro _; try dsimp only) | fail_if_no_progress (refine Keeps.ofMk rfl rfl rfl rfl rfl rfl rfl rfl ?_))

theorem execFmul2_keeps {s0 : State} (x : LaneArgs) (s : State) (h0 : Keeps s0 s) : OKeeps s0 (execFmul2 x s) := by
  unfold execFmul2
  try dsimp only
  repeat (first | with_reducible (first | assumption | refine Keeps.fst (by assumption) ?_ | apply OKeeps.next | apply fpForm_keeps | apply foldl_keeps | apply foldl_keeps1 | apply forN_keeps | apply iter_keeps) | split | (intro _ _ _; try dsimp only) | (intro _ _; try dsimp only) | (intro _; try dsimp only) | fail_if_no_progress (refine Keeps.ofMk rfl rfl rfl rfl rfl rfl rfl rfl ?_))

theorem execFfma2_keeps {s0 : State} (x : LaneArgs) (s : State) (h0 : Keeps s0 s) : OKeeps s0 (execFfma2 x s) := by
  unfold execFfma2
  try dsimp only
  repeat (first | with_reducible (first | assumption | refine Keeps.fst (by assumption) ?_ | apply OKeeps.next | apply fpForm_keeps | apply foldl_keeps | apply foldl_keeps1 | apply forN_keeps | apply iter_keeps) | split | (intro _ _ _; try dsimp only) | (intro _ _; try dsimp only) | (intro _; try dsimp only) | fail_if_no_progress (refine Keeps.ofMk rfl rfl rfl rfl rfl rfl rfl rfl ?_))

theorem execHadd2_keeps {s0 : State} (x : LaneArgs) (s : State) (h0 : Keeps s0 s) : OKeeps s0 (execHadd2 x s) := by
  unfold execHadd2
  try dsimp only
  repeat (first | with_reducible (first | assumption | refine Keeps.fst (by assumption) ?_ | apply OKeeps.next | apply fpForm_keeps | apply foldl_keeps | apply foldl_keeps1 | apply forN_keeps | apply iter_keeps) | split | (intro _ _ _; try dsimp only) | (intro _ _; try dsimp only) | (intro _; try dsimp only) | fail_if_no_progress (refine Keeps.ofMk rfl rfl rfl rfl rfl rfl rfl rfl ?_))

theorem execHmul2_keeps {s0 : State} (x : LaneArgs) (s : State) (h0 : Keeps s0 s) : OKeeps s0 (execHmul2 x s) := by
  unfold execHmul2
  try dsimp only
  repeat (first | with_reducible (first | assumption | refine Keeps.fst (by assumption) ?_ | apply OKeeps.next | apply fpForm_keeps | apply foldl_keeps | apply foldl_keeps1 | apply forN_keeps | apply iter_keeps) | split | (intro _ _ _; try dsimp only) | (intro _ _; try dsimp only) | (intro _; try dsimp only) | fail_if_no_progress (refine Keeps.ofMk rfl rfl rfl rfl rfl rfl rfl rfl ?_))

theorem execHfma2_keeps {s0 : State} (x : LaneArgs) (s : State) (h0 : Keeps s0 s) : OKeeps s0 (execHfma2 x s) := by
  unfold execHfma2
  try dsimp only
  repeat (first | with_reducible (first | assumption | refine Keeps.fst (by assumption) ?_ | apply OKeeps.next | apply fpForm_keeps | apply foldl_keeps | apply foldl_keeps1 | apply forN_keeps | apply iter_keeps) | split | (intro _ _ _; try dsimp only) | (intro _ _; try dsimp only) | (intro _; try dsimp only) | fail_if_no_progress (refine Keeps.ofMk rfl rfl rfl rfl rfl rfl rfl rfl ?_))

theorem execBadd2_keeps {s0 : State} (x : LaneArgs) (s : State) (h0 : Keeps s0 s) : OKeeps s0 (execBadd2 x s) := by
  unfold execBadd2
  try dsimp only
  repeat (first | with_reducible (first | assumption | refine Keeps.fst (by assumption) ?_ | apply OKeeps.next | apply fpForm_keeps | apply foldl_keeps | apply foldl_keeps1 | apply forN_keeps | apply iter_keeps) | split | (intro _ _ _; try dsimp only) | (intro _ _; try dsimp only) | (intro _; try dsimp only) | fail_if_no_progress (refine Keeps.ofMk rfl rfl rfl rfl rfl rfl rfl rfl ?_))

theorem execBmul2_keeps {s0 : State} (x : LaneArgs) (s : State) (h0 : Keeps s0 s) : OKeeps s0 (execBmul2 x s) := by
  unfold execBmul2
  try dsimp only
  repeat (first | with_reducible (first | assumption | refine Keeps.fst (by assumption) ?_ | apply OKeeps.next | apply fpForm_keeps | apply foldl_keeps | apply foldl_keeps1 | apply forN_keeps | apply iter_keeps) | split | (intro _ _ _; try dsimp only) | (intro _ _; try dsimp only) | (intro _; try dsimp only) | fail_if_no_progress (refine Keeps.ofMk rfl rfl rfl rfl rfl rfl rfl rfl ?_))

theorem execBfma2_keeps {s0 : State} (x : LaneArgs) (s : State) (h0 : Keeps s0 s) : OKeeps s0 (execBfma2 x s) := by
  unfold execBfma2
  try dsimp only
  repeat (first | with_reducible (first | assumption | refine Keeps.fst (by assumption) ?_ | apply OKeeps.next | apply fpForm_keeps | apply foldl_keeps | apply foldl_keeps1 | apply forN_keeps | apply iter_keeps) | split | (intro _ _ _; try dsimp only) | (intro _ _; try dsimp only) | (intro _; try dsimp only) | fail_if_no_progress (refine Keeps.ofMk rfl rfl rfl rfl rfl rfl rfl rfl ?_))

theorem execDadd_keeps {s0 : State} (x : LaneArgs) (s : State) (h0 : Keeps s0 s) : OKeeps s0 (execDadd x s) := by
  unfold execDadd
  try dsimp only
  repeat (first | with_reducible (first | assumption | refine Keeps.fst (by assumption) ?_ | apply OKeeps.next | apply fpForm_keeps | apply foldl_keeps | apply foldl_keeps1 | apply forN_keeps | apply iter_keeps) | split | (intro _ _ _; try dsimp only) | (intro _ _; try dsimp only) | (intro _; try dsimp only) | fail_if_no_progress (refine Keeps.ofMk rfl rfl rfl rfl rfl rfl rfl rfl ?_))

theorem execDmul_keeps {s0 : State} (x : LaneArgs) (s : State) (h0 : Keeps s0 s) : OKeeps s0 (execDmul x s) := by
  unfold execDmul
  try dsimp only
  repeat (first | with_reducible (first | assumption | refine Keeps.fst (by assumption) ?_ | apply OKeeps.next | apply fpForm_keeps | apply foldl_keeps | apply foldl_keeps1 | apply forN_keeps | apply iter_keeps) | split | (intro _ _ _; try dsimp only) | (intro _ _; try dsimp only) | (intro _; try dsimp only) | fail_if_no_progress (refine Keeps.ofMk rfl rfl rfl rfl rfl rfl rfl rfl ?_))

theorem execDfma_keeps {s0 : State} (x : LaneArgs) (s : State) (h0 : Keeps s0 s) : OKeeps s0 (execDfma x s) := by
  unfold execDfma
  try dsimp only
  repeat (first | with_reducible (first | assumption | refine Keeps.fst (by assumption) ?_ | apply OKeeps.next | apply fpForm_keeps | apply foldl_keeps | apply foldl_keeps1 | apply forN_keeps | apply iter_keeps) | split | (intro _ _ _; try dsimp only) | (intro _ _; try dsimp only) | (intro _; try dsimp only) | fail_if_no_progress (refine Keeps.ofMk rfl rfl rfl rfl rfl rfl rfl rfl ?_))

theorem cmpForm_keeps {s0 : State} (x : LaneArgs) (s : State) (f : Cx → Nat → Bool) (h0 : Keeps s0 s) : OKeeps s0 (cmpForm x s f) := by
  unfold cmpForm
  try dsimp only
  repeat (first | with_reducible (first | assumption | refine Keeps.fst (by assumption) ?_ | apply OKeeps.next | apply State.predResult_keeps | apply State.withCx_keeps | apply foldl_keeps | apply foldl_keeps1 | apply forN_keeps | apply iter_keeps) | split | (intro _ _ _; try dsimp only) | (intro _ _; try dsimp only) | (intro _; try dsimp only) | fail_if_no_progress (refine Keeps.ofMk rfl rfl rfl rfl rfl rfl rfl rfl ?_))

theorem intCmp_keeps {s0 : State} (x : LaneArgs) (s : State) (lt32 : Word → Word → Bool) (lt64 : DWord → DWord → Bool) (h0 : Keeps s0 s) : OKeeps s0 (intCmp x s lt32 lt64) := by
  unfold intCmp
  try dsimp only
  repeat (first | with_reducible (first | assumption | refine Keeps.fst (by assumption) ?_ | apply OKeeps.next | apply cmpForm_keeps | apply foldl_keeps | apply foldl_keeps1 | apply forN_keeps | apply iter_keeps) | split | (intro _ _ _; try dsimp only) | (intro _ _; try dsimp only) | (intro _; try dsimp only) | fail_if_no_progress (refine Keeps.ofMk rfl rfl rfl rfl rfl rfl rfl rfl ?_))

theorem execIcmp_keeps {s0 : State} (x : LaneArgs) (s : State) (h0 : Keeps s0 s) : OKeeps s0 (execIcmp x s) := by
  unfold execIcmp
  try dsimp only
  repeat (first | with_reducible (first | assumption | refine Keeps.fst (by assumption) ?_ | apply OKeeps.next | apply intCmp_keeps | apply foldl_keeps | apply foldl_keeps1 | apply forN_keeps | apply iter_keeps) | split | (intro _ _ _; try dsimp only) | (intro _ _; try dsimp only) | (intro _; try dsimp only) | fail_if_no_progress (refine Keeps.ofMk rfl rfl rfl rfl rfl rfl rfl rfl ?_))

theorem execUcmp_keeps {s0 : State} (x : LaneArgs) (s : State) (h0 : Keeps s0 s) : OKeeps s0 (execUcmp x s) := by
  unfold execUcmp
  try dsimp only
  repeat (first | with_reducible (first | assumption | refine Keeps.fst (by assumption) ?_ | apply OKeeps.next | apply intCmp_keeps | apply foldl_keeps | apply foldl_keeps1 | apply forN_keeps | apply iter_keeps) | split | (intro _ _ _; try dsimp only) | (intro _ _; try dsimp only) | (intro _; try dsimp only) | fail_if_no_progress (refine Keeps.ofMk rfl rfl rfl rfl rfl rfl rfl rfl ?_))

theorem execFcmp_keeps {s0 : State} (x : LaneArgs) (s : State) (h0 : Keeps s0 s) : OKeeps s0 (execFcmp x s) := by
  unfold execFcmp
  try dsimp only
  repeat (first | with_reducible (first | assumption | refine Keeps.fst (by assumption) ?_ | apply OKeeps.next | apply cmpForm_keeps | apply foldl_keeps | apply foldl_keeps1 | apply forN_keeps | apply iter_keeps) | split | (intro _ _ _; try dsimp only) | (intro _ _; try dsimp only) | (intro _; try dsimp only) | fail_if_no_progress (refine Keeps.ofMk rfl rfl rfl rfl rfl rfl rfl rfl ?_))

theorem execHcmp2_keeps {s0 : State} (x : LaneArgs) (s : State) (h0 : Keeps s0 s) : OKeeps s0 (execHcmp2 x s) := by
  unfold execHcmp2
  try dsimp only
  repeat (first | with_reducible (first | assumption | refine Keeps.fst (by assumption) ?_ | apply OKeeps.next | apply cmpForm_keeps | apply foldl_keeps | apply foldl_keeps1 | apply forN_keeps | apply iter_keeps) | split | (intro _ _ _; try dsimp only) | (intro _ _; try dsimp only) | (intro _; try dsimp only) | fail_if_no_progress (refine Keeps.ofMk rfl rfl rfl rfl rfl rfl rfl rfl ?_))

theorem execDcmp_keeps {s0 : State} (x : LaneArgs) (s : State) (h0 : Keeps s0 s) : OKeeps s0 (execDcmp x s) := by
  unfold execDcmp
  try dsimp only
  repeat (first | with_reducible (first | assumption | refine Keeps.fst (by assumption) ?_ | apply OKeeps.next | apply cmpForm_keeps | apply foldl_keeps | apply foldl_keeps1 | apply forN_keeps | apply iter_keeps) | split | (intro _ _ _; try dsimp only) | (intro _ _; try dsimp only) | (intro _; try dsimp only) | fail_if_no_progress (refine Keeps.ofMk rfl rfl rfl rfl rfl rfl rfl rfl ?_))

theorem execPand_keeps {s0 : State} (x : LaneArgs) (s : State) (h0 : Keeps s0 s) : OKeeps s0 (execPand x s) := by
  unfold execPand
  try dsimp only
  repeat (first | with_reducible (first | assumption | refine Keeps.fst (by assumption) ?_ | apply OKeeps.next | apply cmpForm_keeps | apply foldl_keeps | apply foldl_keeps1 | apply forN_keeps | apply iter_keeps) | split | (intro _ _ _; try dsimp only) | (intro _ _; try dsimp only) | (intro _; try dsimp only) | fail_if_no_progress (refine Keeps.ofMk rfl rfl rfl rfl rfl rfl rfl rfl ?_))

theorem execPor_keeps {s0 : State} (x : LaneArgs) (s : State) (h0 : Keeps s0 s) : OKeeps s0 (execPor x s) := by
  unfold execPor
  try dsimp only
  repeat (first | with_reducible (first | assumption | refine Keeps.fst (by assumption) ?_ | apply OKeeps.next | apply cmpForm_keeps | apply foldl_keeps | apply foldl_keeps1 | apply forN_keeps | apply iter_keeps) | split | (intro _ _ _; try dsimp only) | (intro _ _; try dsimp only) | (intro _; try dsimp only) | fail_if_no_progress (refine Keeps.ofMk rfl rfl rfl rfl rfl rfl rfl rfl ?_))

theorem execPxor_keeps {s0 : State} (x : LaneArgs) (s : State) (h0 : Keeps s0 s) : OKeeps s0 (execPxor x s) := by
  unfold execPxor
  try dsimp only
  repeat (first | with_reducible (first | assumption | refine Keeps.fst (by assumption) ?_ | apply OKeeps.next | apply cmpForm_keeps | apply foldl_keeps | apply foldl_keeps1 | apply forN_keeps | apply iter_keeps) | split | (intro _ _ _; try dsimp only) | (intro _ _; try dsimp only) | (intro _; try dsimp only) | fail_if_no_progress (refine Keeps.ofMk rfl rfl rfl rfl rfl rfl rfl rfl ?_))

theorem execPset_keeps {s0 : State} (x : LaneArgs) (s : State) (h0 : Keeps s0 s) : OKeeps s0 (execPset x s) := by
  unfold execPset
  try dsimp only
  repeat (first | with_reducible (first | assumption | refine Keeps.fst (by assumption) ?_ | apply OKeeps.next | apply cmpForm_keeps | apply foldl_keeps | apply foldl_keeps1 | apply forN_keeps | apply iter_keeps) | split | (intro _ _ _; try dsimp only) | (intro _ _; try dsimp only) | (intro _; try dsimp only) | fail_if_no_progress (refine Keeps.ofMk rfl rfl rfl rfl rfl rfl rfl rfl ?_))

theorem execPmovTo_keeps {s0 : State} (x : LaneArgs) (s : State) (h0 : Keeps s0 s) : OKeeps s0 (execPmovTo x s) := by
  unfold execPmovTo
  try dsimp only
  repeat (first | with_reducible (first | assumption | refine Keeps.fst (by assumption) ?_ | apply OKeeps.next | apply State.laneResult_keeps | apply State.withCx_keeps | apply foldl_keeps | apply foldl_keeps1 | apply forN_keeps | apply iter_keeps) | split | (intro _ _ _; try dsimp only) | (intro _ _; try dsimp only) | (intro _; try dsimp only) | fail_if_no_progress (refine Keeps.ofMk rfl rfl rfl rfl rfl rfl rfl rfl ?_))

theorem execPmovFrom_keeps {s0 : State} (x : LaneArgs) (s : State) (h0 : Keeps s0 s) : OKeeps s0 (execPmovFrom x s) := by
  unfold execPmovFrom
  try dsimp only
  repeat (first | with_reducible (first | assumption | refine Keeps.fst (by assumption) ?_ | apply OKeeps.next | apply State.modMask_keeps | apply State.withCx_keeps | apply foldl_keeps | apply foldl_keeps1 | apply forN_keeps | apply iter_keeps) | split | (intro _ _ _; try dsimp only) | (intro _ _; try dsimp only) | (intro _; try dsimp only) | fail_if_no_progress (refine Keeps.ofMk rfl rfl rfl rfl rfl rfl rfl rfl ?_))

theorem execVote_keeps {s0 : State} (x : LaneArgs) (s : State) (h0 : Keeps s0 s) : OKeeps s0 (execVote x s) := by
  unfold execVote
  try dsimp only
  repeat (first | with_reducible (first | assumption | refine Keeps.fst (by assumption) ?_ | apply OKeeps.next | apply State.laneResult_keeps | apply State.predResult_keeps | apply State.warpResult_keeps | apply State.withCx_keeps | apply foldl_keeps | apply foldl_keeps1 | apply forN_keeps | apply iter_keeps) | split | (intro _ _ _; try dsimp only) | (intro _ _; try dsimp only) | (intro _; try dsimp only) | fail_if_no_progress (refine Keeps.ofMk rfl rfl rfl rfl rfl rfl rfl rfl ?_))

theorem moveForm_keeps {s0 : State} (x : LaneArgs) (s : State) (from_ : Cx → Nat → Option Nat) (h0 : Keeps s0 s) : OKeeps s0 (moveForm x s from_) := by
  unfold moveForm
  try dsimp only
  repeat (first | with_reducible (first | assumption | refine Keeps.fst (by assumption) ?_ | apply OKeeps.next | apply State.laneResult_keeps | refine State.pick_keeps_eq (by assumption) ?_ | apply State.withCx_keeps | apply foldl_keeps | apply foldl_keeps1 | apply forN_keeps | apply iter_keeps) | split | (intro _ _ _; try dsimp only) | (intro _ _; try dsimp only) | (intro _; try dsimp only) | fail_if_no_progress (refine Keeps.ofMk rfl rfl rfl rfl rfl rfl rfl rfl ?_))

theorem execShfl_keeps {s0 : State} (x : LaneArgs) (s : State) (h0 : Keeps s0 s) : OKeeps s0 (execShfl x s) := by
  unfold execShfl
  try dsimp only
  repeat (first | with_reducible (first | assumption | refine Keeps.fst (by assumption) ?_ | apply OKeeps.next | apply moveForm_keeps | apply foldl_keeps | apply foldl_keeps1 | apply forN_keeps | apply iter_keeps) | split | (intro _ _ _; try dsimp only) | (intro _ _; try dsimp only) | (intro _; try dsimp only) | fail_if_no_progress (refine Keeps.ofMk rfl rfl rfl rfl rfl rfl rfl rfl ?_))

theorem execQswp_keeps {s0 : State} (x : LaneArgs) (s : State) (h0 : Keeps s0 s) : OKeeps s0 (execQswp x s) := by
  unfold execQswp
  try dsimp only
  repeat (first | with_reducible (first | assumption | refine Keeps.fst (by assumption) ?_ | apply OKeeps.next | apply moveForm_keeps | apply foldl_keeps | apply foldl_keeps1 | apply forN_keeps | apply iter_keeps) | split | (intro _ _ _; try dsimp only) | (intro _ _; try dsimp only) | (intro _; try dsimp only) | fail_if_no_progress (refine Keeps.ofMk rfl rfl rfl rfl rfl rfl rfl rfl ?_))

theorem execQbcst_keeps {s0 : State} (x : LaneArgs) (s : State) (h0 : Keeps s0 s) : OKeeps s0 (execQbcst x s) := by
  unfold execQbcst
  try dsimp only
  repeat (first | with_reducible (first | assumption | refine Keeps.fst (by assumption) ?_ | apply OKeeps.next | apply moveForm_keeps | apply foldl_keeps | apply foldl_keeps1 | apply forN_keeps | apply iter_keeps) | split | (intro _ _ _; try dsimp only) | (intro _ _; try dsimp only) | (intro _; try dsimp only) | fail_if_no_progress (refine Keeps.ofMk rfl rfl rfl rfl rfl rfl rfl rfl ?_))

theorem execScan_keeps {s0 : State} (x : LaneArgs) (s : State) (h0 : Keeps s0 s) : OKeeps s0 (execScan x s) := by
  unfold execScan
  try dsimp only
  repeat (first | with_reducible (first | assumption | refine Keeps.fst (by assumption) ?_ | apply OKeeps.next | apply State.someResult_keeps | apply State.withCx_keeps | apply foldl_keeps | apply foldl_keeps1 | apply forN_keeps | apply iter_keeps) | split | (intro _ _ _; try dsimp only) | (intro _ _; try dsimp only) | (intro _; try dsimp only) | fail_if_no_progress (refine Keeps.ofMk rfl rfl rfl rfl rfl rfl rfl rfl ?_))

theorem execRedw_keeps {s0 : State} (x : LaneArgs) (s : State) (h0 : Keeps s0 s) : OKeeps s0 (execRedw x s) := by
  unfold execRedw
  try dsimp only
  repeat (first | with_reducible (first | assumption | refine Keeps.fst (by assumption) ?_ | apply OKeeps.next | apply State.someResult_keeps | apply State.warpResult_keeps | apply State.withCx_keeps | apply foldl_keeps | apply foldl_keeps1 | apply forN_keeps | apply iter_keeps) | split | (intro _ _ _; try dsimp only) | (intro _ _; try dsimp only) | (intro _; try dsimp only) | fail_if_no_progress (refine Keeps.ofMk rfl rfl rfl rfl rfl rfl rfl rfl ?_))

theorem execMatchI_keeps {s0 : State} (x : LaneArgs) (s : State) (h0 : Keeps s0 s) : OKeeps s0 (execMatchI x s) := by
  unfold execMatchI
  try dsimp only
  repeat (first | with_reducible (first | assumption | refine Keeps.fst (by assumption) ?_ | apply OKeeps.next | apply State.someResult_keeps | apply State.withCx_keeps | apply foldl_keeps | apply foldl_keeps1 | apply forN_keeps | apply iter_keeps) | split | (intro _ _ _; try dsimp only) | (intro _ _; try dsimp only) | (intro _; try dsimp only) | fail_if_no_progress (refine Keeps.ofMk rfl rfl rfl rfl rfl rfl rfl rfl ?_))

theorem execFlgrd_keeps {s0 : State} (x : LaneArgs) (s : State) (h0 : Keeps s0 s) : OKeeps s0 (execFlgrd x s) := by
  unfold execFlgrd
  try dsimp only
  repeat (first | with_reducible (first | assumption | refine Keeps.fst (by assumption) ?_ | apply OKeeps.next | apply State.laneResult_keeps | apply State.withCx_keeps | apply foldl_keeps | apply foldl_keeps1 | apply forN_keeps | apply iter_keeps) | split | (intro _ _ _; try dsimp only) | (intro _ _; try dsimp only) | (intro _; try dsimp only) | fail_if_no_progress (refine Keeps.ofMk rfl rfl rfl rfl rfl rfl rfl rfl ?_))

theorem execFlgclr_keeps {s0 : State} (x : LaneArgs) (s : State) (h0 : Keeps s0 s) : OKeeps s0 (execFlgclr x s) := by
  unfold execFlgclr
  try dsimp only
  repeat (first | with_reducible (first | assumption | refine Keeps.fst (by assumption) ?_ | apply OKeeps.next | apply State.modMask_keeps | apply State.withCx_keeps | apply foldl_keeps | apply foldl_keeps1 | apply forN_keeps | apply iter_keeps) | split | (intro _ _ _; try dsimp only) | (intro _ _; try dsimp only) | (intro _; try dsimp only) | fail_if_no_progress (refine Keeps.ofMk rfl rfl rfl rfl rfl rfl rfl rfl ?_))

theorem execSreg_keeps {s0 : State} (x : LaneArgs) (s : State) (h0 : Keeps s0 s) : OKeeps s0 (execSreg x s) := by
  unfold execSreg
  try dsimp only
  repeat (first | with_reducible (first | assumption | refine Keeps.fst (by assumption) ?_ | apply OKeeps.next | apply State.laneResult_keeps | apply State.log_keeps | refine State.logged_keeps_eq (by assumption) ?_ | apply State.methodFault_keeps | apply State.withCx_keeps | apply foldl_keeps | apply foldl_keeps1 | apply forN_keeps | apply iter_keeps) | split | (intro _ _ _; try dsimp only) | (intro _ _; try dsimp only) | (intro _; try dsimp only) | fail_if_no_progress (refine Keeps.ofMk rfl rfl rfl rfl rfl rfl rfl rfl ?_))

end Sys2Proof.Machine
end

