-- ==== Sys2Proof/Laws/KeepsMem.lean ====
section
/-! SUPPORT. `Keeps` for the operations of Split, Sfu, Mem, Fetch, Ctl. -/

set_option linter.unusedTactic false
set_option linter.unreachableTactic false

namespace Sys2Proof.Machine

theorem funcForm_keeps {s0 : State} (x : LaneArgs) (s : State) (f : Nat → Nat × Fl) (h0 : Keeps s0 s) : OKeeps s0 (funcForm x s f) := by
  unfold funcForm
  try dsimp only
  repeat (first | with_reducible (first | assumption | refine Keeps.fst (by assumption) ?_ | apply OKeeps.next | apply State.laneResult_keeps | apply State.withCx_keeps | apply foldl_keeps | apply foldl_keeps1 | apply forN_keeps | apply iter_keeps) | split | (intro _ _ _; try dsimp only) | (intro _ _; try dsimp only) | (intro _; try dsimp only) | fail_if_no_progress (refine Keeps.ofMk rfl rfl rfl rfl rfl rfl rfl rfl ?_))

theorem execRcp_keeps {s0 : State} (x : LaneArgs) (s : State) (h0 : Keeps s0 s) : OKeeps s0 (execRcp x s) := by
  unfold execRcp
  try dsimp only
  repeat (first | with_reducible (first | assumption | refine Keeps.fst (by assumption) ?_ | apply OKeeps.next | apply State.sign_keeps | apply funcForm_keeps | apply foldl_keeps | apply foldl_keeps1 | apply forN_keeps | apply iter_keeps) | split | (intro _ _ _; try dsimp only) | (intro _ _; try dsimp only) | (intro _; try dsimp only) | fail_if_no_progress (refine Keeps.ofMk rfl rfl rfl rfl rfl rfl rfl rfl ?_))

theorem execRsq_keeps {s0 : State} (x : LaneArgs) (s : State) (h0 : Keeps s0 s) : OKeeps s0 (execRsq x s) := by
  unfold execRsq
  try dsimp only
  repeat (first | with_reducible (first | assumption | refine Keeps.fst (by assumption) ?_ | apply OKeeps.next | apply State.sign_keeps | apply funcForm_keeps | apply foldl_keeps | apply foldl_keeps1 | apply forN_keeps | apply iter_keeps) | split | (intro _ _ _; try dsimp only) | (intro _ _; try dsimp only) | (intro _; try dsimp only) | fail_if_no_progress (refine Keeps.ofMk rfl rfl rfl rfl rfl rfl rfl rfl ?_))

theorem execSqrt_keeps {s0 : State} (x : LaneArgs) (s : State) (h0 : Keeps s0 s) : OKeeps s0 (execSqrt x s) := by
  unfold execSqrt
  try dsimp only
  repeat (first | with_reducible (first | assumption | refine Keeps.fst (by assumption) ?_ | apply OKeeps.next | apply State.sign_keeps | apply funcForm_keeps | apply foldl_keeps | apply foldl_keeps1 | apply forN_keeps | apply iter_keeps) | split | (intro _ _ _; try dsimp only) | (intro _ _; try dsimp only) | (intro _; try dsimp only) | fail_if_no_progress (refine Keeps.ofMk rfl rfl rfl rfl rfl rfl rfl rfl ?_))

theorem execExp2_keeps {s0 : State} (x : LaneArgs) (s : State) (h0 : Keeps s0 s) : OKeeps s0 (execExp2 x s) := by
  unfold execExp2
  try dsimp only
  repeat (first | with_reducible (first | assumption | refine Keeps.fst (by assumption) ?_ | apply OKeeps.next | apply State.sign_keeps | apply funcForm_keeps | apply foldl_keeps | apply foldl_keeps1 | apply forN_keeps | apply iter_keeps) | split | (intro _ _ _; try dsimp only) | (intro _ _; try dsimp only) | (intro _; try dsimp only) | fail_if_no_progress (refine Keeps.ofMk rfl rfl rfl rfl rfl rfl rfl rfl ?_))

theorem execLog2_keeps {s0 : State} (x : LaneArgs) (s : State) (h0 : Keeps s0 s) : OKeeps s0 (execLog2 x s) := by
  unfold execLog2
  try dsimp only
  repeat (first | with_reducible (first | assumption | refine Keeps.fst (by assumption) ?_ | apply OKeeps.next | apply State.sign_keeps | apply funcForm_keeps | apply foldl_keeps | apply foldl_keeps1 | apply forN_keeps | apply iter_keeps) | split | (intro _ _ _; try dsimp only) | (intro _ _; try dsimp only) | (intro _; try dsimp only) | fail_if_no_progress (refine Keeps.ofMk rfl rfl rfl rfl rfl rfl rfl rfl ?_))

theorem execSinp_keeps {s0 : State} (x : LaneArgs) (s : State) (h0 : Keeps s0 s) : OKeeps s0 (execSinp x s) := by
  unfold execSinp
  try dsimp only
  repeat (first | with_reducible (first | assumption | refine Keeps.fst (by assumption) ?_ | apply OKeeps.next | apply State.sign_keeps | apply funcForm_keeps | apply foldl_keeps | apply foldl_keeps1 | apply forN_keeps | apply iter_keeps) | split | (intro _ _ _; try dsimp only) | (intro _ _; try dsimp only) | (intro _; try dsimp only) | fail_if_no_progress (refine Keeps.ofMk rfl rfl rfl rfl rfl rfl rfl rfl ?_))

theorem execCosp_keeps {s0 : State} (x : LaneArgs) (s : State) (h0 : Keeps s0 s) : OKeeps s0 (execCosp x s) := by
  unfold execCosp
  try dsimp only
  repeat (first | with_reducible (first | assumption | refine Keeps.fst (by assumption) ?_ | apply OKeeps.next | apply funcForm_keeps | apply foldl_keeps | apply foldl_keeps1 | apply forN_keeps | apply iter_keeps) | split | (intro _ _ _; try dsimp only) | (intro _ _; try dsimp only) | (intro _; try dsimp only) | fail_if_no_progress (refine Keeps.ofMk rfl rfl rfl rfl rfl rfl rfl rfl ?_))

theorem execTanh_keeps {s0 : State} (x : LaneArgs) (s : State) (h0 : Keeps s0 s) : OKeeps s0 (execTanh x s) := by
  unfold execTanh
  try dsimp only
  repeat (first | with_reducible (first | assumption | refine Keeps.fst (by assumption) ?_ | apply OKeeps.next | apply State.sign_keeps | apply funcForm_keeps | apply foldl_keeps | apply foldl_keeps1 | apply forN_keeps | apply iter_keeps) | split | (intro _ _ _; try dsimp only) | (intro _ _; try dsimp only) | (intro _; try dsimp only) | fail_if_no_progress (refine Keeps.ofMk rfl rfl rfl rfl rfl rfl rfl rfl ?_))

theorem execCvt_keeps {s0 : State} (x : LaneArgs) (s : State) (h0 : Keeps s0 s) : OKeeps s0 (execCvt x s) := by
  unfold execCvt
  try dsimp only
  repeat (first | with_reducible (first | assumption | refine Keeps.fst (by assumption) ?_ | apply OKeeps.next | apply State.laneResult_keeps | apply State.withCx_keeps | apply foldl_keeps | apply foldl_keeps1 | apply forN_keeps | apply iter_keeps) | split | (intro _ _ _; try dsimp only) | (intro _ _; try dsimp only) | (intro _; try dsimp only) | fail_if_no_progress (refine Keeps.ofMk rfl rfl rfl rfl rfl rfl rfl rfl ?_))

theorem execCvtp_keeps {s0 : State} (x : LaneArgs) (s : State) (h0 : Keeps s0 s) : OKeeps s0 (execCvtp x s) := by
  unfold execCvtp
  try dsimp only
  repeat (first | with_reducible (first | assumption | refine Keeps.fst (by assumption) ?_ | apply OKeeps.next | apply State.laneResult_keeps | apply State.withCx_keeps | apply foldl_keeps | apply foldl_keeps1 | apply forN_keeps | apply iter_keeps) | split | (intro _ _ _; try dsimp only) | (intro _ _; try dsimp only) | (intro _; try dsimp only) | fail_if_no_progress (refine Keeps.ofMk rfl rfl rfl rfl rfl rfl rfl rfl ?_))

theorem execQenc_keeps {s0 : State} (x : LaneArgs) (s : State) (h0 : Keeps s0 s) : OKeeps s0 (execQenc x s) := by
  unfold execQenc
  try dsimp only
  repeat (first | with_reducible (first | assumption | refine Keeps.fst (by assumption) ?_ | apply OKeeps.next | apply State.someResult_keeps | apply State.withCx_keeps | apply foldl_keeps | apply foldl_keeps1 | apply forN_keeps | apply iter_keeps) | split | (intro _ _ _; try dsimp only) | (intro _ _; try dsimp only) | (intro _; try dsimp only) | fail_if_no_progress (refine Keeps.ofMk rfl rfl rfl rfl rfl rfl rfl rfl ?_))

theorem execQdec_keeps {s0 : State} (x : LaneArgs) (s : State) (h0 : Keeps s0 s) : OKeeps s0 (execQdec x s) := by
  unfold execQdec
  try dsimp only
  repeat (first | with_reducible (first | assumption | refine Keeps.fst (by assumption) ?_ | apply OKeeps.next | apply State.laneResult_keeps | apply State.withCx_keeps | apply foldl_keeps | apply foldl_keeps1 | apply forN_keeps | apply iter_keeps) | split | (intro _ _ _; try dsimp only) | (intro _ _; try dsimp only) | (intro _; try dsimp only) | fail_if_no_progress (refine Keeps.ofMk rfl rfl rfl rfl rfl rfl rfl rfl ?_))

theorem State.hitOrCheck_keeps {s0 : State} (s : State) (c : Cx) (v : Nat) (need : Need) (l1 : Bool) (h0 : Keeps s0 s) : Keeps s0 (State.hitOrCheck s c v need l1).1 := by
  unfold State.hitOrCheck
  try dsimp only
  repeat (first | with_reducible (first | assumption | refine Keeps.fst (by assumption) ?_ | apply OKeeps.next | apply State.checkPage_keeps | apply State.resolve_keeps | apply foldl_keeps | apply foldl_keeps1 | apply forN_keeps | apply iter_keeps) | split | (intro _ _ _; try dsimp only) | (intro _ _; try dsimp only) | (intro _; try dsimp only) | fail_if_no_progress (refine Keeps.ofMk rfl rfl rfl rfl rfl rfl rfl rfl ?_))

theorem State.checkGlobal_keeps {s0 : State} (s : State) (c : Cx) (a n : Nat) (need : Need) (align l1 : Bool) (h0 : Keeps s0 s) : Keeps s0 (State.checkGlobal s c a n need align l1).1 := by
  unfold State.checkGlobal
  try dsimp only
  repeat (first | with_reducible (first | assumption | refine Keeps.fst (by assumption) ?_ | apply OKeeps.next | apply State.hitOrCheck_keeps | apply foldl_keeps | apply foldl_keeps1 | apply forN_keeps | apply iter_keeps) | split | (intro _ _ _; try dsimp only) | (intro _ _; try dsimp only) | (intro _; try dsimp only) | fail_if_no_progress (refine Keeps.ofMk rfl rfl rfl rfl rfl rfl rfl rfl ?_))

theorem State.checkLanes_keeps {s0 : State} {α : Type} (s : State) (m : Mask) (f : State → Nat → State × Except Nat α)
    (hf : ∀ u l, Keeps s0 u → Keeps s0 (f u l).1) (h0 : Keeps s0 s) : Keeps s0 (s.checkLanes m f).1 :=
  foldl_keeps1 (fun _ l hu => hf _ l hu) h0

theorem State.addLoad_keeps {s0 : State} (s : State) (c : Cx) (ld : PLoad) (h0 : Keeps s0 s) : Keeps s0 (State.addLoad s c ld) := by
  unfold State.addLoad
  try dsimp only
  repeat (first | with_reducible (first | assumption | refine Keeps.fst (by assumption) ?_ | apply OKeeps.next | apply State.bump_keeps | apply State.modWarp_keeps | apply foldl_keeps | apply foldl_keeps1 | apply forN_keeps | apply iter_keeps) | split | (intro _ _ _; try dsimp only) | (intro _ _; try dsimp only) | (intro _; try dsimp only) | fail_if_no_progress (refine Keeps.ofMk rfl rfl rfl rfl rfl rfl rfl rfl ?_))

theorem State.addStore_keeps {s0 : State} (s : State) (c : Cx) (st : PStore) (h0 : Keeps s0 s) : Keeps s0 (State.addStore s c st) := by
  unfold State.addStore
  try dsimp only
  repeat (first | with_reducible (first | assumption | refine Keeps.fst (by assumption) ?_ | apply OKeeps.next | apply State.bump_keeps | apply State.modWarp_keeps | apply foldl_keeps | apply foldl_keeps1 | apply forN_keeps | apply iter_keeps) | split | (intro _ _ _; try dsimp only) | (intro _ _; try dsimp only) | (intro _; try dsimp only) | fail_if_no_progress (refine Keeps.ofMk rfl rfl rfl rfl rfl rfl rfl rfl ?_))

theorem State.loggedLoad_keeps_eq {s0 s : State} {c : Cx} {y : List (Nat × List Byte)} {u : State} (e : s.loggedLoad c = some (y, u))
    (h0 : Keeps s0 s) : Keeps s0 u := by
  unfold State.loggedLoad at e
  split at e
  · injection e with e
    injection e with _ e2
    subst e2
    exact State.loggedLate_keeps_eq (by assumption) h0
  · cases e

theorem State.issueLd_keeps {s0 : State} (s : State) (c : Cx) (x : MemArgs) (ord : Nat) (thru now : Bool) (accs : List Acc) (h0 : Keeps s0 s) : Keeps s0 (State.issueLd s c x ord thru now accs) := by
  unfold State.issueLd
  try dsimp only
  repeat (first | with_reducible (first | assumption | refine Keeps.fst (by assumption) ?_ | apply OKeeps.next | apply State.acquire_keeps | apply State.addLoad_keeps | refine State.loggedLoad_keeps_eq (by assumption) ?_ | apply State.perform_keeps | apply State.sound_keeps | apply foldl_keeps | apply foldl_keeps1 | apply forN_keeps | apply iter_keeps) | split | (intro _ _ _; try dsimp only) | (intro _ _; try dsimp only) | (intro _; try dsimp only) | fail_if_no_progress (refine Keeps.ofMk rfl rfl rfl rfl rfl rfl rfl rfl ?_))

theorem execLd_keeps {s0 : State} (x : MemArgs) (s : State) (h0 : Keeps s0 s) : OKeeps s0 (execLd x s) := by
  unfold execLd
  try dsimp only
  repeat (first | with_reducible (first | assumption | refine Keeps.fst (by assumption) ?_ | apply OKeeps.next | apply State.checkGlobal_keeps | apply State.checkLanes_keeps | apply State.issueLd_keeps | apply State.splitThen_keeps | apply State.withGuard_keeps | apply foldl_keeps | apply foldl_keeps1 | apply forN_keeps | apply iter_keeps) | split | (intro _ _ _; try dsimp only) | (intro _ _; try dsimp only) | (intro _; try dsimp only) | fail_if_no_progress (refine Keeps.ofMk rfl rfl rfl rfl rfl rfl rfl rfl ?_))

theorem State.l1Store_keeps {s0 : State} (s : State) (core asid : Nat) (bs : List StByte) (h0 : Keeps s0 s) : Keeps s0 (State.l1Store s core asid bs) := by
  unfold State.l1Store
  try dsimp only
  repeat (first | with_reducible (first | assumption | refine Keeps.fst (by assumption) ?_ | apply OKeeps.next | apply State.modCore_keeps | apply foldl_keeps | apply foldl_keeps1 | apply forN_keeps | apply iter_keeps) | split | (intro _ _ _; try dsimp only) | (intro _ _; try dsimp only) | (intro _; try dsimp only) | fail_if_no_progress (refine Keeps.ofMk rfl rfl rfl rfl rfl rfl rfl rfl ?_))

theorem State.forceLoads_keeps {s0 : State} (s : State) (c : Cx) (bs : List StByte) (h0 : Keeps s0 s) : Keeps s0 (State.forceLoads s c bs) := by
  unfold State.forceLoads
  try dsimp only
  repeat (first | with_reducible (first | assumption | refine Keeps.fst (by assumption) ?_ | apply OKeeps.next | apply State.performTo_keeps | apply foldl_keeps | apply foldl_keeps1 | apply forN_keeps | apply iter_keeps) | split | (intro _ _ _; try dsimp only) | (intro _ _; try dsimp only) | (intro _; try dsimp only) | fail_if_no_progress (refine Keeps.ofMk rfl rfl rfl rfl rfl rfl rfl rfl ?_))

theorem execSt_keeps {s0 : State} (x : MemArgs) (s : State) (h0 : Keeps s0 s) : OKeeps s0 (execSt x s) := by
  unfold execSt
  try dsimp only
  repeat (first | with_reducible (first | assumption | refine Keeps.fst (by assumption) ?_ | apply OKeeps.next | apply State.addStore_keeps | apply State.checkGlobal_keeps | apply State.checkLanes_keeps | apply State.forceLoads_keeps | apply State.l1Store_keeps | apply State.release_keeps | apply State.sound_keeps | apply State.splitThen_keeps | apply State.withGuard_keeps | apply foldl_keeps | apply foldl_keeps1 | apply forN_keeps | apply iter_keeps) | split | (intro _ _ _; try dsimp only) | (intro _ _; try dsimp only) | (intro _; try dsimp only) | fail_if_no_progress (refine Keeps.ofMk rfl rfl rfl rfl rfl rfl rfl rfl ?_))

theorem execAtom_keeps {s0 : State} (x : MemArgs) (s : State) (h0 : Keeps s0 s) : OKeeps s0 (execAtom x s) := by
  unfold execAtom
  try dsimp only
  repeat (first | with_reducible (first | assumption | refine Keeps.fst (by assumption) ?_ | apply OKeeps.next | apply State.acquire_keeps | apply State.addLoad_keeps | apply State.checkGlobal_keeps | apply State.checkLanes_keeps | refine State.loggedLoad_keeps_eq (by assumption) ?_ | apply State.modWarp_keeps | apply State.perform_keeps | apply State.release_keeps | apply State.sound_keeps | apply State.splitThen_keeps | apply State.withGuard_keeps | apply foldl_keeps | apply foldl_keeps1 | apply forN_keeps | apply iter_keeps) | split | (intro _ _ _; try dsimp only) | (intro _ _; try dsimp only) | (intro _; try dsimp only) | fail_if_no_progress (refine Keeps.ofMk rfl rfl rfl rfl rfl rfl rfl rfl ?_))

theorem State.raceCheck_keeps {s0 : State} (s : State) (c : Cx) (hits : List (Nat × Nat × Nat)) (accs : List (Nat × Nat)) (n : Nat) (store : Bool) (h0 : Keeps s0 s) : Keeps s0 (State.raceCheck s c hits accs n store) := by
  unfold State.raceCheck
  try dsimp only
  repeat (first | with_reducible (first | assumption | refine Keeps.fst (by assumption) ?_ | apply OKeeps.next | apply State.modBlock_keeps | apply State.modCtx_keeps | apply foldl_keeps | apply foldl_keeps1 | apply forN_keeps | apply iter_keeps) | split | (intro _ _ _; try dsimp only) | (intro _ _; try dsimp only) | (intro _; try dsimp only) | fail_if_no_progress (refine Keeps.ofMk rfl rfl rfl rfl rfl rfl rfl rfl ?_))

theorem spadForm_keeps {s0 : State} (x : MemArgs) (s : State) (reads store atomic : Bool) (f : Cx → State → Mask → List (Nat × Nat) → State)
    (hf : ∀ c u m oks, Keeps s0 u → Keeps s0 (f c u m oks)) (h0 : Keeps s0 s) : OKeeps s0 (spadForm x s reads store atomic f) := by
  unfold spadForm
  dsimp only
  refine State.withGuard_keeps s _ _ h0 fun c m => ?_
  split
  · exact State.splitThen_keeps _ _ _ _ (fun u hu => State.consume_keeps _ _ _ _ _ _ _ _ _ hu) (State.checkLanes_keeps _ _ _ (fun _ _ h => h) h0)
  · exact State.splitStop_keeps _ _ _ _ _ (fun u hu => hf _ _ _ _ (State.raceCheck_keeps _ _ _ _ _ _ hu)) (State.checkLanes_keeps _ _ _ (fun _ _ h => h) h0)

theorem State.logSpad_keeps {s0 : State} (s : State) (c : Cx) (vs : List (Nat × List Byte)) (h0 : Keeps s0 s) : Keeps s0 (State.logSpad s c vs) := by
  unfold State.logSpad
  try dsimp only
  repeat (first | with_reducible (first | assumption | refine Keeps.fst (by assumption) ?_ | apply OKeeps.next | apply State.log_keeps | apply foldl_keeps | apply foldl_keeps1 | apply forN_keeps | apply iter_keeps) | split | (intro _ _ _; try dsimp only) | (intro _ _; try dsimp only) | (intro _; try dsimp only) | fail_if_no_progress (refine Keeps.ofMk rfl rfl rfl rfl rfl rfl rfl rfl ?_))

theorem execLds_keeps {s0 : State} (x : MemArgs) (s : State) (h0 : Keeps s0 s) : OKeeps s0 (execLds x s) := by
  unfold execLds
  try dsimp only
  repeat (first | with_reducible (first | assumption | refine Keeps.fst (by assumption) ?_ | apply OKeeps.next | apply State.addLoad_keeps | apply State.logSpad_keeps | refine State.loggedLoad_keeps_eq (by assumption) ?_ | apply spadForm_keeps | apply foldl_keeps | apply foldl_keeps1 | apply forN_keeps | apply iter_keeps) | split | (intro _ _ _; try dsimp only) | (intro _ _; try dsimp only) | (intro _; try dsimp only) | fail_if_no_progress (refine Keeps.ofMk rfl rfl rfl rfl rfl rfl rfl rfl ?_))

theorem execSts_keeps {s0 : State} (x : MemArgs) (s : State) (h0 : Keeps s0 s) : OKeeps s0 (execSts x s) := by
  unfold execSts
  try dsimp only
  repeat (first | with_reducible (first | assumption | refine Keeps.fst (by assumption) ?_ | apply OKeeps.next | apply State.modBlock_keeps | apply spadForm_keeps | apply foldl_keeps | apply foldl_keeps1 | apply forN_keeps | apply iter_keeps) | split | (intro _ _ _; try dsimp only) | (intro _ _; try dsimp only) | (intro _; try dsimp only) | fail_if_no_progress (refine Keeps.ofMk rfl rfl rfl rfl rfl rfl rfl rfl ?_))

theorem execAtoms_keeps {s0 : State} (x : MemArgs) (s : State) (h0 : Keeps s0 s) : OKeeps s0 (execAtoms x s) := by
  unfold execAtoms
  try dsimp only
  repeat (first | with_reducible (first | assumption | refine Keeps.fst (by assumption) ?_ | apply OKeeps.next | apply State.addLoad_keeps | apply State.logSpad_keeps | refine State.loggedLoad_keeps_eq (by assumption) ?_ | apply State.modBlock_keeps | apply spadForm_keeps | apply foldl_keeps | apply foldl_keeps1 | apply forN_keeps | apply iter_keeps) | split | (intro _ _ _; try dsimp only) | (intro _ _; try dsimp only) | (intro _; try dsimp only) | fail_if_no_progress (refine Keeps.ofMk rfl rfl rfl rfl rfl rfl rfl rfl ?_))

theorem execLdw_keeps {s0 : State} (x : MemArgs) (s : State) (h0 : Keeps s0 s) : OKeeps s0 (execLdw x s) := by
  unfold execLdw
  try dsimp only
  repeat (first | with_reducible (first | assumption | refine Keeps.fst (by assumption) ?_ | apply OKeeps.next | apply State.addLoad_keeps | apply State.checkLanes_keeps | refine State.loggedLoad_keeps_eq (by assumption) ?_ | apply State.perform_keeps | apply State.sound_keeps | apply State.splitThen_keeps | apply State.withGuardN_keeps | apply foldl_keeps | apply foldl_keeps1 | apply forN_keeps | apply iter_keeps) | split | (intro _ _ _; try dsimp only) | (intro _ _; try dsimp only) | (intro _; try dsimp only) | fail_if_no_progress (refine Keeps.ofMk rfl rfl rfl rfl rfl rfl rfl rfl ?_))

theorem execStw_keeps {s0 : State} (x : MemArgs) (s : State) (h0 : Keeps s0 s) : OKeeps s0 (execStw x s) := by
  unfold execStw
  try dsimp only
  repeat (first | with_reducible (first | assumption | refine Keeps.fst (by assumption) ?_ | apply OKeeps.next | apply State.addStore_keeps | apply State.checkLanes_keeps | apply State.sound_keeps | apply State.splitThen_keeps | apply State.winStore_keeps | apply State.withGuardN_keeps | apply foldl_keeps | apply foldl_keeps1 | apply forN_keeps | apply iter_keeps) | split | (intro _ _ _; try dsimp only) | (intro _ _; try dsimp only) | (intro _; try dsimp only) | fail_if_no_progress (refine Keeps.ofMk rfl rfl rfl rfl rfl rfl rfl rfl ?_))

theorem execFence_keeps {s0 : State} (x : MemArgs) (s : State) (h0 : Keeps s0 s) : OKeeps s0 (execFence x s) := by
  unfold execFence
  try dsimp only
  repeat (first | with_reducible (first | assumption | refine Keeps.fst (by assumption) ?_ | apply OKeeps.next | apply State.acquire_keeps | apply State.performTo_keeps | apply State.release_keeps | apply State.withGuard_keeps | apply foldl_keeps | apply foldl_keeps1 | apply forN_keeps | apply iter_keeps) | split | (intro _ _ _; try dsimp only) | (intro _ _; try dsimp only) | (intro _; try dsimp only) | fail_if_no_progress (refine Keeps.ofMk rfl rfl rfl rfl rfl rfl rfl rfl ?_))

theorem execPref_keeps {s0 : State} (x : MemArgs) (s : State) (h0 : Keeps s0 s) : OKeeps s0 (execPref x s) := by
  unfold execPref
  try dsimp only
  repeat (first | with_reducible (first | assumption | refine Keeps.fst (by assumption) ?_ | apply OKeeps.next | apply State.bringAcc_keeps | apply State.checkPage_keeps | apply State.fillLine_keeps | apply State.withGuardN_keeps | apply foldl_keeps | apply foldl_keeps1 | apply forN_keeps | apply iter_keeps) | split | (intro _ _ _; try dsimp only) | (intro _ _; try dsimp only) | (intro _; try dsimp only) | fail_if_no_progress (refine Keeps.ofMk rfl rfl rfl rfl rfl rfl rfl rfl ?_))

theorem execL1inv_keeps {s0 : State} (x : MemArgs) (s : State) (h0 : Keeps s0 s) : OKeeps s0 (execL1inv x s) := by
  unfold execL1inv
  try dsimp only
  repeat (first | with_reducible (first | assumption | refine Keeps.fst (by assumption) ?_ | apply OKeeps.next | apply State.dropL1_keeps | apply State.withGuardN_keeps | apply foldl_keeps | apply foldl_keeps1 | apply forN_keeps | apply iter_keeps) | split | (intro _ _ _; try dsimp only) | (intro _ _; try dsimp only) | (intro _; try dsimp only) | fail_if_no_progress (refine Keeps.ofMk rfl rfl rfl rfl rfl rfl rfl rfl ?_))

theorem State.loadPoison_keeps {s0 : State} (s : State) (b : Block) (wi : Nat) (ld : PLoad) (code addr : Nat) (h0 : Keeps s0 s) : Keeps s0 (State.loadPoison s b wi ld code addr) := by
  unfold State.loadPoison
  try dsimp only
  repeat (first | with_reducible (first | assumption | refine Keeps.fst (by assumption) ?_ | apply OKeeps.next | apply State.hold_keeps | apply State.methodFault_keeps | apply State.modLoad_keeps | apply foldl_keeps | apply foldl_keeps1 | apply forN_keeps | apply iter_keeps) | split | (intro _ _ _; try dsimp only) | (intro _ _; try dsimp only) | (intro _; try dsimp only) | fail_if_no_progress (refine Keeps.ofMk rfl rfl rfl rfl rfl rfl rfl rfl ?_))

theorem execLoadComplete_keeps {s0 : State} (b w k : Nat) (s : State) (h0 : Keeps s0 s) : OKeeps s0 (execLoadComplete b w k s) := by
  unfold execLoadComplete
  try dsimp only
  repeat (first | with_reducible (first | assumption | refine Keeps.fst (by assumption) ?_ | apply OKeeps.next | apply State.loadPoison_keeps | apply State.log_keeps | apply State.modWarp_keeps | apply State.perform_keeps | apply foldl_keeps | apply foldl_keeps1 | apply forN_keeps | apply iter_keeps) | split | (intro _ _ _; try dsimp only) | (intro _ _; try dsimp only) | (intro _; try dsimp only) | fail_if_no_progress (refine Keeps.ofMk rfl rfl rfl rfl rfl rfl rfl rfl ?_))

theorem execStoreAck_keeps {s0 : State} (b w k : Nat) (s : State) (h0 : Keeps s0 s) : OKeeps s0 (execStoreAck b w k s) := by
  unfold execStoreAck
  try dsimp only
  repeat (first | with_reducible (first | assumption | refine Keeps.fst (by assumption) ?_ | apply OKeeps.next | apply State.ackStore_keeps | apply foldl_keeps | apply foldl_keeps1 | apply forN_keeps | apply iter_keeps) | split | (intro _ _ _; try dsimp only) | (intro _ _; try dsimp only) | (intro _; try dsimp only) | fail_if_no_progress (refine Keeps.ofMk rfl rfl rfl rfl rfl rfl rfl rfl ?_))

theorem State.fetchWord_keeps {s0 : State} (s : State) (core c die va : Nat) (h0 : Keeps s0 s) : Keeps s0 (State.fetchWord s core c die va).1 := by
  unfold State.fetchWord
  try dsimp only
  repeat (first | with_reducible (first | assumption | refine Keeps.fst (by assumption) ?_ | apply OKeeps.next | apply State.checkPage_keeps | apply State.l2Line_keeps | apply State.modCore_keeps | apply foldl_keeps | apply foldl_keeps1 | apply forN_keeps | apply iter_keeps) | split | (intro _ _ _; try dsimp only) | (intro _ _; try dsimp only) | (intro _; try dsimp only) | fail_if_no_progress (refine Keeps.ofMk rfl rfl rfl rfl rfl rfl rfl rfl ?_))

theorem State.fetchWords_keeps {s0 : State} (s : State) (core c die va n : Nat) (h0 : Keeps s0 s) :
    Keeps s0 (s.fetchWords core c die va n).1 := by
  induction n generalizing s va with
  | zero => exact h0
  | succ n ih =>
    unfold State.fetchWords
    repeat (first | with_reducible assumption | with_reducible refine Keeps.fst (by assumption) ?_ | with_reducible apply State.fetchWord_keeps | with_reducible apply ih | split)

theorem State.fetchClause_keeps {s0 : State} (s : State) (core c die va : Nat) (h0 : Keeps s0 s) : Keeps s0 (State.fetchClause s core c die va).1 := by
  unfold State.fetchClause
  try dsimp only
  repeat (first | with_reducible (first | assumption | refine Keeps.fst (by assumption) ?_ | apply OKeeps.next | apply State.fetchWord_keeps | apply State.fetchWords_keeps | apply foldl_keeps | apply foldl_keeps1 | apply forN_keeps | apply iter_keeps) | split | (intro _ _ _; try dsimp only) | (intro _ _; try dsimp only) | (intro _; try dsimp only) | fail_if_no_progress (refine Keeps.ofMk rfl rfl rfl rfl rfl rfl rfl rfl ?_))

theorem State.landOk_keeps {s0 : State} (s : State) (core c die va : Nat) (h0 : Keeps s0 s) : Keeps s0 (State.landOk s core c die va).1 := by
  unfold State.landOk
  try dsimp only
  repeat (first | with_reducible (first | assumption | refine Keeps.fst (by assumption) ?_ | apply OKeeps.next | apply State.checkPage_keeps | apply State.fetchWord_keeps | apply foldl_keeps | apply foldl_keeps1 | apply forN_keeps | apply iter_keeps) | split | (intro _ _ _; try dsimp only) | (intro _ _; try dsimp only) | (intro _; try dsimp only) | fail_if_no_progress (refine Keeps.ofMk rfl rfl rfl rfl rfl rfl rfl rfl ?_))

theorem State.traceWrite_keeps_eq {s0 s : State} {b : Block} {bs : List Byte} {u : State} (e : s.traceWrite b bs = some u) (h0 : Keeps s0 s) :
    Keeps s0 u := by
  unfold State.traceWrite at e
  dsimp only at e
  split at e
  · cases e
  · split at e
    · cases e
    · split at e
      · cases e
      · rename_i t1 h1 _ t2 h2
        injection e with e
        subst e
        have k1 : Keeps s0 t1 := Keeps.fst h1 (State.devWrite_keeps _ _ _ _ _ h0)
        refine State.modCtx_keeps _ _ _ (Keeps.fst h2 ?_)
        split
        · exact k1
        · exact State.devWrite_keeps _ _ _ _ _ k1

theorem State.modTrace_keeps {s0 : State} (s : State) (c : Nat) (f : Trace → Trace) (h0 : Keeps s0 s) : Keeps s0 (State.modTrace s c f) := by
  unfold State.modTrace
  try dsimp only
  repeat (first | with_reducible (first | assumption | refine Keeps.fst (by assumption) ?_ | apply OKeeps.next | apply State.modCtx_keeps | apply foldl_keeps | apply foldl_keeps1 | apply forN_keeps | apply iter_keeps) | split | (intro _ _ _; try dsimp only) | (intro _ _; try dsimp only) | (intro _; try dsimp only) | fail_if_no_progress (refine Keeps.ofMk rfl rfl rfl rfl rfl rfl rfl rfl ?_))

theorem State.writeBlock_keeps_eq {s0 s : State} {b : Block} {u : State} (e : s.writeBlock b = some u) (h0 : Keeps s0 s) : Keeps s0 u := by
  have once : ∀ {v w : State}, (v.traceWrite b (blockPacket v b)).map (fun s => s.modTrace b.ctx fun x => { x with last := some b.key }) = some w →
      Keeps s0 v → Keeps s0 w := fun h k => by
    obtain ⟨x, hx, rfl⟩ := Option.map_eq_some_iff.mp h
    exact State.modTrace_keeps _ _ _ (State.traceWrite_keeps_eq hx k)
  unfold State.writeBlock at e
  obtain ⟨t, ht, e⟩ := Option.bind_eq_some_iff.mp e
  have kt := once ht h0
  split at e
  · injection e with e
    subst e
    exact kt
  · exact once e kt

theorem State.syncFrag_keeps_eq {s0 s : State} {b : Block} {wi f : Nat} {pc : DWord} {u : State} (e : s.syncFrag b wi f pc = some u)
    (h0 : Keeps s0 s) : Keeps s0 u := by
  unfold State.syncFrag at e
  obtain ⟨t, ht, e⟩ := Option.bind_eq_some_iff.mp e
  have kt : Keeps s0 t := by
    split at ht
    · injection ht with ht
      subst ht
      exact h0
    · exact State.writeBlock_keeps_eq ht h0
  split at e
  · injection e with e
    subst e
    exact kt
  · exact State.traceWrite_keeps_eq e (State.modTrace_keeps _ _ _ kt)

theorem State.emitAll_keeps_eq {s0 s : State} {b : Block} {wi f : Nat} {pc : DWord} {pkt : List Byte} {u : State}
    (e : s.emitAll b wi f pc pkt = some u) (h0 : Keeps s0 s) : Keeps s0 u := by
  unfold State.emitAll at e
  obtain ⟨t, ht, e⟩ := Option.bind_eq_some_iff.mp e
  have kt : Keeps s0 t := by
    split at ht
    · injection ht with ht
      subst ht
      exact h0
    · obtain ⟨v, hv, rfl⟩ := Option.map_eq_some_iff.mp ht
      exact State.modTrace_keeps _ _ _ (State.traceWrite_keeps_eq hv h0)
  obtain ⟨v, hv, e⟩ := Option.bind_eq_some_iff.mp e
  obtain ⟨w, hw, e⟩ := Option.bind_eq_some_iff.mp e
  exact State.traceWrite_keeps_eq e (State.syncFrag_keeps_eq hw (State.syncFrag_keeps_eq hv kt))

theorem State.emit_keeps {s0 : State} (s : State) (b : Block) (wi f : Nat) (pc : DWord) (pkt : List Byte) (h0 : Keeps s0 s) : Keeps s0 (State.emit s b wi f pc pkt) := by
  unfold State.emit
  try dsimp only
  repeat (first | with_reducible (first | assumption | refine Keeps.fst (by assumption) ?_ | apply OKeeps.next | refine State.emitAll_keeps_eq (by assumption) ?_ | apply State.modTrace_keeps | apply foldl_keeps | apply foldl_keeps1 | apply forN_keeps | apply iter_keeps) | split | (intro _ _ _; try dsimp only) | (intro _ _; try dsimp only) | (intro _; try dsimp only) | fail_if_no_progress (refine Keeps.ofMk rfl rfl rfl rfl rfl rfl rfl rfl ?_))

theorem State.traceTargets_keeps {s0 : State} (s : State) (c : Cx) (m : Mask) (t : Nat → DWord) (h0 : Keeps s0 s) : Keeps s0 (State.traceTargets s c m t) := by
  unfold State.traceTargets
  try dsimp only
  repeat (first | with_reducible (first | assumption | refine Keeps.fst (by assumption) ?_ | apply OKeeps.next | apply State.emit_keeps | apply foldl_keeps | apply foldl_keeps1 | apply forN_keeps | apply iter_keeps) | split | (intro _ _ _; try dsimp only) | (intro _ _; try dsimp only) | (intro _; try dsimp only) | fail_if_no_progress (refine Keeps.ofMk rfl rfl rfl rfl rfl rfl rfl rfl ?_))

theorem State.goTo_keeps {s0 : State} (s : State) (c : Cx) (m : Mask) (t : Nat → DWord) (h0 : Keeps s0 s) : Keeps s0 (State.goTo s c m t) := by
  unfold State.goTo
  try dsimp only
  repeat (first | with_reducible (first | assumption | refine Keeps.fst (by assumption) ?_ | apply OKeeps.next | apply State.leave_keeps | apply State.modMask_keeps | apply State.syncHelpers_keeps | apply State.traceTargets_keeps | apply foldl_keeps | apply foldl_keeps1 | apply forN_keeps | apply iter_keeps) | split | (intro _ _ _; try dsimp only) | (intro _ _; try dsimp only) | (intro _; try dsimp only) | fail_if_no_progress (refine Keeps.ofMk rfl rfl rfl rfl rfl rfl rfl rfl ?_))

theorem State.badTargets_keeps {s0 : State} (s : State) (c : Cx) (m : Mask) (t : Nat → DWord) (h0 : Keeps s0 s) : Keeps s0 (State.badTargets s c m t).1 := by
  unfold State.badTargets
  try dsimp only
  repeat (first | with_reducible (first | assumption | refine Keeps.fst (by assumption) ?_ | apply OKeeps.next | apply State.landOk_keeps | apply foldl_keeps | apply foldl_keeps1 | apply forN_keeps | apply iter_keeps) | split | (intro _ _ _; try dsimp only) | (intro _ _; try dsimp only) | (intro _; try dsimp only) | fail_if_no_progress (refine Keeps.ofMk rfl rfl rfl rfl rfl rfl rfl rfl ?_))

theorem execBra_keeps {s0 : State} (g : Guard) (off : BitVec 22) (s : State) (h0 : Keeps s0 s) : OKeeps s0 (execBra g off s) := by
  unfold execBra
  try dsimp only
  repeat (first | with_reducible (first | assumption | refine Keeps.fst (by assumption) ?_ | apply OKeeps.next | apply State.goTo_keeps | apply State.withGuard_keeps | apply foldl_keeps | apply foldl_keeps1 | apply forN_keeps | apply iter_keeps) | split | (intro _ _ _; try dsimp only) | (intro _ _; try dsimp only) | (intro _; try dsimp only) | fail_if_no_progress (refine Keeps.ofMk rfl rfl rfl rfl rfl rfl rfl rfl ?_))

theorem execJmpi_keeps {s0 : State} (g : Guard) (a : Src) (s : State) (h0 : Keeps s0 s) : OKeeps s0 (execJmpi g a s) := by
  unfold execJmpi
  try dsimp only
  repeat (first | with_reducible (first | assumption | refine Keeps.fst (by assumption) ?_ | apply OKeeps.next | apply State.badTargets_keeps | apply State.goTo_keeps | apply State.splitThen_keeps | apply State.withGuard_keeps | apply foldl_keeps | apply foldl_keeps1 | apply forN_keeps | apply iter_keeps) | split | (intro _ _ _; try dsimp only) | (intro _ _; try dsimp only) | (intro _; try dsimp only) | fail_if_no_progress (refine Keeps.ofMk rfl rfl rfl rfl rfl rfl rfl rfl ?_))

theorem execCsw_keeps {s0 : State} (g : Guard) (a : Src) (s : State) (h0 : Keeps s0 s) : OKeeps s0 (execCsw g a s) := by
  unfold execCsw
  try dsimp only
  repeat (first | with_reducible (first | assumption | refine Keeps.fst (by assumption) ?_ | apply OKeeps.next | apply State.badTargets_keeps | apply State.go_keeps | apply State.goTo_keeps | apply State.modMask_keeps | apply State.splitThen_keeps | apply State.withGuard_keeps | apply foldl_keeps | apply foldl_keeps1 | apply forN_keeps | apply iter_keeps) | split | (intro _ _ _; try dsimp only) | (intro _ _; try dsimp only) | (intro _; try dsimp only) | fail_if_no_progress (refine Keeps.ofMk rfl rfl rfl rfl rfl rfl rfl rfl ?_))

theorem execExitI_keeps {s0 : State} (g : Guard) (s : State) (h0 : Keeps s0 s) : OKeeps s0 (execExitI g s) := by
  unfold execExitI
  try dsimp only
  repeat (first | with_reducible (first | assumption | refine Keeps.fst (by assumption) ?_ | apply OKeeps.next | apply State.exitThreads_keeps | apply State.settle_keeps | apply State.withGuard_keeps | apply foldl_keeps | apply foldl_keeps1 | apply forN_keeps | apply iter_keeps) | split | (intro _ _ _; try dsimp only) | (intro _ _; try dsimp only) | (intro _; try dsimp only) | fail_if_no_progress (refine Keeps.ofMk rfl rfl rfl rfl rfl rfl rfl rfl ?_))

theorem execBset_keeps {s0 : State} (g : Guard) (bn : BitVec 4) (s : State) (h0 : Keeps s0 s) : OKeeps s0 (execBset g bn s) := by
  unfold execBset
  try dsimp only
  repeat (first | with_reducible (first | assumption | refine Keeps.fst (by assumption) ?_ | apply OKeeps.next | apply State.modMask_keeps | apply State.modWarp_keeps | apply State.release_keeps | apply State.settle_keeps | apply State.timedPair_keeps | apply State.withCx_keeps | apply foldl_keeps | apply foldl_keeps1 | apply forN_keeps | apply iter_keeps) | split | (intro _ _ _; try dsimp only) | (intro _ _; try dsimp only) | (intro _; try dsimp only) | fail_if_no_progress (refine Keeps.ofMk rfl rfl rfl rfl rfl rfl rfl rfl ?_))

theorem State.bwaitOn_keeps {s0 : State} (s : State) (c : Cx) (m : Mask) (n : Nat) (wt : Wait) (h0 : Keeps s0 s) : Keeps s0 (State.bwaitOn s c m n wt) := by
  unfold State.bwaitOn
  try dsimp only
  repeat (first | with_reducible (first | assumption | refine Keeps.fst (by assumption) ?_ | apply OKeeps.next | apply State.go_keeps | apply State.modWarp_keeps | apply State.release_keeps | apply State.settle_keeps | apply State.startWait_keeps | apply foldl_keeps | apply foldl_keeps1 | apply forN_keeps | apply iter_keeps) | split | (intro _ _ _; try dsimp only) | (intro _ _; try dsimp only) | (intro _; try dsimp only) | fail_if_no_progress (refine Keeps.ofMk rfl rfl rfl rfl rfl rfl rfl rfl ?_))

theorem execBwait_keeps {s0 : State} (g : Guard) (bn : BitVec 4) (s : State) (h0 : Keeps s0 s) : OKeeps s0 (execBwait g bn s) := by
  unfold execBwait
  try dsimp only
  repeat (first | with_reducible (first | assumption | refine Keeps.fst (by assumption) ?_ | apply OKeeps.next | apply State.bwaitOn_keeps | apply State.withGuard_keeps | apply foldl_keeps | apply foldl_keeps1 | apply forN_keeps | apply iter_keeps) | split | (intro _ _ _; try dsimp only) | (intro _ _; try dsimp only) | (intro _; try dsimp only) | fail_if_no_progress (refine Keeps.ofMk rfl rfl rfl rfl rfl rfl rfl rfl ?_))

theorem execBwaitTimed_keeps {s0 : State} (g : Guard) (bn : BitVec 4) (pp : BitVec 4) (count : Word) (s : State) (h0 : Keeps s0 s) : OKeeps s0 (execBwaitTimed g bn pp count s) := by
  unfold execBwaitTimed
  try dsimp only
  repeat (first | with_reducible (first | assumption | refine Keeps.fst (by assumption) ?_ | apply OKeeps.next | apply State.bwaitOn_keeps | apply State.withGuard_keeps | apply foldl_keeps | apply foldl_keeps1 | apply forN_keeps | apply iter_keeps) | split | (intro _ _ _; try dsimp only) | (intro _ _; try dsimp only) | (intro _; try dsimp only) | fail_if_no_progress (refine Keeps.ofMk rfl rfl rfl rfl rfl rfl rfl rfl ?_))

theorem execBclr_keeps {s0 : State} (g : Guard) (bn : BitVec 4) (s : State) (h0 : Keeps s0 s) : OKeeps s0 (execBclr g bn s) := by
  unfold execBclr
  try dsimp only
  repeat (first | with_reducible (first | assumption | refine Keeps.fst (by assumption) ?_ | apply OKeeps.next | apply State.modWarp_keeps | apply State.settle_keeps | apply State.withGuard_keeps | apply foldl_keeps | apply foldl_keeps1 | apply forN_keeps | apply iter_keeps) | split | (intro _ _ _; try dsimp only) | (intro _ _; try dsimp only) | (intro _; try dsimp only) | fail_if_no_progress (refine Keeps.ofMk rfl rfl rfl rfl rfl rfl rfl rfl ?_))

theorem State.expire_keeps {s0 : State} (s : State) (bk wi n : Nat) (m : Mask) (h0 : Keeps s0 s) : Keeps s0 (State.expire s bk wi n m) := by
  unfold State.expire
  try dsimp only
  repeat (first | with_reducible (first | assumption | refine Keeps.fst (by assumption) ?_ | apply OKeeps.next | apply State.log_keeps | apply State.modMask_keeps | apply State.modWarp_keeps | apply State.release_keeps | apply State.timedPair_keeps | apply foldl_keeps | apply foldl_keeps1 | apply forN_keeps | apply iter_keeps) | split | (intro _ _ _; try dsimp only) | (intro _ _; try dsimp only) | (intro _; try dsimp only) | fail_if_no_progress (refine Keeps.ofMk rfl rfl rfl rfl rfl rfl rfl rfl ?_))

theorem execBwaitTimeout_keeps {s0 : State} (b w : Nat) (s : State) (h0 : Keeps s0 s) : OKeeps s0 (execBwaitTimeout b w s) := by
  unfold execBwaitTimeout
  try dsimp only
  repeat (first | with_reducible (first | assumption | refine Keeps.fst (by assumption) ?_ | apply OKeeps.next | apply State.expire_keeps | apply State.settle_keeps | apply foldl_keeps | apply foldl_keeps1 | apply forN_keeps | apply iter_keeps) | split | (intro _ _ _; try dsimp only) | (intro _ _; try dsimp only) | (intro _; try dsimp only) | fail_if_no_progress (refine Keeps.ofMk rfl rfl rfl rfl rfl rfl rfl rfl ?_))

theorem State.arriveBar_keeps {s0 : State} (s : State) (c : Cx) (m : Mask) (i : Nat) (h0 : Keeps s0 s) : Keeps s0 (State.arriveBar s c m i) := by
  unfold State.arriveBar
  try dsimp only
  repeat (first | with_reducible (first | assumption | refine Keeps.fst (by assumption) ?_ | apply OKeeps.next | apply State.modBlock_keeps | apply State.release_keeps | apply foldl_keeps | apply foldl_keeps1 | apply forN_keeps | apply iter_keeps) | split | (intro _ _ _; try dsimp only) | (intro _ _; try dsimp only) | (intro _; try dsimp only) | fail_if_no_progress (refine Keeps.ofMk rfl rfl rfl rfl rfl rfl rfl rfl ?_))

theorem State.arriveCbar_keeps {s0 : State} (s : State) (c : Cx) (m : Mask) (j : Nat) (h0 : Keeps s0 s) : Keeps s0 (State.arriveCbar s c m j) := by
  unfold State.arriveCbar
  try dsimp only
  repeat (first | with_reducible (first | assumption | refine Keeps.fst (by assumption) ?_ | apply OKeeps.next | apply State.modBlock_keeps | apply State.release_keeps | apply foldl_keeps | apply foldl_keeps1 | apply forN_keeps | apply iter_keeps) | split | (intro _ _ _; try dsimp only) | (intro _ _; try dsimp only) | (intro _; try dsimp only) | fail_if_no_progress (refine Keeps.ofMk rfl rfl rfl rfl rfl rfl rfl rfl ?_))

theorem execBar_keeps {s0 : State} (g : Guard) (id : BitVec 4) (s : State) (h0 : Keeps s0 s) : OKeeps s0 (execBar g id s) := by
  unfold execBar
  try dsimp only
  repeat (first | with_reducible (first | assumption | refine Keeps.fst (by assumption) ?_ | apply OKeeps.next | apply State.arriveBar_keeps | apply State.go_keeps | apply State.settle_keeps | apply State.startWait_keeps | apply State.withGuardN_keeps | apply foldl_keeps | apply foldl_keeps1 | apply forN_keeps | apply iter_keeps) | split | (intro _ _ _; try dsimp only) | (intro _ _; try dsimp only) | (intro _; try dsimp only) | fail_if_no_progress (refine Keeps.ofMk rfl rfl rfl rfl rfl rfl rfl rfl ?_))

theorem execBarArv_keeps {s0 : State} (g : Guard) (id : BitVec 4) (s : State) (h0 : Keeps s0 s) : OKeeps s0 (execBarArv g id s) := by
  unfold execBarArv
  try dsimp only
  repeat (first | with_reducible (first | assumption | refine Keeps.fst (by assumption) ?_ | apply OKeeps.next | apply State.arriveBar_keeps | apply State.settle_keeps | apply State.withGuardN_keeps | apply foldl_keeps | apply foldl_keeps1 | apply forN_keeps | apply iter_keeps) | split | (intro _ _ _; try dsimp only) | (intro _ _; try dsimp only) | (intro _; try dsimp only) | fail_if_no_progress (refine Keeps.ofMk rfl rfl rfl rfl rfl rfl rfl rfl ?_))

theorem execCbar_keeps {s0 : State} (g : Guard) (id : BitVec 3) (s : State) (h0 : Keeps s0 s) : OKeeps s0 (execCbar g id s) := by
  unfold execCbar
  try dsimp only
  repeat (first | with_reducible (first | assumption | refine Keeps.fst (by assumption) ?_ | apply OKeeps.next | apply State.arriveCbar_keeps | apply State.go_keeps | apply State.settle_keeps | apply State.startWait_keeps | apply State.withGuardN_keeps | apply foldl_keeps | apply foldl_keeps1 | apply forN_keeps | apply iter_keeps) | split | (intro _ _ _; try dsimp only) | (intro _ _; try dsimp only) | (intro _; try dsimp only) | fail_if_no_progress (refine Keeps.ofMk rfl rfl rfl rfl rfl rfl rfl rfl ?_))

theorem execCbarArv_keeps {s0 : State} (g : Guard) (id : BitVec 3) (s : State) (h0 : Keeps s0 s) : OKeeps s0 (execCbarArv g id s) := by
  unfold execCbarArv
  try dsimp only
  repeat (first | with_reducible (first | assumption | refine Keeps.fst (by assumption) ?_ | apply OKeeps.next | apply State.arriveCbar_keeps | apply State.settle_keeps | apply State.withGuardN_keeps | apply foldl_keeps | apply foldl_keeps1 | apply forN_keeps | apply iter_keeps) | split | (intro _ _ _; try dsimp only) | (intro _ _; try dsimp only) | (intro _; try dsimp only) | fail_if_no_progress (refine Keeps.ofMk rfl rfl rfl rfl rfl rfl rfl rfl ?_))

theorem State.releaseIf_keeps {s0 : State} (s : State) (bk wi : Nat) (p : Wait → Bool) (h0 : Keeps s0 s) : Keeps s0 (State.releaseIf s bk wi p) := by
  unfold State.releaseIf
  try dsimp only
  repeat (first | with_reducible (first | assumption | refine Keeps.fst (by assumption) ?_ | apply OKeeps.next | apply State.modWarp_keeps | apply State.release_keeps | apply State.syncHelpers_keeps | apply foldl_keeps | apply foldl_keeps1 | apply forN_keeps | apply iter_keeps) | split | (intro _ _ _; try dsimp only) | (intro _ _; try dsimp only) | (intro _; try dsimp only) | fail_if_no_progress (refine Keeps.ofMk rfl rfl rfl rfl rfl rfl rfl rfl ?_))

theorem State.waitHere_keeps {s0 : State} (s : State) (c : Cx) (m : Mask) (wt : Wait) (h0 : Keeps s0 s) : Keeps s0 (State.waitHere s c m wt) := by
  unfold State.waitHere
  try dsimp only
  repeat (first | with_reducible (first | assumption | refine Keeps.fst (by assumption) ?_ | apply OKeeps.next | apply State.startWait_keeps | apply State.syncHelpers_keeps | apply foldl_keeps | apply foldl_keeps1 | apply forN_keeps | apply iter_keeps) | split | (intro _ _ _; try dsimp only) | (intro _ _; try dsimp only) | (intro _; try dsimp only) | fail_if_no_progress (refine Keeps.ofMk rfl rfl rfl rfl rfl rfl rfl rfl ?_))

theorem State.waitUnless_keeps {s0 : State} (s : State) (c : Cx) (m : Mask) (wt : Wait) (pass : Option State)
    (hp : ∀ t, pass = some t → Keeps s0 t) (h0 : Keeps s0 s) : Keeps s0 (State.waitUnless s c m wt pass) := by
  unfold State.waitUnless
  split
  · exact State.waitHere_keeps _ _ _ _ (State.waitLogged_keeps_eq (by assumption) h0)
  · split
    · exact h0
    · split
      · exact hp _ rfl
      · exact State.waitHere_keeps _ _ _ _ (State.logWait_keeps _ _ h0)

theorem State.twaitOn_keeps {s0 : State} (s : State) (c : Cx) (m : Mask) (k n : Nat) (h0 : Keeps s0 s) : Keeps s0 (State.twaitOn s c m k n) := by
  unfold State.twaitOn
  refine State.waitUnless_keeps _ _ _ _ _ (fun t ht => ?_) h0
  split at ht
  · injection ht with ht
    subst ht
    exact State.acquire_keeps _ _ _ h0
  · cases ht

theorem execTwait_keeps {s0 : State} (g : Guard) (ec : BitVec 3) (n : Src) (s : State) (h0 : Keeps s0 s) : OKeeps s0 (execTwait g ec n s) := by
  unfold execTwait
  try dsimp only
  repeat (first | with_reducible (first | assumption | refine Keeps.fst (by assumption) ?_ | apply OKeeps.next | apply State.twaitOn_keeps | apply State.withGuardN_keeps | apply foldl_keeps | apply foldl_keeps1 | apply forN_keeps | apply iter_keeps) | split | (intro _ _ _; try dsimp only) | (intro _ _; try dsimp only) | (intro _; try dsimp only) | fail_if_no_progress (refine Keeps.ofMk rfl rfl rfl rfl rfl rfl rfl rfl ?_))

theorem execTwaitImm_keeps {s0 : State} (g : Guard) (ec : BitVec 3) (val : Word) (s : State) (h0 : Keeps s0 s) : OKeeps s0 (execTwaitImm g ec val s) := by
  unfold execTwaitImm
  try dsimp only
  repeat (first | with_reducible (first | assumption | refine Keeps.fst (by assumption) ?_ | apply OKeeps.next | apply State.twaitOn_keeps | apply State.withGuardN_keeps | apply foldl_keeps | apply foldl_keeps1 | apply forN_keeps | apply iter_keeps) | split | (intro _ _ _; try dsimp only) | (intro _ _; try dsimp only) | (intro _; try dsimp only) | fail_if_no_progress (refine Keeps.ofMk rfl rfl rfl rfl rfl rfl rfl rfl ?_))

theorem State.watchRead_keeps {s0 : State} (s : State) (b : Block) (a n key : Nat) (h0 : Keeps s0 s) : Keeps s0 (State.watchRead s b a n key).1 := by
  unfold State.watchRead
  try dsimp only
  repeat (first | with_reducible (first | assumption | refine Keeps.fst (by assumption) ?_ | apply OKeeps.next | apply State.dropL1_keeps | apply State.flushOverlap_keeps | apply State.l2Line_keeps | apply foldl_keeps | apply foldl_keeps1 | apply forN_keeps | apply iter_keeps) | split | (intro _ _ _; try dsimp only) | (intro _ _; try dsimp only) | (intro _; try dsimp only) | fail_if_no_progress (refine Keeps.ofMk rfl rfl rfl rfl rfl rfl rfl rfl ?_))

theorem State.forceWord_keeps {s0 : State} (s : State) (c : Cx) (m : Mask) (a n : Nat) (h0 : Keeps s0 s) : Keeps s0 (State.forceWord s c m a n) := by
  unfold State.forceWord
  try dsimp only
  repeat (first | with_reducible (first | assumption | refine Keeps.fst (by assumption) ?_ | apply OKeeps.next | apply State.forceLoads_keeps | apply foldl_keeps | apply foldl_keeps1 | apply forN_keeps | apply iter_keeps) | split | (intro _ _ _; try dsimp only) | (intro _ _; try dsimp only) | (intro _; try dsimp only) | fail_if_no_progress (refine Keeps.ofMk rfl rfl rfl rfl rfl rfl rfl rfl ?_))

theorem execWaitw_keeps {s0 : State} (x : WaitwArgs) (s : State) (h0 : Keeps s0 s) : OKeeps s0 (execWaitw x s) := by
  unfold execWaitw
  try dsimp only
  repeat (first | with_reducible (first | assumption | refine Keeps.fst (by assumption) ?_ | apply OKeeps.next | apply State.acquire_keeps | apply State.checkGlobal_keeps | apply State.consume_keeps | apply State.forceWord_keeps | apply State.go_keeps | apply State.laneTrap_keeps | apply State.log_keeps | apply State.logWait_keeps | apply State.waitHere_keeps | refine State.waitLogged_keeps_eq (by assumption) ?_ | apply State.watchRead_keeps | apply State.withGuardN_keeps | apply foldl_keeps | apply foldl_keeps1 | apply forN_keeps | apply iter_keeps) | split | (intro _ _ _; try dsimp only) | (intro _ _; try dsimp only) | (intro _; try dsimp only) | fail_if_no_progress (refine Keeps.ofMk rfl rfl rfl rfl rfl rfl rfl rfl ?_))

theorem State.waitwNow_keeps {s0 : State} (s : State) (b : Block) (wt : Wait) (h0 : Keeps s0 s) : Keeps s0 (State.waitwNow s b wt).1 := by
  unfold State.waitwNow
  try dsimp only
  repeat (first | with_reducible (first | assumption | refine Keeps.fst (by assumption) ?_ | apply OKeeps.next | apply State.checkPage_keeps | apply State.watchRead_keeps | apply foldl_keeps | apply foldl_keeps1 | apply forN_keeps | apply iter_keeps) | split | (intro _ _ _; try dsimp only) | (intro _ _; try dsimp only) | (intro _; try dsimp only) | fail_if_no_progress (refine Keeps.ofMk rfl rfl rfl rfl rfl rfl rfl rfl ?_))

theorem execWaitwRelease_keeps {s0 : State} (b w : Nat) (s : State) (h0 : Keeps s0 s) : OKeeps s0 (execWaitwRelease b w s) := by
  unfold execWaitwRelease
  try dsimp only
  repeat (first | with_reducible (first | assumption | refine Keeps.fst (by assumption) ?_ | apply OKeeps.next | apply State.acquire_keeps | apply State.hold_keeps | apply State.log_keeps | apply State.releaseIf_keeps | apply State.waitwNow_keeps | apply foldl_keeps | apply foldl_keeps1 | apply forN_keeps | apply iter_keeps) | split | (intro _ _ _; try dsimp only) | (intro _ _; try dsimp only) | (intro _; try dsimp only) | fail_if_no_progress (refine Keeps.ofMk rfl rfl rfl rfl rfl rfl rfl rfl ?_))

theorem execWaitwPoll_keeps {s0 : State} (b w : Nat) (s : State) (h0 : Keeps s0 s) : OKeeps s0 (execWaitwPoll b w s) := by
  unfold execWaitwPoll
  try dsimp only
  repeat (first | with_reducible (first | assumption | refine Keeps.fst (by assumption) ?_ | apply OKeeps.next | apply State.dropHLines_keeps | apply State.resolve_keeps | apply execWaitwRelease_keeps | apply foldl_keeps | apply foldl_keeps1 | apply forN_keeps | apply iter_keeps) | split | (intro _ _ _; try dsimp only) | (intro _ _; try dsimp only) | (intro _; try dsimp only) | fail_if_no_progress (refine Keeps.ofMk rfl rfl rfl rfl rfl rfl rfl rfl ?_))

theorem execYieldI_keeps {s0 : State} (g : Guard) (s : State) (h0 : Keeps s0 s) : OKeeps s0 (execYieldI g s) := by
  unfold execYieldI
  try dsimp only
  repeat (first | with_reducible (first | assumption | refine Keeps.fst (by assumption) ?_ | apply OKeeps.next | apply State.modFlight_keeps | apply State.modMask_keeps | apply State.withGuard_keeps | apply foldl_keeps | apply foldl_keeps1 | apply forN_keeps | apply iter_keeps) | split | (intro _ _ _; try dsimp only) | (intro _ _; try dsimp only) | (intro _; try dsimp only) | fail_if_no_progress (refine Keeps.ofMk rfl rfl rfl rfl rfl rfl rfl rfl ?_))

theorem execNop_keeps {s0 : State} (_g : Guard) (s : State) (h0 : Keeps s0 s) : OKeeps s0 (execNop _g s) := by
  unfold execNop
  try dsimp only
  repeat (first | with_reducible (first | assumption | refine Keeps.fst (by assumption) ?_ | apply OKeeps.next | apply State.withCx_keeps | apply foldl_keeps | apply foldl_keeps1 | apply forN_keeps | apply iter_keeps) | split | (intro _ _ _; try dsimp only) | (intro _ _; try dsimp only) | (intro _; try dsimp only) | fail_if_no_progress (refine Keeps.ofMk rfl rfl rfl rfl rfl rfl rfl rfl ?_))

end Sys2Proof.Machine
end

