-- ==== Sys2Proof/Laws/KeepsEng.lean ====
section
/-! SUPPORT. `Keeps` for the operations of Eng, EngCopy, Mat. -/

set_option linter.unusedTactic false
set_option linter.unreachableTactic false

namespace Sys2Proof.Machine

theorem State.engRead_keeps {s0 : State} (s : State) (b : Block) (cmd : Cmd) (sp : Nat) (a : Int) (n : Nat) (h0 : Keeps s0 s) : Keeps s0 (State.engRead s b cmd sp a n).1 := by
  unfold State.engRead
  try dsimp only
  repeat (first | with_reducible (first | assumption | refine Keeps.fst (by assumption) ?_ | apply OKeeps.next | apply State.devRange_keeps | apply State.l2Lines_keeps | apply foldl_keeps | apply foldl_keeps1 | apply forN_keeps | apply iter_keeps) | split | (intro _ _ _; try dsimp only) | (intro _ _; try dsimp only) | (intro _; try dsimp only) | fail_if_no_progress (refine Keeps.ofMk rfl rfl rfl rfl rfl rfl rfl rfl ?_))

theorem State.dropWritten_keeps {s0 : State} (s : State) (b : Block) (va n : Nat) (h0 : Keeps s0 s) : Keeps s0 (State.dropWritten s b va n) := by
  unfold State.dropWritten
  try dsimp only
  repeat (first | with_reducible (first | assumption | refine Keeps.fst (by assumption) ?_ | apply OKeeps.next | apply State.dropL1_keeps | apply foldl_keeps | apply foldl_keeps1 | apply forN_keeps | apply iter_keeps) | split | (intro _ _ _; try dsimp only) | (intro _ _; try dsimp only) | (intro _; try dsimp only) | fail_if_no_progress (refine Keeps.ofMk rfl rfl rfl rfl rfl rfl rfl rfl ?_))

theorem State.engKeys_keeps {s0 : State} (s : State) (b : Block) (l : List (Int × List PByte)) (h0 : Keeps s0 s) :
    Keeps s0 (s.engKeys b l).1 := by
  induction l generalizing s with
  | nil => exact h0
  | cons a as ih =>
    unfold State.engKeys
    repeat (first | with_reducible (first | assumption | refine Keeps.fst (by assumption) ?_ | apply State.devRange_keeps | apply ih) | split)

theorem State.engWriteEls_keeps {s0 : State} (s : State) (b : Block) (cmd : Cmd) (sp : Nat) (es : List (Int × List PByte)) (h0 : Keeps s0 s) : Keeps s0 (State.engWriteEls s b cmd sp es).1 := by
  unfold State.engWriteEls
  try dsimp only
  repeat (first | with_reducible (first | assumption | refine Keeps.fst (by assumption) ?_ | apply OKeeps.next | apply State.dropWritten_keeps | apply State.engKeys_keeps | apply State.foreignStore_keeps | apply State.l2Write_keeps | apply State.modBlock_keeps | apply State.winStore_keeps | apply foldl_keeps | apply foldl_keeps1 | apply forN_keeps | apply iter_keeps) | split | (intro _ _ _; try dsimp only) | (intro _ _; try dsimp only) | (intro _; try dsimp only) | fail_if_no_progress (refine Keeps.ofMk rfl rfl rfl rfl rfl rfl rfl rfl ?_))

theorem State.engWrite_keeps {s0 : State} (s : State) (b : Block) (cmd : Cmd) (sp : Nat) (a : Int) (bs : List PByte) (h0 : Keeps s0 s) : Keeps s0 (State.engWrite s b cmd sp a bs).1 := by
  unfold State.engWrite
  try dsimp only
  repeat (first | with_reducible (first | assumption | refine Keeps.fst (by assumption) ?_ | apply OKeeps.next | apply State.engWriteEls_keeps | apply foldl_keeps | apply foldl_keeps1 | apply forN_keeps | apply iter_keeps) | split | (intro _ _ _; try dsimp only) | (intro _ _; try dsimp only) | (intro _; try dsimp only) | fail_if_no_progress (refine Keeps.ofMk rfl rfl rfl rfl rfl rfl rfl rfl ?_))

theorem State.engReadEls_keeps {s0 : State} (s : State) (b : Block) (cmd : Cmd) (sp w : Nat) (l : List Int) (h0 : Keeps s0 s) :
    Keeps s0 (s.engReadEls b cmd sp w l).1 := by
  induction l generalizing s with
  | nil => exact h0
  | cons a as ih =>
    unfold State.engReadEls
    repeat (first | with_reducible (first | assumption | refine Keeps.fst (by assumption) ?_ | apply State.engRead_keeps | apply ih) | split)

theorem State.giveS64_keeps {s0 : State} (s : State) (bk wi r : Nat) (v : DWord) (h0 : Keeps s0 s) : Keeps s0 (State.giveS64 s bk wi r v) := by
  unfold State.giveS64
  try dsimp only
  repeat (first | with_reducible (first | assumption | refine Keeps.fst (by assumption) ?_ | apply OKeeps.next | apply State.log_keeps | apply State.modWarp_keeps | apply foldl_keeps | apply foldl_keeps1 | apply forN_keeps | apply iter_keeps) | split | (intro _ _ _; try dsimp only) | (intro _ _; try dsimp only) | (intro _; try dsimp only) | fail_if_no_progress (refine Keeps.ofMk rfl rfl rfl rfl rfl rfl rfl rfl ?_))

theorem State.giveLate_keeps {s0 : State} (s : State) (bk wi r : Nat) (v : DWord) (h0 : Keeps s0 s) : Keeps s0 (State.giveLate s bk wi r v) := by
  unfold State.giveLate
  try dsimp only
  repeat (first | with_reducible (first | assumption | refine Keeps.fst (by assumption) ?_ | apply OKeeps.next | apply State.log_keeps | apply State.modWarp_keeps | apply foldl_keeps | apply foldl_keeps1 | apply forN_keeps | apply iter_keeps) | split | (intro _ _ _; try dsimp only) | (intro _ _; try dsimp only) | (intro _; try dsimp only) | fail_if_no_progress (refine Keeps.ofMk rfl rfl rfl rfl rfl rfl rfl rfl ?_))

theorem State.giveS_keeps {s0 : State} (s : State) (bk wi r : Nat) (v : Word) (h0 : Keeps s0 s) : Keeps s0 (State.giveS s bk wi r v) := by
  unfold State.giveS
  try dsimp only
  repeat (first | with_reducible (first | assumption | refine Keeps.fst (by assumption) ?_ | apply OKeeps.next | apply State.log_keeps | apply State.modWarp_keeps | apply State.setS_keeps | apply foldl_keeps | apply foldl_keeps1 | apply forN_keeps | apply iter_keeps) | split | (intro _ _ _; try dsimp only) | (intro _ _; try dsimp only) | (intro _; try dsimp only) | fail_if_no_progress (refine Keeps.ofMk rfl rfl rfl rfl rfl rfl rfl rfl ?_))

theorem State.rreadEnter_keeps {s0 : State} (s : State) (b : Block) (wi : Nat) (m : Mask) (entry state : DWord) (k sdst : Nat) (late : Bool) (h0 : Keeps s0 s) : Keeps s0 (State.rreadEnter s b wi m entry state k sdst late) := by
  unfold State.rreadEnter
  try dsimp only
  repeat (first | with_reducible (first | assumption | refine Keeps.fst (by assumption) ?_ | apply OKeeps.next | apply State.acquire_keeps | apply State.emit_keeps | apply State.giveLate_keeps | apply State.giveS64_keeps | apply State.landOk_keeps | apply State.modMask_keeps | apply State.resume_keeps | apply State.settle_keeps | apply State.syncHelpers_keeps | apply State.takeTrap_keeps | apply foldl_keeps | apply foldl_keeps1 | apply forN_keeps | apply iter_keeps) | split | (intro _ _ _; try dsimp only) | (intro _ _; try dsimp only) | (intro _; try dsimp only) | fail_if_no_progress (refine Keeps.ofMk rfl rfl rfl rfl rfl rfl rfl rfl ?_))

theorem State.rreadReplay_keeps {s0 : State} (s : State) (b : Block) (wi : Nat) (m : Mask) (entry : DWord) (k sdst : Nat) (late : Bool)
    (h0 : Keeps s0 s) : Keeps s0 (s.rreadReplay b wi m entry k sdst late) := by
  cases late <;> unfold State.rreadReplay <;> dsimp only [Bool.false_eq_true, if_true, if_false] <;> split
  · exact State.rreadEnter_keeps _ _ _ _ _ _ _ _ _ (State.logged_keeps_eq (by assumption) h0)
  · exact h0
  · exact State.rreadEnter_keeps _ _ _ _ _ _ _ _ _ (State.loggedLate_keeps_eq (by assumption) h0)
  · exact h0

theorem State.wake_keeps {s0 : State} (s : State) (bk : Nat) (h0 : Keeps s0 s) : Keeps s0 (State.wake s bk) := by
  unfold State.wake
  try dsimp only
  repeat (first | with_reducible (first | assumption | refine Keeps.fst (by assumption) ?_ | apply OKeeps.next | apply State.acquire_keeps | apply State.go_keeps | apply State.modWarp_keeps | apply State.release_keeps | apply State.rreadEnter_keeps | apply State.syncHelpers_keeps | apply foldl_keeps | apply foldl_keeps1 | apply forN_keeps | apply iter_keeps) | split | (intro _ _ _; try dsimp only) | (intro _ _; try dsimp only) | (intro _; try dsimp only) | fail_if_no_progress (refine Keeps.ofMk rfl rfl rfl rfl rfl rfl rfl rfl ?_))

theorem State.wakeAll_keeps {s0 : State} (s : State) (h0 : Keeps s0 s) : Keeps s0 (State.wakeAll s) := by
  unfold State.wakeAll
  try dsimp only
  repeat (first | with_reducible (first | assumption | refine Keeps.fst (by assumption) ?_ | apply OKeeps.next | apply State.wake_keeps | apply foldl_keeps | apply foldl_keeps1 | apply forN_keeps | apply iter_keeps) | split | (intro _ _ _; try dsimp only) | (intro _ _; try dsimp only) | (intro _; try dsimp only) | fail_if_no_progress (refine Keeps.ofMk rfl rfl rfl rfl rfl rfl rfl rfl ?_))

theorem State.startCmd_keeps {s0 : State} (s : State) (c : Cx) (op : BitVec 6) (ec : Nat) (kind : CmdKind) (h0 : Keeps s0 s) : Keeps s0 (State.startCmd s c op ec kind).1 := by
  unfold State.startCmd
  try dsimp only
  repeat (first | with_reducible (first | assumption | refine Keeps.fst (by assumption) ?_ | apply OKeeps.next | apply State.bump_keeps | apply State.modBlock_keeps | apply foldl_keeps | apply foldl_keeps1 | apply forN_keeps | apply iter_keeps) | split | (intro _ _ _; try dsimp only) | (intro _ _; try dsimp only) | (intro _; try dsimp only) | fail_if_no_progress (refine Keeps.ofMk rfl rfl rfl rfl rfl rfl rfl rfl ?_))

theorem State.fromLog_keeps_eq {s0 s : State} {c : Cx} {r : Nat} {wide : Bool} {u : State} (e : s.fromLog c r wide = some u)
    (h0 : Keeps s0 s) : Keeps s0 u := by
  unfold State.fromLog at e
  split at e
  · injection e with e
    subst e
    exact State.modWarp_keeps _ _ _ _ (State.logged_keeps_eq (by assumption) h0)
  · split at e
    · injection e with e
      subst e
      exact h0
    · cases e

theorem State.takeS64_keeps {s0 : State} (s : State) (bk wi r : Nat) (h0 : Keeps s0 s) : Keeps s0 (State.takeS64 s bk wi r) := by
  unfold State.takeS64
  try dsimp only
  repeat (first | with_reducible (first | assumption | refine Keeps.fst (by assumption) ?_ | apply OKeeps.next | refine State.logged_keeps_eq (by assumption) ?_ | apply State.modWarp_keeps | apply foldl_keeps | apply foldl_keeps1 | apply forN_keeps | apply iter_keeps) | split | (intro _ _ _; try dsimp only) | (intro _ _; try dsimp only) | (intro _; try dsimp only) | fail_if_no_progress (refine Keeps.ofMk rfl rfl rfl rfl rfl rfl rfl rfl ?_))

theorem State.takeLate_keeps {s0 : State} (s : State) (bk wi r : Nat) (h0 : Keeps s0 s) : Keeps s0 (State.takeLate s bk wi r) := by
  unfold State.takeLate
  try dsimp only
  repeat (first | with_reducible (first | assumption | refine Keeps.fst (by assumption) ?_ | apply OKeeps.next | refine State.loggedLate_keeps_eq (by assumption) ?_ | apply State.modWarp_keeps | apply foldl_keeps | apply foldl_keeps1 | apply forN_keeps | apply iter_keeps) | split | (intro _ _ _; try dsimp only) | (intro _ _; try dsimp only) | (intro _; try dsimp only) | fail_if_no_progress (refine Keeps.ofMk rfl rfl rfl rfl rfl rfl rfl rfl ?_))

theorem State.waitAct_keeps {s0 : State} (s : State) (c : Cx) (wt : Wait) (h0 : Keeps s0 s) : Keeps s0 (State.waitAct s c wt) := by
  unfold State.waitAct
  try dsimp only
  repeat (first | with_reducible (first | assumption | refine Keeps.fst (by assumption) ?_ | apply OKeeps.next | apply State.waitHere_keeps | apply foldl_keeps | apply foldl_keeps1 | apply forN_keeps | apply iter_keeps) | split | (intro _ _ _; try dsimp only) | (intro _ _; try dsimp only) | (intro _; try dsimp only) | fail_if_no_progress (refine Keeps.ofMk rfl rfl rfl rfl rfl rfl rfl rfl ?_))

theorem State.issueOne_keeps {s0 : State} (s : State) (c : Cx) (i : Issue) (mk : State → Except Nat CmdKind) (h0 : Keeps s0 s) : Keeps s0 (State.issueOne s c i mk) := by
  unfold State.issueOne
  try dsimp only
  repeat (first | with_reducible (first | assumption | refine Keeps.fst (by assumption) ?_ | apply OKeeps.next | refine State.fromLog_keeps_eq (by assumption) ?_ | apply State.giveS64_keeps | apply State.logWait_keeps | apply State.release_keeps | apply State.startCmd_keeps | apply State.waitAct_keeps | refine State.waitLogged_keeps_eq (by assumption) ?_ | apply State.warpTrap_keeps | apply foldl_keeps | apply foldl_keeps1 | apply forN_keeps | apply iter_keeps) | split | (intro _ _ _; try dsimp only) | (intro _ _; try dsimp only) | (intro _; try dsimp only) | fail_if_no_progress (refine Keeps.ofMk rfl rfl rfl rfl rfl rfl rfl rfl ?_))

theorem State.modCmd_keeps {s0 : State} (s : State) (bk k tok : Nat) (f : Cmd → Cmd) (h0 : Keeps s0 s) : Keeps s0 (State.modCmd s bk k tok f) := by
  unfold State.modCmd
  try dsimp only
  repeat (first | with_reducible (first | assumption | refine Keeps.fst (by assumption) ?_ | apply OKeeps.next | apply State.modBlock_keeps | apply foldl_keeps | apply foldl_keeps1 | apply forN_keeps | apply iter_keeps) | split | (intro _ _ _; try dsimp only) | (intro _ _; try dsimp only) | (intro _; try dsimp only) | fail_if_no_progress (refine Keeps.ofMk rfl rfl rfl rfl rfl rfl rfl rfl ?_))

theorem State.engFault_keeps {s0 : State} (s : State) (b : Block) (k : Nat) (cmd : Cmd) (code : Nat) (addr : Nat) (h0 : Keeps s0 s) : Keeps s0 (State.engFault s b k cmd code addr) := by
  unfold State.engFault
  try dsimp only
  repeat (first | with_reducible (first | assumption | refine Keeps.fst (by assumption) ?_ | apply OKeeps.next | apply State.handlerFail_keeps | apply State.modCmd_keeps | apply State.pend_keeps | apply State.settle_keeps | apply foldl_keeps | apply foldl_keeps1 | apply forN_keeps | apply iter_keeps) | split | (intro _ _ _; try dsimp only) | (intro _ _; try dsimp only) | (intro _; try dsimp only) | fail_if_no_progress (refine Keeps.ofMk rfl rfl rfl rfl rfl rfl rfl rfl ?_))

theorem State.iterDone_keeps {s0 : State} (s : State) (bk k : Nat) (cmd : Cmd) (h0 : Keeps s0 s) : Keeps s0 (State.iterDone s bk k cmd) := by
  unfold State.iterDone
  try dsimp only
  repeat (first | with_reducible (first | assumption | refine Keeps.fst (by assumption) ?_ | apply OKeeps.next | apply State.modCmd_keeps | apply foldl_keeps | apply foldl_keeps1 | apply forN_keeps | apply iter_keeps) | split | (intro _ _ _; try dsimp only) | (intro _ _; try dsimp only) | (intro _; try dsimp only) | fail_if_no_progress (refine Keeps.ofMk rfl rfl rfl rfl rfl rfl rfl rfl ?_))

theorem execCommandComplete_keeps {s0 : State} (b k tok : Nat) (s : State) (h0 : Keeps s0 s) : OKeeps s0 (execCommandComplete b k tok s) := by
  unfold execCommandComplete
  try dsimp only
  repeat (first | with_reducible (first | assumption | refine Keeps.fst (by assumption) ?_ | apply OKeeps.next | apply State.modBlock_keeps | apply State.wakeAll_keeps | apply foldl_keeps | apply foldl_keeps1 | apply forN_keeps | apply iter_keeps) | split | (intro _ _ _; try dsimp only) | (intro _ _; try dsimp only) | (intro _; try dsimp only) | fail_if_no_progress (refine Keeps.ofMk rfl rfl rfl rfl rfl rfl rfl rfl ?_))

theorem execLvl_keeps {s0 : State} (x : EngArgs) (s : State) (h0 : Keeps s0 s) : OKeeps s0 (execLvl x s) := by
  unfold execLvl
  try dsimp only
  repeat (first | with_reducible (first | assumption | refine Keeps.fst (by assumption) ?_ | apply OKeeps.next | refine State.fromLog_keeps_eq (by assumption) ?_ | apply State.giveS64_keeps | apply State.withGuardN_keeps | apply foldl_keeps | apply foldl_keeps1 | apply forN_keeps | apply iter_keeps) | split | (intro _ _ _; try dsimp only) | (intro _ _; try dsimp only) | (intro _; try dsimp only) | fail_if_no_progress (refine Keeps.ofMk rfl rfl rfl rfl rfl rfl rfl rfl ?_))

theorem State.iterCpy_keeps {s0 : State} (s : State) (b : Block) (k : Nat) (cmd : Cmd) (d : Desc) (v : List Nat) (h0 : Keeps s0 s) : Keeps s0 (State.iterCpy s b k cmd d v) := by
  unfold State.iterCpy
  try dsimp only
  repeat (first | with_reducible (first | assumption | refine Keeps.fst (by assumption) ?_ | apply OKeeps.next | apply State.engFault_keeps | apply State.engRead_keeps | apply State.engWrite_keeps | apply State.iterDone_keeps | apply foldl_keeps | apply foldl_keeps1 | apply forN_keeps | apply iter_keeps) | split | (intro _ _ _; try dsimp only) | (intro _ _; try dsimp only) | (intro _; try dsimp only) | fail_if_no_progress (refine Keeps.ofMk rfl rfl rfl rfl rfl rfl rfl rfl ?_))

theorem State.iterCenc_keeps {s0 : State} (s : State) (b : Block) (k : Nat) (cmd : Cmd) (d : Desc) (theta : Word) (v : List Nat) (h0 : Keeps s0 s) : Keeps s0 (State.iterCenc s b k cmd d theta v) := by
  unfold State.iterCenc
  try dsimp only
  repeat (first | with_reducible (first | assumption | refine Keeps.fst (by assumption) ?_ | apply OKeeps.next | apply State.engFault_keeps | apply State.engReadEls_keeps | apply State.engWrite_keeps | apply State.iterDone_keeps | apply foldl_keeps | apply foldl_keeps1 | apply forN_keeps | apply iter_keeps) | split | (intro _ _ _; try dsimp only) | (intro _ _; try dsimp only) | (intro _; try dsimp only) | fail_if_no_progress (refine Keeps.ofMk rfl rfl rfl rfl rfl rfl rfl rfl ?_))

theorem State.readTile_keeps {s0 : State} (s : State) (b : Block) (cmd : Cmd) (sp : Nat) (a : Int) (h0 : Keeps s0 s) : Keeps s0 (State.readTile s b cmd sp a).1 := by
  unfold State.readTile
  try dsimp only
  repeat (first | with_reducible (first | assumption | refine Keeps.fst (by assumption) ?_ | apply OKeeps.next | apply State.engRead_keeps | apply foldl_keeps | apply foldl_keeps1 | apply forN_keeps | apply iter_keeps) | split | (intro _ _ _; try dsimp only) | (intro _ _; try dsimp only) | (intro _; try dsimp only) | fail_if_no_progress (refine Keeps.ofMk rfl rfl rfl rfl rfl rfl rfl rfl ?_))

theorem State.iterCdec_keeps {s0 : State} (s : State) (b : Block) (k : Nat) (cmd : Cmd) (d : Desc) (v : List Nat) (h0 : Keeps s0 s) : Keeps s0 (State.iterCdec s b k cmd d v) := by
  unfold State.iterCdec
  try dsimp only
  repeat (first | with_reducible (first | assumption | refine Keeps.fst (by assumption) ?_ | apply OKeeps.next | apply State.engFault_keeps | apply State.engWriteEls_keeps | apply State.iterDone_keeps | apply State.readTile_keeps | apply foldl_keeps | apply foldl_keeps1 | apply forN_keeps | apply iter_keeps) | split | (intro _ _ _; try dsimp only) | (intro _ _; try dsimp only) | (intro _; try dsimp only) | fail_if_no_progress (refine Keeps.ofMk rfl rfl rfl rfl rfl rfl rfl rfl ?_))

theorem State.putSlot_keeps {s0 : State} (s : State) (home off slot w : Nat) (h0 : Keeps s0 s) : Keeps s0 (State.putSlot s home off slot w) := by
  unfold State.putSlot
  try dsimp only
  repeat (first | with_reducible (first | assumption | refine Keeps.fst (by assumption) ?_ | apply OKeeps.next | apply State.modNow_keeps | apply foldl_keeps | apply foldl_keeps1 | apply forN_keeps | apply iter_keeps) | split | (intro _ _ _; try dsimp only) | (intro _ _; try dsimp only) | (intro _; try dsimp only) | fail_if_no_progress (refine Keeps.ofMk rfl rfl rfl rfl rfl rfl rfl rfl ?_))

theorem State.iterCpym_keeps {s0 : State} (s : State) (b : Block) (k : Nat) (cmd : Cmd) (d : Desc) (home off slot base size : Nat) (cores : List (Option Nat)) (v : List Nat) (h0 : Keeps s0 s) : Keeps s0 (State.iterCpym s b k cmd d home off slot base size cores v) := by
  unfold State.iterCpym
  try dsimp only
  repeat (first | with_reducible (first | assumption | refine Keeps.fst (by assumption) ?_ | apply OKeeps.next | apply State.engFault_keeps | apply State.engRead_keeps | apply State.iterDone_keeps | apply State.modNow_keeps | apply State.putSlot_keeps | apply State.wakeAll_keeps | apply foldl_keeps | apply foldl_keeps1 | apply forN_keeps | apply iter_keeps) | split | (intro _ _ _; try dsimp only) | (intro _ _; try dsimp only) | (intro _; try dsimp only) | fail_if_no_progress (refine Keeps.ofMk rfl rfl rfl rfl rfl rfl rfl rfl ?_))

theorem execCpy_keeps {s0 : State} (x : EngArgs) (s : State) (h0 : Keeps s0 s) : OKeeps s0 (execCpy x s) := by
  unfold execCpy
  try dsimp only
  repeat (first | with_reducible (first | assumption | refine Keeps.fst (by assumption) ?_ | apply OKeeps.next | apply State.issueOne_keeps | apply State.withGuardN_keeps | apply foldl_keeps | apply foldl_keeps1 | apply forN_keeps | apply iter_keeps) | split | (intro _ _ _; try dsimp only) | (intro _ _; try dsimp only) | (intro _; try dsimp only) | fail_if_no_progress (refine Keeps.ofMk rfl rfl rfl rfl rfl rfl rfl rfl ?_))

theorem execCenc_keeps {s0 : State} (x : EngArgs) (s : State) (h0 : Keeps s0 s) : OKeeps s0 (execCenc x s) := by
  unfold execCenc
  try dsimp only
  repeat (first | with_reducible (first | assumption | refine Keeps.fst (by assumption) ?_ | apply OKeeps.next | apply State.issueOne_keeps | apply State.withGuardN_keeps | apply foldl_keeps | apply foldl_keeps1 | apply forN_keeps | apply iter_keeps) | split | (intro _ _ _; try dsimp only) | (intro _ _; try dsimp only) | (intro _; try dsimp only) | fail_if_no_progress (refine Keeps.ofMk rfl rfl rfl rfl rfl rfl rfl rfl ?_))

theorem execCdec_keeps {s0 : State} (x : EngArgs) (s : State) (h0 : Keeps s0 s) : OKeeps s0 (execCdec x s) := by
  unfold execCdec
  try dsimp only
  repeat (first | with_reducible (first | assumption | refine Keeps.fst (by assumption) ?_ | apply OKeeps.next | apply State.issueOne_keeps | apply State.withGuardN_keeps | apply foldl_keeps | apply foldl_keeps1 | apply forN_keeps | apply iter_keeps) | split | (intro _ _ _; try dsimp only) | (intro _ _; try dsimp only) | (intro _; try dsimp only) | fail_if_no_progress (refine Keeps.ofMk rfl rfl rfl rfl rfl rfl rfl rfl ?_))

theorem State.useRing_keeps {s0 : State} (s : State) (home off : Nat) (h0 : Keeps s0 s) : Keeps s0 (State.useRing s home off) := by
  unfold State.useRing
  try dsimp only
  repeat (first | with_reducible (first | assumption | refine Keeps.fst (by assumption) ?_ | apply OKeeps.next | apply State.modNow_keeps | apply foldl_keeps | apply foldl_keeps1 | apply forN_keeps | apply iter_keeps) | split | (intro _ _ _; try dsimp only) | (intro _ _; try dsimp only) | (intro _; try dsimp only) | fail_if_no_progress (refine Keeps.ofMk rfl rfl rfl rfl rfl rfl rfl rfl ?_))

theorem State.boostEnds_keeps {s0 : State} (s : State) (home off : Nat) (h0 : Keeps s0 s) : Keeps s0 (State.boostEnds s home off) := by
  unfold State.boostEnds
  try dsimp only
  repeat (first | with_reducible (first | assumption | refine Keeps.fst (by assumption) ?_ | apply OKeeps.next | apply State.modNow_keeps | apply foldl_keeps | apply foldl_keeps1 | apply forN_keeps | apply iter_keeps) | split | (intro _ _ _; try dsimp only) | (intro _ _; try dsimp only) | (intro _; try dsimp only) | fail_if_no_progress (refine Keeps.ofMk rfl rfl rfl rfl rfl rfl rfl rfl ?_))

theorem execRingp_keeps {s0 : State} (x : EngArgs) (s : State) (h0 : Keeps s0 s) : OKeeps s0 (execRingp x s) := by
  unfold execRingp
  try dsimp only
  repeat (first | with_reducible (first | assumption | refine Keeps.fst (by assumption) ?_ | apply OKeeps.next | apply State.acquire_keeps | apply State.boostEnds_keeps | refine State.fromLog_keeps_eq (by assumption) ?_ | apply State.giveS_keeps | apply State.logWait_keeps | apply State.modNow_keeps | apply State.putSlot_keeps | apply State.useRing_keeps | apply State.waitAct_keeps | refine State.waitLogged_keeps_eq (by assumption) ?_ | apply State.warpTrap_keeps | apply State.withGuardN_keeps | apply foldl_keeps | apply foldl_keeps1 | apply forN_keeps | apply iter_keeps) | split | (intro _ _ _; try dsimp only) | (intro _ _; try dsimp only) | (intro _; try dsimp only) | fail_if_no_progress (refine Keeps.ofMk rfl rfl rfl rfl rfl rfl rfl rfl ?_))

theorem execRingc_keeps {s0 : State} (x : EngArgs) (s : State) (h0 : Keeps s0 s) : OKeeps s0 (execRingc x s) := by
  unfold execRingc
  try dsimp only
  repeat (first | with_reducible (first | assumption | refine Keeps.fst (by assumption) ?_ | apply OKeeps.next | apply State.boostEnds_keeps | apply State.modWarp_keeps | apply State.putSlot_keeps | apply State.release_keeps | apply State.ring_keeps | apply State.useRing_keeps | apply State.wakeAll_keeps | apply State.warpTrap_keeps | apply State.withGuardN_keeps | apply foldl_keeps | apply foldl_keeps1 | apply forN_keeps | apply iter_keeps) | split | (intro _ _ _; try dsimp only) | (intro _ _; try dsimp only) | (intro _; try dsimp only) | fail_if_no_progress (refine Keeps.ofMk rfl rfl rfl rfl rfl rfl rfl rfl ?_))

theorem execRingcWait_keeps {s0 : State} (x : EngArgs) (s : State) (h0 : Keeps s0 s) : OKeeps s0 (execRingcWait x s) := by
  unfold execRingcWait
  try dsimp only
  repeat (first | with_reducible (first | assumption | refine Keeps.fst (by assumption) ?_ | apply OKeeps.next | apply State.acquire_keeps | apply State.logWait_keeps | apply State.modWarp_keeps | apply State.ring_keeps | apply State.useRing_keeps | apply State.waitAct_keeps | refine State.waitLogged_keeps_eq (by assumption) ?_ | apply State.warpTrap_keeps | apply State.withGuardN_keeps | apply foldl_keeps | apply foldl_keeps1 | apply forN_keeps | apply iter_keeps) | split | (intro _ _ _; try dsimp only) | (intro _ _; try dsimp only) | (intro _; try dsimp only) | fail_if_no_progress (refine Keeps.ofMk rfl rfl rfl rfl rfl rfl rfl rfl ?_))

theorem execCpym_keeps {s0 : State} (x : EngArgs) (s : State) (h0 : Keeps s0 s) : OKeeps s0 (execCpym x s) := by
  unfold execCpym
  try dsimp only
  repeat (first | with_reducible (first | assumption | refine Keeps.fst (by assumption) ?_ | apply OKeeps.next | apply State.issueOne_keeps | apply State.withGuardN_keeps | apply foldl_keeps | apply foldl_keeps1 | apply forN_keeps | apply iter_keeps) | split | (intro _ _ _; try dsimp only) | (intro _ _; try dsimp only) | (intro _; try dsimp only) | fail_if_no_progress (refine Keeps.ofMk rfl rfl rfl rfl rfl rfl rfl rfl ?_))

theorem execIord_keeps {s0 : State} (x : EngArgs) (s : State) (h0 : Keeps s0 s) : OKeeps s0 (execIord x s) := by
  unfold execIord
  try dsimp only
  repeat (first | with_reducible (first | assumption | refine Keeps.fst (by assumption) ?_ | apply OKeeps.next | apply State.issueOne_keeps | apply State.withGuardN_keeps | apply foldl_keeps | apply foldl_keeps1 | apply forN_keeps | apply iter_keeps) | split | (intro _ _ _; try dsimp only) | (intro _ _; try dsimp only) | (intro _; try dsimp only) | fail_if_no_progress (refine Keeps.ofMk rfl rfl rfl rfl rfl rfl rfl rfl ?_))

theorem State.writePa_keeps {s0 : State} (s : State) (pa : Nat) (bs : List Byte) (h0 : Keeps s0 s) : Keeps s0 (State.writePa s pa bs) := by
  unfold State.writePa
  try dsimp only
  repeat (first | with_reducible (first | assumption | refine Keeps.fst (by assumption) ?_ | apply OKeeps.next | apply State.foreignStore_keeps | apply State.l2WriteN_keeps | apply foldl_keeps | apply foldl_keeps1 | apply forN_keeps | apply iter_keeps) | split | (intro _ _ _; try dsimp only) | (intro _ _; try dsimp only) | (intro _; try dsimp only) | fail_if_no_progress (refine Keeps.ofMk rfl rfl rfl rfl rfl rfl rfl rfl ?_))

theorem State.ring_keeps {s0 : State} (s : State) (addr v : Nat) (h0 : Keeps s0 s) : Keeps s0 (State.ring s addr v) := by
  unfold State.ring
  try dsimp only
  repeat (first | with_reducible (first | assumption | refine Keeps.fst (by assumption) ?_ | apply OKeeps.next | refine State.modWh_keeps _ _ rfl rfl rfl rfl ?_ | apply foldl_keeps | apply foldl_keeps1 | apply forN_keeps | apply iter_keeps) | split | (intro _ _ _; try dsimp only) | (intro _ _; try dsimp only) | (intro _; try dsimp only) | fail_if_no_progress (refine Keeps.ofMk rfl rfl rfl rfl rfl rfl rfl rfl ?_))

theorem State.submitRead_keeps {s0 : State} (s : State) (b : Block) (k : Nat) (cmd : Cmd) (h : Nat) (r : NvmeRead) (h0 : Keeps s0 s) : Keeps s0 (State.submitRead s b k cmd h r) := by
  unfold State.submitRead
  try dsimp only
  repeat (first | with_reducible (first | assumption | refine Keeps.fst (by assumption) ?_ | apply OKeeps.next | apply State.modCmd_keeps | refine State.modWh_keeps _ _ rfl rfl rfl rfl ?_ | apply State.ring_keeps | apply State.writePa_keeps | apply foldl_keeps | apply foldl_keeps1 | apply forN_keeps | apply iter_keeps) | split | (intro _ _ _; try dsimp only) | (intro _ _; try dsimp only) | (intro _; try dsimp only) | fail_if_no_progress (refine Keeps.ofMk rfl rfl rfl rfl rfl rfl rfl rfl ?_))

theorem State.takeCompletion_keeps {s0 : State} (s : State) (b : Block) (k : Nat) (cmd : Cmd) (h : Nat) (h0 : Keeps s0 s) : Keeps s0 (State.takeCompletion s b k cmd h) := by
  unfold State.takeCompletion
  try dsimp only
  repeat (first | with_reducible (first | assumption | refine Keeps.fst (by assumption) ?_ | apply OKeeps.next | apply State.modCmd_keeps | refine State.modWh_keeps _ _ rfl rfl rfl rfl ?_ | apply State.ring_keeps | apply State.writePa_keeps | apply foldl_keeps | apply foldl_keeps1 | apply forN_keeps | apply iter_keeps) | split | (intro _ _ _; try dsimp only) | (intro _ _; try dsimp only) | (intro _; try dsimp only) | fail_if_no_progress (refine Keeps.ofMk rfl rfl rfl rfl rfl rfl rfl rfl ?_))

theorem State.iordData_keeps {s0 : State} (s : State) (b : Block) (k : Nat) (cmd : Cmd) (sp : Bool) (dst : DWord) (bs : List PByte) (h0 : Keeps s0 s) : Keeps s0 (State.iordData s b k cmd sp dst bs) := by
  unfold State.iordData
  try dsimp only
  repeat (first | with_reducible (first | assumption | refine Keeps.fst (by assumption) ?_ | apply OKeeps.next | apply State.engFault_keeps | apply State.engWrite_keeps | apply State.iterDone_keeps | apply foldl_keeps | apply foldl_keeps1 | apply forN_keeps | apply iter_keeps) | split | (intro _ _ _; try dsimp only) | (intro _ _; try dsimp only) | (intro _; try dsimp only) | fail_if_no_progress (refine Keeps.ofMk rfl rfl rfl rfl rfl rfl rfl rfl ?_))

theorem State.iterIord_keeps {s0 : State} (s : State) (b : Block) (k : Nat) (cmd : Cmd) (sp : Bool) (src dst : DWord) (len : Nat) (tgt : Word) (h0 : Keeps s0 s) : Keeps s0 (State.iterIord s b k cmd sp src dst len tgt) := by
  unfold State.iterIord
  try dsimp only
  repeat (first | with_reducible (first | assumption | refine Keeps.fst (by assumption) ?_ | apply OKeeps.next | apply State.cleanHLines_keeps | apply State.engFault_keeps | apply State.iordData_keeps | apply State.submitRead_keeps | apply foldl_keeps | apply foldl_keeps1 | apply forN_keeps | apply iter_keeps) | split | (intro _ _ _; try dsimp only) | (intro _ _; try dsimp only) | (intro _; try dsimp only) | fail_if_no_progress (refine Keeps.ofMk rfl rfl rfl rfl rfl rfl rfl rfl ?_))

theorem execIoRequestComplete_keeps {s0 : State} (b k tok : Nat) (ok : Bool) (data : Payload) (s : State) (h0 : Keeps s0 s) : OKeeps s0 (execIoRequestComplete b k tok ok data s) := by
  unfold execIoRequestComplete
  try dsimp only
  repeat (first | with_reducible (first | assumption | refine Keeps.fst (by assumption) ?_ | apply OKeeps.next | apply State.engFault_keeps | apply State.iordData_keeps | apply State.iterIord_keeps | apply State.takeCompletion_keeps | apply foldl_keeps | apply foldl_keeps1 | apply forN_keeps | apply iter_keeps) | split | (intro _ _ _; try dsimp only) | (intro _ _; try dsimp only) | (intro _; try dsimp only) | fail_if_no_progress (refine Keeps.ofMk rfl rfl rfl rfl rfl rfl rfl rfl ?_))

theorem State.toPending_keeps {s0 : State} (s : State) (bk wi : Nat) (h0 : Keeps s0 s) : Keeps s0 (State.toPending s bk wi) := by
  unfold State.toPending
  try dsimp only
  repeat (first | with_reducible (first | assumption | refine Keeps.fst (by assumption) ?_ | apply OKeeps.next | apply State.modWarp_keeps | apply foldl_keeps | apply foldl_keeps1 | apply forN_keeps | apply iter_keeps) | split | (intro _ _ _; try dsimp only) | (intro _ _; try dsimp only) | (intro _; try dsimp only) | fail_if_no_progress (refine Keeps.ofMk rfl rfl rfl rfl rfl rfl rfl rfl ?_))

theorem execLaunch_keeps {s0 : State} (x : EngArgs) (s : State) (h0 : Keeps s0 s) : OKeeps s0 (execLaunch x s) := by
  unfold execLaunch
  try dsimp only
  repeat (first | with_reducible (first | assumption | refine Keeps.fst (by assumption) ?_ | apply OKeeps.next | refine State.fromLog_keeps_eq (by assumption) ?_ | apply State.giveS64_keeps | apply State.logWait_keeps | apply State.modBlock_keeps | apply State.release_keeps | apply State.startCmd_keeps | apply State.toPending_keeps | apply State.waitAct_keeps | refine State.waitLogged_keeps_eq (by assumption) ?_ | apply State.warpTrap_keeps | apply State.withGuardN_keeps | apply foldl_keeps | apply foldl_keeps1 | apply forN_keeps | apply iter_keeps) | split | (intro _ _ _; try dsimp only) | (intro _ _; try dsimp only) | (intro _; try dsimp only) | fail_if_no_progress (refine Keeps.ofMk rfl rfl rfl rfl rfl rfl rfl rfl ?_))

theorem State.nmOk_keeps {s0 : State} (s : State) (b : Block) (a n : Nat) (h0 : Keeps s0 s) : Keeps s0 (State.nmOk s b a n).1 := by
  unfold State.nmOk
  try dsimp only
  repeat (first | with_reducible (first | assumption | refine Keeps.fst (by assumption) ?_ | apply OKeeps.next | apply State.devPage_keeps | apply foldl_keeps | apply foldl_keeps1 | apply forN_keeps | apply iter_keeps) | split | (intro _ _ _; try dsimp only) | (intro _ _; try dsimp only) | (intro _; try dsimp only) | fail_if_no_progress (refine Keeps.ofMk rfl rfl rfl rfl rfl rfl rfl rfl ?_))

theorem State.writeHome_keeps {s0 : State} (s : State) (key n : Nat) (h0 : Keeps s0 s) : Keeps s0 (State.writeHome s key n) := by
  unfold State.writeHome
  try dsimp only
  repeat (first | with_reducible (first | assumption | refine Keeps.fst (by assumption) ?_ | apply OKeeps.next | apply State.cleanHLines_keeps | apply State.ownerHome_keeps | apply State.setDir_keeps | apply foldl_keeps | apply foldl_keeps1 | apply forN_keeps | apply iter_keeps) | split | (intro _ _ _; try dsimp only) | (intro _ _; try dsimp only) | (intro _; try dsimp only) | fail_if_no_progress (refine Keeps.ofMk rfl rfl rfl rfl rfl rfl rfl rfl ?_))

theorem State.operandBytes_keeps {s0 : State} (s : State) (b : Block) (cmd : Cmd) (o : Operand) (a : Int) (n : Nat) (h0 : Keeps s0 s) : Keeps s0 (State.operandBytes s b cmd o a n).1 := by
  unfold State.operandBytes
  try dsimp only
  repeat (first | with_reducible (first | assumption | refine Keeps.fst (by assumption) ?_ | apply OKeeps.next | apply State.devRange_keeps | apply State.engRead_keeps | apply State.writeHome_keeps | apply foldl_keeps | apply foldl_keeps1 | apply forN_keeps | apply iter_keeps) | split | (intro _ _ _; try dsimp only) | (intro _ _; try dsimp only) | (intro _; try dsimp only) | fail_if_no_progress (refine Keeps.ofMk rfl rfl rfl rfl rfl rfl rfl rfl ?_))

theorem State.recHeader_keeps {s0 : State} (s : State) (b : Block) (cmd : Cmd) (o : Operand) (a : Int) (h0 : Keeps s0 s) : Keeps s0 (State.recHeader s b cmd o a).1 := by
  unfold State.recHeader
  try dsimp only
  repeat (first | with_reducible (first | assumption | refine Keeps.fst (by assumption) ?_ | apply OKeeps.next | apply State.nmOk_keeps | apply State.operandBytes_keeps | apply foldl_keeps | apply foldl_keeps1 | apply forN_keeps | apply iter_keeps) | split | (intro _ _ _; try dsimp only) | (intro _ _; try dsimp only) | (intro _; try dsimp only) | fail_if_no_progress (refine Keeps.ofMk rfl rfl rfl rfl rfl rfl rfl rfl ?_))

theorem State.firstRec_keeps {s0 : State} (s : State) (b : Block) (cmd : Cmd) (o : Operand) (known : Option (Nat × Nat)) (h0 : Keeps s0 s) : Keeps s0 (State.firstRec s b cmd o known).1 := by
  unfold State.firstRec
  try dsimp only
  repeat (first | with_reducible (first | assumption | refine Keeps.fst (by assumption) ?_ | apply OKeeps.next | apply State.recHeader_keeps | apply foldl_keeps | apply foldl_keeps1 | apply forN_keeps | apply iter_keeps) | split | (intro _ _ _; try dsimp only) | (intro _ _; try dsimp only) | (intro _; try dsimp only) | fail_if_no_progress (refine Keeps.ofMk rfl rfl rfl rfl rfl rfl rfl rfl ?_))

theorem State.operandRec_keeps {s0 : State} (s : State) (b : Block) (cmd : Cmd) (o : Operand) (f : Nat × Nat) (i : Nat) (h0 : Keeps s0 s) : Keeps s0 (State.operandRec s b cmd o f i).1 := by
  unfold State.operandRec
  try dsimp only
  repeat (first | with_reducible (first | assumption | refine Keeps.fst (by assumption) ?_ | apply OKeeps.next | apply State.engRead_keeps | apply State.nmOk_keeps | apply State.operandBytes_keeps | apply State.recHeader_keeps | apply foldl_keeps | apply foldl_keeps1 | apply forN_keeps | apply iter_keeps) | split | (intro _ _ _; try dsimp only) | (intro _ _; try dsimp only) | (intro _; try dsimp only) | fail_if_no_progress (refine Keeps.ofMk rfl rfl rfl rfl rfl rfl rfl rfl ?_))

theorem State.operandRecs_keeps {s0 : State} (s : State) (b : Block) (cmd : Cmd) (o : Operand) (f : Nat × Nat) (l : List Nat) (h0 : Keeps s0 s) :
    Keeps s0 (s.operandRecs b cmd o f l).1 := by
  induction l generalizing s with
  | nil => exact h0
  | cons a as ih =>
    unfold State.operandRecs
    repeat (first | with_reducible (first | assumption | refine Keeps.fst (by assumption) ?_ | apply State.operandRec_keeps | apply ih) | split)

theorem State.matBlock_keeps {s0 : State} (s : State) (b : Block) (k : Nat) (cmd : Cmd) (oa ob : Operand) (ia ib : List Nat)
    (f : State → List MRec → List MRec → State) (hf : ∀ u x y, Keeps s0 u → Keeps s0 (f u x y)) (h0 : Keeps s0 s) :
    Keeps s0 (s.matBlock b k cmd oa ob ia ib f) := by
  unfold State.matBlock
  dsimp only
  repeat (first | with_reducible (first | assumption | refine Keeps.fst (by assumption) ?_ | apply State.engFault_keeps | apply State.iterDone_keeps | apply State.modCmd_keeps | apply State.firstRec_keeps | apply State.operandRecs_keeps | apply hf) | split)

theorem State.iterMma_keeps {s0 : State} (s : State) (b : Block) (k : Nat) (cmd : Cmd) (dimm : BitVec 13) (a bb : DWord) (ctl : Word) (dense bd : Bool) (scale : Nat → Option Nat) (h0 : Keeps s0 s) : Keeps s0 (State.iterMma s b k cmd dimm a bb ctl dense bd scale) := by
  unfold State.iterMma
  try dsimp only
  repeat (first | with_reducible (first | assumption | refine Keeps.fst (by assumption) ?_ | apply OKeeps.next | apply State.matBlock_keeps | apply State.modBlock_keeps | apply foldl_keeps | apply foldl_keeps1 | apply forN_keeps | apply iter_keeps) | split | (intro _ _ _; try dsimp only) | (intro _ _; try dsimp only) | (intro _; try dsimp only) | fail_if_no_progress (refine Keeps.ofMk rfl rfl rfl rfl rfl rfl rfl rfl ?_))

theorem State.iterMmv_keeps {s0 : State} (s : State) (b : Block) (k : Nat) (cmd : Cmd) (dimm : BitVec 13) (a : Nat) (bb : DWord) (ctl : Word) (h0 : Keeps s0 s) : Keeps s0 (State.iterMmv s b k cmd dimm a bb ctl) := by
  unfold State.iterMmv
  try dsimp only
  repeat (first | with_reducible (first | assumption | refine Keeps.fst (by assumption) ?_ | apply OKeeps.next | apply State.matBlock_keeps | apply State.modBlock_keeps | apply foldl_keeps | apply foldl_keeps1 | apply forN_keeps | apply iter_keeps) | split | (intro _ _ _; try dsimp only) | (intro _ _; try dsimp only) | (intro _; try dsimp only) | fail_if_no_progress (refine Keeps.ofMk rfl rfl rfl rfl rfl rfl rfl rfl ?_))

theorem State.drainRead_keeps {s0 : State} (s : State) (b : Block) (cmd : Cmd) (sp w : Nat) (l : List Int) (h0 : Keeps s0 s) :
    Keeps s0 (s.drainRead b cmd sp w l).1 := by
  induction l generalizing s with
  | nil => exact h0
  | cons a as ih =>
    unfold State.drainRead
    repeat (first | with_reducible (first | assumption | refine Keeps.fst (by assumption) ?_ | apply State.engRead_keeps | apply ih) | split)

theorem State.drainWrite_keeps {s0 : State} (s : State) (b : Block) (cmd : Cmd) (sp w : Nat) (es : List (Int × List PByte)) (h0 : Keeps s0 s) : Keeps s0 (State.drainWrite s b cmd sp w es).1 := by
  unfold State.drainWrite
  try dsimp only
  repeat (first | with_reducible (first | assumption | refine Keeps.fst (by assumption) ?_ | apply OKeeps.next | apply State.engKeys_keeps | apply State.engWriteEls_keeps | apply foldl_keeps | apply foldl_keeps1 | apply forN_keeps | apply iter_keeps) | split | (intro _ _ _; try dsimp only) | (intro _ _; try dsimp only) | (intro _; try dsimp only) | fail_if_no_progress (refine Keeps.ofMk rfl rfl rfl rfl rfl rfl rfl rfl ?_))

theorem State.iterDrain_keeps {s0 : State} (s : State) (b : Block) (k : Nat) (cmd : Cmd) (d : Desc) (tile : Nat) (clr : Bool) (h0 : Keeps s0 s) : Keeps s0 (State.iterDrain s b k cmd d tile clr) := by
  unfold State.iterDrain
  try dsimp only
  repeat (first | with_reducible (first | assumption | refine Keeps.fst (by assumption) ?_ | apply OKeeps.next | apply State.drainRead_keeps | apply State.drainWrite_keeps | apply State.engFault_keeps | apply State.iterDone_keeps | apply State.modBlock_keeps | apply foldl_keeps | apply foldl_keeps1 | apply forN_keeps | apply iter_keeps) | split | (intro _ _ _; try dsimp only) | (intro _ _; try dsimp only) | (intro _; try dsimp only) | fail_if_no_progress (refine Keeps.ofMk rfl rfl rfl rfl rfl rfl rfl rfl ?_))

theorem State.iterAzero_keeps {s0 : State} (s : State) (b : Block) (k : Nat) (cmd : Cmd) (tile : Nat) (h0 : Keeps s0 s) : Keeps s0 (State.iterAzero s b k cmd tile) := by
  unfold State.iterAzero
  try dsimp only
  repeat (first | with_reducible (first | assumption | refine Keeps.fst (by assumption) ?_ | apply OKeeps.next | apply State.iterDone_keeps | apply State.modBlock_keeps | apply foldl_keeps | apply foldl_keeps1 | apply forN_keeps | apply iter_keeps) | split | (intro _ _ _; try dsimp only) | (intro _ _; try dsimp only) | (intro _; try dsimp only) | fail_if_no_progress (refine Keeps.ofMk rfl rfl rfl rfl rfl rfl rfl rfl ?_))

theorem execCommandIteration_keeps {s0 : State} (b k tok : Nat) (s : State) (h0 : Keeps s0 s) : OKeeps s0 (execCommandIteration b k tok s) := by
  unfold execCommandIteration
  try dsimp only
  repeat (first | with_reducible (first | assumption | refine Keeps.fst (by assumption) ?_ | apply OKeeps.next | apply State.drain_keeps | apply State.iterAzero_keeps | apply State.iterCdec_keeps | apply State.iterCenc_keeps | apply State.iterCpy_keeps | apply State.iterCpym_keeps | apply State.iterDrain_keeps | apply State.iterIord_keeps | apply State.iterMma_keeps | apply State.iterMmv_keeps | apply foldl_keeps | apply foldl_keeps1 | apply forN_keeps | apply iter_keeps) | split | (intro _ _ _; try dsimp only) | (intro _ _; try dsimp only) | (intro _; try dsimp only) | fail_if_no_progress (refine Keeps.ofMk rfl rfl rfl rfl rfl rfl rfl rfl ?_))

theorem State.joinGang_keeps {s0 : State} (s : State) (c : Cx) (mask : Mask) (k : Nat) (x : Latch) (h0 : Keeps s0 s) : Keeps s0 (State.joinGang s c mask k x) := by
  unfold State.joinGang
  try dsimp only
  repeat (first | with_reducible (first | assumption | refine Keeps.fst (by assumption) ?_ | apply OKeeps.next | apply State.modBlock_keeps | apply State.modCore_keeps | apply State.releaseIf_keeps | apply State.waitAct_keeps | apply foldl_keeps | apply foldl_keeps1 | apply forN_keeps | apply iter_keeps) | split | (intro _ _ _; try dsimp only) | (intro _ _; try dsimp only) | (intro _; try dsimp only) | fail_if_no_progress (refine Keeps.ofMk rfl rfl rfl rfl rfl rfl rfl rfl ?_))

theorem execGangset_keeps {s0 : State} (x : EngArgs) (s : State) (h0 : Keeps s0 s) : OKeeps s0 (execGangset x s) := by
  unfold execGangset
  try dsimp only
  repeat (first | with_reducible (first | assumption | refine Keeps.fst (by assumption) ?_ | apply OKeeps.next | apply State.dissolve_keeps | apply State.joinGang_keeps | apply State.logWait_keeps | apply State.settle_keeps | apply State.waitAct_keeps | refine State.waitLogged_keeps_eq (by assumption) ?_ | apply State.wakeAll_keeps | apply State.warpTrap_keeps | apply State.withGuardN_keeps | apply foldl_keeps | apply foldl_keeps1 | apply forN_keeps | apply iter_keeps) | split | (intro _ _ _; try dsimp only) | (intro _ _; try dsimp only) | (intro _; try dsimp only) | fail_if_no_progress (refine Keeps.ofMk rfl rfl rfl rfl rfl rfl rfl rfl ?_))

theorem State.memberTrap_keeps {s0 : State} (s : State) (c : Cx) (a : Arrival) (cause code : Nat) (h0 : Keeps s0 s) : Keeps s0 (State.memberTrap s c a cause code) := by
  unfold State.memberTrap
  try dsimp only
  repeat (first | with_reducible (first | assumption | refine Keeps.fst (by assumption) ?_ | apply OKeeps.next | apply State.settle_keeps | apply State.takeTrap_keeps | apply State.warpTrap_keeps | apply foldl_keeps | apply foldl_keeps1 | apply forN_keeps | apply iter_keeps) | split | (intro _ _ _; try dsimp only) | (intro _ _; try dsimp only) | (intro _; try dsimp only) | fail_if_no_progress (refine Keeps.ofMk rfl rfl rfl rfl rfl rfl rfl rfl ?_))

theorem State.setArrivals_keeps {s0 : State} (s : State) (core k : Nat) (as : List Arrival) (h0 : Keeps s0 s) : Keeps s0 (State.setArrivals s core k as) := by
  unfold State.setArrivals
  try dsimp only
  repeat (first | with_reducible (first | assumption | refine Keeps.fst (by assumption) ?_ | apply OKeeps.next | apply State.modCore_keeps | apply foldl_keeps | apply foldl_keeps1 | apply forN_keeps | apply iter_keeps) | split | (intro _ _ _; try dsimp only) | (intro _ _; try dsimp only) | (intro _; try dsimp only) | fail_if_no_progress (refine Keeps.ofMk rfl rfl rfl rfl rfl rfl rfl rfl ?_))

theorem State.gangIssue_keeps {s0 : State} (s : State) (c : Cx) (k : Nat) (r0 : Arrival) (as : List Arrival) (kind : CmdKind) (h0 : Keeps s0 s) : Keeps s0 (State.gangIssue s c k r0 as kind) := by
  unfold State.gangIssue
  try dsimp only
  repeat (first | with_reducible (first | assumption | refine Keeps.fst (by assumption) ?_ | apply OKeeps.next | apply State.giveS64_keeps | apply State.modWarp_keeps | apply State.releaseIf_keeps | apply State.setArrivals_keeps | apply State.startCmd_keeps | apply State.takeS64_keeps | apply foldl_keeps | apply foldl_keeps1 | apply forN_keeps | apply iter_keeps) | split | (intro _ _ _; try dsimp only) | (intro _ _; try dsimp only) | (intro _; try dsimp only) | fail_if_no_progress (refine Keeps.ofMk rfl rfl rfl rfl rfl rfl rfl rfl ?_))

theorem State.gangOp_keeps {s0 : State} (s : State) (c : Cx) (op : BitVec 6) (x : EngArgs) (k : Nat) (l : Latch) (mk : Cx → List (List (Option Byte)) → State → Except Nat CmdKind) (h0 : Keeps s0 s) : Keeps s0 (State.gangOp s c op x k l mk) := by
  unfold State.gangOp
  try dsimp only
  repeat (first | with_reducible (first | assumption | refine Keeps.fst (by assumption) ?_ | apply OKeeps.next | apply State.gangIssue_keeps | apply State.logWait_keeps | apply State.memberTrap_keeps | apply State.setArrivals_keeps | apply State.waitAct_keeps | refine State.waitLogged_keeps_eq (by assumption) ?_ | apply foldl_keeps | apply foldl_keeps1 | apply forN_keeps | apply iter_keeps) | split | (intro _ _ _; try dsimp only) | (intro _ _; try dsimp only) | (intro _; try dsimp only) | fail_if_no_progress (refine Keeps.ofMk rfl rfl rfl rfl rfl rfl rfl rfl ?_))

theorem State.matrixOp_keeps {s0 : State} (s : State) (c : Cx) (op : BitVec 6) (x : EngArgs) (mk : Cx → List (List (Option Byte)) → State → Except Nat CmdKind) (h0 : Keeps s0 s) : Keeps s0 (State.matrixOp s c op x mk) := by
  unfold State.matrixOp
  try dsimp only
  repeat (first | with_reducible (first | assumption | refine Keeps.fst (by assumption) ?_ | apply OKeeps.next | apply State.gangOp_keeps | apply State.issueOne_keeps | apply State.release_keeps | apply State.warpTrap_keeps | apply foldl_keeps | apply foldl_keeps1 | apply forN_keeps | apply iter_keeps) | split | (intro _ _ _; try dsimp only) | (intro _ _; try dsimp only) | (intro _; try dsimp only) | fail_if_no_progress (refine Keeps.ofMk rfl rfl rfl rfl rfl rfl rfl rfl ?_))

theorem execMma_keeps {s0 : State} (x : EngArgs) (s : State) (h0 : Keeps s0 s) : OKeeps s0 (execMma x s) := by
  unfold execMma
  try dsimp only
  repeat (first | with_reducible (first | assumption | refine Keeps.fst (by assumption) ?_ | apply OKeeps.next | apply State.matrixOp_keeps | apply State.withGuardN_keeps | apply foldl_keeps | apply foldl_keeps1 | apply forN_keeps | apply iter_keeps) | split | (intro _ _ _; try dsimp only) | (intro _ _; try dsimp only) | (intro _; try dsimp only) | fail_if_no_progress (refine Keeps.ofMk rfl rfl rfl rfl rfl rfl rfl rfl ?_))

theorem execMmab_keeps {s0 : State} (x : EngArgs) (s : State) (h0 : Keeps s0 s) : OKeeps s0 (execMmab x s) := by
  unfold execMmab
  try dsimp only
  repeat (first | with_reducible (first | assumption | refine Keeps.fst (by assumption) ?_ | apply OKeeps.next | apply State.matrixOp_keeps | apply State.withGuardN_keeps | apply foldl_keeps | apply foldl_keeps1 | apply forN_keeps | apply iter_keeps) | split | (intro _ _ _; try dsimp only) | (intro _ _; try dsimp only) | (intro _; try dsimp only) | fail_if_no_progress (refine Keeps.ofMk rfl rfl rfl rfl rfl rfl rfl rfl ?_))

theorem execMmv_keeps {s0 : State} (x : EngArgs) (s : State) (h0 : Keeps s0 s) : OKeeps s0 (execMmv x s) := by
  unfold execMmv
  try dsimp only
  repeat (first | with_reducible (first | assumption | refine Keeps.fst (by assumption) ?_ | apply OKeeps.next | apply State.matrixOp_keeps | apply State.withGuardN_keeps | apply foldl_keeps | apply foldl_keeps1 | apply forN_keeps | apply iter_keeps) | split | (intro _ _ _; try dsimp only) | (intro _ _; try dsimp only) | (intro _; try dsimp only) | fail_if_no_progress (refine Keeps.ofMk rfl rfl rfl rfl rfl rfl rfl rfl ?_))

theorem execDrain_keeps {s0 : State} (x : EngArgs) (s : State) (h0 : Keeps s0 s) : OKeeps s0 (execDrain x s) := by
  unfold execDrain
  try dsimp only
  repeat (first | with_reducible (first | assumption | refine Keeps.fst (by assumption) ?_ | apply OKeeps.next | apply State.issueOne_keeps | apply State.withGuardN_keeps | apply foldl_keeps | apply foldl_keeps1 | apply forN_keeps | apply iter_keeps) | split | (intro _ _ _; try dsimp only) | (intro _ _; try dsimp only) | (intro _; try dsimp only) | fail_if_no_progress (refine Keeps.ofMk rfl rfl rfl rfl rfl rfl rfl rfl ?_))

theorem execAzero_keeps {s0 : State} (x : EngArgs) (s : State) (h0 : Keeps s0 s) : OKeeps s0 (execAzero x s) := by
  unfold execAzero
  try dsimp only
  repeat (first | with_reducible (first | assumption | refine Keeps.fst (by assumption) ?_ | apply OKeeps.next | apply State.issueOne_keeps | apply State.withGuardN_keeps | apply foldl_keeps | apply foldl_keeps1 | apply forN_keeps | apply iter_keeps) | split | (intro _ _ _; try dsimp only) | (intro _ _; try dsimp only) | (intro _; try dsimp only) | fail_if_no_progress (refine Keeps.ofMk rfl rfl rfl rfl rfl rfl rfl rfl ?_))

theorem handlerOnly_keeps {s0 : State} (c : Cx) (s f : State) (hf : Keeps s0 f) (h0 : Keeps s0 s) : Keeps s0 (handlerOnly c s f) := by
  unfold handlerOnly
  repeat (first | with_reducible (first | assumption | refine Keeps.fst (by assumption) ?_ | apply State.warpTrap_keeps | apply State.laneTrap_keeps) | split)

theorem erstForm_keeps {s0 : State} (x : EngArgs) (s : State) (f : Cx → Block → Nat → Cmd → State × Nat)
    (hf : ∀ c b k cmd, Keeps s0 (f c b k cmd).1) (h0 : Keeps s0 s) : OKeeps s0 (erstForm x s f) := by
  unfold erstForm
  refine State.withGuardN_keeps s _ _ h0 fun c m => handlerOnly_keeps _ _ _ ?_ h0
  dsimp only
  split
  · exact State.waitAct_keeps _ _ _ (State.waitLogged_keeps_eq (by assumption) h0)
  · split
    · exact State.fromLog_keeps_eq (by assumption) h0
    · split
      · exact State.giveS_keeps _ _ _ _ _ h0
      · split
        · exact State.waitAct_keeps _ _ _ (State.logWait_keeps _ _ h0)
        · split
          · exact State.giveS_keeps _ _ _ _ _ h0
          · exact State.giveS_keeps _ _ _ _ _ (hf _ _ _ _)

theorem execErst_keeps {s0 : State} (x : EngArgs) (s : State) (h0 : Keeps s0 s) : OKeeps s0 (execErst x s) := by
  unfold execErst
  try dsimp only
  repeat (first | with_reducible (first | assumption | refine Keeps.fst (by assumption) ?_ | apply OKeeps.next | apply State.modCmd_keeps | apply erstForm_keeps | apply foldl_keeps | apply foldl_keeps1 | apply forN_keeps | apply iter_keeps) | split | (intro _ _ _; try dsimp only) | (intro _ _; try dsimp only) | (intro _; try dsimp only) | fail_if_no_progress (refine Keeps.ofMk rfl rfl rfl rfl rfl rfl rfl rfl ?_))

theorem execErstAbort_keeps {s0 : State} (x : EngArgs) (s : State) (h0 : Keeps s0 s) : OKeeps s0 (execErstAbort x s) := by
  unfold execErstAbort
  try dsimp only
  repeat (first | with_reducible (first | assumption | refine Keeps.fst (by assumption) ?_ | apply OKeeps.next | apply State.modCmd_keeps | apply erstForm_keeps | apply foldl_keeps | apply foldl_keeps1 | apply forN_keeps | apply iter_keeps) | split | (intro _ _ _; try dsimp only) | (intro _ _; try dsimp only) | (intro _; try dsimp only) | fail_if_no_progress (refine Keeps.ofMk rfl rfl rfl rfl rfl rfl rfl rfl ?_))

end Sys2Proof.Machine
end

