-- ==== Sys2Proof/Laws/KeepsReplay.lean ====
section
/-! SUPPORT. `Keeps` for the operations of Replay, Sys, Record, Launch, Sched, Traps. -/

set_option linter.unusedTactic false
set_option linter.unreachableTactic false

namespace Sys2Proof.Machine

theorem State.meetObj_keeps {s0 : State} (s : State) (c desc : Nat) (bs : List Byte) (h0 : Keeps s0 s) : Keeps s0 (State.meetObj s c desc bs) := by
  unfold State.meetObj
  try dsimp only
  repeat (first | with_reducible (first | assumption | refine Keeps.fst (by assumption) ?_ | apply OKeeps.next | apply foldl_keeps | apply foldl_keeps1 | apply forN_keeps | apply iter_keeps) | split | (intro _ _ _; try dsimp only) | (intro _ _; try dsimp only) | (intro _; try dsimp only) | fail_if_no_progress (refine Keeps.ofMk rfl rfl rfl rfl rfl rfl rfl rfl ?_))

theorem State.markLost_keeps {s0 : State} (s : State) (c desc : Nat) (h0 : Keeps s0 s) : Keeps s0 (State.markLost s c desc) := by
  unfold State.markLost
  try dsimp only
  repeat (first | with_reducible (first | assumption | refine Keeps.fst (by assumption) ?_ | apply OKeeps.next | apply State.breakCopy_keeps | apply foldl_keeps | apply foldl_keeps1 | apply forN_keeps | apply iter_keeps) | split | (intro _ _ _; try dsimp only) | (intro _ _; try dsimp only) | (intro _; try dsimp only) | fail_if_no_progress (refine Keeps.ofMk rfl rfl rfl rfl rfl rfl rfl rfl ?_))

theorem State.objAt_keeps {s0 : State} (s : State) (c : Cx) (real : Mask) (desc : Nat) (lane seq : Bool) (f : State → ObjDesc → RObj → State)
    (hf : ∀ u d o, Keeps s0 u → Keeps s0 (f u d o)) (h0 : Keeps s0 s) : Keeps s0 (s.objAt c real desc lane seq f) := by
  unfold State.objAt
  dsimp only
  repeat (first | with_reducible (first | assumption | refine Keeps.fst (by assumption) ?_ | apply State.warpTrap_keeps | apply State.laneTrap_keeps | apply State.checkRange_keeps | apply State.l2Line_keeps | apply State.meetObj_keeps | apply State.markLost_keeps | apply hf) | split)

theorem State.logWrite_keeps {s0 : State} (s : State) (c desc : Nat) (w : RWaiting) (pos : Nat) (e : List Byte) (h0 : Keeps s0 s) : Keeps s0 (State.logWrite s c desc w pos e) := by
  unfold State.logWrite
  try dsimp only
  repeat (first | with_reducible (first | assumption | refine Keeps.fst (by assumption) ?_ | apply OKeeps.next | apply State.breakCopy_keeps | apply State.devRange_keeps | apply State.foreignStore_keeps | apply State.l2Write_keeps | apply State.report3A_keeps | apply foldl_keeps | apply foldl_keeps1 | apply forN_keeps | apply iter_keeps) | split | (intro _ _ _; try dsimp only) | (intro _ _; try dsimp only) | (intro _; try dsimp only) | fail_if_no_progress (refine Keeps.ofMk rfl rfl rfl rfl rfl rfl rfl rfl ?_))

theorem State.assign_keeps {s0 : State} (s : State) (c desc : Nat) (w : RWaiting) (late : Bool) (h0 : Keeps s0 s) : Keeps s0 (State.assign s c desc w late) := by
  unfold State.assign
  try dsimp only
  repeat (first | with_reducible (first | assumption | refine Keeps.fst (by assumption) ?_ | apply OKeeps.next | apply State.giveLate_keeps | apply State.giveS64_keeps | apply State.logWrite_keeps | apply State.modMask_keeps | apply State.modRobj_keeps | apply State.writeDesc_keeps | apply foldl_keeps | apply foldl_keeps1 | apply forN_keeps | apply iter_keeps) | split | (intro _ _ _; try dsimp only) | (intro _ _; try dsimp only) | (intro _; try dsimp only) | fail_if_no_progress (refine Keeps.ofMk rfl rfl rfl rfl rfl rfl rfl rfl ?_))

theorem execRcall_keeps {s0 : State} (x : EngArgs) (s : State) (h0 : Keeps s0 s) : OKeeps s0 (execRcall x s) := by
  unfold execRcall
  try dsimp only
  repeat (first | with_reducible (first | assumption | refine Keeps.fst (by assumption) ?_ | apply OKeeps.next | apply State.assign_keeps | refine State.fromLog_keeps_eq (by assumption) ?_ | apply State.log_keeps | apply State.logWait_keeps | apply State.modMask_keeps | apply State.modRobj_keeps | apply State.objAt_keeps | apply State.release_keeps | apply State.takeLate_keeps | apply State.waitHere_keeps | refine State.waitLogged_keeps_eq (by assumption) ?_ | apply State.warpTrap_keeps | apply State.withGuardN_keeps | apply foldl_keeps | apply foldl_keeps1 | apply forN_keeps | apply iter_keeps) | split | (intro _ _ _; try dsimp only) | (intro _ _; try dsimp only) | (intro _; try dsimp only) | fail_if_no_progress (refine Keeps.ofMk rfl rfl rfl rfl rfl rfl rfl rfl ?_))

theorem execSequencerAssign_keeps {s0 : State} (obj : Nat) (s : State) (h0 : Keeps s0 s) : OKeeps s0 (execSequencerAssign obj s) := by
  unfold execSequencerAssign
  try dsimp only
  repeat (first | with_reducible (first | assumption | refine Keeps.fst (by assumption) ?_ | apply OKeeps.next | apply State.assign_keeps | apply State.markLost_keeps | apply State.modRobj_keeps | apply State.releaseIf_keeps | apply foldl_keeps | apply foldl_keeps1 | apply forN_keeps | apply iter_keeps) | split | (intro _ _ _; try dsimp only) | (intro _ _; try dsimp only) | (intro _; try dsimp only) | fail_if_no_progress (refine Keeps.ofMk rfl rfl rfl rfl rfl rfl rfl rfl ?_))

theorem execRread_keeps {s0 : State} (x : EngArgs) (s : State) (h0 : Keeps s0 s) : OKeeps s0 (execRread x s) := by
  unfold execRread
  try dsimp only
  repeat (first | with_reducible (first | assumption | refine Keeps.fst (by assumption) ?_ | apply OKeeps.next | apply State.log_keeps | apply State.logWait_keeps | refine State.logged_keeps_eq (by assumption) ?_ | apply State.objAt_keeps | apply State.release_keeps | apply State.rreadEnter_keeps | apply State.rreadReplay_keeps | apply State.waitHere_keeps | refine State.waitLogged_keeps_eq (by assumption) ?_ | apply State.warpTrap_keeps | apply State.withGuardN_keeps | apply foldl_keeps | apply foldl_keeps1 | apply forN_keeps | apply iter_keeps) | split | (intro _ _ _; try dsimp only) | (intro _ _; try dsimp only) | (intro _; try dsimp only) | fail_if_no_progress (refine Keeps.ofMk rfl rfl rfl rfl rfl rfl rfl rfl ?_))

theorem execRwait_keeps {s0 : State} (x : EngArgs) (s : State) (h0 : Keeps s0 s) : OKeeps s0 (execRwait x s) := by
  unfold execRwait
  try dsimp only
  repeat (first | with_reducible (first | assumption | refine Keeps.fst (by assumption) ?_ | apply OKeeps.next | apply State.acquire_keeps | apply State.logWait_keeps | apply State.objAt_keeps | apply State.waitAct_keeps | refine State.waitLogged_keeps_eq (by assumption) ?_ | apply State.withGuardN_keeps | apply foldl_keeps | apply foldl_keeps1 | apply forN_keeps | apply iter_keeps) | split | (intro _ _ _; try dsimp only) | (intro _ _; try dsimp only) | (intro _; try dsimp only) | fail_if_no_progress (refine Keeps.ofMk rfl rfl rfl rfl rfl rfl rfl rfl ?_))

theorem execReplayInvocationStart_keeps {s0 : State} (die : Nat) (s : State) (h0 : Keeps s0 s) : OKeeps s0 (execReplayInvocationStart die s) := by
  unfold execReplayInvocationStart
  try dsimp only
  repeat (first | with_reducible (first | assumption | refine Keeps.fst (by assumption) ?_ | apply OKeeps.next | apply State.breakCopy_keeps | apply State.bump_keeps | apply State.devRead_keeps | apply State.fetchClause_keeps | apply State.log_keeps | apply State.report3A_keeps | apply foldl_keeps | apply foldl_keeps1 | apply forN_keeps | apply iter_keeps) | split | (intro _ _ _; try dsimp only) | (intro _ _; try dsimp only) | (intro _; try dsimp only) | fail_if_no_progress (refine Keeps.ofMk rfl rfl rfl rfl rfl rfl rfl rfl ?_))

theorem execMethodClauseLimit_keeps {s0 : State} (die : Nat) (s : State) (h0 : Keeps s0 s) : OKeeps s0 (execMethodClauseLimit die s) := by
  unfold execMethodClauseLimit
  try dsimp only
  repeat (first | with_reducible (first | assumption | refine Keeps.fst (by assumption) ?_ | apply OKeeps.next | apply State.methodFault_keeps | apply State.wakeAll_keeps | apply foldl_keeps | apply foldl_keeps1 | apply forN_keeps | apply iter_keeps) | split | (intro _ _ _; try dsimp only) | (intro _ _; try dsimp only) | (intro _; try dsimp only) | fail_if_no_progress (refine Keeps.ofMk rfl rfl rfl rfl rfl rfl rfl rfl ?_))

theorem execReplayInvocationEnd_keeps {s0 : State} (die : Nat) (s : State) (h0 : Keeps s0 s) : OKeeps s0 (execReplayInvocationEnd die s) := by
  unfold execReplayInvocationEnd
  try dsimp only
  repeat (first | with_reducible (first | assumption | refine Keeps.fst (by assumption) ?_ | apply OKeeps.next | apply State.devWriteBy_keeps | apply State.modBlock_keeps | apply State.report3A_keeps | apply foldl_keeps | apply foldl_keeps1 | apply forN_keeps | apply iter_keeps) | split | (intro _ _ _; try dsimp only) | (intro _ _; try dsimp only) | (intro _; try dsimp only) | fail_if_no_progress (refine Keeps.ofMk rfl rfl rfl rfl rfl rfl rfl rfl ?_))

theorem execReplayAppliedUpdate_keeps {s0 : State} (die : Nat) (s : State) (h0 : Keeps s0 s) : OKeeps s0 (execReplayAppliedUpdate die s) := by
  unfold execReplayAppliedUpdate
  try dsimp only
  repeat (first | with_reducible (first | assumption | refine Keeps.fst (by assumption) ?_ | apply OKeeps.next | apply State.drainAll_keeps | apply State.modRobj_keeps | apply State.updateTrim_keeps | apply State.wakeAll_keeps | apply State.writeDesc_keeps | apply foldl_keeps | apply foldl_keeps1 | apply forN_keeps | apply iter_keeps) | split | (intro _ _ _; try dsimp only) | (intro _ _; try dsimp only) | (intro _; try dsimp only) | fail_if_no_progress (refine Keeps.ofMk rfl rfl rfl rfl rfl rfl rfl rfl ?_))

theorem execRsync_keeps {s0 : State} (x : EngArgs) (s : State) (h0 : Keeps s0 s) : OKeeps s0 (execRsync x s) := by
  unfold execRsync
  try dsimp only
  repeat (first | with_reducible (first | assumption | refine Keeps.fst (by assumption) ?_ | apply OKeeps.next | refine State.fromLog_keeps_eq (by assumption) ?_ | apply State.giveS64_keeps | apply State.hold_keeps | refine State.logged_keeps_eq (by assumption) ?_ | apply State.modWarp_keeps | apply State.objAt_keeps | apply State.takeLate_keeps | apply State.withGuardN_keeps | apply foldl_keeps | apply foldl_keeps1 | apply forN_keeps | apply iter_keeps) | split | (intro _ _ _; try dsimp only) | (intro _ _; try dsimp only) | (intro _; try dsimp only) | fail_if_no_progress (refine Keeps.ofMk rfl rfl rfl rfl rfl rfl rfl rfl ?_))

theorem State.copyChunks_keeps {s0 : State} (s : State) (c die d src dst n : Nat) (h0 : Keeps s0 s) :
    Keeps s0 (s.copyChunks c die d src dst n).1 := by
  induction n generalizing s src dst with
  | zero => exact h0
  | succ n ih =>
    unfold State.copyChunks
    dsimp only
    repeat (first | with_reducible (first | assumption | refine Keeps.fst (by assumption) ?_ | apply State.devRange_keeps | apply State.foreignStore_keeps | apply State.l2Write_keeps | apply State.l2Line_keeps | apply ih) | split)

theorem State.reseedAnswer_keeps {s0 : State} (s : State) (c desc die : Nat) (v : DWord) (h0 : Keeps s0 s) : Keeps s0 (State.reseedAnswer s c desc die v) := by
  unfold State.reseedAnswer
  try dsimp only
  repeat (first | with_reducible (first | assumption | refine Keeps.fst (by assumption) ?_ | apply OKeeps.next | apply State.giveLate_keeps | apply State.hold_keeps | apply State.modWarp_keeps | apply foldl_keeps | apply foldl_keeps1 | apply forN_keeps | apply iter_keeps) | split | (intro _ _ _; try dsimp only) | (intro _ _; try dsimp only) | (intro _; try dsimp only) | fail_if_no_progress (refine Keeps.ofMk rfl rfl rfl rfl rfl rfl rfl rfl ?_))

theorem State.redonor_keeps {s0 : State} (s : State) (r : Reseed) (h0 : Keeps s0 s) : Keeps s0 (State.redonor s r) := by
  unfold State.redonor
  try dsimp only
  repeat (first | with_reducible (first | assumption | refine Keeps.fst (by assumption) ?_ | apply OKeeps.next | apply State.reseedAnswer_keeps | apply foldl_keeps | apply foldl_keeps1 | apply forN_keeps | apply iter_keeps) | split | (intro _ _ _; try dsimp only) | (intro _ _; try dsimp only) | (intro _; try dsimp only) | fail_if_no_progress (refine Keeps.ofMk rfl rfl rfl rfl rfl rfl rfl rfl ?_))

theorem execRsyncReseedComplete_keeps {s0 : State} (b w : Nat) (s : State) (h0 : Keeps s0 s) : OKeeps s0 (execRsyncReseedComplete b w s) := by
  unfold execRsyncReseedComplete
  try dsimp only
  repeat (first | with_reducible (first | assumption | refine Keeps.fst (by assumption) ?_ | apply OKeeps.next | apply State.copyChunks_keeps | apply State.devRead_keeps | apply State.dropL1_keeps | apply State.hold_keeps | apply State.markLost_keeps | apply State.modRobj_keeps | apply State.redonor_keeps | apply State.report3A_keeps | apply State.reseedAnswer_keeps | apply State.updateTrim_keeps | apply State.wakeAll_keeps | apply State.writeDesc_keeps | apply foldl_keeps | apply foldl_keeps1 | apply forN_keeps | apply iter_keeps) | split | (intro _ _ _; try dsimp only) | (intro _ _; try dsimp only) | (intro _; try dsimp only) | fail_if_no_progress (refine Keeps.ofMk rfl rfl rfl rfl rfl rfl rfl rfl ?_))

theorem execTrapI_keeps {s0 : State} (x : EngArgs) (s : State) (h0 : Keeps s0 s) : OKeeps s0 (execTrapI x s) := by
  unfold execTrapI
  try dsimp only
  repeat (first | with_reducible (first | assumption | refine Keeps.fst (by assumption) ?_ | apply OKeeps.next | apply State.laneTrap_keeps | apply State.methodFault_keeps | apply State.withGuard_keeps | apply foldl_keeps | apply foldl_keeps1 | apply forN_keeps | apply iter_keeps) | split | (intro _ _ _; try dsimp only) | (intro _ _; try dsimp only) | (intro _; try dsimp only) | fail_if_no_progress (refine Keeps.ofMk rfl rfl rfl rfl rfl rfl rfl rfl ?_))

theorem execTret_keeps {s0 : State} (x : EngArgs) (s : State) (h0 : Keeps s0 s) : OKeeps s0 (execTret x s) := by
  unfold execTret
  try dsimp only
  repeat (first | with_reducible (first | assumption | refine Keeps.fst (by assumption) ?_ | apply OKeeps.next | apply State.exitThreads_keeps | apply State.retire_keeps | apply State.settle_keeps | apply State.withGuardN_keeps | apply handlerOnly_keeps | apply foldl_keeps | apply foldl_keeps1 | apply forN_keeps | apply iter_keeps) | split | (intro _ _ _; try dsimp only) | (intro _ _; try dsimp only) | (intro _; try dsimp only) | fail_if_no_progress (refine Keeps.ofMk rfl rfl rfl rfl rfl rfl rfl rfl ?_))

theorem State.haltStop_keeps {s0 : State} (s : State) (b : Block) (wi : Nat) (m : Mask) (h0 : Keeps s0 s) : Keeps s0 (State.haltStop s b wi m) := by
  unfold State.haltStop
  try dsimp only
  repeat (first | with_reducible (first | assumption | refine Keeps.fst (by assumption) ?_ | apply OKeeps.next | apply State.modCtx_keeps | apply foldl_keeps | apply foldl_keeps1 | apply forN_keeps | apply iter_keeps) | split | (intro _ _ _; try dsimp only) | (intro _ _; try dsimp only) | (intro _; try dsimp only) | fail_if_no_progress (refine Keeps.ofMk rfl rfl rfl rfl rfl rfl rfl rfl ?_))

theorem execBrk_keeps {s0 : State} (x : EngArgs) (s : State) (h0 : Keeps s0 s) : OKeeps s0 (execBrk x s) := by
  unfold execBrk
  try dsimp only
  repeat (first | with_reducible (first | assumption | refine Keeps.fst (by assumption) ?_ | apply OKeeps.next | apply State.haltStop_keeps | apply State.laneTrap_keeps | apply State.withGuardN_keeps | apply foldl_keeps | apply foldl_keeps1 | apply forN_keeps | apply iter_keeps) | split | (intro _ _ _; try dsimp only) | (intro _ _; try dsimp only) | (intro _; try dsimp only) | fail_if_no_progress (refine Keeps.ofMk rfl rfl rfl rfl rfl rfl rfl rfl ?_))

theorem execTrcmark_keeps {s0 : State} (x : EngArgs) (s : State) (h0 : Keeps s0 s) : OKeeps s0 (execTrcmark x s) := by
  unfold execTrcmark
  try dsimp only
  repeat (first | with_reducible (first | assumption | refine Keeps.fst (by assumption) ?_ | apply OKeeps.next | apply State.emit_keeps | apply State.withGuard_keeps | apply foldl_keeps | apply foldl_keeps1 | apply forN_keeps | apply iter_keeps) | split | (intro _ _ _; try dsimp only) | (intro _ _; try dsimp only) | (intro _; try dsimp only) | fail_if_no_progress (refine Keeps.ofMk rfl rfl rfl rfl rfl rfl rfl rfl ?_))

theorem State.fragWait_keeps {s0 : State} (s : State) (c : Cx) (x : EngArgs) (f : State → State) (hf : ∀ u, Keeps s0 u → Keeps s0 (f u))
    (h0 : Keeps s0 s) : Keeps s0 (s.fragWait c x f) := by
  unfold State.fragWait
  split
  · exact State.waitAct_keeps _ _ _ (State.waitLogged_keeps_eq (by assumption) h0)
  · split
    · exact hf _ h0
    · split
      · exact State.waitAct_keeps _ _ _ (State.logWait_keeps _ _ h0)
      · exact hf _ h0

theorem execFrgq_keeps {s0 : State} (x : EngArgs) (s : State) (h0 : Keeps s0 s) : OKeeps s0 (execFrgq x s) := by
  unfold execFrgq
  try dsimp only
  repeat (first | with_reducible (first | assumption | refine Keeps.fst (by assumption) ?_ | apply OKeeps.next | apply State.fragWait_keeps | refine State.fromLog_keeps_eq (by assumption) ?_ | apply State.giveS64_keeps | apply State.withGuardN_keeps | apply handlerOnly_keeps | apply foldl_keeps | apply foldl_keeps1 | apply forN_keeps | apply iter_keeps) | split | (intro _ _ _; try dsimp only) | (intro _ _; try dsimp only) | (intro _; try dsimp only) | fail_if_no_progress (refine Keeps.ofMk rfl rfl rfl rfl rfl rfl rfl rfl ?_))

theorem State.fragForm_keeps {s0 : State} (s : State) (c : Cx) (x : EngArgs) (f : State → Nat → Nat → Frag → State × Nat)
    (hf : ∀ u core e g, Keeps s0 u → Keeps s0 (f u core e g).1) (h0 : Keeps s0 s) : Keeps s0 (s.fragForm c x f) := by
  unfold State.fragForm
  refine handlerOnly_keeps _ _ _ (State.fragWait_keeps _ _ _ _ (fun u hu => ?_) h0) h0
  split
  · exact State.fromLog_keeps_eq (by assumption) hu
  · dsimp only
    repeat (first | with_reducible (first | assumption | refine Keeps.fst (by assumption) ?_ | apply State.wakeAll_keeps | apply State.giveS_keeps | apply hf) | split)

theorem State.putFrag_keeps {s0 : State} (s : State) (core e : Nat) (g : Frag) (h0 : Keeps s0 s) : Keeps s0 (State.putFrag s core e g) := by
  unfold State.putFrag
  try dsimp only
  repeat (first | with_reducible (first | assumption | refine Keeps.fst (by assumption) ?_ | apply OKeeps.next | apply State.log_keeps | apply State.modCore_keeps | apply State.modMask_keeps | apply State.syncHelpers_keeps | apply foldl_keeps | apply foldl_keeps1 | apply forN_keeps | apply iter_keeps) | split | (intro _ _ _; try dsimp only) | (intro _ _; try dsimp only) | (intro _; try dsimp only) | fail_if_no_progress (refine Keeps.ofMk rfl rfl rfl rfl rfl rfl rfl rfl ?_))

theorem execFrgsetPc_keeps {s0 : State} (x : EngArgs) (s : State) (h0 : Keeps s0 s) : OKeeps s0 (execFrgsetPc x s) := by
  unfold execFrgsetPc
  try dsimp only
  repeat (first | with_reducible (first | assumption | refine Keeps.fst (by assumption) ?_ | apply OKeeps.next | apply State.fragForm_keeps | apply State.putFrag_keeps | apply State.withGuardN_keeps | apply foldl_keeps | apply foldl_keeps1 | apply forN_keeps | apply iter_keeps) | split | (intro _ _ _; try dsimp only) | (intro _ _; try dsimp only) | (intro _; try dsimp only) | fail_if_no_progress (refine Keeps.ofMk rfl rfl rfl rfl rfl rfl rfl rfl ?_))

theorem State.killThreads_keeps {s0 : State} (s : State) (g : Frag) (m : Mask) (h0 : Keeps s0 s) : Keeps s0 (State.killThreads s g m) := by
  unfold State.killThreads
  try dsimp only
  repeat (first | with_reducible (first | assumption | refine Keeps.fst (by assumption) ?_ | apply OKeeps.next | apply State.exitThreads_keeps | apply State.log_keeps | apply State.settle_keeps | apply foldl_keeps | apply foldl_keeps1 | apply forN_keeps | apply iter_keeps) | split | (intro _ _ _; try dsimp only) | (intro _ _; try dsimp only) | (intro _; try dsimp only) | fail_if_no_progress (refine Keeps.ofMk rfl rfl rfl rfl rfl rfl rfl rfl ?_))

theorem execFrgsetRem_keeps {s0 : State} (x : EngArgs) (s : State) (h0 : Keeps s0 s) : OKeeps s0 (execFrgsetRem x s) := by
  unfold execFrgsetRem
  try dsimp only
  repeat (first | with_reducible (first | assumption | refine Keeps.fst (by assumption) ?_ | apply OKeeps.next | apply State.fragForm_keeps | apply State.killThreads_keeps | apply State.withGuardN_keeps | apply foldl_keeps | apply foldl_keeps1 | apply forN_keeps | apply iter_keeps) | split | (intro _ _ _; try dsimp only) | (intro _ _; try dsimp only) | (intro _; try dsimp only) | fail_if_no_progress (refine Keeps.ofMk rfl rfl rfl rfl rfl rfl rfl rfl ?_))

theorem State.traceSetPc_keeps {s0 : State} (s : State) (b : Block) (g : Frag) (h0 : Keeps s0 s) : Keeps s0 (State.traceSetPc s b g) := by
  unfold State.traceSetPc
  try dsimp only
  repeat (first | with_reducible (first | assumption | refine Keeps.fst (by assumption) ?_ | apply OKeeps.next | apply State.emit_keeps | apply foldl_keeps | apply foldl_keeps1 | apply forN_keeps | apply iter_keeps) | split | (intro _ _ _; try dsimp only) | (intro _ _; try dsimp only) | (intro _; try dsimp only) | fail_if_no_progress (refine Keeps.ofMk rfl rfl rfl rfl rfl rfl rfl rfl ?_))

theorem State.resume_keeps {s0 : State} (s : State) (core e : Nat) (g : Frag) (h0 : Keeps s0 s) : Keeps s0 (State.resume s core e g) := by
  unfold State.resume
  try dsimp only
  repeat (first | with_reducible (first | assumption | refine Keeps.fst (by assumption) ?_ | apply OKeeps.next | apply State.landOk_keeps | apply State.modMask_keeps | apply State.putFrag_keeps | apply State.settle_keeps | apply State.syncHelpers_keeps | apply State.takeTrap_keeps | apply State.traceSetPc_keeps | apply foldl_keeps | apply foldl_keeps1 | apply forN_keeps | apply iter_keeps) | split | (intro _ _ _; try dsimp only) | (intro _ _; try dsimp only) | (intro _; try dsimp only) | fail_if_no_progress (refine Keeps.ofMk rfl rfl rfl rfl rfl rfl rfl rfl ?_))

theorem State.afterWord_keeps {s0 : State} (s : State) (core : Nat) (g : Frag) (h0 : Keeps s0 s) : Keeps s0 (State.afterWord s core g).1 := by
  unfold State.afterWord
  try dsimp only
  repeat (first | with_reducible (first | assumption | refine Keeps.fst (by assumption) ?_ | apply OKeeps.next | apply State.fetchClause_keeps | apply foldl_keeps | apply foldl_keeps1 | apply forN_keeps | apply iter_keeps) | split | (intro _ _ _; try dsimp only) | (intro _ _; try dsimp only) | (intro _; try dsimp only) | fail_if_no_progress (refine Keeps.ofMk rfl rfl rfl rfl rfl rfl rfl rfl ?_))

theorem execFrgres_keeps {s0 : State} (x : EngArgs) (s : State) (h0 : Keeps s0 s) : OKeeps s0 (execFrgres x s) := by
  unfold execFrgres
  try dsimp only
  repeat (first | with_reducible (first | assumption | refine Keeps.fst (by assumption) ?_ | apply OKeeps.next | apply State.fragForm_keeps | apply State.resume_keeps | apply State.withGuardN_keeps | apply foldl_keeps | apply foldl_keeps1 | apply forN_keeps | apply iter_keeps) | split | (intro _ _ _; try dsimp only) | (intro _ _; try dsimp only) | (intro _; try dsimp only) | fail_if_no_progress (refine Keeps.ofMk rfl rfl rfl rfl rfl rfl rfl rfl ?_))

theorem State.badPlace_keeps {s0 : State} (s : State) (core : Nat) (g : Frag) (h0 : Keeps s0 s) : Keeps s0 (State.badPlace s core g).1 := by
  unfold State.badPlace
  try dsimp only
  repeat (first | with_reducible (first | assumption | refine Keeps.fst (by assumption) ?_ | apply OKeeps.next | apply State.landOk_keeps | apply foldl_keeps | apply foldl_keeps1 | apply forN_keeps | apply iter_keeps) | split | (intro _ _ _; try dsimp only) | (intro _ _; try dsimp only) | (intro _; try dsimp only) | fail_if_no_progress (refine Keeps.ofMk rfl rfl rfl rfl rfl rfl rfl rfl ?_))

theorem execFrgresSkip_keeps {s0 : State} (x : EngArgs) (s : State) (h0 : Keeps s0 s) : OKeeps s0 (execFrgresSkip x s) := by
  unfold execFrgresSkip
  try dsimp only
  repeat (first | with_reducible (first | assumption | refine Keeps.fst (by assumption) ?_ | apply OKeeps.next | apply State.afterWord_keeps | apply State.badPlace_keeps | apply State.fragForm_keeps | apply State.resume_keeps | apply State.traceSetPc_keeps | apply State.withGuardN_keeps | apply foldl_keeps | apply foldl_keeps1 | apply forN_keeps | apply iter_keeps) | split | (intro _ _ _; try dsimp only) | (intro _ _; try dsimp only) | (intro _; try dsimp only) | fail_if_no_progress (refine Keeps.ofMk rfl rfl rfl rfl rfl rfl rfl rfl ?_))

theorem execFrgkill_keeps {s0 : State} (x : EngArgs) (s : State) (h0 : Keeps s0 s) : OKeeps s0 (execFrgkill x s) := by
  unfold execFrgkill
  try dsimp only
  repeat (first | with_reducible (first | assumption | refine Keeps.fst (by assumption) ?_ | apply OKeeps.next | apply State.fragForm_keeps | apply State.killThreads_keeps | apply State.withGuardN_keeps | apply foldl_keeps | apply foldl_keeps1 | apply forN_keeps | apply iter_keeps) | split | (intro _ _ _; try dsimp only) | (intro _ _; try dsimp only) | (intro _; try dsimp only) | fail_if_no_progress (refine Keeps.ofMk rfl rfl rfl rfl rfl rfl rfl rfl ?_))

theorem State.mapCores_keeps {s0 : State} (s : State) (f : Core → Core) (h0 : Keeps s0 s) : Keeps s0 (State.mapCores s f) := by
  unfold State.mapCores
  try dsimp only
  repeat (first | with_reducible (first | assumption | refine Keeps.fst (by assumption) ?_ | apply OKeeps.next | apply foldl_keeps | apply foldl_keeps1 | apply forN_keeps | apply iter_keeps) | split | (intro _ _ _; try dsimp only) | (intro _ _; try dsimp only) | (intro _; try dsimp only) | fail_if_no_progress (refine Keeps.ofMk rfl rfl rfl rfl rfl rfl rfl rfl ?_))

theorem State.addHold_keeps {s0 : State} (s : State) (c : Cx) (h : Hold) (h0 : Keeps s0 s) : Keeps s0 (State.addHold s c h) := by
  unfold State.addHold
  try dsimp only
  repeat (first | with_reducible (first | assumption | refine Keeps.fst (by assumption) ?_ | apply OKeeps.next | apply State.hold_keeps | apply State.modWarp_keeps | apply foldl_keeps | apply foldl_keeps1 | apply forN_keeps | apply iter_keeps) | split | (intro _ _ _; try dsimp only) | (intro _ _; try dsimp only) | (intro _; try dsimp only) | fail_if_no_progress (refine Keeps.ofMk rfl rfl rfl rfl rfl rfl rfl rfl ?_))

theorem State.endHold_keeps {s0 : State} (s : State) (ctx : Nat) (h : Hold) (h0 : Keeps s0 s) : Keeps s0 (State.endHold s ctx h) := by
  unfold State.endHold
  try dsimp only
  repeat (first | with_reducible (first | assumption | refine Keeps.fst (by assumption) ?_ | apply OKeeps.next | apply State.hold_keeps | apply foldl_keeps | apply foldl_keeps1 | apply forN_keeps | apply iter_keeps) | split | (intro _ _ _; try dsimp only) | (intro _ _; try dsimp only) | (intro _; try dsimp only) | fail_if_no_progress (refine Keeps.ofMk rfl rfl rfl rfl rfl rfl rfl rfl ?_))

theorem execMapt_keeps {s0 : State} (x : EngArgs) (s : State) (h0 : Keeps s0 s) : OKeeps s0 (execMapt x s) := by
  unfold execMapt
  try dsimp only
  repeat (first | with_reducible (first | assumption | refine Keeps.fst (by assumption) ?_ | apply OKeeps.next | apply State.addHold_keeps | apply State.release_keeps | apply State.withGuardN_keeps | apply foldl_keeps | apply foldl_keeps1 | apply forN_keeps | apply iter_keeps) | split | (intro _ _ _; try dsimp only) | (intro _ _; try dsimp only) | (intro _; try dsimp only) | fail_if_no_progress (refine Keeps.ofMk rfl rfl rfl rfl rfl rfl rfl rfl ?_))

theorem execMappingChangeComplete_keeps {s0 : State} (c : Nat) (va : DWord) (n : Nat) (s : State) (h0 : Keeps s0 s) : OKeeps s0 (execMappingChangeComplete c va n s) := by
  unfold execMappingChangeComplete
  try dsimp only
  repeat (first | with_reducible (first | assumption | refine Keeps.fst (by assumption) ?_ | apply OKeeps.next | apply State.endHold_keeps | apply State.mapCores_keeps | apply State.recheckFrames_keeps | apply foldl_keeps | apply foldl_keeps1 | apply forN_keeps | apply iter_keeps) | split | (intro _ _ _; try dsimp only) | (intro _ _; try dsimp only) | (intro _; try dsimp only) | fail_if_no_progress (refine Keeps.ofMk rfl rfl rfl rfl rfl rfl rfl rfl ?_))

theorem execTlrinv_keeps {s0 : State} (x : EngArgs) (s : State) (h0 : Keeps s0 s) : OKeeps s0 (execTlrinv x s) := by
  unfold execTlrinv
  try dsimp only
  repeat (first | with_reducible (first | assumption | refine Keeps.fst (by assumption) ?_ | apply OKeeps.next | apply State.addHold_keeps | apply State.release_keeps | apply State.withGuardN_keeps | apply foldl_keeps | apply foldl_keeps1 | apply forN_keeps | apply iter_keeps) | split | (intro _ _ _; try dsimp only) | (intro _ _; try dsimp only) | (intro _; try dsimp only) | fail_if_no_progress (refine Keeps.ofMk rfl rfl rfl rfl rfl rfl rfl rfl ?_))

theorem State.dropTlr_keeps {s0 : State} (s : State) (c idx : Nat) (known : Bool) (h0 : Keeps s0 s) : Keeps s0 (State.dropTlr s c idx known) := by
  unfold State.dropTlr
  try dsimp only
  repeat (first | with_reducible (first | assumption | refine Keeps.fst (by assumption) ?_ | apply OKeeps.next | apply State.bump_keeps | apply foldl_keeps | apply foldl_keeps1 | apply forN_keeps | apply iter_keeps) | split | (intro _ _ _; try dsimp only) | (intro _ _; try dsimp only) | (intro _; try dsimp only) | fail_if_no_progress (refine Keeps.ofMk rfl rfl rfl rfl rfl rfl rfl rfl ?_))

theorem execTlrInvalidateComplete_keeps {s0 : State} (c idx : Nat) (s : State) (h0 : Keeps s0 s) : OKeeps s0 (execTlrInvalidateComplete c idx s) := by
  unfold execTlrInvalidateComplete
  try dsimp only
  repeat (first | with_reducible (first | assumption | refine Keeps.fst (by assumption) ?_ | apply OKeeps.next | apply State.dropTlr_keeps | apply State.endHold_keeps | apply State.mapCores_keeps | apply foldl_keeps | apply foldl_keeps1 | apply forN_keeps | apply iter_keeps) | split | (intro _ _ _; try dsimp only) | (intro _ _; try dsimp only) | (intro _; try dsimp only) | fail_if_no_progress (refine Keeps.ofMk rfl rfl rfl rfl rfl rfl rfl rfl ?_))

theorem placeRight_keeps {s0 : State} (c : Cx) (s f : State) (hf : Keeps s0 f) (h0 : Keeps s0 s) : Keeps s0 (placeRight c s f) := by
  unfold placeRight
  repeat (first | with_reducible (first | assumption | refine Keeps.fst (by assumption) ?_ | apply State.warpTrap_keeps) | split)

theorem State.modPlace_keeps {s0 : State} (s : State) (cell : Nat) (f : Place → Place) (h0 : Keeps s0 s) : Keeps s0 (State.modPlace s cell f) := by
  unfold State.modPlace
  try dsimp only
  repeat (first | with_reducible (first | assumption | refine Keeps.fst (by assumption) ?_ | apply OKeeps.next | apply State.reset_keeps | apply foldl_keeps | apply foldl_keeps1 | apply forN_keeps | apply iter_keeps) | split | (intro _ _ _; try dsimp only) | (intro _ _; try dsimp only) | (intro _; try dsimp only) | fail_if_no_progress (refine Keeps.ofMk rfl rfl rfl rfl rfl rfl rfl rfl ?_))

theorem execPlcwDie_keeps {s0 : State} (x : EngArgs) (s : State) (h0 : Keeps s0 s) : OKeeps s0 (execPlcwDie x s) := by
  unfold execPlcwDie
  try dsimp only
  repeat (first | with_reducible (first | assumption | refine Keeps.fst (by assumption) ?_ | apply OKeeps.next | apply State.modPlace_keeps | apply State.withGuardN_keeps | apply placeRight_keeps | apply foldl_keeps | apply foldl_keeps1 | apply forN_keeps | apply iter_keeps) | split | (intro _ _ _; try dsimp only) | (intro _ _; try dsimp only) | (intro _; try dsimp only) | fail_if_no_progress (refine Keeps.ofMk rfl rfl rfl rfl rfl rfl rfl rfl ?_))

theorem execPlcwTgt_keeps {s0 : State} (x : EngArgs) (s : State) (h0 : Keeps s0 s) : OKeeps s0 (execPlcwTgt x s) := by
  unfold execPlcwTgt
  try dsimp only
  repeat (first | with_reducible (first | assumption | refine Keeps.fst (by assumption) ?_ | apply OKeeps.next | apply State.modPlace_keeps | apply State.withGuardN_keeps | apply placeRight_keeps | apply foldl_keeps | apply foldl_keeps1 | apply forN_keeps | apply iter_keeps) | split | (intro _ _ _; try dsimp only) | (intro _ _; try dsimp only) | (intro _; try dsimp only) | fail_if_no_progress (refine Keeps.ofMk rfl rfl rfl rfl rfl rfl rfl rfl ?_))

theorem execStow_keeps {s0 : State} (x : EngArgs) (s : State) (h0 : Keeps s0 s) : OKeeps s0 (execStow x s) := by
  unfold execStow
  try dsimp only
  repeat (first | with_reducible (first | assumption | refine Keeps.fst (by assumption) ?_ | apply OKeeps.next | apply State.modBlock_keeps | apply State.withGuardN_keeps | apply foldl_keeps | apply foldl_keeps1 | apply forN_keeps | apply iter_keeps) | split | (intro _ _ _; try dsimp only) | (intro _ _; try dsimp only) | (intro _; try dsimp only) | fail_if_no_progress (refine Keeps.ofMk rfl rfl rfl rfl rfl rfl rfl rfl ?_))

theorem execStowClr_keeps {s0 : State} (x : EngArgs) (s : State) (h0 : Keeps s0 s) : OKeeps s0 (execStowClr x s) := by
  unfold execStowClr
  try dsimp only
  repeat (first | with_reducible (first | assumption | refine Keeps.fst (by assumption) ?_ | apply OKeeps.next | apply State.modBlock_keeps | apply State.withGuardN_keeps | apply foldl_keeps | apply foldl_keeps1 | apply forN_keeps | apply iter_keeps) | split | (intro _ _ _; try dsimp only) | (intro _ _; try dsimp only) | (intro _; try dsimp only) | fail_if_no_progress (refine Keeps.ofMk rfl rfl rfl rfl rfl rfl rfl rfl ?_))

theorem execLivem_keeps {s0 : State} (x : EngArgs) (s : State) (h0 : Keeps s0 s) : OKeeps s0 (execLivem x s) := by
  unfold execLivem
  try dsimp only
  repeat (first | with_reducible (first | assumption | refine Keeps.fst (by assumption) ?_ | apply OKeeps.next | apply State.modWarp_keeps | apply State.withGuardN_keeps | apply foldl_keeps | apply foldl_keeps1 | apply forN_keeps | apply iter_keeps) | split | (intro _ _ _; try dsimp only) | (intro _ _; try dsimp only) | (intro _; try dsimp only) | fail_if_no_progress (refine Keeps.ofMk rfl rfl rfl rfl rfl rfl rfl rfl ?_))

theorem execLivemClr_keeps {s0 : State} (x : EngArgs) (s : State) (h0 : Keeps s0 s) : OKeeps s0 (execLivemClr x s) := by
  unfold execLivemClr
  try dsimp only
  repeat (first | with_reducible (first | assumption | refine Keeps.fst (by assumption) ?_ | apply OKeeps.next | apply State.modWarp_keeps | apply State.withGuardN_keeps | apply foldl_keeps | apply foldl_keeps1 | apply forN_keeps | apply iter_keeps) | split | (intro _ _ _; try dsimp only) | (intro _ _; try dsimp only) | (intro _; try dsimp only) | fail_if_no_progress (refine Keeps.ofMk rfl rfl rfl rfl rfl rfl rfl rfl ?_))

theorem State.markShare_keeps {s0 : State} (s : State) (c : Nat) (vas : List Nat) (h0 : Keeps s0 s) : Keeps s0 (State.markShare s c vas) := by
  unfold State.markShare
  try dsimp only
  repeat (first | with_reducible (first | assumption | refine Keeps.fst (by assumption) ?_ | apply OKeeps.next | apply State.bump_keeps | apply State.devPage_keeps | apply foldl_keeps | apply foldl_keeps1 | apply forN_keeps | apply iter_keeps) | split | (intro _ _ _; try dsimp only) | (intro _ _; try dsimp only) | (intro _; try dsimp only) | fail_if_no_progress (refine Keeps.ofMk rfl rfl rfl rfl rfl rfl rfl rfl ?_))

theorem State.markNew_keeps {s0 : State} (s : State) (c : Nat) (vas : List Nat) (h0 : Keeps s0 s) : Keeps s0 (State.markNew s c vas) := by
  unfold State.markNew
  try dsimp only
  repeat (first | with_reducible (first | assumption | refine Keeps.fst (by assumption) ?_ | apply OKeeps.next | apply State.devPage_keeps | apply State.markShare_keeps | apply foldl_keeps | apply foldl_keeps1 | apply forN_keeps | apply iter_keeps) | split | (intro _ _ _; try dsimp only) | (intro _ _; try dsimp only) | (intro _; try dsimp only) | fail_if_no_progress (refine Keeps.ofMk rfl rfl rfl rfl rfl rfl rfl rfl ?_))

theorem State.performAll_keeps {s0 : State} (s : State) (b : Block) (h0 : Keeps s0 s) : Keeps s0 (State.performAll s b) := by
  unfold State.performAll
  try dsimp only
  repeat (first | with_reducible (first | assumption | refine Keeps.fst (by assumption) ?_ | apply OKeeps.next | apply State.performTo_keeps | apply foldl_keeps | apply foldl_keeps1 | apply forN_keeps | apply iter_keeps) | split | (intro _ _ _; try dsimp only) | (intro _ _; try dsimp only) | (intro _; try dsimp only) | fail_if_no_progress (refine Keeps.ofMk rfl rfl rfl rfl rfl rfl rfl rfl ?_))

theorem State.startInterval_keeps {s0 : State} (s : State) (b : Block) (share : Nat) (h0 : Keeps s0 s) : Keeps s0 (State.startInterval s b share) := by
  unfold State.startInterval
  try dsimp only
  repeat (first | with_reducible (first | assumption | refine Keeps.fst (by assumption) ?_ | apply OKeeps.next | apply State.log_keeps | apply State.markShare_keeps | apply State.modBlock_keeps | apply State.performAll_keeps | apply foldl_keeps | apply foldl_keeps1 | apply forN_keeps | apply iter_keeps) | split | (intro _ _ _; try dsimp only) | (intro _ _; try dsimp only) | (intro _; try dsimp only) | fail_if_no_progress (refine Keeps.ofMk rfl rfl rfl rfl rfl rfl rfl rfl ?_))

theorem State.endRecording_keeps {s0 : State} (s : State) (bk : Nat) (h0 : Keeps s0 s) : Keeps s0 (State.endRecording s bk) := by
  unfold State.endRecording
  try dsimp only
  repeat (first | with_reducible (first | assumption | refine Keeps.fst (by assumption) ?_ | apply OKeeps.next | apply State.modBlock_keeps | apply foldl_keeps | apply foldl_keeps1 | apply forN_keeps | apply iter_keeps) | split | (intro _ _ _; try dsimp only) | (intro _ _; try dsimp only) | (intro _; try dsimp only) | fail_if_no_progress (refine Keeps.ofMk rfl rfl rfl rfl rfl rfl rfl rfl ?_))

theorem State.atBoundary_keeps {s0 : State} (s : State) (bk : Nat) (h0 : Keeps s0 s) : Keeps s0 (State.atBoundary s bk) := by
  unfold State.atBoundary
  try dsimp only
  repeat (first | with_reducible (first | assumption | refine Keeps.fst (by assumption) ?_ | apply OKeeps.next | apply State.endRecording_keeps | apply State.startInterval_keeps | apply foldl_keeps | apply foldl_keeps1 | apply forN_keeps | apply iter_keeps) | split | (intro _ _ _; try dsimp only) | (intro _ _; try dsimp only) | (intro _; try dsimp only) | fail_if_no_progress (refine Keeps.ofMk rfl rfl rfl rfl rfl rfl rfl rfl ?_))

theorem State.nextInterval_keeps {s0 : State} (s : State) (b : Block) (h0 : Keeps s0 s) : Keeps s0 (State.nextInterval s b) := by
  unfold State.nextInterval
  try dsimp only
  repeat (first | with_reducible (first | assumption | refine Keeps.fst (by assumption) ?_ | apply OKeeps.next | apply State.startInterval_keeps | apply foldl_keeps | apply foldl_keeps1 | apply forN_keeps | apply iter_keeps) | split | (intro _ _ _; try dsimp only) | (intro _ _; try dsimp only) | (intro _; try dsimp only) | fail_if_no_progress (refine Keeps.ofMk rfl rfl rfl rfl rfl rfl rfl rfl ?_))

theorem State.reload_keeps {s0 : State} (s : State) (b : Block) (past : Bool) (cp : Block) (h0 : Keeps s0 s) : Keeps s0 (State.reload s b past cp) := by
  unfold State.reload
  try dsimp only
  repeat (first | with_reducible (first | assumption | refine Keeps.fst (by assumption) ?_ | apply OKeeps.next | apply State.modBlock_keeps | apply State.modCore_keeps | apply foldl_keeps | apply foldl_keeps1 | apply forN_keeps | apply iter_keeps) | split | (intro _ _ _; try dsimp only) | (intro _ _; try dsimp only) | (intro _; try dsimp only) | fail_if_no_progress (refine Keeps.ofMk rfl rfl rfl rfl rfl rfl rfl rfl ?_))

theorem State.setHalt_keeps {s0 : State} (s : State) (b : Block) (on : Bool) (h0 : Keeps s0 s) : Keeps s0 (State.setHalt s b on) := by
  unfold State.setHalt
  try dsimp only
  repeat (first | with_reducible (first | assumption | refine Keeps.fst (by assumption) ?_ | apply OKeeps.next | apply State.modCtx_keeps | apply foldl_keeps | apply foldl_keeps1 | apply forN_keeps | apply iter_keeps) | split | (intro _ _ _; try dsimp only) | (intro _ _; try dsimp only) | (intro _; try dsimp only) | fail_if_no_progress (refine Keeps.ofMk rfl rfl rfl rfl rfl rfl rfl rfl ?_))

theorem State.modRecording_keeps {s0 : State} (s : State) (bk : Nat) (f : Recording → Recording) (h0 : Keeps s0 s) : Keeps s0 (State.modRecording s bk f) := by
  unfold State.modRecording
  try dsimp only
  repeat (first | with_reducible (first | assumption | refine Keeps.fst (by assumption) ?_ | apply OKeeps.next | apply foldl_keeps | apply foldl_keeps1 | apply forN_keeps | apply iter_keeps) | split | (intro _ _ _; try dsimp only) | (intro _ _; try dsimp only) | (intro _; try dsimp only) | fail_if_no_progress (refine Keeps.ofMk rfl rfl rfl rfl rfl rfl rfl rfl ?_))

theorem State.toPresent_keeps {s0 : State} (s : State) (bk : Nat) (h0 : Keeps s0 s) : Keeps s0 (State.toPresent s bk) := by
  unfold State.toPresent
  try dsimp only
  repeat (first | with_reducible (first | assumption | refine Keeps.fst (by assumption) ?_ | apply OKeeps.next | apply State.modRecording_keeps | apply State.reload_keeps | apply State.settle_keeps | apply State.wakeAll_keeps | apply foldl_keeps | apply foldl_keeps1 | apply forN_keeps | apply iter_keeps) | split | (intro _ _ _; try dsimp only) | (intro _ _; try dsimp only) | (intro _; try dsimp only) | fail_if_no_progress (refine Keeps.ofMk rfl rfl rfl rfl rfl rfl rfl rfl ?_))

theorem State.endReplays_keeps {s0 : State} (s : State) (c : Nat) (h0 : Keeps s0 s) : Keeps s0 (State.endReplays s c) := by
  unfold State.endReplays
  try dsimp only
  repeat (first | with_reducible (first | assumption | refine Keeps.fst (by assumption) ?_ | apply OKeeps.next | apply State.toPresent_keeps | apply foldl_keeps | apply foldl_keeps1 | apply forN_keeps | apply iter_keeps) | split | (intro _ _ _; try dsimp only) | (intro _ _; try dsimp only) | (intro _; try dsimp only) | fail_if_no_progress (refine Keeps.ofMk rfl rfl rfl rfl rfl rfl rfl rfl ?_))

theorem State.noteWakes_keeps {s0 : State} (s : State) (h0 : Keeps s0 s) : Keeps s0 (State.noteWakes s) := by
  unfold State.noteWakes
  try dsimp only
  repeat (first | with_reducible (first | assumption | refine Keeps.fst (by assumption) ?_ | apply OKeeps.next | apply foldl_keeps | apply foldl_keeps1 | apply forN_keeps | apply iter_keeps) | split | (intro _ _ _; try dsimp only) | (intro _ _; try dsimp only) | (intro _; try dsimp only) | fail_if_no_progress (refine Keeps.ofMk rfl rfl rfl rfl rfl rfl rfl rfl ?_))

theorem State.completionAdd_keeps {s0 : State} (s : State) (c done v : Nat) (system : Bool) (h0 : Keeps s0 s) : Keeps s0 (State.completionAdd s c done v system) := by
  unfold State.completionAdd
  try dsimp only
  repeat (first | with_reducible (first | assumption | refine Keeps.fst (by assumption) ?_ | apply OKeeps.next | apply State.cleanHLines_keeps | apply State.devPage_keeps | apply State.dropHLines_keeps | apply State.foreignStore_keeps | apply State.l2WriteN_keeps | apply State.pend_keeps | apply State.putHome_keeps | apply foldl_keeps | apply foldl_keeps1 | apply forN_keeps | apply iter_keeps) | split | (intro _ _ _; try dsimp only) | (intro _ _; try dsimp only) | (intro _; try dsimp only) | fail_if_no_progress (refine Keeps.ofMk rfl rfl rfl rfl rfl rfl rfl rfl ?_))

theorem execWorkQueueTake_keeps {s0 : State} (q : Nat) (s : State) (h0 : Keeps s0 s) : OKeeps s0 (execWorkQueueTake q s) := by
  unfold execWorkQueueTake
  try dsimp only
  repeat (first | with_reducible (first | assumption | refine Keeps.fst (by assumption) ?_ | apply OKeeps.next | apply State.bump_keeps | apply State.completionAdd_keeps | apply State.modQueue_keeps | apply State.wakeAll_keeps | apply foldl_keeps | apply foldl_keeps1 | apply forN_keeps | apply iter_keeps) | split | (intro _ _ _; try dsimp only) | (intro _ _; try dsimp only) | (intro _; try dsimp only) | fail_if_no_progress (refine Keeps.ofMk rfl rfl rfl rfl rfl rfl rfl rfl ?_))

theorem execWorkQueueDoorbell_keeps {s0 : State} (q : Nat) (tail : Word) (s : State) (h0 : Keeps s0 s) : OKeeps s0 (execWorkQueueDoorbell q tail s) := by
  unfold execWorkQueueDoorbell
  try dsimp only
  repeat (first | with_reducible (first | assumption | refine Keeps.fst (by assumption) ?_ | apply OKeeps.next | apply State.modQueue_keeps | apply foldl_keeps | apply foldl_keeps1 | apply forN_keeps | apply iter_keeps) | split | (intro _ _ _; try dsimp only) | (intro _ _; try dsimp only) | (intro _; try dsimp only) | fail_if_no_progress (refine Keeps.ofMk rfl rfl rfl rfl rfl rfl rfl rfl ?_))

theorem State.takeBatch_keeps {s0 : State} (s : State) (b : Block) (h0 : Keeps s0 s) : Keeps s0 (State.takeBatch s b) := by
  unfold State.takeBatch
  try dsimp only
  repeat (first | with_reducible (first | assumption | refine Keeps.fst (by assumption) ?_ | apply OKeeps.next | apply State.bump_keeps | apply State.modBlock_keeps | apply State.wakeAll_keeps | apply foldl_keeps | apply foldl_keeps1 | apply forN_keeps | apply iter_keeps) | split | (intro _ _ _; try dsimp only) | (intro _ _; try dsimp only) | (intro _; try dsimp only) | fail_if_no_progress (refine Keeps.ofMk rfl rfl rfl rfl rfl rfl rfl rfl ?_))

theorem State.takeDue_keeps {s0 : State} (s : State) (h0 : Keeps s0 s) : Keeps s0 (State.takeDue s) := by
  unfold State.takeDue
  try dsimp only
  repeat (first | with_reducible (first | assumption | refine Keeps.fst (by assumption) ?_ | apply OKeeps.next | apply State.takeBatch_keeps | apply foldl_keeps | apply foldl_keeps1 | apply forN_keeps | apply iter_keeps) | split | (intro _ _ _; try dsimp only) | (intro _ _; try dsimp only) | (intro _; try dsimp only) | fail_if_no_progress (refine Keeps.ofMk rfl rfl rfl rfl rfl rfl rfl rfl ?_))

theorem execLaunchBatchTake_keeps {s0 : State} (b : Nat) (s : State) (h0 : Keeps s0 s) : OKeeps s0 (execLaunchBatchTake b s) := by
  unfold execLaunchBatchTake
  try dsimp only
  repeat (first | with_reducible (first | assumption | refine Keeps.fst (by assumption) ?_ | apply OKeeps.next | apply State.takeBatch_keeps | apply foldl_keeps | apply foldl_keeps1 | apply forN_keeps | apply iter_keeps) | split | (intro _ _ _; try dsimp only) | (intro _ _; try dsimp only) | (intro _; try dsimp only) | fail_if_no_progress (refine Keeps.ofMk rfl rfl rfl rfl rfl rfl rfl rfl ?_))

theorem execLaunchBatchTimeout_keeps {s0 : State} (b : Nat) (s : State) (h0 : Keeps s0 s) : OKeeps s0 (execLaunchBatchTimeout b s) := by
  unfold execLaunchBatchTimeout
  try dsimp only
  repeat (first | with_reducible (first | assumption | refine Keeps.fst (by assumption) ?_ | apply OKeeps.next | apply State.takeBatch_keeps | apply foldl_keeps | apply foldl_keeps1 | apply forN_keeps | apply iter_keeps) | split | (intro _ _ _; try dsimp only) | (intro _ _; try dsimp only) | (intro _; try dsimp only) | fail_if_no_progress (refine Keeps.ofMk rfl rfl rfl rfl rfl rfl rfl rfl ?_))

theorem State.putBlock_keeps {s0 : State} (s : State) (g : Grid) (cluster : Option Nat) (rank id slot core base : Nat) (h0 : Keeps s0 s) : Keeps s0 (State.putBlock s g cluster rank id slot core base) := by
  unfold State.putBlock
  try dsimp only
  repeat (first | with_reducible (first | assumption | refine Keeps.fst (by assumption) ?_ | apply OKeeps.next | apply State.acquire_keeps | apply State.atBoundary_keeps | apply State.bump_keeps | apply foldl_keeps | apply foldl_keeps1 | apply forN_keeps | apply iter_keeps) | split | (intro _ _ _; try dsimp only) | (intro _ _; try dsimp only) | (intro _; try dsimp only) | fail_if_no_progress (refine Keeps.ofMk rfl rfl rfl rfl rfl rfl rfl rfl ?_))

theorem State.dropCode_keeps {s0 : State} (s : State) (c : Nat) (h0 : Keeps s0 s) : Keeps s0 (State.dropCode s c) := by
  unfold State.dropCode
  try dsimp only
  repeat (first | with_reducible (first | assumption | refine Keeps.fst (by assumption) ?_ | apply OKeeps.next | apply foldl_keeps | apply foldl_keeps1 | apply forN_keeps | apply iter_keeps) | split | (intro _ _ _; try dsimp only) | (intro _ _; try dsimp only) | (intro _; try dsimp only) | fail_if_no_progress (refine Keeps.ofMk rfl rfl rfl rfl rfl rfl rfl rfl ?_))

theorem State.modGrid_keeps {s0 : State} (s : State) (k : Nat) (f : Grid → Grid) (h0 : Keeps s0 s) : Keeps s0 (State.modGrid s k f) := by
  unfold State.modGrid
  try dsimp only
  repeat (first | with_reducible (first | assumption | refine Keeps.fst (by assumption) ?_ | apply OKeeps.next | apply foldl_keeps | apply foldl_keeps1 | apply forN_keeps | apply iter_keeps) | split | (intro _ _ _; try dsimp only) | (intro _ _; try dsimp only) | (intro _; try dsimp only) | fail_if_no_progress (refine Keeps.ofMk rfl rfl rfl rfl rfl rfl rfl rfl ?_))

theorem State.startGrid_keeps {s0 : State} (s : State) (g : Grid) (h0 : Keeps s0 s) : Keeps s0 (State.startGrid s g) := by
  unfold State.startGrid
  try dsimp only
  repeat (first | with_reducible (first | assumption | refine Keeps.fst (by assumption) ?_ | apply OKeeps.next | apply State.dropCode_keeps | apply State.modCtx_keeps | apply State.modGrid_keeps | refine State.modWh_keeps _ _ rfl rfl rfl rfl ?_ | apply State.tlrCopy_keeps | apply foldl_keeps | apply foldl_keeps1 | apply forN_keeps | apply iter_keeps) | split | (intro _ _ _; try dsimp only) | (intro _ _; try dsimp only) | (intro _; try dsimp only) | fail_if_no_progress (refine Keeps.ofMk rfl rfl rfl rfl rfl rfl rfl rfl ?_))

theorem State.wakeDie_keeps {s0 : State} (s : State) (die : Nat) (h0 : Keeps s0 s) : Keeps s0 (State.wakeDie s die) := by
  unfold State.wakeDie
  try dsimp only
  repeat (first | with_reducible (first | assumption | refine Keeps.fst (by assumption) ?_ | apply OKeeps.next | refine State.modWh_keeps _ _ rfl rfl rfl rfl ?_ | apply foldl_keeps | apply foldl_keeps1 | apply forN_keeps | apply iter_keeps) | split | (intro _ _ _; try dsimp only) | (intro _ _; try dsimp only) | (intro _; try dsimp only) | fail_if_no_progress (refine Keeps.ofMk rfl rfl rfl rfl rfl rfl rfl rfl ?_))

theorem execBlockPlace_keeps {s0 : State} (grid : Nat) (s : State) (h0 : Keeps s0 s) : OKeeps s0 (execBlockPlace grid s) := by
  unfold execBlockPlace
  try dsimp only
  repeat (first | with_reducible (first | assumption | refine Keeps.fst (by assumption) ?_ | apply OKeeps.next | apply State.modGrid_keeps | refine State.modWh_keeps _ _ rfl rfl rfl rfl ?_ | apply State.putBlock_keeps | apply State.startGrid_keeps | apply State.wakeDie_keeps | apply foldl_keeps | apply foldl_keeps1 | apply forN_keeps | apply iter_keeps) | split | (intro _ _ _; try dsimp only) | (intro _ _; try dsimp only) | (intro _; try dsimp only) | fail_if_no_progress (refine Keeps.ofMk rfl rfl rfl rfl rfl rfl rfl rfl ?_))

theorem State.dropBlock_keeps {s0 : State} (s : State) (b : Block) (h0 : Keeps s0 s) : Keeps s0 (State.dropBlock s b) := by
  unfold State.dropBlock
  try dsimp only
  repeat (first | with_reducible (first | assumption | refine Keeps.fst (by assumption) ?_ | apply OKeeps.next | apply State.modCore_keeps | apply foldl_keeps | apply foldl_keeps1 | apply forN_keeps | apply iter_keeps) | split | (intro _ _ _; try dsimp only) | (intro _ _; try dsimp only) | (intro _; try dsimp only) | fail_if_no_progress (refine Keeps.ofMk rfl rfl rfl rfl rfl rfl rfl rfl ?_))

theorem State.gridEnd_keeps {s0 : State} (s : State) (k : Nat) (h0 : Keeps s0 s) : Keeps s0 (State.gridEnd s k) := by
  unfold State.gridEnd
  try dsimp only
  repeat (first | with_reducible (first | assumption | refine Keeps.fst (by assumption) ?_ | apply OKeeps.next | apply State.completionAdd_keeps | apply State.modGrid_keeps | apply foldl_keeps | apply foldl_keeps1 | apply forN_keeps | apply iter_keeps) | split | (intro _ _ _; try dsimp only) | (intro _ _; try dsimp only) | (intro _; try dsimp only) | fail_if_no_progress (refine Keeps.ofMk rfl rfl rfl rfl rfl rfl rfl rfl ?_))

theorem execBlockEnd_keeps {s0 : State} (b : Nat) (s : State) (h0 : Keeps s0 s) : OKeeps s0 (execBlockEnd b s) := by
  unfold execBlockEnd
  try dsimp only
  repeat (first | with_reducible (first | assumption | refine Keeps.fst (by assumption) ?_ | apply OKeeps.next | apply State.drainAll_keeps | apply State.drainSeen_keeps | apply State.dropBlock_keeps | apply State.gridEnd_keeps | apply State.modCtx_keeps | apply State.wakeAll_keeps | apply State.windowSettle_keeps | apply foldl_keeps | apply foldl_keeps1 | apply forN_keeps | apply iter_keeps) | split | (intro _ _ _; try dsimp only) | (intro _ _; try dsimp only) | (intro _; try dsimp only) | fail_if_no_progress (refine Keeps.ofMk rfl rfl rfl rfl rfl rfl rfl rfl ?_))

theorem State.enterSet_keeps {s0 : State} (s : State) (b : Block) (wi : Nat) (on : Bool) (h0 : Keeps s0 s) : Keeps s0 (State.enterSet s b wi on) := by
  unfold State.enterSet
  try dsimp only
  repeat (first | with_reducible (first | assumption | refine Keeps.fst (by assumption) ?_ | apply OKeeps.next | apply State.modWarp_keeps | apply foldl_keeps | apply foldl_keeps1 | apply forN_keeps | apply iter_keeps) | split | (intro _ _ _; try dsimp only) | (intro _ _; try dsimp only) | (intro _; try dsimp only) | fail_if_no_progress (refine Keeps.ofMk rfl rfl rfl rfl rfl rfl rfl rfl ?_))

theorem State.swapIn_keeps {s0 : State} (s : State) (core slice : Nat) (out : Option (Block × Nat × Warp)) (h0 : Keeps s0 s) : Keeps s0 (State.swapIn s core slice out) := by
  unfold State.swapIn
  try dsimp only
  repeat (first | with_reducible (first | assumption | refine Keeps.fst (by assumption) ?_ | apply OKeeps.next | apply State.enterSet_keeps | apply foldl_keeps | apply foldl_keeps1 | apply forN_keeps | apply iter_keeps) | split | (intro _ _ _; try dsimp only) | (intro _ _; try dsimp only) | (intro _; try dsimp only) | fail_if_no_progress (refine Keeps.ofMk rfl rfl rfl rfl rfl rfl rfl rfl ?_))

theorem execWarpSwap_keeps {s0 : State} (core slice : Nat) (s : State) (h0 : Keeps s0 s) : OKeeps s0 (execWarpSwap core slice s) := by
  unfold execWarpSwap
  try dsimp only
  repeat (first | with_reducible (first | assumption | refine Keeps.fst (by assumption) ?_ | apply OKeeps.next | apply State.swapIn_keeps | apply foldl_keeps | apply foldl_keeps1 | apply forN_keeps | apply iter_keeps) | split | (intro _ _ _; try dsimp only) | (intro _ _; try dsimp only) | (intro _; try dsimp only) | fail_if_no_progress (refine Keeps.ofMk rfl rfl rfl rfl rfl rfl rfl rfl ?_))

theorem execPendingStarvationSwap_keeps {s0 : State} (core slice : Nat) (s : State) (h0 : Keeps s0 s) : OKeeps s0 (execPendingStarvationSwap core slice s) := by
  unfold execPendingStarvationSwap
  try dsimp only
  repeat (first | with_reducible (first | assumption | refine Keeps.fst (by assumption) ?_ | apply OKeeps.next | apply State.enterSet_keeps | apply foldl_keeps | apply foldl_keeps1 | apply forN_keeps | apply iter_keeps) | split | (intro _ _ _; try dsimp only) | (intro _ _; try dsimp only) | (intro _; try dsimp only) | fail_if_no_progress (refine Keeps.ofMk rfl rfl rfl rfl rfl rfl rfl rfl ?_))

theorem State.elapse_keeps {s0 : State} (s : State) (n : Nat) (h0 : Keeps s0 s) : Keeps s0 (State.elapse s n) := by
  unfold State.elapse
  try dsimp only
  repeat (first | with_reducible (first | assumption | refine Keeps.fst (by assumption) ?_ | apply OKeeps.next | apply foldl_keeps | apply foldl_keeps1 | apply forN_keeps | apply iter_keeps) | split | (intro _ _ _; try dsimp only) | (intro _ _; try dsimp only) | (intro _; try dsimp only) | fail_if_no_progress (refine Keeps.ofMk rfl rfl rfl rfl rfl rfl rfl rfl ?_))

theorem State.writeRecord_keeps {s0 : State} (s : State) (c : Nat) (h0 : Keeps s0 s) : Keeps s0 (State.writeRecord s c) := by
  unfold State.writeRecord
  try dsimp only
  repeat (first | with_reducible (first | assumption | refine Keeps.fst (by assumption) ?_ | apply OKeeps.next | apply State.bump_keeps | apply State.cleanHLines_keeps | apply State.devWrite_keeps | apply State.modCtx_keeps | apply State.sediment_keeps | apply State.signal_keeps | apply foldl_keeps | apply foldl_keeps1 | apply forN_keeps | apply iter_keeps) | split | (intro _ _ _; try dsimp only) | (intro _ _; try dsimp only) | (intro _; try dsimp only) | fail_if_no_progress (refine Keeps.ofMk rfl rfl rfl rfl rfl rfl rfl rfl ?_))

theorem execTrapRecordWrite_keeps {s0 : State} (c : Nat) (s : State) (h0 : Keeps s0 s) : OKeeps s0 (execTrapRecordWrite c s) := by
  unfold execTrapRecordWrite
  try dsimp only
  repeat (first | with_reducible (first | assumption | refine Keeps.fst (by assumption) ?_ | apply OKeeps.next | apply State.writeRecord_keeps | apply foldl_keeps | apply foldl_keeps1 | apply forN_keeps | apply iter_keeps) | split | (intro _ _ _; try dsimp only) | (intro _ _; try dsimp only) | (intro _; try dsimp only) | fail_if_no_progress (refine Keeps.ofMk rfl rfl rfl rfl rfl rfl rfl rfl ?_))

theorem execTrapRecordRetire_keeps {s0 : State} (c : Nat) (rid : Word) (s : State) (h0 : Keeps s0 s) : OKeeps s0 (execTrapRecordRetire c rid s) := by
  unfold execTrapRecordRetire
  try dsimp only
  repeat (first | with_reducible (first | assumption | refine Keeps.fst (by assumption) ?_ | apply OKeeps.next | apply State.retire_keeps | apply State.wakeAll_keeps | apply foldl_keeps | apply foldl_keeps1 | apply forN_keeps | apply iter_keeps) | split | (intro _ _ _; try dsimp only) | (intro _ _; try dsimp only) | (intro _; try dsimp only) | fail_if_no_progress (refine Keeps.ofMk rfl rfl rfl rfl rfl rfl rfl rfl ?_))

theorem execTrapqWrite_keeps {s0 : State} (c : Nat) (ctl : Bool) (v : DWord) (s : State) (h0 : Keeps s0 s) : OKeeps s0 (execTrapqWrite c ctl v s) := by
  unfold execTrapqWrite
  try dsimp only
  repeat (first | with_reducible (first | assumption | refine Keeps.fst (by assumption) ?_ | apply OKeeps.next | apply State.modCtx_keeps | apply foldl_keeps | apply foldl_keeps1 | apply forN_keeps | apply iter_keeps) | split | (intro _ _ _; try dsimp only) | (intro _ _; try dsimp only) | (intro _; try dsimp only) | fail_if_no_progress (refine Keeps.ofMk rfl rfl rfl rfl rfl rfl rfl rfl ?_))

theorem execHandlerBlockStart_keeps {s0 : State} (c : Nat) (s : State) (h0 : Keeps s0 s) : OKeeps s0 (execHandlerBlockStart c s) := by
  unfold execHandlerBlockStart
  try dsimp only
  repeat (first | with_reducible (first | assumption | refine Keeps.fst (by assumption) ?_ | apply OKeeps.next | apply State.bump_keeps | apply State.modCtx_keeps | apply foldl_keeps | apply foldl_keeps1 | apply forN_keeps | apply iter_keeps) | split | (intro _ _ _; try dsimp only) | (intro _ _; try dsimp only) | (intro _; try dsimp only) | fail_if_no_progress (refine Keeps.ofMk rfl rfl rfl rfl rfl rfl rfl rfl ?_))

theorem State.rewriteRec_keeps {s0 : State} (s : State) (c : Nat) (r : Rec) (h : Word) (h0 : Keeps s0 s) : Keeps s0 (State.rewriteRec s c r h) := by
  unfold State.rewriteRec
  try dsimp only
  repeat (first | with_reducible (first | assumption | refine Keeps.fst (by assumption) ?_ | apply OKeeps.next | apply State.devWrite_keeps | apply State.modCtx_keeps | apply foldl_keeps | apply foldl_keeps1 | apply forN_keeps | apply iter_keeps) | split | (intro _ _ _; try dsimp only) | (intro _ _; try dsimp only) | (intro _; try dsimp only) | fail_if_no_progress (refine Keeps.ofMk rfl rfl rfl rfl rfl rfl rfl rfl ?_))

theorem State.rewriteHandles_keeps {s0 : State} (s : State) (b : Block) (h : Trap → Option Word) (h0 : Keeps s0 s) : Keeps s0 (State.rewriteHandles s b h) := by
  unfold State.rewriteHandles
  try dsimp only
  repeat (first | with_reducible (first | assumption | refine Keeps.fst (by assumption) ?_ | apply OKeeps.next | apply State.modCtx_keeps | apply State.rewriteRec_keeps | apply foldl_keeps | apply foldl_keeps1 | apply forN_keeps | apply iter_keeps) | split | (intro _ _ _; try dsimp only) | (intro _ _; try dsimp only) | (intro _; try dsimp only) | fail_if_no_progress (refine Keeps.ofMk rfl rfl rfl rfl rfl rfl rfl rfl ?_))

theorem State.takeDeadline_keeps {s0 : State} (s : State) (c : Nat) (h0 : Keeps s0 s) : Keeps s0 (State.takeDeadline s c) := by
  unfold State.takeDeadline
  try dsimp only
  repeat (first | with_reducible (first | assumption | refine Keeps.fst (by assumption) ?_ | apply OKeeps.next | apply State.modCtx_keeps | apply State.pend_keeps | apply foldl_keeps | apply foldl_keeps1 | apply forN_keeps | apply iter_keeps) | split | (intro _ _ _; try dsimp only) | (intro _ _; try dsimp only) | (intro _; try dsimp only) | fail_if_no_progress (refine Keeps.ofMk rfl rfl rfl rfl rfl rfl rfl rfl ?_))

theorem execDeadlineExpiry_keeps {s0 : State} (c : Nat) (s : State) (h0 : Keeps s0 s) : OKeeps s0 (execDeadlineExpiry c s) := by
  unfold execDeadlineExpiry
  try dsimp only
  repeat (first | with_reducible (first | assumption | refine Keeps.fst (by assumption) ?_ | apply OKeeps.next | apply State.takeDeadline_keeps | apply foldl_keeps | apply foldl_keeps1 | apply forN_keeps | apply iter_keeps) | split | (intro _ _ _; try dsimp only) | (intro _ _; try dsimp only) | (intro _; try dsimp only) | fail_if_no_progress (refine Keeps.ofMk rfl rfl rfl rfl rfl rfl rfl rfl ?_))

theorem execWatchdogExpiry_keeps {s0 : State} (b w : Nat) (s : State) (h0 : Keeps s0 s) : OKeeps s0 (execWatchdogExpiry b w s) := by
  unfold execWatchdogExpiry
  try dsimp only
  repeat (first | with_reducible (first | assumption | refine Keeps.fst (by assumption) ?_ | apply OKeeps.next | apply State.modBlock_keeps | apply State.pend_keeps | apply foldl_keeps | apply foldl_keeps1 | apply forN_keeps | apply iter_keeps) | split | (intro _ _ _; try dsimp only) | (intro _ _; try dsimp only) | (intro _; try dsimp only) | fail_if_no_progress (refine Keeps.ofMk rfl rfl rfl rfl rfl rfl rfl rfl ?_))

end Sys2Proof.Machine
end

