-- ==== Sys2Proof/Laws/KeepsHost.lean ====
section
/-! SUPPORT. `Keeps` for the operations of Move, Debug, Sha, Host, Attest, Fail, Regs, Issue. -/

set_option linter.unusedTactic false
set_option linter.unreachableTactic false

namespace Sys2Proof.Machine

theorem State.sharesOk_keeps {s0 : State} (s : State) (c : Nat) (l : List Nat) (h0 : Keeps s0 s) : Keeps s0 (s.sharesOk c l).1 := by
  induction l generalizing s with
  | nil => exact h0
  | cons a as ih =>
    unfold State.sharesOk
    repeat (first | with_reducible (first | assumption | refine Keeps.fst (by assumption) ?_ | apply State.devPage_keeps | apply ih) | split)

theorem State.takeShare_keeps {s0 : State} (s : State) (c i : Nat) (h0 : Keeps s0 s) : Keeps s0 (State.takeShare s c i) := by
  unfold State.takeShare
  try dsimp only
  repeat (first | with_reducible (first | assumption | refine Keeps.fst (by assumption) ?_ | apply OKeeps.next | apply State.markShare_keeps | apply foldl_keeps | apply foldl_keeps1 | apply forN_keeps | apply iter_keeps) | split | (intro _ _ _; try dsimp only) | (intro _ _; try dsimp only) | (intro _; try dsimp only) | fail_if_no_progress (refine Keeps.ofMk rfl rfl rfl rfl rfl rfl rfl rfl ?_))

theorem State.vacate_keeps {s0 : State} (s : State) (bk : Nat) (mv : Movement) (pre : Bool) (h0 : Keeps s0 s) : Keeps s0 (State.vacate s bk mv pre) := by
  unfold State.vacate
  try dsimp only
  repeat (first | with_reducible (first | assumption | refine Keeps.fst (by assumption) ?_ | apply OKeeps.next | apply State.modBlock_keeps | apply State.modCore_keeps | apply foldl_keeps | apply foldl_keeps1 | apply forN_keeps | apply iter_keeps) | split | (intro _ _ _; try dsimp only) | (intro _ _; try dsimp only) | (intro _; try dsimp only) | fail_if_no_progress (refine Keeps.ofMk rfl rfl rfl rfl rfl rfl rfl rfl ?_))

theorem execStowThresholdExpiry_keeps {s0 : State} (b : Nat) (s : State) (h0 : Keeps s0 s) : OKeeps s0 (execStowThresholdExpiry b s) := by
  unfold execStowThresholdExpiry
  try dsimp only
  repeat (first | with_reducible (first | assumption | refine Keeps.fst (by assumption) ?_ | apply OKeeps.next | apply State.modBlock_keeps | apply foldl_keeps | apply foldl_keeps1 | apply forN_keeps | apply iter_keeps) | split | (intro _ _ _; try dsimp only) | (intro _ _; try dsimp only) | (intro _; try dsimp only) | fail_if_no_progress (refine Keeps.ofMk rfl rfl rfl rfl rfl rfl rfl rfl ?_))

theorem State.endIntervals_keeps {s0 : State} (s : State) (bs : List Block) (h0 : Keeps s0 s) : Keeps s0 (State.endIntervals s bs) := by
  unfold State.endIntervals
  try dsimp only
  repeat (first | with_reducible (first | assumption | refine Keeps.fst (by assumption) ?_ | apply OKeeps.next | apply State.nextInterval_keeps | apply foldl_keeps | apply foldl_keeps1 | apply forN_keeps | apply iter_keeps) | split | (intro _ _ _; try dsimp only) | (intro _ _; try dsimp only) | (intro _; try dsimp only) | fail_if_no_progress (refine Keeps.ofMk rfl rfl rfl rfl rfl rfl rfl rfl ?_))

theorem State.settleAway_keeps {s0 : State} (s : State) (bk : Nat) (h0 : Keeps s0 s) : Keeps s0 (State.settleAway s bk) := by
  unfold State.settleAway
  try dsimp only
  repeat (first | with_reducible (first | assumption | refine Keeps.fst (by assumption) ?_ | apply OKeeps.next | apply State.blockSettle_keeps | apply State.cleanHLines_keeps | apply State.drainAll_keeps | apply State.drainSeen_keeps | apply foldl_keeps | apply foldl_keeps1 | apply forN_keeps | apply iter_keeps) | split | (intro _ _ _; try dsimp only) | (intro _ _; try dsimp only) | (intro _; try dsimp only) | fail_if_no_progress (refine Keeps.ofMk rfl rfl rfl rfl rfl rfl rfl rfl ?_))

theorem State.beginStow_keeps {s0 : State} (s : State) (b : Block) (i : Nat) (h0 : Keeps s0 s) : Keeps s0 (State.beginStow s b i) := by
  unfold State.beginStow
  try dsimp only
  repeat (first | with_reducible (first | assumption | refine Keeps.fst (by assumption) ?_ | apply OKeeps.next | apply State.modBlock_keeps | apply State.rewriteHandles_keeps | apply State.takeShare_keeps | apply foldl_keeps | apply foldl_keeps1 | apply forN_keeps | apply iter_keeps) | split | (intro _ _ _; try dsimp only) | (intro _ _; try dsimp only) | (intro _; try dsimp only) | fail_if_no_progress (refine Keeps.ofMk rfl rfl rfl rfl rfl rfl rfl rfl ?_))

theorem execStowBegin_keeps {s0 : State} (b : Nat) (s : State) (h0 : Keeps s0 s) : OKeeps s0 (execStowBegin b s) := by
  unfold execStowBegin
  try dsimp only
  repeat (first | with_reducible (first | assumption | refine Keeps.fst (by assumption) ?_ | apply OKeeps.next | apply State.beginStow_keeps | apply State.endIntervals_keeps | apply foldl_keeps | apply foldl_keeps1 | apply forN_keeps | apply iter_keeps) | split | (intro _ _ _; try dsimp only) | (intro _ _; try dsimp only) | (intro _; try dsimp only) | fail_if_no_progress (refine Keeps.ofMk rfl rfl rfl rfl rfl rfl rfl rfl ?_))

theorem State.resumeSet_keeps {s0 : State} (s : State) (b : Block) (h0 : Keeps s0 s) : Keeps s0 (State.resumeSet s b) := by
  unfold State.resumeSet
  try dsimp only
  repeat (first | with_reducible (first | assumption | refine Keeps.fst (by assumption) ?_ | apply OKeeps.next | apply State.resume_keeps | apply foldl_keeps | apply foldl_keeps1 | apply forN_keeps | apply iter_keeps) | split | (intro _ _ _; try dsimp only) | (intro _ _; try dsimp only) | (intro _; try dsimp only) | fail_if_no_progress (refine Keeps.ofMk rfl rfl rfl rfl rfl rfl rfl rfl ?_))

theorem State.abandonStow_keeps {s0 : State} (s : State) (c : Nat) (bs : List Block) (h0 : Keeps s0 s) : Keeps s0 (State.abandonStow s c bs) := by
  unfold State.abandonStow
  try dsimp only
  repeat (first | with_reducible (first | assumption | refine Keeps.fst (by assumption) ?_ | apply OKeeps.next | apply State.modBlock_keeps | apply State.modCtx_keeps | apply State.pend_keeps | apply State.resumeSet_keeps | apply State.rewriteHandles_keeps | apply State.settle_keeps | apply State.wakeAll_keeps | apply foldl_keeps | apply foldl_keeps1 | apply forN_keeps | apply iter_keeps) | split | (intro _ _ _; try dsimp only) | (intro _ _; try dsimp only) | (intro _; try dsimp only) | fail_if_no_progress (refine Keeps.ofMk rfl rfl rfl rfl rfl rfl rfl rfl ?_))

theorem execStowComplete_keeps {s0 : State} (b : Nat) (s : State) (h0 : Keeps s0 s) : OKeeps s0 (execStowComplete b s) := by
  unfold execStowComplete
  try dsimp only
  repeat (first | with_reducible (first | assumption | refine Keeps.fst (by assumption) ?_ | apply OKeeps.next | apply State.abandonStow_keeps | apply State.markNew_keeps | apply State.settleAway_keeps | apply State.sharesOk_keeps | apply State.vacate_keeps | apply foldl_keeps | apply foldl_keeps1 | apply forN_keeps | apply iter_keeps) | split | (intro _ _ _; try dsimp only) | (intro _ _; try dsimp only) | (intro _; try dsimp only) | fail_if_no_progress (refine Keeps.ofMk rfl rfl rfl rfl rfl rfl rfl rfl ?_))

theorem State.bring_keeps {s0 : State} (s : State) (b : Block) (p : Spot) (h0 : Keeps s0 s) : Keeps s0 (State.bring s b p) := by
  unfold State.bring
  try dsimp only
  repeat (first | with_reducible (first | assumption | refine Keeps.fst (by assumption) ?_ | apply OKeeps.next | apply State.modBlock_keeps | apply State.modCore_keeps | apply State.wakeDie_keeps | apply foldl_keeps | apply foldl_keeps1 | apply forN_keeps | apply iter_keeps) | split | (intro _ _ _; try dsimp only) | (intro _ _; try dsimp only) | (intro _; try dsimp only) | fail_if_no_progress (refine Keeps.ofMk rfl rfl rfl rfl rfl rfl rfl rfl ?_))

theorem execRestoreBegin_keeps {s0 : State} (b : Nat) (s : State) (h0 : Keeps s0 s) : OKeeps s0 (execRestoreBegin b s) := by
  unfold execRestoreBegin
  try dsimp only
  repeat (first | with_reducible (first | assumption | refine Keeps.fst (by assumption) ?_ | apply OKeeps.next | apply State.bring_keeps | apply foldl_keeps | apply foldl_keeps1 | apply forN_keeps | apply iter_keeps) | split | (intro _ _ _; try dsimp only) | (intro _ _; try dsimp only) | (intro _; try dsimp only) | fail_if_no_progress (refine Keeps.ofMk rfl rfl rfl rfl rfl rfl rfl rfl ?_))

theorem State.spoilFrags_keeps {s0 : State} (s : State) (b : Block) (h0 : Keeps s0 s) : Keeps s0 (State.spoilFrags s b) := by
  unfold State.spoilFrags
  try dsimp only
  repeat (first | with_reducible (first | assumption | refine Keeps.fst (by assumption) ?_ | apply OKeeps.next | apply State.modCore_keeps | apply State.spoil_keeps | apply foldl_keeps | apply foldl_keeps1 | apply forN_keeps | apply iter_keeps) | split | (intro _ _ _; try dsimp only) | (intro _ _; try dsimp only) | (intro _; try dsimp only) | fail_if_no_progress (refine Keeps.ofMk rfl rfl rfl rfl rfl rfl rfl rfl ?_))

theorem State.endKept_keeps {s0 : State} (s : State) (c : Nat) (h0 : Keeps s0 s) : Keeps s0 (State.endKept s c) := by
  unfold State.endKept
  try dsimp only
  repeat (first | with_reducible (first | assumption | refine Keeps.fst (by assumption) ?_ | apply OKeeps.next | apply State.modCtx_keeps | apply State.writeRecord_keeps | apply foldl_keeps | apply foldl_keeps1 | apply forN_keeps | apply iter_keeps) | split | (intro _ _ _; try dsimp only) | (intro _ _; try dsimp only) | (intro _; try dsimp only) | fail_if_no_progress (refine Keeps.ofMk rfl rfl rfl rfl rfl rfl rfl rfl ?_))

theorem execRestoreComplete_keeps {s0 : State} (b : Nat) (s : State) (h0 : Keeps s0 s) : OKeeps s0 (execRestoreComplete b s) := by
  unfold execRestoreComplete
  try dsimp only
  repeat (first | with_reducible (first | assumption | refine Keeps.fst (by assumption) ?_ | apply OKeeps.next | apply State.acquire_keeps | apply State.atBoundary_keeps | apply State.endKept_keeps | apply State.endRecording_keeps | apply State.modBlock_keeps | apply State.resumeSet_keeps | apply State.rewriteHandles_keeps | apply State.settle_keeps | apply State.spoil_keeps | apply State.spoilFrags_keeps | apply State.wakeAll_keeps | apply foldl_keeps | apply foldl_keeps1 | apply forN_keeps | apply iter_keeps) | split | (intro _ _ _; try dsimp only) | (intro _ _; try dsimp only) | (intro _; try dsimp only) | fail_if_no_progress (refine Keeps.ofMk rfl rfl rfl rfl rfl rfl rfl rfl ?_))

theorem State.preempt_keeps {s0 : State} (s : State) (c : Nat) (h0 : Keeps s0 s) : Keeps s0 (State.preempt s c) := by
  unfold State.preempt
  try dsimp only
  repeat (first | with_reducible (first | assumption | refine Keeps.fst (by assumption) ?_ | apply OKeeps.next | apply State.endReplays_keeps | apply State.modCtx_keeps | apply foldl_keeps | apply foldl_keeps1 | apply forN_keeps | apply iter_keeps) | split | (intro _ _ _; try dsimp only) | (intro _ _; try dsimp only) | (intro _; try dsimp only) | fail_if_no_progress (refine Keeps.ofMk rfl rfl rfl rfl rfl rfl rfl rfl ?_))

theorem execPreemptRequest_keeps {s0 : State} (c : Nat) (s : State) (h0 : Keeps s0 s) : OKeeps s0 (execPreemptRequest c s) := by
  unfold execPreemptRequest
  try dsimp only
  repeat (first | with_reducible (first | assumption | refine Keeps.fst (by assumption) ?_ | apply OKeeps.next | apply State.preempt_keeps | apply foldl_keeps | apply foldl_keeps1 | apply forN_keeps | apply iter_keeps) | split | (intro _ _ _; try dsimp only) | (intro _ _; try dsimp only) | (intro _; try dsimp only) | fail_if_no_progress (refine Keeps.ofMk rfl rfl rfl rfl rfl rfl rfl rfl ?_))

theorem State.clearPre_keeps {s0 : State} (s : State) (c : Nat) (h0 : Keeps s0 s) : Keeps s0 (State.clearPre s c) := by
  unfold State.clearPre
  try dsimp only
  repeat (first | with_reducible (first | assumption | refine Keeps.fst (by assumption) ?_ | apply OKeeps.next | apply State.endKept_keeps | apply State.modCtx_keeps | apply State.takeDeadline_keeps | apply foldl_keeps | apply foldl_keeps1 | apply forN_keeps | apply iter_keeps) | split | (intro _ _ _; try dsimp only) | (intro _ _; try dsimp only) | (intro _; try dsimp only) | fail_if_no_progress (refine Keeps.ofMk rfl rfl rfl rfl rfl rfl rfl rfl ?_))

theorem State.unpreempt_keeps {s0 : State} (s : State) (c : Nat) (h0 : Keeps s0 s) : Keeps s0 (State.unpreempt s c) := by
  unfold State.unpreempt
  try dsimp only
  repeat (first | with_reducible (first | assumption | refine Keeps.fst (by assumption) ?_ | apply OKeeps.next | apply State.clearPre_keeps | apply State.modCtx_keeps | apply State.wakeAll_keeps | apply foldl_keeps | apply foldl_keeps1 | apply forN_keeps | apply iter_keeps) | split | (intro _ _ _; try dsimp only) | (intro _ _; try dsimp only) | (intro _; try dsimp only) | fail_if_no_progress (refine Keeps.ofMk rfl rfl rfl rfl rfl rfl rfl rfl ?_))

theorem execPreemptClear_keeps {s0 : State} (c : Nat) (s : State) (h0 : Keeps s0 s) : OKeeps s0 (execPreemptClear c s) := by
  unfold execPreemptClear
  try dsimp only
  repeat (first | with_reducible (first | assumption | refine Keeps.fst (by assumption) ?_ | apply OKeeps.next | apply State.unpreempt_keeps | apply foldl_keeps | apply foldl_keeps1 | apply forN_keeps | apply iter_keeps) | split | (intro _ _ _; try dsimp only) | (intro _ _; try dsimp only) | (intro _; try dsimp only) | fail_if_no_progress (refine Keeps.ofMk rfl rfl rfl rfl rfl rfl rfl rfl ?_))

theorem State.saveFault_keeps {s0 : State} (s : State) (c : Nat) (h0 : Keeps s0 s) : Keeps s0 (State.saveFault s c) := by
  unfold State.saveFault
  try dsimp only
  repeat (first | with_reducible (first | assumption | refine Keeps.fst (by assumption) ?_ | apply OKeeps.next | apply State.modCtx_keeps | apply State.pend_keeps | apply State.signal_keeps | apply foldl_keeps | apply foldl_keeps1 | apply forN_keeps | apply iter_keeps) | split | (intro _ _ _; try dsimp only) | (intro _ _; try dsimp only) | (intro _; try dsimp only) | fail_if_no_progress (refine Keeps.ofMk rfl rfl rfl rfl rfl rfl rfl rfl ?_))

theorem State.saveAll_keeps {s0 : State} (s : State) (c : Nat) (h0 : Keeps s0 s) : Keeps s0 (State.saveAll s c) := by
  unfold State.saveAll
  try dsimp only
  repeat (first | with_reducible (first | assumption | refine Keeps.fst (by assumption) ?_ | apply OKeeps.next | apply State.endIntervals_keeps | apply State.modBlock_keeps | apply State.modCtx_keeps | apply State.rewriteHandles_keeps | apply State.saveFault_keeps | apply State.settleAway_keeps | apply State.sharesOk_keeps | apply State.takeShare_keeps | apply State.vacate_keeps | apply foldl_keeps | apply foldl_keeps1 | apply forN_keeps | apply iter_keeps) | split | (intro _ _ _; try dsimp only) | (intro _ _; try dsimp only) | (intro _; try dsimp only) | fail_if_no_progress (refine Keeps.ofMk rfl rfl rfl rfl rfl rfl rfl rfl ?_))

theorem execPreemptComplete_keeps {s0 : State} (c : Nat) (s : State) (h0 : Keeps s0 s) : OKeeps s0 (execPreemptComplete c s) := by
  unfold execPreemptComplete
  try dsimp only
  repeat (first | with_reducible (first | assumption | refine Keeps.fst (by assumption) ?_ | apply OKeeps.next | apply State.clearPre_keeps | apply State.saveAll_keeps | apply foldl_keeps | apply foldl_keeps1 | apply forN_keeps | apply iter_keeps) | split | (intro _ _ _; try dsimp only) | (intro _ _; try dsimp only) | (intro _; try dsimp only) | fail_if_no_progress (refine Keeps.ofMk rfl rfl rfl rfl rfl rfl rfl rfl ?_))

theorem State.enable_keeps {s0 : State} (s : State) (c : Nat) (h0 : Keeps s0 s) : Keeps s0 (State.enable s c) := by
  unfold State.enable
  try dsimp only
  repeat (first | with_reducible (first | assumption | refine Keeps.fst (by assumption) ?_ | apply OKeeps.next | apply State.modCtx_keeps | apply State.wakeAll_keeps | apply foldl_keeps | apply foldl_keeps1 | apply forN_keeps | apply iter_keeps) | split | (intro _ _ _; try dsimp only) | (intro _ _; try dsimp only) | (intro _; try dsimp only) | fail_if_no_progress (refine Keeps.ofMk rfl rfl rfl rfl rfl rfl rfl rfl ?_))

theorem execContextEnable_keeps {s0 : State} (c : Nat) (s : State) (h0 : Keeps s0 s) : OKeeps s0 (execContextEnable c s) := by
  unfold execContextEnable
  try dsimp only
  repeat (first | with_reducible (first | assumption | refine Keeps.fst (by assumption) ?_ | apply OKeeps.next | apply State.enable_keeps | apply foldl_keeps | apply foldl_keeps1 | apply forN_keeps | apply iter_keeps) | split | (intro _ _ _; try dsimp only) | (intro _ _; try dsimp only) | (intro _; try dsimp only) | fail_if_no_progress (refine Keeps.ofMk rfl rfl rfl rfl rfl rfl rfl rfl ?_))

theorem State.freeContext_keeps {s0 : State} (s : State) (c : Nat) (h0 : Keeps s0 s) : Keeps s0 (State.freeContext s c) := by
  unfold State.freeContext
  try dsimp only
  repeat (first | with_reducible (first | assumption | refine Keeps.fst (by assumption) ?_ | apply OKeeps.next | apply State.dropBlock_keeps | apply State.modCtx_keeps | apply foldl_keeps | apply foldl_keeps1 | apply forN_keeps | apply iter_keeps) | split | (intro _ _ _; try dsimp only) | (intro _ _; try dsimp only) | (intro _; try dsimp only) | fail_if_no_progress (refine Keeps.ofMk rfl rfl rfl rfl rfl rfl rfl rfl ?_))

theorem State.disable_keeps {s0 : State} (s : State) (c : Nat) (h0 : Keeps s0 s) : Keeps s0 (State.disable s c) := by
  unfold State.disable
  try dsimp only
  repeat (first | with_reducible (first | assumption | refine Keeps.fst (by assumption) ?_ | apply OKeeps.next | apply State.freeContext_keeps | apply State.modCtx_keeps | apply foldl_keeps | apply foldl_keeps1 | apply forN_keeps | apply iter_keeps) | split | (intro _ _ _; try dsimp only) | (intro _ _; try dsimp only) | (intro _; try dsimp only) | fail_if_no_progress (refine Keeps.ofMk rfl rfl rfl rfl rfl rfl rfl rfl ?_))

theorem execContextDisable_keeps {s0 : State} (c : Nat) (s : State) (h0 : Keeps s0 s) : OKeeps s0 (execContextDisable c s) := by
  unfold execContextDisable
  try dsimp only
  repeat (first | with_reducible (first | assumption | refine Keeps.fst (by assumption) ?_ | apply OKeeps.next | apply State.disable_keeps | apply foldl_keeps | apply foldl_keeps1 | apply forN_keeps | apply iter_keeps) | split | (intro _ _ _; try dsimp only) | (intro _ _; try dsimp only) | (intro _; try dsimp only) | fail_if_no_progress (refine Keeps.ofMk rfl rfl rfl rfl rfl rfl rfl rfl ?_))

theorem execRecordedModeEnable_keeps {s0 : State} (c : Nat) (s : State) (h0 : Keeps s0 s) : OKeeps s0 (execRecordedModeEnable c s) := by
  unfold execRecordedModeEnable
  try dsimp only
  repeat (first | with_reducible (first | assumption | refine Keeps.fst (by assumption) ?_ | apply OKeeps.next | apply State.modCtx_keeps | apply foldl_keeps | apply foldl_keeps1 | apply forN_keeps | apply iter_keeps) | split | (intro _ _ _; try dsimp only) | (intro _ _; try dsimp only) | (intro _; try dsimp only) | fail_if_no_progress (refine Keeps.ofMk rfl rfl rfl rfl rfl rfl rfl rfl ?_))

theorem execCheckpointIntervalEnd_keeps {s0 : State} (b : Nat) (s : State) (h0 : Keeps s0 s) : OKeeps s0 (execCheckpointIntervalEnd b s) := by
  unfold execCheckpointIntervalEnd
  try dsimp only
  repeat (first | with_reducible (first | assumption | refine Keeps.fst (by assumption) ?_ | apply OKeeps.next | apply State.nextInterval_keeps | apply foldl_keeps | apply foldl_keeps1 | apply forN_keeps | apply iter_keeps) | split | (intro _ _ _; try dsimp only) | (intro _ _; try dsimp only) | (intro _; try dsimp only) | fail_if_no_progress (refine Keeps.ofMk rfl rfl rfl rfl rfl rfl rfl rfl ?_))

theorem State.logLoads_keeps {s0 : State} (s : State) (b : Block) (h0 : Keeps s0 s) : Keeps s0 (State.logLoads s b) := by
  unfold State.logLoads
  try dsimp only
  repeat (first | with_reducible (first | assumption | refine Keeps.fst (by assumption) ?_ | apply OKeeps.next | apply State.log_keeps | apply State.performAll_keeps | apply foldl_keeps | apply foldl_keeps1 | apply forN_keeps | apply iter_keeps) | split | (intro _ _ _; try dsimp only) | (intro _ _; try dsimp only) | (intro _; try dsimp only) | fail_if_no_progress (refine Keeps.ofMk rfl rfl rfl rfl rfl rfl rfl rfl ?_))

theorem State.startReach_keeps {s0 : State} (s : State) (b : Block) (r : Recording) (w n : Nat) (h0 : Keeps s0 s) : Keeps s0 (State.startReach s b r w n) := by
  unfold State.startReach
  try dsimp only
  repeat (first | with_reducible (first | assumption | refine Keeps.fst (by assumption) ?_ | apply OKeeps.next | apply State.log_keeps | apply State.logLoads_keeps | apply State.modRecording_keeps | apply State.reload_keeps | apply State.setHalt_keeps | apply foldl_keeps | apply foldl_keeps1 | apply forN_keeps | apply iter_keeps) | split | (intro _ _ _; try dsimp only) | (intro _ _; try dsimp only) | (intro _; try dsimp only) | fail_if_no_progress (refine Keeps.ofMk rfl rfl rfl rfl rfl rfl rfl rfl ?_))

theorem State.reachGoal_keeps {s0 : State} (s : State) (r : Recording) (h0 : Keeps s0 s) : Keeps s0 (State.reachGoal s r) := by
  unfold State.reachGoal
  try dsimp only
  repeat (first | with_reducible (first | assumption | refine Keeps.fst (by assumption) ?_ | apply OKeeps.next | apply State.startReach_keeps | apply foldl_keeps | apply foldl_keeps1 | apply forN_keeps | apply iter_keeps) | split | (intro _ _ _; try dsimp only) | (intro _ _; try dsimp only) | (intro _; try dsimp only) | fail_if_no_progress (refine Keeps.ofMk rfl rfl rfl rfl rfl rfl rfl rfl ?_))

theorem State.reachGoals_keeps {s0 : State} (s : State) (h0 : Keeps s0 s) : Keeps s0 (State.reachGoals s) := by
  unfold State.reachGoals
  try dsimp only
  repeat (first | with_reducible (first | assumption | refine Keeps.fst (by assumption) ?_ | apply OKeeps.next | apply State.reachGoal_keeps | apply foldl_keeps | apply foldl_keeps1 | apply forN_keeps | apply iter_keeps) | split | (intro _ _ _; try dsimp only) | (intro _ _; try dsimp only) | (intro _; try dsimp only) | fail_if_no_progress (refine Keeps.ofMk rfl rfl rfl rfl rfl rfl rfl rfl ?_))

theorem execDebugReachStop_keeps {s0 : State} (b w n : Nat) (s : State) (h0 : Keeps s0 s) : OKeeps s0 (execDebugReachStop b w n s) := by
  unfold execDebugReachStop
  try dsimp only
  repeat (first | with_reducible (first | assumption | refine Keeps.fst (by assumption) ?_ | apply OKeeps.next | apply State.modRecording_keeps | apply State.reachGoals_keeps | apply State.setHalt_keeps | apply State.toPresent_keeps | apply foldl_keeps | apply foldl_keeps1 | apply forN_keeps | apply iter_keeps) | split | (intro _ _ _; try dsimp only) | (intro _ _; try dsimp only) | (intro _; try dsimp only) | fail_if_no_progress (refine Keeps.ofMk rfl rfl rfl rfl rfl rfl rfl rfl ?_))

theorem State.unhalt_keeps {s0 : State} (s : State) (b : Block) (h0 : Keeps s0 s) : Keeps s0 (State.unhalt s b) := by
  unfold State.unhalt
  try dsimp only
  repeat (first | with_reducible (first | assumption | refine Keeps.fst (by assumption) ?_ | apply OKeeps.next | apply State.modRecording_keeps | apply State.setHalt_keeps | apply foldl_keeps | apply foldl_keeps1 | apply forN_keeps | apply iter_keeps) | split | (intro _ _ _; try dsimp only) | (intro _ _; try dsimp only) | (intro _; try dsimp only) | fail_if_no_progress (refine Keeps.ofMk rfl rfl rfl rfl rfl rfl rfl rfl ?_))

theorem execDebugContinue_keeps {s0 : State} (b w f : Nat) (s : State) (h0 : Keeps s0 s) : OKeeps s0 (execDebugContinue b w f s) := by
  unfold execDebugContinue
  try dsimp only
  repeat (first | with_reducible (first | assumption | refine Keeps.fst (by assumption) ?_ | apply OKeeps.next | apply State.resume_keeps | apply State.toPresent_keeps | apply State.unhalt_keeps | apply State.wakeAll_keeps | apply foldl_keeps | apply foldl_keeps1 | apply forN_keeps | apply iter_keeps) | split | (intro _ _ _; try dsimp only) | (intro _ _; try dsimp only) | (intro _; try dsimp only) | fail_if_no_progress (refine Keeps.ofMk rfl rfl rfl rfl rfl rfl rfl rfl ?_))

theorem State.detach_keeps {s0 : State} (s : State) (c : Nat) (h0 : Keeps s0 s) : Keeps s0 (State.detach s c) := by
  unfold State.detach
  try dsimp only
  repeat (first | with_reducible (first | assumption | refine Keeps.fst (by assumption) ?_ | apply OKeeps.next | apply State.endReplays_keeps | apply State.go_keeps | apply State.modBlock_keeps | apply State.modCore_keeps | apply State.modCtx_keeps | apply State.resume_keeps | apply State.wake_keeps | apply foldl_keeps | apply foldl_keeps1 | apply forN_keeps | apply iter_keeps) | split | (intro _ _ _; try dsimp only) | (intro _ _; try dsimp only) | (intro _; try dsimp only) | fail_if_no_progress (refine Keeps.ofMk rfl rfl rfl rfl rfl rfl rfl rfl ?_))

theorem execDebugDetach_keeps {s0 : State} (c : Nat) (s : State) (h0 : Keeps s0 s) : OKeeps s0 (execDebugDetach c s) := by
  unfold execDebugDetach
  try dsimp only
  repeat (first | with_reducible (first | assumption | refine Keeps.fst (by assumption) ?_ | apply OKeeps.next | apply State.detach_keeps | apply State.wakeAll_keeps | apply foldl_keeps | apply foldl_keeps1 | apply forN_keeps | apply iter_keeps) | split | (intro _ _ _; try dsimp only) | (intro _ _; try dsimp only) | (intro _; try dsimp only) | fail_if_no_progress (refine Keeps.ofMk rfl rfl rfl rfl rfl rfl rfl rfl ?_))

theorem execDebugStep_keeps {s0 : State} (b w f : Nat) (s : State) (h0 : Keeps s0 s) : OKeeps s0 (execDebugStep b w f s) := by
  unfold execDebugStep
  try dsimp only
  repeat (first | with_reducible (first | assumption | refine Keeps.fst (by assumption) ?_ | apply OKeeps.next | apply State.modMask_keeps | apply State.resume_keeps | apply State.syncHelpers_keeps | apply State.toPresent_keeps | apply State.wakeAll_keeps | apply foldl_keeps | apply foldl_keeps1 | apply forN_keeps | apply iter_keeps) | split | (intro _ _ _; try dsimp only) | (intro _ _; try dsimp only) | (intro _; try dsimp only) | fail_if_no_progress (refine Keeps.ofMk rfl rfl rfl rfl rfl rfl rfl rfl ?_))

theorem State.endStep_keeps {s0 : State} (s : State) (bk wi : Nat) (m : Mask) (h0 : Keeps s0 s) : Keeps s0 (State.endStep s bk wi m) := by
  unfold State.endStep
  try dsimp only
  repeat (first | with_reducible (first | assumption | refine Keeps.fst (by assumption) ?_ | apply OKeeps.next | apply State.exhaust_keeps | refine State.park_keeps_eq (by assumption) ?_ | apply foldl_keeps | apply foldl_keeps1 | apply forN_keeps | apply iter_keeps) | split | (intro _ _ _; try dsimp only) | (intro _ _; try dsimp only) | (intro _; try dsimp only) | fail_if_no_progress (refine Keeps.ofMk rfl rfl rfl rfl rfl rfl rfl rfl ?_))

theorem State.outWrite_keeps {s0 : State} (s : State) (home : Option Nat) (pa : Nat) (data : Payload) (h0 : Keeps s0 s) : Keeps s0 (State.outWrite s home pa data) := by
  unfold State.outWrite
  try dsimp only
  repeat (first | with_reducible (first | assumption | refine Keeps.fst (by assumption) ?_ | apply OKeeps.next | apply State.foreignStore_keeps | apply State.l2Write_keeps | apply foldl_keeps | apply foldl_keeps1 | apply forN_keeps | apply iter_keeps) | split | (intro _ _ _; try dsimp only) | (intro _ _; try dsimp only) | (intro _; try dsimp only) | fail_if_no_progress (refine Keeps.ofMk rfl rfl rfl rfl rfl rfl rfl rfl ?_))

theorem State.outRead_keeps {s0 : State} (s : State) (home : Option Nat) (pa n : Nat) (h0 : Keeps s0 s) : Keeps s0 (State.outRead s home pa n) := by
  unfold State.outRead
  try dsimp only
  repeat (first | with_reducible (first | assumption | refine Keeps.fst (by assumption) ?_ | apply OKeeps.next | apply foldl_keeps | apply foldl_keeps1 | apply forN_keeps | apply iter_keeps) | split | (intro _ _ _; try dsimp only) | (intro _ _; try dsimp only) | (intro _; try dsimp only) | fail_if_no_progress (refine Keeps.ofMk rfl rfl rfl rfl rfl rfl rfl rfl ?_))

theorem execHostWrite_keeps {s0 : State} (home : Option Nat) (pa : Nat) (data : Payload) (s : State) (h0 : Keeps s0 s) : OKeeps s0 (execHostWrite home pa data s) := by
  unfold execHostWrite
  try dsimp only
  repeat (first | with_reducible (first | assumption | refine Keeps.fst (by assumption) ?_ | apply OKeeps.next | apply State.outWrite_keeps | apply foldl_keeps | apply foldl_keeps1 | apply forN_keeps | apply iter_keeps) | split | (intro _ _ _; try dsimp only) | (intro _ _; try dsimp only) | (intro _; try dsimp only) | fail_if_no_progress (refine Keeps.ofMk rfl rfl rfl rfl rfl rfl rfl rfl ?_))

theorem execHostRead_keeps {s0 : State} (home : Option Nat) (pa n : Nat) (s : State) (h0 : Keeps s0 s) : OKeeps s0 (execHostRead home pa n s) := by
  unfold execHostRead
  try dsimp only
  repeat (first | with_reducible (first | assumption | refine Keeps.fst (by assumption) ?_ | apply OKeeps.next | apply State.outRead_keeps | apply foldl_keeps | apply foldl_keeps1 | apply forN_keeps | apply iter_keeps) | split | (intro _ _ _; try dsimp only) | (intro _ _; try dsimp only) | (intro _; try dsimp only) | fail_if_no_progress (refine Keeps.ofMk rfl rfl rfl rfl rfl rfl rfl rfl ?_))

theorem execPeerWrite_keeps {s0 : State} (home : Option Nat) (pa : Nat) (data : Payload) (s : State) (h0 : Keeps s0 s) : OKeeps s0 (execPeerWrite home pa data s) := by
  unfold execPeerWrite
  try dsimp only
  repeat (first | with_reducible (first | assumption | refine Keeps.fst (by assumption) ?_ | apply OKeeps.next | apply State.outWrite_keeps | apply foldl_keeps | apply foldl_keeps1 | apply forN_keeps | apply iter_keeps) | split | (intro _ _ _; try dsimp only) | (intro _ _; try dsimp only) | (intro _; try dsimp only) | fail_if_no_progress (refine Keeps.ofMk rfl rfl rfl rfl rfl rfl rfl rfl ?_))

theorem execPeerRead_keeps {s0 : State} (home : Option Nat) (pa n : Nat) (s : State) (h0 : Keeps s0 s) : OKeeps s0 (execPeerRead home pa n s) := by
  unfold execPeerRead
  try dsimp only
  repeat (first | with_reducible (first | assumption | refine Keeps.fst (by assumption) ?_ | apply OKeeps.next | apply State.outRead_keeps | apply foldl_keeps | apply foldl_keeps1 | apply forN_keeps | apply iter_keeps) | split | (intro _ _ _; try dsimp only) | (intro _ _; try dsimp only) | (intro _; try dsimp only) | fail_if_no_progress (refine Keeps.ofMk rfl rfl rfl rfl rfl rfl rfl rfl ?_))

theorem State.outsideMem_keeps {s0 : State} (s : State) (h0 : Keeps s0 s) : Keeps s0 (State.outsideMem s) := by
  unfold State.outsideMem
  try dsimp only
  repeat (first | with_reducible (first | assumption | refine Keeps.fst (by assumption) ?_ | apply OKeeps.next | apply State.writeBack_keeps | apply foldl_keeps | apply foldl_keeps1 | apply forN_keeps | apply iter_keeps) | split | (intro _ _ _; try dsimp only) | (intro _ _; try dsimp only) | (intro _; try dsimp only) | fail_if_no_progress (refine Keeps.ofMk rfl rfl rfl rfl rfl rfl rfl rfl ?_))

theorem State.poisonHome_keeps {s0 : State} (s : State) (h0 : Keeps s0 s) : Keeps s0 (State.poisonHome s) := by
  unfold State.poisonHome
  try dsimp only
  repeat (first | with_reducible (first | assumption | refine Keeps.fst (by assumption) ?_ | apply OKeeps.next | apply State.ownerHome_keeps | apply foldl_keeps | apply foldl_keeps1 | apply forN_keeps | apply iter_keeps) | split | (intro _ _ _; try dsimp only) | (intro _ _; try dsimp only) | (intro _; try dsimp only) | fail_if_no_progress (refine Keeps.ofMk rfl rfl rfl rfl rfl rfl rfl rfl ?_))

theorem State.outsideMem_wf (s : State) (w : s.mem.wf = true) : s.outsideMem.mem.wf = true := writeHLines_wf _ _ w

theorem execColdReset_mkeeps {s0 : State} (s : State) (h0 : MKeeps s0 s) : OMKeeps s0 (execColdReset s) :=
  OMKeeps.next ⟨fun w => Memory.wf_filter _ _ (s.outsideMem_wf (h0.mem w)), h0.tick⟩

theorem execWarmReset_mkeeps {s0 : State} (s : State) (h0 : MKeeps s0 s) : OMKeeps s0 (execWarmReset s) := by
  refine OMKeeps.next (MKeeps.andThen ?_ (State.sediment_keeps _ _ _ _ _ (Keeps.refl _)))
  exact ⟨fun w => s.outsideMem_wf (h0.mem w), h0.tick⟩

theorem State.zeroWhere_keeps {s0 : State} (s : State) (p : Nat → Bool) (h0 : Keeps s0 s) : Keeps s0 (s.zeroWhere p) :=
  Keeps.memSet (t := s) (fun w => Memory.wf_filter _ _ w) rfl rfl h0

theorem State.modWh_mkeeps {s0 : State} (s : State) (f : Wellhead → Wellhead) (h0 : MKeeps s0 s) : MKeeps s0 (s.modWh f) := ⟨h0.mem, h0.tick⟩
theorem State.sediment_mkeeps {s0 : State} (s : State) (c : Option Nat) (src ev : Nat) (d : BitVec 448) (h0 : MKeeps s0 s) :
    MKeeps s0 (s.sediment c src ev d) := h0.andThen (State.sediment_keeps _ _ _ _ _ (Keeps.refl _))
theorem State.zeroWhere_mkeeps {s0 : State} (s : State) (p : Nat → Bool) (h0 : MKeeps s0 s) : MKeeps s0 (s.zeroWhere p) :=
  h0.andThen (State.zeroWhere_keeps _ _ (Keeps.refl _))
theorem State.stopBringup_mkeeps {s0 : State} (s : State) (err : BitVec 4) (h0 : MKeeps s0 s) : MKeeps s0 (s.stopBringup err) := by
  unfold State.stopBringup
  exact State.sediment_mkeeps _ _ _ _ _ (State.modWh_mkeeps _ _ h0)

theorem State.memRise_keeps {s0 : State} (s : State) (gib : Nat) (h0 : Keeps s0 s) : Keeps s0 (State.memRise s gib) := by
  unfold State.memRise
  try dsimp only
  repeat (first | with_reducible (first | assumption | refine Keeps.fst (by assumption) ?_ | apply OKeeps.next | refine State.modWh_keeps _ _ rfl rfl rfl rfl ?_ | apply State.zeroWhere_keeps | apply foldl_keeps | apply foldl_keeps1 | apply forN_keeps | apply iter_keeps) | split | (intro _ _ _; try dsimp only) | (intro _ _; try dsimp only) | (intro _; try dsimp only) | fail_if_no_progress (refine Keeps.ofMk rfl rfl rfl rfl rfl rfl rfl rfl ?_))

theorem State.reduced_mkeeps {s0 : State} (s : State) (d : Nat) (h0 : MKeeps s0 s) : MKeeps s0 (s.reduced d) := by
  unfold State.reduced
  exact State.modWh_mkeeps _ _ (h0.andThen (State.memRise_keeps _ _ (Keeps.refl _)))

theorem State.fullService_mkeeps {s0 : State} (s : State) (h0 : MKeeps s0 s) : MKeeps s0 s.fullService := by
  unfold State.fullService
  dsimp only
  split
  · exact State.modWh_mkeeps _ _ (State.zeroWhere_mkeeps _ _ h0)
  · refine MKeeps.andThen ?_ (State.mapCores_keeps _ _ (Keeps.refl _))
    exact State.modWh_mkeeps _ _ (State.zeroWhere_mkeeps _ _ h0)

theorem execBringupStageComplete_mkeeps {s0 : State} (err : BitVec 4) (s : State) (h0 : MKeeps s0 s) :
    OMKeeps s0 (execBringupStageComplete err s) := by
  unfold execBringupStageComplete
  refine OMKeeps.next ?_
  split
  · exact h0
  · split
    · exact State.stopBringup_mkeeps _ _ h0
    · split
      · exact h0
      · split
        · dsimp only
          split
          · exact State.stopBringup_mkeeps _ _ (MKeeps.same (t := s) rfl rfl h0)
          · refine MKeeps.same (t := List.foldl _ (s.modWh _) _) rfl rfl ?_
            exact foldl_mkeeps (fun u x hu => hu.andThen (State.modPlace_keeps _ _ _ (Keeps.refl _))) (MKeeps.same (t := s) rfl rfl h0)
        · exact State.reduced_mkeeps _ _ h0
        · exact State.fullService_mkeeps _ h0
        · exact MKeeps.same (t := s) rfl rfl h0

theorem State.partStatus_keeps {s0 : State} (s : State) (v : BitVec 2) (h0 : Keeps s0 s) : Keeps s0 (State.partStatus s v) := by
  unfold State.partStatus
  try dsimp only
  repeat (first | with_reducible (first | assumption | refine Keeps.fst (by assumption) ?_ | apply OKeeps.next | refine State.modWh_keeps _ _ rfl rfl rfl rfl ?_ | apply foldl_keeps | apply foldl_keeps1 | apply forN_keeps | apply iter_keeps) | split | (intro _ _ _; try dsimp only) | (intro _ _; try dsimp only) | (intro _; try dsimp only) | fail_if_no_progress (refine Keeps.ofMk rfl rfl rfl rfl rfl rfl rfl rfl ?_))

theorem State.go_keeps {s0 : State} (s : State) (h0 : Keeps s0 s) : Keeps s0 (State.go s) := by
  unfold State.go
  try dsimp only
  repeat (first | with_reducible (first | assumption | refine Keeps.fst (by assumption) ?_ | apply OKeeps.next | refine State.modWh_keeps _ _ rfl rfl rfl rfl ?_ | apply foldl_keeps | apply foldl_keeps1 | apply forN_keeps | apply iter_keeps) | split | (intro _ _ _; try dsimp only) | (intro _ _; try dsimp only) | (intro _; try dsimp only) | fail_if_no_progress (refine Keeps.ofMk rfl rfl rfl rfl rfl rfl rfl rfl ?_))

theorem State.applyMap_mkeeps {s0 : State} (s : State) (h0 : MKeeps s0 s) : MKeeps s0 s.applyMap :=
  State.sediment_mkeeps _ _ _ _ _ (MKeeps.same (t := s) rfl rfl h0)

theorem State.goPlain_mkeeps {s0 : State} (s : State) (h0 : MKeeps s0 s) : MKeeps s0 s.goPlain := by
  unfold State.goPlain
  dsimp only
  split
  · exact MKeeps.same (t := s) rfl rfl h0
  · split
    · exact State.applyMap_mkeeps _ (MKeeps.same (t := s) rfl rfl h0)
    · exact MKeeps.same (t := s) rfl rfl h0

theorem execPartitionApply_mkeeps {s0 : State} (s : State) (h0 : MKeeps s0 s) : OMKeeps s0 (execPartitionApply s) :=
  OMKeeps.next (State.goPlain_mkeeps _ h0)

theorem State.holdPre_keeps {s0 : State} (s : State) (c : Nat) (h0 : Keeps s0 s) : Keeps s0 (State.holdPre s c) := by
  unfold State.holdPre
  try dsimp only
  repeat (first | with_reducible (first | assumption | refine Keeps.fst (by assumption) ?_ | apply OKeeps.next | apply State.preempt_keeps | apply foldl_keeps | apply foldl_keeps1 | apply forN_keeps | apply iter_keeps) | split | (intro _ _ _; try dsimp only) | (intro _ _; try dsimp only) | (intro _; try dsimp only) | fail_if_no_progress (refine Keeps.ofMk rfl rfl rfl rfl rfl rfl rfl rfl ?_))

theorem State.finishForce_mkeeps {s0 : State} (s : State) (h0 : MKeeps s0 s) : MKeeps s0 s.finishForce := by
  unfold State.finishForce
  dsimp only
  split
  · exact h0
  · split
    · exact MKeeps.same (t := s) rfl rfl h0
    · split
      · exact State.applyMap_mkeeps _ h0
      · exact foldl_mkeeps (fun u x hu => hu.andThen (State.holdPre_keeps _ _ (Keeps.refl _))) h0

theorem State.startForce_mkeeps {s0 : State} (s : State) (h0 : MKeeps s0 s) : MKeeps s0 s.startForce := by
  refine State.finishForce_mkeeps _ (foldl_mkeeps (fun u x hu => hu.andThen (State.holdPre_keeps _ _ (Keeps.refl _))) ?_)
  exact MKeeps.same (t := s) rfl rfl h0

theorem State.goForce_mkeeps {s0 : State} (s : State) (h0 : MKeeps s0 s) : MKeeps s0 s.goForce := by
  unfold State.goForce
  dsimp only
  split
  · exact MKeeps.same (t := s) rfl rfl h0
  · exact State.startForce_mkeeps _ (MKeeps.same (t := s) rfl rfl h0)

theorem execPartitionApplyForce_mkeeps {s0 : State} (s : State) (h0 : MKeeps s0 s) : OMKeeps s0 (execPartitionApplyForce s) :=
  OMKeeps.next (State.goForce_mkeeps _ h0)

theorem execPowerLimitAdjust_keeps {s0 : State} (mhz k : Nat) (s : State) (h0 : Keeps s0 s) : OKeeps s0 (execPowerLimitAdjust mhz k s) := by
  unfold execPowerLimitAdjust
  try dsimp only
  repeat (first | with_reducible (first | assumption | refine Keeps.fst (by assumption) ?_ | apply OKeeps.next | refine State.modWh_keeps _ _ rfl rfl rfl rfl ?_ | apply State.sediment_keeps | apply foldl_keeps | apply foldl_keeps1 | apply forN_keeps | apply iter_keeps) | split | (intro _ _ _; try dsimp only) | (intro _ _; try dsimp only) | (intro _; try dsimp only) | fail_if_no_progress (refine Keeps.ofMk rfl rfl rfl rfl rfl rfl rfl rfl ?_))

theorem execDieIdleEntry_keeps {s0 : State} (d : Nat) (deep : Bool) (s : State) (h0 : Keeps s0 s) : OKeeps s0 (execDieIdleEntry d deep s) := by
  unfold execDieIdleEntry
  try dsimp only
  repeat (first | with_reducible (first | assumption | refine Keeps.fst (by assumption) ?_ | apply OKeeps.next | refine State.modWh_keeps _ _ rfl rfl rfl rfl ?_ | apply foldl_keeps | apply foldl_keeps1 | apply forN_keeps | apply iter_keeps) | split | (intro _ _ _; try dsimp only) | (intro _ _; try dsimp only) | (intro _; try dsimp only) | fail_if_no_progress (refine Keeps.ofMk rfl rfl rfl rfl rfl rfl rfl rfl ?_))

theorem State.sign_keeps {s0 : State} (s : State) (h0 : Keeps s0 s) : Keeps s0 (State.sign s) := by
  unfold State.sign
  try dsimp only
  repeat (first | with_reducible (first | assumption | refine Keeps.fst (by assumption) ?_ | apply OKeeps.next | refine State.modWh_keeps _ _ rfl rfl rfl rfl ?_ | apply foldl_keeps | apply foldl_keeps1 | apply forN_keeps | apply iter_keeps) | split | (intro _ _ _; try dsimp only) | (intro _ _; try dsimp only) | (intro _; try dsimp only) | fail_if_no_progress (refine Keeps.ofMk rfl rfl rfl rfl rfl rfl rfl rfl ?_))

theorem execSedimentSign_keeps {s0 : State} (s : State) (h0 : Keeps s0 s) : OKeeps s0 (execSedimentSign s) := by
  unfold execSedimentSign
  try dsimp only
  repeat (first | with_reducible (first | assumption | refine Keeps.fst (by assumption) ?_ | apply OKeeps.next | apply State.sign_keeps | apply foldl_keeps | apply foldl_keeps1 | apply forN_keeps | apply iter_keeps) | split | (intro _ _ _; try dsimp only) | (intro _ _; try dsimp only) | (intro _; try dsimp only) | fail_if_no_progress (refine Keeps.ofMk rfl rfl rfl rfl rfl rfl rfl rfl ?_))

theorem execSedimentSignComplete_keeps {s0 : State} (s : State) (h0 : Keeps s0 s) : OKeeps s0 (execSedimentSignComplete s) := by
  unfold execSedimentSignComplete
  try dsimp only
  repeat (first | with_reducible (first | assumption | refine Keeps.fst (by assumption) ?_ | apply OKeeps.next | refine State.modWh_keeps _ _ rfl rfl rfl rfl ?_ | apply foldl_keeps | apply foldl_keeps1 | apply forN_keeps | apply iter_keeps) | split | (intro _ _ _; try dsimp only) | (intro _ _; try dsimp only) | (intro _; try dsimp only) | fail_if_no_progress (refine Keeps.ofMk rfl rfl rfl rfl rfl rfl rfl rfl ?_))

theorem State.answer_keeps {s0 : State} (s : State) (pf : Nat) (f : Spdm → Spdm) (h0 : Keeps s0 s) : Keeps s0 (State.answer s pf f) := by
  unfold State.answer
  try dsimp only
  repeat (first | with_reducible (first | assumption | refine Keeps.fst (by assumption) ?_ | apply OKeeps.next | refine State.modWh_keeps _ _ rfl rfl rfl rfl ?_ | apply foldl_keeps | apply foldl_keeps1 | apply forN_keeps | apply iter_keeps) | split | (intro _ _ _; try dsimp only) | (intro _ _; try dsimp only) | (intro _; try dsimp only) | fail_if_no_progress (refine Keeps.ofMk rfl rfl rfl rfl rfl rfl rfl rfl ?_))

theorem State.agreedAnswer_keeps {s0 : State} (s : State) (pf : Nat) (r : SpdmResp) (h0 : Keeps s0 s) : Keeps s0 (State.agreedAnswer s pf r) := by
  unfold State.agreedAnswer
  try dsimp only
  repeat (first | with_reducible (first | assumption | refine Keeps.fst (by assumption) ?_ | apply OKeeps.next | apply State.answer_keeps | apply foldl_keeps | apply foldl_keeps1 | apply forN_keeps | apply iter_keeps) | split | (intro _ _ _; try dsimp only) | (intro _ _; try dsimp only) | (intro _; try dsimp only) | fail_if_no_progress (refine Keeps.ofMk rfl rfl rfl rfl rfl rfl rfl rfl ?_))

theorem execGetVersion_keeps {s0 : State} (pf : Nat) (s : State) (h0 : Keeps s0 s) : OKeeps s0 (execGetVersion pf s) := by
  unfold execGetVersion
  try dsimp only
  repeat (first | with_reducible (first | assumption | refine Keeps.fst (by assumption) ?_ | apply OKeeps.next | apply State.answer_keeps | apply foldl_keeps | apply foldl_keeps1 | apply forN_keeps | apply iter_keeps) | split | (intro _ _ _; try dsimp only) | (intro _ _; try dsimp only) | (intro _; try dsimp only) | fail_if_no_progress (refine Keeps.ofMk rfl rfl rfl rfl rfl rfl rfl rfl ?_))

theorem execGetCapabilities_keeps {s0 : State} (pf : Nat) (s : State) (h0 : Keeps s0 s) : OKeeps s0 (execGetCapabilities pf s) := by
  unfold execGetCapabilities
  try dsimp only
  repeat (first | with_reducible (first | assumption | refine Keeps.fst (by assumption) ?_ | apply OKeeps.next | apply State.answer_keeps | apply foldl_keeps | apply foldl_keeps1 | apply forN_keeps | apply iter_keeps) | split | (intro _ _ _; try dsimp only) | (intro _ _; try dsimp only) | (intro _; try dsimp only) | fail_if_no_progress (refine Keeps.ofMk rfl rfl rfl rfl rfl rfl rfl rfl ?_))

theorem execNegotiateAlgorithms_keeps {s0 : State} (pf : Nat) (offered : List SpdmAlg) (s : State) (h0 : Keeps s0 s) : OKeeps s0 (execNegotiateAlgorithms pf offered s) := by
  unfold execNegotiateAlgorithms
  try dsimp only
  repeat (first | with_reducible (first | assumption | refine Keeps.fst (by assumption) ?_ | apply OKeeps.next | apply State.answer_keeps | apply foldl_keeps | apply foldl_keeps1 | apply forN_keeps | apply iter_keeps) | split | (intro _ _ _; try dsimp only) | (intro _ _; try dsimp only) | (intro _; try dsimp only) | fail_if_no_progress (refine Keeps.ofMk rfl rfl rfl rfl rfl rfl rfl rfl ?_))

theorem execGetDigests_keeps {s0 : State} (pf : Nat) (s : State) (h0 : Keeps s0 s) : OKeeps s0 (execGetDigests pf s) := by
  unfold execGetDigests
  try dsimp only
  repeat (first | with_reducible (first | assumption | refine Keeps.fst (by assumption) ?_ | apply OKeeps.next | apply State.agreedAnswer_keeps | apply foldl_keeps | apply foldl_keeps1 | apply forN_keeps | apply iter_keeps) | split | (intro _ _ _; try dsimp only) | (intro _ _; try dsimp only) | (intro _; try dsimp only) | fail_if_no_progress (refine Keeps.ofMk rfl rfl rfl rfl rfl rfl rfl rfl ?_))

theorem execGetCertificate_keeps {s0 : State} (pf slot off len : Nat) (s : State) (h0 : Keeps s0 s) : OKeeps s0 (execGetCertificate pf slot off len s) := by
  unfold execGetCertificate
  try dsimp only
  repeat (first | with_reducible (first | assumption | refine Keeps.fst (by assumption) ?_ | apply OKeeps.next | apply State.agreedAnswer_keeps | apply foldl_keeps | apply foldl_keeps1 | apply forN_keeps | apply iter_keeps) | split | (intro _ _ _; try dsimp only) | (intro _ _; try dsimp only) | (intro _; try dsimp only) | fail_if_no_progress (refine Keeps.ofMk rfl rfl rfl rfl rfl rfl rfl rfl ?_))

theorem execChallenge_keeps {s0 : State} (pf slot nonce : Nat) (s : State) (h0 : Keeps s0 s) : OKeeps s0 (execChallenge pf slot nonce s) := by
  unfold execChallenge
  try dsimp only
  repeat (first | with_reducible (first | assumption | refine Keeps.fst (by assumption) ?_ | apply OKeeps.next | apply State.agreedAnswer_keeps | apply foldl_keeps | apply foldl_keeps1 | apply forN_keeps | apply iter_keeps) | split | (intro _ _ _; try dsimp only) | (intro _ _; try dsimp only) | (intro _; try dsimp only) | fail_if_no_progress (refine Keeps.ofMk rfl rfl rfl rfl rfl rfl rfl rfl ?_))

theorem execGetMeasurements_keeps {s0 : State} (pf idx : Nat) (s : State) (h0 : Keeps s0 s) : OKeeps s0 (execGetMeasurements pf idx s) := by
  unfold execGetMeasurements
  try dsimp only
  repeat (first | with_reducible (first | assumption | refine Keeps.fst (by assumption) ?_ | apply OKeeps.next | apply State.agreedAnswer_keeps | apply foldl_keeps | apply foldl_keeps1 | apply forN_keeps | apply iter_keeps) | split | (intro _ _ _; try dsimp only) | (intro _ _; try dsimp only) | (intro _; try dsimp only) | fail_if_no_progress (refine Keeps.ofMk rfl rfl rfl rfl rfl rfl rfl rfl ?_))

theorem State.backInvalidate_keeps {s0 : State} (s : State) (line : Nat) (h0 : Keeps s0 s) : Keeps s0 (State.backInvalidate s line) := by
  unfold State.backInvalidate
  try dsimp only
  repeat (first | with_reducible (first | assumption | refine Keeps.fst (by assumption) ?_ | apply OKeeps.next | apply State.dropPois_keeps | apply State.poison_keeps | apply foldl_keeps | apply foldl_keeps1 | apply forN_keeps | apply iter_keeps) | split | (intro _ _ _; try dsimp only) | (intro _ _; try dsimp only) | (intro _; try dsimp only) | fail_if_no_progress (refine Keeps.ofMk rfl rfl rfl rfl rfl rfl rfl rfl ?_))

theorem State.uncorrectable_keeps {s0 : State} (s : State) (site : ErrSite) (h0 : Keeps s0 s) : Keeps s0 (State.uncorrectable s site) := by
  unfold State.uncorrectable
  try dsimp only
  repeat (first | with_reducible (first | assumption | refine Keeps.fst (by assumption) ?_ | apply OKeeps.next | apply State.backInvalidate_keeps | apply State.dropL1_keeps | apply State.l2SetPois_keeps | apply State.modBlock_keeps | apply State.modCore_keeps | apply State.modWarp_keeps | apply State.poison_keeps | apply State.sediment_keeps | apply foldl_keeps | apply foldl_keeps1 | apply forN_keeps | apply iter_keeps) | split | (intro _ _ _; try dsimp only) | (intro _ _; try dsimp only) | (intro _; try dsimp only) | fail_if_no_progress (refine Keeps.ofMk rfl rfl rfl rfl rfl rfl rfl rfl ?_))

theorem State.countCorrected_keeps {s0 : State} (s : State) (src n : Nat) (h0 : Keeps s0 s) : Keeps s0 (State.countCorrected s src n) := by
  unfold State.countCorrected
  try dsimp only
  repeat (first | with_reducible (first | assumption | refine Keeps.fst (by assumption) ?_ | apply OKeeps.next | refine State.modWh_keeps _ _ rfl rfl rfl rfl ?_ | apply State.sediment_keeps | apply foldl_keeps | apply foldl_keeps1 | apply forN_keeps | apply iter_keeps) | split | (intro _ _ _; try dsimp only) | (intro _ _; try dsimp only) | (intro _; try dsimp only) | fail_if_no_progress (refine Keeps.ofMk rfl rfl rfl rfl rfl rfl rfl rfl ?_))

theorem State.noteFrame_keeps {s0 : State} (s : State) (key : Nat) (h0 : Keeps s0 s) : Keeps s0 (State.noteFrame s key) := by
  unfold State.noteFrame
  try dsimp only
  repeat (first | with_reducible (first | assumption | refine Keeps.fst (by assumption) ?_ | apply OKeeps.next | refine State.modWh_keeps _ _ rfl rfl rfl rfl ?_ | apply State.sediment_keeps | apply foldl_keeps | apply foldl_keeps1 | apply forN_keeps | apply iter_keeps) | split | (intro _ _ _; try dsimp only) | (intro _ _; try dsimp only) | (intro _; try dsimp only) | fail_if_no_progress (refine Keeps.ofMk rfl rfl rfl rfl rfl rfl rfl rfl ?_))

theorem execScrub_keeps {s0 : State} (site : ErrSite) (corrected : Nat) (s : State) (h0 : Keeps s0 s) : OKeeps s0 (execScrub site corrected s) := by
  unfold execScrub
  try dsimp only
  repeat (first | with_reducible (first | assumption | refine Keeps.fst (by assumption) ?_ | apply OKeeps.next | apply State.countCorrected_keeps | apply State.noteFrame_keeps | apply State.uncorrectable_keeps | apply foldl_keeps | apply foldl_keeps1 | apply forN_keeps | apply iter_keeps) | split | (intro _ _ _; try dsimp only) | (intro _ _; try dsimp only) | (intro _; try dsimp only) | fail_if_no_progress (refine Keeps.ofMk rfl rfl rfl rfl rfl rfl rfl rfl ?_))

theorem State.failCtx_keeps {s0 : State} (s : State) (d c : Nat) (h0 : Keeps s0 s) : Keeps s0 (State.failCtx s d c) := by
  unfold State.failCtx
  try dsimp only
  repeat (first | with_reducible (first | assumption | refine Keeps.fst (by assumption) ?_ | apply OKeeps.next | apply State.modCtx_keeps | apply State.pend_keeps | apply foldl_keeps | apply foldl_keeps1 | apply forN_keeps | apply iter_keeps) | split | (intro _ _ _; try dsimp only) | (intro _ _; try dsimp only) | (intro _; try dsimp only) | fail_if_no_progress (refine Keeps.ofMk rfl rfl rfl rfl rfl rfl rfl rfl ?_))

theorem State.loseLines_keeps {s0 : State} (s : State) (d : Nat) (h0 : Keeps s0 s) : Keeps s0 (State.loseLines s d) := by
  unfold State.loseLines
  try dsimp only
  repeat (first | with_reducible (first | assumption | refine Keeps.fst (by assumption) ?_ | apply OKeeps.next | apply State.mapCores_keeps | apply State.poison_keeps | apply foldl_keeps | apply foldl_keeps1 | apply forN_keeps | apply iter_keeps) | split | (intro _ _ _; try dsimp only) | (intro _ _; try dsimp only) | (intro _; try dsimp only) | fail_if_no_progress (refine Keeps.ofMk rfl rfl rfl rfl rfl rfl rfl rfl ?_))

theorem State.loseDie_keeps {s0 : State} (s : State) (d : Nat) (h0 : Keeps s0 s) : Keeps s0 (State.loseDie s d) := by
  unfold State.loseDie
  try dsimp only
  repeat (first | with_reducible (first | assumption | refine Keeps.fst (by assumption) ?_ | apply OKeeps.next | apply State.failCtx_keeps | apply State.loseLines_keeps | refine State.modWh_keeps _ _ rfl rfl rfl rfl ?_ | apply State.sediment_keeps | apply State.signal_keeps | apply foldl_keeps | apply foldl_keeps1 | apply forN_keeps | apply iter_keeps) | split | (intro _ _ _; try dsimp only) | (intro _ _; try dsimp only) | (intro _; try dsimp only) | fail_if_no_progress (refine Keeps.ofMk rfl rfl rfl rfl rfl rfl rfl rfl ?_))

theorem execDieLost_keeps {s0 : State} (d : Nat) (s : State) (h0 : Keeps s0 s) : OKeeps s0 (execDieLost d s) := by
  unfold execDieLost
  try dsimp only
  repeat (first | with_reducible (first | assumption | refine Keeps.fst (by assumption) ?_ | apply OKeeps.next | apply State.loseDie_keeps | apply foldl_keeps | apply foldl_keeps1 | apply forN_keeps | apply iter_keeps) | split | (intro _ _ _; try dsimp only) | (intro _ _; try dsimp only) | (intro _; try dsimp only) | fail_if_no_progress (refine Keeps.ofMk rfl rfl rfl rfl rfl rfl rfl rfl ?_))

theorem execLaneSpare_keeps {s0 : State} (d dir bundle : Nat) (s : State) (h0 : Keeps s0 s) : OKeeps s0 (execLaneSpare d dir bundle s) := by
  unfold execLaneSpare
  try dsimp only
  repeat (first | with_reducible (first | assumption | refine Keeps.fst (by assumption) ?_ | apply OKeeps.next | apply State.loseDie_keeps | refine State.modWh_keeps _ _ rfl rfl rfl rfl ?_ | apply State.sediment_keeps | apply foldl_keeps | apply foldl_keeps1 | apply forN_keeps | apply iter_keeps) | split | (intro _ _ _; try dsimp only) | (intro _ _; try dsimp only) | (intro _; try dsimp only) | fail_if_no_progress (refine Keeps.ofMk rfl rfl rfl rfl rfl rfl rfl rfl ?_))

theorem execBundleRetrainComplete_keeps {s0 : State} (d dir bundle : Nat) (s : State) (h0 : Keeps s0 s) : OKeeps s0 (execBundleRetrainComplete d dir bundle s) := by
  unfold execBundleRetrainComplete
  try dsimp only
  repeat (first | with_reducible (first | assumption | refine Keeps.fst (by assumption) ?_ | apply OKeeps.next | refine State.modWh_keeps _ _ rfl rfl rfl rfl ?_ | apply foldl_keeps | apply foldl_keeps1 | apply forN_keeps | apply iter_keeps) | split | (intro _ _ _; try dsimp only) | (intro _ _; try dsimp only) | (intro _; try dsimp only) | fail_if_no_progress (refine Keeps.ofMk rfl rfl rfl rfl rfl rfl rfl rfl ?_))

theorem execLinkLevelRetry_keeps {s0 : State} (d dir : Nat) (s : State) (h0 : Keeps s0 s) : OKeeps s0 (execLinkLevelRetry d dir s) := by
  unfold execLinkLevelRetry
  try dsimp only
  repeat (first | with_reducible (first | assumption | refine Keeps.fst (by assumption) ?_ | apply OKeeps.next | refine State.modWh_keeps _ _ rfl rfl rfl rfl ?_ | apply foldl_keeps | apply foldl_keeps1 | apply forN_keeps | apply iter_keeps) | split | (intro _ _ _; try dsimp only) | (intro _ _; try dsimp only) | (intro _; try dsimp only) | fail_if_no_progress (refine Keeps.ofMk rfl rfl rfl rfl rfl rfl rfl rfl ?_))

theorem execHostLinkRetrain_keeps {s0 : State} (link : Nat) (s : State) (h0 : Keeps s0 s) : OKeeps s0 (execHostLinkRetrain link s) := by
  unfold execHostLinkRetrain
  try dsimp only
  repeat (first | with_reducible (first | assumption | refine Keeps.fst (by assumption) ?_ | apply OKeeps.next | refine State.modWh_keeps _ _ rfl rfl rfl rfl ?_ | apply foldl_keeps | apply foldl_keeps1 | apply forN_keeps | apply iter_keeps) | split | (intro _ _ _; try dsimp only) | (intro _ _; try dsimp only) | (intro _; try dsimp only) | fail_if_no_progress (refine Keeps.ofMk rfl rfl rfl rfl rfl rfl rfl rfl ?_))

theorem State.settlePortLoad_keeps {s0 : State} (s : State) (b : Block) (wi p : Nat) (ld : PLoad) (h0 : Keeps s0 s) : Keeps s0 (State.settlePortLoad s b wi p ld) := by
  unfold State.settlePortLoad
  try dsimp only
  repeat (first | with_reducible (first | assumption | refine Keeps.fst (by assumption) ?_ | apply OKeeps.next | apply State.modLoad_keeps | apply State.perform_keeps | apply foldl_keeps | apply foldl_keeps1 | apply forN_keeps | apply iter_keeps) | split | (intro _ _ _; try dsimp only) | (intro _ _; try dsimp only) | (intro _; try dsimp only) | fail_if_no_progress (refine Keeps.ofMk rfl rfl rfl rfl rfl rfl rfl rfl ?_))

theorem State.settlePortStore_keeps {s0 : State} (s : State) (b : Block) (wi p : Nat) (st : PStore) (h0 : Keeps s0 s) : Keeps s0 (State.settlePortStore s b wi p st) := by
  unfold State.settlePortStore
  try dsimp only
  repeat (first | with_reducible (first | assumption | refine Keeps.fst (by assumption) ?_ | apply OKeeps.next | apply State.ackStore_keeps | apply State.modWarp_keeps | apply foldl_keeps | apply foldl_keeps1 | apply forN_keeps | apply iter_keeps) | split | (intro _ _ _; try dsimp only) | (intro _ _; try dsimp only) | (intro _; try dsimp only) | fail_if_no_progress (refine Keeps.ofMk rfl rfl rfl rfl rfl rfl rfl rfl ?_))

theorem State.settlePortIord_keeps {s0 : State} (s : State) (b : Block) (k p : Nat) (cmd : Cmd) (h0 : Keeps s0 s) : Keeps s0 (State.settlePortIord s b k p cmd) := by
  unfold State.settlePortIord
  try dsimp only
  repeat (first | with_reducible (first | assumption | refine Keeps.fst (by assumption) ?_ | apply OKeeps.next | apply State.engFault_keeps | apply foldl_keeps | apply foldl_keeps1 | apply forN_keeps | apply iter_keeps) | split | (intro _ _ _; try dsimp only) | (intro _ _; try dsimp only) | (intro _; try dsimp only) | fail_if_no_progress (refine Keeps.ofMk rfl rfl rfl rfl rfl rfl rfl rfl ?_))

theorem State.settlePort_keeps {s0 : State} (s : State) (p : Nat) (h0 : Keeps s0 s) : Keeps s0 (State.settlePort s p) := by
  unfold State.settlePort
  try dsimp only
  repeat (first | with_reducible (first | assumption | refine Keeps.fst (by assumption) ?_ | apply OKeeps.next | apply State.settlePortIord_keeps | apply State.settlePortLoad_keeps | apply State.settlePortStore_keeps | apply foldl_keeps | apply foldl_keeps1 | apply forN_keeps | apply iter_keeps) | split | (intro _ _ _; try dsimp only) | (intro _ _; try dsimp only) | (intro _; try dsimp only) | fail_if_no_progress (refine Keeps.ofMk rfl rfl rfl rfl rfl rfl rfl rfl ?_))

theorem State.setPort_keeps {s0 : State} (s : State) (p : Nat) (down : Bool) (h0 : Keeps s0 s) : Keeps s0 (State.setPort s p down) := by
  unfold State.setPort
  try dsimp only
  repeat (first | with_reducible (first | assumption | refine Keeps.fst (by assumption) ?_ | apply OKeeps.next | apply State.mapCores_keeps | refine State.modWh_keeps _ _ rfl rfl rfl rfl ?_ | apply State.sediment_keeps | apply State.settlePort_keeps | apply foldl_keeps | apply foldl_keeps1 | apply forN_keeps | apply iter_keeps) | split | (intro _ _ _; try dsimp only) | (intro _ _; try dsimp only) | (intro _; try dsimp only) | fail_if_no_progress (refine Keeps.ofMk rfl rfl rfl rfl rfl rfl rfl rfl ?_))

theorem execUalinkPortDown_keeps {s0 : State} (p : Nat) (s : State) (h0 : Keeps s0 s) : OKeeps s0 (execUalinkPortDown p s) := by
  unfold execUalinkPortDown
  try dsimp only
  repeat (first | with_reducible (first | assumption | refine Keeps.fst (by assumption) ?_ | apply OKeeps.next | apply State.setPort_keeps | apply foldl_keeps | apply foldl_keeps1 | apply forN_keeps | apply iter_keeps) | split | (intro _ _ _; try dsimp only) | (intro _ _; try dsimp only) | (intro _; try dsimp only) | fail_if_no_progress (refine Keeps.ofMk rfl rfl rfl rfl rfl rfl rfl rfl ?_))

theorem execUalinkPortUp_keeps {s0 : State} (p : Nat) (s : State) (h0 : Keeps s0 s) : OKeeps s0 (execUalinkPortUp p s) := by
  unfold execUalinkPortUp
  try dsimp only
  repeat (first | with_reducible (first | assumption | refine Keeps.fst (by assumption) ?_ | apply OKeeps.next | apply State.setPort_keeps | apply foldl_keeps | apply foldl_keeps1 | apply forN_keeps | apply iter_keeps) | split | (intro _ _ _; try dsimp only) | (intro _ _; try dsimp only) | (intro _; try dsimp only) | fail_if_no_progress (refine Keeps.ofMk rfl rfl rfl rfl rfl rfl rfl rfl ?_))

theorem State.setWh_mkeeps {s0 : State} (s : State) (o v : Nat) (h0 : MKeeps s0 s) : MKeeps s0 (s.setWh o v) := by
  unfold State.setWh
  split
  · exact MKeeps.same (t := s) rfl rfl h0
  · split
    · split
      · exact h0
      · split
        · exact State.goForce_mkeeps _ h0
        · exact State.goPlain_mkeeps _ h0
    · exact MKeeps.same (t := s) rfl rfl h0
    · split
      · exact h0.andThen (State.sign_keeps _ (Keeps.refl _))
      · exact h0
    · exact h0

theorem State.setCtl_keeps {s0 : State} (s : State) (c v : Nat) (pf : Bool) (h0 : Keeps s0 s) : Keeps s0 (State.setCtl s c v pf) := by
  unfold State.setCtl
  try dsimp only
  repeat (first | with_reducible (first | assumption | refine Keeps.fst (by assumption) ?_ | apply OKeeps.next | apply State.disable_keeps | apply State.enable_keeps | apply State.holdPre_keeps | apply State.modCtx_keeps | apply State.unpreempt_keeps | apply foldl_keeps | apply foldl_keeps1 | apply forN_keeps | apply iter_keeps) | split | (intro _ _ _; try dsimp only) | (intro _ _; try dsimp only) | (intro _; try dsimp only) | fail_if_no_progress (refine Keeps.ofMk rfl rfl rfl rfl rfl rfl rfl rfl ?_))

theorem State.setDbg_keeps {s0 : State} (s : State) (c v : Nat) (h0 : Keeps s0 s) : Keeps s0 (State.setDbg s c v) := by
  unfold State.setDbg
  try dsimp only
  repeat (first | with_reducible (first | assumption | refine Keeps.fst (by assumption) ?_ | apply OKeeps.next | apply State.detach_keeps | apply State.modCtx_keeps | apply foldl_keeps | apply foldl_keeps1 | apply forN_keeps | apply iter_keeps) | split | (intro _ _ _; try dsimp only) | (intro _ _; try dsimp only) | (intro _; try dsimp only) | fail_if_no_progress (refine Keeps.ofMk rfl rfl rfl rfl rfl rfl rfl rfl ?_))

theorem State.setCtxWord_keeps {s0 : State} (s : State) (c o v : Nat) (pf : Bool) (h0 : Keeps s0 s) : Keeps s0 (State.setCtxWord s c o v pf) := by
  unfold State.setCtxWord
  try dsimp only
  repeat (first | with_reducible (first | assumption | refine Keeps.fst (by assumption) ?_ | apply OKeeps.next | apply State.modCtx_keeps | apply State.retire_keeps | apply State.setCtl_keeps | apply State.setDbg_keeps | apply State.wakeAll_keeps | apply foldl_keeps | apply foldl_keeps1 | apply forN_keeps | apply iter_keeps) | split | (intro _ _ _; try dsimp only) | (intro _ _; try dsimp only) | (intro _; try dsimp only) | fail_if_no_progress (refine Keeps.ofMk rfl rfl rfl rfl rfl rfl rfl rfl ?_))

theorem State.setBar_mkeeps {s0 : State} (s : State) (o v : Nat) (pf : Bool) (h0 : MKeeps s0 s) : MKeeps s0 (s.setBar o v pf) := by
  unfold State.setBar
  dsimp only
  split
  · exact State.setWh_mkeeps _ _ _ h0
  · split
    · split
      · exact h0
      · exact h0.andThen (State.modPlace_keeps _ _ _ (Keeps.refl _))
    · split
      · exact MKeeps.same (t := s) rfl rfl h0
      · split
        · exact MKeeps.same (t := s) rfl rfl h0
        · split
          · exact h0.andThen (State.setCtxWord_keeps _ _ _ _ _ (Keeps.refl _))
          · split
            · exact h0.andThen (State.modQueue_keeps _ _ _ (Keeps.refl _))
            · exact h0

theorem State.writeWord_mkeeps {s0 : State} (s : State) (o v en : Nat) (pf : Bool) (h0 : MKeeps s0 s) : MKeeps s0 (s.writeWord o v en pf) :=
  State.setBar_mkeeps _ _ _ _ h0

theorem execRegisterWrite_mkeeps {s0 : State} (off size v : Nat) (s : State) (h0 : MKeeps s0 s) : OMKeeps s0 (execRegisterWrite off size v s) := by
  refine OMKeeps.next (foldl_mkeeps (fun u x hu => ?_) h0)
  dsimp only
  split
  · exact hu
  · split
    · exact State.writeWord_mkeeps _ _ _ _ _ hu
    · split
      · exact State.writeWord_mkeeps _ _ _ _ _ hu
      · exact hu

theorem State.seeStores_keeps {s0 : State} (s : State) (bk wi : Nat) (h0 : Keeps s0 s) : Keeps s0 (State.seeStores s bk wi) := by
  unfold State.seeStores
  try dsimp only
  repeat (first | with_reducible (first | assumption | refine Keeps.fst (by assumption) ?_ | apply OKeeps.next | apply State.go_keeps | apply State.log_keeps | apply State.modWarp_keeps | apply foldl_keeps | apply foldl_keeps1 | apply forN_keeps | apply iter_keeps) | split | (intro _ _ _; try dsimp only) | (intro _ _; try dsimp only) | (intro _; try dsimp only) | fail_if_no_progress (refine Keeps.ofMk rfl rfl rfl rfl rfl rfl rfl rfl ?_))

theorem State.setReplay_keeps {s0 : State} (s : State) (bk : Nat) (r : Option (Nat × Nat × List LogEntry)) (h0 : Keeps s0 s) : Keeps s0 (State.setReplay s bk r) := by
  unfold State.setReplay
  try dsimp only
  repeat (first | with_reducible (first | assumption | refine Keeps.fst (by assumption) ?_ | apply OKeeps.next | apply State.modRecording_keeps | apply foldl_keeps | apply foldl_keeps1 | apply forN_keeps | apply iter_keeps) | split | (intro _ _ _; try dsimp only) | (intro _ _; try dsimp only) | (intro _; try dsimp only) | fail_if_no_progress (refine Keeps.ofMk rfl rfl rfl rfl rfl rfl rfl rfl ?_))

theorem State.seatLogged_keeps {s0 : State} (s : State) (b : Block) (wi : Nat) (m : Mask) (f : Frag) (h0 : Keeps s0 s) : Keeps s0 (State.seatLogged s b wi m f) := by
  unfold State.seatLogged
  try dsimp only
  repeat (first | with_reducible (first | assumption | refine Keeps.fst (by assumption) ?_ | apply OKeeps.next | apply State.modCore_keeps | apply State.seat_keeps | apply foldl_keeps | apply foldl_keeps1 | apply forN_keeps | apply iter_keeps) | split | (intro _ _ _; try dsimp only) | (intro _ _; try dsimp only) | (intro _; try dsimp only) | fail_if_no_progress (refine Keeps.ofMk rfl rfl rfl rfl rfl rfl rfl rfl ?_))

theorem State.follow_keeps {s0 : State} (s : State) (bk : Nat) (e : LogEntry) (h0 : Keeps s0 s) : Keeps s0 (State.follow s bk e) := by
  unfold State.follow
  try dsimp only
  repeat (first | with_reducible (first | assumption | refine Keeps.fst (by assumption) ?_ | apply OKeeps.next | apply State.exitThreads_keeps | apply State.expire_keeps | apply State.modBlock_keeps | apply State.modWarp_keeps | apply State.seatLogged_keeps | apply State.settle_keeps | apply foldl_keeps | apply foldl_keeps1 | apply forN_keeps | apply iter_keeps) | split | (intro _ _ _; try dsimp only) | (intro _ _; try dsimp only) | (intro _; try dsimp only) | fail_if_no_progress (refine Keeps.ofMk rfl rfl rfl rfl rfl rfl rfl rfl ?_))

theorem State.stopReplay_keeps {s0 : State} (s : State) (b : Block) (r : Recording) (h0 : Keeps s0 s) : Keeps s0 (State.stopReplay s b r) := by
  unfold State.stopReplay
  try dsimp only
  repeat (first | with_reducible (first | assumption | refine Keeps.fst (by assumption) ?_ | apply OKeeps.next | apply State.follow_keeps | apply State.reload_keeps | apply State.setHalt_keeps | apply State.setReplay_keeps | apply foldl_keeps | apply foldl_keeps1 | apply forN_keeps | apply iter_keeps) | split | (intro _ _ _; try dsimp only) | (intro _ _; try dsimp only) | (intro _; try dsimp only) | fail_if_no_progress (refine Keeps.ofMk rfl rfl rfl rfl rfl rfl rfl rfl ?_))

theorem State.checkStop_keeps {s0 : State} (s : State) (bk wi : Nat) (h0 : Keeps s0 s) : Keeps s0 (State.checkStop s bk wi) := by
  unfold State.checkStop
  try dsimp only
  repeat (first | with_reducible (first | assumption | refine Keeps.fst (by assumption) ?_ | apply OKeeps.next | apply State.modRecording_keeps | apply State.stopReplay_keeps | apply foldl_keeps | apply foldl_keeps1 | apply forN_keeps | apply iter_keeps) | split | (intro _ _ _; try dsimp only) | (intro _ _; try dsimp only) | (intro _; try dsimp only) | fail_if_no_progress (refine Keeps.ofMk rfl rfl rfl rfl rfl rfl rfl rfl ?_))

theorem State.startClause_keeps {s0 : State} (s : State) (b : Block) (wi : Nat) (pc : DWord) (widx : Nat) (act : Mask) (h0 : Keeps s0 s) : Keeps s0 (State.startClause s b wi pc widx act) := by
  unfold State.startClause
  try dsimp only
  repeat (first | with_reducible (first | assumption | refine Keeps.fst (by assumption) ?_ | apply OKeeps.next | apply State.consume_keeps | apply State.emit_keeps | apply State.fetchClause_keeps | apply State.log_keeps | apply State.modBlock_keeps | apply State.modWarp_keeps | apply State.settle_keeps | apply State.takeTrap_keeps | apply foldl_keeps | apply foldl_keeps1 | apply forN_keeps | apply iter_keeps) | split | (intro _ _ _; try dsimp only) | (intro _ _; try dsimp only) | (intro _; try dsimp only) | fail_if_no_progress (refine Keeps.ofMk rfl rfl rfl rfl rfl rfl rfl rfl ?_))

theorem State.issueGroup_keeps {s0 : State} (s : State) (b : Block) (wi : Nat) (g : Group) (h0 : Keeps s0 s) : Keeps s0 (State.issueGroup s b wi g) := by
  unfold State.issueGroup
  try dsimp only
  repeat (first | with_reducible (first | assumption | refine Keeps.fst (by assumption) ?_ | apply OKeeps.next | apply State.haltStop_keeps | apply State.seeStores_keeps | apply State.settle_keeps | apply State.startClause_keeps | apply State.takeTrap_keeps | apply foldl_keeps | apply foldl_keeps1 | apply forN_keeps | apply iter_keeps) | split | (intro _ _ _; try dsimp only) | (intro _ _; try dsimp only) | (intro _; try dsimp only) | fail_if_no_progress (refine Keeps.ofMk rfl rfl rfl rfl rfl rfl rfl rfl ?_))

theorem State.enterLogged_keeps {s0 : State} (s : State) (b : Block) (wi : Nat) (m : Mask) (h0 : Keeps s0 s) : Keeps s0 (State.enterLogged s b wi m) := by
  unfold State.enterLogged
  try dsimp only
  repeat (first | with_reducible (first | assumption | refine Keeps.fst (by assumption) ?_ | apply OKeeps.next | apply State.rreadReplay_keeps | apply foldl_keeps | apply foldl_keeps1 | apply forN_keeps | apply iter_keeps) | split | (intro _ _ _; try dsimp only) | (intro _ _; try dsimp only) | (intro _; try dsimp only) | fail_if_no_progress (refine Keeps.ofMk rfl rfl rfl rfl rfl rfl rfl rfl ?_))

theorem State.issueLogged_keeps {s0 : State} (s : State) (b : Block) (wi w n : Nat) (es : List LogEntry) (h0 : Keeps s0 s) : Keeps s0 (State.issueLogged s b wi w n es) := by
  unfold State.issueLogged
  try dsimp only
  repeat (first | with_reducible (first | assumption | refine Keeps.fst (by assumption) ?_ | apply OKeeps.next | apply State.enterLogged_keeps | apply State.follow_keeps | apply State.modMask_keeps | apply State.setHalt_keeps | apply State.setReplay_keeps | apply State.startClause_keeps | apply State.toPresent_keeps | apply foldl_keeps | apply foldl_keeps1 | apply forN_keeps | apply iter_keeps) | split | (intro _ _ _; try dsimp only) | (intro _ _; try dsimp only) | (intro _; try dsimp only) | fail_if_no_progress (refine Keeps.ofMk rfl rfl rfl rfl rfl rfl rfl rfl ?_))

theorem State.boundary_keeps {s0 : State} (s : State) (bk : Nat) (h0 : Keeps s0 s) : Keeps s0 (State.boundary s bk) := by
  unfold State.boundary
  try dsimp only
  repeat (first | with_reducible (first | assumption | refine Keeps.fst (by assumption) ?_ | apply OKeeps.next | apply State.atBoundary_keeps | apply State.modBlock_keeps | apply State.nextInterval_keeps | apply foldl_keeps | apply foldl_keeps1 | apply forN_keeps | apply iter_keeps) | split | (intro _ _ _; try dsimp only) | (intro _ _; try dsimp only) | (intro _; try dsimp only) | fail_if_no_progress (refine Keeps.ofMk rfl rfl rfl rfl rfl rfl rfl rfl ?_))

theorem execClauseIssue_keeps {s0 : State} (b w : Nat) (s : State) (h0 : Keeps s0 s) : OKeeps s0 (execClauseIssue b w s) := by
  unfold execClauseIssue
  try dsimp only
  repeat (first | with_reducible (first | assumption | refine Keeps.fst (by assumption) ?_ | apply OKeeps.next | apply State.boundary_keeps | apply State.endStep_keeps | apply State.issueGroup_keeps | apply State.issueLogged_keeps | apply foldl_keeps | apply foldl_keeps1 | apply forN_keeps | apply iter_keeps) | split | (intro _ _ _; try dsimp only) | (intro _ _; try dsimp only) | (intro _; try dsimp only) | fail_if_no_progress (refine Keeps.ofMk rfl rfl rfl rfl rfl rfl rfl rfl ?_))

theorem State.endClause_keeps {s0 : State} (s : State) (bk wi : Nat) (f : InFlight) (h0 : Keeps s0 s) : Keeps s0 (State.endClause s bk wi f) := by
  unfold State.endClause
  try dsimp only
  repeat (first | with_reducible (first | assumption | refine Keeps.fst (by assumption) ?_ | apply OKeeps.next | apply State.checkStop_keeps | apply State.endStep_keeps | apply State.modWarp_keeps | apply State.swapIn_keeps | apply foldl_keeps | apply foldl_keeps1 | apply forN_keeps | apply iter_keeps) | split | (intro _ _ _; try dsimp only) | (intro _ _; try dsimp only) | (intro _; try dsimp only) | fail_if_no_progress (refine Keeps.ofMk rfl rfl rfl rfl rfl rfl rfl rfl ?_))

theorem State.stale_keeps {s0 : State} (s : State) (b : Block) (wi : Nat) (f : InFlight) (h0 : Keeps s0 s) : Keeps s0 (State.stale s b wi f) := by
  unfold State.stale
  try dsimp only
  repeat (first | with_reducible (first | assumption | refine Keeps.fst (by assumption) ?_ | apply OKeeps.next | apply State.modCore_keeps | apply foldl_keeps | apply foldl_keeps1 | apply forN_keeps | apply iter_keeps) | split | (intro _ _ _; try dsimp only) | (intro _ _; try dsimp only) | (intro _; try dsimp only) | fail_if_no_progress (refine Keeps.ofMk rfl rfl rfl rfl rfl rfl rfl rfl ?_))

theorem State.finishWord_keeps {s0 : State} (s : State) (bk wi : Nat) (f : InFlight) (h0 : Keeps s0 s) : Keeps s0 (State.finishWord s bk wi f) := by
  unfold State.finishWord
  try dsimp only
  repeat (first | with_reducible (first | assumption | refine Keeps.fst (by assumption) ?_ | apply OKeeps.next | apply State.endClause_keeps | apply State.modBlock_keeps | apply State.modCore_keeps | apply State.modFlight_keeps | apply State.modMask_keeps | apply State.modWarp_keeps | apply State.stale_keeps | apply foldl_keeps | apply foldl_keeps1 | apply forN_keeps | apply iter_keeps) | split | (intro _ _ _; try dsimp only) | (intro _ _; try dsimp only) | (intro _; try dsimp only) | fail_if_no_progress (refine Keeps.ofMk rfl rfl rfl rfl rfl rfl rfl rfl ?_))

end Sys2Proof.Machine
end

