-- ==== Sys2Proof/Laws/State.lean ====
section
/-! SUPPORT. What each update of the state, a block, a warp or a lane leaves alone and what it sets: one lemma per field. -/

namespace Sys2Proof.Machine

/-! ### modBlock -/

@[simp] theorem State.modBlock_tick (s : State) (k : Nat) (f : Block → Block) : (s.modBlock k f).tick = s.tick := rfl
@[simp] theorem State.modBlock_inputs (s : State) (k : Nat) (f : Block → Block) : (s.modBlock k f).inputs = s.inputs := rfl
@[simp] theorem State.modBlock_cur (s : State) (k : Nat) (f : Block → Block) : (s.modBlock k f).cur = s.cur := rfl
@[simp] theorem State.modBlock_cycle (s : State) (k : Nat) (f : Block → Block) : (s.modBlock k f).cycle = s.cycle := rfl
@[simp] theorem State.modBlock_wallU (s : State) (k : Nat) (f : Block → Block) : (s.modBlock k f).wallU = s.wallU := rfl
@[simp] theorem State.modBlock_mem (s : State) (k : Nat) (f : Block → Block) : (s.modBlock k f).mem = s.mem := rfl
@[simp] theorem State.modBlock_memPoison (s : State) (k : Nat) (f : Block → Block) : (s.modBlock k f).memPoison = s.memPoison := rfl
@[simp] theorem State.modBlock_l2Poison (s : State) (k : Nat) (f : Block → Block) : (s.modBlock k f).l2Poison = s.l2Poison := rfl
@[simp] theorem State.modBlock_dir (s : State) (k : Nat) (f : Block → Block) : (s.modBlock k f).dir = s.dir := rfl
@[simp] theorem State.modBlock_hlines (s : State) (k : Nat) (f : Block → Block) : (s.modBlock k f).hlines = s.hlines := rfl
@[simp] theorem State.modBlock_tlrc (s : State) (k : Nat) (f : Block → Block) : (s.modBlock k f).tlrc = s.tlrc := rfl
@[simp] theorem State.modBlock_tlrMoves (s : State) (k : Nat) (f : Block → Block) : (s.modBlock k f).tlrMoves = s.tlrMoves := rfl
@[simp] theorem State.modBlock_tlrUndef (s : State) (k : Nat) (f : Block → Block) : (s.modBlock k f).tlrUndef = s.tlrUndef := rfl
@[simp] theorem State.modBlock_frames (s : State) (k : Nat) (f : Block → Block) : (s.modBlock k f).frames = s.frames := rfl
@[simp] theorem State.modBlock_aliased (s : State) (k : Nat) (f : Block → Block) : (s.modBlock k f).aliased = s.aliased := rfl
@[simp] theorem State.modBlock_spoiled (s : State) (k : Nat) (f : Block → Block) : (s.modBlock k f).spoiled = s.spoiled := rfl
@[simp] theorem State.modBlock_lostLines (s : State) (k : Nat) (f : Block → Block) : (s.modBlock k f).lostLines = s.lostLines := rfl
@[simp] theorem State.modBlock_hostRead (s : State) (k : Nat) (f : Block → Block) : (s.modBlock k f).hostRead = s.hostRead := rfl
@[simp] theorem State.modBlock_nextKey (s : State) (k : Nat) (f : Block → Block) : (s.modBlock k f).nextKey = s.nextKey := rfl
@[simp] theorem State.modBlock_wh (s : State) (k : Nat) (f : Block → Block) : (s.modBlock k f).wh = s.wh := rfl
@[simp] theorem State.modBlock_places (s : State) (k : Nat) (f : Block → Block) : (s.modBlock k f).places = s.places := rfl
@[simp] theorem State.modBlock_nvme (s : State) (k : Nat) (f : Block → Block) : (s.modBlock k f).nvme = s.nvme := rfl
@[simp] theorem State.modBlock_peers (s : State) (k : Nat) (f : Block → Block) : (s.modBlock k f).peers = s.peers := rfl
@[simp] theorem State.modBlock_queues (s : State) (k : Nat) (f : Block → Block) : (s.modBlock k f).queues = s.queues := rfl
@[simp] theorem State.modBlock_ctxs (s : State) (k : Nat) (f : Block → Block) : (s.modBlock k f).ctxs = s.ctxs := rfl
@[simp] theorem State.modBlock_grids (s : State) (k : Nat) (f : Block → Block) : (s.modBlock k f).grids = s.grids := rfl
@[simp] theorem State.modBlock_cores (s : State) (k : Nat) (f : Block → Block) : (s.modBlock k f).cores = s.cores := rfl
@[simp] theorem State.modBlock_blocks (s : State) (k : Nat) (f : Block → Block) : (s.modBlock k f).blocks = modWhere (fun b => decide (b.key = k)) f s.blocks := rfl
@[simp] theorem State.modBlock_recordings (s : State) (k : Nat) (f : Block → Block) : (s.modBlock k f).recordings = s.recordings := rfl
@[simp] theorem State.modBlock_robjs (s : State) (k : Nat) (f : Block → Block) : (s.modBlock k f).robjs = s.robjs := rfl
@[simp] theorem State.modBlock_rturn (s : State) (k : Nat) (f : Block → Block) : (s.modBlock k f).rturn = s.rturn := rfl
@[simp] theorem State.modBlock_reseeds (s : State) (k : Nat) (f : Block → Block) : (s.modBlock k f).reseeds = s.reseeds := rfl
@[simp] theorem State.modBlock_livetab (s : State) (k : Nat) (f : Block → Block) : (s.modBlock k f).livetab = s.livetab := rfl

/-! ### modWarp -/

@[simp] theorem State.modWarp_tick (s : State) (k w : Nat) (f : Warp → Warp) : (s.modWarp k w f).tick = s.tick := rfl
@[simp] theorem State.modWarp_inputs (s : State) (k w : Nat) (f : Warp → Warp) : (s.modWarp k w f).inputs = s.inputs := rfl
@[simp] theorem State.modWarp_cur (s : State) (k w : Nat) (f : Warp → Warp) : (s.modWarp k w f).cur = s.cur := rfl
@[simp] theorem State.modWarp_cycle (s : State) (k w : Nat) (f : Warp → Warp) : (s.modWarp k w f).cycle = s.cycle := rfl
@[simp] theorem State.modWarp_wallU (s : State) (k w : Nat) (f : Warp → Warp) : (s.modWarp k w f).wallU = s.wallU := rfl
@[simp] theorem State.modWarp_mem (s : State) (k w : Nat) (f : Warp → Warp) : (s.modWarp k w f).mem = s.mem := rfl
@[simp] theorem State.modWarp_memPoison (s : State) (k w : Nat) (f : Warp → Warp) : (s.modWarp k w f).memPoison = s.memPoison := rfl
@[simp] theorem State.modWarp_l2Poison (s : State) (k w : Nat) (f : Warp → Warp) : (s.modWarp k w f).l2Poison = s.l2Poison := rfl
@[simp] theorem State.modWarp_dir (s : State) (k w : Nat) (f : Warp → Warp) : (s.modWarp k w f).dir = s.dir := rfl
@[simp] theorem State.modWarp_hlines (s : State) (k w : Nat) (f : Warp → Warp) : (s.modWarp k w f).hlines = s.hlines := rfl
@[simp] theorem State.modWarp_tlrc (s : State) (k w : Nat) (f : Warp → Warp) : (s.modWarp k w f).tlrc = s.tlrc := rfl
@[simp] theorem State.modWarp_tlrMoves (s : State) (k w : Nat) (f : Warp → Warp) : (s.modWarp k w f).tlrMoves = s.tlrMoves := rfl
@[simp] theorem State.modWarp_tlrUndef (s : State) (k w : Nat) (f : Warp → Warp) : (s.modWarp k w f).tlrUndef = s.tlrUndef := rfl
@[simp] theorem State.modWarp_frames (s : State) (k w : Nat) (f : Warp → Warp) : (s.modWarp k w f).frames = s.frames := rfl
@[simp] theorem State.modWarp_aliased (s : State) (k w : Nat) (f : Warp → Warp) : (s.modWarp k w f).aliased = s.aliased := rfl
@[simp] theorem State.modWarp_spoiled (s : State) (k w : Nat) (f : Warp → Warp) : (s.modWarp k w f).spoiled = s.spoiled := rfl
@[simp] theorem State.modWarp_lostLines (s : State) (k w : Nat) (f : Warp → Warp) : (s.modWarp k w f).lostLines = s.lostLines := rfl
@[simp] theorem State.modWarp_hostRead (s : State) (k w : Nat) (f : Warp → Warp) : (s.modWarp k w f).hostRead = s.hostRead := rfl
@[simp] theorem State.modWarp_nextKey (s : State) (k w : Nat) (f : Warp → Warp) : (s.modWarp k w f).nextKey = s.nextKey := rfl
@[simp] theorem State.modWarp_wh (s : State) (k w : Nat) (f : Warp → Warp) : (s.modWarp k w f).wh = s.wh := rfl
@[simp] theorem State.modWarp_places (s : State) (k w : Nat) (f : Warp → Warp) : (s.modWarp k w f).places = s.places := rfl
@[simp] theorem State.modWarp_nvme (s : State) (k w : Nat) (f : Warp → Warp) : (s.modWarp k w f).nvme = s.nvme := rfl
@[simp] theorem State.modWarp_peers (s : State) (k w : Nat) (f : Warp → Warp) : (s.modWarp k w f).peers = s.peers := rfl
@[simp] theorem State.modWarp_queues (s : State) (k w : Nat) (f : Warp → Warp) : (s.modWarp k w f).queues = s.queues := rfl
@[simp] theorem State.modWarp_ctxs (s : State) (k w : Nat) (f : Warp → Warp) : (s.modWarp k w f).ctxs = s.ctxs := rfl
@[simp] theorem State.modWarp_grids (s : State) (k w : Nat) (f : Warp → Warp) : (s.modWarp k w f).grids = s.grids := rfl
@[simp] theorem State.modWarp_cores (s : State) (k w : Nat) (f : Warp → Warp) : (s.modWarp k w f).cores = s.cores := rfl
@[simp] theorem State.modWarp_blocks (s : State) (k w : Nat) (f : Warp → Warp) : (s.modWarp k w f).blocks = modWhere (fun b => decide (b.key = k)) (fun b => b.modWarp w f) s.blocks := rfl
@[simp] theorem State.modWarp_recordings (s : State) (k w : Nat) (f : Warp → Warp) : (s.modWarp k w f).recordings = s.recordings := rfl
@[simp] theorem State.modWarp_robjs (s : State) (k w : Nat) (f : Warp → Warp) : (s.modWarp k w f).robjs = s.robjs := rfl
@[simp] theorem State.modWarp_rturn (s : State) (k w : Nat) (f : Warp → Warp) : (s.modWarp k w f).rturn = s.rturn := rfl
@[simp] theorem State.modWarp_reseeds (s : State) (k w : Nat) (f : Warp → Warp) : (s.modWarp k w f).reseeds = s.reseeds := rfl
@[simp] theorem State.modWarp_livetab (s : State) (k w : Nat) (f : Warp → Warp) : (s.modWarp k w f).livetab = s.livetab := rfl

/-! ### modMask -/

@[simp] theorem State.modMask_tick (s : State) (k w : Nat) (m : Mask) (f : Nat → Lane → Lane) : (s.modMask k w m f).tick = s.tick := rfl
@[simp] theorem State.modMask_inputs (s : State) (k w : Nat) (m : Mask) (f : Nat → Lane → Lane) : (s.modMask k w m f).inputs = s.inputs := rfl
@[simp] theorem State.modMask_cur (s : State) (k w : Nat) (m : Mask) (f : Nat → Lane → Lane) : (s.modMask k w m f).cur = s.cur := rfl
@[simp] theorem State.modMask_cycle (s : State) (k w : Nat) (m : Mask) (f : Nat → Lane → Lane) : (s.modMask k w m f).cycle = s.cycle := rfl
@[simp] theorem State.modMask_wallU (s : State) (k w : Nat) (m : Mask) (f : Nat → Lane → Lane) : (s.modMask k w m f).wallU = s.wallU := rfl
@[simp] theorem State.modMask_mem (s : State) (k w : Nat) (m : Mask) (f : Nat → Lane → Lane) : (s.modMask k w m f).mem = s.mem := rfl
@[simp] theorem State.modMask_memPoison (s : State) (k w : Nat) (m : Mask) (f : Nat → Lane → Lane) : (s.modMask k w m f).memPoison = s.memPoison := rfl
@[simp] theorem State.modMask_l2Poison (s : State) (k w : Nat) (m : Mask) (f : Nat → Lane → Lane) : (s.modMask k w m f).l2Poison = s.l2Poison := rfl
@[simp] theorem State.modMask_dir (s : State) (k w : Nat) (m : Mask) (f : Nat → Lane → Lane) : (s.modMask k w m f).dir = s.dir := rfl
@[simp] theorem State.modMask_hlines (s : State) (k w : Nat) (m : Mask) (f : Nat → Lane → Lane) : (s.modMask k w m f).hlines = s.hlines := rfl
@[simp] theorem State.modMask_tlrc (s : State) (k w : Nat) (m : Mask) (f : Nat → Lane → Lane) : (s.modMask k w m f).tlrc = s.tlrc := rfl
@[simp] theorem State.modMask_tlrMoves (s : State) (k w : Nat) (m : Mask) (f : Nat → Lane → Lane) : (s.modMask k w m f).tlrMoves = s.tlrMoves := rfl
@[simp] theorem State.modMask_tlrUndef (s : State) (k w : Nat) (m : Mask) (f : Nat → Lane → Lane) : (s.modMask k w m f).tlrUndef = s.tlrUndef := rfl
@[simp] theorem State.modMask_frames (s : State) (k w : Nat) (m : Mask) (f : Nat → Lane → Lane) : (s.modMask k w m f).frames = s.frames := rfl
@[simp] theorem State.modMask_aliased (s : State) (k w : Nat) (m : Mask) (f : Nat → Lane → Lane) : (s.modMask k w m f).aliased = s.aliased := rfl
@[simp] theorem State.modMask_spoiled (s : State) (k w : Nat) (m : Mask) (f : Nat → Lane → Lane) : (s.modMask k w m f).spoiled = s.spoiled := rfl
@[simp] theorem State.modMask_lostLines (s : State) (k w : Nat) (m : Mask) (f : Nat → Lane → Lane) : (s.modMask k w m f).lostLines = s.lostLines := rfl
@[simp] theorem State.modMask_hostRead (s : State) (k w : Nat) (m : Mask) (f : Nat → Lane → Lane) : (s.modMask k w m f).hostRead = s.hostRead := rfl
@[simp] theorem State.modMask_nextKey (s : State) (k w : Nat) (m : Mask) (f : Nat → Lane → Lane) : (s.modMask k w m f).nextKey = s.nextKey := rfl
@[simp] theorem State.modMask_wh (s : State) (k w : Nat) (m : Mask) (f : Nat → Lane → Lane) : (s.modMask k w m f).wh = s.wh := rfl
@[simp] theorem State.modMask_places (s : State) (k w : Nat) (m : Mask) (f : Nat → Lane → Lane) : (s.modMask k w m f).places = s.places := rfl
@[simp] theorem State.modMask_nvme (s : State) (k w : Nat) (m : Mask) (f : Nat → Lane → Lane) : (s.modMask k w m f).nvme = s.nvme := rfl
@[simp] theorem State.modMask_peers (s : State) (k w : Nat) (m : Mask) (f : Nat → Lane → Lane) : (s.modMask k w m f).peers = s.peers := rfl
@[simp] theorem State.modMask_queues (s : State) (k w : Nat) (m : Mask) (f : Nat → Lane → Lane) : (s.modMask k w m f).queues = s.queues := rfl
@[simp] theorem State.modMask_ctxs (s : State) (k w : Nat) (m : Mask) (f : Nat → Lane → Lane) : (s.modMask k w m f).ctxs = s.ctxs := rfl
@[simp] theorem State.modMask_grids (s : State) (k w : Nat) (m : Mask) (f : Nat → Lane → Lane) : (s.modMask k w m f).grids = s.grids := rfl
@[simp] theorem State.modMask_cores (s : State) (k w : Nat) (m : Mask) (f : Nat → Lane → Lane) : (s.modMask k w m f).cores = s.cores := rfl
@[simp] theorem State.modMask_blocks (s : State) (k w : Nat) (m : Mask) (f : Nat → Lane → Lane) : (s.modMask k w m f).blocks = modWhere (fun b => decide (b.key = k)) (fun b => b.modWarp w fun x => x.modMask m f) s.blocks := rfl
@[simp] theorem State.modMask_recordings (s : State) (k w : Nat) (m : Mask) (f : Nat → Lane → Lane) : (s.modMask k w m f).recordings = s.recordings := rfl
@[simp] theorem State.modMask_robjs (s : State) (k w : Nat) (m : Mask) (f : Nat → Lane → Lane) : (s.modMask k w m f).robjs = s.robjs := rfl
@[simp] theorem State.modMask_rturn (s : State) (k w : Nat) (m : Mask) (f : Nat → Lane → Lane) : (s.modMask k w m f).rturn = s.rturn := rfl
@[simp] theorem State.modMask_reseeds (s : State) (k w : Nat) (m : Mask) (f : Nat → Lane → Lane) : (s.modMask k w m f).reseeds = s.reseeds := rfl
@[simp] theorem State.modMask_livetab (s : State) (k w : Nat) (m : Mask) (f : Nat → Lane → Lane) : (s.modMask k w m f).livetab = s.livetab := rfl

/-! ### modFlight -/

@[simp] theorem State.modFlight_tick (s : State) (k w : Nat) (f : InFlight → InFlight) : (s.modFlight k w f).tick = s.tick := rfl
@[simp] theorem State.modFlight_inputs (s : State) (k w : Nat) (f : InFlight → InFlight) : (s.modFlight k w f).inputs = s.inputs := rfl
@[simp] theorem State.modFlight_cur (s : State) (k w : Nat) (f : InFlight → InFlight) : (s.modFlight k w f).cur = s.cur := rfl
@[simp] theorem State.modFlight_cycle (s : State) (k w : Nat) (f : InFlight → InFlight) : (s.modFlight k w f).cycle = s.cycle := rfl
@[simp] theorem State.modFlight_wallU (s : State) (k w : Nat) (f : InFlight → InFlight) : (s.modFlight k w f).wallU = s.wallU := rfl
@[simp] theorem State.modFlight_mem (s : State) (k w : Nat) (f : InFlight → InFlight) : (s.modFlight k w f).mem = s.mem := rfl
@[simp] theorem State.modFlight_memPoison (s : State) (k w : Nat) (f : InFlight → InFlight) : (s.modFlight k w f).memPoison = s.memPoison := rfl
@[simp] theorem State.modFlight_l2Poison (s : State) (k w : Nat) (f : InFlight → InFlight) : (s.modFlight k w f).l2Poison = s.l2Poison := rfl
@[simp] theorem State.modFlight_dir (s : State) (k w : Nat) (f : InFlight → InFlight) : (s.modFlight k w f).dir = s.dir := rfl
@[simp] theorem State.modFlight_hlines (s : State) (k w : Nat) (f : InFlight → InFlight) : (s.modFlight k w f).hlines = s.hlines := rfl
@[simp] theorem State.modFlight_tlrc (s : State) (k w : Nat) (f : InFlight → InFlight) : (s.modFlight k w f).tlrc = s.tlrc := rfl
@[simp] theorem State.modFlight_tlrMoves (s : State) (k w : Nat) (f : InFlight → InFlight) : (s.modFlight k w f).tlrMoves = s.tlrMoves := rfl
@[simp] theorem State.modFlight_tlrUndef (s : State) (k w : Nat) (f : InFlight → InFlight) : (s.modFlight k w f).tlrUndef = s.tlrUndef := rfl
@[simp] theorem State.modFlight_frames (s : State) (k w : Nat) (f : InFlight → InFlight) : (s.modFlight k w f).frames = s.frames := rfl
@[simp] theorem State.modFlight_aliased (s : State) (k w : Nat) (f : InFlight → InFlight) : (s.modFlight k w f).aliased = s.aliased := rfl
@[simp] theorem State.modFlight_spoiled (s : State) (k w : Nat) (f : InFlight → InFlight) : (s.modFlight k w f).spoiled = s.spoiled := rfl
@[simp] theorem State.modFlight_lostLines (s : State) (k w : Nat) (f : InFlight → InFlight) : (s.modFlight k w f).lostLines = s.lostLines := rfl
@[simp] theorem State.modFlight_hostRead (s : State) (k w : Nat) (f : InFlight → InFlight) : (s.modFlight k w f).hostRead = s.hostRead := rfl
@[simp] theorem State.modFlight_nextKey (s : State) (k w : Nat) (f : InFlight → InFlight) : (s.modFlight k w f).nextKey = s.nextKey := rfl
@[simp] theorem State.modFlight_wh (s : State) (k w : Nat) (f : InFlight → InFlight) : (s.modFlight k w f).wh = s.wh := rfl
@[simp] theorem State.modFlight_places (s : State) (k w : Nat) (f : InFlight → InFlight) : (s.modFlight k w f).places = s.places := rfl
@[simp] theorem State.modFlight_nvme (s : State) (k w : Nat) (f : InFlight → InFlight) : (s.modFlight k w f).nvme = s.nvme := rfl
@[simp] theorem State.modFlight_peers (s : State) (k w : Nat) (f : InFlight → InFlight) : (s.modFlight k w f).peers = s.peers := rfl
@[simp] theorem State.modFlight_queues (s : State) (k w : Nat) (f : InFlight → InFlight) : (s.modFlight k w f).queues = s.queues := rfl
@[simp] theorem State.modFlight_ctxs (s : State) (k w : Nat) (f : InFlight → InFlight) : (s.modFlight k w f).ctxs = s.ctxs := rfl
@[simp] theorem State.modFlight_grids (s : State) (k w : Nat) (f : InFlight → InFlight) : (s.modFlight k w f).grids = s.grids := rfl
@[simp] theorem State.modFlight_cores (s : State) (k w : Nat) (f : InFlight → InFlight) : (s.modFlight k w f).cores = s.cores := rfl
@[simp] theorem State.modFlight_recordings (s : State) (k w : Nat) (f : InFlight → InFlight) : (s.modFlight k w f).recordings = s.recordings := rfl
@[simp] theorem State.modFlight_robjs (s : State) (k w : Nat) (f : InFlight → InFlight) : (s.modFlight k w f).robjs = s.robjs := rfl
@[simp] theorem State.modFlight_rturn (s : State) (k w : Nat) (f : InFlight → InFlight) : (s.modFlight k w f).rturn = s.rturn := rfl
@[simp] theorem State.modFlight_reseeds (s : State) (k w : Nat) (f : InFlight → InFlight) : (s.modFlight k w f).reseeds = s.reseeds := rfl
@[simp] theorem State.modFlight_livetab (s : State) (k w : Nat) (f : InFlight → InFlight) : (s.modFlight k w f).livetab = s.livetab := rfl

/-! ### leave -/

@[simp] theorem State.leave_tick (s : State) (c : Cx) (m : Mask) : (s.leave c m).tick = s.tick := rfl
@[simp] theorem State.leave_inputs (s : State) (c : Cx) (m : Mask) : (s.leave c m).inputs = s.inputs := rfl
@[simp] theorem State.leave_cur (s : State) (c : Cx) (m : Mask) : (s.leave c m).cur = s.cur := rfl
@[simp] theorem State.leave_cycle (s : State) (c : Cx) (m : Mask) : (s.leave c m).cycle = s.cycle := rfl
@[simp] theorem State.leave_wallU (s : State) (c : Cx) (m : Mask) : (s.leave c m).wallU = s.wallU := rfl
@[simp] theorem State.leave_mem (s : State) (c : Cx) (m : Mask) : (s.leave c m).mem = s.mem := rfl
@[simp] theorem State.leave_memPoison (s : State) (c : Cx) (m : Mask) : (s.leave c m).memPoison = s.memPoison := rfl
@[simp] theorem State.leave_l2Poison (s : State) (c : Cx) (m : Mask) : (s.leave c m).l2Poison = s.l2Poison := rfl
@[simp] theorem State.leave_dir (s : State) (c : Cx) (m : Mask) : (s.leave c m).dir = s.dir := rfl
@[simp] theorem State.leave_hlines (s : State) (c : Cx) (m : Mask) : (s.leave c m).hlines = s.hlines := rfl
@[simp] theorem State.leave_tlrc (s : State) (c : Cx) (m : Mask) : (s.leave c m).tlrc = s.tlrc := rfl
@[simp] theorem State.leave_tlrMoves (s : State) (c : Cx) (m : Mask) : (s.leave c m).tlrMoves = s.tlrMoves := rfl
@[simp] theorem State.leave_tlrUndef (s : State) (c : Cx) (m : Mask) : (s.leave c m).tlrUndef = s.tlrUndef := rfl
@[simp] theorem State.leave_frames (s : State) (c : Cx) (m : Mask) : (s.leave c m).frames = s.frames := rfl
@[simp] theorem State.leave_aliased (s : State) (c : Cx) (m : Mask) : (s.leave c m).aliased = s.aliased := rfl
@[simp] theorem State.leave_spoiled (s : State) (c : Cx) (m : Mask) : (s.leave c m).spoiled = s.spoiled := rfl
@[simp] theorem State.leave_lostLines (s : State) (c : Cx) (m : Mask) : (s.leave c m).lostLines = s.lostLines := rfl
@[simp] theorem State.leave_hostRead (s : State) (c : Cx) (m : Mask) : (s.leave c m).hostRead = s.hostRead := rfl
@[simp] theorem State.leave_nextKey (s : State) (c : Cx) (m : Mask) : (s.leave c m).nextKey = s.nextKey := rfl
@[simp] theorem State.leave_wh (s : State) (c : Cx) (m : Mask) : (s.leave c m).wh = s.wh := rfl
@[simp] theorem State.leave_places (s : State) (c : Cx) (m : Mask) : (s.leave c m).places = s.places := rfl
@[simp] theorem State.leave_nvme (s : State) (c : Cx) (m : Mask) : (s.leave c m).nvme = s.nvme := rfl
@[simp] theorem State.leave_peers (s : State) (c : Cx) (m : Mask) : (s.leave c m).peers = s.peers := rfl
@[simp] theorem State.leave_queues (s : State) (c : Cx) (m : Mask) : (s.leave c m).queues = s.queues := rfl
@[simp] theorem State.leave_ctxs (s : State) (c : Cx) (m : Mask) : (s.leave c m).ctxs = s.ctxs := rfl
@[simp] theorem State.leave_grids (s : State) (c : Cx) (m : Mask) : (s.leave c m).grids = s.grids := rfl
@[simp] theorem State.leave_cores (s : State) (c : Cx) (m : Mask) : (s.leave c m).cores = s.cores := rfl
@[simp] theorem State.leave_recordings (s : State) (c : Cx) (m : Mask) : (s.leave c m).recordings = s.recordings := rfl
@[simp] theorem State.leave_robjs (s : State) (c : Cx) (m : Mask) : (s.leave c m).robjs = s.robjs := rfl
@[simp] theorem State.leave_rturn (s : State) (c : Cx) (m : Mask) : (s.leave c m).rturn = s.rturn := rfl
@[simp] theorem State.leave_reseeds (s : State) (c : Cx) (m : Mask) : (s.leave c m).reseeds = s.reseeds := rfl
@[simp] theorem State.leave_livetab (s : State) (c : Cx) (m : Mask) : (s.leave c m).livetab = s.livetab := rfl

/-! ### startWait -/

@[simp] theorem State.startWait_tick (s : State) (c : Cx) (m : Mask) (t : Wait) : (s.startWait c m t).tick = s.tick := rfl
@[simp] theorem State.startWait_inputs (s : State) (c : Cx) (m : Mask) (t : Wait) : (s.startWait c m t).inputs = s.inputs := rfl
@[simp] theorem State.startWait_cur (s : State) (c : Cx) (m : Mask) (t : Wait) : (s.startWait c m t).cur = s.cur := rfl
@[simp] theorem State.startWait_cycle (s : State) (c : Cx) (m : Mask) (t : Wait) : (s.startWait c m t).cycle = s.cycle := rfl
@[simp] theorem State.startWait_wallU (s : State) (c : Cx) (m : Mask) (t : Wait) : (s.startWait c m t).wallU = s.wallU := rfl
@[simp] theorem State.startWait_mem (s : State) (c : Cx) (m : Mask) (t : Wait) : (s.startWait c m t).mem = s.mem := rfl
@[simp] theorem State.startWait_memPoison (s : State) (c : Cx) (m : Mask) (t : Wait) : (s.startWait c m t).memPoison = s.memPoison := rfl
@[simp] theorem State.startWait_l2Poison (s : State) (c : Cx) (m : Mask) (t : Wait) : (s.startWait c m t).l2Poison = s.l2Poison := rfl
@[simp] theorem State.startWait_dir (s : State) (c : Cx) (m : Mask) (t : Wait) : (s.startWait c m t).dir = s.dir := rfl
@[simp] theorem State.startWait_hlines (s : State) (c : Cx) (m : Mask) (t : Wait) : (s.startWait c m t).hlines = s.hlines := rfl
@[simp] theorem State.startWait_tlrc (s : State) (c : Cx) (m : Mask) (t : Wait) : (s.startWait c m t).tlrc = s.tlrc := rfl
@[simp] theorem State.startWait_tlrMoves (s : State) (c : Cx) (m : Mask) (t : Wait) : (s.startWait c m t).tlrMoves = s.tlrMoves := rfl
@[simp] theorem State.startWait_tlrUndef (s : State) (c : Cx) (m : Mask) (t : Wait) : (s.startWait c m t).tlrUndef = s.tlrUndef := rfl
@[simp] theorem State.startWait_frames (s : State) (c : Cx) (m : Mask) (t : Wait) : (s.startWait c m t).frames = s.frames := rfl
@[simp] theorem State.startWait_aliased (s : State) (c : Cx) (m : Mask) (t : Wait) : (s.startWait c m t).aliased = s.aliased := rfl
@[simp] theorem State.startWait_spoiled (s : State) (c : Cx) (m : Mask) (t : Wait) : (s.startWait c m t).spoiled = s.spoiled := rfl
@[simp] theorem State.startWait_lostLines (s : State) (c : Cx) (m : Mask) (t : Wait) : (s.startWait c m t).lostLines = s.lostLines := rfl
@[simp] theorem State.startWait_hostRead (s : State) (c : Cx) (m : Mask) (t : Wait) : (s.startWait c m t).hostRead = s.hostRead := rfl
@[simp] theorem State.startWait_nextKey (s : State) (c : Cx) (m : Mask) (t : Wait) : (s.startWait c m t).nextKey = s.nextKey := rfl
@[simp] theorem State.startWait_wh (s : State) (c : Cx) (m : Mask) (t : Wait) : (s.startWait c m t).wh = s.wh := rfl
@[simp] theorem State.startWait_places (s : State) (c : Cx) (m : Mask) (t : Wait) : (s.startWait c m t).places = s.places := rfl
@[simp] theorem State.startWait_nvme (s : State) (c : Cx) (m : Mask) (t : Wait) : (s.startWait c m t).nvme = s.nvme := rfl
@[simp] theorem State.startWait_peers (s : State) (c : Cx) (m : Mask) (t : Wait) : (s.startWait c m t).peers = s.peers := rfl
@[simp] theorem State.startWait_queues (s : State) (c : Cx) (m : Mask) (t : Wait) : (s.startWait c m t).queues = s.queues := rfl
@[simp] theorem State.startWait_ctxs (s : State) (c : Cx) (m : Mask) (t : Wait) : (s.startWait c m t).ctxs = s.ctxs := rfl
@[simp] theorem State.startWait_grids (s : State) (c : Cx) (m : Mask) (t : Wait) : (s.startWait c m t).grids = s.grids := rfl
@[simp] theorem State.startWait_cores (s : State) (c : Cx) (m : Mask) (t : Wait) : (s.startWait c m t).cores = s.cores := rfl
@[simp] theorem State.startWait_recordings (s : State) (c : Cx) (m : Mask) (t : Wait) : (s.startWait c m t).recordings = s.recordings := rfl
@[simp] theorem State.startWait_robjs (s : State) (c : Cx) (m : Mask) (t : Wait) : (s.startWait c m t).robjs = s.robjs := rfl
@[simp] theorem State.startWait_rturn (s : State) (c : Cx) (m : Mask) (t : Wait) : (s.startWait c m t).rturn = s.rturn := rfl
@[simp] theorem State.startWait_reseeds (s : State) (c : Cx) (m : Mask) (t : Wait) : (s.startWait c m t).reseeds = s.reseeds := rfl
@[simp] theorem State.startWait_livetab (s : State) (c : Cx) (m : Mask) (t : Wait) : (s.startWait c m t).livetab = s.livetab := rfl

/-! ### modCtx -/

@[simp] theorem State.modCtx_tick (s : State) (c : Nat) (f : Ctx → Ctx) : (s.modCtx c f).tick = s.tick := rfl
@[simp] theorem State.modCtx_inputs (s : State) (c : Nat) (f : Ctx → Ctx) : (s.modCtx c f).inputs = s.inputs := rfl
@[simp] theorem State.modCtx_cur (s : State) (c : Nat) (f : Ctx → Ctx) : (s.modCtx c f).cur = s.cur := rfl
@[simp] theorem State.modCtx_cycle (s : State) (c : Nat) (f : Ctx → Ctx) : (s.modCtx c f).cycle = s.cycle := rfl
@[simp] theorem State.modCtx_wallU (s : State) (c : Nat) (f : Ctx → Ctx) : (s.modCtx c f).wallU = s.wallU := rfl
@[simp] theorem State.modCtx_mem (s : State) (c : Nat) (f : Ctx → Ctx) : (s.modCtx c f).mem = s.mem := rfl
@[simp] theorem State.modCtx_memPoison (s : State) (c : Nat) (f : Ctx → Ctx) : (s.modCtx c f).memPoison = s.memPoison := rfl
@[simp] theorem State.modCtx_l2Poison (s : State) (c : Nat) (f : Ctx → Ctx) : (s.modCtx c f).l2Poison = s.l2Poison := rfl
@[simp] theorem State.modCtx_dir (s : State) (c : Nat) (f : Ctx → Ctx) : (s.modCtx c f).dir = s.dir := rfl
@[simp] theorem State.modCtx_hlines (s : State) (c : Nat) (f : Ctx → Ctx) : (s.modCtx c f).hlines = s.hlines := rfl
@[simp] theorem State.modCtx_tlrc (s : State) (c : Nat) (f : Ctx → Ctx) : (s.modCtx c f).tlrc = s.tlrc := rfl
@[simp] theorem State.modCtx_tlrMoves (s : State) (c : Nat) (f : Ctx → Ctx) : (s.modCtx c f).tlrMoves = s.tlrMoves := rfl
@[simp] theorem State.modCtx_tlrUndef (s : State) (c : Nat) (f : Ctx → Ctx) : (s.modCtx c f).tlrUndef = s.tlrUndef := rfl
@[simp] theorem State.modCtx_frames (s : State) (c : Nat) (f : Ctx → Ctx) : (s.modCtx c f).frames = s.frames := rfl
@[simp] theorem State.modCtx_aliased (s : State) (c : Nat) (f : Ctx → Ctx) : (s.modCtx c f).aliased = s.aliased := rfl
@[simp] theorem State.modCtx_spoiled (s : State) (c : Nat) (f : Ctx → Ctx) : (s.modCtx c f).spoiled = s.spoiled := rfl
@[simp] theorem State.modCtx_lostLines (s : State) (c : Nat) (f : Ctx → Ctx) : (s.modCtx c f).lostLines = s.lostLines := rfl
@[simp] theorem State.modCtx_hostRead (s : State) (c : Nat) (f : Ctx → Ctx) : (s.modCtx c f).hostRead = s.hostRead := rfl
@[simp] theorem State.modCtx_nextKey (s : State) (c : Nat) (f : Ctx → Ctx) : (s.modCtx c f).nextKey = s.nextKey := rfl
@[simp] theorem State.modCtx_wh (s : State) (c : Nat) (f : Ctx → Ctx) : (s.modCtx c f).wh = s.wh := rfl
@[simp] theorem State.modCtx_places (s : State) (c : Nat) (f : Ctx → Ctx) : (s.modCtx c f).places = s.places := rfl
@[simp] theorem State.modCtx_nvme (s : State) (c : Nat) (f : Ctx → Ctx) : (s.modCtx c f).nvme = s.nvme := rfl
@[simp] theorem State.modCtx_peers (s : State) (c : Nat) (f : Ctx → Ctx) : (s.modCtx c f).peers = s.peers := rfl
@[simp] theorem State.modCtx_queues (s : State) (c : Nat) (f : Ctx → Ctx) : (s.modCtx c f).queues = s.queues := rfl
@[simp] theorem State.modCtx_ctxs (s : State) (c : Nat) (f : Ctx → Ctx) : (s.modCtx c f).ctxs = tmod s.ctxs c {} f := rfl
@[simp] theorem State.modCtx_grids (s : State) (c : Nat) (f : Ctx → Ctx) : (s.modCtx c f).grids = s.grids := rfl
@[simp] theorem State.modCtx_cores (s : State) (c : Nat) (f : Ctx → Ctx) : (s.modCtx c f).cores = s.cores := rfl
@[simp] theorem State.modCtx_blocks (s : State) (c : Nat) (f : Ctx → Ctx) : (s.modCtx c f).blocks = s.blocks := rfl
@[simp] theorem State.modCtx_recordings (s : State) (c : Nat) (f : Ctx → Ctx) : (s.modCtx c f).recordings = s.recordings := rfl
@[simp] theorem State.modCtx_robjs (s : State) (c : Nat) (f : Ctx → Ctx) : (s.modCtx c f).robjs = s.robjs := rfl
@[simp] theorem State.modCtx_rturn (s : State) (c : Nat) (f : Ctx → Ctx) : (s.modCtx c f).rturn = s.rturn := rfl
@[simp] theorem State.modCtx_reseeds (s : State) (c : Nat) (f : Ctx → Ctx) : (s.modCtx c f).reseeds = s.reseeds := rfl
@[simp] theorem State.modCtx_livetab (s : State) (c : Nat) (f : Ctx → Ctx) : (s.modCtx c f).livetab = s.livetab := rfl

/-! ### modCore -/

@[simp] theorem State.modCore_tick (s : State) (n : Nat) (f : Core → Core) : (s.modCore n f).tick = s.tick := rfl
@[simp] theorem State.modCore_inputs (s : State) (n : Nat) (f : Core → Core) : (s.modCore n f).inputs = s.inputs := rfl
@[simp] theorem State.modCore_cur (s : State) (n : Nat) (f : Core → Core) : (s.modCore n f).cur = s.cur := rfl
@[simp] theorem State.modCore_cycle (s : State) (n : Nat) (f : Core → Core) : (s.modCore n f).cycle = s.cycle := rfl
@[simp] theorem State.modCore_wallU (s : State) (n : Nat) (f : Core → Core) : (s.modCore n f).wallU = s.wallU := rfl
@[simp] theorem State.modCore_mem (s : State) (n : Nat) (f : Core → Core) : (s.modCore n f).mem = s.mem := rfl
@[simp] theorem State.modCore_memPoison (s : State) (n : Nat) (f : Core → Core) : (s.modCore n f).memPoison = s.memPoison := rfl
@[simp] theorem State.modCore_l2Poison (s : State) (n : Nat) (f : Core → Core) : (s.modCore n f).l2Poison = s.l2Poison := rfl
@[simp] theorem State.modCore_dir (s : State) (n : Nat) (f : Core → Core) : (s.modCore n f).dir = s.dir := rfl
@[simp] theorem State.modCore_hlines (s : State) (n : Nat) (f : Core → Core) : (s.modCore n f).hlines = s.hlines := rfl
@[simp] theorem State.modCore_tlrc (s : State) (n : Nat) (f : Core → Core) : (s.modCore n f).tlrc = s.tlrc := rfl
@[simp] theorem State.modCore_tlrMoves (s : State) (n : Nat) (f : Core → Core) : (s.modCore n f).tlrMoves = s.tlrMoves := rfl
@[simp] theorem State.modCore_tlrUndef (s : State) (n : Nat) (f : Core → Core) : (s.modCore n f).tlrUndef = s.tlrUndef := rfl
@[simp] theorem State.modCore_frames (s : State) (n : Nat) (f : Core → Core) : (s.modCore n f).frames = s.frames := rfl
@[simp] theorem State.modCore_aliased (s : State) (n : Nat) (f : Core → Core) : (s.modCore n f).aliased = s.aliased := rfl
@[simp] theorem State.modCore_spoiled (s : State) (n : Nat) (f : Core → Core) : (s.modCore n f).spoiled = s.spoiled := rfl
@[simp] theorem State.modCore_lostLines (s : State) (n : Nat) (f : Core → Core) : (s.modCore n f).lostLines = s.lostLines := rfl
@[simp] theorem State.modCore_hostRead (s : State) (n : Nat) (f : Core → Core) : (s.modCore n f).hostRead = s.hostRead := rfl
@[simp] theorem State.modCore_nextKey (s : State) (n : Nat) (f : Core → Core) : (s.modCore n f).nextKey = s.nextKey := rfl
@[simp] theorem State.modCore_wh (s : State) (n : Nat) (f : Core → Core) : (s.modCore n f).wh = s.wh := rfl
@[simp] theorem State.modCore_places (s : State) (n : Nat) (f : Core → Core) : (s.modCore n f).places = s.places := rfl
@[simp] theorem State.modCore_nvme (s : State) (n : Nat) (f : Core → Core) : (s.modCore n f).nvme = s.nvme := rfl
@[simp] theorem State.modCore_peers (s : State) (n : Nat) (f : Core → Core) : (s.modCore n f).peers = s.peers := rfl
@[simp] theorem State.modCore_queues (s : State) (n : Nat) (f : Core → Core) : (s.modCore n f).queues = s.queues := rfl
@[simp] theorem State.modCore_ctxs (s : State) (n : Nat) (f : Core → Core) : (s.modCore n f).ctxs = s.ctxs := rfl
@[simp] theorem State.modCore_grids (s : State) (n : Nat) (f : Core → Core) : (s.modCore n f).grids = s.grids := rfl
@[simp] theorem State.modCore_cores (s : State) (n : Nat) (f : Core → Core) : (s.modCore n f).cores = tmod s.cores n {} f := rfl
@[simp] theorem State.modCore_blocks (s : State) (n : Nat) (f : Core → Core) : (s.modCore n f).blocks = s.blocks := rfl
@[simp] theorem State.modCore_recordings (s : State) (n : Nat) (f : Core → Core) : (s.modCore n f).recordings = s.recordings := rfl
@[simp] theorem State.modCore_robjs (s : State) (n : Nat) (f : Core → Core) : (s.modCore n f).robjs = s.robjs := rfl
@[simp] theorem State.modCore_rturn (s : State) (n : Nat) (f : Core → Core) : (s.modCore n f).rturn = s.rturn := rfl
@[simp] theorem State.modCore_reseeds (s : State) (n : Nat) (f : Core → Core) : (s.modCore n f).reseeds = s.reseeds := rfl
@[simp] theorem State.modCore_livetab (s : State) (n : Nat) (f : Core → Core) : (s.modCore n f).livetab = s.livetab := rfl

/-! ### modQueue -/

@[simp] theorem State.modQueue_tick (s : State) (q : Nat) (f : WQueue → WQueue) : (s.modQueue q f).tick = s.tick := rfl
@[simp] theorem State.modQueue_inputs (s : State) (q : Nat) (f : WQueue → WQueue) : (s.modQueue q f).inputs = s.inputs := rfl
@[simp] theorem State.modQueue_cur (s : State) (q : Nat) (f : WQueue → WQueue) : (s.modQueue q f).cur = s.cur := rfl
@[simp] theorem State.modQueue_cycle (s : State) (q : Nat) (f : WQueue → WQueue) : (s.modQueue q f).cycle = s.cycle := rfl
@[simp] theorem State.modQueue_wallU (s : State) (q : Nat) (f : WQueue → WQueue) : (s.modQueue q f).wallU = s.wallU := rfl
@[simp] theorem State.modQueue_mem (s : State) (q : Nat) (f : WQueue → WQueue) : (s.modQueue q f).mem = s.mem := rfl
@[simp] theorem State.modQueue_memPoison (s : State) (q : Nat) (f : WQueue → WQueue) : (s.modQueue q f).memPoison = s.memPoison := rfl
@[simp] theorem State.modQueue_l2Poison (s : State) (q : Nat) (f : WQueue → WQueue) : (s.modQueue q f).l2Poison = s.l2Poison := rfl
@[simp] theorem State.modQueue_dir (s : State) (q : Nat) (f : WQueue → WQueue) : (s.modQueue q f).dir = s.dir := rfl
@[simp] theorem State.modQueue_hlines (s : State) (q : Nat) (f : WQueue → WQueue) : (s.modQueue q f).hlines = s.hlines := rfl
@[simp] theorem State.modQueue_tlrc (s : State) (q : Nat) (f : WQueue → WQueue) : (s.modQueue q f).tlrc = s.tlrc := rfl
@[simp] theorem State.modQueue_tlrMoves (s : State) (q : Nat) (f : WQueue → WQueue) : (s.modQueue q f).tlrMoves = s.tlrMoves := rfl
@[simp] theorem State.modQueue_tlrUndef (s : State) (q : Nat) (f : WQueue → WQueue) : (s.modQueue q f).tlrUndef = s.tlrUndef := rfl
@[simp] theorem State.modQueue_frames (s : State) (q : Nat) (f : WQueue → WQueue) : (s.modQueue q f).frames = s.frames := rfl
@[simp] theorem State.modQueue_aliased (s : State) (q : Nat) (f : WQueue → WQueue) : (s.modQueue q f).aliased = s.aliased := rfl
@[simp] theorem State.modQueue_spoiled (s : State) (q : Nat) (f : WQueue → WQueue) : (s.modQueue q f).spoiled = s.spoiled := rfl
@[simp] theorem State.modQueue_lostLines (s : State) (q : Nat) (f : WQueue → WQueue) : (s.modQueue q f).lostLines = s.lostLines := rfl
@[simp] theorem State.modQueue_hostRead (s : State) (q : Nat) (f : WQueue → WQueue) : (s.modQueue q f).hostRead = s.hostRead := rfl
@[simp] theorem State.modQueue_nextKey (s : State) (q : Nat) (f : WQueue → WQueue) : (s.modQueue q f).nextKey = s.nextKey := rfl
@[simp] theorem State.modQueue_wh (s : State) (q : Nat) (f : WQueue → WQueue) : (s.modQueue q f).wh = s.wh := rfl
@[simp] theorem State.modQueue_places (s : State) (q : Nat) (f : WQueue → WQueue) : (s.modQueue q f).places = s.places := rfl
@[simp] theorem State.modQueue_nvme (s : State) (q : Nat) (f : WQueue → WQueue) : (s.modQueue q f).nvme = s.nvme := rfl
@[simp] theorem State.modQueue_peers (s : State) (q : Nat) (f : WQueue → WQueue) : (s.modQueue q f).peers = s.peers := rfl
@[simp] theorem State.modQueue_queues (s : State) (q : Nat) (f : WQueue → WQueue) : (s.modQueue q f).queues = tmod s.queues q {} f := rfl
@[simp] theorem State.modQueue_ctxs (s : State) (q : Nat) (f : WQueue → WQueue) : (s.modQueue q f).ctxs = s.ctxs := rfl
@[simp] theorem State.modQueue_grids (s : State) (q : Nat) (f : WQueue → WQueue) : (s.modQueue q f).grids = s.grids := rfl
@[simp] theorem State.modQueue_cores (s : State) (q : Nat) (f : WQueue → WQueue) : (s.modQueue q f).cores = s.cores := rfl
@[simp] theorem State.modQueue_blocks (s : State) (q : Nat) (f : WQueue → WQueue) : (s.modQueue q f).blocks = s.blocks := rfl
@[simp] theorem State.modQueue_recordings (s : State) (q : Nat) (f : WQueue → WQueue) : (s.modQueue q f).recordings = s.recordings := rfl
@[simp] theorem State.modQueue_robjs (s : State) (q : Nat) (f : WQueue → WQueue) : (s.modQueue q f).robjs = s.robjs := rfl
@[simp] theorem State.modQueue_rturn (s : State) (q : Nat) (f : WQueue → WQueue) : (s.modQueue q f).rturn = s.rturn := rfl
@[simp] theorem State.modQueue_reseeds (s : State) (q : Nat) (f : WQueue → WQueue) : (s.modQueue q f).reseeds = s.reseeds := rfl
@[simp] theorem State.modQueue_livetab (s : State) (q : Nat) (f : WQueue → WQueue) : (s.modQueue q f).livetab = s.livetab := rfl

/-! ### modWh -/

@[simp] theorem State.modWh_tick (s : State) (f : Wellhead → Wellhead) : (s.modWh f).tick = s.tick := rfl
@[simp] theorem State.modWh_inputs (s : State) (f : Wellhead → Wellhead) : (s.modWh f).inputs = s.inputs := rfl
@[simp] theorem State.modWh_cur (s : State) (f : Wellhead → Wellhead) : (s.modWh f).cur = s.cur := rfl
@[simp] theorem State.modWh_cycle (s : State) (f : Wellhead → Wellhead) : (s.modWh f).cycle = s.cycle := rfl
@[simp] theorem State.modWh_wallU (s : State) (f : Wellhead → Wellhead) : (s.modWh f).wallU = s.wallU := rfl
@[simp] theorem State.modWh_mem (s : State) (f : Wellhead → Wellhead) : (s.modWh f).mem = s.mem := rfl
@[simp] theorem State.modWh_memPoison (s : State) (f : Wellhead → Wellhead) : (s.modWh f).memPoison = s.memPoison := rfl
@[simp] theorem State.modWh_l2Poison (s : State) (f : Wellhead → Wellhead) : (s.modWh f).l2Poison = s.l2Poison := rfl
@[simp] theorem State.modWh_dir (s : State) (f : Wellhead → Wellhead) : (s.modWh f).dir = s.dir := rfl
@[simp] theorem State.modWh_hlines (s : State) (f : Wellhead → Wellhead) : (s.modWh f).hlines = s.hlines := rfl
@[simp] theorem State.modWh_tlrc (s : State) (f : Wellhead → Wellhead) : (s.modWh f).tlrc = s.tlrc := rfl
@[simp] theorem State.modWh_tlrMoves (s : State) (f : Wellhead → Wellhead) : (s.modWh f).tlrMoves = s.tlrMoves := rfl
@[simp] theorem State.modWh_tlrUndef (s : State) (f : Wellhead → Wellhead) : (s.modWh f).tlrUndef = s.tlrUndef := rfl
@[simp] theorem State.modWh_frames (s : State) (f : Wellhead → Wellhead) : (s.modWh f).frames = s.frames := rfl
@[simp] theorem State.modWh_aliased (s : State) (f : Wellhead → Wellhead) : (s.modWh f).aliased = s.aliased := rfl
@[simp] theorem State.modWh_spoiled (s : State) (f : Wellhead → Wellhead) : (s.modWh f).spoiled = s.spoiled := rfl
@[simp] theorem State.modWh_lostLines (s : State) (f : Wellhead → Wellhead) : (s.modWh f).lostLines = s.lostLines := rfl
@[simp] theorem State.modWh_hostRead (s : State) (f : Wellhead → Wellhead) : (s.modWh f).hostRead = s.hostRead := rfl
@[simp] theorem State.modWh_nextKey (s : State) (f : Wellhead → Wellhead) : (s.modWh f).nextKey = s.nextKey := rfl
@[simp] theorem State.modWh_wh (s : State) (f : Wellhead → Wellhead) : (s.modWh f).wh = f s.wh := rfl
@[simp] theorem State.modWh_places (s : State) (f : Wellhead → Wellhead) : (s.modWh f).places = s.places := rfl
@[simp] theorem State.modWh_nvme (s : State) (f : Wellhead → Wellhead) : (s.modWh f).nvme = s.nvme := rfl
@[simp] theorem State.modWh_peers (s : State) (f : Wellhead → Wellhead) : (s.modWh f).peers = s.peers := rfl
@[simp] theorem State.modWh_queues (s : State) (f : Wellhead → Wellhead) : (s.modWh f).queues = s.queues := rfl
@[simp] theorem State.modWh_ctxs (s : State) (f : Wellhead → Wellhead) : (s.modWh f).ctxs = s.ctxs := rfl
@[simp] theorem State.modWh_grids (s : State) (f : Wellhead → Wellhead) : (s.modWh f).grids = s.grids := rfl
@[simp] theorem State.modWh_cores (s : State) (f : Wellhead → Wellhead) : (s.modWh f).cores = s.cores := rfl
@[simp] theorem State.modWh_blocks (s : State) (f : Wellhead → Wellhead) : (s.modWh f).blocks = s.blocks := rfl
@[simp] theorem State.modWh_recordings (s : State) (f : Wellhead → Wellhead) : (s.modWh f).recordings = s.recordings := rfl
@[simp] theorem State.modWh_robjs (s : State) (f : Wellhead → Wellhead) : (s.modWh f).robjs = s.robjs := rfl
@[simp] theorem State.modWh_rturn (s : State) (f : Wellhead → Wellhead) : (s.modWh f).rturn = s.rturn := rfl
@[simp] theorem State.modWh_reseeds (s : State) (f : Wellhead → Wellhead) : (s.modWh f).reseeds = s.reseeds := rfl
@[simp] theorem State.modWh_livetab (s : State) (f : Wellhead → Wellhead) : (s.modWh f).livetab = s.livetab := rfl

/-! ### bump -/

@[simp] theorem State.bump_tick (s : State)  : (s.bump ).tick = s.tick := rfl
@[simp] theorem State.bump_inputs (s : State)  : (s.bump ).inputs = s.inputs := rfl
@[simp] theorem State.bump_cur (s : State)  : (s.bump ).cur = s.cur := rfl
@[simp] theorem State.bump_cycle (s : State)  : (s.bump ).cycle = s.cycle := rfl
@[simp] theorem State.bump_wallU (s : State)  : (s.bump ).wallU = s.wallU := rfl
@[simp] theorem State.bump_mem (s : State)  : (s.bump ).mem = s.mem := rfl
@[simp] theorem State.bump_memPoison (s : State)  : (s.bump ).memPoison = s.memPoison := rfl
@[simp] theorem State.bump_l2Poison (s : State)  : (s.bump ).l2Poison = s.l2Poison := rfl
@[simp] theorem State.bump_dir (s : State)  : (s.bump ).dir = s.dir := rfl
@[simp] theorem State.bump_hlines (s : State)  : (s.bump ).hlines = s.hlines := rfl
@[simp] theorem State.bump_tlrc (s : State)  : (s.bump ).tlrc = s.tlrc := rfl
@[simp] theorem State.bump_tlrMoves (s : State)  : (s.bump ).tlrMoves = s.tlrMoves := rfl
@[simp] theorem State.bump_tlrUndef (s : State)  : (s.bump ).tlrUndef = s.tlrUndef := rfl
@[simp] theorem State.bump_frames (s : State)  : (s.bump ).frames = s.frames := rfl
@[simp] theorem State.bump_aliased (s : State)  : (s.bump ).aliased = s.aliased := rfl
@[simp] theorem State.bump_spoiled (s : State)  : (s.bump ).spoiled = s.spoiled := rfl
@[simp] theorem State.bump_lostLines (s : State)  : (s.bump ).lostLines = s.lostLines := rfl
@[simp] theorem State.bump_hostRead (s : State)  : (s.bump ).hostRead = s.hostRead := rfl
@[simp] theorem State.bump_nextKey (s : State)  : (s.bump ).nextKey = s.nextKey + 1 := rfl
@[simp] theorem State.bump_wh (s : State)  : (s.bump ).wh = s.wh := rfl
@[simp] theorem State.bump_places (s : State)  : (s.bump ).places = s.places := rfl
@[simp] theorem State.bump_nvme (s : State)  : (s.bump ).nvme = s.nvme := rfl
@[simp] theorem State.bump_peers (s : State)  : (s.bump ).peers = s.peers := rfl
@[simp] theorem State.bump_queues (s : State)  : (s.bump ).queues = s.queues := rfl
@[simp] theorem State.bump_ctxs (s : State)  : (s.bump ).ctxs = s.ctxs := rfl
@[simp] theorem State.bump_grids (s : State)  : (s.bump ).grids = s.grids := rfl
@[simp] theorem State.bump_cores (s : State)  : (s.bump ).cores = s.cores := rfl
@[simp] theorem State.bump_blocks (s : State)  : (s.bump ).blocks = s.blocks := rfl
@[simp] theorem State.bump_recordings (s : State)  : (s.bump ).recordings = s.recordings := rfl
@[simp] theorem State.bump_robjs (s : State)  : (s.bump ).robjs = s.robjs := rfl
@[simp] theorem State.bump_rturn (s : State)  : (s.bump ).rturn = s.rturn := rfl
@[simp] theorem State.bump_reseeds (s : State)  : (s.bump ).reseeds = s.reseeds := rfl
@[simp] theorem State.bump_livetab (s : State)  : (s.bump ).livetab = s.livetab := rfl

/-! ### modWarp -/

@[simp] theorem Block.modWarp_key (b : Block) (w : Nat) (f : Warp → Warp) : (b.modWarp w f).key = b.key := rfl
@[simp] theorem Block.modWarp_ctx (b : Block) (w : Nat) (f : Warp → Warp) : (b.modWarp w f).ctx = b.ctx := rfl
@[simp] theorem Block.modWarp_grid (b : Block) (w : Nat) (f : Warp → Warp) : (b.modWarp w f).grid = b.grid := rfl
@[simp] theorem Block.modWarp_blockId (b : Block) (w : Nat) (f : Warp → Warp) : (b.modWarp w f).blockId = b.blockId := rfl
@[simp] theorem Block.modWarp_cluster (b : Block) (w : Nat) (f : Warp → Warp) : (b.modWarp w f).cluster = b.cluster := rfl
@[simp] theorem Block.modWarp_crank (b : Block) (w : Nat) (f : Warp → Warp) : (b.modWarp w f).crank = b.crank := rfl
@[simp] theorem Block.modWarp_nthr (b : Block) (w : Nat) (f : Warp → Warp) : (b.modWarp w f).nthr = b.nthr := rfl
@[simp] theorem Block.modWarp_mv (b : Block) (w : Nat) (f : Warp → Warp) : (b.modWarp w f).mv = b.mv := rfl
@[simp] theorem Block.modWarp_core (b : Block) (w : Nat) (f : Warp → Warp) : (b.modWarp w f).core = b.core := rfl
@[simp] theorem Block.modWarp_lslot (b : Block) (w : Nat) (f : Warp → Warp) : (b.modWarp w f).lslot = b.lslot := rfl
@[simp] theorem Block.modWarp_bslot (b : Block) (w : Nat) (f : Warp → Warp) : (b.modWarp w f).bslot = b.bslot := rfl
@[simp] theorem Block.modWarp_spBase (b : Block) (w : Nat) (f : Warp → Warp) : (b.modWarp w f).spBase = b.spBase := rfl
@[simp] theorem Block.modWarp_spSize (b : Block) (w : Nat) (f : Warp → Warp) : (b.modWarp w f).spSize = b.spSize := rfl
@[simp] theorem Block.modWarp_tiles (b : Block) (w : Nat) (f : Warp → Warp) : (b.modWarp w f).tiles = b.tiles := rfl
@[simp] theorem Block.modWarp_place (b : Block) (w : Nat) (f : Warp → Warp) : (b.modWarp w f).place = b.place := rfl
@[simp] theorem Block.modWarp_codeBase (b : Block) (w : Nat) (f : Warp → Warp) : (b.modWarp w f).codeBase = b.codeBase := rfl
@[simp] theorem Block.modWarp_spad (b : Block) (w : Nat) (f : Warp → Warp) : (b.modWarp w f).spad = b.spad := rfl
@[simp] theorem Block.modWarp_spadPois (b : Block) (w : Nat) (f : Warp → Warp) : (b.modWarp w f).spadPois = b.spadPois := rfl
@[simp] theorem Block.modWarp_acc (b : Block) (w : Nat) (f : Warp → Warp) : (b.modWarp w f).acc = b.acc := rfl
@[simp] theorem Block.modWarp_accPois (b : Block) (w : Nat) (f : Warp → Warp) : (b.modWarp w f).accPois = b.accPois := rfl
@[simp] theorem Block.modWarp_bars (b : Block) (w : Nat) (f : Warp → Warp) : (b.modWarp w f).bars = b.bars := rfl
@[simp] theorem Block.modWarp_cbars (b : Block) (w : Nat) (f : Warp → Warp) : (b.modWarp w f).cbars = b.cbars := rfl
@[simp] theorem Block.modWarp_ecs (b : Block) (w : Nat) (f : Warp → Warp) : (b.modWarp w f).ecs = b.ecs := rfl
@[simp] theorem Block.modWarp_launchq (b : Block) (w : Nat) (f : Warp → Warp) : (b.modWarp w f).launchq = b.launchq := rfl
@[simp] theorem Block.modWarp_clk (b : Block) (w : Nat) (f : Warp → Warp) : (b.modWarp w f).clk = b.clk := rfl
@[simp] theorem Block.modWarp_moves (b : Block) (w : Nat) (f : Warp → Warp) : (b.modWarp w f).moves = b.moves := rfl
@[simp] theorem Block.modWarp_hint (b : Block) (w : Nat) (f : Warp → Warp) : (b.modWarp w f).hint = b.hint := rfl
@[simp] theorem Block.modWarp_share (b : Block) (w : Nat) (f : Warp → Warp) : (b.modWarp w f).share = b.share := rfl
@[simp] theorem Block.modWarp_handler (b : Block) (w : Nat) (f : Warp → Warp) : (b.modWarp w f).handler = b.handler := rfl
@[simp] theorem Block.modWarp_replay (b : Block) (w : Nat) (f : Warp → Warp) : (b.modWarp w f).replay = b.replay := rfl
@[simp] theorem Block.modWarp_race (b : Block) (w : Nat) (f : Warp → Warp) : (b.modWarp w f).race = b.race := rfl
@[simp] theorem Block.modWarp_epoch (b : Block) (w : Nat) (f : Warp → Warp) : (b.modWarp w f).epoch = b.epoch := rfl
@[simp] theorem Block.modWarp_boosts (b : Block) (w : Nat) (f : Warp → Warp) : (b.modWarp w f).boosts = b.boosts := rfl
@[simp] theorem Block.modWarp_rings (b : Block) (w : Nat) (f : Warp → Warp) : (b.modWarp w f).rings = b.rings := rfl
@[simp] theorem Block.modWarp_woke (b : Block) (w : Nat) (f : Warp → Warp) : (b.modWarp w f).woke = b.woke := rfl
@[simp] theorem Block.modWarp_dbg (b : Block) (w : Nat) (f : Warp → Warp) : (b.modWarp w f).dbg = b.dbg := rfl
@[simp] theorem Block.modWarp_recShare (b : Block) (w : Nat) (f : Warp → Warp) : (b.modWarp w f).recShare = b.recShare := rfl
@[simp] theorem Block.modWarp_recCount (b : Block) (w : Nat) (f : Warp → Warp) : (b.modWarp w f).recCount = b.recCount := rfl
@[simp] theorem Block.modWarp_spadForeign (b : Block) (w : Nat) (f : Warp → Warp) : (b.modWarp w f).spadForeign = b.spadForeign := rfl
@[simp] theorem Block.modWarp_wdogDone (b : Block) (w : Nat) (f : Warp → Warp) : (b.modWarp w f).wdogDone = b.wdogDone := rfl
@[simp] theorem Block.modWarp_frags (b : Block) (w : Nat) (f : Warp → Warp) : (b.modWarp w f).frags = b.frags := rfl
@[simp] theorem Block.modWarp_latches (b : Block) (w : Nat) (f : Warp → Warp) : (b.modWarp w f).latches = b.latches := rfl
@[simp] theorem Block.modWarp_image (b : Block) (w : Nat) (f : Warp → Warp) : (b.modWarp w f).image = b.image := rfl
@[simp] theorem Block.modWarp_imgBytes (b : Block) (w : Nat) (f : Warp → Warp) : (b.modWarp w f).imgBytes = b.imgBytes := rfl
@[simp] theorem Block.modWarp_due (b : Block) (w : Nat) (f : Warp → Warp) : (b.modWarp w f).due = b.due := rfl
@[simp] theorem Block.modWarp_stowt (b : Block) (w : Nat) (f : Warp → Warp) : (b.modWarp w f).stowt = b.stowt := rfl
@[simp] theorem Block.modWarp_sbsw (b : Block) (w : Nat) (f : Warp → Warp) : (b.modWarp w f).sbsw = b.sbsw := rfl
@[simp] theorem Block.modWarp_pstarv (b : Block) (w : Nat) (f : Warp → Warp) : (b.modWarp w f).pstarv = b.pstarv := rfl
@[simp] theorem Block.modWarp_warps (b : Block) (w : Nat) (f : Warp → Warp) : (b.modWarp w f).warps = modNth w f b.warps := rfl

/-! ### modEng -/

@[simp] theorem Block.modEng_key (b : Block) (k : Nat) (f : Eng → Eng) : (b.modEng k f).key = b.key := rfl
@[simp] theorem Block.modEng_ctx (b : Block) (k : Nat) (f : Eng → Eng) : (b.modEng k f).ctx = b.ctx := rfl
@[simp] theorem Block.modEng_grid (b : Block) (k : Nat) (f : Eng → Eng) : (b.modEng k f).grid = b.grid := rfl
@[simp] theorem Block.modEng_blockId (b : Block) (k : Nat) (f : Eng → Eng) : (b.modEng k f).blockId = b.blockId := rfl
@[simp] theorem Block.modEng_cluster (b : Block) (k : Nat) (f : Eng → Eng) : (b.modEng k f).cluster = b.cluster := rfl
@[simp] theorem Block.modEng_crank (b : Block) (k : Nat) (f : Eng → Eng) : (b.modEng k f).crank = b.crank := rfl
@[simp] theorem Block.modEng_nthr (b : Block) (k : Nat) (f : Eng → Eng) : (b.modEng k f).nthr = b.nthr := rfl
@[simp] theorem Block.modEng_mv (b : Block) (k : Nat) (f : Eng → Eng) : (b.modEng k f).mv = b.mv := rfl
@[simp] theorem Block.modEng_core (b : Block) (k : Nat) (f : Eng → Eng) : (b.modEng k f).core = b.core := rfl
@[simp] theorem Block.modEng_lslot (b : Block) (k : Nat) (f : Eng → Eng) : (b.modEng k f).lslot = b.lslot := rfl
@[simp] theorem Block.modEng_bslot (b : Block) (k : Nat) (f : Eng → Eng) : (b.modEng k f).bslot = b.bslot := rfl
@[simp] theorem Block.modEng_spBase (b : Block) (k : Nat) (f : Eng → Eng) : (b.modEng k f).spBase = b.spBase := rfl
@[simp] theorem Block.modEng_spSize (b : Block) (k : Nat) (f : Eng → Eng) : (b.modEng k f).spSize = b.spSize := rfl
@[simp] theorem Block.modEng_tiles (b : Block) (k : Nat) (f : Eng → Eng) : (b.modEng k f).tiles = b.tiles := rfl
@[simp] theorem Block.modEng_place (b : Block) (k : Nat) (f : Eng → Eng) : (b.modEng k f).place = b.place := rfl
@[simp] theorem Block.modEng_codeBase (b : Block) (k : Nat) (f : Eng → Eng) : (b.modEng k f).codeBase = b.codeBase := rfl
@[simp] theorem Block.modEng_spad (b : Block) (k : Nat) (f : Eng → Eng) : (b.modEng k f).spad = b.spad := rfl
@[simp] theorem Block.modEng_spadPois (b : Block) (k : Nat) (f : Eng → Eng) : (b.modEng k f).spadPois = b.spadPois := rfl
@[simp] theorem Block.modEng_acc (b : Block) (k : Nat) (f : Eng → Eng) : (b.modEng k f).acc = b.acc := rfl
@[simp] theorem Block.modEng_accPois (b : Block) (k : Nat) (f : Eng → Eng) : (b.modEng k f).accPois = b.accPois := rfl
@[simp] theorem Block.modEng_bars (b : Block) (k : Nat) (f : Eng → Eng) : (b.modEng k f).bars = b.bars := rfl
@[simp] theorem Block.modEng_cbars (b : Block) (k : Nat) (f : Eng → Eng) : (b.modEng k f).cbars = b.cbars := rfl
@[simp] theorem Block.modEng_ecs (b : Block) (k : Nat) (f : Eng → Eng) : (b.modEng k f).ecs = modNth k f b.ecs := rfl
@[simp] theorem Block.modEng_launchq (b : Block) (k : Nat) (f : Eng → Eng) : (b.modEng k f).launchq = b.launchq := rfl
@[simp] theorem Block.modEng_clk (b : Block) (k : Nat) (f : Eng → Eng) : (b.modEng k f).clk = b.clk := rfl
@[simp] theorem Block.modEng_moves (b : Block) (k : Nat) (f : Eng → Eng) : (b.modEng k f).moves = b.moves := rfl
@[simp] theorem Block.modEng_hint (b : Block) (k : Nat) (f : Eng → Eng) : (b.modEng k f).hint = b.hint := rfl
@[simp] theorem Block.modEng_share (b : Block) (k : Nat) (f : Eng → Eng) : (b.modEng k f).share = b.share := rfl
@[simp] theorem Block.modEng_handler (b : Block) (k : Nat) (f : Eng → Eng) : (b.modEng k f).handler = b.handler := rfl
@[simp] theorem Block.modEng_replay (b : Block) (k : Nat) (f : Eng → Eng) : (b.modEng k f).replay = b.replay := rfl
@[simp] theorem Block.modEng_race (b : Block) (k : Nat) (f : Eng → Eng) : (b.modEng k f).race = b.race := rfl
@[simp] theorem Block.modEng_epoch (b : Block) (k : Nat) (f : Eng → Eng) : (b.modEng k f).epoch = b.epoch := rfl
@[simp] theorem Block.modEng_boosts (b : Block) (k : Nat) (f : Eng → Eng) : (b.modEng k f).boosts = b.boosts := rfl
@[simp] theorem Block.modEng_rings (b : Block) (k : Nat) (f : Eng → Eng) : (b.modEng k f).rings = b.rings := rfl
@[simp] theorem Block.modEng_woke (b : Block) (k : Nat) (f : Eng → Eng) : (b.modEng k f).woke = b.woke := rfl
@[simp] theorem Block.modEng_dbg (b : Block) (k : Nat) (f : Eng → Eng) : (b.modEng k f).dbg = b.dbg := rfl
@[simp] theorem Block.modEng_recShare (b : Block) (k : Nat) (f : Eng → Eng) : (b.modEng k f).recShare = b.recShare := rfl
@[simp] theorem Block.modEng_recCount (b : Block) (k : Nat) (f : Eng → Eng) : (b.modEng k f).recCount = b.recCount := rfl
@[simp] theorem Block.modEng_spadForeign (b : Block) (k : Nat) (f : Eng → Eng) : (b.modEng k f).spadForeign = b.spadForeign := rfl
@[simp] theorem Block.modEng_wdogDone (b : Block) (k : Nat) (f : Eng → Eng) : (b.modEng k f).wdogDone = b.wdogDone := rfl
@[simp] theorem Block.modEng_frags (b : Block) (k : Nat) (f : Eng → Eng) : (b.modEng k f).frags = b.frags := rfl
@[simp] theorem Block.modEng_latches (b : Block) (k : Nat) (f : Eng → Eng) : (b.modEng k f).latches = b.latches := rfl
@[simp] theorem Block.modEng_image (b : Block) (k : Nat) (f : Eng → Eng) : (b.modEng k f).image = b.image := rfl
@[simp] theorem Block.modEng_imgBytes (b : Block) (k : Nat) (f : Eng → Eng) : (b.modEng k f).imgBytes = b.imgBytes := rfl
@[simp] theorem Block.modEng_due (b : Block) (k : Nat) (f : Eng → Eng) : (b.modEng k f).due = b.due := rfl
@[simp] theorem Block.modEng_stowt (b : Block) (k : Nat) (f : Eng → Eng) : (b.modEng k f).stowt = b.stowt := rfl
@[simp] theorem Block.modEng_sbsw (b : Block) (k : Nat) (f : Eng → Eng) : (b.modEng k f).sbsw = b.sbsw := rfl
@[simp] theorem Block.modEng_pstarv (b : Block) (k : Nat) (f : Eng → Eng) : (b.modEng k f).pstarv = b.pstarv := rfl
@[simp] theorem Block.modEng_warps (b : Block) (k : Nat) (f : Eng → Eng) : (b.modEng k f).warps = b.warps := rfl

/-! ### modMask -/

@[simp] theorem Warp.modMask_slice (w : Warp) (m : Mask) (f : Nat → Lane → Lane) : (w.modMask m f).slice = w.slice := rfl
@[simp] theorem Warp.modMask_slot (w : Warp) (m : Mask) (f : Nat → Lane → Lane) : (w.modMask m f).slot = w.slot := rfl
@[simp] theorem Warp.modMask_active (w : Warp) (m : Mask) (f : Nat → Lane → Lane) : (w.modMask m f).active = w.active := rfl
@[simp] theorem Warp.modMask_enter (w : Warp) (m : Mask) (f : Nat → Lane → Lane) : (w.modMask m f).enter = w.enter := rfl
@[simp] theorem Warp.modMask_age (w : Warp) (m : Mask) (f : Nat → Lane → Lane) : (w.modMask m f).age = w.age := rfl
@[simp] theorem Warp.modMask_readyClk (w : Warp) (m : Mask) (f : Nat → Lane → Lane) : (w.modMask m f).readyClk = w.readyClk := rfl
@[simp] theorem Warp.modMask_sbClk (w : Warp) (m : Mask) (f : Nat → Lane → Lane) : (w.modMask m f).sbClk = w.sbClk := rfl
@[simp] theorem Warp.modMask_lanes (w : Warp) (m : Mask) (f : Nat → Lane → Lane) : (w.modMask m f).lanes = mapFrom 0 (fun l x => if m.has l then f l x else x) w.lanes := rfl
@[simp] theorem Warp.modMask_s (w : Warp) (m : Mask) (f : Nat → Lane → Lane) : (w.modMask m f).s = w.s := rfl
@[simp] theorem Warp.modMask_sPois (w : Warp) (m : Mask) (f : Nat → Lane → Lane) : (w.modMask m f).sPois = w.sPois := rfl
@[simp] theorem Warp.modMask_bars (w : Warp) (m : Mask) (f : Nat → Lane → Lane) : (w.modMask m f).bars = w.bars := rfl
@[simp] theorem Warp.modMask_loads (w : Warp) (m : Mask) (f : Nat → Lane → Lane) : (w.modMask m f).loads = w.loads := rfl
@[simp] theorem Warp.modMask_late (w : Warp) (m : Mask) (f : Nat → Lane → Lane) : (w.modMask m f).late = w.late := rfl
@[simp] theorem Warp.modMask_stores (w : Warp) (m : Mask) (f : Nat → Lane → Lane) : (w.modMask m f).stores = w.stores := rfl
@[simp] theorem Warp.modMask_gang (w : Warp) (m : Mask) (f : Nat → Lane → Lane) : (w.modMask m f).gang = w.gang := rfl
@[simp] theorem Warp.modMask_wstores (w : Warp) (m : Mask) (f : Nat → Lane → Lane) : (w.modMask m f).wstores = w.wstores := rfl
@[simp] theorem Warp.modMask_hold (w : Warp) (m : Mask) (f : Nat → Lane → Lane) : (w.modMask m f).hold = w.hold := rfl
@[simp] theorem Warp.modMask_held (w : Warp) (m : Mask) (f : Nat → Lane → Lane) : (w.modMask m f).held = w.held := rfl
@[simp] theorem Warp.modMask_flight (w : Warp) (m : Mask) (f : Nat → Lane → Lane) : (w.modMask m f).flight = w.flight := rfl
@[simp] theorem Warp.modMask_ring (w : Warp) (m : Mask) (f : Nat → Lane → Lane) : (w.modMask m f).ring = w.ring := rfl
@[simp] theorem Warp.modMask_live (w : Warp) (m : Mask) (f : Nat → Lane → Lane) : (w.modMask m f).live = w.live := rfl
@[simp] theorem Warp.modMask_wcnt (w : Warp) (m : Mask) (f : Nat → Lane → Lane) : (w.modMask m f).wcnt = w.wcnt := rfl
@[simp] theorem Warp.modMask_wpast (w : Warp) (m : Mask) (f : Nat → Lane → Lane) : (w.modMask m f).wpast = w.wpast := rfl

/-! ### modLane -/

@[simp] theorem Warp.modLane_slice (w : Warp) (l : Nat) (f : Lane → Lane) : (w.modLane l f).slice = w.slice := rfl
@[simp] theorem Warp.modLane_slot (w : Warp) (l : Nat) (f : Lane → Lane) : (w.modLane l f).slot = w.slot := rfl
@[simp] theorem Warp.modLane_active (w : Warp) (l : Nat) (f : Lane → Lane) : (w.modLane l f).active = w.active := rfl
@[simp] theorem Warp.modLane_enter (w : Warp) (l : Nat) (f : Lane → Lane) : (w.modLane l f).enter = w.enter := rfl
@[simp] theorem Warp.modLane_age (w : Warp) (l : Nat) (f : Lane → Lane) : (w.modLane l f).age = w.age := rfl
@[simp] theorem Warp.modLane_readyClk (w : Warp) (l : Nat) (f : Lane → Lane) : (w.modLane l f).readyClk = w.readyClk := rfl
@[simp] theorem Warp.modLane_sbClk (w : Warp) (l : Nat) (f : Lane → Lane) : (w.modLane l f).sbClk = w.sbClk := rfl
@[simp] theorem Warp.modLane_lanes (w : Warp) (l : Nat) (f : Lane → Lane) : (w.modLane l f).lanes = modNth l f w.lanes := rfl
@[simp] theorem Warp.modLane_s (w : Warp) (l : Nat) (f : Lane → Lane) : (w.modLane l f).s = w.s := rfl
@[simp] theorem Warp.modLane_sPois (w : Warp) (l : Nat) (f : Lane → Lane) : (w.modLane l f).sPois = w.sPois := rfl
@[simp] theorem Warp.modLane_bars (w : Warp) (l : Nat) (f : Lane → Lane) : (w.modLane l f).bars = w.bars := rfl
@[simp] theorem Warp.modLane_loads (w : Warp) (l : Nat) (f : Lane → Lane) : (w.modLane l f).loads = w.loads := rfl
@[simp] theorem Warp.modLane_late (w : Warp) (l : Nat) (f : Lane → Lane) : (w.modLane l f).late = w.late := rfl
@[simp] theorem Warp.modLane_stores (w : Warp) (l : Nat) (f : Lane → Lane) : (w.modLane l f).stores = w.stores := rfl
@[simp] theorem Warp.modLane_gang (w : Warp) (l : Nat) (f : Lane → Lane) : (w.modLane l f).gang = w.gang := rfl
@[simp] theorem Warp.modLane_wstores (w : Warp) (l : Nat) (f : Lane → Lane) : (w.modLane l f).wstores = w.wstores := rfl
@[simp] theorem Warp.modLane_hold (w : Warp) (l : Nat) (f : Lane → Lane) : (w.modLane l f).hold = w.hold := rfl
@[simp] theorem Warp.modLane_held (w : Warp) (l : Nat) (f : Lane → Lane) : (w.modLane l f).held = w.held := rfl
@[simp] theorem Warp.modLane_flight (w : Warp) (l : Nat) (f : Lane → Lane) : (w.modLane l f).flight = w.flight := rfl
@[simp] theorem Warp.modLane_ring (w : Warp) (l : Nat) (f : Lane → Lane) : (w.modLane l f).ring = w.ring := rfl
@[simp] theorem Warp.modLane_live (w : Warp) (l : Nat) (f : Lane → Lane) : (w.modLane l f).live = w.live := rfl
@[simp] theorem Warp.modLane_wcnt (w : Warp) (l : Nat) (f : Lane → Lane) : (w.modLane l f).wcnt = w.wcnt := rfl
@[simp] theorem Warp.modLane_wpast (w : Warp) (l : Nat) (f : Lane → Lane) : (w.modLane l f).wpast = w.wpast := rfl

/-! ### setS -/

@[simp] theorem Warp.setS_slice (w : Warp) (r : Nat) (v : Word) : (w.setS r v).slice = w.slice := rfl
@[simp] theorem Warp.setS_slot (w : Warp) (r : Nat) (v : Word) : (w.setS r v).slot = w.slot := rfl
@[simp] theorem Warp.setS_active (w : Warp) (r : Nat) (v : Word) : (w.setS r v).active = w.active := rfl
@[simp] theorem Warp.setS_enter (w : Warp) (r : Nat) (v : Word) : (w.setS r v).enter = w.enter := rfl
@[simp] theorem Warp.setS_age (w : Warp) (r : Nat) (v : Word) : (w.setS r v).age = w.age := rfl
@[simp] theorem Warp.setS_readyClk (w : Warp) (r : Nat) (v : Word) : (w.setS r v).readyClk = w.readyClk := rfl
@[simp] theorem Warp.setS_sbClk (w : Warp) (r : Nat) (v : Word) : (w.setS r v).sbClk = w.sbClk := rfl
@[simp] theorem Warp.setS_lanes (w : Warp) (r : Nat) (v : Word) : (w.setS r v).lanes = w.lanes := rfl
@[simp] theorem Warp.setS_s (w : Warp) (r : Nat) (v : Word) : (w.setS r v).s = tset w.s r v := rfl
@[simp] theorem Warp.setS_sPois (w : Warp) (r : Nat) (v : Word) : (w.setS r v).sPois = w.sPois.filter (· ≠ r) := rfl
@[simp] theorem Warp.setS_bars (w : Warp) (r : Nat) (v : Word) : (w.setS r v).bars = w.bars := rfl
@[simp] theorem Warp.setS_loads (w : Warp) (r : Nat) (v : Word) : (w.setS r v).loads = w.loads := rfl
@[simp] theorem Warp.setS_late (w : Warp) (r : Nat) (v : Word) : (w.setS r v).late = w.late := rfl
@[simp] theorem Warp.setS_stores (w : Warp) (r : Nat) (v : Word) : (w.setS r v).stores = w.stores := rfl
@[simp] theorem Warp.setS_gang (w : Warp) (r : Nat) (v : Word) : (w.setS r v).gang = w.gang := rfl
@[simp] theorem Warp.setS_wstores (w : Warp) (r : Nat) (v : Word) : (w.setS r v).wstores = w.wstores := rfl
@[simp] theorem Warp.setS_hold (w : Warp) (r : Nat) (v : Word) : (w.setS r v).hold = w.hold := rfl
@[simp] theorem Warp.setS_held (w : Warp) (r : Nat) (v : Word) : (w.setS r v).held = w.held := rfl
@[simp] theorem Warp.setS_flight (w : Warp) (r : Nat) (v : Word) : (w.setS r v).flight = w.flight := rfl
@[simp] theorem Warp.setS_ring (w : Warp) (r : Nat) (v : Word) : (w.setS r v).ring = w.ring := rfl
@[simp] theorem Warp.setS_live (w : Warp) (r : Nat) (v : Word) : (w.setS r v).live = w.live := rfl
@[simp] theorem Warp.setS_wcnt (w : Warp) (r : Nat) (v : Word) : (w.setS r v).wcnt = w.wcnt := rfl
@[simp] theorem Warp.setS_wpast (w : Warp) (r : Nat) (v : Word) : (w.setS r v).wpast = w.wpast := rfl

/-! ### setV -/

@[simp] theorem Lane.setV_kind (x : Lane) (r : Nat) (v : Word) : (x.setV r v).kind = x.kind := rfl
@[simp] theorem Lane.setV_st (x : Lane) (r : Nat) (v : Word) : (x.setV r v).st = x.st := rfl
@[simp] theorem Lane.setV_pc (x : Lane) (r : Nat) (v : Word) : (x.setV r v).pc = x.pc := rfl
@[simp] theorem Lane.setV_widx (x : Lane) (r : Nat) (v : Word) : (x.setV r v).widx = x.widx := rfl
@[simp] theorem Lane.setV_frag (x : Lane) (r : Nat) (v : Word) : (x.setV r v).frag = x.frag := rfl
@[simp] theorem Lane.setV_resume (x : Lane) (r : Nat) (v : Word) : (x.setV r v).resume = x.resume := rfl
@[simp] theorem Lane.setV_stamp (x : Lane) (r : Nat) (v : Word) : (x.setV r v).stamp = x.stamp := rfl
@[simp] theorem Lane.setV_behind (x : Lane) (r : Nat) (v : Word) : (x.setV r v).behind = x.behind := rfl
@[simp] theorem Lane.setV_waitClk (x : Lane) (r : Nat) (v : Word) : (x.setV r v).waitClk = x.waitClk := rfl
@[simp] theorem Lane.setV_waitWall (x : Lane) (r : Nat) (v : Word) : (x.setV r v).waitWall = x.waitWall := rfl
@[simp] theorem Lane.setV_step (x : Lane) (r : Nat) (v : Word) : (x.setV r v).step = x.step := rfl
@[simp] theorem Lane.setV_traced (x : Lane) (r : Nat) (v : Word) : (x.setV r v).traced = x.traced := rfl
@[simp] theorem Lane.setV_fp (x : Lane) (r : Nat) (v : Word) : (x.setV r v).fp = x.fp := rfl
@[simp] theorem Lane.setV_fl (x : Lane) (r : Nat) (v : Word) : (x.setV r v).fl = x.fl := rfl
@[simp] theorem Lane.setV_x (x : Lane) (r : Nat) (v : Word) : (x.setV r v).x = x.x := rfl
@[simp] theorem Lane.setV_v (x : Lane) (r : Nat) (v : Word) : (x.setV r v).v = tset x.v r v := rfl
@[simp] theorem Lane.setV_p (x : Lane) (r : Nat) (v : Word) : (x.setV r v).p = x.p := rfl
@[simp] theorem Lane.setV_vPois (x : Lane) (r : Nat) (v : Word) : (x.setV r v).vPois = x.vPois.filter (· ≠ r) := rfl

/-! ### release and retry -/

@[simp] theorem Lane.release_kind (x : Lane) : x.release.kind = x.kind := rfl
@[simp] theorem Lane.release_st (x : Lane) : x.release.st = .runnable := rfl
@[simp] theorem Lane.release_pc (x : Lane) : x.release.pc = x.resume.1 := rfl
@[simp] theorem Lane.release_widx (x : Lane) : x.release.widx = x.resume.2 := rfl
@[simp] theorem Lane.release_frag (x : Lane) : x.release.frag = x.frag := rfl
@[simp] theorem Lane.release_resume (x : Lane) : x.release.resume = x.resume := rfl
@[simp] theorem Lane.release_stamp (x : Lane) : x.release.stamp = none := rfl
@[simp] theorem Lane.release_behind (x : Lane) : x.release.behind = x.behind := rfl
@[simp] theorem Lane.release_waitClk (x : Lane) : x.release.waitClk = 0 := rfl
@[simp] theorem Lane.release_waitWall (x : Lane) : x.release.waitWall = 0 := rfl
@[simp] theorem Lane.release_step (x : Lane) : x.release.step = x.step := rfl
@[simp] theorem Lane.release_traced (x : Lane) : x.release.traced = x.traced := rfl
@[simp] theorem Lane.release_fp (x : Lane) : x.release.fp = x.fp := rfl
@[simp] theorem Lane.release_fl (x : Lane) : x.release.fl = x.fl := rfl
@[simp] theorem Lane.release_x (x : Lane) : x.release.x = x.x := rfl
@[simp] theorem Lane.release_v (x : Lane) : x.release.v = x.v := rfl
@[simp] theorem Lane.release_p (x : Lane) : x.release.p = x.p := rfl
@[simp] theorem Lane.release_vPois (x : Lane) : x.release.vPois = x.vPois := rfl
@[simp] theorem Lane.retry_kind (x : Lane) : x.retry.kind = x.kind := rfl
@[simp] theorem Lane.retry_st (x : Lane) : x.retry.st = .runnable := rfl
@[simp] theorem Lane.retry_pc (x : Lane) : x.retry.pc = x.pc := rfl
@[simp] theorem Lane.retry_widx (x : Lane) : x.retry.widx = x.widx := rfl
@[simp] theorem Lane.retry_frag (x : Lane) : x.retry.frag = x.frag := rfl
@[simp] theorem Lane.retry_resume (x : Lane) : x.retry.resume = x.resume := rfl
@[simp] theorem Lane.retry_stamp (x : Lane) : x.retry.stamp = none := rfl
@[simp] theorem Lane.retry_behind (x : Lane) : x.retry.behind = x.behind := rfl
@[simp] theorem Lane.retry_waitClk (x : Lane) : x.retry.waitClk = 0 := rfl
@[simp] theorem Lane.retry_waitWall (x : Lane) : x.retry.waitWall = 0 := rfl
@[simp] theorem Lane.retry_step (x : Lane) : x.retry.step = x.step := rfl
@[simp] theorem Lane.retry_traced (x : Lane) : x.retry.traced = x.traced := rfl
@[simp] theorem Lane.retry_fp (x : Lane) : x.retry.fp = x.fp := rfl
@[simp] theorem Lane.retry_fl (x : Lane) : x.retry.fl = x.fl := rfl
@[simp] theorem Lane.retry_x (x : Lane) : x.retry.x = x.x := rfl
@[simp] theorem Lane.retry_v (x : Lane) : x.retry.v = x.v := rfl
@[simp] theorem Lane.retry_p (x : Lane) : x.retry.p = x.p := rfl
@[simp] theorem Lane.retry_vPois (x : Lane) : x.retry.vPois = x.vPois := rfl

/-! ### setD, setSD and orFl: what they leave alone -/

@[simp] theorem Lane.setD_kind (x : Lane) (d : Nat) (wide : Bool) (v : DWord) : (x.setD d wide v).kind = x.kind := by
  cases wide <;> rfl
@[simp] theorem Lane.setD_st (x : Lane) (d : Nat) (wide : Bool) (v : DWord) : (x.setD d wide v).st = x.st := by
  cases wide <;> rfl
@[simp] theorem Lane.setD_pc (x : Lane) (d : Nat) (wide : Bool) (v : DWord) : (x.setD d wide v).pc = x.pc := by
  cases wide <;> rfl
@[simp] theorem Lane.setD_widx (x : Lane) (d : Nat) (wide : Bool) (v : DWord) : (x.setD d wide v).widx = x.widx := by
  cases wide <;> rfl
@[simp] theorem Lane.setD_frag (x : Lane) (d : Nat) (wide : Bool) (v : DWord) : (x.setD d wide v).frag = x.frag := by
  cases wide <;> rfl
@[simp] theorem Lane.setD_resume (x : Lane) (d : Nat) (wide : Bool) (v : DWord) : (x.setD d wide v).resume = x.resume := by
  cases wide <;> rfl
@[simp] theorem Lane.setD_stamp (x : Lane) (d : Nat) (wide : Bool) (v : DWord) : (x.setD d wide v).stamp = x.stamp := by
  cases wide <;> rfl
@[simp] theorem Lane.setD_behind (x : Lane) (d : Nat) (wide : Bool) (v : DWord) : (x.setD d wide v).behind = x.behind := by
  cases wide <;> rfl
@[simp] theorem Lane.setD_waitClk (x : Lane) (d : Nat) (wide : Bool) (v : DWord) : (x.setD d wide v).waitClk = x.waitClk := by
  cases wide <;> rfl
@[simp] theorem Lane.setD_waitWall (x : Lane) (d : Nat) (wide : Bool) (v : DWord) : (x.setD d wide v).waitWall = x.waitWall := by
  cases wide <;> rfl
@[simp] theorem Lane.setD_step (x : Lane) (d : Nat) (wide : Bool) (v : DWord) : (x.setD d wide v).step = x.step := by
  cases wide <;> rfl
@[simp] theorem Lane.setD_traced (x : Lane) (d : Nat) (wide : Bool) (v : DWord) : (x.setD d wide v).traced = x.traced := by
  cases wide <;> rfl
@[simp] theorem Lane.setD_fp (x : Lane) (d : Nat) (wide : Bool) (v : DWord) : (x.setD d wide v).fp = x.fp := by
  cases wide <;> rfl
@[simp] theorem Lane.setD_fl (x : Lane) (d : Nat) (wide : Bool) (v : DWord) : (x.setD d wide v).fl = x.fl := by
  cases wide <;> rfl
@[simp] theorem Lane.setD_x (x : Lane) (d : Nat) (wide : Bool) (v : DWord) : (x.setD d wide v).x = x.x := by
  cases wide <;> rfl
@[simp] theorem Lane.setD_p (x : Lane) (d : Nat) (wide : Bool) (v : DWord) : (x.setD d wide v).p = x.p := by
  cases wide <;> rfl
@[simp] theorem Warp.setSD_slice (w : Warp) (d : Nat) (wide : Bool) (v : DWord) : (w.setSD d wide v).slice = w.slice := by
  cases wide <;> rfl
@[simp] theorem Warp.setSD_slot (w : Warp) (d : Nat) (wide : Bool) (v : DWord) : (w.setSD d wide v).slot = w.slot := by
  cases wide <;> rfl
@[simp] theorem Warp.setSD_active (w : Warp) (d : Nat) (wide : Bool) (v : DWord) : (w.setSD d wide v).active = w.active := by
  cases wide <;> rfl
@[simp] theorem Warp.setSD_enter (w : Warp) (d : Nat) (wide : Bool) (v : DWord) : (w.setSD d wide v).enter = w.enter := by
  cases wide <;> rfl
@[simp] theorem Warp.setSD_age (w : Warp) (d : Nat) (wide : Bool) (v : DWord) : (w.setSD d wide v).age = w.age := by
  cases wide <;> rfl
@[simp] theorem Warp.setSD_readyClk (w : Warp) (d : Nat) (wide : Bool) (v : DWord) : (w.setSD d wide v).readyClk = w.readyClk := by
  cases wide <;> rfl
@[simp] theorem Warp.setSD_sbClk (w : Warp) (d : Nat) (wide : Bool) (v : DWord) : (w.setSD d wide v).sbClk = w.sbClk := by
  cases wide <;> rfl
@[simp] theorem Warp.setSD_lanes (w : Warp) (d : Nat) (wide : Bool) (v : DWord) : (w.setSD d wide v).lanes = w.lanes := by
  cases wide <;> rfl
@[simp] theorem Warp.setSD_bars (w : Warp) (d : Nat) (wide : Bool) (v : DWord) : (w.setSD d wide v).bars = w.bars := by
  cases wide <;> rfl
@[simp] theorem Warp.setSD_loads (w : Warp) (d : Nat) (wide : Bool) (v : DWord) : (w.setSD d wide v).loads = w.loads := by
  cases wide <;> rfl
@[simp] theorem Warp.setSD_late (w : Warp) (d : Nat) (wide : Bool) (v : DWord) : (w.setSD d wide v).late = w.late := by
  cases wide <;> rfl
@[simp] theorem Warp.setSD_stores (w : Warp) (d : Nat) (wide : Bool) (v : DWord) : (w.setSD d wide v).stores = w.stores := by
  cases wide <;> rfl
@[simp] theorem Warp.setSD_gang (w : Warp) (d : Nat) (wide : Bool) (v : DWord) : (w.setSD d wide v).gang = w.gang := by
  cases wide <;> rfl
@[simp] theorem Warp.setSD_wstores (w : Warp) (d : Nat) (wide : Bool) (v : DWord) : (w.setSD d wide v).wstores = w.wstores := by
  cases wide <;> rfl
@[simp] theorem Warp.setSD_hold (w : Warp) (d : Nat) (wide : Bool) (v : DWord) : (w.setSD d wide v).hold = w.hold := by
  cases wide <;> rfl
@[simp] theorem Warp.setSD_held (w : Warp) (d : Nat) (wide : Bool) (v : DWord) : (w.setSD d wide v).held = w.held := by
  cases wide <;> rfl
@[simp] theorem Warp.setSD_flight (w : Warp) (d : Nat) (wide : Bool) (v : DWord) : (w.setSD d wide v).flight = w.flight := by
  cases wide <;> rfl
@[simp] theorem Warp.setSD_ring (w : Warp) (d : Nat) (wide : Bool) (v : DWord) : (w.setSD d wide v).ring = w.ring := by
  cases wide <;> rfl
@[simp] theorem Warp.setSD_live (w : Warp) (d : Nat) (wide : Bool) (v : DWord) : (w.setSD d wide v).live = w.live := by
  cases wide <;> rfl
@[simp] theorem Warp.setSD_wcnt (w : Warp) (d : Nat) (wide : Bool) (v : DWord) : (w.setSD d wide v).wcnt = w.wcnt := by
  cases wide <;> rfl
@[simp] theorem Warp.setSD_wpast (w : Warp) (d : Nat) (wide : Bool) (v : DWord) : (w.setSD d wide v).wpast = w.wpast := by
  cases wide <;> rfl
@[simp] theorem Lane.orFl_kind (x : Lane) (g : Fl) : (x.orFl g).kind = x.kind := by
  unfold Lane.orFl; split <;> rfl
@[simp] theorem Lane.orFl_st (x : Lane) (g : Fl) : (x.orFl g).st = x.st := by
  unfold Lane.orFl; split <;> rfl
@[simp] theorem Lane.orFl_pc (x : Lane) (g : Fl) : (x.orFl g).pc = x.pc := by
  unfold Lane.orFl; split <;> rfl
@[simp] theorem Lane.orFl_widx (x : Lane) (g : Fl) : (x.orFl g).widx = x.widx := by
  unfold Lane.orFl; split <;> rfl
@[simp] theorem Lane.orFl_frag (x : Lane) (g : Fl) : (x.orFl g).frag = x.frag := by
  unfold Lane.orFl; split <;> rfl
@[simp] theorem Lane.orFl_resume (x : Lane) (g : Fl) : (x.orFl g).resume = x.resume := by
  unfold Lane.orFl; split <;> rfl
@[simp] theorem Lane.orFl_stamp (x : Lane) (g : Fl) : (x.orFl g).stamp = x.stamp := by
  unfold Lane.orFl; split <;> rfl
@[simp] theorem Lane.orFl_behind (x : Lane) (g : Fl) : (x.orFl g).behind = x.behind := by
  unfold Lane.orFl; split <;> rfl
@[simp] theorem Lane.orFl_waitClk (x : Lane) (g : Fl) : (x.orFl g).waitClk = x.waitClk := by
  unfold Lane.orFl; split <;> rfl
@[simp] theorem Lane.orFl_waitWall (x : Lane) (g : Fl) : (x.orFl g).waitWall = x.waitWall := by
  unfold Lane.orFl; split <;> rfl
@[simp] theorem Lane.orFl_step (x : Lane) (g : Fl) : (x.orFl g).step = x.step := by
  unfold Lane.orFl; split <;> rfl
@[simp] theorem Lane.orFl_traced (x : Lane) (g : Fl) : (x.orFl g).traced = x.traced := by
  unfold Lane.orFl; split <;> rfl
@[simp] theorem Lane.orFl_fp (x : Lane) (g : Fl) : (x.orFl g).fp = x.fp := by
  unfold Lane.orFl; split <;> rfl
@[simp] theorem Lane.orFl_x (x : Lane) (g : Fl) : (x.orFl g).x = x.x := by
  unfold Lane.orFl; split <;> rfl
@[simp] theorem Lane.orFl_v (x : Lane) (g : Fl) : (x.orFl g).v = x.v := by
  unfold Lane.orFl; split <;> rfl
@[simp] theorem Lane.orFl_p (x : Lane) (g : Fl) : (x.orFl g).p = x.p := by
  unfold Lane.orFl; split <;> rfl
@[simp] theorem Lane.orFl_vPois (x : Lane) (g : Fl) : (x.orFl g).vPois = x.vPois := by
  unfold Lane.orFl; split <;> rfl

end Sys2Proof.Machine
end

