-- ==== Sys2Proof/Laws/Lanes.lean ====
section
/-! SUPPORT. What the result operations of Machine/Operands.lean do: one lemma for each shape of Safety.lean. -/

namespace Sys2Proof

open Machine

variable {s t : State} {c : Cx}

/-! ## Updates of the executing warp compose -/

theorem modNth_modNth {α : Type} (n : Nat) (f g : α → α) (l : List α) : modNth n g (modNth n f l) = modNth n (fun x => g (f x)) l := by
  induction l generalizing n with
  | nil => cases n <;> rfl
  | cons a l ih => cases n <;> simp [modNth, ih]

theorem modWhere_modWhere (k : Nat) (f g : Block → Block) (h : ∀ b, (f b).key = b.key) (l : List Block) :
    modWhere (fun b => decide (b.key = k)) g (modWhere (fun b => decide (b.key = k)) f l)
      = modWhere (fun b => decide (b.key = k)) (fun b => g (f b)) l := by
  simp only [modWhere, List.map_map]
  apply List.map_congr_left
  intro b _
  simp only [Function.comp_apply]
  split <;> simp_all

theorem State.modWarp_modWarp (s : State) (k w : Nat) (f g : Warp → Warp) :
    (s.modWarp k w f).modWarp k w g = s.modWarp k w fun x => g (f x) := by
  simp only [State.modWarp, State.modBlock]
  rw [modWhere_modWhere k (fun b => b.modWarp w f) (fun b => b.modWarp w g) (fun _ => rfl)]
  congr 2
  funext b
  simp [Block.modWarp, modNth_modNth]

theorem OnlyWarp.refl (s : State) (c : Cx) : OnlyWarp s s c := by
  refine ⟨fun w => w, ?_⟩
  have h : ∀ (n : Nat) (l : List Warp), modNth n (fun w => w) l = l := by
    intro n l
    induction l generalizing n with
    | nil => cases n <;> rfl
    | cons a l ih => cases n <;> simp [modNth, ih]
  cases s
  simp [State.modWarp, State.modBlock, modWhere, Block.modWarp, h]

theorem OnlyWarp.modWarp (h : OnlyWarp s t c) (f : Warp → Warp) : OnlyWarp s (t.modWarp c.bk c.wi f) c := by
  obtain ⟨g, rfl⟩ := h
  exact ⟨_, State.modWarp_modWarp s c.bk c.wi g f⟩

theorem OnlyWarp.modMask (h : OnlyWarp s t c) (m : Mask) (f : Nat → Lane → Lane) : OnlyWarp s (t.modMask c.bk c.wi m f) c := h.modWarp _

/-! ## Reading the executing warp -/

theorem Executes.warp (h : Executes s c) : s.warp c.bk c.wi = c.w := by
  obtain ⟨-, hb, -, hw, -⟩ := s.cx?_spec h.cx
  simp [State.warp, hb, hw]

theorem Executes.warp_modWarp (h : Executes s c) (f : Warp → Warp) : (s.modWarp c.bk c.wi f).warp c.bk c.wi = f c.w := by
  obtain ⟨-, hb, hi, -, -⟩ := s.cx?_spec h.cx
  rw [State.warp_modWarp_same s c.bk c.wi f hb hi, h.warp]

/-- The executing warp after one update of the lanes of a mask. -/
theorem Executes.lane_modMask (h : Executes s c) (m : Mask) (f : Nat → Lane → Lane) {l : Nat} (hl : l < 32) :
    ((s.modMask c.bk c.wi m f).warp c.bk c.wi).lane l = if m.has l then f l (c.w.lane l) else c.w.lane l := by
  unfold State.modMask
  rw [h.warp_modWarp, Warp.lane_modMask _ _ _ _ (by rw [h.whole]; exact hl)]

theorem Executes.onlyLanes_modMask (h : Executes s c) (m : Mask) (f : Nat → Lane → Lane) : OnlyLanes s (s.modMask c.bk c.wi m f) c := by
  refine ⟨(OnlyWarp.refl s c).modMask m f, ?_⟩
  unfold State.modMask
  rw [h.warp_modWarp]
  rfl

/-! ## Guards -/

theorem Cx.guarded_has (c : Cx) (tick : Nat) (g : Guard) (l : Nat) :
    (c.guarded tick g).has l = (decide (l < 32) && (c.fl.act.has l && c.guard tick g l)) := by
  simp [Cx.guarded, maskOf_has]

/-- The lowest guarded lane is a lane of ACT whose guard holds. -/
theorem Cx.head_guarded {tick : Nat} {g : Guard} {l : Nat} (h : (c.guarded tick g).list.head? = some l) :
    l < 32 ∧ c.fl.act.has l = true ∧ c.guard tick g l = true := by
  have hm : l ∈ (c.guarded tick g).list := List.mem_of_head? h
  rw [mem_mask_list, Cx.guarded_has] at hm
  simpa using hm.2

theorem withGuard_of {g : Guard} {m : Mask} (h : Executes s c) (hg : Guarded s c g m) (f : Cx → Mask → State) :
    s.withGuard g f = .next (f c m) := by
  simp [State.withGuard, s.withCx_of _ h.cx, hg.mask, hg.some]

/-- A form whose guard holds in no lane of ACT leaves the state as it was (R182, R216). -/
theorem withGuard_none {g : Guard} (h : s.cx? = some c) (hg : (c.guarded s.tick g).none = true) (f : Cx → Mask → State) :
    s.withGuard g f = .next s := by
  simp [State.withGuard, s.withCx_of _ h, hg]

theorem withGuardN_of {g : Guard} {m : Mask} (h : Executes s c) (hg : Guarded s c g m) (hr : c.b.replay = none) (f : Cx → Mask → State) :
    s.withGuardN g f = .next (f c m) := by
  rw [State.withGuardN, withGuard_of h hg]
  simp [hr]

theorem withGuardN_method {g : Guard} {m : Mask} {v : RInv} (h : Executes s c) (hg : Guarded s c g m) (hr : c.b.replay = some v)
    (f : Cx → Mask → State) : s.withGuardN g f = .next (s.methodFault c.b v 0x04 0) := by
  rw [State.withGuardN, withGuard_of h hg]
  simp [hr]

/-! ## Destinations -/

theorem tget_tset {α : Type} (t : Tab α) (k i : Nat) (x : α) : tget (tset t k x) i = if i = k then some x else tget t i := by
  split
  · next h => subst h; exact tget_tset_same _ _ _
  · next h => exact tget_tset_other _ _ h

theorem Lane.setV_get (x : Lane) (r i : Nat) (v : Word) : tget (x.setV r v).v i = if i = r then some v else tget x.v i := by
  unfold Lane.setV
  split
  · next h => subst h; exact tget_tset_same _ _ _
  · next h => exact tget_tset_other _ _ h

theorem Warp.setS_get (w : Warp) (r i : Nat) (v : Word) : tget (w.setS r v).s i = if i = r then some v else tget w.s i := by
  unfold Warp.setS
  split
  · next h => subst h; exact tget_tset_same _ _ _
  · next h => exact tget_tset_other _ _ h

theorem Lane.orFl_fl (x : Lane) (f : Fl) : (x.orFl f).fl = if x.isHelper then x.fl else x.fl ||| f := by
  unfold Lane.orFl
  split <;> rfl

theorem Lane.orFl_rest (x : Lane) (f : Fl) : { x.orFl f with fl := x.fl } = x := by
  unfold Lane.orFl
  split <;> rfl

/-- What a guarded lane gets from the update that the result operations make. -/
theorem laneGets_of (n wide : Bool) (d : Nat) (v : DWord) (f : Fl) (x : Lane) :
    LaneGets n wide d v f x
      (if n then ({ x with x := x.x.push (narrow wide v) }).orFl f
       else (({ x with x := x.x.push (narrow wide v) }).orFl f).setD d wide v) := by
  have hh : ∀ u, ({ x with x := u } : Lane).isHelper = x.isHelper := fun _ => rfl
  constructor
  · simp only [Lane.orFl, hh]; cases n <;> cases wide <;> cases x.isHelper <;> rfl
  · simp only [Lane.orFl, hh]; cases n <;> cases wide <;> cases x.isHelper <;> rfl
  · intro hn
    subst hn
    cases wide <;> simp [Lane.setD, tget_tset]
  · intro hn hw
    subst hn hw
    simp [Lane.setD, tget_tset]
  · intro r hr
    cases n
    · obtain hr | ⟨h1, h2⟩ := hr
      · simp at hr
      · cases wide
        · simp [Lane.setD, tget_tset, h1]
        · simp [Lane.setD, tget_tset, h1, h2 rfl]
    · simp
  · simp only [Lane.orFl, hh]; cases n <;> cases wide <;> cases x.isHelper <;> rfl

/-- Every guarded lane gets its result where the destination is a V register. -/
theorem vResult_of (h : Executes s c) (x : LaneArgs) (wide : Bool) (f : Nat → DWord × Fl) (hs : x.sd = false) :
    VResult s (s.laneResult c x wide f) c x wide f := by
  unfold State.laneResult
  simp only [hs, Bool.false_eq_true, if_false]
  refine ⟨h.onlyLanes_modMask _ _, ?_, ?_, ?_⟩
  · intro l hl ha hg
    rw [h.lane_modMask _ _ hl, if_pos ha, if_pos hg]
    exact laneGets_of x.n wide x.d.toNat (f l).1 (f l).2 (c.w.lane l)
  · intro l hl ha hg
    rw [h.lane_modMask _ _ hl, if_pos ha, hg]
    rfl
  · intro l hl ha
    rw [h.lane_modMask _ _ hl, ha]
    rfl

/-- A result to some lanes of ACT only. -/
theorem someLanes_of (h : Executes s c) (x : LaneArgs) (wide : Bool) (f : Nat → Option DWord) :
    SomeLanes s (s.someResult c x wide f) c x wide f := by
  have h0 : ∀ y : Lane, y.orFl 0 = y := by
    intro y
    unfold Lane.orFl
    split <;> simp
  unfold State.someResult
  refine ⟨h.onlyLanes_modMask _ _, ?_, ?_, ?_⟩
  · intro l v hl ha hv
    rw [h.lane_modMask _ _ hl, if_pos ha, hv]
    have := laneGets_of x.n wide x.d.toNat v 0 (c.w.lane l)
    rwa [h0] at this
  · intro l hl ha hv
    rw [h.lane_modMask _ _ hl, if_pos ha, hv]
  · intro l hl ha
    rw [h.lane_modMask _ _ hl, ha]
    rfl

theorem pairGets_of (n : Bool) (d : Nat) (a b : Bool) (x : Lane) :
    PairGets n d a b x (if n then { x with x := x.x.push (if a then 1 else 0) } else
      ({ x with x := x.x.push (if a then 1 else 0) } : Lane).setPair d a b) := by
  cases n
  · refine ⟨rfl, fun _ => ⟨?_, ?_⟩, ?_, rfl⟩
    · simp only [Bool.false_eq_true, if_false, Lane.setPair]
      rw [tget_tset_other _ _ (by omega), tget_tset_same]
    · simp only [Bool.false_eq_true, if_false, Lane.setPair]
      rw [tget_tset_same]
    · intro r hr
      obtain hr | ⟨h1, h2⟩ := hr
      · simp at hr
      · simp only [Bool.false_eq_true, if_false, Lane.setPair]
        rw [tget_tset_other _ _ h2, tget_tset_other _ _ h1]
  · exact ⟨rfl, fun h => by simp at h, fun _ _ => rfl, rfl⟩

/-- Every guarded lane gets its two predicates. -/
theorem pResult_of (h : Executes s c) (x : LaneArgs) (f : Nat → Bool × Bool) : PResult s (s.predResult c x f) c x f := by
  unfold State.predResult
  refine ⟨h.onlyLanes_modMask _ _, ?_, ?_, ?_⟩
  · intro l hl ha hg
    rw [h.lane_modMask _ _ hl, if_pos ha, if_pos hg]
    exact pairGets_of x.n x.d.toNat (f l).1 (f l).2 (c.w.lane l)
  · intro l hl ha hg
    rw [h.lane_modMask _ _ hl, if_pos ha, hg]
    rfl
  · intro l hl ha
    rw [h.lane_modMask _ _ hl, ha]
    rfl

theorem head_list_none {m : Mask} {l : Nat} (h : m.list.head? = some l) : m.none = false := by
  have hm := (mem_mask_list m l).1 (List.mem_of_head? h)
  by_contra hc
  have := (mask_none_iff m).1 (by simpa using hc) l hm.1
  simp [hm.2] at this

theorem narrow_low (wide : Bool) (v : DWord) : (narrow wide v).setWidth 32 = v.setWidth 32 := by
  cases wide
  · simp [narrow]
  · rfl

/-- The lowest guarded lane gives its result where the destination is an S register. -/
theorem sResult_of (h : Executes s c) (x : LaneArgs) (wide : Bool) (f : Nat → DWord × Fl) (hs : x.sd = true) {l₀ : Nat}
    (hl : (c.guarded s.tick x.g).list.head? = some l₀) : SResult s (s.laneResult c x wide f) c x wide f l₀ := by
  have h₀ : l₀ < 32 := (Cx.head_guarded hl).1
  obtain ⟨-, hb, hi, -, -⟩ := s.cx?_spec h.cx
  let g1 : Warp → Warp := fun w => w.modMask c.fl.act fun _ y => { y with x := y.x.push (narrow wide (f l₀).1) }
  let g2 : Warp → Warp := fun w => if x.n then w else w.setSD (x.d.toNat % 32) wide (narrow wide (f l₀).1)
  let g3 : Warp → Warp := fun w => w.modMask (maskOf (· == l₀)) fun _ y => y.orFl (f l₀).2
  have e : s.laneResult c x wide f = s.modWarp c.bk c.wi fun w => g3 (g2 (g1 w)) := by
    unfold State.laneResult State.warpResult
    simp only [hs, if_true, hl, Option.getD_some, Option.isSome_some, Bool.true_and]
    cases hn : x.n
    · simp only [Bool.not_false, if_true, State.modMask, State.modWarp_modWarp, g1, g2, g3, hn]
      rfl
    · simp only [Bool.not_true, Bool.false_eq_true, if_false, State.modMask, State.modWarp_modWarp, g1, g2, g3, hn, if_true]
  have ew : (s.laneResult c x wide f).warp c.bk c.wi = g3 (g2 (g1 c.w)) := by rw [e, h.warp_modWarp]
  have hl2 : (g2 (g1 c.w)).lanes = (g1 c.w).lanes := by
    simp only [g2]; cases x.n <;> cases wide <;> rfl
  have es : (g3 (g2 (g1 c.w))).s = (g2 (g1 c.w)).s := rfl
  have es1 : (g1 c.w).s = c.w.s := rfl
  constructor
  · exact ⟨_, e⟩
  · rw [ew]
    simp only [g3, g2, g1]; cases x.n <;> cases wide <;> rfl
  · intro hn
    rw [ew, es]
    simp only [g2, hn, Bool.false_eq_true, if_false]
    cases wide
    · simp [Warp.setSD, tget_tset, narrow_low]
    · simp [Warp.setSD, tget_tset, narrow_low]
  · intro hn hw
    subst hw
    rw [ew, es]
    simp only [g2, hn, Bool.false_eq_true, if_false]
    simp [Warp.setSD, tget_tset, narrow]
  · intro r hr
    rw [ew, es]
    cases hn : x.n
    · obtain hr | ⟨h1, h2⟩ := hr
      · simp [hn] at hr
      · simp only [g2, hn, Bool.false_eq_true, if_false]
        cases wide
        · simp [Warp.setSD, tget_tset, h1, es1]
        · simp [Warp.setSD, tget_tset, h1, h2 rfl, es1]
    · simp only [g2, hn, if_true, es1]
  · intro l hl
    rw [ew]
    have e1 : (g2 (g1 c.w)).lane l = (g1 c.w).lane l := by simp only [Warp.lane, hl2]
    have w1 : l < (g2 (g1 c.w)).lanes.length := by rw [hl2]; simpa [g1, length_mapFrom, h.whole] using hl
    have e0 : (g1 c.w).lane l = if c.fl.act.has l then
        { c.w.lane l with x := (c.w.lane l).x.push (narrow wide (f l₀).1) } else c.w.lane l := by
      simp only [g1]; rw [Warp.lane_modMask _ _ _ _ (by rw [h.whole]; exact hl)]
    simp only [g3]
    rw [Warp.lane_modMask _ _ _ _ w1, maskOf_has, e1, e0]
    have hh : ∀ u, ({ c.w.lane l with x := u } : Lane).isHelper = (c.w.lane l).isHelper := fun _ => rfl
    by_cases hl0 : l = l₀
    · subst hl0
      cases ha : c.fl.act.has l <;> cases hp : (c.w.lane l).isHelper <;> simp [h₀, Lane.orFl, hh, hp]
    · cases ha : c.fl.act.has l <;> simp [hl0]

theorem list_head_none {m : Mask} (h : m.none = true) : m.list.head? = none := by
  have := (mask_none_iff m).1 h
  rw [List.head?_eq_none_iff, Mask.list, List.filter_eq_nil_iff]
  intro l hl
  simp [this l (by simpa [lanes32] using hl)]

/-- Where no lane is guarded an S destination is unchanged. -/
theorem sKeeps_of (h : Executes s c) (x : LaneArgs) (wide : Bool) (f : Nat → DWord × Fl) (hs : x.sd = true)
    (hn : (c.guarded s.tick x.g).none = true) : SKeeps s (s.laneResult c x wide f) c x wide := by
  have e : s.laneResult c x wide f = s.modMask c.bk c.wi c.fl.act fun _ y =>
      { y with x := y.x.push (narrow wide (if wide then c.s64 s.tick (x.d.toNat % 32) else (c.s s.tick (x.d.toNat % 32)).setWidth 64)) } := by
    unfold State.laneResult State.warpResult
    simp only [hs, if_true, list_head_none hn, Option.getD_none, Option.isSome_none, Bool.false_and, Bool.false_eq_true, if_false]
  rw [e]
  refine ⟨h.onlyLanes_modMask _ _, fun l hl => ?_⟩
  rw [h.lane_modMask _ _ hl]
  cases wide <;> simp [narrow]

/-- A lane-class form does what its shape says. -/
theorem laneForm_of (h : Executes s c) (x : LaneArgs) (wide : Bool) (f : Nat → DWord × Fl) :
    LaneForm s (s.laneResult c x wide f) c x wide f :=
  ⟨vResult_of h x wide f, fun hs _ hl => sResult_of h x wide f hs hl, sKeeps_of h x wide f⟩

/-- A lane-class form under its guard answers a next state of its shape. -/
theorem withCx_laneForm (h : Executes s c) (x : LaneArgs) (wide : Bool) (f : Cx → Nat → DWord × Fl) :
    ∃ t, (s.withCx fun c => s.laneResult c x wide (f c)) = .next t ∧ LaneForm s t c x wide (f c) :=
  ⟨_, s.withCx_of _ h.cx, laneForm_of h x wide (f c)⟩

/-- A form with a predicate pair answers a next state of its shape. -/
theorem withCx_pResult (h : Executes s c) (x : LaneArgs) (f : Cx → Nat → Bool × Bool) :
    ∃ t, (s.withCx fun c => s.predResult c x (f c)) = .next t ∧ PResult s t c x (f c) :=
  ⟨_, s.withCx_of _ h.cx, pResult_of h x (f c)⟩

/-- A result to some lanes answers a next state of its shape. -/
theorem withCx_someLanes (h : Executes s c) (x : LaneArgs) (wide : Bool) (f : Cx → Nat → Option DWord) :
    ∃ t, (s.withCx fun c => s.someResult c x wide (f c)) = .next t ∧ SomeLanes s t c x wide (f c) :=
  ⟨_, s.withCx_of _ h.cx, someLanes_of h x wide (f c)⟩

end Sys2Proof
end

