-- ==== Sys2Proof/Laws/PerInstr.lean ====
section
/-! SUPPORT. The family Shape: an instruction is the one that the opcode map and the word layouts build from its parts. -/

set_option Elab.async false

namespace Sys2Proof.Laws.Shape

/-- The opcode maps of Decode.lean give the instruction back from its class, its OP and its fields; an event has no word. -/
def Statement (i : Instr) : Prop :=
  match i.parts with
  | .lane c op x => op < 64 ∧ i.cls = some c ∧ (i.variantOk = true → (laneCtor c op x.sub).map (fun f => f x) = some i)
  | .movi x => i = .movi x
  | .mem op x => op < 64 ∧ (memCtor op).map (fun f => f x) = some i
  | .eng c op x => op < 64 ∧ i.cls = some c ∧ (i.variantOk = true → (engCtor c op x.ecf x.dimm).map (fun f => f x) = some i)
  | .ctl op g low k => op < 64 ∧ (i.wellFormed = true → ctlInstr op g low k = some i)
  | .event => encode i = none

/-! ## The CTL map, one equation for each form -/

section
variable (g : Guard) (low : BitVec 22) (c : Word)

theorem ctlInstr_0 : ctlInstr 0 g low none = some (.bra g low) := rfl
theorem ctlInstr_1 : ctlInstr 1 g low none
    = if decide (low &&& ~~~0x1FC0 = 0) then some (.jmpi g (.ofCode none ((low >>> 6).setWidth 7))) else none := rfl
theorem ctlInstr_2 : ctlInstr 2 g low none
    = if decide (low &&& ~~~0x1FC0 = 0) then some (.csw g (.ofCode none ((low >>> 6).setWidth 7))) else none := rfl
theorem ctlInstr_3 : ctlInstr 3 g low none = if decide (low &&& ~~~0 = 0) then some (.exitI g) else none := rfl
theorem ctlInstr_4 : ctlInstr 4 g low none = if decide (low &&& ~~~0xF = 0) then some (.bset g (low.setWidth 4)) else none := rfl
theorem ctlInstr_5 : ctlInstr 5 g low none = if decide (low &&& ~~~0xF = 0) then some (.bwait g (low.setWidth 4)) else none := rfl
theorem ctlInstr_5k : ctlInstr 5 g low (some c)
    = if decide (low &&& ~~~0x1FF = 0) && low.getLsbD 4 then some (.bwaitTimed g (low.setWidth 4) ((low >>> 5).setWidth 4) c) else none := rfl
theorem ctlInstr_6 : ctlInstr 6 g low none = if decide (low &&& ~~~0xF = 0) then some (.bclr g (low.setWidth 4)) else none := rfl
theorem ctlInstr_7 : ctlInstr 7 g low none = if decide (low &&& ~~~0x1F = 0) then
    some (if low.getLsbD 4 then .barArv g (low.setWidth 4) else .bar g (low.setWidth 4)) else none := rfl
theorem ctlInstr_8 : ctlInstr 8 g low none = if decide (low &&& ~~~0x17 = 0) then
    some (if low.getLsbD 4 then .cbarArv g (low.setWidth 3) else .cbar g (low.setWidth 3)) else none := rfl
theorem ctlInstr_9 : ctlInstr 9 g low none = if decide (low &&& ~~~0x1FC7 = 0) then
    some (.twait g (low.setWidth 3) (.ofCode none ((low >>> 6).setWidth 7))) else none := rfl
theorem ctlInstr_9k : ctlInstr 9 g low (some c) = if decide (low &&& ~~~0x1FC7 = 0) && decide ((low >>> 6).setWidth 7 = 0x7E#7) then
    some (.twaitImm g (low.setWidth 3) c) else none := rfl
theorem ctlInstr_10 : ctlInstr 10 g low (some c)
    = if decide (low &&& ~~~0x3FFC0 = 0) && decide (bits c 28 22 = (0x7E : BitVec 7) ∨ bits c 21 0 = (0 : BitVec 22)) then
        some (.waitw { g := g, adr := .ofCode none ((low >>> 6).setWidth 7), cmp := (low >>> 13).setWidth 3, w64 := low.getLsbD 16,
                       acq := low.getLsbD 17, scope := bits c 31 29,
                       val := .ofCode (some ((bits c 21 0 : BitVec 22).signExtend 32)) (bits c 28 22) })
      else none := rfl
theorem ctlInstr_11 : ctlInstr 11 g low none = if decide (low &&& ~~~0 = 0) then some (.yieldI g) else none := rfl
theorem ctlInstr_12 : ctlInstr 12 g low none = if decide (low &&& ~~~0 = 0) then some (.nop g) else none := rfl
end

theorem reg_v (r : BitVec 6) : Src.ofCode none ((ctlReg (.v r) >>> 6).setWidth 7) = .v r := by revert r; decide +kernel
theorem reg_s (r : BitVec 5) : Src.ofCode none ((ctlReg (.s r) >>> 6).setWidth 7) = .s r := by revert r; decide +kernel

theorem ctl_bra (g : Guard) (off : BitVec 22) : Statement (.bra g off) := ⟨by decide, fun _ => ctlInstr_0 g off⟩
theorem ctl_exitI (g : Guard) : Statement (.exitI g) := ⟨by decide, fun _ => (ctlInstr_3 g 0).trans rfl⟩
theorem ctl_yieldI (g : Guard) : Statement (.yieldI g) := ⟨by decide, fun _ => (ctlInstr_11 g 0).trans rfl⟩
theorem ctl_nop (g : Guard) : Statement (.nop g) := ⟨by decide, fun _ => (ctlInstr_12 g 0).trans rfl⟩

theorem wf_opnd {i : Instr} (h : i.wellFormed = true) : i.opndOk = true := by
  simp only [Instr.wellFormed, Bool.and_eq_true] at h
  exact h.1.2

theorem false_of {p : Prop} (h : false = true) : p := by simp at h

theorem low_reg (a : Src) (h : (∃ r, a = .v r) ∨ ∃ r, a = .s r) : decide (ctlReg a &&& ~~~0x1FC0 = 0) = true := by
  have hv : ∀ r : BitVec 6, decide (ctlReg (.v r) &&& ~~~0x1FC0 = 0) = true := by decide +kernel
  have hs : ∀ r : BitVec 5, decide (ctlReg (.s r) &&& ~~~0x1FC0 = 0) = true := by decide +kernel
  obtain ⟨r, rfl⟩ | ⟨r, rfl⟩ := h
  · exact hv r
  · exact hs r

theorem ctl_jmpi (g : Guard) (a : Src) : Statement (.jmpi g a) := by
  refine ⟨by decide, fun h => ?_⟩
  have ho := wf_opnd h
  match a, ho with
  | .v r, _ => rw [ctlInstr_1, low_reg _ (.inl ⟨r, rfl⟩), reg_v]; rfl
  | .s r, _ => rw [ctlInstr_1, low_reg _ (.inr ⟨r, rfl⟩), reg_s]; rfl
  | .x _, ho => exact false_of ho
  | .zero, ho => exact false_of ho
  | .lane, ho => exact false_of ho
  | .imm _, ho => exact false_of ho
  | .rsv _, ho => exact false_of ho

theorem ctl_csw (g : Guard) (a : Src) : Statement (.csw g a) := by
  refine ⟨by decide, fun h => ?_⟩
  have ho := wf_opnd h
  match a, ho with
  | .v r, _ => rw [ctlInstr_2, low_reg _ (.inl ⟨r, rfl⟩), reg_v]; rfl
  | .s _, ho => exact false_of ho
  | .x _, ho => exact false_of ho
  | .zero, ho => exact false_of ho
  | .lane, ho => exact false_of ho
  | .imm _, ho => exact false_of ho
  | .rsv _, ho => exact false_of ho

theorem low4 (n : BitVec 4) : decide ((n.setWidth 22 : BitVec 22) &&& ~~~0xF = 0) = true ∧ (n.setWidth 22 : BitVec 22).setWidth 4 = n := by
  revert n; decide +kernel

theorem low5 (n : BitVec 4) : (decide ((n.setWidth 22 : BitVec 22) &&& ~~~0x1F = 0) = true ∧ (n.setWidth 22 : BitVec 22).setWidth 4 = n
    ∧ (n.setWidth 22 : BitVec 22).getLsbD 4 = false) ∧ (decide ((n.setWidth 22 ||| 0x10 : BitVec 22) &&& ~~~0x1F = 0) = true
    ∧ (n.setWidth 22 ||| 0x10 : BitVec 22).setWidth 4 = n ∧ (n.setWidth 22 ||| 0x10 : BitVec 22).getLsbD 4 = true) := by
  revert n; decide +kernel

theorem low3 (n : BitVec 3) : (decide ((n.setWidth 22 : BitVec 22) &&& ~~~0x17 = 0) = true ∧ (n.setWidth 22 : BitVec 22).setWidth 3 = n
    ∧ (n.setWidth 22 : BitVec 22).getLsbD 4 = false) ∧ (decide ((n.setWidth 22 ||| 0x10 : BitVec 22) &&& ~~~0x17 = 0) = true
    ∧ (n.setWidth 22 ||| 0x10 : BitVec 22).setWidth 3 = n ∧ (n.setWidth 22 ||| 0x10 : BitVec 22).getLsbD 4 = true) := by
  revert n; decide +kernel

theorem ctl_bset (g : Guard) (bn : BitVec 4) : Statement (.bset g bn) := by
  refine ⟨by decide, fun _ => ?_⟩
  simp only [ctlInstr_4, (low4 bn).1, (low4 bn).2, if_true]

theorem ctl_bwait (g : Guard) (bn : BitVec 4) : Statement (.bwait g bn) := by
  refine ⟨by decide, fun _ => ?_⟩
  simp only [ctlInstr_5, (low4 bn).1, (low4 bn).2, if_true]

theorem ctl_bclr (g : Guard) (bn : BitVec 4) : Statement (.bclr g bn) := by
  refine ⟨by decide, fun _ => ?_⟩
  simp only [ctlInstr_6, (low4 bn).1, (low4 bn).2, if_true]

theorem timed_low (bn pp : BitVec 4) : (decide ((bn.setWidth 22 ||| 0x10 ||| pp.setWidth 22 <<< 5 : BitVec 22) &&& ~~~0x1FF = 0) = true
    ∧ (bn.setWidth 22 ||| 0x10 ||| pp.setWidth 22 <<< 5 : BitVec 22).getLsbD 4 = true)
    ∧ (bn.setWidth 22 ||| 0x10 ||| pp.setWidth 22 <<< 5 : BitVec 22).setWidth 4 = bn
    ∧ ((bn.setWidth 22 ||| 0x10 ||| pp.setWidth 22 <<< 5 : BitVec 22) >>> 5).setWidth 4 = pp := by
  revert bn pp; decide +kernel

theorem ctl_bwaitTimed (g : Guard) (bn pp : BitVec 4) (count : Word) : Statement (.bwaitTimed g bn pp count) := by
  refine ⟨by decide, fun _ => ?_⟩
  obtain ⟨⟨h1, h2⟩, h3, h4⟩ := timed_low bn pp
  simp only [ctlInstr_5k, h1, h2, h3, h4, Bool.and_self, if_true]

theorem ctl_bar (g : Guard) (id : BitVec 4) : Statement (.bar g id) := by
  refine ⟨by decide, fun _ => ?_⟩
  obtain ⟨⟨h1, h2, h3⟩, -⟩ := low5 id
  simp only [ctlInstr_7, h1, h2, h3, if_true, Bool.false_eq_true, if_false]

theorem ctl_barArv (g : Guard) (id : BitVec 4) : Statement (.barArv g id) := by
  refine ⟨by decide, fun _ => ?_⟩
  obtain ⟨-, h1, h2, h3⟩ := low5 id
  simp only [ctlInstr_7, h1, h2, h3, if_true]

theorem ctl_cbar (g : Guard) (id : BitVec 3) : Statement (.cbar g id) := by
  refine ⟨by decide, fun _ => ?_⟩
  obtain ⟨⟨h1, h2, h3⟩, -⟩ := low3 id
  simp only [ctlInstr_8, h1, h2, h3, if_true, Bool.false_eq_true, if_false]

theorem ctl_cbarArv (g : Guard) (id : BitVec 3) : Statement (.cbarArv g id) := by
  refine ⟨by decide, fun _ => ?_⟩
  obtain ⟨-, h1, h2, h3⟩ := low3 id
  simp only [ctlInstr_8, h1, h2, h3, if_true]

theorem twait_low (ec : BitVec 3) (r : BitVec 5) :
    decide ((ec.setWidth 22 ||| ctlReg (.s r) : BitVec 22) &&& ~~~0x1FC7 = 0) = true
    ∧ (ec.setWidth 22 ||| ctlReg (.s r) : BitVec 22).setWidth 3 = ec
    ∧ Src.ofCode none (((ec.setWidth 22 ||| ctlReg (.s r) : BitVec 22) >>> 6).setWidth 7) = .s r := by
  revert ec r; decide +kernel

theorem ctl_twait (g : Guard) (ec : BitVec 3) (n : Src) : Statement (.twait g ec n) := by
  refine ⟨by decide, fun h => ?_⟩
  have ho := wf_opnd h
  match n, ho with
  | .s r, _ =>
    obtain ⟨h1, h2, h3⟩ := twait_low ec r
    rw [ctlInstr_9, h1, h2, h3]; rfl
  | .v _, ho => exact false_of ho
  | .x _, ho => exact false_of ho
  | .zero, ho => exact false_of ho
  | .lane, ho => exact false_of ho
  | .imm _, ho => exact false_of ho
  | .rsv _, ho => exact false_of ho

theorem twaitImm_low (ec : BitVec 3) :
    (decide ((ec.setWidth 22 ||| ctlReg (.imm 0) : BitVec 22) &&& ~~~0x1FC7 = 0) = true
      ∧ decide (((ec.setWidth 22 ||| ctlReg (.imm 0) : BitVec 22) >>> 6).setWidth 7 = 0x7E#7) = true)
    ∧ (ec.setWidth 22 ||| ctlReg (.imm 0) : BitVec 22).setWidth 3 = ec := by
  revert ec; decide +kernel

theorem ctl_twaitImm (g : Guard) (ec : BitVec 3) (val : Word) : Statement (.twaitImm g ec val) := by
  refine ⟨by decide, fun _ => ?_⟩
  obtain ⟨⟨h1, h2⟩, h3⟩ := twaitImm_low ec
  simp only [ctlInstr_9k, h1, h2, h3, Bool.and_self, if_true]

/-- The fields of a WAITW word. -/
theorem waitw_low (x : WaitwArgs) (r : BitVec 5) (hr : x.adr = .s r) :
    decide (waitwLow x &&& ~~~0x3FFC0 = 0) = true ∧ Src.ofCode none ((waitwLow x >>> 6).setWidth 7) = .s r
    ∧ (waitwLow x >>> 13).setWidth 3 = x.cmp ∧ (waitwLow x).getLsbD 16 = x.w64 ∧ (waitwLow x).getLsbD 17 = x.acq := by
  have hc : (ctlReg (.s r) : BitVec 22) = (Src.code (.s r)).setWidth 22 <<< 6 := rfl
  have kr : ∀ q : BitVec 5, Src.ofCode none (Src.code (.s q)) = .s q := by decide +kernel
  have hw : waitwLow x = (Src.code (.s r)).setWidth 22 <<< 6 ||| (x.cmp.setWidth 22 <<< 13) ||| ((BitVec.ofBool x.w64).setWidth 22 <<< 16)
      ||| ((BitVec.ofBool x.acq).setWidth 22 <<< 17) := by rw [waitwLow, hr, hc]
  have hq : ∀ q : BitVec 7, let w := (q.setWidth 22 <<< 6 ||| (x.cmp.setWidth 22 <<< 13) ||| ((BitVec.ofBool x.w64).setWidth 22 <<< 16)
      ||| ((BitVec.ofBool x.acq).setWidth 22 <<< 17) : BitVec 22)
      w &&& ~~~0x3FFC0 = 0 ∧ (w >>> 6).setWidth 7 = q ∧ (w >>> 13).setWidth 3 = x.cmp ∧ w.getLsbD 16 = x.w64 ∧ w.getLsbD 17 = x.acq := by
    intro q
    refine ⟨?_, ?_, ?_, ?_, ?_⟩
    · apply BitVec.eq_of_getLsbD_eq; intro i hi
      interval_cases i <;> simp
    · apply BitVec.eq_of_getLsbD_eq; intro i hi
      interval_cases i <;> simp
    · apply BitVec.eq_of_getLsbD_eq; intro i hi
      interval_cases i <;> simp
    · simp
    · simp
  obtain ⟨h1, h2, h3, h4, h5⟩ := hq (Src.code (.s r))
  rw [← hw] at h1 h2 h3 h4 h5
  exact ⟨by rw [h1]; rfl, by rw [h2, kr r], h3, h4, h5⟩

theorem bits_lsb (w : Word) (hi lo i : Nat) : (bits w hi lo).getLsbD i = (decide (i < hi - lo + 1) && w.getLsbD (lo + i)) := by
  simp [bits]

theorem waitw_cont (sc : BitVec 3) (vc : BitVec 7) (im : BitVec 22) :
    let w : Word := (sc.setWidth 32 <<< 29) ||| (vc.setWidth 32 <<< 22) ||| im.setWidth 32
    bits w 31 29 = sc ∧ bits w 28 22 = vc ∧ bits w 21 0 = im := by
  refine ⟨?_, ?_, ?_⟩ <;> apply BitVec.eq_of_getLsbD_eq <;> intro i hi
  · simp only [bits_lsb, BitVec.getLsbD_or, BitVec.getLsbD_shiftLeft, BitVec.getLsbD_setWidth]
    have h : i < 3 := hi
    have e1 : vc.getLsbD (29 + i - 22) = false := BitVec.getLsbD_of_ge _ _ (by omega)
    have e2 : im.getLsbD (29 + i) = false := BitVec.getLsbD_of_ge _ _ (by omega)
    have e3 : 29 + i - 29 = i := by omega
    have a1 : i < 31 - 29 + 1 := by omega
    have a2 : 29 + i < 32 := by omega
    have a3 : ¬ 29 + i < 29 := by omega
    have a4 : i < 32 := by omega
    simp [e1, e2, e3, a2, a4, h]
  · simp only [bits_lsb, BitVec.getLsbD_or, BitVec.getLsbD_shiftLeft, BitVec.getLsbD_setWidth]
    have h : i < 7 := hi
    have a3 : 22 + i < 29 := by omega
    have a2 : 22 + i < 32 := by omega
    have a4 : i < 32 := by omega
    simp [a2, a3, a4, h]
  · simp only [bits_lsb, BitVec.getLsbD_or, BitVec.getLsbD_shiftLeft, BitVec.getLsbD_setWidth]
    have h : i < 22 := hi
    have a2 : 0 + i < 29 := by omega
    have a3 : 0 + i < 32 := by omega
    have a4 : i < 32 := by omega
    have a5 : i < 29 := by omega
    simp [a4, a5, h]

theorem val_s (r : BitVec 5) (im : Word) : Src.ofCode (some im) (Src.code (.s r)) = .s r ∧ Src.code (.s r) ≠ 0x7E := by
  have k : (Src.code (.s r)).toNat = 64 + r.toNat := by revert r; decide +kernel
  have k2 : (Src.code (.s r)).setWidth 5 = r := by revert r; decide +kernel
  have hr := r.isLt
  constructor
  · simp only [Src.ofCode, k]
    rw [if_neg (by omega), if_pos (by omega), k2]
  · intro h
    have : (Src.code (.s r)).toNat = 126 := by rw [h]; rfl
    omega

theorem ctl_waitw (x : WaitwArgs) : Statement (.waitw x) := by
  refine ⟨by decide, fun h => ?_⟩
  have ho : ((match x.adr with | .s r => !r.getLsbD 0 | _ => false)
      && (match x.val with
          | .s r => !x.w64 || !r.getLsbD 0
          | .zero => true
          | .imm v => decide (v = (v.setWidth 22).signExtend 32)
          | _ => false)) = true := wf_opnd h
  rw [Bool.and_eq_true] at ho
  obtain ⟨ha, hv⟩ := ho
  cases hadr : x.adr <;> simp [hadr] at ha
  next r =>
    obtain ⟨h1, h2, h3, h4, h5⟩ := waitw_low x r hadr
    have fin : ∀ (sc : BitVec 3) (v : Src), sc = x.scope → v = x.val → ({ g := x.g, adr := .s r, cmp := x.cmp, w64 := x.w64, acq := x.acq, scope := sc, val := v } : WaitwArgs) = x := by
      rintro _ _ rfl rfl
      rw [← hadr]
    cases hval : x.val <;> simp [hval] at hv
    · next q =>
      obtain ⟨c1, c2, c3⟩ := waitw_cont x.scope (Src.code (.s q)) 0
      have hc : waitwCont x = (x.scope.setWidth 32 <<< 29) ||| ((Src.code (.s q)).setWidth 32 <<< 22) ||| (0 : BitVec 22).setWidth 32 := by
        simp [waitwCont, hval]
      simp only [ctlInstr_10, hc, c1, c2, c3, h1, h2, h3, h4, h5, (val_s q _).1, fin _ _ rfl hval.symm]
      simp
    · obtain ⟨c1, c2, c3⟩ := waitw_cont x.scope 0x64 0
      have hc : waitwCont x = (x.scope.setWidth 32 <<< 29) ||| ((0x64 : BitVec 7).setWidth 32 <<< 22) ||| (0 : BitVec 22).setWidth 32 := by
        simp [waitwCont, hval, Src.code]
      have hz : Src.ofCode (some ((0 : BitVec 22).signExtend 32)) 0x64 = .zero := by decide
      simp only [ctlInstr_10, hc, c1, c2, c3, h1, h2, h3, h4, h5, hz, fin _ _ rfl hval.symm]
      simp
    · next v =>
      obtain ⟨c1, c2, c3⟩ := waitw_cont x.scope 0x7E (v.setWidth 22)
      have hc : waitwCont x = (x.scope.setWidth 32 <<< 29) ||| ((0x7E : BitVec 7).setWidth 32 <<< 22) ||| (v.setWidth 22).setWidth 32 := by
        simp [waitwCont, hval, Src.code]
      have hz : ∀ u : Word, Src.ofCode (some u) 0x7E = .imm u := fun _ => rfl
      have hvv : x.val = .imm ((v.setWidth 22).signExtend 32) := by rw [hval, ← hv]
      simp only [ctlInstr_10, hc, c1, c2, c3, h1, h2, h3, h4, h5, hz, fin _ _ rfl hvv.symm]
      simp

/-! ## One lemma for each constructor -/

theorem iadd (x : LaneArgs) : Statement (.iadd x) := ⟨by decide, rfl, fun _ => rfl⟩
theorem isub (x : LaneArgs) : Statement (.isub x) := ⟨by decide, rfl, fun _ => rfl⟩
theorem imul (x : LaneArgs) : Statement (.imul x) := ⟨by decide, rfl, fun _ => rfl⟩
theorem imulh (x : LaneArgs) : Statement (.imulh x) := ⟨by decide, rfl, fun _ => rfl⟩
theorem umulh (x : LaneArgs) : Statement (.umulh x) := ⟨by decide, rfl, fun _ => rfl⟩
theorem imad (x : LaneArgs) : Statement (.imad x) := ⟨by decide, rfl, fun _ => rfl⟩
theorem imin (x : LaneArgs) : Statement (.imin x) := ⟨by decide, rfl, fun _ => rfl⟩
theorem imax (x : LaneArgs) : Statement (.imax x) := ⟨by decide, rfl, fun _ => rfl⟩
theorem umin (x : LaneArgs) : Statement (.umin x) := ⟨by decide, rfl, fun _ => rfl⟩
theorem umax (x : LaneArgs) : Statement (.umax x) := ⟨by decide, rfl, fun _ => rfl⟩
theorem iabs (x : LaneArgs) : Statement (.iabs x) := ⟨by decide, rfl, fun _ => rfl⟩
theorem andI (x : LaneArgs) : Statement (.andI x) := ⟨by decide, rfl, fun _ => rfl⟩
theorem orI (x : LaneArgs) : Statement (.orI x) := ⟨by decide, rfl, fun _ => rfl⟩
theorem xorI (x : LaneArgs) : Statement (.xorI x) := ⟨by decide, rfl, fun _ => rfl⟩
theorem andn (x : LaneArgs) : Statement (.andn x) := ⟨by decide, rfl, fun _ => rfl⟩
theorem shl (x : LaneArgs) : Statement (.shl x) := ⟨by decide, rfl, fun _ => rfl⟩
theorem shr (x : LaneArgs) : Statement (.shr x) := ⟨by decide, rfl, fun _ => rfl⟩
theorem sar (x : LaneArgs) : Statement (.sar x) := ⟨by decide, rfl, fun _ => rfl⟩
theorem bfe (x : LaneArgs) : Statement (.bfe x) := ⟨by decide, rfl, fun _ => rfl⟩
theorem bfi (x : LaneArgs) : Statement (.bfi x) := ⟨by decide, rfl, fun _ => rfl⟩
theorem popc (x : LaneArgs) : Statement (.popc x) := ⟨by decide, rfl, fun _ => rfl⟩
theorem clz (x : LaneArgs) : Statement (.clz x) := ⟨by decide, rfl, fun _ => rfl⟩
theorem brev (x : LaneArgs) : Statement (.brev x) := ⟨by decide, rfl, fun _ => rfl⟩
theorem sel (x : LaneArgs) : Statement (.sel x) := ⟨by decide, rfl, fun _ => rfl⟩
theorem mov (x : LaneArgs) : Statement (.mov x) := ⟨by decide, rfl, fun _ => rfl⟩
theorem movi (x : MoviArgs) : Statement (.movi x) := rfl
theorem iadd2 (x : LaneArgs) : Statement (.iadd2 x) := ⟨by decide, rfl, fun _ => rfl⟩
theorem isub2 (x : LaneArgs) : Statement (.isub2 x) := ⟨by decide, rfl, fun _ => rfl⟩
theorem imin2 (x : LaneArgs) : Statement (.imin2 x) := ⟨by decide, rfl, fun _ => rfl⟩
theorem imax2 (x : LaneArgs) : Statement (.imax2 x) := ⟨by decide, rfl, fun _ => rfl⟩
theorem iadds2 (x : LaneArgs) : Statement (.iadds2 x) := ⟨by decide, rfl, fun _ => rfl⟩
theorem isubs2 (x : LaneArgs) : Statement (.isubs2 x) := ⟨by decide, rfl, fun _ => rfl⟩
theorem fadd (x : LaneArgs) : Statement (.fadd x) := ⟨by decide, rfl, fun _ => rfl⟩
theorem fsub (x : LaneArgs) : Statement (.fsub x) := ⟨by decide, rfl, fun _ => rfl⟩
theorem fmul (x : LaneArgs) : Statement (.fmul x) := ⟨by decide, rfl, fun _ => rfl⟩
theorem ffma (x : LaneArgs) : Statement (.ffma x) := ⟨by decide, rfl, fun _ => rfl⟩
theorem fmin (x : LaneArgs) : Statement (.fmin x) := ⟨by decide, rfl, fun _ => rfl⟩
theorem fmax (x : LaneArgs) : Statement (.fmax x) := ⟨by decide, rfl, fun _ => rfl⟩
theorem fadd2 (x : LaneArgs) : Statement (.fadd2 x) := ⟨by decide, rfl, fun _ => rfl⟩
theorem fmul2 (x : LaneArgs) : Statement (.fmul2 x) := ⟨by decide, rfl, fun _ => rfl⟩
theorem ffma2 (x : LaneArgs) : Statement (.ffma2 x) := ⟨by decide, rfl, fun _ => rfl⟩
theorem hadd2 (x : LaneArgs) : Statement (.hadd2 x) := ⟨by decide, rfl, fun _ => rfl⟩
theorem hmul2 (x : LaneArgs) : Statement (.hmul2 x) := ⟨by decide, rfl, fun _ => rfl⟩
theorem hfma2 (x : LaneArgs) : Statement (.hfma2 x) := ⟨by decide, rfl, fun _ => rfl⟩
theorem badd2 (x : LaneArgs) : Statement (.badd2 x) := ⟨by decide, rfl, fun _ => rfl⟩
theorem bmul2 (x : LaneArgs) : Statement (.bmul2 x) := ⟨by decide, rfl, fun _ => rfl⟩
theorem bfma2 (x : LaneArgs) : Statement (.bfma2 x) := ⟨by decide, rfl, fun _ => rfl⟩
theorem dadd (x : LaneArgs) : Statement (.dadd x) := ⟨by decide, rfl, fun _ => rfl⟩
theorem dmul (x : LaneArgs) : Statement (.dmul x) := ⟨by decide, rfl, fun _ => rfl⟩
theorem dfma (x : LaneArgs) : Statement (.dfma x) := ⟨by decide, rfl, fun _ => rfl⟩
theorem icmp (x : LaneArgs) : Statement (.icmp x) := ⟨by decide, rfl, fun _ => rfl⟩
theorem ucmp (x : LaneArgs) : Statement (.ucmp x) := ⟨by decide, rfl, fun _ => rfl⟩
theorem fcmp (x : LaneArgs) : Statement (.fcmp x) := ⟨by decide, rfl, fun _ => rfl⟩
theorem hcmp2 (x : LaneArgs) : Statement (.hcmp2 x) := ⟨by decide, rfl, fun _ => rfl⟩
theorem dcmp (x : LaneArgs) : Statement (.dcmp x) := ⟨by decide, rfl, fun _ => rfl⟩
theorem pand (x : LaneArgs) : Statement (.pand x) := ⟨by decide, rfl, fun _ => rfl⟩
theorem por (x : LaneArgs) : Statement (.por x) := ⟨by decide, rfl, fun _ => rfl⟩
theorem pxor (x : LaneArgs) : Statement (.pxor x) := ⟨by decide, rfl, fun _ => rfl⟩
theorem pset (x : LaneArgs) : Statement (.pset x) := ⟨by decide, rfl, fun _ => rfl⟩
theorem pmovTo (x : LaneArgs) : Statement (.pmovTo x) := by
  refine ⟨by decide, rfl, fun h => ?_⟩
  simp [Instr.variantOk] at h
  simp [laneCtor, h]
theorem pmovFrom (x : LaneArgs) : Statement (.pmovFrom x) := by
  refine ⟨by decide, rfl, fun h => ?_⟩
  simp [Instr.variantOk] at h
  simp [laneCtor, h]
theorem vote (x : LaneArgs) : Statement (.vote x) := ⟨by decide, rfl, fun _ => rfl⟩
theorem shfl (x : LaneArgs) : Statement (.shfl x) := ⟨by decide, rfl, fun _ => rfl⟩
theorem qswp (x : LaneArgs) : Statement (.qswp x) := ⟨by decide, rfl, fun _ => rfl⟩
theorem qbcst (x : LaneArgs) : Statement (.qbcst x) := ⟨by decide, rfl, fun _ => rfl⟩
theorem scan (x : LaneArgs) : Statement (.scan x) := ⟨by decide, rfl, fun _ => rfl⟩
theorem redw (x : LaneArgs) : Statement (.redw x) := ⟨by decide, rfl, fun _ => rfl⟩
theorem matchI (x : LaneArgs) : Statement (.matchI x) := ⟨by decide, rfl, fun _ => rfl⟩
theorem flgrd (x : LaneArgs) : Statement (.flgrd x) := ⟨by decide, rfl, fun _ => rfl⟩
theorem flgclr (x : LaneArgs) : Statement (.flgclr x) := ⟨by decide, rfl, fun _ => rfl⟩
theorem sreg (x : LaneArgs) : Statement (.sreg x) := ⟨by decide, rfl, fun _ => rfl⟩
theorem rcp (x : LaneArgs) : Statement (.rcp x) := ⟨by decide, rfl, fun _ => rfl⟩
theorem rsq (x : LaneArgs) : Statement (.rsq x) := ⟨by decide, rfl, fun _ => rfl⟩
theorem sqrt (x : LaneArgs) : Statement (.sqrt x) := ⟨by decide, rfl, fun _ => rfl⟩
theorem exp2 (x : LaneArgs) : Statement (.exp2 x) := ⟨by decide, rfl, fun _ => rfl⟩
theorem log2 (x : LaneArgs) : Statement (.log2 x) := ⟨by decide, rfl, fun _ => rfl⟩
theorem sinp (x : LaneArgs) : Statement (.sinp x) := ⟨by decide, rfl, fun _ => rfl⟩
theorem cosp (x : LaneArgs) : Statement (.cosp x) := ⟨by decide, rfl, fun _ => rfl⟩
theorem tanh (x : LaneArgs) : Statement (.tanh x) := ⟨by decide, rfl, fun _ => rfl⟩
theorem cvt (x : LaneArgs) : Statement (.cvt x) := ⟨by decide, rfl, fun _ => rfl⟩
theorem cvtp (x : LaneArgs) : Statement (.cvtp x) := ⟨by decide, rfl, fun _ => rfl⟩
theorem qenc (x : LaneArgs) : Statement (.qenc x) := ⟨by decide, rfl, fun _ => rfl⟩
theorem qdec (x : LaneArgs) : Statement (.qdec x) := ⟨by decide, rfl, fun _ => rfl⟩
theorem ld (x : MemArgs) : Statement (.ld x) := ⟨by decide, rfl⟩
theorem st (x : MemArgs) : Statement (.st x) := ⟨by decide, rfl⟩
theorem lds (x : MemArgs) : Statement (.lds x) := ⟨by decide, rfl⟩
theorem sts (x : MemArgs) : Statement (.sts x) := ⟨by decide, rfl⟩
theorem atom (x : MemArgs) : Statement (.atom x) := ⟨by decide, rfl⟩
theorem atoms (x : MemArgs) : Statement (.atoms x) := ⟨by decide, rfl⟩
theorem fence (x : MemArgs) : Statement (.fence x) := ⟨by decide, rfl⟩
theorem pref (x : MemArgs) : Statement (.pref x) := ⟨by decide, rfl⟩
theorem l1inv (x : MemArgs) : Statement (.l1inv x) := ⟨by decide, rfl⟩
theorem ldw (x : MemArgs) : Statement (.ldw x) := ⟨by decide, rfl⟩
theorem stw (x : MemArgs) : Statement (.stw x) := ⟨by decide, rfl⟩
theorem bra (g : Guard) (off : BitVec 22) : Statement (.bra g off) := ctl_bra g off
theorem jmpi (g : Guard) (a : Src) : Statement (.jmpi g a) := ctl_jmpi g a
theorem csw (g : Guard) (a : Src) : Statement (.csw g a) := ctl_csw g a
theorem exitI (g : Guard) : Statement (.exitI g) := ctl_exitI g
theorem bset (g : Guard) (bn : BitVec 4) : Statement (.bset g bn) := ctl_bset g bn
theorem bwait (g : Guard) (bn : BitVec 4) : Statement (.bwait g bn) := ctl_bwait g bn
theorem bwaitTimed (g : Guard) (bn : BitVec 4) (pp : BitVec 4) (count : Word) : Statement (.bwaitTimed g bn pp count) := ctl_bwaitTimed g bn pp count
theorem bclr (g : Guard) (bn : BitVec 4) : Statement (.bclr g bn) := ctl_bclr g bn
theorem bar (g : Guard) (id : BitVec 4) : Statement (.bar g id) := ctl_bar g id
theorem barArv (g : Guard) (id : BitVec 4) : Statement (.barArv g id) := ctl_barArv g id
theorem cbar (g : Guard) (id : BitVec 3) : Statement (.cbar g id) := ctl_cbar g id
theorem cbarArv (g : Guard) (id : BitVec 3) : Statement (.cbarArv g id) := ctl_cbarArv g id
theorem twait (g : Guard) (ec : BitVec 3) (n : Src) : Statement (.twait g ec n) := ctl_twait g ec n
theorem twaitImm (g : Guard) (ec : BitVec 3) (val : Word) : Statement (.twaitImm g ec val) := ctl_twaitImm g ec val
theorem waitw (x : WaitwArgs) : Statement (.waitw x) := ctl_waitw x
theorem yieldI (g : Guard) : Statement (.yieldI g) := ctl_yieldI g
theorem nop (g : Guard) : Statement (.nop g) := ctl_nop g
theorem cpy (x : EngArgs) : Statement (.cpy x) := ⟨by decide, rfl, fun _ => rfl⟩
theorem cenc (x : EngArgs) : Statement (.cenc x) := ⟨by decide, rfl, fun _ => rfl⟩
theorem cdec (x : EngArgs) : Statement (.cdec x) := ⟨by decide, rfl, fun _ => rfl⟩
theorem cpym (x : EngArgs) : Statement (.cpym x) := ⟨by decide, rfl, fun _ => rfl⟩
theorem ringp (x : EngArgs) : Statement (.ringp x) := ⟨by decide, rfl, fun _ => rfl⟩
theorem ringc (x : EngArgs) : Statement (.ringc x) := by
  refine ⟨by decide, rfl, fun h => ?_⟩
  simp [Instr.variantOk] at h
  simp [engCtor, h]
theorem ringcWait (x : EngArgs) : Statement (.ringcWait x) := by
  refine ⟨by decide, rfl, fun h => ?_⟩
  simp [Instr.variantOk] at h
  simp [engCtor, h]
theorem gangset (x : EngArgs) : Statement (.gangset x) := ⟨by decide, rfl, fun _ => rfl⟩
theorem mma (x : EngArgs) : Statement (.mma x) := ⟨by decide, rfl, fun _ => rfl⟩
theorem mmab (x : EngArgs) : Statement (.mmab x) := ⟨by decide, rfl, fun _ => rfl⟩
theorem mmv (x : EngArgs) : Statement (.mmv x) := ⟨by decide, rfl, fun _ => rfl⟩
theorem drain (x : EngArgs) : Statement (.drain x) := ⟨by decide, rfl, fun _ => rfl⟩
theorem azero (x : EngArgs) : Statement (.azero x) := ⟨by decide, rfl, fun _ => rfl⟩
theorem iord (x : EngArgs) : Statement (.iord x) := ⟨by decide, rfl, fun _ => rfl⟩
theorem launch (x : EngArgs) : Statement (.launch x) := ⟨by decide, rfl, fun _ => rfl⟩
theorem lvl (x : EngArgs) : Statement (.lvl x) := ⟨by decide, rfl, fun _ => rfl⟩
theorem rcall (x : EngArgs) : Statement (.rcall x) := ⟨by decide, rfl, fun _ => rfl⟩
theorem rread (x : EngArgs) : Statement (.rread x) := ⟨by decide, rfl, fun _ => rfl⟩
theorem rwait (x : EngArgs) : Statement (.rwait x) := ⟨by decide, rfl, fun _ => rfl⟩
theorem erst (x : EngArgs) : Statement (.erst x) := by
  refine ⟨by decide, rfl, fun h => ?_⟩
  simp [Instr.variantOk] at h
  simp [engCtor, h]
theorem erstAbort (x : EngArgs) : Statement (.erstAbort x) := by
  refine ⟨by decide, rfl, fun h => ?_⟩
  simp [Instr.variantOk] at h
  simp [engCtor, h]
theorem trapI (x : EngArgs) : Statement (.trapI x) := ⟨by decide, rfl, fun _ => rfl⟩
theorem tret (x : EngArgs) : Statement (.tret x) := ⟨by decide, rfl, fun _ => rfl⟩
theorem frgq (x : EngArgs) : Statement (.frgq x) := ⟨by decide, rfl, fun _ => rfl⟩
theorem frgsetPc (x : EngArgs) : Statement (.frgsetPc x) := by
  refine ⟨by decide, rfl, fun h => ?_⟩
  simp [Instr.variantOk] at h
  simp [engCtor, h]
theorem frgsetRem (x : EngArgs) : Statement (.frgsetRem x) := by
  refine ⟨by decide, rfl, fun h => ?_⟩
  simp [Instr.variantOk] at h
  simp [engCtor, h]
theorem frgres (x : EngArgs) : Statement (.frgres x) := by
  refine ⟨by decide, rfl, fun h => ?_⟩
  simp [Instr.variantOk] at h
  simp [engCtor, h]
theorem frgresSkip (x : EngArgs) : Statement (.frgresSkip x) := by
  refine ⟨by decide, rfl, fun h => ?_⟩
  simp [Instr.variantOk] at h
  simp [engCtor, h]
theorem frgkill (x : EngArgs) : Statement (.frgkill x) := ⟨by decide, rfl, fun _ => rfl⟩
theorem brk (x : EngArgs) : Statement (.brk x) := ⟨by decide, rfl, fun _ => rfl⟩
theorem trcmark (x : EngArgs) : Statement (.trcmark x) := ⟨by decide, rfl, fun _ => rfl⟩
theorem mapt (x : EngArgs) : Statement (.mapt x) := ⟨by decide, rfl, fun _ => rfl⟩
theorem tlrinv (x : EngArgs) : Statement (.tlrinv x) := ⟨by decide, rfl, fun _ => rfl⟩
theorem plcwDie (x : EngArgs) : Statement (.plcwDie x) := by
  refine ⟨by decide, rfl, fun h => ?_⟩
  simp [Instr.variantOk] at h
  simp [engCtor, h]
theorem plcwTgt (x : EngArgs) : Statement (.plcwTgt x) := by
  refine ⟨by decide, rfl, fun h => ?_⟩
  simp [Instr.variantOk] at h
  simp [engCtor, h]
theorem stow (x : EngArgs) : Statement (.stow x) := by
  refine ⟨by decide, rfl, fun h => ?_⟩
  simp [Instr.variantOk] at h
  simp [engCtor, h]
theorem stowClr (x : EngArgs) : Statement (.stowClr x) := by
  refine ⟨by decide, rfl, fun h => ?_⟩
  simp [Instr.variantOk] at h
  simp [engCtor, h]
theorem rsync (x : EngArgs) : Statement (.rsync x) := ⟨by decide, rfl, fun _ => rfl⟩
theorem livem (x : EngArgs) : Statement (.livem x) := by
  refine ⟨by decide, rfl, fun h => ?_⟩
  simp [Instr.variantOk] at h
  simp [engCtor, h]
theorem livemClr (x : EngArgs) : Statement (.livemClr x) := by
  refine ⟨by decide, rfl, fun h => ?_⟩
  simp [Instr.variantOk] at h
  simp [engCtor, h]
theorem clauseIssue (b w : Nat) : Statement (.clauseIssue b w) := rfl
theorem loadComplete (b w k : Nat) : Statement (.loadComplete b w k) := rfl
theorem storeAck (b w k : Nat) : Statement (.storeAck b w k) := rfl
theorem bwaitTimeout (b w : Nat) : Statement (.bwaitTimeout b w) := rfl
theorem waitwRelease (b w : Nat) : Statement (.waitwRelease b w) := rfl
theorem waitwPoll (b w : Nat) : Statement (.waitwPoll b w) := rfl
theorem warpSwap (core slice : Nat) : Statement (.warpSwap core slice) := rfl
theorem pendingStarvationSwap (core slice : Nat) : Statement (.pendingStarvationSwap core slice) := rfl
theorem commandIteration (b k tok : Nat) : Statement (.commandIteration b k tok) := rfl
theorem commandComplete (b k tok : Nat) : Statement (.commandComplete b k tok) := rfl
theorem ioRequestComplete (b k tok : Nat) (ok : Bool) (data : Payload) : Statement (.ioRequestComplete b k tok ok data) := rfl
theorem launchBatchTake (b : Nat) : Statement (.launchBatchTake b) := rfl
theorem launchBatchTimeout (b : Nat) : Statement (.launchBatchTimeout b) := rfl
theorem workQueueTake (q : Nat) : Statement (.workQueueTake q) := rfl
theorem blockPlace (grid : Nat) : Statement (.blockPlace grid) := rfl
theorem blockEnd (b : Nat) : Statement (.blockEnd b) := rfl
theorem stowThresholdExpiry (b : Nat) : Statement (.stowThresholdExpiry b) := rfl
theorem stowBegin (b : Nat) : Statement (.stowBegin b) := rfl
theorem stowComplete (b : Nat) : Statement (.stowComplete b) := rfl
theorem restoreBegin (b : Nat) : Statement (.restoreBegin b) := rfl
theorem restoreComplete (b : Nat) : Statement (.restoreComplete b) := rfl
theorem preemptRequest (c : Nat) : Statement (.preemptRequest c) := rfl
theorem preemptClear (c : Nat) : Statement (.preemptClear c) := rfl
theorem preemptComplete (c : Nat) : Statement (.preemptComplete c) := rfl
theorem contextEnable (c : Nat) : Statement (.contextEnable c) := rfl
theorem contextDisable (c : Nat) : Statement (.contextDisable c) := rfl
theorem deadlineExpiry (c : Nat) : Statement (.deadlineExpiry c) := rfl
theorem watchdogExpiry (b w : Nat) : Statement (.watchdogExpiry b w) := rfl
theorem trapRecordWrite (c : Nat) : Statement (.trapRecordWrite c) := rfl
theorem handlerBlockStart (c : Nat) : Statement (.handlerBlockStart c) := rfl
theorem trapRecordRetire (c : Nat) (rid : Word) : Statement (.trapRecordRetire c rid) := rfl
theorem trapqWrite (c : Nat) (ctl : Bool) (v : DWord) : Statement (.trapqWrite c ctl v) := rfl
theorem sequencerAssign (obj : Nat) : Statement (.sequencerAssign obj) := rfl
theorem replayInvocationStart (die : Nat) : Statement (.replayInvocationStart die) := rfl
theorem methodClauseLimit (die : Nat) : Statement (.methodClauseLimit die) := rfl
theorem replayInvocationEnd (die : Nat) : Statement (.replayInvocationEnd die) := rfl
theorem replayAppliedUpdate (die : Nat) : Statement (.replayAppliedUpdate die) := rfl
theorem rsyncReseedComplete (b w : Nat) : Statement (.rsyncReseedComplete b w) := rfl
theorem mappingChangeComplete (c : Nat) (va : DWord) (n : Nat) : Statement (.mappingChangeComplete c va n) := rfl
theorem tlrInvalidateComplete (c idx : Nat) : Statement (.tlrInvalidateComplete c idx) := rfl
theorem hostWrite (home : Option Nat) (pa : Nat) (data : Payload) : Statement (.hostWrite home pa data) := rfl
theorem hostRead (home : Option Nat) (pa n : Nat) : Statement (.hostRead home pa n) := rfl
theorem peerWrite (home : Option Nat) (pa : Nat) (data : Payload) : Statement (.peerWrite home pa data) := rfl
theorem peerRead (home : Option Nat) (pa n : Nat) : Statement (.peerRead home pa n) := rfl
theorem workQueueDoorbell (q : Nat) (tail : Word) : Statement (.workQueueDoorbell q tail) := rfl
theorem coldReset : Statement (.coldReset) := rfl
theorem warmReset : Statement (.warmReset) := rfl
theorem bringupStageComplete (err : BitVec 4) : Statement (.bringupStageComplete err) := rfl
theorem partitionApply : Statement (.partitionApply) := rfl
theorem partitionApplyForce : Statement (.partitionApplyForce) := rfl
theorem getVersion (pf : Nat) : Statement (.getVersion pf) := rfl
theorem getCapabilities (pf : Nat) : Statement (.getCapabilities pf) := rfl
theorem negotiateAlgorithms (pf : Nat) (offered : List SpdmAlg) : Statement (.negotiateAlgorithms pf offered) := rfl
theorem getDigests (pf : Nat) : Statement (.getDigests pf) := rfl
theorem getCertificate (pf slot off len : Nat) : Statement (.getCertificate pf slot off len) := rfl
theorem challenge (pf slot nonce : Nat) : Statement (.challenge pf slot nonce) := rfl
theorem getMeasurements (pf idx : Nat) : Statement (.getMeasurements pf idx) := rfl
theorem sedimentSign : Statement (.sedimentSign) := rfl
theorem sedimentSignComplete : Statement (.sedimentSignComplete) := rfl
theorem powerLimitAdjust (mhz k : Nat) : Statement (.powerLimitAdjust mhz k) := rfl
theorem dieIdleEntry (d : Nat) (deep : Bool) : Statement (.dieIdleEntry d deep) := rfl
theorem scrub (site : ErrSite) (corrected : Nat) : Statement (.scrub site corrected) := rfl
theorem laneSpare (d dir bundle : Nat) : Statement (.laneSpare d dir bundle) := rfl
theorem bundleRetrainComplete (d dir bundle : Nat) : Statement (.bundleRetrainComplete d dir bundle) := rfl
theorem dieLost (d : Nat) : Statement (.dieLost d) := rfl
theorem ualinkPortDown (p : Nat) : Statement (.ualinkPortDown p) := rfl
theorem ualinkPortUp (p : Nat) : Statement (.ualinkPortUp p) := rfl
theorem checkpointIntervalEnd (b : Nat) : Statement (.checkpointIntervalEnd b) := rfl
theorem recordedModeEnable (c : Nat) : Statement (.recordedModeEnable c) := rfl
theorem debugStep (b w f : Nat) : Statement (.debugStep b w f) := rfl
theorem debugContinue (b w f : Nat) : Statement (.debugContinue b w f) := rfl
theorem debugReachStop (b w n : Nat) : Statement (.debugReachStop b w n) := rfl
theorem debugDetach (c : Nat) : Statement (.debugDetach c) := rfl
theorem registerWrite (off size : Nat) (v : Nat) : Statement (.registerWrite off size v) := rfl
theorem linkLevelRetry (d dir : Nat) : Statement (.linkLevelRetry d dir) := rfl
theorem hostLinkRetrain (link : Nat) : Statement (.hostLinkRetrain link) := rfl

end Sys2Proof.Laws.Shape
end

