-- ==== Sys2Proof/Laws/Words.lean ====
section
/-! SUPPORT. Fields of the words that the encoder writes, as the decoder reads them: each field of each layout reads back. -/

namespace Sys2Proof

theorem bits_getLsbD (w : Word) (hi lo i : Nat) : (bits w hi lo).getLsbD i = (decide (i < hi - lo + 1) && w.getLsbD (lo + i)) := by
  simp [bits]

theorem Guard.ofCode_code (g : Guard) (h : g.wf = true) : Guard.ofCode g.code = g := by
  cases g with
  | always => rfl
  | p n =>
    simp only [Guard.wf, decide_eq_true_eq] at h
    have : n ≠ 15 := by rintro rfl; simp at h
    exact if_neg this

/-- A register, latch or constant operand reads back from its code, whatever an immediate would be. -/
theorem Src.ofCode_code (im : Option Word) (x : Src) (hi : x.isImm = false) (hr : x.isRsv = false) : Src.ofCode im x.code = x := by
  cases x with
  | v r =>
    have h : (Src.code (.v r)).toNat = r.toNat := by revert r; decide +kernel
    have h2 : (Src.code (.v r)).setWidth 6 = r := by revert r; decide +kernel
    have := r.isLt
    simp only [Src.ofCode, h, h2]
    rw [if_pos (by omega)]
  | s r =>
    have h : (Src.code (.s r)).toNat = 64 + r.toNat := by revert r; decide +kernel
    have h2 : (Src.code (.s r)).setWidth 5 = r := by revert r; decide +kernel
    have := r.isLt
    simp only [Src.ofCode, h, h2]
    rw [if_neg (by omega), if_pos (by omega)]
  | x k =>
    have h : (Src.code (.x k)).toNat = 96 + k.toNat := by revert k; decide +kernel
    have h2 : (Src.code (.x k)).setWidth 2 = k := by revert k; decide +kernel
    have := k.isLt
    simp only [Src.ofCode, h, h2]
    rw [if_neg (by omega), if_neg (by omega), if_pos (by omega)]
  | zero => rfl
  | lane => rfl
  | imm v => simp [Src.isImm] at hi
  | rsv c => simp [Src.isRsv] at hr

theorem Src.ofCode_imm (v : Word) : Src.ofCode (some v) (Src.code (.imm v)) = .imm v := rfl

/-- Only an immediate or an ill-formed operand has the code 0x7E. -/
theorem Src.code_ne_imm (x : Src) (hi : x.isImm = false) (hr : x.isRsv = false) : x.code ≠ 0x7E := by
  intro h
  have := Src.ofCode_code (some 0) x hi hr
  rw [h] at this
  subst this
  simp [Src.ofCode, Src.isImm] at hi

/-! ## First words -/

section
variable (op : Nat) (x : LaneArgs)

theorem laneWord_op : (bits (laneWord op x) 31 26).toNat = op % 64 := by
  have : bits (laneWord op x) 31 26 = BitVec.ofNat 6 op := by
    apply BitVec.eq_of_getLsbD_eq; intro i hi
    simp only [bits_getLsbD, laneWord, BitVec.getLsbD_append]
    interval_cases i <;> simp
  rw [this]; simp

theorem laneWord_g : bits (laneWord op x) 25 22 = x.g.code := by
  apply BitVec.eq_of_getLsbD_eq; intro i hi
  simp only [bits_getLsbD, laneWord, BitVec.getLsbD_append]
  interval_cases i <;> simp

theorem laneWord_n : (laneWord op x).getLsbD 21 = x.n := by simp only [laneWord, BitVec.getLsbD_append]; simp
theorem laneWord_sd : (laneWord op x).getLsbD 20 = x.sd := by simp only [laneWord, BitVec.getLsbD_append]; simp

theorem laneWord_d : bits (laneWord op x) 19 14 = x.d := by
  apply BitVec.eq_of_getLsbD_eq; intro i hi
  simp only [bits_getLsbD, laneWord, BitVec.getLsbD_append]
  interval_cases i <;> simp

theorem laneWord_a : bits (laneWord op x) 13 7 = x.a.code := by
  apply BitVec.eq_of_getLsbD_eq; intro i hi
  simp only [bits_getLsbD, laneWord, BitVec.getLsbD_append]
  interval_cases i <;> simp

theorem laneWord_b : bits (laneWord op x) 6 0 = x.b.code := by
  apply BitVec.eq_of_getLsbD_eq; intro i hi
  simp only [bits_getLsbD, laneWord, BitVec.getLsbD_append]
  interval_cases i <;> simp
end

section
variable (x : MoviArgs)

theorem moviWord_op : (bits (moviWord x) 31 26).toNat = 0x19 := by
  have : bits (moviWord x) 31 26 = 0x19#6 := by
    apply BitVec.eq_of_getLsbD_eq; intro i hi
    simp only [bits_getLsbD, moviWord, BitVec.getLsbD_append]
    interval_cases i <;> simp
  rw [this]; rfl

theorem moviWord_g : bits (moviWord x) 25 22 = x.g.code := by
  apply BitVec.eq_of_getLsbD_eq; intro i hi
  simp only [bits_getLsbD, moviWord, BitVec.getLsbD_append]
  interval_cases i <;> simp

theorem moviWord_n : (moviWord x).getLsbD 21 = x.n := by simp only [moviWord, BitVec.getLsbD_append]; simp
theorem moviWord_sd : (moviWord x).getLsbD 20 = x.sd := by simp only [moviWord, BitVec.getLsbD_append]; simp

theorem moviWord_d : bits (moviWord x) 19 14 = x.d := by
  apply BitVec.eq_of_getLsbD_eq; intro i hi
  simp only [bits_getLsbD, moviWord, BitVec.getLsbD_append]
  interval_cases i <;> simp

theorem moviWord_imm : bits (moviWord x) 13 0 = x.imm := by
  apply BitVec.eq_of_getLsbD_eq; intro i hi
  simp only [bits_getLsbD, moviWord, BitVec.getLsbD_append]
  interval_cases i <;> simp
end

section
variable (op : Nat) (x : MemArgs)

theorem memWord_op : (bits (memWord op x) 31 26).toNat = op % 64 := by
  have : bits (memWord op x) 31 26 = BitVec.ofNat 6 op := by
    apply BitVec.eq_of_getLsbD_eq; intro i hi
    simp only [bits_getLsbD, memWord, BitVec.getLsbD_append]
    interval_cases i <;> simp
  rw [this]; simp

theorem memWord_g : bits (memWord op x) 25 22 = x.g.code := by
  apply BitVec.eq_of_getLsbD_eq; intro i hi
  simp only [bits_getLsbD, memWord, BitVec.getLsbD_append]
  interval_cases i <;> simp

theorem memWord_sb : bits (memWord op x) 21 19 = x.sb := by
  apply BitVec.eq_of_getLsbD_eq; intro i hi
  simp only [bits_getLsbD, memWord, BitVec.getLsbD_append]
  interval_cases i <;> simp

theorem memWord_dat : bits (memWord op x) 18 13 = x.dat := by
  apply BitVec.eq_of_getLsbD_eq; intro i hi
  simp only [bits_getLsbD, memWord, BitVec.getLsbD_append]
  interval_cases i <;> simp

theorem memWord_adr : bits (memWord op x) 12 6 = x.adr.code := by
  apply BitVec.eq_of_getLsbD_eq; intro i hi
  simp only [bits_getLsbD, memWord, BitVec.getLsbD_append]
  interval_cases i <;> simp

theorem memWord_size : bits (memWord op x) 5 3 = x.size := by
  apply BitVec.eq_of_getLsbD_eq; intro i hi
  simp only [bits_getLsbD, memWord, BitVec.getLsbD_append]
  interval_cases i <;> simp

theorem memWord_ord : bits (memWord op x) 2 0 = x.ord := by
  apply BitVec.eq_of_getLsbD_eq; intro i hi
  simp only [bits_getLsbD, memWord, BitVec.getLsbD_append]
  interval_cases i <;> simp

theorem memCont_scope : bits (memCont x) 31 29 = x.scope := by
  apply BitVec.eq_of_getLsbD_eq; intro i hi
  simp only [bits_getLsbD, memCont, BitVec.getLsbD_append]
  interval_cases i <;> simp

theorem memCont_aop : bits (memCont x) 28 24 = x.aop := by
  apply BitVec.eq_of_getLsbD_eq; intro i hi
  simp only [bits_getLsbD, memCont, BitVec.getLsbD_append]
  interval_cases i <;> simp

theorem memCont_off : bits (memCont x) 23 0 = x.off := by
  apply BitVec.eq_of_getLsbD_eq; intro i hi
  simp only [bits_getLsbD, memCont, BitVec.getLsbD_append]
  interval_cases i <;> simp
end

section
variable (op : Nat) (x : EngArgs)

theorem engWord_op : (bits (engWord op x) 31 26).toNat = op % 64 := by
  have : bits (engWord op x) 31 26 = BitVec.ofNat 6 op := by
    apply BitVec.eq_of_getLsbD_eq; intro i hi
    simp only [bits_getLsbD, engWord, BitVec.getLsbD_append]
    interval_cases i <;> simp
  rw [this]; simp

theorem engWord_g : bits (engWord op x) 25 22 = x.g.code := by
  apply BitVec.eq_of_getLsbD_eq; intro i hi
  simp only [bits_getLsbD, engWord, BitVec.getLsbD_append]
  interval_cases i <;> simp

theorem engWord_ecf : bits (engWord op x) 21 18 = x.ecf := by
  apply BitVec.eq_of_getLsbD_eq; intro i hi
  simp only [bits_getLsbD, engWord, BitVec.getLsbD_append]
  interval_cases i <;> simp

theorem engWord_sdst : bits (engWord op x) 17 13 = x.sdst := by
  apply BitVec.eq_of_getLsbD_eq; intro i hi
  simp only [bits_getLsbD, engWord, BitVec.getLsbD_append]
  interval_cases i <;> simp

theorem engWord_dimm : bits (engWord op x) 12 0 = x.dimm := by
  apply BitVec.eq_of_getLsbD_eq; intro i hi
  simp only [bits_getLsbD, engWord, BitVec.getLsbD_append]
  interval_cases i <;> simp

theorem engCont_o1 : bits (engCont x) 31 25 = x.o1.code := by
  apply BitVec.eq_of_getLsbD_eq; intro i hi
  simp only [bits_getLsbD, engCont, BitVec.getLsbD_append]
  interval_cases i <;> simp

theorem engCont_o2 : bits (engCont x) 24 18 = x.o2.code := by
  apply BitVec.eq_of_getLsbD_eq; intro i hi
  simp only [bits_getLsbD, engCont, BitVec.getLsbD_append]
  interval_cases i <;> simp

theorem engCont_o3 : bits (engCont x) 17 11 = x.o3.code := by
  apply BitVec.eq_of_getLsbD_eq; intro i hi
  simp only [bits_getLsbD, engCont, BitVec.getLsbD_append]
  interval_cases i <;> simp

theorem engCont_o4 : bits (engCont x) 10 4 = x.o4.code := by
  apply BitVec.eq_of_getLsbD_eq; intro i hi
  simp only [bits_getLsbD, engCont, BitVec.getLsbD_append]
  interval_cases i <;> simp

theorem engCont_low : engCont x &&& 0xF = 0 := by
  apply BitVec.eq_of_getLsbD_eq; intro i hi
  simp only [engCont, BitVec.getLsbD_and, BitVec.getLsbD_append]
  interval_cases i <;> simp
end

/-! ## The third source's continuation word -/

section
variable (x : LaneArgs)

/-- The continuation of a lane-class instruction without an immediate. -/
def laneThird : Word := x.c.code ++ x.rnd ++ x.neg ++ x.abs ++ x.sub

theorem laneCont_third (ha : x.a.isImm = false) (hb : x.b.isImm = false) : laneCont x = laneThird x := by
  unfold laneCont laneThird
  cases h1 : x.a <;> cases h2 : x.b <;> simp_all [Src.isImm]

theorem laneCont_immA {v : Word} (h : x.a = .imm v) : laneCont x = v := by simp [laneCont, h]

theorem laneCont_immB {v : Word} (ha : x.a.isImm = false) (h : x.b = .imm v) : laneCont x = v := by
  unfold laneCont
  rw [h]
  cases h1 : x.a <;> simp_all [Src.isImm]

theorem laneThird_c : bits (laneThird x) 31 25 = x.c.code := by
  apply BitVec.eq_of_getLsbD_eq; intro i hi
  simp only [bits_getLsbD, laneThird, BitVec.getLsbD_append]
  interval_cases i <;> simp

theorem laneThird_rnd : bits (laneThird x) 24 22 = x.rnd := by
  apply BitVec.eq_of_getLsbD_eq; intro i hi
  simp only [bits_getLsbD, laneThird, BitVec.getLsbD_append]
  interval_cases i <;> simp

theorem laneThird_neg : bits (laneThird x) 21 19 = x.neg := by
  apply BitVec.eq_of_getLsbD_eq; intro i hi
  simp only [bits_getLsbD, laneThird, BitVec.getLsbD_append]
  interval_cases i <;> simp

theorem laneThird_abs : bits (laneThird x) 18 16 = x.abs := by
  apply BitVec.eq_of_getLsbD_eq; intro i hi
  simp only [bits_getLsbD, laneThird, BitVec.getLsbD_append]
  interval_cases i <;> simp

theorem laneThird_sub : bits (laneThird x) 15 0 = x.sub := by
  apply BitVec.eq_of_getLsbD_eq; intro i hi
  simp only [bits_getLsbD, laneThird, BitVec.getLsbD_append]
  interval_cases i <;> simp
end

/-! ## The fields of a word and its continuation -/

/-- The continuation of an instruction as `encode` gives it. -/
def contOf (c : Bool) (k : Word) : Option Word := if c then some k else none

/-- The decoder reads back every field of a lane-class instruction that the checks accept. -/
theorem laneFields_laneWord (c : Cls) (op : Nat) (x : LaneArgs) (hi : laneInstrOk c op x = true) (ho : laneOpndOk c op x = true) :
    laneFields (laneWord op x) (contOf x.cont (laneCont x)) = x := by
  unfold laneInstrOk at hi
  unfold laneOpndOk at ho
  cases hs : laneSpec c op x.sub with
  | none => simp [hs] at hi
  | some sp =>
    simp only [hs, Bool.and_assoc] at hi ho
    simp only [Bool.and_eq_true, Bool.or_eq_true, Bool.not_eq_true', decide_eq_true_eq] at hi ho
    obtain ⟨hg, -, hc, him, -⟩ := hi
    obtain ⟨ra, rb, rc, ic, iab, hz, -⟩ := ho
    obtain ⟨g, n, sd, d, a, b, cc, rnd, neg, abs, sub, cont⟩ := x
    simp only at hg hc him ra rb rc ic iab hz hs
    simp only [laneFields, laneWord_g, laneWord_n, laneWord_sd, laneWord_d, laneWord_a, laneWord_b, Guard.ofCode_code g hg]
    have hcc : Src.ofCode none cc.code = cc := Src.ofCode_code none cc ic rc
    cases hA : a.isImm
    · have ca : a.code ≠ 0x7E := Src.code_ne_imm a hA ra
      cases hB : b.isImm
      · have cb : b.code ≠ 0x7E := Src.code_ne_imm b hB rb
        cases cont
        · obtain ⟨⟨rfl, rfl, rfl, rfl, rfl⟩, -⟩ := hc.resolve_left (by simp)
          simp only [contOf, ca, cb, or_self, if_false, Bool.false_eq_true, Option.getD_none, Src.ofCode_code none a hA ra, Src.ofCode_code none b hB rb]
          rfl
        · simp only [contOf, ca, cb, or_self, if_false, if_true, Option.getD_some]
          rw [laneCont_third _ hA hB]
          simp only [laneThird_c, laneThird_rnd, laneThird_neg, laneThird_abs, laneThird_sub, hcc, Src.ofCode_code _ a hA ra, Src.ofCode_code _ b hB rb]
          rfl
      · cases b <;> simp only [Src.isImm, Bool.false_eq_true] at hB
        next v =>
          obtain ⟨rfl, rfl, rfl, rfl, rfl⟩ := hz.resolve_left (by simp [Src.isImm])
          cases cont
          · have := him.resolve_left (by simp)
            exact absurd rfl this.2
          · simp only [contOf, if_true]
            rw [laneCont_immB _ hA rfl]
            have e : (a.code = 0x7E ∨ (Src.imm v).code = 0x7E) = True := eq_true (.inr rfl)
            simp only [Src.ofCode_code _ a hA ra, Src.ofCode_imm, e, if_true]
            rfl
    · cases a <;> simp only [Src.isImm, Bool.false_eq_true] at hA
      next v =>
        have hB : b.isImm = false := by simpa [Src.isImm] using iab
        obtain ⟨rfl, rfl, rfl, rfl, rfl⟩ := hz.resolve_left (by simp [Src.isImm])
        cases cont
        · have := him.resolve_left (by simp)
          exact absurd rfl this.1
        · simp only [contOf, if_true]
          rw [laneCont_immA _ rfl]
          have e : ((Src.imm v).code = 0x7E ∨ b.code = 0x7E) = True := eq_true (.inl rfl)
          simp only [Src.ofCode_code _ b hB rb, Src.ofCode_imm, e, if_true]
          rfl

theorem moviFields_moviWord (x : MoviArgs) (h : x.g.wf = true) : moviFields (moviWord x) = x := by
  simp only [moviFields, moviWord_g, moviWord_n, moviWord_sd, moviWord_d, moviWord_imm, Guard.ofCode_code x.g h]

/-- The decoder reads back every field of a MEM instruction that the checks accept. -/
theorem memFields_memWord (op : Nat) (x : MemArgs) (hi : memInstrOk op x = true) (ho : memOpndOk op x = true) :
    memFields (memWord op x) (contOf x.cont (memCont x)) = x := by
  simp only [memInstrOk, memOpndOk, Bool.and_assoc] at hi ho
  simp only [Bool.and_eq_true, Bool.or_eq_true, Bool.not_eq_true', decide_eq_true_eq] at hi ho
  obtain ⟨hg, -, hc, -, -, -, -, -, hm⟩ := hi
  have had : x.adr.isImm = false ∧ x.adr.isRsv = false := by
    obtain ⟨h, -⟩ := ho
    cases hx : x.adr <;> simp only [Src.isImm, Src.isRsv, and_self, Bool.true_eq_false, and_true, and_false] <;>
    · simp only [hx] at h hm
      split at h <;> simp_all [singleBase, pairBase]
  obtain ⟨g, sb, dat, adr, size, ord, scope, aop, off, cont⟩ := x
  simp only at hg hc had
  simp only [memFields, memWord_g, memWord_sb, memWord_dat, memWord_adr, memWord_size, memWord_ord, Guard.ofCode_code g hg,
    Src.ofCode_code none adr had.1 had.2]
  cases cont
  · obtain ⟨rfl, rfl, rfl⟩ := hc.resolve_left (by simp)
    have z1 : bits 0 31 29 = 0 := by decide
    have z2 : bits 0 28 24 = 0 := by decide
    have z3 : bits 0 23 0 = 0 := by decide
    simp only [contOf, Bool.false_eq_true, if_false, Option.getD_none, z1, z2, z3, Option.isSome_none]
  · simp only [contOf, if_true, Option.getD_some, memCont_scope, memCont_aop, memCont_off]
    rfl

theorem Opk.accepts_plain {k : Opk} {x : Src} (h : k.accepts x = true) : x.isImm = false ∧ x.isRsv = false := by
  cases k <;> cases x <;> simp_all [Opk.accepts, Src.isImm, Src.isRsv]

/-- The decoder reads back every field of an ENG or SYS instruction that the checks accept. -/
theorem engFields_engWord (c : Cls) (op : Nat) (x : EngArgs) (hi : engInstrOk c op x = true) (ho : engOpndOk c op x = true) :
    engFields (engWord op x) (contOf x.cont (engCont x)) = x := by
  unfold engInstrOk at hi
  unfold engOpndOk at ho
  cases hs : engSpecOf c op x with
  | none => simp [hs] at hi
  | some sp =>
    simp only [hs, Bool.and_assoc] at hi ho
    simp only [Bool.and_eq_true, Bool.or_eq_true, Bool.not_eq_true', decide_eq_true_eq] at hi ho
    obtain ⟨hg, -, -, -, -, hc, -⟩ := hi
    obtain ⟨h1, h2, h3, h4, -⟩ := ho
    have p1 := Opk.accepts_plain h1
    have p2 := Opk.accepts_plain h2
    have p3 := Opk.accepts_plain h3
    have p4 := Opk.accepts_plain h4
    obtain ⟨g, ecf, sdst, dimm, o1, o2, o3, o4, cont⟩ := x
    simp only at hg hc p1 p2 p3 p4
    simp only [engFields, engWord_g, engWord_ecf, engWord_sdst, engWord_dimm, Guard.ofCode_code g hg]
    cases cont
    · obtain ⟨rfl, rfl, rfl, rfl⟩ := hc.resolve_left (by simp)
      have z1 : Src.ofCode none (bits 0xC993_2640 31 25) = .zero := by decide
      have z2 : Src.ofCode none (bits 0xC993_2640 24 18) = .zero := by decide
      have z3 : Src.ofCode none (bits 0xC993_2640 17 11) = .zero := by decide
      have z4 : Src.ofCode none (bits 0xC993_2640 10 4) = .zero := by decide
      simp only [contOf, Bool.false_eq_true, if_false, Option.getD_none, z1, z2, z3, z4, Option.isSome_none]
    · simp only [contOf, if_true, Option.getD_some, engCont_o1, engCont_o2, engCont_o3, engCont_o4, Src.ofCode_code none o1 p1.1 p1.2,
        Src.ofCode_code none o2 p2.1 p2.2, Src.ofCode_code none o3 p3.1 p3.2, Src.ofCode_code none o4 p4.1 p4.2]
      rfl

theorem ctlWord_op (op : Nat) (g : Guard) (low : BitVec 22) : (bits (ctlWord op g low) 31 26).toNat = op % 64 := by
  have : bits (ctlWord op g low) 31 26 = BitVec.ofNat 6 op := by
    apply BitVec.eq_of_getLsbD_eq; intro i hi
    simp only [bits_getLsbD, ctlWord, BitVec.getLsbD_append]
    interval_cases i <;> simp
  rw [this]; simp

theorem ctlWord_g (op : Nat) (g : Guard) (low : BitVec 22) : bits (ctlWord op g low) 25 22 = g.code := by
  apply BitVec.eq_of_getLsbD_eq; intro i hi
  simp only [bits_getLsbD, ctlWord, BitVec.getLsbD_append]
  interval_cases i <;> simp

theorem ctlWord_low (op : Nat) (g : Guard) (low : BitVec 22) : bits (ctlWord op g low) 21 0 = low := by
  apply BitVec.eq_of_getLsbD_eq; intro i hi
  simp only [bits_getLsbD, ctlWord, BitVec.getLsbD_append]
  interval_cases i <;> simp

end Sys2Proof
end

