-- ==== Sys2Proof/Tests/Slice0.lean ====
section
/-! SUPPORT. Tests: words written out from the encoding tables of the spec, terms that the checks refuse, worked examples of the spec, and for
every obligation with hypotheses states that meet them. -/

set_option Elab.async false
namespace Sys2Proof.Tests

open Sys2Proof Sys2Proof.Machine

/-! ## Words, field by field from R173 to R182, R185 and R192 to R256 -/

theorem test_words_alu_1 : ∀ e ∈ ([
    (0x03C08206, none, .iadd ⟨.always, false, false, 2, .v 4, .v 6, .zero, 0, 0, 0, 0, false⟩),
    (0x04508206, none, .isub ⟨.p 1, false, true, 2, .v 4, .v 6, .zero, 0, 0, 0, 0, false⟩),
    (0x0BC08206, none, .imul ⟨.always, false, false, 2, .v 4, .v 6, .zero, 0, 0, 0, 0, false⟩),
    (0x0C408206, none, .imulh ⟨.p 1, false, false, 2, .v 4, .v 6, .zero, 0, 0, 0, 0, false⟩),
    (0x13C08206, none, .umulh ⟨.always, false, false, 2, .v 4, .v 6, .zero, 0, 0, 0, 0, false⟩),
    (0x14408206, some 0x10000000, .imad ⟨.p 1, false, false, 2, .v 4, .v 6, .v 8, 0, 0, 0, 0, true⟩),
    (0x1BC08206, none, .imin ⟨.always, false, false, 2, .v 4, .v 6, .zero, 0, 0, 0, 0, false⟩),
    (0x1C408206, none, .imax ⟨.p 1, false, false, 2, .v 4, .v 6, .zero, 0, 0, 0, 0, false⟩),
    (0x23C08206, none, .umin ⟨.always, false, false, 2, .v 4, .v 6, .zero, 0, 0, 0, 0, false⟩),
    (0x24408206, none, .umax ⟨.p 1, false, false, 2, .v 4, .v 6, .zero, 0, 0, 0, 0, false⟩),
    (0x2BC08264, none, .iabs ⟨.always, false, false, 2, .v 4, .zero, .zero, 0, 0, 0, 0, false⟩),
    (0x2C408206, some 0xC8000001, .andI ⟨.p 1, false, false, 2, .v 4, .v 6, .zero, 0, 0, 0, 1, true⟩),
    (0x33C08206, none, .orI ⟨.always, false, false, 2, .v 4, .v 6, .zero, 0, 0, 0, 0, false⟩)] : List (Word × Option Word × Instr)),
    decodeWord .alu e.1 e.2.1 = .ok e.2.2 := by decide

theorem test_words_alu_2 : ∀ e ∈ ([
    (0x34408206, none, .xorI ⟨.p 1, false, false, 2, .v 4, .v 6, .zero, 0, 0, 0, 0, false⟩),
    (0x3BC08206, none, .andn ⟨.always, false, false, 2, .v 4, .v 6, .zero, 0, 0, 0, 0, false⟩),
    (0x3C408206, none, .shl ⟨.p 1, false, false, 2, .v 4, .v 6, .zero, 0, 0, 0, 0, false⟩),
    (0x43C08206, none, .shr ⟨.always, false, false, 2, .v 4, .v 6, .zero, 0, 0, 0, 0, false⟩),
    (0x4440A162, none, .sar ⟨.p 1, false, false, 2, .s 2, .x 2, .zero, 0, 0, 0, 0, false⟩),
    (0x4BC08206, none, .bfe ⟨.always, false, false, 2, .v 4, .v 6, .zero, 0, 0, 0, 0, false⟩),
    (0x4C408206, some 0x10000000, .bfi ⟨.p 1, false, false, 2, .v 4, .v 6, .v 8, 0, 0, 0, 0, true⟩),
    (0x53C08264, none, .popc ⟨.always, false, false, 2, .v 4, .zero, .zero, 0, 0, 0, 0, false⟩),
    (0x54508264, none, .clz ⟨.p 1, false, true, 2, .v 4, .zero, .zero, 0, 0, 0, 0, false⟩),
    (0x5BC08264, none, .brev ⟨.always, false, false, 2, .v 4, .zero, .zero, 0, 0, 0, 0, false⟩),
    (0x5C408206, some 0xC8000031, .sel ⟨.p 1, false, false, 2, .v 4, .v 6, .zero, 0, 0, 0, 49, true⟩),
    (0x63C08264, none, .mov ⟨.always, false, false, 2, .v 4, .zero, .zero, 0, 0, 0, 0, false⟩),
    (0x67E26ABC, none, .movi ⟨.always, true, false, 9, 0x2ABC⟩)] : List (Word × Option Word × Instr)),
    decodeWord .alu e.1 e.2.1 = .ok e.2.2 := by decide

theorem test_words_alu_3 : ∀ e ∈ ([
    (0x6BC08206, none, .iadd2 ⟨.always, false, false, 2, .v 4, .v 6, .zero, 0, 0, 0, 0, false⟩),
    (0x6C408206, none, .isub2 ⟨.p 1, false, false, 2, .v 4, .v 6, .zero, 0, 0, 0, 0, false⟩),
    (0x73C08206, none, .imin2 ⟨.always, false, false, 2, .v 4, .v 6, .zero, 0, 0, 0, 0, false⟩),
    (0x74408206, none, .imax2 ⟨.p 1, false, false, 2, .v 4, .v 6, .zero, 0, 0, 0, 0, false⟩),
    (0x7BC08206, none, .iadds2 ⟨.always, false, false, 2, .v 4, .v 6, .zero, 0, 0, 0, 0, false⟩),
    (0x7C408206, none, .isubs2 ⟨.p 1, false, false, 2, .v 4, .v 6, .zero, 0, 0, 0, 0, false⟩),
    (0x83C08206, some 0xC8E20000, .fadd ⟨.always, false, false, 2, .v 4, .v 6, .zero, 3, 4, 2, 0, true⟩),
    (0x84408206, none, .fsub ⟨.p 1, false, false, 2, .v 4, .v 6, .zero, 0, 0, 0, 0, false⟩),
    (0x8BC08206, none, .fmul ⟨.always, false, false, 2, .v 4, .v 6, .zero, 0, 0, 0, 0, false⟩),
    (0x8C408206, some 0x10000000, .ffma ⟨.p 1, false, false, 2, .v 4, .v 6, .v 8, 0, 0, 0, 0, true⟩),
    (0x93C08206, some 0xC8220004, .fmin ⟨.always, false, false, 2, .v 4, .v 6, .zero, 0, 4, 2, 4, true⟩),
    (0x94408206, some 0xC8000002, .fmax ⟨.p 1, false, false, 2, .v 4, .v 6, .zero, 0, 0, 0, 2, true⟩),
    (0x9BC08206, none, .fadd2 ⟨.always, false, false, 2, .v 4, .v 6, .zero, 0, 0, 0, 0, false⟩)] : List (Word × Option Word × Instr)),
    decodeWord .alu e.1 e.2.1 = .ok e.2.2 := by decide

theorem test_words_alu_4 : ∀ e ∈ ([
    (0x9C408206, none, .fmul2 ⟨.p 1, false, false, 2, .v 4, .v 6, .zero, 0, 0, 0, 0, false⟩),
    (0xA3C08206, some 0x10000000, .ffma2 ⟨.always, false, false, 2, .v 4, .v 6, .v 8, 0, 0, 0, 0, true⟩),
    (0xA4408206, none, .hadd2 ⟨.p 1, false, false, 2, .v 4, .v 6, .zero, 0, 0, 0, 0, false⟩),
    (0xABC08206, none, .hmul2 ⟨.always, false, false, 2, .v 4, .v 6, .zero, 0, 0, 0, 0, false⟩),
    (0xAC408206, some 0x10000000, .hfma2 ⟨.p 1, false, false, 2, .v 4, .v 6, .v 8, 0, 0, 0, 0, true⟩),
    (0xB3C08206, none, .badd2 ⟨.always, false, false, 2, .v 4, .v 6, .zero, 0, 0, 0, 0, false⟩),
    (0xB4408206, none, .bmul2 ⟨.p 1, false, false, 2, .v 4, .v 6, .zero, 0, 0, 0, 0, false⟩),
    (0xBBC08206, some 0x10000000, .bfma2 ⟨.always, false, false, 2, .v 4, .v 6, .v 8, 0, 0, 0, 0, true⟩),
    (0xBC408206, none, .dadd ⟨.p 1, false, false, 2, .v 4, .v 6, .zero, 0, 0, 0, 0, false⟩),
    (0xC3C08206, none, .dmul ⟨.always, false, false, 2, .v 4, .v 6, .zero, 0, 0, 0, 0, false⟩),
    (0xC4408206, some 0x10000000, .dfma ⟨.p 1, false, false, 2, .v 4, .v 6, .v 8, 0, 0, 0, 0, true⟩)] : List (Word × Option Word × Instr)),
    decodeWord .alu e.1 e.2.1 = .ok e.2.2 := by decide

theorem test_words_xln_1 : ∀ e ∈ ([
    (0x03C08206, some 0xC8000012, .icmp ⟨.always, false, false, 2, .v 4, .v 6, .zero, 0, 0, 0, 18, true⟩),
    (0x07C08206, some 0xC8000012, .ucmp ⟨.always, false, false, 2, .v 4, .v 6, .zero, 0, 0, 0, 18, true⟩),
    (0x0BC08206, some 0xC8140007, .fcmp ⟨.always, false, false, 2, .v 4, .v 6, .zero, 0, 2, 4, 7, true⟩),
    (0x0FC08206, some 0xC8000055, .hcmp2 ⟨.always, false, false, 2, .v 4, .v 6, .zero, 0, 0, 0, 85, true⟩),
    (0x13C08206, some 0xC8140007, .dcmp ⟨.always, false, false, 2, .v 4, .v 6, .zero, 0, 2, 4, 7, true⟩),
    (0x17C2818B, some 0xC8200000, .pand ⟨.always, false, false, 10, .v 3, .v 11, .zero, 0, 4, 0, 0, true⟩),
    (0x1BC2818B, some 0xC8200000, .por ⟨.always, false, false, 10, .v 3, .v 11, .zero, 0, 4, 0, 0, true⟩),
    (0x1FC2818B, some 0xC8200000, .pxor ⟨.always, false, false, 10, .v 3, .v 11, .zero, 0, 4, 0, 0, true⟩),
    (0x23C08264, none, .pset ⟨.always, false, false, 2, .v 4, .zero, .zero, 0, 0, 0, 0, false⟩),
    (0x27C17264, none, .pmovTo ⟨.always, false, false, 5, .zero, .zero, .zero, 0, 0, 0, 0, false⟩),
    (0x248003E4, some 0xC8005A51, .pmovFrom ⟨.p 2, false, false, 0, .v 7, .zero, .zero, 0, 0, 0, 23121, true⟩),
    (0x2BD1C2E4, some 0xC8200003, .vote ⟨.always, false, true, 7, .v 5, .zero, .zero, 0, 4, 0, 3, true⟩),
    (0x2FC08206, some 0xC8000206, .shfl ⟨.always, false, false, 2, .v 4, .v 6, .zero, 0, 0, 0, 518, true⟩)] : List (Word × Option Word × Instr)),
    decodeWord .xln e.1 e.2.1 = .ok e.2.2 := by decide

theorem test_words_xln_2 : ∀ e ∈ ([
    (0x33C08264, some 0xC8000005, .qswp ⟨.always, false, false, 2, .v 4, .zero, .zero, 0, 0, 0, 5, true⟩),
    (0x37C08206, some 0xC8000004, .qbcst ⟨.always, false, false, 2, .v 4, .v 6, .zero, 0, 0, 0, 4, true⟩),
    (0x3BC08264, some 0xC800001A, .scan ⟨.always, false, false, 2, .v 4, .zero, .zero, 0, 0, 0, 26, true⟩),
    (0x3FD08264, some 0xC8000005, .redw ⟨.always, false, true, 2, .v 4, .zero, .zero, 0, 0, 0, 5, true⟩),
    (0x43C08264, some 0xC8000001, .matchI ⟨.always, false, false, 2, .v 4, .zero, .zero, 0, 0, 0, 1, true⟩),
    (0x47C0B264, none, .flgrd ⟨.always, false, false, 2, .zero, .zero, .zero, 0, 0, 0, 0, false⟩),
    (0x4BC004E4, none, .flgclr ⟨.always, false, false, 0, .v 9, .zero, .zero, 0, 0, 0, 0, false⟩),
    (0x4FC0B264, some 0xC8000021, .sreg ⟨.always, false, false, 2, .zero, .zero, .zero, 0, 0, 0, 33, true⟩)] : List (Word × Option Word × Instr)),
    decodeWord .xln e.1 e.2.1 = .ok e.2.2 := by decide

theorem test_words_sfu : ∀ e ∈ ([
    (0x03E08264, some 0xC9240000, .rcp ⟨.always, true, false, 2, .v 4, .zero, .zero, 4, 4, 4, 0, true⟩),
    (0x07E08264, none, .rsq ⟨.always, true, false, 2, .v 4, .zero, .zero, 0, 0, 0, 0, false⟩),
    (0x0BE08264, none, .sqrt ⟨.always, true, false, 2, .v 4, .zero, .zero, 0, 0, 0, 0, false⟩),
    (0x0FE08264, none, .exp2 ⟨.always, true, false, 2, .v 4, .zero, .zero, 0, 0, 0, 0, false⟩),
    (0x13E08264, none, .log2 ⟨.always, true, false, 2, .v 4, .zero, .zero, 0, 0, 0, 0, false⟩),
    (0x17E08264, none, .sinp ⟨.always, true, false, 2, .v 4, .zero, .zero, 0, 0, 0, 0, false⟩),
    (0x1BE08264, none, .cosp ⟨.always, true, false, 2, .v 4, .zero, .zero, 0, 0, 0, 0, false⟩),
    (0x1FE08264, none, .tanh ⟨.always, true, false, 2, .v 4, .zero, .zero, 0, 0, 0, 0, false⟩),
    (0x23E08264, some 0xC8400094, .cvt ⟨.always, true, false, 2, .v 4, .zero, .zero, 1, 0, 0, 148, true⟩),
    (0x27E08206, some 0xC8900001, .cvtp ⟨.always, true, false, 2, .v 4, .v 6, .zero, 2, 2, 0, 1, true⟩),
    (0x2BE08206, none, .qenc ⟨.always, true, false, 2, .v 4, .v 6, .zero, 0, 0, 0, 0, false⟩),
    (0x2FE08264, some 0xC8000001, .qdec ⟨.always, true, false, 2, .v 4, .zero, .zero, 0, 0, 0, 1, true⟩)] : List (Word × Option Word × Instr)),
    decodeWord .sfu e.1 e.2.1 = .ok e.2.2 := by decide

theorem test_words_mem : ∀ e ∈ ([
    (0x03E911A1, some 0xA0FFFFF0, .ld ⟨.always, 5, 8, .s 6, 4, 1, 5, 0, 16777200, true⟩),
    (0x04F92094, some 0x40000000, .st ⟨.p 3, 7, 9, .v 2, 2, 4, 2, 0, 0, true⟩),
    (0x0BC0D918, some 0x00000040, .lds ⟨.always, 0, 6, .zero, 3, 0, 0, 0, 64, true⟩),
    (0x0FF820C0, none, .sts ⟨.always, 7, 1, .v 3, 0, 0, 0, 0, 0, false⟩),
    (0x13C8909B, some 0x8A000008, .atom ⟨.always, 1, 4, .s 2, 3, 3, 4, 10, 8, true⟩),
    (0x17E0C054, some 0x2B000000, .atoms ⟨.always, 4, 6, .v 1, 2, 4, 1, 11, 0, true⟩),
    (0x1BF80003, some 0x80000000, .fence ⟨.always, 7, 0, .v 0, 0, 3, 4, 0, 0, true⟩),
    (0x1FF80080, none, .pref ⟨.always, 7, 0, .v 2, 0, 0, 0, 0, 0, false⟩),
    (0x23F8B100, none, .l1inv ⟨.always, 7, 5, .s 4, 0, 0, 0, 0, 0, false⟩),
    (0x27D15208, none, .ldw ⟨.always, 2, 10, .s 8, 1, 0, 0, 0, 0, false⟩),
    (0x2BF96310, some 0x00000004, .stw ⟨.always, 7, 11, .v 12, 2, 0, 0, 0, 4, true⟩)] : List (Word × Option Word × Instr)),
    decodeWord .mem e.1 e.2.1 = .ok e.2.2 := by decide

theorem test_words_ctl_1 : ∀ e ∈ ([
    (0x00BFFFFE, none, .bra (.p 2) 0x3FFFFE),
    (0x07C010C0, none, .jmpi .always (.s 3)),
    (0x0BC00200, none, .csw .always (.v 8)),
    (0x0C000000, none, .exitI (.p 0)),
    (0x13C00009, none, .bset .always 9),
    (0x17C00003, none, .bwait .always 3),
    (0x17C000D3, some 0x00001000, .bwaitTimed .always 3 6 0x1000),
    (0x1BC0000F, none, .bclr .always 15),
    (0x1FC00005, none, .bar .always 5),
    (0x1FC00015, none, .barArv .always 5),
    (0x23C00006, none, .cbar .always 6),
    (0x23C00017, none, .cbarArv .always 7),
    (0x27C01103, none, .twait .always 3 (.s 4))] : List (Word × Option Word × Instr)),
    decodeWord .ctl e.1 e.2.1 = .ok e.2.2 := by decide

theorem test_words_ctl_2 : ∀ e ∈ ([
    (0x27C01F82, some 0x80000001, .twaitImm .always 2 0x80000001),
    (0x2BC3B180, some 0x9FBFFFFF, .waitw ⟨.always, .s 6, 5, true, true, 4, .imm 0xFFFFFFFF⟩),
    (0x2FC00000, none, .yieldI .always),
    (0x31C00000, none, .nop (.p 7))] : List (Word × Option Word × Instr)),
    decodeWord .ctl e.1 e.2.1 = .ok e.2.2 := by decide

theorem test_words_eng_1 : ∀ e ∈ ([
    (0x03D48000, some 0x83932640, .cpy ⟨.always, 5, 4, 0, .s 1, .zero, .zero, .zero, true⟩),
    (0x07C4C000, some 0x830F2640, .cenc ⟨.always, 1, 6, 0, .s 1, .s 3, .zero, .zero, true⟩),
    (0x0BC90000, some 0x8B932640, .cdec ⟨.always, 2, 8, 0, .s 5, .zero, .zero, .zero, true⟩),
    (0x0FCD4005, some 0x830A3E40, .cpym ⟨.always, 3, 10, 5, .s 1, .s 2, .s 7, .zero, true⟩),
    (0x13C06006, some 0x93932640, .ringp ⟨.always, 0, 3, 6, .s 9, .zero, .zero, .zero, true⟩),
    (0x17C00004, some 0x932B2640, .ringc ⟨.always, 0, 0, 4, .s 9, .s 10, .zero, .zero, true⟩),
    (0x17C0000A, some 0x932B2640, .ringcWait ⟨.always, 0, 0, 10, .s 9, .s 10, .zero, .zero, true⟩),
    (0x1BC00000, some 0xC9932640, .gangset ⟨.always, 0, 0, 0, .zero, .zero, .zero, .zero, true⟩),
    (0x1FDC5235, some 0x85123940, .mma ⟨.always, 7, 2, 4661, .s 2, .s 4, .s 7, .v 20, true⟩),
    (0x23C040A5, some 0x85123E40, .mmab ⟨.always, 0, 2, 165, .s 2, .s 4, .s 7, .zero, true⟩),
    (0x27D18029, some 0x831A4490, .mmv ⟨.always, 4, 12, 41, .s 1, .s 6, .s 8, .s 9, true⟩),
    (0x2BD8401F, some 0x87932640, .drain ⟨.always, 6, 2, 31, .s 3, .zero, .zero, .zero, true⟩),
    (0x2FC44009, none, .azero ⟨.always, 1, 2, 9, .zero, .zero, .zero, .zero, false⟩)] : List (Word × Option Word × Instr)),
    decodeWord .eng e.1 e.2.1 = .ok e.2.2 := by decide

theorem test_words_eng_2 : ∀ e ∈ ([
    (0x33C88013, some 0x85123640, .iord ⟨.always, 2, 4, 19, .s 2, .s 4, .s 6, .zero, true⟩),
    (0x37CC4000, some 0x8B932640, .launch ⟨.always, 3, 2, 0, .s 5, .zero, .zero, .zero, true⟩),
    (0x3BD3C000, none, .lvl ⟨.always, 4, 30, 0, .zero, .zero, .zero, .zero, false⟩),
    (0x3FC080EA, some 0x84105100, .rcall ⟨.always, 0, 4, 234, .s 2, .v 4, .v 10, .v 16, true⟩),
    (0x43C08015, some 0x84132640, .rread ⟨.always, 0, 4, 21, .s 2, .v 4, .zero, .zero, true⟩),
    (0x47C00000, some 0x85132640, .rwait ⟨.always, 0, 0, 0, .s 2, .s 4, .zero, .zero, true⟩),
    (0x4BC06000, some 0x830A2E40, .erst ⟨.always, 0, 3, 0, .s 1, .s 2, .s 5, .zero, true⟩),
    (0x4BC06001, some 0x830A2C60, .erstAbort ⟨.always, 0, 3, 1, .s 1, .s 2, .s 5, .s 6, true⟩)] : List (Word × Option Word × Instr)),
    decodeWord .eng e.1 e.2.1 = .ok e.2.2 := by decide

theorem test_words_sys_1 : ∀ e ∈ ([
    (0x010000AB, some 0x07932640, .trapI ⟨.p 4, 0, 0, 171, .v 3, .zero, .zero, .zero, true⟩),
    (0x07C00000, some 0x87932640, .tret ⟨.always, 0, 0, 0, .s 3, .zero, .zero, .zero, true⟩),
    (0x0BC48000, some 0x87932640, .frgq ⟨.always, 1, 4, 0, .s 3, .zero, .zero, .zero, true⟩),
    (0x0FC0A000, some 0x871B2640, .frgsetPc ⟨.always, 0, 5, 0, .s 3, .s 6, .zero, .zero, true⟩),
    (0x0FC4A000, some 0x871F2640, .frgsetRem ⟨.always, 1, 5, 0, .s 3, .s 7, .zero, .zero, true⟩),
    (0x13C0A000, some 0x87932640, .frgres ⟨.always, 0, 5, 0, .s 3, .zero, .zero, .zero, true⟩),
    (0x13C4A000, some 0x87932640, .frgresSkip ⟨.always, 1, 5, 0, .s 3, .zero, .zero, .zero, true⟩),
    (0x17C0A000, some 0x87932640, .frgkill ⟨.always, 0, 5, 0, .s 3, .zero, .zero, .zero, true⟩),
    (0x1BC0005A, none, .brk ⟨.always, 0, 0, 90, .zero, .zero, .zero, .zero, false⟩),
    (0x1FC0007F, some 0x91932640, .trcmark ⟨.always, 0, 0, 127, .s 8, .zero, .zero, .zero, true⟩),
    (0x23C00000, some 0x85172640, .mapt ⟨.always, 0, 0, 0, .s 2, .s 5, .zero, .zero, true⟩),
    (0x27C000C8, none, .tlrinv ⟨.always, 0, 0, 200, .zero, .zero, .zero, .zero, false⟩),
    (0x2BC40007, some 0x83932640, .plcwDie ⟨.always, 1, 0, 7, .s 1, .zero, .zero, .zero, true⟩)] : List (Word × Option Word × Instr)),
    decodeWord .sys e.1 e.2.1 = .ok e.2.2 := by decide

theorem test_words_sys_2 : ∀ e ∈ ([
    (0x2BC8000F, some 0x83932640, .plcwTgt ⟨.always, 2, 0, 15, .s 1, .zero, .zero, .zero, true⟩),
    (0x2FC00000, none, .stow ⟨.always, 0, 0, 0, .zero, .zero, .zero, .zero, false⟩),
    (0x2FC40000, none, .stowClr ⟨.always, 1, 0, 0, .zero, .zero, .zero, .zero, false⟩),
    (0x33C0C000, some 0x85932640, .rsync ⟨.always, 0, 6, 0, .s 2, .zero, .zero, .zero, true⟩),
    (0x37C00000, some 0x85122E40, .livem ⟨.always, 0, 0, 0, .s 2, .s 4, .s 5, .zero, true⟩),
    (0x37C40000, none, .livemClr ⟨.always, 1, 0, 0, .zero, .zero, .zero, .zero, false⟩)] : List (Word × Option Word × Instr)),
    decodeWord .sys e.1 e.2.1 = .ok e.2.2 := by decide

/-! ## Terms that the checks refuse: one for each check of R183 -/

def la : LaneArgs := ⟨.always, false, false, 2, .v 4, .v 6, .zero, 0, 0, 0, 0, true⟩
def l1 : LaneArgs := { la with b := .zero }
def ma : MemArgs := ⟨.always, 5, 4, .v 2, 2, 0, 0, 0, 0, true⟩
def ea : EngArgs := ⟨.always, 0, 0, 0, .zero, .zero, .zero, .zero, true⟩
def wa : WaitwArgs := ⟨.always, .s 2, 0, true, true, 4, .s 4⟩

theorem test_wellformed_accepts : ∀ i ∈ [Instr.iadd la, .popc l1, .icmp la, .flgclr { l1 with d := 0 }, .movi ⟨.p 11, false, true, 31, 0x3FFF⟩, .ld ma,
    .sts { ma with sb := 7, adr := .v 3 }, .lvl { ea with cont := false }, .trapI { ea with o1 := .v 3 }, .bwaitTimed .always 3 10 0, .waitw wa],
    i.wellFormed = true := by decide

theorem test_lane_fields_refused : ∀ i ∈ [Instr.iadd { la with g := .p 12 }, .iadd { la with sub := 2 }, .imad { la with sub := 3 },
    .imad { la with cont := false }, .iadd { la with neg := 1, cont := false }, .iadd { la with b := .imm 1, cont := false },
    .iadd { la with rnd := 1 }, .fadd { la with rnd := 5 }, .fadd { la with neg := 1 }, .fadd { la with abs := 1 }, .icmp { la with neg := 4 },
    .sreg { la with b := .zero }, .popc la, .iadd { la with c := .v 8 }, .shfl { la with sd := true }, .pand { la with a := .v 12, b := .v 3 },
    .por { la with a := .v 3, b := .v 12 }, .icmp { la with d := 3 }, .icmp { la with d := 12 }, .flgclr { l1 with d := 1 },
    .cvt { l1 with sub := 0x00C }, .vote { l1 with sub := 4 }, .sreg { l1 with a := .zero, sub := 0x11 }, .pmovTo { l1 with a := .zero, sub := 1 }],
    i.wellFormed = false := by decide

theorem test_lane_operands_refused : ∀ i ∈ [Instr.iadd { la with a := .rsv 0x66 }, .iadd { la with b := .rsv 0x7D }, .ffma { la with c := .rsv 0x7F },
    .ffma { la with c := .imm 0 }, .iadd { la with a := .imm 1, b := .imm 1 }, .fadd { la with b := .imm 1, neg := 4 }, .iadd { la with sd := true, d := 32 },
    .dadd { la with a := .v 5 }, .dadd { la with b := .s 5 }, .dfma { la with c := .v 5 }, .dadd { la with d := 3 },
    .movi ⟨.always, false, true, 32, 0⟩, .movi ⟨.p 13, false, false, 0, 0⟩], i.wellFormed = false := by decide

theorem test_mem_refused : ∀ i ∈ [Instr.ld { ma with g := .p 14 }, .ld { ma with off := 1, cont := false }, .ld { ma with sb := 6 }, .st ma, .ld { ma with size := 5 },
    .ld { ma with ord := 5 }, .ld { ma with ord := 1, scope := 6 }, .ld { ma with scope := 1 }, .ld { ma with ord := 2 }, .ld { ma with aop := 1 },
    .atom { ma with ord := 4 }, .atom { ma with ord := 4, aop := 12 }, .atom { ma with ord := 4, aop := 1, size := 1 },
    .atom { ma with ord := 4, aop := 11, size := 3 }, .atom { ma with aop := 1 }, .atoms { ma with ord := 1, aop := 1 },
    .fence { ma with sb := 7, ord := 4, dat := 0, adr := .v 0, size := 0 }, .fence { ma with sb := 7, ord := 3, dat := 1, adr := .v 0, size := 0 },
    .pref { ma with sb := 7, size := 0 }, .l1inv { ma with sb := 7, size := 1 }, .ldw { ma with ord := 1 }, .stw { ma with sb := 7, ord := 2 },
    .ld { ma with adr := .v 3 }, .lds { ma with adr := .x 0 }, .ldw { ma with adr := .zero }, .ld { ma with size := 3, dat := 5 },
    .ld { ma with size := 4, dat := 6 }, .atom { ma with ord := 4, aop := 10, dat := 5 }, .atom { ma with ord := 4, aop := 10, size := 3, dat := 6 }],
    i.wellFormed = false := by decide

theorem test_ctl_refused : ∀ i ∈ [Instr.nop (.p 12), .bwaitTimed .always 0 1 0, .bwaitTimed .always 0 12 0, .waitw { wa with cmp := 6 },
    .waitw { wa with scope := 6 }, .waitw { wa with acq := false }, .waitw { wa with adr := .s 3 }, .waitw { wa with val := .s 5 },
    .waitw { wa with val := .v 2 }, .waitw { wa with val := .imm 0x200000 }, .twait .always 0 (.s 3), .twait .always 0 (.v 2), .jmpi .always .zero,
    .csw .always (.v 3), .csw .always (.s 2)], i.wellFormed = false := by decide

theorem test_eng_refused : ∀ i ∈ [Instr.lvl { ea with g := .p 13 }, .lvl { ea with ecf := 8 }, .lvl { ea with dimm := 1 }, .mma { ea with dimm := 3, o1 := .s 2, o2 := .s 4, o3 := .s 5, o4 := .v 1 },
    .gangset { ea with cont := false }, .stow { ea with sdst := 2 }, .azero { ea with o1 := .s 1 }, .azero { ea with o4 := .s 1 }, .lvl { ea with sdst := 3 },
    .cpy { ea with o1 := .v 1 }, .rsync { ea with o1 := .s 3 }, .mma { ea with dimm := 0xF02, o1 := .s 2, o2 := .s 4, o3 := .s 5, o4 := .v 60 },
    .rcall { ea with dimm := 0x40, o1 := .s 2, o2 := .v 2, o3 := .zero, o4 := .v 4 }, .rcall { ea with dimm := 0x180, o1 := .s 2, o2 := .v 2, o3 := .v 54, o4 := .v 4 },
    .tret { ea with ecf := 1, o1 := .s 1 }, .plcwDie { ea with ecf := 1, dimm := 8, o1 := .s 1 }, .plcwTgt { ea with ecf := 1, o1 := .s 1 },
    .ringc { ea with dimm := 8, o1 := .s 1, o2 := .s 2 }, .stowClr ea, .livem { ea with ecf := 1 }], i.wellFormed = false := by decide

/-! ## Clauses (R172, R183): the worked example of R186, and its words with EXT one place off -/

theorem test_clause_store : clauseError 0x26000800 [0x053B6592, 0x80000000] = none := by decide
theorem test_clause_ext_first : clauseError 0x26000C00 [0x053B6592, 0x80000000] = some (.illegalClause, 0) := by decide
theorem test_clause_branch : clauseError 0x18000000 [0x003FFFFA] = none := by decide
theorem test_table_word : decodeTableWord 32 0x30000000 = some (.nop (.p 0)) := by decide

/-! ## A small machine: one block of one warp of 32 threads, with a clause of one word in flight -/

def fl0 : InFlight := { pc := 0, cls := .alu, ext := 0, words := [0], idx := 0, act := 0xFFFFFFFF, yld := false }
def pB : Block := probeBlock 0 .reset fl0
def pS : State := State.reset.issued .alu 0 [0]

/-- The machine with its block changed, and the executing warp there. -/
def sB (f : Block → Block) : State := pS.modBlock 0 f
def cB (f : Block → Block) : Cx := { bk := 0, wi := 0, b := f pB, w := (f pB).warp 0, fl := ((f pB).warp 0).flight.getD fl0 }
def pC : Cx := cB id

theorem executes_of {s : State} {c : Cx} (h : s.cx? = some c) (h1 : c.w.lanes.length = 32) (h2 : c.b.ecs.length = 8) : Executes s c := ⟨h, h1, h2⟩
theorem test_executes : Executes pS pC := executes_of rfl rfl rfl
theorem test_guarded : Guarded pS pC .always 0xFFFFFFFF ∧ Guarded pS pC (.p 7) 0xFFFFFFFF := ⟨⟨by decide +kernel, by decide⟩, ⟨by decide +kernel, by decide⟩⟩
/-- The block with every lane's P7 clear. -/
def dark : Block → Block := fun b => b.modWarp 0 fun w => { w with lanes := w.lanes.map fun x => { x with p := [(7, false)] } }
theorem test_no_lane : (sB dark).cx? = some (cB dark) ∧ ((cB dark).guarded (sB dark).tick (.p 7)).none = true := ⟨rfl, by decide +kernel⟩

/-! ## Hypotheses met: the machine (O1 to O10) -/

theorem test_hyp_encode : (Instr.lvl { ea with cont := false }).wellFormed = true ∧ (Instr.lvl { ea with cont := false }).hasWords = true := by decide
theorem test_hyp_reserved : clauseError 0x18000000 [0x30000000] = none ∧ Cls.ofBits (Header.ofWord 0x18000000).cls = some .ctl ∧
    (Header.ofWord 0x18000000).nw = 1 ∧ (Header.ofWord 0x18000000).ext.getLsbD 0 = false := by decide
theorem test_hyp_step : pS.inputs = .word 0 0 :: [] ∧ pS.block? 0 = some pB ∧ (pS.recording? 0).bind (·.replaying) = none ∧ ({ pS with inputs := [] } : State).mayWord pB (pB.warp 0) = true ∧
    ({ pS with inputs := [], cur := some (0, 0) } : State).cx? = some pC ∧ decodeWord .alu 0x03C40160 none = .ok (.iadd ⟨.always, false, false, 16, .v 2, .x 0, .zero, 0, 0, 0, 0, false⟩) ∧
    ∃ t, exec (.nop .always) pS = .next t := ⟨rfl, rfl, rfl, by decide +kernel, rfl, by decide, _, rfl⟩
theorem test_step_runs_table_word : step (State.reset.withFetchWord 32 0x30000000) = step (State.reset.issued .ctl 0 [0x30000000]) := by rfl
def two : Block → Block := fun b => b.modWarp 0 fun w => { w with flight := some { fl0 with words := [0x03C00000, 0x03C00000] } }
theorem test_hyp_next_word : Executes (sB two) (cB two) ∧ (cB two).fl.act.none = false ∧ (cB two).fl.idx + (cB two).fl.len (cB two).fl.idx < (cB two).fl.words.length :=
  ⟨executes_of rfl rfl rfl, by decide, by decide⟩
theorem test_hyp_sources : pC.w.busyV 5 5 = false ∧ tget (pC.w.lane 5).v 62 = some 0 ∧ tget (pC.w.lane 5).v 63 = some 0 ∧ tget pC.w.s 31 = some 0 := by decide +kernel
theorem test_hyp_invariants : MemoryOk State.reset ∧ Whole State.reset ∧ ∃ t, step { State.reset with inputs := [.elapse 1] } = .next t :=
  ⟨rfl, ⟨by decide, by decide, by decide, by decide, by decide, by decide, by decide⟩, _, rfl⟩
theorem test_hyp_host_registers : (Instr.nop .always).hasWords = true ∧ ∃ t, exec (.nop .always) pS = .next t := ⟨by decide, _, rfl⟩

/-! ## Lane instructions (O11 to O23): the executing warp, and each value of the fields that the clauses speak of -/

def lx (n : BitVec 16) : LaneArgs := { la with sub := n }

theorem test_hyp_lanes : Executes pS pC ∧ ((lx 2).sub.toNat % 4 = 2 ∧ (lx 1).sub.toNat % 4 = 1 ∧ (lx 0).sub.toNat % 4 = 0) ∧
    (lx 5).sub.toNat % 16 = 5 ∧ (lx 7).sub.toNat % 16 = 7 ∧ (lx 0x37).sub.toNat / 16 % 4 = 3 ∧ (lx 4).sub.toNat = 4 ∧ (lx 3).sub.toNat % 8 = 3 ∧
    (lx 0x1A).sub.getLsbD 4 = true ∧ (lx 2).sub.getLsbD 1 = true := ⟨test_executes, by decide⟩
theorem test_hyp_packed : (Instr.iadd2 { la with cont := false }).wellFormed = true := by decide
theorem test_hyp_rounding : Finite fp32 0x7F7FFFFF ∧ Finite fp32 0x80000000 ∧ Finite fp32 (roundFP fp32 4 ⟨true, 0xFFFFFF1, -60⟩).1 ∧
    fp16.isNaN 0x7C01 = true ∧ fp16.isInf 0xFC00 = true ∧ fp16.isZero 0x8000 = true := by
  refine ⟨⟨?_, ?_, ?_⟩, ⟨?_, ?_, ?_⟩, ⟨?_, ?_, ?_⟩, ?_, ?_, ?_⟩ <;> decide +kernel
theorem test_hyp_special_registers : (lx 0x22).sub.toNat % 256 = 0x22 ∧ pC.b.replay = none ∧ pS.recordings = [] ∧ loggedSpecial 0x21 = true ∧
    methodSpecial 0x0A = true ∧ methodSpecial 0x02 = false ∧ pS.replaying 0 = false := by decide +kernel

/-- The machine with a grid, with a recorded block that re-executes, and with its block a replay invocation. -/
def rec0 : LaunchRec := { code := 0, param := 0, done := 0, nblk := 1, nthr := 32, clus := 0, spad := 1, nacc := 1, tlrv := false, tlri := 0,
                          ecscope := List.replicate 8 1 }
def grid0 : Grid := { key := 0, ctx := 0, lrec := rec0, turn := 0, host := true, chain := false, prio := 4 }
def inv0 : RInv := { die := 0, desc := 0, pos := 0, resaddr := 0, caller := 0, entry := 0, copy := 0, size := 0 }
def meth : Block → Block := fun b => { b with replay := some inv0 }
def replays : State := { pS with recordings := [{ block := 0, checkpoint := pB, log := [], replaying := some (0, 9, [.sreg 0 [7]]) }] }
theorem test_hyp_nblock : ({ pS with grids := [grid0] } : State).grids.find? (fun g => g.key == pC.b.grid) = some grid0 := by decide
theorem test_hyp_method : Executes (sB meth) (cB meth) ∧ (cB meth).b.replay = some inv0 := ⟨executes_of rfl rfl rfl, rfl⟩
theorem test_hyp_logged : Executes replays pC ∧ (replays.logged 0 (fun e => match e with | .sreg w _ => w == 0 | _ => false)).map (·.1) = some (.sreg 0 [7]) :=
  ⟨executes_of rfl rfl rfl, by decide +kernel⟩

/-! ## Memory instructions (O24 to O29) -/

/-- The machine with page 0 translated for every access in core 0's cache, and a block whose V2:V3 holds a window address of its own core. -/
def page0 : TEntry := { asid := 0, page := 0, leaf := 0x1C, pa := 0, key := 0 }
def mapped (s : State) : State := s.modCore 0 fun k => { k with tcache := [page0] }
def sM : State := mapped pS
def ownWin : Nat := 15 * 2 ^ 36 + 7 * 2 ^ 33 + 7 * 2 ^ 30
def winB : Block → Block := fun b => b.modWarp 0 fun w =>
  { w with lanes := w.lanes.map fun x => { x with v := [(2, BitVec.ofNat 32 ownWin), (3, BitVec.ofNat 32 (ownWin / 2 ^ 32)), (4, 0)] } }

theorem test_hyp_spad : Executes pS pC ∧ Guarded pS pC .always 0xFFFFFFFF ∧ pS.recordings = [] ∧ pC.b.dbg.ren = false ∧ pC.b.spadPois = [] ∧ pC.b.rings = [] ∧
    (realOf pC 0xFFFFFFFF).none = false ∧ (∀ l, l < 32 → SpadOk pC pS { ma with size := 4, off := 0xFFF0 } l) :=
  ⟨test_executes, test_guarded.1, rfl, rfl, rfl, rfl, by decide +kernel, by unfold SpadOk; decide +kernel⟩
/-- A ring of one slot at offset 0 in use, whose slot word a store of lane 0 meets. -/
def usedRing : Block → Block := fun b => { b with rings := [0], spad := (List.range 128).map fun i => (i, if i = 64 then 1 else 0) }
theorem test_hyp_used_ring : (cB usedRing).b.ringBusy 0 = true ∧ 64 ∈ (cB usedRing).b.ringBytes 0 ∧ 11 ∈ (cB usedRing).b.ringBytes 0 ∧
    64 ≤ spadAt (cB usedRing) (sB usedRing) { ma with off := 67 } 0 + 3 ∧ (realOf (cB usedRing) 0xFFFFFFFF).has 0 = true := by decide +kernel
theorem test_hyp_global : Executes sM pC ∧ Guarded sM pC .always 0xFFFFFFFF ∧ pC.b.replay = none ∧
    (globalChecks sM pC { ma with off := 0xFFFC } 0xFFFFFFFF .read false true).2 = (List.range 32).map (fun l => (l, .ok (page0, page0))) ∧
    (globalChecks sM pC { ma with off := 0xFFFC } 0xFFFFFFFF .write true false).2 = (List.range 32).map (fun l => (l, .ok (page0, page0))) ∧
    (globalChecks sM pC { ma with aop := 11 } 0xFFFFFFFF .rmw true false).2 = (List.range 32).map (fun l => (l, .ok (page0, page0))) ∧
    isPeer page0.key = false ∧ page0.ord ≠ 1 ∧ (pC.w.loads.map (·.key)).Nodup :=
 
  ⟨executes_of rfl rfl rfl, ⟨by decide +kernel, by decide⟩, rfl, by rfl, by rfl, by rfl, by decide, by decide, by decide⟩
theorem test_all_ok {α : Type} (p : α) : AllOk ((List.range 32).map fun l => (l, (Except.ok p : Except Nat α))) := by
  intro e h
  obtain ⟨l, -, rfl⟩ := List.mem_map.mp h
  exact ⟨p, rfl⟩
theorem test_hyp_window : Executes (sB winB) (cB winB) ∧ Guarded (sB winB) (cB winB) .always 0xFFFFFFFF ∧
    ∀ l, l < 32 → (sB winB).checkWin (cB winB) ((cB winB).addrOf 0 ma l) 4 = .ok 0 :=
  ⟨executes_of rfl rfl rfl, ⟨by decide +kernel, by decide⟩, by decide +kernel⟩
def regWinB : Block → Block := fun b => b.modWarp 0 fun w =>
  { w with lanes := w.lanes.map fun x => { x with v := [(2, BitVec.ofNat 32 (ownWin + 2 ^ 27)), (3, BitVec.ofNat 32 (ownWin / 2 ^ 32)), (4, 9)] } }
theorem test_hyp_register_window : (∀ l, l < 32 → (sB regWinB).checkWin (cB regWinB) ((cB regWinB).addrOf 0 ma l) 4 = .ok 0 ∧
    isSpadWin ((cB regWinB).addrOf 0 ma l) = false) ∧ ((cB regWinB).dataBytes 0 31 4 4)[3]? = some 0 := by decide +kernel
theorem test_hyp_pref : Mask.list 0x80000000 = [31] ∧ (sM.checkPage 0 0 (pC.addrOf 0 ma 31) .read).2 = .ok page0 := ⟨by decide, rfl⟩

/-- A warp with a load that has its values, and a store to the last byte of a page. -/
def ld0 : PLoad := { pC.load 7 .lds ma [] with vals := some [(31, [1, 2, 3, 4])] }
def st0 : PStore := { key := 8, form := .st, uo := false, bytes := [{ lane := 0, va := 65535, key := 65535, b := 5 }] }
def loadB : Block → Block := fun b => b.modWarp 0 fun w => { w with loads := [ld0] }
def storeB : Block → Block := fun b => b.modWarp 0 fun w => { w with stores := [st0] }
theorem test_hyp_load_complete : (sB loadB).block? 0 = some (loadB pB) ∧ (loadB pB).resident = true ∧ ((loadB pB).warp 0).held = [] ∧
    ((loadB pB).warp 0).wstores = [] ∧ ((loadB pB).warp 0).loads.find? (fun y => decide (y.key = 7)) = some ld0 ∧ ld0.vals = some [(31, [1, 2, 3, 4])] ∧
    ld0.pois = none := ⟨rfl, rfl, rfl, rfl, rfl, rfl, rfl⟩
/-- Operations of lane 31 that are still to be performed: of the last words of a page and of a register window. -/
def ldm (form : LoadForm) (key addr : Nat) : PLoad := { pC.load 7 form ma [] with accs := [{ lane := 31, addr := addr, key := key, opnd := 0, swap := 0 }] }
def toLoad (ld : PLoad) : Block → Block := fun b => b.modWarp 0 fun w => { w with loads := [ld] }
theorem test_hyp_load_values : (let ld := ldm .ld 65536 65532
    let s := sB (toLoad ld)
    (s.block? 0).map (fun b => ((b.warp 0).held, (b.warp 0).wstores, (b.warp 0).loads)) = some ([], [], [ld]) ∧ ld.vals = none ∧ ld.size = 4 ∧
      (ld.accs.map (·.lane)).Nodup ∧ (∀ a ∈ ld.accs, a.zero = false) ∧ (s.core 0).l1 = [] ∧ (∀ y ∈ s.blocks, ∀ v ∈ y.warps, v.stores = []) ∧ s.memPoison = [] ∧
      s.l2Poison = [] ∧ ∀ a ∈ ld.accs, ∀ i, i < 4 → isOutside (a.bkey i) = false ∧ s.wh.dielost.getLsbD (keyDie (a.bkey i)) = false ∧ s.undefAt (a.bkey i) = false) ∧
    (let ld := ldm .ldw 0 (ownWin + 2 ^ 27 + 128 * 62)
     ∀ a ∈ ld.accs, ∀ i, i < 4 → (winTgt a.key (a.addr + i)).bind ((sB (toLoad ld)).winGet 0 none) = some (0, none)) := by decide +kernel
theorem test_hyp_store_ack : (sB storeB).block? 0 = some (storeB pB) ∧ ((storeB pB).warp 0).loads = [] ∧ (sB storeB).recordings = [] ∧
    ((storeB pB).warp 0).stores.find? (fun y => decide (y.key = 8)) = some st0 ∧
    (∀ o ∈ ((storeB pB).warp 0).stores, o.key < 8 → o.meets st0 = false) ∧
    ∀ y ∈ st0.bytes, isOutside y.key = false ∧ (sB storeB).wh.dielost.getLsbD (keyDie y.key) = false ∧ y.key / 128 ∉ (sB storeB).lostLines :=
  ⟨rfl, rfl, rfl, rfl, by decide, by decide⟩

/-! ## Control instructions (O32 to O35) -/

/-- A clause header with LAND at page 0. -/
def sL : State := { sM with mem := [(0, 4)] }
theorem test_hyp_branches : Executes sL pC ∧ Guarded sL pC .always 0xFFFFFFFF ∧ pC.b.dbg.trc = false ∧ sL.gangLatch pC.b 0 = none ∧
    (sL.badTargets pC (realOf pC 0x80000001) fun l => pC.b.codeBase + (Cx32 pC sL (.v 4) l).setWidth 64).2 = [] :=
  ⟨executes_of rfl rfl rfl, ⟨by decide +kernel, by decide⟩, rfl, rfl, by decide +kernel⟩

/-- Lane 0 waits on B3 with a count of 9, and the words of that cycle have run; B3's MASK is `m`, its ARR lane 0; the other lanes execute. -/
def waits (m : Mask) : Block → Block := fun b => b.modWarp 0 fun w =>
  { (w.modLane 0 fun x => { x with st := .waiting (.bwaitTimed 3 4 9), resume := (8, 0), waitClk := 10 }) with
    bars := [(3, { mask := m, arr := 1 })], flight := some { fl0 with act := 0xFFFFFFFE } }
theorem test_hyp_barriers : Executes (sB (waits 3)) (cB (waits 3)) ∧ Guarded (sB (waits 3)) (cB (waits 3)) .always 0xFFFFFFFE ∧
    ((cB (waits 3)).w.lane 0).isReal = true ∧ ((cB (waits 3)).w.lane 0).waitsOnB 3 = true ∧ (realOf (cB (waits 3)) 0xFFFFFFFE).has 0 = false ∧
    (∀ l, l < 32 → ((cB (waits 3)).w.lane l).isHelper = false) :=
  ⟨executes_of rfl rfl rfl, ⟨by decide +kernel, by decide⟩, by decide +kernel⟩
theorem test_hyp_barrier_ends : (realOf (cB (waits 3)) 0xFFFFFFFE &&& 3).none = false ∧
    (∀ l, l < 32 → (3 : Mask).has l = true → ((1 : Mask) ||| (realOf (cB (waits 3)) 0xFFFFFFFE &&& 3)).has l = true) ∧
    Guarded (sB (waits 0x80000001)) { (cB (waits 0x80000001)) with fl := { fl0 with act := 2 } } .always 2 ∧
    ((1 : Mask) ||| (realOf (cB (waits 0x80000001)) 2 &&& 0x80000001)).has 31 = false ∧ ((cB (waits 0x80000001)).w.lane 31).isExited = false := by
  refine ⟨by decide +kernel, by decide +kernel, ⟨by decide +kernel, by decide⟩, by decide +kernel, by decide +kernel⟩
theorem test_hyp_block_barriers : pC.b.replay = none ∧ pS.replaying 0 = false ∧ (realOf pC 0xFFFFFFFF).none = false ∧ pC.b.cluster = none ∧
    (pC.b.warp 0).arrived (realOf pC 0xFFFFFFFF) = true ∧ ((cB (waits 3)).b.warp 0).arrived (realOf (cB (waits 3)) 0xFFFFFFFE) = false := by decide +kernel

def wx (v : Word) : WaitwArgs := { wa with g := .always, w64 := false, val := .imm v }
theorem test_hyp_waits : Executes sM pC ∧ Guarded sM pC .always 0xFFFFFFFF ∧ sM.recordings = [] ∧ (Cx64 pC sM (.s 2) 0).toNat ≤ (pC.b.eng 7).level ∧ (pC.b.eng 7).level < (1 : Word).toNat ∧
    ((sM.checkGlobal pC (Cx64 pC sM (wx 0).adr 0).toNat 4 .read true false).2 = .ok (page0, page0)) ∧
    (let u := (sM.checkGlobal pC 0 4 .read true false).1
     let z := u.watchRead pC.b 0 4 (byteKey page0 page0 0 0)
     z.1.l2Pois pC.b.die 0 = false ∧ waitwTest 0 4 (leNat z.2) (pC.waitVal 0 (wx 0)).toNat = true ∧
     waitwTest 0 4 (leNat z.2) (pC.waitVal 0 (wx 1)).toNat = false) :=
  ⟨executes_of rfl rfl rfl, ⟨by decide +kernel, by decide⟩, rfl, by decide +kernel, by decide +kernel, rfl, by decide +kernel⟩

/-- Page tables for die 0 alone: page 0 is device page 1, page 1 is host page 0, both for every access; the tables stand in device page 0. -/
def tables : Memory := [(0, 1), (1, 0x10), (4096, 1), (4097, 0x20), (8192, 1), (8193, 0x30), (12288, 1), (12289, 0x40), (16384, 0x1E), (16386, 1),
  (16392, 0x1E), (16398, 1)]
def sT : State := { pS with wh := { pS.wh with live := [0] }, mem := tables }
def pg0 : TEntry := { asid := 0, page := 0, leaf := 0x1001E, pa := 65536, key := 65536 }
def pg1 : TEntry := { asid := 0, page := 1, leaf := 0x100000000001E, pa := 2 ^ 48, key := 2 ^ 48 }
theorem test_walk : (sT.resolve (sT.ctx 0) 65535).2 = some pg0 ∧ (sT.resolve (sT.ctx 0) 65536).2 = some pg1 ∧ tables.wf = true := by decide +kernel

/-- The block with lane 0 in WAITW on a word of page `p`. -/
def watch (p : Nat) : Wait := .waitw (65536 * p) 0 0 false false 0 false
def watches (p : Nat) : Block → Block := fun b => b.modWarp 0 fun w => w.modLane 0 fun x => { x with st := .waiting (watch p), resume := (8, 0) }
def sW (p : Nat) : State := sT.modBlock 0 (watches p)
theorem test_hyp_waits_end : (sW 0).block? 0 = some (watches 0 pB) ∧ (watches 0 pB).resident = true ∧ ((watches 0 pB).warp 0).held = [] ∧
    ((watches 0 pB).warp 0).watches = [watch 0] ∧ ((sW 0).waitwNow (watches 0 pB) (watch 0)).2 = some (true, none, [0, 0, 0, 0]) ∧
    ((waits 3 pB).warp 0).lanes.length = 32 ∧ (9 < (((waits 3 pB).warp 0).lane 0).waitClk) :=
  ⟨rfl, rfl, rfl, by decide +kernel, by decide +kernel, rfl, by decide +kernel⟩
theorem test_hyp_poll : (sW 1).block? 0 = some (watches 1 pB) ∧ (watches 1 pB).resident = true ∧ 0 < (watches 1 pB).warps.length ∧ ((watches 1 pB).warp 0).watches = [watch 1] ∧
    ((sW 1).resolve ((sW 1).ctx 0) 65536).2 = some pg1 ∧ isOutside pg1.key = true := ⟨rfl, rfl, by decide, by decide +kernel, by decide +kernel, by decide⟩

/-! ## Engines (O36 to O43) -/

def okay {ε α : Type} : Except ε α → Bool
  | .ok _ => true
  | .error _ => false

/-- The block with 256 bytes of scratchpad, all zero but those of a list. -/
def spB (bs : List (Nat × Byte)) : Block → Block := fun b => { b with spad := (List.range 256).map fun i => (i, (bs.lookup i).getD 0) }
/-- The block with commands in flight on EC0. -/
def cmd0 (kind : CmdKind) : Cmd := { tok := 1, seq := 0, handle := 0, op := 0, warp := 0, pc := 0, widx := 0, kind := kind, place := .reset }
def busy (cs : List Cmd) : Block → Block := fun b => b.modEng 0 fun e => { e with top := 1, cmds := cs }
def stuffed : Block → Block := fun b => b.modEng 0 fun e => { e with top := 257, level := 1, cmds := [cmd0 (.azero 0)] }
def es : EngArgs := { ea with o1 := .s 2, o2 := .s 2, o3 := .s 2 }

theorem test_hyp_commands : Executes (sB (spB [])) (cB (spB [])) ∧ Guarded (sB (spB [])) (cB (spB [])) .always 0xFFFFFFFF ∧ (sB (spB [])).replaying 0 = false ∧
    ((cB (spB [])).b.eng 7).top - ((cB (spB [])).b.eng 7).level < 256 ∧ okay (copyMake .cpy (cB (spB [])) 128 0 ((sB (spB [])).release 0 0 1)) = true ∧
    okay (copyMake .cpy (cB (spB [])) 1 0 ((sB (spB [])).release 0 0 1)) = false ∧ (0 < (cB (spB [])).b.tiles.length ∧ ¬ 1 < (cB (spB [])).b.tiles.length) ∧
    256 ≤ ((cB stuffed).b.eng 0).top - ((cB stuffed).b.eng 0).level :=
  ⟨executes_of rfl rfl rfl, ⟨by decide +kernel, by decide⟩, rfl, by decide +kernel, by decide +kernel, by decide +kernel, by decide +kernel, by decide +kernel⟩

/-- A launch record of one block of 32 threads at offset 0, and blocks with three and four entries in their queues. -/
def launchB : List (Nat × Byte) := [(24, 1), (28, 32)]
def queued (n : Nat) : Block → Block := fun b => { b with launchq := List.replicate n { lrec := rec0, ec := 0, tok := 1, age := 4096 } }
theorem test_hyp_launch : ((((sB (spB launchB)).release 0 0 4).descAt 0 0 64).bind parseLaunch).isSome = true ∧ ((queued 3 pB).launchq.length < 4) ∧
    4 ≤ (queued 4 pB).launchq.length := by decide +kernel
theorem test_hyp_batches : (sB (queued 1)).block? 0 = some (queued 1 pB) ∧ ((sB (queued 1)).ctx 0).runs = true ∧ (sB (queued 1)).replaying 0 = false ∧
    (sB (queued 1)).countsRunnable (queued 1 pB) = true ∧
    (sB fun b => (queued 1 b).mapWarps fun _ w => { w with lanes := w.lanes.map fun x => { x with st := .exited } }).countsRunnable
      ((queued 1 pB).mapWarps fun _ w => { w with lanes := w.lanes.map fun x => { x with st := .exited } }) = false :=
  ⟨rfl, rfl, by decide +kernel, by decide +kernel, by decide +kernel⟩

/-- A block of two warps, S4 = 3, and latches of its core. -/
def duo : Block → Block := fun b => { b with warps := [{ probeWarp fl0 with s := [(2, 0), (3, 0), (4, 3)] }, probeWarp fl0] }
def arr1 (x : EngArgs) (op : BitVec 6) : Arrival := { warp := 1, op := op, x := x, act := 0xFFFFFFFF, pc := 0, widx := 0, next := 0, scales := [] }
def latched (ls : Tab Latch) : State := (sB duo).modCore 0 fun k => { k with latches := ls }
def gang0 (as : List Arrival) : Latch := { block := 0, mask := 3, formed := true, joined := 3, arrivals := as }
def es' : EngArgs := { ea with o1 := .s 2, o2 := .s 2, o3 := .s 3, o4 := .v 8 }
theorem test_hyp_matrix : Executes (latched []) (cB duo) ∧ Guarded (latched []) (cB duo) .always 0xFFFFFFFF ∧ (latched []).gangLatch (cB duo).b 0 = none ∧
    (∀ l, l < 32 → (cB duo).fl.act.has l = true) ∧ okay (mmaMake true (cB duo) es' 0 [] ((latched []).release 0 0 1)) = true ∧
    ((cB (waits 3)).w.lane 0).isReal = true ∧ ((cB (waits 3)).w.lane 0).isExited = false ∧ (cB (waits 3)).fl.act.has 0 = false :=
  ⟨executes_of rfl rfl rfl, ⟨by decide +kernel, by decide⟩, rfl, by decide, by decide +kernel, by decide +kernel⟩
theorem test_hyp_gang : (latched [(0, gang0 [])]).gangLatch (cB duo).b 0 = some 0 ∧ (gang0 []).arrivals.length + 1 < (gang0 []).mask.list.length ∧
    (gang0 [arr1 es' 8]).mask.list.length ≤ [arr1 es' 8].length + 1 ∧
    arriveInsert ((cB duo).arrival 0 8 es') (gang0 [arr1 es' 8]).arrivals = (cB duo).arrival 0 8 es' :: [arr1 es' 8] ∧
    (∀ a ∈ [arr1 es' 8], a.fields = ((cB duo).arrival 0 8 es').fields) ∧
    okay (mmaMake true (((latched []).release 0 0 1).memberCx (cB duo) ((cB duo).arrival 0 8 es')) es' 0 [] ((latched []).release 0 0 1)) = true := by
  decide +kernel
theorem test_hyp_gangset : (cB duo).opS 0 (.s 4) = 3 ∧ gangMaskOk (cB duo) 3 = true ∧ gangMaskOk (cB duo) 1 = false ∧ (cB duo).opS 0 (.s 2) = 0 ∧
    (latched []).freeLatch 0 false = some 0 ∧
    (latched ((List.range 4).map fun i => (i, { gang0 [] with block := 9 }))).freeLatch 0 false = none ∧
    (((latched [(3, { gang0 [] with formed := false, joined := 2 })]).core 0).latches.find? fun l => l.2.block == 0 && l.2.mask == 3 && !l.2.formed) =
      some (3, { gang0 [] with formed := false, joined := 2 }) ∧ (2 : Mask) ||| maskOf (· == 0) = 3 := by decide +kernel

/-- A ring of one slot at offset 0, free, and held by this core's consumer with FULL set. -/
def ringB (w : Byte) : Block → Block := spB [(1, 1), (2, 1), (64, w)]
theorem test_hyp_rings : Executes (sB (ringB 0)) (cB (ringB 0)) ∧ (sB (ringB 0)).ringHome (cB (ringB 0)) 7 0 = some (ringB 0 pB) ∧
    (ringB 0 pB).slotWord 0 0 0 % 128 = 0 ∧ (ringB 0 pB).boosts.contains 0 = false ∧ (sB (ringB 0x81)).ringHome (cB (ringB 0x81)) 7 0 = some (ringB 0x81 pB) ∧
    (ringB 0x81 pB).slotWord 0 0 0 % 128 ≠ 0 ∧ ((ringB 0x81 pB).slotWord 0 0 0).testBit 0 = true ∧ ((ringB 0x81 pB).slotWord 0 0 0).testBit 7 = true ∧
    pB.lslot < 7 := ⟨executes_of rfl rfl rfl, rfl, by decide +kernel, by decide +kernel, rfl, by decide +kernel⟩

/-- A copy of one byte from scratchpad to scratchpad, and the other commands. -/
def cpyD : Desc := BitVec.ofNat 512 (2 ^ 451 + 2 ^ 453)
/-- NVMe entry 5: a namespace of blocks of 512 bytes. -/
def sIo : State := { pS with nvme := [(5, BitVec.ofNat 512 (2 ^ 511))] }
def cpyB : Block → Block := fun b => busy [cmd0 (.copy .cpy cpyD 0 0 0 0 0 0 [])] (spB [] b)
theorem test_hyp_iteration : (sB cpyB).block? 0 = some (cpyB pB) ∧ (cpyB pB).cmd? 0 1 = some (cmd0 (.copy .cpy cpyD 0 0 0 0 0 0 [])) ∧
    (sB cpyB).cmdReady (cpyB pB) (cmd0 (.copy .cpy cpyD 0 0 0 0 0 0 [])) = true ∧
    (let r := (sB cpyB).engRead (cpyB pB) (cmd0 (.copy .cpy cpyD 0 0 0 0 0 0 [])) 1 (copyAddr cpyD false (vecOf (copyCounts cpyD) 0)) 1
     okay r.2 = true ∧ (r.1.engWrite (cpyB pB) (cmd0 (.copy .cpy cpyD 0 0 0 0 0 0 [])) 1 (copyAddr cpyD true (vecOf (copyCounts cpyD) 0)) [(0, false)]).2 = none) ∧
    (sB (busy [cmd0 (.azero 0)])).cmdReady (busy [cmd0 (.azero 0)] pB) (cmd0 (.azero 0)) = true ∧ ({ cmd0 (.azero 0) with finished := true }).finished = true ∧
    (sIo.iordBroken 5 0 512 0 = none ∧ sIo.nvmeOk 5 = true ∧ sIo.iordBroken 6 0 512 0 = some (0x1B, 0) ∧ sIo.nvmeOk 6 = false ∧
      (sIo.iordBroken 0x10000000 0 512 0).map (·.1) = some 0x12 ∧
      (List.replicate 512 (0 : Byte)).length = min 32768 (512 - 32768 * 0)) ∧
    ((sB cpyB).engWrite (cpyB pB) (cmd0 (.copy .cpy cpyD 0 0 0 0 0 0 [])) 1 (0 : Nat) [(0, false)]).2 = none :=
  ⟨rfl, rfl, by decide +kernel, by decide +kernel, by decide +kernel, rfl, by decide +kernel, by decide +kernel⟩
/-- A peer entry whose window reaches offset 511; a port that reaches the peer is a free value (log 107). -/
def sP : State := { pS with peers := [(5, 2 ^ 127 + 512)] }
theorem peer_ok (h : Config.portMisses 3 5 = false) (pa : Nat) (h1 : nbits pa 47 38 = 5) (h2 : nbits pa 37 0 < 512) : sP.peerOk pa = true := by
  have hp : sP.peerPorts 5 ≠ [] := by
    refine List.ne_nil_of_mem (a := 3) (List.mem_filter.mpr ⟨by decide, ?_⟩)
    rw [h]; decide +kernel
  unfold State.peerOk
  rw [h1]
  simp only [Bool.and_eq_true, decide_eq_true_eq, Bool.not_eq_true']
  exact ⟨⟨by decide +kernel, Nat.lt_of_lt_of_eq h2 (by decide +kernel)⟩, by simpa using hp⟩
theorem peerRead_of (s : State) (tgt : Word) (src : DWord) (len r : Nat) (h1 : nbits tgt.toNat 27 0 < 1024) (h2 : src.toNat + 32768 * r < 2 ^ 38)
    (h3 : s.peerOk (nbits tgt.toNat 27 0 * 2 ^ 38 + (src.toNat + 32768 * r)) = true)
    (h4 : src.toNat + 32768 * r + iordLen len r ≤ nbits (tgetD s.peers (nbits tgt.toNat 27 0) 0).toNat 38 0) :
    s.peerRead tgt src len r = .ok (peerBase + (nbits tgt.toNat 27 0 * 2 ^ 38 + (src.toNat + 32768 * r))) := by
  unfold State.peerRead
  simp only [h3, Bool.not_true, Bool.false_eq_true, or_false, Nat.not_le.mpr h1, Nat.not_le.mpr h2, Nat.not_lt.mpr h4, if_false]
theorem test_hyp_peer_read (h : Config.portMisses 3 5 = false) : sP.peerRead 0x10000005 0 512 0 = .ok (peerBase + 5 * 2 ^ 38) :=
  peerRead_of sP 0x10000005 0 512 0 (by decide) (by decide) (peer_ok h _ (by decide +kernel) (by decide +kernel)) (by decide +kernel)
def mmabB : Block → Block := fun b => busy [cmd0 (.mmab 0 0 0 0x30)] { b with spad := (List.range 512).map fun i => (i, 0) }
theorem test_hyp_fold : (sB mmabB).cmdReady (mmabB pB) (cmd0 (.mmab 0 0 0 0x30)) = true ∧
    (let w := (sB mmabB).modCmd 0 0 1 fun y => { y with firstA := some (0, 0), firstB := some (0, 0) }
     let op : Operand := { sp := 1, base := 0, dense := true, kdir := false }
     let r := w.operandRecs (mmabB pB) (cmd0 (.mmab 0 0 0 0x30)) op (0, 0) [0]
     let q := r.1.operandRecs (mmabB pB) (cmd0 (.mmab 0 0 0 0x30)) { op with kdir := true } (0, 0) [0]
     (match r.2, q.2 with | .ok _, .ok _ => true | _, _ => false) = true) := ⟨by decide +kernel, by decide +kernel⟩

/-! ## Replayed objects (O42, O48, O55): a descriptor at address 0 with one method of each kind at 0x1000, the log at 0x20000 -/

def objMem (next app brk : Byte) : Memory :=
  let m : Memory := tables ++ [(16400, 0x1E), (16402, 2), (65536, 64), (65540, 5), (65541, 2), (65554, 1), (65562, 2), (65570, 1), (65793, 0x10), (65799, 0x40),
    (65801, 0x10), (65807, 0xC0), (69635, 0x18), (69638, 0xC0), (69639, 0x33)]
  ((m.write 0x10030 next).write 0x10040 app).write 0x10080 brk
def sO (next app brk : Byte) : State := { sT with mem := objMem next app brk }
def call (d : BitVec 13) : EngArgs := { ea with dimm := d, o1 := .s 2, o2 := .v 4, o4 := .v 8 }
/-- The method's kind, NEXT, and whether the copy has applied that much and is whole. -/
def seen (s : State) (d : Nat) : Option (List Nat) :=
  (objRead s pC 0 true).map fun r => [b2n (r.2.1.valid d), b2n (r.2.1.readOnly d), r.2.1.logK, r.2.2.next, r.2.2.applied.getD (r.1.logicalDie 0) 0,
    b2n (r.2.2.broken.getLsbD (r.1.logicalDie 0))]
theorem test_hyp_calls : Executes (sO 0 0 0) pC ∧ Guarded (sO 0 0 0) pC .always 0xFFFFFFFF ∧ (realOf pC 0xFFFFFFFF).list.length = 2 ^ 5 ∧
    (Cx64 pC (sO 0 0 0) (.s 2) 0).toNat = 0 ∧ seen ((sO 0 0 0).release 0 0 4) 0 = some [1, 0, 5, 0, 0, 0] ∧
    seen ((sO 1 0 0).release 0 0 4) 0 = some [1, 0, 5, 1, 0, 0] ∧ seen ((sO 0 0 0).release 0 0 4) 2 = some [0, 0, 5, 0, 0, 0] ∧
    seen ((sO 0 0 0).release 0 0 0) 1 = some [1, 1, 5, 0, 0, 0] ∧ seen ((sO 1 0 0).release 0 0 0) 1 = some [1, 1, 5, 1, 0, 0] ∧
    seen (sO 1 1 0) 0 = some [1, 0, 5, 1, 1, 0] :=
  ⟨executes_of rfl rfl rfl, ⟨by decide +kernel, by decide⟩, by decide +kernel⟩

def rw0 : RWaiting := { block := 0, warp := 0, lanes := 0xFFFFFFFF, entries := [(31, List.replicate 64 0)], logBase := 0x20000, logStride := 65536, logK := 0,
                        sdst := 4, vp := 8 }
def ro (next : Nat) (ws : List RWaiting) : RObj := { desc := 0, ctx := 0, next := next, waiting := ws }
theorem test_hyp_assign : (let s := { sO 0 0 0 with robjs := [ro 0 [rw0]] }
    s.robj? 0 0 = some (ro 0 [rw0]) ∧ s.block? 0 = some pB ∧ (pB.warp 0).lanes.length = 32 ∧ s.recordings = [] ∧ (rw0.entries.map (·.1)).Nodup ∧
    s.robjs[0]? = some (ro 0 [rw0]) ∧ pB.resident = true ∧ (s.ctx 0).runs = true ∧ (ro 0 [rw0]).next + rw0.entries.length ≤ 2 ^ rw0.logK + (ro 0 [rw0]).trim) ∧ (sO 0 0 0).replaying 0 = false :=
  ⟨⟨rfl, rfl, rfl, rfl, by decide, rfl, rfl, rfl, by decide⟩, rfl⟩

def sR : State := { sO 1 0 0 with robjs := [ro 1 []] }
theorem test_hyp_invocation : sR.wh.live.contains 0 = true ∧ sR.wh.dielost.getLsbD 0 = false ∧ sR.invocation 0 = none ∧ sR.nextObj 0 (sR.logicalDie 0) = some (ro 1 []) ∧
    (let r := ({ sR with rturn := tset sR.rturn 0 (sR.turnKey (ro 1 []) + 1) } : State).devRead 0 0 0 768
     match r.2 with
     | .error _ => false
     | .ok bs =>
       let od := readObjDesc bs
       let q := r.1.devRead 0 0 (logSlot od.log od.logStride od.logK 0 0) 64
       match q.2 with
       | .error _ => false
       | .ok e => decide (leNat ((e.drop 12).take 4) = 0) && od.valid (leNat ((e.drop 8).take 4) % 64) && !od.readOnly (leNat ((e.drop 8).take 4) % 64)
           && okay (q.1.fetchClause (replayCore 0) 0 0 (od.entry 0).toNat).2) = true ∧
    sR.wh.live.contains 1 = false ∧ sT.nextObj 0 (sT.logicalDie 0) = none := by decide +kernel
/-- An invocation of 65,536 clauses, and one that has exited with its result to store at address 8. -/
def inv (f : RInv → RInv) (st : LaneSt) : Block → Block := fun b =>
  { b with replay := some (f inv0), warps := b.warps.map fun w => { w with lanes := w.lanes.map fun x => { x with st := st } } }
def sV (f : RInv → RInv) (st : LaneSt) : State := { sR with blocks := [inv f st pB] }
theorem test_hyp_method_ends : (sV (fun v => { v with clauses := 65536 }) .runnable).invocation 0 =
      some (inv (fun v => { v with clauses := 65536 }) .runnable pB, { inv0 with clauses := 65536 }) ∧
    (((inv id .runnable pB).warp 0).lane 0).isExited = false ∧ (((inv id .exited pB).warp 0).lane 0).isExited = true ∧ ((inv id .exited pB).warp 0).loads = [] ∧
    (sV (fun v => { v with resaddr := 8 }) .exited).logicalDie 0 = 0 ∧ tget (((inv id .exited pB).warp 0).lane 0).v 1 = some 0 ∧
    ((sV (fun v => { v with resaddr := 8 }) .exited).devWrite 0 0 8 (leBytes 4 0 ++ leBytes 4 0)).2 = none ∧
    (sV (fun v => { v with ended := true }) .exited).robj? 0 0 = some (ro 1 []) ∧ 0 < (ro 1 []).applied.length := by decide +kernel

theorem test_hyp_resync : Executes (sO 0 0 1) pC ∧ seen (sO 0 0 1) 0 = some [1, 0, 5, 0, 0, 1] ∧ seen (sO 0 0 0) 0 = some [1, 0, 5, 0, 0, 0] ∧
    (objRead (sO 0 0 1) pC 0 true).map (fun r => (r.1.reseeds, r.1.healthy r.2.2)) = some ([], []) ∧
    (let s : State := { sO 0 0 1 with wh := { sT.wh with live := [0, 1] } }
     s.healthy { ro 0 [] with broken := 1 } = [1]) := ⟨executes_of rfl rfl rfl, by decide +kernel⟩
/-- A re-seed of die 0's copy from die 1's, whose warp waits. -/
def rs0 : Reseed := { ctx := 0, desc := 0, die := 0, donor := 1 }
def sQ : State :=
  { (sO 0 0 1).modBlock 0 fun b => b.modWarp 0 fun w => { w with hold := [.rsync 0 4] } with reseeds := [rs0], robjs := [{ ro 0 [] with broken := 1 }] }
theorem test_hyp_reseed : sQ.reseeds = [rs0] ∧ rs0.die = sQ.logicalDie 0 ∧ sQ.robj? 0 0 = some { ro 0 [] with broken := 1 } ∧
    (sQ.block? 0).map (fun b => (b.warp 0).hold) = some [.rsync 0 4] ∧
    (let s := sQ.markLost 0 0
     ((s.robj? 0 0).map fun o => (o.applied.length, o.broken.getLsbD 1)) = some (8, false) ∧ s.inMethod rs0 (s.wh.live.getD 1 0) = false ∧ s.inMethod rs0 0 = false ∧
       s.awaitedInPast rs0 = false) ∧
    (let r := ({ sQ.markLost 0 0 with reseeds := [] } : State).devRead 0 (sQ.wh.live.getD 1 0) 0 768
     match r.2 with
     | .error _ => false
     | .ok bs => let d := readObjDesc bs
         (r.1.copyChunks 0 (sQ.wh.live.getD 1 0) 0 (d.copy 1) (d.copy 0) (d.size / 64)).2 == none) = true := by decide +kernel

/-! ## System instructions (O44 to O47) -/

theorem test_hyp_guards : (Instr.nop (.p 7)).guardOf = some (.p 7) ∧ (Instr.lvl ea).guardOf = some .always ∧ (Instr.lvl ea).methodMay = false ∧
    (Instr.plcwTgt ea).methodMay = false ∧ Guarded (sB meth) (cB meth) .always 0xFFFFFFFF ∧ pC.b.handler = none ∧ (pS.ctx 0).plw = false :=
  ⟨rfl, rfl, rfl, rfl, ⟨by decide +kernel, by decide⟩, rfl, rfl⟩

/-- The fragment table entry `e` of core 0: fragment `n` of the warp, parked at 0x1000. -/
def fr (n : Nat) (st : Nat) : Frag := { block := 0, warp := 0, fnum := n, pc := 0x1000, widx := 0, cause := 8, state := st }
def withFrags (s : State) (fs : Tab Frag) : State := s.modCore 0 fun k => { k with frags := fs }
def debugged : Block → Block := fun b => { b with dbg := { att := true, haltb := true, trc := true } }
def sAtt (f : Block → Block) : State := (sB f).modCtx 0 fun x => { x with att := true }
def hand : Block → Block := fun b => { b with handler := some 0 }
theorem test_hyp_traps : (realOf pC 0xFFFFFFFF).none = false ∧ pS.canPark 0 0 (realOf pC 0xFFFFFFFF) = true ∧
    (withFrags pS ((List.range 7).map fun i => (i, fr (i + 1) 1))).canPark 0 0 (realOf pC 0xFFFFFFFF) = false ∧
    (cB hand).b.handler.isSome = true ∧ pC.b.dbg.att = false ∧ (cB debugged).b.dbg.att = true ∧ ((sAtt debugged).ctx 0).att = true ∧ (pS.ctx 0).att = false ∧ (cB debugged).b.dbg.haltb = true ∧
    (maskOf fun l => (0xFFFFFFFF : Mask).has l && (pC.w.lane l).isReal && !(sAtt debugged).resumedHere 0 0 0 ((cB debugged).w.lane l) 0 0 true).none = false ∧
    (0xFFFFFFFF : Mask).list.head? = some 0 ∧ pC.b.dbg.trc = false ∧ (pC.w.lane 0).traced = false ∧
    ((cB fun b => b.modWarp 0 fun w => w.modLane 0 fun x => { x with traced := true }).w.lane 0).traced = true := by decide +kernel

/-- A handler block on the machine with tables, whose warp has fragment 1 in entry 0. -/
def sH (f : Frag) : State := withFrags ((sO 0 0 0).modBlock 0 hand) [(0, f)]
theorem test_hyp_handlers : Executes (sH (fr 1 1)) (cB hand) ∧ Guarded (sH (fr 1 1)) (cB hand) .always 0xFFFFFFFF ∧ (sH (fr 1 1)).recordings = [] ∧
    (sH (fr 1 1)).fragOf (cB hand) 0 = some (0, 0, fr 1 1) ∧ (sH (fr 1 2)).fragOf (cB hand) 0 = some (0, 0, fr 1 2) ∧ (sH (fr 1 1)).fragOf (cB hand) 1 = none ∧
    ((cB hand).opS64 0 (.s 2)).toNat % 4 = 0 ∧ (fr 1 1).noSkip = false ∧ (fr 1 1).setPc = false ∧ ({ fr 1 1 with noSkip := true }).noSkip = true ∧
    ((sH (fr 1 1)).afterWord 0 (fr 1 1)).2 = some (0x1008, 0) ∧ (sH (fr 1 1)).block? 0 = some (hand pB) :=
  ⟨executes_of rfl rfl rfl, ⟨by decide +kernel, by decide⟩, rfl, by decide +kernel, by decide +kernel, by decide +kernel, by decide +kernel, rfl, rfl, rfl,
    by decide +kernel, rfl⟩
/-- The clause at 0x1000 with LAND set in its header, and fragment 1 with a place that FRGSET.PC set. -/
def landing (s : State) : State := { s with mem := s.mem.write 69632 4 }
def frSet : Frag := { fr 1 1 with setPc := true }
theorem test_hyp_set_place : (sH frSet).fragOf (cB hand) 0 = some (0, 0, frSet) ∧ ((sH frSet).landOk 0 0 0 0x1000).2 = false ∧
    ((landing (sH frSet)).landOk 0 0 0 0x1000).2 = true ∧ (((landing (sH frSet)).landOk 0 0 0 0x1000).1.afterWord 0 frSet).2 = some (0x1008, 0) ∧
    (((sH frSet).block? 0).map fun b => (b.warp 0).fragMask 0) = some 0xFFFFFFFF ∧ (sH (fr 1 1)).gangLatch (hand pB) 0 = none ∧
    (((hand pB).warp 0).fragMask 1 &&& ~~~0xFFFFFFFF).none = true ∧ ((sH { fr 1 1 with pc := 0x2000 }).afterWord 0 { fr 1 1 with pc := 0x2000 }).2 = none := by
  decide +kernel
theorem test_hyp_odd_pc : ((cB fun b => b.modWarp 0 fun w => { w with s := [(2, 3), (3, 0)] }).opS64 0 (.s 2)).toNat % 4 ≠ 0 := by decide +kernel
def stopped0 : Cmd := { cmd0 (.azero 0) with stopped := some { code := 0x13, addr := 0, iter := 0 } }
theorem test_hyp_stopped : (sB fun b => busy [stopped0] (hand b)).cmdOf 0 0 = some (busy [stopped0] (hand pB), 0, stopped0) ∧ stopped0.stopped.isSome = true ∧
    (sB fun b => busy [stopped0] (hand b)).cmdOf 0 1 = none ∧ (sB fun b => busy [cmd0 (.azero 0)] (hand b)).cmdOf 0 0 = some (busy [cmd0 (.azero 0)] (hand pB), 0, cmd0 (.azero 0)) ∧
    ((∀ i, i < 5 → [0, 0, 0, 0, 0].getD i 0 ≤ stopped0.kind.bounds.getD i 0) ∧ ¬ [1].getD 0 0 ≤ stopped0.kind.bounds.getD 0 0) ∧
    (sB fun b => busy [stopped0] { hand b with mv := .stowing }).cmdOf 0 0 = some (busy [stopped0] { hand pB with mv := .stowing }, 0, stopped0) ∧
    (cB hand).b.handler.isSome = true ∧ (sB hand).recordings = [] ∧
    ((sB fun b => busy [stopped0] { hand b with mv := .stowing }).block? 0).map (·.mv) = some .stowing ∧
    ((sB fun b => busy [stopped0] (hand b)).block? 0).map (·.mv) = some .resident := by decide +kernel
theorem test_hyp_mapping : (pC.opS 0 (.s 2)).toNat = 0 ∧ ((cB duo).opS 0 (.s 4)).toNat ≠ 0 ∧ ((pS.modCtx 0 fun x => { x with plw := true }).ctx 0).plw = true := by decide +kernel

/-! ## Scheduling and placement (O49, O51) -/

def okClause {ε : Type} (r : Except ε (Word × List Word)) : Bool :=
  match r with
  | .error _ => false
  | .ok e => decide (clauseError e.1 e.2 = none) && (Cls.ofBits (Header.ofWord e.1).cls).isSome

/-- The block with its threads standing at 0x1000 and no clause in flight, and with its lanes or its warp changed. -/
def idle : Block → Block := fun b =>
  b.modWarp 0 fun w => { w with flight := none, lanes := w.lanes.map fun x => { x with pc := 0x1000 } }
def sI (f : Block → Block) : State := (sO 0 0 0).modBlock 0 fun b => f (idle b)
def grp0 : Group := { pc := 0x1000, widx := 0, step := false, mask := 0xFFFFFFFF, stamp := 0 }
/-- Two groups, of which one has been overtaken 31 times. -/
def late : Block → Block := fun b => b.modWarp 0 fun w => w.modLane 3 fun x => { x with pc := 0x2000, behind := 31, stamp := some 9 }
theorem test_hyp_overtaken : ((late (idle pB)).warp 0).groups.map (fun g => (g.mask, g.behind)) = [(0xFFFFFFF7, 0), (8, 31)] ∧
    ((sI late).nextGroup (late (idle pB)) ((late (idle pB)).warp 0)).map (·.mask) = some 8 := by decide +kernel
theorem test_hyp_issue : (sI id).block? 0 = some (idle pB) ∧ ((idle pB).warp 0).lanes.length = 32 ∧ (sI id).recordings = [] ∧ ((sI id).ctx 0).recm = false ∧
    ((sI id).ctx 0).trc = false ∧ ((sI id).ctx 0).bps = [] ∧ (sI id).mayIssue (idle pB) = true ∧ ((idle pB).warp 0).active = true ∧
    ((idle pB).warp 0).free = true ∧ ((idle pB).warp 0).wstores = [] ∧ ((idle pB).warp 0).sPois = [] ∧
    (∀ l, l < 32 → (((idle pB).warp 0).lane l).vPois = []) ∧ (sI id).nextGroup (idle pB) ((idle pB).warp 0) = some grp0 ∧
    okClause (((sI id).boundary 0).fetchClause 0 0 0 0x1000).2 = true ∧ (sI id).stepOnly (idle pB) = false ∧
    ((idle pB).warp 0).flight = none ∧ (∀ k ∈ ((idle pB).warp 0).groups, k.behind + ((idle pB).warp 0).groups.length ≤ 31) := by decide +kernel

def pend1 (w : Warp) : Warp := { w with active := false, readyClk := 1024 }
/-- `n` active warps, all in a long wait where `long`, and one that is pending and ready. -/
def slice (n : Nat) (long : Bool) : Block → Block := fun b =>
  let wait (w : Warp) : Warp := { w with lanes := w.lanes.map fun x => { x with st := .waiting (.rwait 0 0) } }
  { b with warps := List.replicate n (if long then wait (b.warp 0) else b.warp 0) ++ [pend1 (b.warp 0)] }
def swapSeen (s : State) : Bool × Nat × Bool × Bool :=
  ((s.entrant 0 0).isSome, (s.actives 0 0).length, (leastBy (fun e => e.2.2.enter) ((s.actives 0 0).filter fun e => s.longWait e.1 e.2.2)).isSome,
    (leastBy (fun e => e.2.2.enter) ((s.pendingReady 0 0).filter fun e => decide (64 * e.1.pstarv ≤ e.2.2.readyClk))).isSome)
theorem test_hyp_swap : swapSeen (sI id) = (false, 1, false, false) ∧ swapSeen (sI (slice 1 false)) = (true, 1, false, true) ∧
    swapSeen (sI (slice 8 true)) = (true, 8, true, true) ∧ swapSeen (sI (slice 8 false)) = (true, 8, false, true) := by decide +kernel
def stuck : Block → Block := fun b => b.modWarp 0 fun w => w.modLane 0 fun x => { x with st := .waiting (.bwait 3), waitWall := 100 * (10 ^ 6 * Config.wallUnit) + 1 }
theorem test_hyp_watchdog : ((sI stuck).block? 0).map (fun b => b.wdogDone) = some [] ∧ (((stuck (idle pB)).warp 0).lane 0).isReal = true ∧
    (((stuck (idle pB)).warp 0).lane 0).st = .waiting (.bwait 3) ∧ (Wait.bwait 3).code ≠ 0 ∧ ((sI stuck).ctx 0).wdms = 100 ∧ ((sI stuck).ctx 0).pre = false ∧ (sI stuck).replaying 0 = false ∧
    ((sI stuck).ctx 0).wdms.toNat * (10 ^ 6 * Config.wallUnit) < (((stuck (idle pB)).warp 0).lane 0).waitWall := by decide +kernel

/-- Host queue 5 with one record of one block whose NTHR is given, and no cell for it. -/
def queueing (nthr : Byte) : State :=
  { sT with blocks := [], queues := [(5, { en := true, tail := 1 })], mem := sT.mem ++ [(hostBase + 24, 1), (hostBase + 28, nthr)] }
def offer (s : State) : Option Grid := (parseLaunch (s.queueRecord (s.queue 5))).map (s.queueGrid 5 (s.queue 5))
theorem test_hyp_queue : (queueing 32).queueOpen ((queueing 32).queue 5) = true ∧ (queueing 0).queueOpen ((queueing 0).queue 5) = true ∧
    (offer (queueing 32)).map (fun g => (queueing 32).placeable g) = some false ∧ ((queueing 32).ctx 0).pre = false ∧ offer (queueing 0) = none ∧
    (((queueing 32).modCtx 0 fun x => { x with pre := true }).ctx 0).pre = true := by decide +kernel

/-- The machine with cell 0 in partition 0 and a grid that waits to be placed. -/
def placing : State :=
  { sT with blocks := [], grids := [grid0], places := [(0, { stgt := [], diemap := 0, slotmap := 0x6543210 })], wh := { sT.wh with partmap := [(0, 0)] } }

theorem turnBy_length {α : Type} (l : List α) (n : Nat) : (turnBy l n).length = l.length := by
  by_cases h : l.length = 0
  · simp [turnBy, h]
  · have := Nat.mod_lt n (Nat.pos_of_ne_zero h)
    simp only [turnBy, List.length_append, List.length_drop, List.length_take]
    omega
theorem room_everywhere (core : Nat) : placing.coreRoom core 1 1 1 = true := by
  have hh : placing.held core = [] := rfl
  have hw : (warpSlots [] 1 placing.tick).isSome = true := by
    have h : 0 < (turnBy (freeSlots [] ((firstSlice [] + 0) % 8)) (Config.placeChoice placing.tick 0)).length := by
      rw [turnBy_length]; decide +kernel
    simp only [warpSlots, List.range_one, List.map_cons, List.map_nil, Nat.zero_div, List.getElem?_eq_getElem h]
    rfl
  have hb : (freeBases [] 1).isEmpty = false := by decide +kernel
  unfold State.coreRoom
  rw [hh]
  simp only [hw, hb]
  rfl
theorem spot_found : ∃ core slot base, placing.findSpot grid0 = some (0, [(slot, core)], base) := by
  have hr : placing.roomyCores 0 1 1 1 (fun _ => true) = (List.range 7).map fun t => (t, t) := by
    unfold State.roomyCores
    simp only [room_everywhere, Bool.and_self]
    decide +kernel
  have hn : 0 < (turnBy ((List.range 1024).filter fun k => ([(0, 0)] : List (Nat × Nat)).all fun e => baseFits (placing.held e.2) 1 k)
      (Config.placeChoice placing.tick 2)).length := by
    rw [turnBy_length]; decide +kernel
  have hf : ∃ base, placing.findCores 0 1 1 1 1 (fun _ => true) = some ([(0, 0)], base) := by
    unfold State.findCores
    rw [hr]
    obtain ⟨k, hk⟩ : ∃ k, (turnBy ((List.range 1024).filter fun k => ([(0, 0)] : List (Nat × Nat)).all fun e => baseFits (placing.held e.2) 1 k)
      (Config.placeChoice placing.tick 2)).head? = some k := ⟨_, (List.head?_eq_some_head (List.ne_nil_of_length_pos hn))⟩
    refine ⟨k, ?_⟩
    have ht : ((List.range 7).map fun t => (t, t)).take 1 = ([(0, 0)] : List (Nat × Nat)) := rfl
    simp only [ht, hk]
    rfl
  obtain ⟨base, hf⟩ := hf
  have hc : placing.cellsFor grid0 = [0] := by decide +kernel
  have ho : placing.cellOpen 0 grid0.handler.isSome = true := by decide +kernel
  refine ⟨0, 0, base, ?_⟩
  unfold State.findSpot
  rw [hc]
  simp only [List.findSome?_cons, ho, if_true]
  have hg : grid0.lrec.clus + 1 = 1 ∧ grid0.warps = 1 ∧ grid0.lrec.spad = 1 ∧ grid0.lrec.nacc = 1 := by decide
  rw [hg.1, hg.2.1, hg.2.2.1, hg.2.2.2, hf]
  rfl
theorem test_hyp_place : placing.grids.find? (fun g => g.key == 0) = some grid0 ∧ (placing.ctx grid0.ctx).recm = false ∧ placing.placeable grid0 = true ∧
    placing.first (placing.rank grid0 grid0.kind) = true ∧ ∃ core slot base, placing.findSpot grid0 = some (0, [(slot, core)], base) := by
  obtain ⟨core, slot, base, h⟩ := spot_found
  have hp : placing.placeable grid0 = true := by
    unfold State.placeable
    rw [h]
    have hb : ((placing.ctx grid0.ctx).runs && decide (grid0.next < grid0.lrec.nblk)) = true := by decide +kernel
    simp [hb]
  refine ⟨rfl, rfl, hp, ?_, core, slot, base, h⟩
  have hc : placing.candidates = [placing.rank grid0 grid0.kind] := by
    have hq : placing.queues = [] := rfl
    have hgr : placing.grids = [grid0] := rfl
    unfold State.candidates
    rw [hq, hgr]
    simp only [List.filter_cons, hp, if_true, List.filter_nil]
    rfl
  unfold State.first
  rw [hc]
  decide +kernel
def gone : Block → Block := fun b => b.modWarp 0 fun w => { w with lanes := w.lanes.map fun x => { x with st := .exited } }
theorem test_hyp_block_end : (sB gone).block? 0 = some (gone pB) ∧ (gone pB).resident = true ∧ (gone pB).over = true ∧ (gone pB).handler = none ∧ (sB gone).replaying 0 = false ∧ (gone pB).rings = [] ∧
    (sB fun b => { gone b with rings := [0], cluster := some 0 }).lingers { gone pB with rings := [0], cluster := some 0 } = false ∧
    ({ sB (fun b => { gone b with rings := [0], cluster := some 0 }) with blocks := [{ gone pB with rings := [0], cluster := some 0 }, { pB with key := 1, cluster := some 0 }] } : State).lingers
      { gone pB with rings := [0], cluster := some 0 } = true ∧
    grid0.lrec.nblk ≤ grid0.ended + 1 ∧ ({ grid0 with lrec := { rec0 with nblk := 2 } } : Grid).ended + 1 < 2 := by decide +kernel

/-! ## Movement, contexts and traps (O52 to O54) -/

def st32 (st : LaneSt) (clk : Nat) : Block → Block := fun b =>
  { (b.modWarp 0 fun w => { w with flight := none, lanes := w.lanes.map fun x => { x with st := st, waitClk := clk } }) with
    stowt := 4, spSize := 1024, spad := [] }
/-- A block of which every thread waits on a token for 20,000 cycles, on a machine whose context has one share, at page 0, and cell 0. -/
def sS (f : Block → Block) : State :=
  ({ sT with wh := { sT.wh with partmap := [(0, 0)] } }.modCtx 0 fun x => { x with stowsz := 1 }).modBlock 0 fun b => f (st32 (.waiting (.twait 0 1)) 20000 b)
def bS (f : Block → Block) : Block := f (st32 (.waiting (.twait 0 1)) 20000 pB)
def due (b : Block) : Block := { b with due := true }
def moving (mv : Movement) (b : Block) : Block := { b with mv := mv, share := some 0 }
theorem test_hyp_stow : (sS id).block? 0 = some (bS id) ∧ (bS id).cluster = none ∧ (bS id).resident = true ∧ (bS id).stowt ≠ 0 ∧ (bS id).allPassed = true ∧
    pB.allPassed = false ∧ (sS due).block? 0 = some (bS due) ∧ (sS due).stowable (bS due) = true ∧ (sS due).intervalDue (bS due) = false ∧
    (sS due).saveSize (bS due) false ≤ ((sS due).ctx 0).shareLen ∧ (sS due).freeShare 0 [] = some 0 ∧ pS.stowable pB = false ∧
    (sS (moving .stowing)).block? 0 = some (bS (moving .stowing)) ∧ (bS (moving .stowing)).mv = .stowing ∧
    (let s := sS (moving .stowing)
     let u := s.settleAway 0
     (u.sharesOk 0 ((u.ctx 0).sharePages 0 (u.saveSize (bS (moving .stowing)) false))).2 = true) := by decide +kernel
theorem test_hyp_restore : (sS (moving .saved)).block? 0 = some (bS (moving .saved)) ∧ (sS (moving .saved)).wantsBack (bS (moving .saved)) = true ∧ (sS (moving .saved)).inTurn (bS (moving .saved)) = true ∧
    (sS (moving .saved)).spots (bS (moving .saved)) = some [(bS (moving .saved), { core := 0, lslot := 0, base := 0, slots := [(0, 0)] })] ∧
    (sS id).wantsBack (bS id) = false ∧ (sS (moving .stowed)).block? 0 = some (bS (moving .stowed)) ∧ (bS (moving .stowed)).mv = .stowed ∧ (sS (moving .restoring)).block? 0 = some (bS (moving .restoring)) ∧ (bS (moving .restoring)).mv = .restoring := by
  decide +kernel

def sX (f : Ctx → Ctx) : State := (sS due).modCtx 0 f
theorem test_hyp_preempt : (pS.ctx 0).failed = false ∧ pS.recordings = [] ∧ ((sX fun x => { x with failed := true }).ctx 0).failed = true ∧ pS.block? 0 = some pB ∧ pB.ctx = 0 ∧
    pB.replay = none ∧ 0 < pB.warps.length ∧ (pB.warp 0).flight.map (·.cls) = some .alu ∧ (∀ l, l < 32 → ((pB.warp 0).lane l).step = false) ∧
    (sB fun b => b.modWarp 0 fun w => { w with flight := some { fl0 with cls := .sys } }).blocks.map (fun b => (b.warp 0).flight.map (·.cls)) = [some .sys] ∧
    (let s := sX fun x => { x with pre := true }
     let mine (u : State) : List Block := u.blocks.filter fun b => b.ctx == 0 && b.resident
     let u := (mine s).foldl (fun s b => s.settleAway b.key) (s.endIntervals (mine s))
     (s.ctx 0).pre = true ∧ (s.ctx 0).saved = false ∧ (s.ctx 0).preFault = false ∧ (s.ctx 0).failed = false ∧ (s.ctx 0).clearPending = false ∧
     s.collected 0 = true ∧ (match u.claim true (mine u) [] with
       | some cs => (u.sharesOk 0 (cs.flatMap fun e => (u.ctx 0).sharePages e.2 (u.saveSize e.1 true))).2
       | none => false) = true) ∧
    pS.collected 0 = false ∧ ((sX fun x => { x with pre := true, saved := true }).ctx 0).saved = true := by decide +kernel
theorem test_hyp_deadline : (let s := { sX fun x => { x with deadline := 1 } with wallU := Config.wallUnit }
    (s.ctx 0).deadline ≠ 0 ∧ (s.ctx 0).deadline.toNat ≤ s.wallU / Config.wallUnit ∧ (s.ctx 0).saved = false) ∧ (pS.ctx 0).deadline = 0 ∧
    ((sX fun x => { x with saved := true }).ctx 0).saved = true := by
  decide +kernel

def tr0 : Trap := { id := 7, cause := 0x30, kind := 3 }
def trB : Trap := { tr0 with holds := some (0, 0) }
def rc0 : Rec := { rid := 0, trap := trB, handling := .waiting }
/-- The machine with a ring of 2^LOGN records at page `p`, a trap that waits to be written, or a record that waits for its handler. -/
def sTr (p : Nat) (f : Ctx → Ctx) : State := sT.modCtx 0 fun x => f { x with trapq := BitVec.ofNat 64 (65536 * p + 4) }
def heldB : Block → Block := fun b => b.modWarp 0 fun w => { w with held := [7] }
theorem test_hyp_trap_record : (let s := sTr 0 fun x => { x with traps := [tr0] }
    let x := s.ctx 0
    let r : Rec := { rid := x.tail, trap := tr0, handling := if tr0.nested then .none else .waiting, ord := s.nextKey }
    x.traps = [tr0] ∧ x.ringFault = false ∧ x.saved = false ∧ x.kept = false ∧ (x.tail - x.head).toNat < x.ringLen ∧
      (s.devWrite 0 s.anyDie (x.recAddr x.tail) r.bytes).2 = none) ∧
    (let s := sTr 2 fun x => { x with traps := [tr0] }
     (s.devWrite 0 s.anyDie ((s.ctx 0).recAddr (s.ctx 0).tail) (Rec.bytes { rid := 0, trap := tr0, handling := .waiting })).2.isSome = true) ∧
    (pS.ctx 0).traps = [] := by decide +kernel
theorem test_hyp_handler : (let s := sTr 0 fun x => { x with recs := [rc0], tail := 1, hen := true }
    let x := s.ctx 0
    x.nextRec = some rc0 ∧ x.hen = true ∧ x.runs = true ∧ (s.grids.filter (s.handling 0)).length < x.hlimit) ∧
    (pS.ctx 0).nextRec = none ∧ ((sTr 0 fun x => { x with recs := [rc0] }).ctx 0).recs.find? (fun y => y.rid == 0) = some rc0 ∧
    rc0.trap.holds = some (0, 0) ∧ (sB heldB).block? 0 = some (heldB pB) ∧ (sB heldB).recordings = [] ∧ ((heldB pB).warp 0).held = [rc0.trap.id] := by decide +kernel

/-! ## The host, power, failures, the debugger (O56 to O60) -/

theorem test_hyp_host : sT.wh.live[(some 0 : Option Nat).getD (hashHome sT.wh.live.length (65535 / 2 ^ 16))]? = some 0 ∧
    sT.wh.live[(none : Option Nat).getD (hashHome sT.wh.live.length (2 ^ 37 / 2 ^ 16))]? = some 0 ∧ 65535 % 65536 + [(5 : Byte)].length ≤ 65536 ∧
    sT.wh.dielost.getLsbD 0 = false ∧ sT.undefAt (0 * 2 ^ 37 + 65535 / 65536 % 2 ^ 21 * 65536 + 65535 % 65536 + 0) = false ∧ sT.lostLines = [] := by decide +kernel
def whS (f : Wellhead → Wellhead) : State := { sX id with wh := f (sX id).wh }
theorem test_hyp_bringup : State.reset.wh.err = 0 ∧ State.reset.wh.stage = 0 ∧ State.reset.hlines = [] ∧ (whS fun w => { w with stage := 2 }).wh.stage = 2 ∧
    (let w := (whS fun w => { w with stage := 3, usable := 0x60 }).wh
     w.err = 0 ∧ w.stage = 3 ∧ w.usable.getLsbD 5 = true ∧ ∀ k, k < 5 → w.usable.getLsbD k = false) ∧
    (((List.range 8).filter (0x60 : BitVec 8).getLsbD).length < 3 ∧ 3 ≤ ((List.range 8).filter (0xF0 : BitVec 8).getLsbD).length ∧
      ((List.range 8).filter (0xF0 : BitVec 8).getLsbD).length = 4) := by decide +kernel
theorem test_hyp_partitions : (tgetD (whS fun w => { w with partnew := [(0, 48)] }).wh.partnew 0 0xFF).toNat = 48 ∧ State.reset.wh.stage.toNat < 3 ∧
    (let w := (whS fun w => { w with partnew := [(0, 1)], stage := 5 }).wh
     ¬ ∃ c, c < 48 ∧ (tgetD w.partnew c 0xFF).toNat ≠ 0xFF ∧ (47 < (tgetD w.partnew c 0xFF).toNat ∨ w.stage.toNat < 3 ∨ w.gone (c / 6) = true)) ∧
    (whS fun w => { w with partnew := [(0, 1)], stage := 5 }).go.busyCtxs = [0] ∧ State.reset.go.busyCtxs = [] ∧ (sX id).recordings = [] ∧
    (((sX id).ctx 0).preFault = false ∧ ((sX id).ctx 0).pre = false ∧ ((sX id).ctx 0).saved = false ∧ ((sX id).ctx 0).failed = false) := by decide +kernel
/-- SHA-384 of three bytes, the example of FIPS 180-4. -/
theorem test_sha384 : beNat (sha384 [0x61, 0x62, 0x63]) =
    0xcb00753f45a35e8bb5a03d699ac65007272c32ab0eded1631a8b605a43ff5bed8086072ba1e7cc2358baeca134c825a7 := by decide +kernel
theorem test_hyp_attestation : (.ecdsaP384 : SpdmAlg) ∈ [SpdmAlg.sha384, .ecdsaP384] ∧ (.sha384 : SpdmAlg) ∈ [SpdmAlg.sha384, .ecdsaP384] ∧
    State.reset.wh.signing = none ∧ (whS fun w => { w with signing := some 0 }).wh.signing = some 0 := by decide
theorem test_hyp_power : pS.wh.ready = 2 ∧ State.reset.wh.ready = 0 ∧ (pS.wh.mhz = 1200 ∧ pS.wh.gateK = 16) ∧
    (whS fun w => { w with mhz := 600, gateK := 3 }).wh.gateK ≤ 2 + 1 ∧ (keyDie 65536 ∈ pS.wh.live ∧ keyDie (8 * 2 ^ 37) ∉ State.reset.wh.live) ∧
    (∀ b ∈ pS.blocks, (∀ w ∈ b.warps, w.loads = [] ∧ w.stores = []) ∧ ∀ g ∈ b.ecs, g.cmds = []) ∧ (1 ∈ pS.wh.live ∧ pS.wh.dielost.getLsbD 1 = false) ∧
    (let s : State := { pS with wh := { pS.wh with partmap := [(6, 0)] } }
     1 ∈ s.wh.live ∧ s.wh.dielost.getLsbD 1 = false ∧ s.wh.hasCells 1 = true ∧ s.dieIdle 1 = true) ∧
    (let s : State := { pS with wh := { pS.wh with links := [(16, { spared := true, training := true })] } }
     (tgetD s.wh.links 16 {}).dropped = false ∧ (tgetD s.wh.links 16 {}).spared = true ∧ tget s.wh.links 16 = some { spared := true, training := true } ∧
     (tgetD pS.wh.links 16 {}).spared = false) ∧
    tget pS.ctxs 0 ≠ none ∧ pS.ctxOnDie 0 0 = true ∧ (pS.ctx 0).failed = false ∧ pS.ctxOnDie 0 1 = false ∧
    pS.wh.portsDown.getLsbD 0 = false ∧ ({ pS.wh with portsDown := 1 } : Wellhead).portsDown.getLsbD 0 = true := by decide +kernel

/-- A debugged machine: lane 0 of the idle block stands under the debugger in fragment 1, and the block is recorded. -/
def parkB : Block → Block := fun b => { b.modWarp 0 fun w => w.modLane 0 fun x => { x with st := .parked, frag := 1 } with recCount := 2 ^ 20 }
def recd : Recording := { block := 0, checkpoint := idle pB, log := [], replaying := none }
def fd : Frag := { fr 1 1 with dbg := true }
def sDb : State := { withFrags ((sI parkB).modCtx 0 fun x => { x with att := true }) [(0, fd)] with recordings := [recd] }
/-- The same with lanes 0 and 1 in the fragment, which part at the BRA of its clause, and with every fragment number of the warp taken. -/
def partB : Block → Block := fun b => (parkB b).modWarp 0 fun w => w.modLane 1 fun x => { x with st := .parked, frag := 1, p := [(0, false)] }
def sFull : State :=
  { withFrags ((sI partB).modCtx 0 fun x => { x with att := true }) ((0, fd) :: (List.range 6).map fun i => (i + 1, fr (i + 2) 1)) with
    mem := (((sDb.mem.write 69636 0xFE).write 69637 0xFF).write 69638 0x3F).write 69639 0 }
theorem test_hyp_debug : sDb.block? 0 = some (parkB (idle pB)) ∧ sDb.recording? 0 = some recd ∧ recd.replaying = none ∧ 2 ^ 20 ≤ (parkB (idle pB)).recCount ∧
    (∀ w ∈ (parkB (idle pB)).warps, w.loads = []) ∧ sDb.stopped? (parkB (idle pB)) 0 1 = some (0, fd) ∧ (parkB (idle pB)).resident = true ∧
    (sDb.ctx 0).att = true ∧ recd.present = none ∧ sDb.recordings = [recd] ∧ recd.block = 0 ∧
    (parkB (idle pB)).between = true ∧ pB.between = false ∧ (pS.ctx 0).att = false ∧
    (let need := sDb.stepNeed 0 0 (parkB (idle pB)) fd (((parkB (idle pB)).warp 0).fragMask 1)
     need ≤ ([1, 2, 3, 4, 5, 6, 7].filter fun n => ((sDb.core 0).frag? 0 0 n).isNone).length ∧ need ≤ (sDb.freeEntries 0).length ∧ need = 0) ∧ sFull.stopped? (partB (idle pB)) 0 1 = some (0, fd) ∧
    sFull.stepNeed 0 0 (partB (idle pB)) fd (((partB (idle pB)).warp 0).fragMask 1) = 1 ∧
    (([1, 2, 3, 4, 5, 6, 7].filter fun n => ((sFull.core 0).frag? 0 0 n).isNone).length = 0) ∧
    sDb.stopped? (parkB (idle pB)) 0 2 = none ∧ (idle pB).recCount < 2 ^ 20 := by decide +kernel

/-! ## Further hypotheses: exact results, records, performed operations, faults (O4, O16, O18, O28 to O31, O39 to O41, O50) -/

/-- A MEM word whose base register is poisoned, and a load of the warp that met poison. -/
def memW (f : Lane → Lane) : Block → Block := fun b => b.modWarp 0 fun w =>
  { w with flight := some { fl0 with cls := .mem }, lanes := w.lanes.map f }
def ldP : PLoad := { pC.load 7 .lds ma [] with pois := some (1, 64) }
def metB : Block → Block := fun b => (memW id b).modWarp 0 fun w => { w with loads := [ldP] }
theorem test_hyp_poison : (sB (memW fun x => { x with vPois := [3] })).wordPoison (cB (memW fun x => { x with vPois := [3] })) (.ld ma) = some (0, 3) ∧
    (sB (memW id)).wordPoison (cB (memW id)) (.ld ma) = none ∧ (cB (memW id)).metPoison (cB (memW id)).w = none ∧
    (cB metB).metPoison (cB metB).w = some (ldP, 1, 64) ∧ (sB metB).wordPoison (cB metB) (.ld ma) = none := by decide +kernel

/-- 2^24 + 1 lies midway between two values of FP32. -/
def mid : Dy := ⟨false, 16777217, 0⟩
theorem test_hyp_ties : Finite fp32 0x4B800000 ∧ Finite fp32 0x4B800001 ∧ (roundFP fp32 0 mid).1 = 0x4B800000 ∧ (roundFP fp32 4 mid).1 = 0x4B800001 ∧
    Dy.rat (fp32.real 0x4B800000) = 16777216 ∧ Dy.rat (fp32.real 0x4B800001) = 16777218 ∧ Dy.rat mid = 16777217 := by
  have h0 : fp32.real 0x4B800000 = ⟨false, 8388608, 1⟩ := by decide +kernel
  have h1 : fp32.real 0x4B800001 = ⟨false, 8388609, 1⟩ := by decide +kernel
  refine ⟨⟨?_, ?_, ?_⟩, ⟨?_, ?_, ?_⟩, ?_, ?_, ?_, ?_, ?_⟩
  iterate 8 decide +kernel
  · rw [h0]; norm_num [Dy.rat]
  · rw [h1]; norm_num [Dy.rat]
  · norm_num [Dy.rat, mid]

/-- Sixteen elements with a NaN, an infinity, or a candidate beyond 4.0. -/
def els16 (v : Nat) : List (Option Nat) := some v :: none :: List.replicate 14 (some 0x3F800000)
theorem test_hyp_encoding : (els16 0x41100000).length = 16 ∧ (∀ v, some v ∈ els16 0x41100000 → v < 2 ^ 32) ∧ fp32.isNaN 0x7FC00000 = true ∧
    isCand (thetaOf 0x40800000) 0x41100000 = true ∧ isCand (thetaOf 0x40800000) 0x3F800000 = false ∧ qencTheta 0x40800000 = thetaOf 0x40800000 ∧
    (encTile false false (thetaOf 0x40800000) 4 1 (0x41100000 :: List.replicate 255 0x3F800000)).isSome = true ∧
    (encTile true true (thetaOf 0x40800000) 1 0 (0x41100000 :: 0x41100000 :: List.replicate 254 0)).isNone = true := by
  refine ⟨rfl, ?_, by decide +kernel, by decide +kernel, by decide +kernel, by decide +kernel, by decide +kernel, by decide +kernel⟩
  intro v h
  rcases List.mem_cons.mp h with h | h
  · cases h; decide
  · rcases List.mem_cons.mp h with h | h
    · cases h
    · cases List.eq_of_mem_replicate h; decide

/-- An atomic addition of lane 31 to the last word of a page, by its load or, with no register, by its store. -/
def atomL : PLoad := ldm (.atom 1) 65536 65532
def atomB : Block → Block := fun b => b.modWarp 0 fun w =>
  { w with loads := [atomL], stores := [{ key := 7, form := .atom, uo := false, bytes := [] }] }
theorem test_hyp_atomic : (sB atomB).block? 0 = some (atomB pB) ∧ (atomB pB).resident = true ∧ atomL.held = false ∧ ((atomB pB).warp 0).wstores = [] ∧
    (sB atomB).replaying 0 = false ∧ (((atomB pB).warp 0).loads.map (·.key)).Nodup ∧
    ((atomB pB).warp 0).loads.find? (fun y => decide (y.key = 7)) = some atomL ∧ atomL.vals = none ∧ atomL.form = .atom 1 ∧ atomL.size = 4 ∧
    (atomL.accs.map (·.lane)).Nodup ∧ (sB atomB).hlines = [] ∧ (sB atomB).tlrUndef = [] ∧ (sB atomB).tlrMoves = [] ∧
    (∀ a ∈ atomL.accs, ∀ i, i < 4 → (sB atomB).cohPois (a.bkey i) = false ∧ (sB atomB).undefAt (a.bkey 0 + i) = false ∧
      (sB atomB).lost (a.bkey 0 + i) = false ∧ isOutside (a.bkey 0 + i) = isOutside (a.bkey 0)) := by decide +kernel

/-- A window store of lane 0, acknowledged: a byte of V2 of lane 3, of S2, and of the accumulator element (1, 2) of tile 0. -/
def stW (a : Nat) : PStore := { key := 8, form := .stw, uo := false, bytes := [{ lane := 0, va := a, key := 0, b := 5 }] }
def accA : Nat := ownWin + 3 * 2 ^ 27 + 2 ^ 8 + 2 * 2 ^ 2
theorem test_hyp_window_stores : (sB winB).recordings = [] ∧ ((sB winB).blocks.map (·.key)).Nodup ∧ (cB winB).b.replay = none ∧
    winTgt 0 ((cB winB).addrOf 0 ma 31 + 3) = some (.spad 0 3) ∧ (winB pB).holdsTgt (.spad 0 3) = true ∧ (winB pB).rings = [] ∧
    ((cB winB).dataBytes 0 31 4 4)[3]? = some 0 ∧ winTgt 0 (ownWin + 2 ^ 27 + 2 * 128 + 3 * 4) = some (.vreg 0 0 0 2 3 0) ∧
    winTgt 0 (ownWin + 2 * 2 ^ 27 + 2 * 4) = some (.sreg 0 0 0 2 0) ∧ ((sB winB).blockAt 0 0 0 0).map (·.2) = some 0 ∧
    winTgt 0 accA = some (.acc 0 0 1 2 0) ∧ ((sB winB).accBlock 0 0 0).map (·.key) = some 0 ∧ pB.tileBusy none (pB.tileIx 0) = false ∧
    (stW accA).form = .stw := by decide +kernel

/-- Where lanes trap: an offset that is misaligned or past the allocation, an unmapped page, a window of no cell. -/
theorem test_hyp_memory_faults : pC.offOf 0 { ma with size := 4, off := 0x3FF1 } 0 % 16 ≠ 0 ∧ (sB fun b => { b with spSize := 0 }).recordings = [] ∧
    ((globalChecks pS pC ma 0xFFFFFFFF .read false true).2.all fun e => match e.2 with | .error 0x12 => true | _ => false) = true ∧
    ((globalChecks pS pC ma 0xFFFFFFFF .rmw true false).2.all fun e => match e.2 with | .error 0x12 => true | _ => false) = true ∧
    (match pS.checkWin pC (8 * 2 ^ 36) 4 with | .error 0x15 => true | _ => false) = true ∧
    (match pS.checkWin pC (ownWin + 2 ^ 27 + 2 ^ 20) 4 with | .error 0x15 => true | _ => false) = true ∧
    (match pS.winCore pC (ownWin + 2 ^ 27 + 2 ^ 20) with | .ok 0 => true | _ => false) = true ∧ pS.winOwned pC 0 (ownWin + 2 ^ 27 + 2 ^ 20) 4 = false := by
  decide +kernel

/-- The walk of `sT` level by level, and a page of a tensor tile. -/
theorem test_hyp_walk : ((sT.paKey? ((sT.ctx 0).root.toNat % 2 ^ 41 * 2 ^ 11)).map fun k => leNat ((List.range 8).map fun i => sT.cohByte (k + i))) = some 0x1001 ∧
    sT.walk (sT.ctx 0) 65535 = some (0x1001E, 65536, 15) ∧ sT.walk (sT.ctx 0) (2 ^ 21) = none ∧ sT.paKey? (3 * 2 ^ 48) = none := by decide +kernel
def tlr0 : TlrCopy := { asid := 0, idx := 0, tlr := ⟨BitVec.ofNat 512 (2 ^ 64 + 2 ^ 96 + 2 ^ 132 + 2 ^ 148 + 160 * 2 ^ 160 + 2 ^ 192 + 2 ^ 224 + 2 ^ 228)⟩ }
theorem test_hyp_tile : tlr0.tlr.malformed = false ∧ tlr0.tlr.home? 1 0 = some 0 ∧ tlr0.tlr.home? 1 65536 = none := by decide +kernel

/-- A clause that cannot be fetched, one that does not decode, one whose register is poisoned; a warp that cannot split. -/
theorem issues_of {s : State} {bl : Block} {g : Group} (h : s.block? 0 = some bl) (h1 : (0 < bl.warps.length ∧ (bl.warp 0).lanes.length = 32 ∧
    s.recordings = [] ∧ (s.ctx bl.ctx).recm = false ∧ (s.ctx bl.ctx).trc = false ∧ (s.ctx bl.ctx).bps = []) ∧ ((∀ l, l < 32 → ((bl.warp 0).lane l).step = false) ∧
    s.stepOnly bl = false ∧ s.mayIssue bl = true ∧ bl.replay = none ∧ (bl.warp 0).active = true) ∧ (bl.warp 0).free = true ∧ (bl.warp 0).flight = none ∧
    (bl.warp 0).wstores = [] ∧ s.nextGroup bl (bl.warp 0) = some g) : Issues s 0 0 bl g := by
  obtain ⟨⟨a, b, c, d, e, f⟩, ⟨k, l, m, n, o⟩, p, q, r, t⟩ := h1
  refine ⟨h, a, b, c, d, e, f, fun i => ?_, l, m, n, o, p, q, r, t⟩
  by_cases hi : i < 32
  · exact k i hi
  · have : ((bl.warp 0).lane i) = {} := by
      unfold Warp.lane; rw [List.getD_eq_getElem?_getD, List.getElem?_eq_none (by omega)]; rfl
    rw [this]
theorem test_issues : Issues (sI id) 0 0 (idle pB) grp0 := issues_of rfl (by decide +kernel)
def stray : Block → Block := fun b => b.modWarp 0 fun w => { w with lanes := w.lanes.map fun x => { x with pc := 2 ^ 21 } }
def strayGrp : Group := { grp0 with pc := 2 ^ 21 }
def badClause : State := { sI id with mem := (sI id).mem.write 69635 0x3E }
def aluClause : State := { (sI fun b => b.modWarp 0 fun w => { w with lanes := w.lanes.map fun x => { x with vPois := [2] } }) with
  mem := tables ++ [(69635, 0x10), (69637, 0x01), (69638, 0xC4), (69639, 0x03)] }
theorem test_issues_stray : Issues (sI stray) 0 0 (stray (idle pB)) strayGrp := issues_of rfl (by decide +kernel)
theorem test_hyp_issue_faults : (match (((sI stray).boundary 0).fetchClause 0 0 0 (2 ^ 21)).2 with | .error e => e == (0x12, 2 ^ 21) | _ => false) = true := by
  decide +kernel
theorem test_hyp_decode_fault : (match ((badClause.boundary 0).fetchClause 0 0 0 0x1000).2 with
    | .ok (h, ws) => decide (clauseError h ws = some (.illegalClause, 0))
    | _ => false) = true ∧ (sI id).canPark 0 0 0xFFFFFFFF = true ∧
    (withFrags (sI id) ((List.range 7).map fun i => (i, fr (i + 1) 1))).canPark 0 0 0xFFFFFFFF = false := by decide +kernel
theorem test_hyp_clause_poison : (match ((aluClause.boundary 0).fetchClause 0 0 0 0x1000).2 with
    | .ok (h, ws) => decide (clauseError h ws = none ∧ Cls.ofBits (Header.ofWord h).cls = some .alu) &&
        (match aluClause.block? 0 with
          | some b => decide ((b.warp 0).poisonIn 0xFFFFFFFF (clauseReads .alu (Header.ofWord h).ext ws 0) = some (0, 2))
          | none => false)
    | _ => false) = true := by decide +kernel
theorem test_hyp_code_line : canonical 0x1000 = true ∧ okay ((sI id).fetchWord 0 0 0 (2 ^ 60)).2 = false := by decide +kernel

/-- Records at 0 (A) and at 192 (B), of which the second has KDIR set. -/
def recs (kind : CmdKind) : Block → Block := fun b => busy [cmd0 kind] { b with spad := (List.range 512).map fun i => (i, if i = 195 then 8 else 0) }
def operA : Operand := { sp := 1, base := 0, dense := false, kdir := false }
def operB : Operand := { sp := 1, base := 192, dense := false, kdir := true }
/-- Both operands' first records and records are read. -/
def reads (s : State) (b : Block) (cmd : Cmd) (oa ob : Operand) : Bool :=
  match s.firstRec b cmd oa none with
  | (u, .ok fa) => match u.firstRec b cmd ob none with
    | (v, .ok fb) =>
      match (v.modCmd 0 0 1 fun y => { y with firstA := some fa, firstB := some fb }).operandRecs b cmd oa fa [0] with
      | (u, .ok _) => okay (u.operandRecs b cmd ob fb [0]).2
      | _ => false
    | _ => false
  | _ => false
def mmaK : CmdKind := .mma 0 0 192 0x30 (List.replicate 16 (some 1))
def mmvK : CmdKind := .mmv 0 0 0 0x10 1
def sNm (kind : CmdKind) : State := { sT.modBlock 0 (recs kind) with mem := tables ++ [(16391, 0x20), (65539, 8)] }
theorem test_hyp_products : (sB (recs mmaK)).cmdReady (recs mmaK pB) (cmd0 mmaK) = true ∧ reads (sB (recs mmaK)) (recs mmaK pB) (cmd0 mmaK) operA operB = true ∧
    okay ((sB (recs mmaK)).firstRec (recs mmaK pB) (cmd0 mmaK) { operA with base := 65536 } none).2 = false ∧
    (sB (recs mmvK)).cmdReady (recs mmvK pB) (cmd0 mmvK) = true := by decide +kernel
def drainK (out : Nat) : CmdKind := .drain (BitVec.ofNat 512 (2 ^ 395 + 2 ^ 394 + 2 ^ 392 + out)) 0 true
theorem test_hyp_drain : (sB (recs (drainK 0))).cmdReady (recs (drainK 0) pB) (cmd0 (drainK 0)) = true ∧
    (match (sB (recs (drainK 0))).engReadEls (recs (drainK 0) pB) (cmd0 (drainK 0)) 1 4 ((List.range 16).map fun j => ((4 * j : Nat) : Int)) with
     | (u, .ok bs) => decide ((u.engWriteEls (recs (drainK 0) pB) (cmd0 (drainK 0)) 1
         (((List.range 16).map fun j => ((4 * j : Nat) : Int)).zip ((List.range 16).map fun j => (bs.drop (4 * j)).take 4))).2 = none)
     | _ => false) = true ∧
    (((List.range 16).map fun j => ((1 + 4 * j : Nat) : Int)).find? fun a => decide (a % (4 : Int) ≠ 0)) = some 1 := by decide +kernel

/-- CENC and CDEC in scratchpad, BF16 rows of 32 bytes; CPYM of a byte into a slot of 64 bytes at 0 of the block itself. -/
def cencD : Desc := BitVec.ofNat 512 (2 ^ 451 + 2 ^ 453 + 2 ^ 463 + 32 * 2 ^ 480)
def cencK : CmdKind := .copy .cenc cencD 0 0 0 0 0 0 []
def cdecK : CmdKind := .copy .cdec cencD 0 0 0 0 0 0 []
def cpymK : CmdKind := .copy .cpym cpyD 0 0 0 0 0 64 [some 0]
theorem test_hyp_encode_tile : (sB (recs cencK)).cmdReady (recs cencK pB) (cmd0 cencK) = true ∧ copyAddr cencD true (vecOf (copyCounts cencD) 0) % 32 = 0 ∧
    copyOk .cenc cencD = true ∧ okay ((sB (recs cencK)).engReadEls (recs cencK pB) (cmd0 cencK) 1 2 (elAddrs 0 32 2 16 16)).2 = true ∧
    (encTile false false (thetaOf 0) 0 0 (List.replicate 256 0)).isSome = true ∧
    ((sB (recs cencK)).engWrite (recs cencK pB) (cmd0 cencK) 1 0 (List.replicate 192 (0, false))).2 = none ∧
    copyAddr (cencD ||| BitVec.ofNat 512 (2 ^ 64)) true (vecOf (copyCounts cencD) 0) % 32 ≠ 0 := by decide +kernel
theorem test_hyp_decode_tile : (sB (recs cdecK)).cmdReady (recs cdecK pB) (cmd0 cdecK) = true ∧
    (match (sB (recs cdecK)).readTile (recs cdecK pB) (cmd0 cdecK) 1 0 with
     | (_, .ok bs) => recordBad (bs.map (·.1)) (parseTile (bs.map (·.1)))
     | _ => true) = false ∧ recordBad (1 :: List.replicate 191 0) (parseTile (1 :: List.replicate 191 0)) = true := by decide +kernel
theorem test_hyp_multicast : (sB (recs cpymK)).cmdReady (recs cpymK pB) (cmd0 cpymK) = true ∧
    okay ((sB (recs cpymK)).engRead (recs cpymK pB) (cmd0 cpymK) 1 (copyAddr cpyD false (vecOf (copyCounts cpyD) 0)) 1).2 = true ∧
    copyAddr cpyD true (vecOf (copyCounts cpyD) 0) = 0 ∧ ((some 0 : Option Nat).bind ((sB (recs cpymK)).memberOn (recs cpymK pB))).map (·.key) = some 0 ∧
    (none : Option Nat).bind ((sB (recs cpymK)).memberOn (recs cpymK pB)) = none ∧ (recs cpymK pB).spSize = 65536 ∧ (cmd0 cpymK).kind.count ≤ 1 := by
  decide +kernel

/-- A Read that stands in the queue of entry 5, whose queues stand at device address 0, and its block of 512 bytes. -/
def iordK : CmdKind := .iord true 0 0 512 5
def askedC : Cmd := { cmd0 iordK with asked := some 0 }
def sAsk : State := { sB (busy [askedC]) with nvme := sIo.nvme }
theorem test_hyp_storage : sAsk.block? 0 = some (busy [askedC] pB) ∧ sAsk.cmdReady (busy [askedC] pB) askedC = true ∧ sAsk.iordBroken 5 0 512 0 = none ∧
    askedC.asked = some askedC.iter ∧
    ((sAsk.takeCompletion (busy [askedC] pB) 0 askedC 5).engWrite (busy [askedC] pB) askedC 1 (0 : Nat) (List.replicate 512 (0, false))).2 = none := by
  decide +kernel
/-- The machine with an NM page at address 0 that holds the B record of an MMV. -/
theorem test_hyp_near_memory : reads (sNm mmvK) (recs mmvK pB) (cmd0 mmvK) { operA with kdir := false } { sp := 0, base := 0, dense := false, kdir := true, nm := true } =
    true := by decide +kernel

end Sys2Proof.Tests
end

section
/-! SUPPORT. Laws of floating point (R95 to R98, R201): the classes of values, exact arithmetic, the NaN rule, each operation by the classes of
its operands, and the order of values as that of the integers that count least subnormals. -/

namespace Sys2Proof.Laws.Float

open Machine

variable {f : Fmt} {a b c v : Nat}

/-! ## Classes of values -/

theorem eb_pos_of_mem_formats (h : f ∈ formats) : 0 < f.eb := by
  simp only [formats, List.mem_cons, List.not_mem_nil, or_false] at h
  rcases h with rfl | rfl | rfl | rfl <;> decide

theorem expMax_pos (he : 0 < f.eb) : 0 < f.expMax := by
  have := Nat.one_lt_two_pow (Nat.ne_of_gt he)
  unfold Fmt.expMax
  omega

theorem isNaN_of_isInf (h : f.isInf v = true) : f.isNaN v = false := by
  simp only [Fmt.isInf, decide_eq_true_eq] at h
  simp [Fmt.isNaN, h.2]

theorem isNaN_of_isZero (h : f.isZero v = true) : f.isNaN v = false := by
  simp only [Fmt.isZero, decide_eq_true_eq] at h
  simp [Fmt.isNaN, h.2]

theorem isZero_of_isInf (he : 0 < f.eb) (h : f.isInf v = true) : f.isZero v = false := by
  have := expMax_pos he
  simp only [Fmt.isInf, decide_eq_true_eq] at h
  simp only [Fmt.isZero, decide_eq_false_iff_not]
  omega

theorem isSig_of_num (h : f.isNaN v = false) : f.isSig v = false := by simp [Fmt.isSig, h]

/-! ## Sign and magnitude

The low bits of a value but for its sign, a number that grows with the magnitude of the value it encodes. -/

/-- The exponent and fraction bits of a value as one number. -/
def mag (f : Fmt) (v : Nat) : Nat := v % 2 ^ (f.eb + f.fb)

theorem mag_eq_expo_frac (f : Fmt) (v : Nat) : mag f v = 2 ^ f.fb * f.expo v + f.frac v := by
  rw [mag, Nat.add_comm f.eb, Nat.pow_add, Nat.mod_mul, Nat.add_comm]
  rfl

theorem frac_lt (f : Fmt) (v : Nat) : f.frac v < 2 ^ f.fb := Nat.mod_lt _ (Nat.two_pow_pos _)

theorem mag_div (f : Fmt) (v : Nat) : mag f v / 2 ^ f.fb = f.expo v := by
  rw [mag_eq_expo_frac, Nat.mul_add_div (Nat.two_pow_pos _), Nat.div_eq_of_lt (frac_lt f v), Nat.add_zero]

theorem mag_mod (f : Fmt) (v : Nat) : mag f v % 2 ^ f.fb = f.frac v := by
  rw [mag_eq_expo_frac, Nat.mul_add_mod, Nat.mod_eq_of_lt (frac_lt f v)]

theorem eq_signBit_add_mag (h : v < 2 ^ f.width) : v = f.signBit (f.sign v) + mag f v := by
  have hd := Nat.div_add_mod v (2 ^ (f.eb + f.fb))
  have hq : v / 2 ^ (f.eb + f.fb) < 2 := by
    rw [Nat.div_lt_iff_lt_mul (Nat.two_pow_pos _), ← Nat.pow_succ']
    rwa [Fmt.width, Nat.add_assoc, Nat.add_comm] at h
  unfold Fmt.signBit Fmt.sign mag
  rcases Nat.le_one_iff_eq_zero_or_eq_one.1 (Nat.lt_succ_iff.1 hq) with hq | hq <;>
    rw [hq] at hd ⊢ <;> simp_all

/-- A value is its sign and its magnitude. -/
theorem eq_iff_sign_mag (ha : a < 2 ^ f.width) (hb : b < 2 ^ f.width) : a = b ↔ f.sign a = f.sign b ∧ mag f a = mag f b :=
  ⟨fun h => h ▸ ⟨rfl, rfl⟩, fun ⟨hs, hm⟩ => by rw [eq_signBit_add_mag ha, eq_signBit_add_mag hb, hs, hm]⟩

theorem isZero_iff_mag : f.isZero v = true ↔ mag f v = 0 := by
  have := Nat.two_pow_pos f.fb
  simp only [Fmt.isZero, decide_eq_true_eq, mag_eq_expo_frac, Nat.add_eq_zero_iff, Nat.mul_eq_zero]
  omega

theorem isInf_iff_mag : f.isInf v = true ↔ mag f v = f.expMax * 2 ^ f.fb := by
  rw [Fmt.isInf, decide_eq_true_eq, ← mag_div, ← mag_mod]
  constructor
  · rintro ⟨hd, hm⟩
    rw [← Nat.div_add_mod (mag f v) (2 ^ f.fb), hd, hm, Nat.add_zero, Nat.mul_comm]
  · intro h
    rw [h]
    exact ⟨Nat.mul_div_cancel _ (Nat.two_pow_pos _), Nat.mul_mod_left _ _⟩

theorem eq_of_isInf (ha : a < 2 ^ f.width) (hb : b < 2 ^ f.width) (hia : f.isInf a = true) (hib : f.isInf b = true)
    (hs : f.sign a = f.sign b) : a = b :=
  (eq_iff_sign_mag ha hb).2 ⟨hs, (isInf_iff_mag.1 hia).trans (isInf_iff_mag.1 hib).symm⟩

/-- Below the bits of infinity lie the finite values. -/
theorem mag_lt_of_finite (h : Finite f v) : mag f v < f.expMax * 2 ^ f.fb := by
  obtain ⟨-, hn, hi⟩ := h
  have he : f.expo v < 2 ^ f.eb := Nat.mod_lt _ (Nat.two_pow_pos _)
  have hne : f.expo v ≠ f.expMax := by
    intro h
    simp only [Fmt.isNaN, Fmt.isInf, h, true_and, decide_eq_false_iff_not] at hn hi
    exact hn hi
  rw [← Nat.div_lt_iff_lt_mul (Nat.two_pow_pos _), mag_div]
  unfold Fmt.expMax at hne ⊢
  omega

theorem key_eq_mag (h : v < 2 ^ f.width) : f.key v = if f.sign v then -(mag f v : Int) - 1 else (mag f v : Int) := by
  have hv := eq_signBit_add_mag h
  unfold Fmt.key
  split
  · rfl
  · next hs => rw [hv]; simp [hs, Fmt.signBit, mag]

/-! ### Infinity -/

theorem expMax_mul_lt (f : Fmt) : f.expMax * 2 ^ f.fb < 2 ^ (f.eb + f.fb) := by
  rw [Nat.pow_add]
  refine Nat.mul_lt_mul_of_pos_right ?_ (Nat.two_pow_pos _)
  have := Nat.two_pow_pos f.eb
  unfold Fmt.expMax
  omega

theorem inf_lt (f : Fmt) (n : Bool) : f.inf n < 2 ^ f.width := by
  have := expMax_mul_lt f
  have hw : 2 ^ f.width = 2 ^ (f.eb + f.fb) * 2 := by rw [Fmt.width, Nat.add_assoc, Nat.add_comm, Nat.pow_succ]
  unfold Fmt.inf Fmt.signBit
  split <;> omega

theorem sign_inf (f : Fmt) (n : Bool) : f.sign (f.inf n) = n := by
  have h := expMax_mul_lt f
  cases n <;> simp [Fmt.sign, Fmt.inf, Fmt.signBit, Nat.div_eq_of_lt h]

theorem mag_inf (f : Fmt) (n : Bool) : mag f (f.inf n) = f.expMax * 2 ^ f.fb := by
  have h := expMax_mul_lt f
  cases n <;> simp [mag, Fmt.inf, Fmt.signBit, Nat.mod_eq_of_lt h]

theorem isInf_inf (f : Fmt) (n : Bool) : f.isInf (f.inf n) = true := isInf_iff_mag.2 (mag_inf f n)

/-! ## Exact arithmetic -/

/-- An exact value as an integer number of units `2^e`, for `e` at most its exponent. -/
def units (e : Int) (d : Dy) : Int := if d.neg then -((d.m * 2 ^ (d.e - e).toNat : Nat) : Int) else (d.m * 2 ^ (d.e - e).toNat : Nat)

theorem rat_eq_units {e : Int} {d : Dy} (h : e ≤ d.e) : Dy.rat d = units e d * 2 ^ e := by
  have hp : (2 : ℚ) ^ d.e = 2 ^ (d.e - e).toNat * 2 ^ e := by
    rw [← zpow_natCast, ← zpow_add₀ two_ne_zero, Int.toNat_of_nonneg (by omega), Int.sub_add_cancel]
  unfold Dy.rat units
  rw [hp]
  split <;> push_cast <;> ring

theorem rat_natAbs (v e : Int) : Dy.rat ⟨decide (v < 0), v.natAbs, e⟩ = v * 2 ^ e := by
  rw [rat_eq_units (le_refl e)]
  congr 2
  simp only [units, Int.sub_self, Int.toNat_zero, Nat.pow_zero, Nat.mul_one, decide_eq_true_eq]
  split <;> omega

theorem rat_eq_zero_iff {d : Dy} : Dy.rat d = 0 ↔ d.m = 0 := by
  have := zpow_ne_zero d.e (two_ne_zero (α := ℚ))
  unfold Dy.rat
  split <;> simp [this]

theorem rat_mk_zero (n : Bool) (e : Int) : Dy.rat ⟨n, 0, e⟩ = 0 := rat_eq_zero_iff.2 rfl

theorem dyAdd_eq_units (mode : Nat) (x y : Dy) : dyAdd mode x y =
    if units (min x.e y.e) x + units (min x.e y.e) y = 0 then ⟨if x.neg = y.neg then x.neg else decide (mode = 3), 0, min x.e y.e⟩
    else ⟨decide (units (min x.e y.e) x + units (min x.e y.e) y < 0), (units (min x.e y.e) x + units (min x.e y.e) y).natAbs, min x.e y.e⟩ :=
  rfl

theorem rat_dyAdd (mode : Nat) (x y : Dy) : Dy.rat (dyAdd mode x y) = Dy.rat x + Dy.rat y := by
  rw [rat_eq_units (min_le_left x.e y.e), rat_eq_units (min_le_right x.e y.e), ← add_mul, ← Int.cast_add, dyAdd_eq_units]
  split
  · next h => rw [h, rat_mk_zero, Int.cast_zero, zero_mul]
  · exact rat_natAbs _ _

theorem dyAdd_neg_of_sum_zero {mode : Nat} {x y : Dy} (h : Dy.rat x + Dy.rat y = 0) :
    (dyAdd mode x y).neg = if x.neg = y.neg then x.neg else decide (mode = 3) := by
  rw [rat_eq_units (min_le_left x.e y.e), rat_eq_units (min_le_right x.e y.e), ← add_mul, ← Int.cast_add, mul_eq_zero] at h
  have hz := Int.cast_eq_zero.1 (h.resolve_right (zpow_ne_zero _ two_ne_zero))
  rw [dyAdd_eq_units, if_pos hz]

theorem dyAdd_comm (mode : Nat) (x y : Dy) : dyAdd mode x y = dyAdd mode y x := by
  have hn : (if x.neg = y.neg then x.neg else decide (mode = 3)) = if y.neg = x.neg then y.neg else decide (mode = 3) := by
    by_cases h : x.neg = y.neg
    · simp [h]
    · simp [h, Ne.symm h]
  rw [dyAdd_eq_units, dyAdd_eq_units, min_comm, add_comm, hn]

theorem rat_dyMul (x y : Dy) : Dy.rat (dyMul x y) = Dy.rat x * Dy.rat y := by
  unfold Dy.rat dyMul
  rw [zpow_add₀ two_ne_zero]
  cases x.neg <;> cases y.neg <;> simp <;> ring

theorem dyMul_comm (x y : Dy) : dyMul x y = dyMul y x := by
  simp only [dyMul, bne_comm, Nat.mul_comm x.m, Int.add_comm x.e]

theorem real_neg (f : Fmt) (v : Nat) : (f.real v).neg = f.sign v := by
  unfold Fmt.real
  split <;> rfl

theorem roundFP_of_rat_zero (mode : Nat) {d : Dy} (h : Dy.rat d = 0) : roundFP f mode d = (f.signBit d.neg, 0) := by
  unfold roundFP
  rw [if_pos (rat_eq_zero_iff.1 h)]

/-! ## The NaN rule (R97 items 1 and 3) -/

@[simp] theorem nanRule_nil (f : Fmt) : nanRule f [] = none := rfl

@[simp] theorem nanRule_cons_nan (vs : List Nat) (h : f.isNaN v = true) :
    nanRule f (v :: vs) = some (f.quiet v, if (v :: vs).any f.isSig then flIV else 0) := by
  simp [nanRule, h]

@[simp] theorem nanRule_cons_num (vs : List Nat) (h : f.isNaN v = false) : nanRule f (v :: vs) = nanRule f vs := by
  simp [nanRule, h, isSig_of_num h]

/-! ## Sums by the classes of their operands -/

theorem fAdd_nan_left (m b : Nat) (h : f.isNaN a = true) : fAdd f m a b = (f.quiet a, if f.isSig a || f.isSig b then flIV else 0) := by
  simp [fAdd, h]

theorem fAdd_nan_right (m : Nat) (ha : f.isNaN a = false) (hb : f.isNaN b = true) :
    fAdd f m a b = (f.quiet b, if f.isSig b then flIV else 0) := by
  simp [fAdd, ha, hb]

theorem fAdd_num (m : Nat) (ha : f.isNaN a = false) (hb : f.isNaN b = false) : fAdd f m a b =
    if f.isInf a && f.isInf b then (if f.sign a = f.sign b then (a, 0) else (f.nan, flIV))
    else if f.isInf a then (a, 0)
    else if f.isInf b then (b, 0)
    else roundFP f m (dyAdd m (f.real a) (f.real b)) := by
  simp [fAdd, ha, hb]

theorem fAdd_inf_inf (m : Nat) (ha : f.isInf a = true) (hb : f.isInf b = true) :
    fAdd f m a b = if f.sign a = f.sign b then (a, 0) else (f.nan, flIV) := by
  simp [fAdd_num m (isNaN_of_isInf ha) (isNaN_of_isInf hb), ha, hb]

theorem fAdd_finite (m : Nat) (ha : Finite f a) (hb : Finite f b) : fAdd f m a b = roundFP f m (dyAdd m (f.real a) (f.real b)) := by
  obtain ⟨-, hna, hia⟩ := ha
  obtain ⟨-, hnb, hib⟩ := hb
  simp [fAdd_num m hna hnb, hia, hib]

theorem fAdd_comm (m : Nat) (ha : a < 2 ^ f.width) (hb : b < 2 ^ f.width) (hna : f.isNaN a = false) (hnb : f.isNaN b = false) :
    fAdd f m a b = fAdd f m b a := by
  rw [fAdd_num m hna hnb, fAdd_num m hnb hna, dyAdd_comm]
  cases hia : f.isInf a <;> cases hib : f.isInf b
  case true.true =>
    by_cases hs : f.sign a = f.sign b
    · rw [eq_of_isInf ha hb hia hib hs]
    · simp [hs, Ne.symm hs]
  all_goals simp

/-! ## Products by the classes of their operands -/

theorem fMul_nan_left (m b : Nat) (h : f.isNaN a = true) : fMul f m a b = (f.quiet a, if f.isSig a || f.isSig b then flIV else 0) := by
  simp [fMul, h]

theorem fMul_nan_right (m : Nat) (ha : f.isNaN a = false) (hb : f.isNaN b = true) :
    fMul f m a b = (f.quiet b, if f.isSig b then flIV else 0) := by
  simp [fMul, ha, hb]

theorem fMul_num (m : Nat) (ha : f.isNaN a = false) (hb : f.isNaN b = false) : fMul f m a b =
    if f.isInf a || f.isInf b then (if f.isZero a || f.isZero b then (f.nan, flIV) else (f.inf (f.sign a != f.sign b), 0))
    else roundFP f m (dyMul (f.real a) (f.real b)) := by
  simp [fMul, ha, hb]

theorem fMul_comm (m : Nat) (hna : f.isNaN a = false) (hnb : f.isNaN b = false) : fMul f m a b = fMul f m b a := by
  rw [fMul_num m hna hnb, fMul_num m hnb hna, dyMul_comm, Bool.or_comm (f.isInf a), Bool.or_comm (f.isZero a), bne_comm]

theorem fMul_inf_zero (m : Nat) (ha : f.isInf a = true) (hb : f.isZero b = true) : fMul f m a b = (f.nan, flIV) := by
  simp [fMul_num m (isNaN_of_isInf ha) (isNaN_of_isZero hb), ha, hb]

theorem fMul_inf_nonzero (m : Nat) (he : 0 < f.eb) (ha : f.isInf a = true) (hb : f.isNaN b = false) (hz : f.isZero b = false) :
    fMul f m a b = (f.inf (f.sign a != f.sign b), 0) := by
  simp [fMul_num m (isNaN_of_isInf ha) hb, ha, hz, isZero_of_isInf he ha]

theorem fMul_finite (m : Nat) (ha : Finite f a) (hb : Finite f b) : fMul f m a b = roundFP f m (dyMul (f.real a) (f.real b)) := by
  obtain ⟨-, hna, hia⟩ := ha
  obtain ⟨-, hnb, hib⟩ := hb
  simp [fMul_num m hna hnb, hia, hib]

/-! ## Fused sums by the classes of their operands -/

/-- ∞ × 0 is invalid beside any third operand, a quiet NaN too (R97 item 4). -/
theorem fFma_inf_zero_iv (m c : Nat) (ha : f.isInf a = true) (hb : f.isZero b = true) : (fFma f m a b c).2 &&& flIV = flIV := by
  have hna := isNaN_of_isInf ha
  have hnb := isNaN_of_isZero hb
  cases hc : f.isNaN c with
  | false => simp [fFma, ha, hb, hna, hnb, hc]
  | true => cases hs : f.isSig c <;> simp [fFma, ha, hb, hna, hnb, hc, hs]

theorem fFma_inf_zero_num (m : Nat) (ha : f.isInf a = true) (hb : f.isZero b = true) (hc : f.isNaN c = false) :
    (fFma f m a b c).1 = f.nan := by
  simp [fFma, ha, hb, isNaN_of_isInf ha, isNaN_of_isZero hb, hc]

theorem fFma_nan_third (m : Nat) (ha : f.isNaN a = false) (hb : f.isNaN b = false) (hc : f.isNaN c = true) :
    (fFma f m a b c).1 = f.quiet c := by
  simp [fFma, ha, hb, hc]

theorem fFma_finite (m : Nat) (ha : Finite f a) (hb : Finite f b) (hc : Finite f c) :
    fFma f m a b c = roundFP f m (dyAdd m (dyMul (f.real a) (f.real b)) (f.real c)) := by
  obtain ⟨-, hna, hia⟩ := ha
  obtain ⟨-, hnb, hib⟩ := hb
  obtain ⟨-, hnc, hic⟩ := hc
  simp [fFma, hna, hnb, hnc, hia, hib, hic]

/-! ## Results of finite operands are exact results rounded once (R96) -/

theorem fAdd_rounds_sum (m : Nat) (ha : Finite f a) (hb : Finite f b) :
    ∃ d : Dy, Dy.rat d = Dy.rat (f.real a) + Dy.rat (f.real b) ∧
      (Dy.rat (f.real a) + Dy.rat (f.real b) = 0 → d.neg = if f.sign a = f.sign b then f.sign a else decide (m = 3)) ∧
      fAdd f m a b = roundFP f m d :=
  ⟨dyAdd m (f.real a) (f.real b), rat_dyAdd _ _ _, fun h => by rw [dyAdd_neg_of_sum_zero h, real_neg, real_neg], fAdd_finite m ha hb⟩

theorem fMul_rounds_product (m : Nat) (ha : Finite f a) (hb : Finite f b) :
    ∃ d : Dy, Dy.rat d = Dy.rat (f.real a) * Dy.rat (f.real b) ∧ d.neg = (f.sign a != f.sign b) ∧ fMul f m a b = roundFP f m d :=
  ⟨dyMul (f.real a) (f.real b), rat_dyMul _ _, by simp only [dyMul, real_neg], fMul_finite m ha hb⟩

theorem fFma_rounds_fused_sum (m : Nat) (ha : Finite f a) (hb : Finite f b) (hc : Finite f c) :
    ∃ d : Dy, Dy.rat d = Dy.rat (f.real a) * Dy.rat (f.real b) + Dy.rat (f.real c) ∧
      (Dy.rat (f.real a) * Dy.rat (f.real b) + Dy.rat (f.real c) = 0 →
        d.neg = if (f.sign a != f.sign b) = f.sign c then f.sign a != f.sign b else decide (m = 3)) ∧
      fFma f m a b c = roundFP f m d := by
  refine ⟨dyAdd m (dyMul (f.real a) (f.real b)) (f.real c), by rw [rat_dyAdd, rat_dyMul], fun h => ?_, fFma_finite m ha hb hc⟩
  rw [← rat_dyMul] at h
  rw [dyAdd_neg_of_sum_zero h, dyMul, real_neg, real_neg, real_neg]

/-! ## The order of finite values

The magnitude bits count, in order, the values that the format has; `steps` counts how many least subnormals each of them is worth. -/

/-- The magnitude with bits `u`, in least subnormals. -/
def steps (f : Fmt) (u : Nat) : Nat :=
  if u / 2 ^ f.fb = 0 then u % 2 ^ f.fb else (2 ^ f.fb + u % 2 ^ f.fb) * 2 ^ (u / 2 ^ f.fb - 1)

@[simp] theorem steps_zero (f : Fmt) : steps f 0 = 0 := by simp [steps]

theorem steps_lt_binade (f : Fmt) (u : Nat) : steps f u < 2 ^ f.fb * 2 ^ (u / 2 ^ f.fb) := by
  have hr : u % 2 ^ f.fb < 2 ^ f.fb := Nat.mod_lt _ (Nat.two_pow_pos _)
  unfold steps
  split
  · next h => rwa [h, Nat.pow_zero, Nat.mul_one]
  · next h =>
    obtain ⟨k, hk⟩ := Nat.exists_eq_succ_of_ne_zero h
    have := Nat.mul_lt_mul_of_pos_right (show 2 ^ f.fb + u % 2 ^ f.fb < 2 ^ f.fb * 2 by omega) (Nat.two_pow_pos k)
    rw [hk, Nat.pow_succ', Nat.succ_sub_one, ← Nat.mul_assoc]
    exact this

theorem binade_le_steps {u : Nat} (h : u / 2 ^ f.fb ≠ 0) : 2 ^ f.fb * 2 ^ (u / 2 ^ f.fb - 1) ≤ steps f u := by
  rw [steps, if_neg h]
  exact Nat.mul_le_mul_right _ (Nat.le_add_right _ _)

theorem steps_strictMono (f : Fmt) : StrictMono (steps f) := by
  intro u w h
  rcases Nat.eq_or_lt_of_le (Nat.div_le_div_right (c := 2 ^ f.fb) h.le) with hq | hq
  · have hr : u % 2 ^ f.fb < w % 2 ^ f.fb := by
      have hu := Nat.div_add_mod u (2 ^ f.fb)
      have hw := Nat.div_add_mod w (2 ^ f.fb)
      rw [hq] at hu
      omega
    unfold steps
    rw [hq]
    split
    · exact hr
    · exact Nat.mul_lt_mul_of_pos_right (Nat.add_lt_add_left hr _) (Nat.two_pow_pos _)
  · calc steps f u < 2 ^ f.fb * 2 ^ (u / 2 ^ f.fb) := steps_lt_binade f u
      _ ≤ 2 ^ f.fb * 2 ^ (w / 2 ^ f.fb - 1) := Nat.mul_le_mul_left _ (Nat.pow_le_pow_right two_pos (Nat.le_sub_one_of_lt hq))
      _ ≤ steps f w := binade_le_steps (Nat.ne_zero_of_lt hq)

theorem steps_eq_zero_iff (f : Fmt) (u : Nat) : steps f u = 0 ↔ u = 0 := by
  rw [← (steps_strictMono f).injective.eq_iff (a := u) (b := 0), steps_zero]

/-- A value in least subnormals, with its sign. -/
def ulps (f : Fmt) (v : Nat) : Int := if f.sign v then -(steps f (mag f v) : Int) else (steps f (mag f v) : Int)

theorem rat_real (f : Fmt) (v : Nat) : Dy.rat (f.real v) = ulps f v * 2 ^ (1 - (f.bias : Int) - f.fb) := by
  unfold ulps steps Fmt.real
  rw [mag_div, mag_mod]
  split
  · cases f.sign v <;> simp [Dy.rat]
  · next h =>
    rw [rat_eq_units (show 1 - (f.bias : Int) - f.fb ≤ (f.expo v : Int) - f.bias - f.fb by omega), units]
    rw [show ((f.expo v : Int) - f.bias - f.fb - (1 - f.bias - f.fb)).toNat = f.expo v - 1 by omega]

theorem rat_real_lt_iff : Dy.rat (f.real a) < Dy.rat (f.real b) ↔ ulps f a < ulps f b := by
  rw [rat_real, rat_real, mul_lt_mul_iff_left₀ (zpow_pos two_pos _), Int.cast_lt]

theorem rat_real_eq_iff : Dy.rat (f.real a) = Dy.rat (f.real b) ↔ ulps f a = ulps f b := by
  rw [rat_real, rat_real, mul_left_inj' (zpow_ne_zero _ two_ne_zero), Int.cast_inj]

theorem fLt_num (ha : f.isNaN a = false) (hb : f.isNaN b = false) :
    fLt f a b = true ↔ ¬ (mag f a = 0 ∧ mag f b = 0) ∧ f.key a < f.key b := by
  simp only [← isZero_iff_mag, fLt, ha, hb, Bool.not_false, Bool.true_and, Bool.and_eq_true, Bool.not_eq_true', decide_eq_true_eq,
    ← Bool.not_eq_true]

theorem fEq_num (ha : f.isNaN a = false) (hb : f.isNaN b = false) : fEq f a b = true ↔ mag f a = 0 ∧ mag f b = 0 ∨ a = b := by
  rw [← isZero_iff_mag, ← isZero_iff_mag]
  simp [fEq, ha, hb]

theorem fLt_iff_rat (ha : Finite f a) (hb : Finite f b) : fLt f a b = true ↔ Dy.rat (f.real a) < Dy.rat (f.real b) := by
  obtain ⟨hwa, hna, -⟩ := ha
  obtain ⟨hwb, hnb, -⟩ := hb
  have hza := steps_eq_zero_iff f (mag f a)
  have hzb := steps_eq_zero_iff f (mag f b)
  have hlt := (steps_strictMono f).lt_iff_lt (a := mag f a) (b := mag f b)
  have hgt := (steps_strictMono f).lt_iff_lt (a := mag f b) (b := mag f a)
  rw [fLt_num hna hnb, rat_real_lt_iff, key_eq_mag hwa, key_eq_mag hwb, ulps, ulps]
  cases f.sign a <;> cases f.sign b <;> simp only [if_true, if_false, Bool.false_eq_true] <;> omega

theorem fEq_iff_rat (ha : Finite f a) (hb : Finite f b) : fEq f a b = true ↔ Dy.rat (f.real a) = Dy.rat (f.real b) := by
  obtain ⟨hwa, hna, -⟩ := ha
  obtain ⟨hwb, hnb, -⟩ := hb
  have hza := steps_eq_zero_iff f (mag f a)
  have hzb := steps_eq_zero_iff f (mag f b)
  have heq := (steps_strictMono f).injective.eq_iff (a := mag f a) (b := mag f b)
  rw [fEq_num hna hnb, eq_iff_sign_mag hwa hwb, rat_real_eq_iff, ulps, ulps]
  cases f.sign a <;> cases f.sign b <;>
    simp only [if_true, if_false, Bool.false_eq_true, reduceCtorEq, true_and, false_and, or_false] <;> omega

theorem fLt_nan (h : f.isNaN a = true ∨ f.isNaN b = true) : fLt f a b = false := by
  rcases h with h | h <;> simp [fLt, h]

theorem fEq_nan (h : f.isNaN a = true ∨ f.isNaN b = true) : fEq f a b = false := by
  rcases h with h | h <;> simp [fEq, h]

theorem fLt_inf (h : Finite f a) : fLt f a (f.inf false) = true := by
  have hm := mag_lt_of_finite h
  obtain ⟨hw, hn, -⟩ := h
  rw [fLt_num hn (isNaN_of_isInf (isInf_inf f false)), key_eq_mag hw, key_eq_mag (inf_lt f false), sign_inf, mag_inf]
  generalize f.expMax * 2 ^ f.fb = top at hm ⊢
  cases f.sign a <;> simp only [if_true, if_false, Bool.false_eq_true] <;> omega

theorem neg_inf_fLt (h : Finite f a) : fLt f (f.inf true) a = true := by
  have hm := mag_lt_of_finite h
  obtain ⟨hw, hn, -⟩ := h
  rw [fLt_num (isNaN_of_isInf (isInf_inf f true)) hn, key_eq_mag hw, key_eq_mag (inf_lt f true), sign_inf, mag_inf]
  generalize f.expMax * 2 ^ f.fb = top at hm ⊢
  cases f.sign a <;> simp only [if_true, if_false, Bool.false_eq_true] <;> omega

/-! ## minimumNumber and maximumNumber (R98) -/

theorem fMinMax_nan_left (k : Bool) (ha : f.isNaN a = true) (hb : f.isNaN b = false) :
    fMinMax f k a b = (b, if f.isSig a then flIV else 0) := by
  simp [fMinMax, ha, hb, isSig_of_num hb]

theorem fMinMax_nan_right (k : Bool) (ha : f.isNaN a = true) (hb : f.isNaN b = false) :
    fMinMax f k b a = (b, if f.isSig a then flIV else 0) := by
  simp [fMinMax, ha, hb, isSig_of_num hb]

theorem fMinMax_nans (k : Bool) (ha : f.isNaN a = true) (hb : f.isNaN b = true) :
    fMinMax f k a b = (f.quiet a, if f.isSig a || f.isSig b then flIV else 0) := by
  simp [fMinMax, ha, hb]

/-- The key orders numbers as compares do, and −0 below +0; two zeros of one sign are the same value. -/
theorem key_lt_iff (ha : a < 2 ^ f.width) (hb : b < 2 ^ f.width) (hna : f.isNaN a = false) (hnb : f.isNaN b = false) :
    f.key a < f.key b ↔ (fLt f a b || (f.isZero a && f.isZero b) && f.sign a) = true ∧ a ≠ b := by
  rw [Bool.or_eq_true, Bool.and_eq_true, Bool.and_eq_true, fLt_num hna hnb, isZero_iff_mag, isZero_iff_mag, Ne, eq_iff_sign_mag ha hb,
    key_eq_mag ha, key_eq_mag hb]
  cases f.sign a <;> cases f.sign b <;>
    simp only [if_true, if_false, Bool.false_eq_true, reduceCtorEq, true_and, false_and, and_true, and_false, or_false, not_false_eq_true] <;> omega

theorem ite_ne_self_right (p : Bool) (x y : Nat) : (if p = true ∧ y ≠ x then y else x) = if p then y else x := by
  by_cases h : y = x <;> simp [h]

theorem fMin_num (ha : a < 2 ^ f.width) (hb : b < 2 ^ f.width) (hna : f.isNaN a = false) (hnb : f.isNaN b = false) :
    fMinMax f false a b = (if fLt f b a || (f.isZero a && f.isZero b) && f.sign b then b else a, 0) := by
  have hk : fMinMax f false a b = (if f.key b < f.key a then b else a, 0) := by simp [fMinMax, hna, hnb]
  simp only [hk, key_lt_iff hb ha hnb hna, Bool.and_comm (f.isZero b), ite_ne_self_right]

theorem fMax_num (ha : a < 2 ^ f.width) (hb : b < 2 ^ f.width) (hna : f.isNaN a = false) (hnb : f.isNaN b = false) :
    fMinMax f true a b = (if fLt f a b || (f.isZero a && f.isZero b) && f.sign a then b else a, 0) := by
  have hk : fMinMax f true a b = (if f.key a < f.key b then b else a, 0) := by simp [fMinMax, hna, hnb]
  simp only [hk, key_lt_iff ha hb hna hnb, ne_comm (a := a), ite_ne_self_right]

end Sys2Proof.Laws.Float

namespace Sys2Proof

open Machine Laws.Float

/-- Settles O18: operation by operation, by the classes of the operands; exact sums and products are integers of units; the order of compares
is that of the values counted in least subnormals. -/
theorem floatSpecialsAndOrder : Obligations.FloatSpecialsAndOrder := by
  unfold Obligations.FloatSpecialsAndOrder
  refine ⟨fun f hf m a b c ha hb _ => ?_, fun f _ m _ => ⟨fun d => roundFP_of_rat_zero m, fun a b c ha hb hc => ?_⟩, fun f _ a b => ?_⟩
  · have he := eb_pos_of_mem_formats hf
    refine ⟨fun h => ⟨fAdd_nan_left m b h, fMul_nan_left m b h⟩, fun h h' => ⟨fAdd_nan_right m h h', fMul_nan_right m h h'⟩, fun h h' => ?_,
      fun h h' => ⟨fMul_inf_zero m h h', ?_, fFma_inf_zero_iv m c h h', fFma_inf_zero_num m h h'⟩, fMul_inf_nonzero m he,
      fun h h' h'' => fFma_nan_third m h' h'' h, fun h h' => ⟨fAdd_comm m ha hb h h', fMul_comm m h h'⟩,
      fun h h' k => ⟨fMinMax_nan_left k h h', fMinMax_nan_right k h h'⟩, fun h h' k => fMinMax_nans k h h',
      fun h h' => ⟨fMin_num ha hb h h', fMax_num ha hb h h'⟩⟩
    · rw [fAdd_inf_inf m h h']
      cases f.sign a <;> cases f.sign b <;> rfl
    · rw [fMul_comm m (isNaN_of_isZero h') (isNaN_of_isInf h), fMul_inf_zero m h h']
  · exact ⟨fAdd_rounds_sum m ha hb, fMul_rounds_product m ha hb, fFma_rounds_fused_sum m ha hb hc⟩
  · exact ⟨fun ha hb => ⟨fLt_iff_rat ha hb, fEq_iff_rat ha hb⟩, fun h => ⟨fLt_nan h, fEq_nan h⟩,
      fun ha => ⟨fLt_inf ha, neg_inf_fLt ha⟩⟩

end Sys2Proof
end

section
/-! SUPPORT. Laws of the integer lane forms (R193, R198): shifts as products and quotients, the halves of a packed word, and what the shared
forms give each lane by the operation of their instruction. -/

namespace Sys2Proof.Laws.Integer

open Machine

variable {s : State} {c : Cx} {x : LaneArgs} {i : Instr} {n : Nat}

/-! ## Shifts, by the width or more too -/

/-- The counts that R193 sets apart give what the shift itself gives. -/
theorem shlVal_eq_shiftLeft (a : BitVec n) (k : Nat) : shlVal a k = a <<< k := by
  unfold shlVal
  split
  · rfl
  · next hk => exact (BitVec.shiftLeft_eq_zero (not_lt.1 hk)).symm

theorem shrVal_eq_ushiftRight (a : BitVec n) (k : Nat) : shrVal a k = a >>> k := by
  unfold shrVal
  split
  · rfl
  · next hk => exact (BitVec.ushiftRight_eq_zero (not_lt.1 hk)).symm

theorem sarVal_eq_sshiftRight (a : BitVec n) (k : Nat) : sarVal a k = a.sshiftRight k := by
  unfold sarVal
  split
  · rfl
  · next hk =>
    ext j hj
    have hjk : ¬ k + j < n := by omega
    rw [BitVec.getElem_sshiftRight, dif_neg hjk]
    cases a.msb <;> simp [BitVec.neg_one_eq_allOnes]

theorem shlVal_eq_mul (a : BitVec n) (k : Nat) : shlVal a k = .ofNat n (a.toNat * 2 ^ k) := by
  rw [shlVal_eq_shiftLeft]
  apply BitVec.eq_of_toNat_eq
  rw [BitVec.toNat_shiftLeft, BitVec.toNat_ofNat, Nat.shiftLeft_eq]

theorem shrVal_eq_div (a : BitVec n) (k : Nat) : shrVal a k = .ofNat n (a.toNat / 2 ^ k) := by
  have hq : a.toNat / 2 ^ k < 2 ^ n := (Nat.div_le_self _ _).trans_lt a.isLt
  rw [shrVal_eq_ushiftRight]
  apply BitVec.eq_of_toNat_eq
  rw [BitVec.toNat_ushiftRight, BitVec.toNat_ofNat, Nat.mod_eq_of_lt hq, Nat.shiftRight_eq_div_pow]

theorem sarVal_eq_div (a : BitVec n) (k : Nat) : sarVal a k = .ofInt n (a.toInt / 2 ^ k) := by
  rw [sarVal_eq_sshiftRight, BitVec.sshiftRight, Int.shiftRight_eq_div_pow]
  norm_cast

theorem nbits_low_byte (v : Nat) : nbits v 7 0 = v % 256 := by simp [nbits]

/-- What a shift gives each lane, by the operation `op` of its width. -/
theorem gives_of_intShift {f : Word → Nat → Word} {g : DWord → Nat → DWord} (op : (n : Nat) → BitVec n → Nat → BitVec n)
    (h : Executes s c) (hi : exec i s = intShift x s f g) (hf : ∀ a k, f a k = op 32 a k) (hg : ∀ a k, g a k = op 64 a k) :
    Gives i s c x (x.sub.getLsbD 0) fun l =>
      (if x.sub.getLsbD 0 then op 64 (Cx64 c s x.a l) ((Cx32 c s x.b l).toNat % 256)
       else (op 32 (Cx32 c s x.a l) ((Cx32 c s x.b l).toNat % 256)).setWidth 64, 0) := by
  unfold Gives
  rw [hi, intShift]
  simp only [nbits_low_byte, hf, hg]
  cases x.sub.getLsbD 0
  · exact withCx_laneForm h x false _
  · exact withCx_laneForm h x true _

/-! ## Packed halves -/

/-- Bits [15:0] (`j` = 0) or [31:16] (`j` = 1). -/
def half (v : Word) (j : Nat) : BitVec 16 := .ofNat 16 (v.toNat / 65536 ^ j)

/-- A result of two halves. -/
def join (r : Nat → BitVec 16) : DWord := .ofNat 64 ((r 0).toNat + 65536 * (r 1).toNat)

theorem extractLsb_low (v : Word) : v.extractLsb 15 0 = half v 0 := by
  apply BitVec.eq_of_toNat_eq
  simp [half]

theorem extractLsb_high (v : Word) : v.extractLsb 31 16 = half v 1 := by
  apply BitVec.eq_of_toNat_eq
  simp [half, Nat.shiftRight_eq_div_pow]

/-- A packed form acts on each half on its own. -/
theorem halves_eq_join (f : BitVec 16 → BitVec 16 → BitVec 16) (a b : Word) :
    (halves f a b).setWidth 64 = join fun j => f (half a j) (half b j) := by
  rw [halves, extractLsb_low, extractLsb_low, extractLsb_high, extractLsb_high]
  apply BitVec.eq_of_toNat_eq
  have h0 := (f (half a 0) (half b 0)).isLt
  have h1 := (f (half a 1) (half b 1)).isLt
  rw [join, BitVec.toNat_setWidth, BitVec.toNat_append, BitVec.toNat_ofNat, ← Nat.shiftLeft_add_eq_or_of_lt h0, Nat.shiftLeft_eq]
  omega

theorem add_eq_ofInt (a b : BitVec n) : a + b = .ofInt n (a.toInt + b.toInt) := by
  rw [BitVec.ofInt_add, BitVec.ofInt_toInt, BitVec.ofInt_toInt]

theorem sub_eq_ofInt (a b : BitVec n) : a - b = .ofInt n (a.toInt - b.toInt) := by
  rw [Int.sub_eq_add_neg, BitVec.ofInt_add, BitVec.ofInt_neg, BitVec.ofInt_toInt, BitVec.ofInt_toInt, BitVec.sub_eq_add_neg]

theorem ite_slt_eq_min (a b : BitVec n) : (if b.slt a then b else a) = .ofInt n (min a.toInt b.toInt) := by
  simp only [BitVec.slt_iff_toInt_lt]
  split
  · next hlt => rw [min_eq_right hlt.le, BitVec.ofInt_toInt]
  · next hlt => rw [min_eq_left (not_lt.1 hlt), BitVec.ofInt_toInt]

theorem ite_slt_eq_max (a b : BitVec n) : (if a.slt b then b else a) = .ofInt n (max a.toInt b.toInt) := by
  simp only [BitVec.slt_iff_toInt_lt]
  split
  · next hlt => rw [max_eq_right hlt.le, BitVec.ofInt_toInt]
  · next hlt => rw [max_eq_left (not_lt.1 hlt), BitVec.ofInt_toInt]

/-- What a packed form gives each lane, by the exact operation `op` on signed halves. -/
theorem gives_of_halves {f : BitVec 16 → BitVec 16 → BitVec 16} (op : Int → Int → Int) (h : Executes s c)
    (hi : exec i s = int32 x s (halves f)) (hf : ∀ a b, f a b = .ofInt 16 (op a.toInt b.toInt)) :
    Gives i s c x false fun l =>
      (join fun j => .ofInt 16 (op (half (Cx32 c s x.a l) j).toInt (half (Cx32 c s x.b l) j).toInt), 0) := by
  unfold Gives
  rw [hi, int32]
  simp only [halves_eq_join, hf]
  exact withCx_laneForm h x false _

/-- A well-formed instruction of a form without a continuation field has every such field as omitted (R174, R183). -/
theorem fields_omitted_of_plain {cl : Cls} {op : Nat} {one : Bool} (hp : i.parts = .lane cl op x)
    (hs : laneSpec cl op x.sub = some (.plain x.sub one)) (hw : i.wellFormed = true) :
    x.c = .zero ∧ x.rnd = 0 ∧ x.neg = 0 ∧ x.abs = 0 ∧ x.sub = 0 := by
  simp only [Instr.wellFormed, Instr.instrOk, hp, laneInstrOk, hs, LaneSpec.plain, Bool.and_eq_true, Bool.or_eq_true, decide_eq_true_eq,
    Bool.false_eq_true, false_or, if_false, and_assoc] at hw
  obtain ⟨-, hsub, -, -, hrnd, hneg, habs, -, -, hc, -⟩ := hw
  rw [BitVec.ofNat_eq_ofNat, BitVec.not_zero, BitVec.and_allOnes] at hneg habs
  exact ⟨hc, by bv_omega, hneg, habs, hsub⟩

end Sys2Proof.Laws.Integer

namespace Sys2Proof

open Machine Laws.Integer

/-- Settles O11: each form is the shared shift by the low byte of B, whose value is the product or the quotient at every count. -/
theorem integerShift : Obligations.IntegerShift := by
  unfold Obligations.IntegerShift
  simp only [List.forall_mem_cons, List.not_mem_nil, false_imp_iff, implies_true, and_true]
  refine ⟨⟨fun _ => rfl, fun s c x h => ?_⟩, ⟨fun _ => rfl, fun s c x h => ?_⟩, ⟨fun _ => rfl, fun s c x h => ?_⟩⟩
  · exact gives_of_intShift (fun n a k => .ofNat n (a.toNat * 2 ^ k)) h rfl shlVal_eq_mul shlVal_eq_mul
  · exact gives_of_intShift (fun n a k => .ofNat n (a.toNat / 2 ^ k)) h rfl shrVal_eq_div shrVal_eq_div
  · exact gives_of_intShift (fun n a k => .ofInt n (a.toInt / 2 ^ k)) h rfl sarVal_eq_div sarVal_eq_div

/-- Settles O14: each form is the shared packed form, whose operation on a half is the exact one narrowed to 16 bits. -/
theorem packedInteger : Obligations.PackedInteger := by
  unfold Obligations.PackedInteger
  simp only [List.forall_mem_cons, List.not_mem_nil, false_imp_iff, implies_true, and_true]
  exact ⟨⟨fun _ => ⟨rfl, fields_omitted_of_plain rfl rfl⟩, fun _ _ _ h => gives_of_halves (· + ·) h rfl add_eq_ofInt⟩,
    ⟨fun _ => ⟨rfl, fields_omitted_of_plain rfl rfl⟩, fun _ _ _ h => gives_of_halves (· - ·) h rfl sub_eq_ofInt⟩,
    ⟨fun _ => ⟨rfl, fields_omitted_of_plain rfl rfl⟩, fun _ _ _ h => gives_of_halves min h rfl ite_slt_eq_min⟩,
    ⟨fun _ => ⟨rfl, fields_omitted_of_plain rfl rfl⟩, fun _ _ _ h => gives_of_halves max h rfl ite_slt_eq_max⟩,
    ⟨fun _ => ⟨rfl, fields_omitted_of_plain rfl rfl⟩,
      fun _ _ _ h => gives_of_halves (fun a b => max (-32768) (min 32767 (a + b))) h rfl fun _ _ => rfl⟩,
    ⟨fun _ => ⟨rfl, fields_omitted_of_plain rfl rfl⟩,
      fun _ _ _ h => gives_of_halves (fun a b => max (-32768) (min 32767 (a - b))) h rfl fun _ _ => rfl⟩⟩

end Sys2Proof
end
